-- ==== Sys2Proof/Word.lean ====
section
/-! DEFINITION. The word types of the Nerlux architecture and their plainest arithmetic. -/

namespace Sys2Proof

/-- A 64-bit register, address or memory word (R36, R87). -/
abbrev Word := BitVec 64

/-- One byte of memory (R6). -/
abbrev Byte := BitVec 8

/-- The bits `[lo + n - 1 : lo]` of a number, as R6 writes `x[hi:lo]`. -/
abbrev bits (w lo n : Nat) : Nat := w / 2 ^ lo % 2 ^ n

end Sys2Proof
end

