-- ==== Sys2Proof/Config.lean ====
section
/-! DEFINITION. What is fixed for the machine: the package's figures (R16-R19) and the values the spec leaves free,
each an opaque constant with no body (assumption log 8, 9). -/

namespace Sys2Proof

/-- The two packages (R1, R16). -/
inductive Package where
  | t8s
  | t2s
deriving DecidableEq, Repr

/-- The number of compute dies, N of R23. -/
def Package.dies : Package → Nat
  | .t8s => 8
  | .t2s => 2

/-- Full device HBM capacity in bytes (R19, R105). -/
def Package.hbm : Package → Nat
  | .t8s => 0x10000000000
  | .t2s => 0x4000000000

/-- Answer-table slices (R366, R375). -/
def Package.slices : Package → Nat
  | .t8s => 128
  | .t2s => 32

/-- HBM4E stacks (R16). -/
def Package.stacks : Package → Nat
  | .t8s => 16
  | .t2s => 4

/-- The functions of the SFU (R198). -/
inductive SfuFn where
  | ex2 | lg2 | rcp | rsq | sin | cos | tanh
deriving DecidableEq, Repr

/-- FREE VALUE: which of the FP32 results within its bound an SFU function has for an operand (R198; DESIGN CHOICE, log 8). -/
opaque Config.sfuValue : SfuFn → BitVec 32 → BitVec 32

/-- FREE VALUE: the operand from which on a monotone SFU function lies above an FP32 value, by the value (R198; DESIGN CHOICE, log 8). -/
opaque Config.sfuStep : SfuFn → BitVec 32 → BitVec 32

/-- FREE VALUE: what the ROM's two verifications answer for an image (R229; UNVERIFIED, log 9). -/
opaque Config.imageVerified : List Byte → Bool

/-- FREE VALUE: the security version of an image (R230; log 9). -/
opaque Config.imageSvn : List Byte → BitVec 32

/-- FREE VALUE: byte i of what a key of Dzieth makes of the bytes before a signature (R231; log 9). -/
opaque Config.signatureByte : List Byte → Nat → Byte

/-- FREE VALUE: the 512-byte blocks of a failed HBM layer that cannot be corrected as they are copied (R111; log 28). -/
opaque Config.lostBlocks : Nat → List Nat

/-- FREE VALUE: the scale of a TRN2 block whose largest magnitude rounds to an FP16 zero leaves the quotient of R179
unstated: the element codes are free (log 19). -/
opaque Config.trn2ZeroScale : Nat → BitVec 2

/-- FREE VALUE: the flags of such a block, whose quotients have no value (log 19). -/
opaque Config.trn2ZeroFlags : Nat → BitVec 5

/-- FREE VALUE: the row at which a cancelled MST stands (R416; log 2). -/
opaque Config.mstRow : Nat → Fin 16

/-- FREE VALUE: what SPOS of a stream reads once no instruction uses the stream (R383; log 8). -/
opaque Config.idleSpos : Nat → BitVec 32

/-- FREE VALUE: a count of an event source that depends on timing the model leaves out (R235; log 2). -/
opaque Config.timedCount : Nat → BitVec 48

/-- FREE VALUE: the cc, less one, after which the slices have acknowledged a TFLUSH (R343; log 5). -/
opaque Config.flushTime : Nat → BitVec 16

/-- FREE VALUE: the bytes that a memory expander with no dynamic capacity backs behind a port (R219, R220; log 28). -/
opaque Config.expanderBytes : Nat → Nat

/-- FREE VALUE: the supervisor table of an image, core and entry pc (R345; log 16). -/
opaque Config.imageSupervisors : List Byte → List (Nat × BitVec 64)

end Sys2Proof
end

