-- ==== Sys2Proof/Syntax.lean ====
section
/-! DEFINITION. The instructions of opcode_table.json: one constructor per row. Rows with bits are words (R255-R272);
rows without bits are steps of the machine, named by the same table. -/

namespace Sys2Proof

/-- A register field read as a source (R257): qdn and the codes 19-30 cannot be written here. -/
inductive Src where
  | g (n : Fin 16)
  | qup
  | qrx
  | gz
deriving DecidableEq, Repr

/-- A register field written as a destination (R257). -/
inductive Dst where
  | g (n : Fin 16)
  | qdn
  | gz
deriving DecidableEq, Repr

/-- A field marked sd, or one that receives a future handle: g0-g15 or gz (R257). -/
inductive Both where
  | g (n : Fin 16)
  | gz
deriving DecidableEq, Repr

/-- The source half of an sd field. -/
def Both.src : Both → Src
  | .g n => .g n
  | .gz => .gz

/-- The destination half of an sd field. -/
def Both.dst : Both → Dst
  | .g n => .g n
  | .gz => .gz

/-- The scalar FP formats (R263, R291). -/
inductive FFmt where
  | d | s | h | b
deriving DecidableEq, Repr

/-- The rounding field (R181). -/
inductive Rm where
  | rne | rz | rdn | rup | rna | dyn
deriving DecidableEq, Repr

/-- The shift kinds of SHI (R259, R288). -/
inductive ShiftKind where
  | sll | srl | sra | ror
deriving DecidableEq, Repr

/-- The lane formats of VEC (R272). -/
inductive Lane where
  | f64 | f32 | f16 | bf16 | i32 | i16 | i8 | u8
deriving DecidableEq, Repr

/-- The condition of VCMP (R392). -/
inductive VCond where
  | eq | ne | lt | le | gt | ge
deriving DecidableEq, Repr

/-- The kind of VRED (R394). -/
inductive RedKind where
  | sum | min | max
deriving DecidableEq, Repr

/-- The source width of SEXT and ZEXT (R286). -/
inductive ExtWidth where
  | b8 | b16 | b32
deriving DecidableEq, Repr

/-- A link that trains or fails (R222, R233): host link of a seam die, CXL port, or peer link with its remote end. -/
inductive Link where
  | host (seam : Nat)
  | cxl (port width rate : Nat) (dcd fabric : Bool)
  | peer (link node remoteLink : Nat)
deriving DecidableEq, Repr

/-! ## Operand shapes: `sw` is the switch marker S (bit 31, R54, R255) in every one. -/

structure R3w where (sw : Bool) (d : Dst) (a b : Src) (w : Bool)
deriving DecidableEq, Repr
structure R3 where (sw : Bool) (d : Dst) (a b : Src)
deriving DecidableEq, Repr
structure R2w where (sw : Bool) (d : Dst) (a : Src) (w : Bool)
deriving DecidableEq, Repr
structure ExtOp where (sw : Bool) (d : Dst) (a : Src) (n : ExtWidth)
deriving DecidableEq, Repr
structure LeaOp where (sw : Bool) (d : Dst) (a b : Src) (sh : BitVec 2)
deriving DecidableEq, Repr
structure I15 where (sw : Bool) (d : Dst) (a : Src) (imm : BitVec 15)
deriving DecidableEq, Repr
structure ShiOp where (sw : Bool) (d : Dst) (a : Src) (kind : ShiftKind) (n : BitVec 6)
deriving DecidableEq, Repr
structure U20 where (sw : Bool) (d : Dst) (imm : BitVec 20)
deriving DecidableEq, Repr
structure LhiOp where (sw : Bool) (d : Both) (imm : BitVec 20)
deriving DecidableEq, Repr
structure LeapOp where (sw : Bool) (d : Dst) (a : Src) (p : BitVec 14)
deriving DecidableEq, Repr
structure F3r where (sw : Bool) (d : Dst) (a b : Src) (f : FFmt) (r : Rm)
deriving DecidableEq, Repr
structure F2r where (sw : Bool) (d : Dst) (a : Src) (f : FFmt) (r : Rm)
deriving DecidableEq, Repr
structure FmaOp where (sw : Bool) (d : Both) (a b : Src) (f : FFmt) (r : Rm)
deriving DecidableEq, Repr
structure F3 where (sw : Bool) (d : Dst) (a b : Src) (f : FFmt)
deriving DecidableEq, Repr
structure F2 where (sw : Bool) (d : Dst) (a : Src) (f : FFmt)
deriving DecidableEq, Repr
/-- FCVT: `x` is the destination format; WellFormed asks that it differs from `f` (R263). -/
structure FcvtOp where (sw : Bool) (d : Dst) (a : Src) (nonsat : Bool) (x : FFmt) (f : FFmt) (r : Rm)
deriving DecidableEq, Repr
/-- FKEY: .S when `single`, else .D (R263). -/
structure FkeyOp where (sw : Bool) (d : Dst) (a : Src) (single : Bool)
deriving DecidableEq, Repr
/-- A scalar SFU form: .B when `b16`, else .S (R263). -/
structure SfuOp where (sw : Bool) (d : Dst) (a : Src) (b16 : Bool)
deriving DecidableEq, Repr
structure BrOp where (sw : Bool) (a b : Src) (off : BitVec 11)
deriving DecidableEq, Repr
structure JOp where (sw : Bool) (off : BitVec 20)
deriving DecidableEq, Repr
structure JalOp where (sw : Bool) (d : Dst) (off : BitVec 20)
deriving DecidableEq, Repr
structure S0 where (sw : Bool)
deriving DecidableEq, Repr
structure S1 where (sw : Bool) (a : Src)
deriving DecidableEq, Repr
structure S2 where (sw : Bool) (a b : Src)
deriving DecidableEq, Repr
structure R2 where (sw : Bool) (d : Dst) (a : Src)
deriving DecidableEq, Repr
structure D1 where (sw : Bool) (d : Dst)
deriving DecidableEq, Repr
structure LdOp where (sw : Bool) (d : Dst) (b : Src) (disp : BitVec 13)
deriving DecidableEq, Repr
structure StOp where (sw : Bool) (v : Src) (b : Src) (disp : BitVec 13)
deriving DecidableEq, Repr
structure OLd where (sw : Bool) (d : Dst) (b : Src) (ord : BitVec 2) (scope : BitVec 4)
deriving DecidableEq, Repr
structure OSt where (sw : Bool) (a b : Src) (ord : BitVec 2) (scope : BitVec 4)
deriving DecidableEq, Repr
structure SLd where (sw : Bool) (d : Dst) (b : Src) (scope : BitVec 4)
deriving DecidableEq, Repr
structure SSt where (sw : Bool) (a b : Src) (scope : BitVec 4)
deriving DecidableEq, Repr
structure SeteOp where (sw : Bool) (b : Src) (scope : BitVec 4)
deriving DecidableEq, Repr
structure WrsOp where (sw : Bool) (d : Dst) (b : Src)
deriving DecidableEq, Repr
structure AtOp where (sw : Bool) (d : Dst) (a b : Src) (ord : BitVec 2) (scope : BitVec 4)
deriving DecidableEq, Repr
structure CasOp where (sw : Bool) (d : Both) (a b : Src) (ord : BitVec 2) (scope : BitVec 4)
deriving DecidableEq, Repr
structure FenceOp where (sw : Bool) (mask : BitVec 4) (ord : BitVec 2) (scope : BitVec 4)
deriving DecidableEq, Repr
structure CacheOp where (sw : Bool) (b : Src) (disp : BitVec 13)
deriving DecidableEq, Repr
structure PrefOp where (sw : Bool) (b : Src) (hint : BitVec 2) (disp : BitVec 13)
deriving DecidableEq, Repr
structure KOp where (sw : Bool) (a : Src) (k : Fin 8)
deriving DecidableEq, Repr
structure K2Op where (sw : Bool) (a b : Src) (k : Fin 8)
deriving DecidableEq, Repr
structure IncrOp where (sw : Bool) (d b : Dst) (k : Fin 8)
deriving DecidableEq, Repr
structure SendiOp where (sw : Bool) (a : Src) (p : BitVec 14)
deriving DecidableEq, Repr
structure ForkiOp where (sw : Bool) (d : Dst) (a : Src) (p : BitVec 14)
deriving DecidableEq, Repr
structure MovhOp where (sw : Bool) (d : Both) (a : Src)
deriving DecidableEq, Repr
structure V3 where (sw : Bool) (d a b : Fin 16) (f : Lane)
deriving DecidableEq, Repr
/-- A vector form whose destination is f8-f15: `d` is the register number minus 8 (R392). -/
structure V3v where (sw : Bool) (d : Fin 8) (a b : Fin 16) (f : Lane)
deriving DecidableEq, Repr
structure V2 where (sw : Bool) (d a : Fin 16) (f : Lane)
deriving DecidableEq, Repr
/-- VCVT: `x` is the destination lane format (R393); WellFormed asks that it differs from `f`. -/
structure VcvtOp where (sw : Bool) (d a : Fin 16) (rne nonsat : Bool) (x f : Lane)
deriving DecidableEq, Repr
structure VcmpOp where (sw : Bool) (d : Fin 8) (a : Fin 16) (c : VCond) (f : Lane)
deriving DecidableEq, Repr
structure VredOp where (sw : Bool) (d : Both) (a : Fin 16) (k : RedKind) (f : Lane)
deriving DecidableEq, Repr
/-- A vector SFU form: .BF16 when `b16`, else .F32 (R392). -/
structure VsfuOp where (sw : Bool) (d a : Fin 16) (b16 : Bool)
deriving DecidableEq, Repr
/-- VSCALE: float lanes only, coded 0 .F64, 1 .F32, 2 .F16, 3 .BF16 (R272, R392). -/
structure VscaleOp where (sw : Bool) (d a : Fin 16) (b : Both) (f : Fin 4)
deriving DecidableEq, Repr
structure VbcastOp where (sw : Bool) (d : Fin 16) (a : Both) (f : Lane)
deriving DecidableEq, Repr
/-- VLOOP: WellFormed asks for n from 1 to 8 (R389). -/
structure VloopOp where (sw : Bool) (n : BitVec 5)
deriving DecidableEq, Repr
structure CpyOp where (sw : Bool) (d : Both) (a b : Src) (ch : Fin 4)
deriving DecidableEq, Repr
structure CptrOp where (sw : Bool) (d : Dst) (ch : Fin 4)
deriving DecidableEq, Repr
structure MatOp where (sw : Bool) (d : Both) (a b : Src) (t : Fin 16)
deriving DecidableEq, Repr
structure MsyncOp where (sw : Bool) (d : Dst) (t : Fin 16)
deriving DecidableEq, Repr
structure BaddOp where (sw : Bool) (d : Both) (a b : Src)
deriving DecidableEq, Repr
structure MfsOp where (sw : Bool) (d : Dst) (idx : BitVec 15)
deriving DecidableEq, Repr
structure MtsOp where (sw : Bool) (a : Src) (idx : BitVec 15)
deriving DecidableEq, Repr
structure EsetOp where (sw : Bool) (a : Src) (n : BitVec 9)
deriving DecidableEq, Repr
structure EgetOp where (sw : Bool) (d : Dst) (n : BitVec 9)
deriving DecidableEq, Repr

/-- A back-invalidate snoop of an expander (R164, R219): its line, and whether it takes the line (BISnpInv) or leaves shared copies
(BISnpData). -/
structure BackSnoop where (line : Nat) (inv : Bool)
deriving DecidableEq, Repr

/-- The instructions: one constructor per row of opcode_table.json. -/
inductive Instr where
  /-- ADD (R280): Writes the sum of two registers modulo 2^w. -/
  | add (o : R3w)
  /-- SUB (R280): Writes the difference of two registers modulo 2^w. -/
  | sub (o : R3w)
  /-- AND (R280): Writes the bitwise and of two registers. -/
  | and (o : R3)
  /-- OR (R280): Writes the bitwise or of two registers. -/
  | or (o : R3)
  /-- XOR (R280): Writes the bitwise exclusive or of two registers. -/
  | xor (o : R3)
  /-- ANDN (R280): Writes a and not b. -/
  | andn (o : R3)
  /-- ORN (R280): Writes a or not b. -/
  | orn (o : R3)
  /-- XNOR (R280): Writes not (a xor b). -/
  | xnor (o : R3)
  /-- SLL (R281): Shifts left logically by the amount in gb. -/
  | sll (o : R3w)
  /-- SRL (R281): Shifts right logically by the amount in gb. -/
  | srl (o : R3w)
  /-- SRA (R281): Shifts right arithmetically by the amount in gb. -/
  | sra (o : R3w)
  /-- ROL (R281): Rotates left within w bits. -/
  | rol (o : R3w)
  /-- ROR (R281): Rotates right within w bits. -/
  | ror (o : R3w)
  /-- MIN (R282): Writes the signed smaller of two registers. -/
  | min (o : R3)
  /-- MAX (R282): Writes the signed larger of two registers. -/
  | max (o : R3)
  /-- MINU (R282): Writes the unsigned smaller of two registers. -/
  | minu (o : R3)
  /-- MAXU (R282): Writes the unsigned larger of two registers. -/
  | maxu (o : R3)
  /-- SLT (R282): Writes 1 if a < b signed, else 0. -/
  | slt (o : R3)
  /-- SLTU (R282): Writes 1 if a < b unsigned, else 0. -/
  | sltu (o : R3)
  /-- SEQ (R282): Writes 1 if a = b, else 0. -/
  | seq (o : R3)
  /-- SNE (R282): Writes 1 if a differs from b, else 0. -/
  | sne (o : R3)
  /-- MUL (R283): Long multiply, low w bits of the product. -/
  | mul (o : R3w)
  /-- MULH (R283): Long signed multiply, high w bits. -/
  | mulh (o : R3w)
  /-- MULHU (R283): Long unsigned multiply, high w bits. -/
  | mulhu (o : R3w)
  /-- DIV (R284): Long signed division truncated toward zero, never trapping. -/
  | div (o : R3w)
  /-- DIVU (R284): Long unsigned division, never trapping. -/
  | divu (o : R3w)
  /-- REM (R284): Long signed remainder with the sign of the dividend. -/
  | rem (o : R3w)
  /-- REMU (R284): Long unsigned remainder. -/
  | remu (o : R3w)
  /-- CLZ (R285): Counts leading zero bits. -/
  | clz (o : R2w)
  /-- CTZ (R285): Counts trailing zero bits. -/
  | ctz (o : R2w)
  /-- POPC (R285): Counts one bits. -/
  | popc (o : R2w)
  /-- BREV (R285): Reverses the bit order. -/
  | brev (o : R2w)
  /-- BSWAP (R285): Reverses the byte order. -/
  | bswap (o : R2w)
  /-- SEXT (R286): Sign-extends the low 8, 16 or 32 bits. -/
  | sext (o : ExtOp)
  /-- ZEXT (R286): Zero-extends the low 8, 16 or 32 bits. -/
  | zext (o : ExtOp)
  /-- SELZ (R282): Writes 0 if b = 0, else a. -/
  | selz (o : R3)
  /-- LEA (R286): Writes a + b × 2^sh without checking an address. -/
  | lea (o : LeaOp)
  /-- ADDI (R287): Adds a sign-extended 15-bit immediate. -/
  | addi (o : I15)
  /-- ANDI (R287): Ands with a sign-extended immediate. -/
  | andi (o : I15)
  /-- ORI (R287): Ors with a sign-extended immediate. -/
  | ori (o : I15)
  /-- XORI (R287): Exclusive-ors with a sign-extended immediate. -/
  | xori (o : I15)
  /-- SHI (R288): Shifts or rotates by an immediate amount of a kind given in the word. -/
  | shi (o : ShiOp)
  /-- SLTI (R287): Signed compare against an immediate. -/
  | slti (o : I15)
  /-- SLTIU (R287): Unsigned compare against a sign-extended immediate. -/
  | sltiu (o : I15)
  /-- MULI (R287): Long multiply by an immediate. -/
  | muli (o : I15)
  /-- LUI (R289): Writes imm20 shifted left 12, sign-extended. -/
  | lui (o : U20)
  /-- LHI (R289): Adds the sign-extended imm20 times 2^32 to gd. -/
  | lhi (o : LhiOp)
  /-- LPC (R289): Writes pc plus imm20 shifted left 12. -/
  | lpc (o : U20)
  /-- LEAP (R290): Resolves a place offset and writes a global scratchpad address. -/
  | leap (o : LeapOp)
  /-- FADD (R292): Long scalar floating addition rounded once. -/
  | fadd (o : F3r)
  /-- FSUB (R292): Long scalar floating subtraction. -/
  | fsub (o : F3r)
  /-- FMUL (R292): Long scalar floating multiplication. -/
  | fmul (o : F3r)
  /-- FDIV (R292): Long scalar floating division. -/
  | fdiv (o : F3r)
  /-- FSQRT (R292): Long scalar floating square root. -/
  | fsqrt (o : F2r)
  /-- FMA (R292): Fused gd + ga × gb. -/
  | fma (o : FmaOp)
  /-- FMS (R292): Fused gd − ga × gb. -/
  | fms (o : FmaOp)
  /-- FMIN (R293): minimumNumber of two floats. -/
  | fmin (o : F3)
  /-- FMAX (R293): maximumNumber of two floats. -/
  | fmax (o : F3)
  /-- FABS (R293): Clears the sign bit. -/
  | fabs (o : F2)
  /-- FNEG (R293): Inverts the sign bit. -/
  | fneg (o : F2)
  /-- FCPYS (R293): Magnitude of ga with the sign of gb. -/
  | fcpys (o : F3)
  /-- FEQ (R294): Quiet equality comparison. -/
  | feq (o : F3)
  /-- FLT (R294): Signalling less-than comparison. -/
  | flt (o : F3)
  /-- FLE (R294): Signalling less-or-equal comparison. -/
  | fle (o : F3)
  /-- FCLASS (R295): Writes a one-hot class mask. -/
  | fclass (o : F2)
  /-- FCVT (R296): Converts between float formats. -/
  | fcvt (o : FcvtOp)
  /-- FCVTI (R296): Converts a float to a signed 64-bit integer. -/
  | fcvti (o : F2r)
  /-- ICVTF (R296): Converts a signed 64-bit integer to a float. -/
  | icvtf (o : F2r)
  /-- FKEY (R297): Writes an order-preserving key of an FP64 or FP32 value. -/
  | fkey (o : FkeyOp)
  /-- FEX2 (R299): Scalar SFU base-2 exponential. -/
  | fex2 (o : SfuOp)
  /-- FLG2 (R299): Scalar SFU base-2 logarithm. -/
  | flg2 (o : SfuOp)
  /-- FRCP (R299): Scalar SFU reciprocal. -/
  | frcp (o : SfuOp)
  /-- FRSQ (R299): Scalar SFU reciprocal square root. -/
  | frsq (o : SfuOp)
  /-- FSIN (R299): Scalar SFU sine. -/
  | fsin (o : SfuOp)
  /-- FCOS (R299): Scalar SFU cosine. -/
  | fcos (o : SfuOp)
  /-- FTANH (R299): Scalar SFU hyperbolic tangent. -/
  | ftanh (o : SfuOp)
  /-- BEQ (R300): Branches if equal; a kill point when backward under KBB. -/
  | beq (o : BrOp)
  /-- BNE (R300): Branches if not equal. -/
  | bne (o : BrOp)
  /-- BLT (R300): Branches if signed less. -/
  | blt (o : BrOp)
  /-- BGE (R300): Branches if signed greater or equal. -/
  | bge (o : BrOp)
  /-- BLTU (R300): Branches if unsigned less. -/
  | bltu (o : BrOp)
  /-- BGEU (R300): Branches if unsigned greater or equal. -/
  | bgeu (o : BrOp)
  /-- BBS (R300): Branches if a bit of ga is set. -/
  | bbs (o : BrOp)
  /-- BBC (R300): Branches if a bit of ga is clear. -/
  | bbc (o : BrOp)
  /-- J (R301): Jumps pc-relative. -/
  | j (o : JOp)
  /-- JAL (R301): Writes the link and jumps pc-relative. -/
  | jal (o : JalOp)
  /-- NOP (R306): Changes nothing but pc. -/
  | nop (o : S0)
  /-- JR (R301): Jumps to a register. -/
  | jr (o : S1)
  /-- JALR (R301): Writes the link and jumps to a register. -/
  | jalr (o : R2)
  /-- HALT (R304): Ends the thread once its results land and its engine operations resolve. -/
  | halt (o : S0)
  /-- YIELD (R305): Ends the run and passes the thread over for a while. -/
  | yield (o : S0)
  /-- LDB (R313): Loads a byte, sign-extended. -/
  | ldb (o : LdOp)
  /-- LDH (R313): Loads a half-word, sign-extended. -/
  | ldh (o : LdOp)
  /-- LDW (R313): Loads a word, sign-extended, or widens a format element. -/
  | ldw (o : LdOp)
  /-- LDD (R313): Loads a double word. -/
  | ldd (o : LdOp)
  /-- LDBZ (R313): Loads a byte, zero-extended. -/
  | ldbz (o : LdOp)
  /-- LDHZ (R313): Loads a half-word, zero-extended. -/
  | ldhz (o : LdOp)
  /-- LDWZ (R313): Loads a word, zero-extended. -/
  | ldwz (o : LdOp)
  /-- STB (R314): Stores a byte through the store buffer. -/
  | stb (o : StOp)
  /-- STH (R314): Stores a half-word. -/
  | sth (o : StOp)
  /-- STW (R314): Stores a word, or narrows into a format element. -/
  | stw (o : StOp)
  /-- STD (R314): Stores a double word. -/
  | std (o : StOp)
  /-- LDK (R315): Loads through the cluster constant cache. -/
  | ldk (o : LdOp)
  /-- LDA (R316): Loads with acquire at a scope. -/
  | lda (o : OLd)
  /-- STL (R316): Stores with release at a scope. -/
  | stl (o : OSt)
  /-- LDSC (R317): SC load placed in S through a Hem slot. -/
  | ldsc (o : SLd)
  /-- STSC (R317): SC store placed in S, applied from its window's delivery. -/
  | stsc (o : SSt)
  /-- LDF (R318): Waits for full, reads, leaves full. -/
  | ldf (o : SLd)
  /-- LDFE (R318): Waits for full, reads, leaves empty. -/
  | ldfe (o : SLd)
  /-- STF (R318): Writes and sets full unconditionally, as a release. -/
  | stf (o : SSt)
  /-- STEF (R318): Waits for empty, writes, sets full. -/
  | stef (o : SSt)
  /-- SETE (R318): Sets a word empty. -/
  | sete (o : SeteOp)
  /-- FETST (R318): Returns whether a word was full and leaves it empty. -/
  | fetst (o : SLd)
  /-- LRES (R326): Loads and reserves the line. -/
  | lres (o : OLd)
  /-- SCON (R326): Stores only while the reservation is held and returns status. -/
  | scon (o : AtOp)
  /-- WRS (R327): Parks until the reservation is lost. -/
  | wrs (o : WrsOp)
  /-- FENCE (R328): Orders the masked kinds of access at a scope. -/
  | fence (o : FenceOp)
  /-- AADD (R323): 64-bit atomic add. -/
  | aadd (o : AtOp)
  /-- AAND (R323): 64-bit atomic and. -/
  | aand (o : AtOp)
  /-- AOR (R323): 64-bit atomic or. -/
  | aor (o : AtOp)
  /-- AXOR (R323): 64-bit atomic exclusive or. -/
  | axor (o : AtOp)
  /-- AMIN (R323): 64-bit atomic signed minimum. -/
  | amin (o : AtOp)
  /-- AMAX (R323): 64-bit atomic signed maximum. -/
  | amax (o : AtOp)
  /-- AMINU (R323): 64-bit atomic unsigned minimum. -/
  | aminu (o : AtOp)
  /-- AMAXU (R323): 64-bit atomic unsigned maximum. -/
  | amaxu (o : AtOp)
  /-- ASWP (R323): 64-bit atomic swap. -/
  | aswp (o : AtOp)
  /-- ACAS (R323): 64-bit atomic compare and swap. -/
  | acas (o : CasOp)
  /-- AADD_W (R323): 32-bit atomic add. -/
  | aaddW (o : AtOp)
  /-- AAND_W (R323): 32-bit atomic and. -/
  | aandW (o : AtOp)
  /-- AOR_W (R323): 32-bit atomic or. -/
  | aorW (o : AtOp)
  /-- AXOR_W (R323): 32-bit atomic exclusive or. -/
  | axorW (o : AtOp)
  /-- AMIN_W (R323): 32-bit atomic signed minimum. -/
  | aminW (o : AtOp)
  /-- AMAX_W (R323): 32-bit atomic signed maximum. -/
  | amaxW (o : AtOp)
  /-- AMINU_W (R323): 32-bit atomic unsigned minimum. -/
  | aminuW (o : AtOp)
  /-- AMAXU_W (R323): 32-bit atomic unsigned maximum. -/
  | amaxuW (o : AtOp)
  /-- ASWP_W (R323): 32-bit atomic swap. -/
  | aswpW (o : AtOp)
  /-- ACAS_W (R323): 32-bit atomic compare and swap. -/
  | acasW (o : CasOp)
  /-- AADD_AGG (R139): Joins an aggregated add of the quad to one 32-bit word. -/
  | aaddAgg (o : R3)
  /-- CFLUSH (R330): Writes back and invalidates a line in the package. -/
  | cflush (o : CacheOp)
  /-- CINV (R330): Invalidates a line on the issuing die after write-back. -/
  | cinv (o : CacheOp)
  /-- CCLEAN (R330): Writes back a line and keeps it clean. -/
  | cclean (o : CacheOp)
  /-- PREF (R330): Prefetches a line into a named level. -/
  | pref (o : PrefOp)
  /-- WSWAIT (R331): Parks while the address's weight-store bank group refreshes. -/
  | wswait (o : CacheOp)
  /-- SYNC (R355): Kill point, then parks until the join word reaches 0. -/
  | sync (o : S0)
  /-- SRET (R355): Ends a spawned task and resumes its parent's continuation or works. -/
  | sret (o : S0)
  /-- WORK (R355): Takes an own, local or stolen continuation, or halts. -/
  | work (o : S0)
  /-- WAIT (R360): Parks the queue owner until qrx is non-empty or a limit passes. -/
  | wait (o : S1)
  /-- ANCH (R357): Takes the core's engines, parking until they are free. -/
  | anch (o : S0)
  /-- ROAM (R357): Waits for engine operations, releases the engines and grants the oldest ANCH. -/
  | roam (o : S0)
  /-- SEND (R359): Delivers a word to the qrx of a core named by a register place. -/
  | send (o : S2)
  /-- FORK (R358): Starts a thread of the launch on a core named by a register place. -/
  | fork (o : R3)
  /-- QCFG (R361): Takes or gives up queue ownership and binds qdn. -/
  | qcfg (o : S2)
  /-- BARCFG (R67): Claims a barrier and sets its count and timeout. -/
  | barcfg (o : S2)
  /-- BARW (R68): Arrives at a barrier and parks until release. -/
  | barw (o : S1)
  /-- BART (R68): Arrives at a barrier without parking. -/
  | bart (o : S1)
  /-- BARQ (R362): Reads a barrier's generation. -/
  | barq (o : R2)
  /-- TCALLR (R369): Tabled call to a callee in a register. -/
  | tcallr (o : S1)
  /-- TRET (R370): Records g1 for the entry on top of the producer stack and returns. -/
  | tret (o : S0)
  /-- TABORT (R371): Abandons every entry on the producer stack without charge. -/
  | tabort (o : S0)
  /-- TLOOK (R371): Returns the state of a table key without producing. -/
  | tlook (o : R2)
  /-- BND (R377): Binds an incumbent and sets the task bound. -/
  | bnd (o : KOp)
  /-- BCHK (R379): Explicit kill point. -/
  | bchk (o : S0)
  /-- INCU (R377): Sends a key and tag to the incumbent master as a release. -/
  | incu (o : K2Op)
  /-- INCR (R377): Reads the incumbent master's key and tag as an acquire. -/
  | incr (o : IncrOp)
  /-- LAUNCH (R364): Reads a launch record and submits it to the launcher. -/
  | launch (o : S1)
  /-- SPAWN (R355): Kill point, pushes the continuation and runs the child. -/
  | spawn (o : JOp)
  /-- TCALL (R369): Tabled call to a pc-relative callee. -/
  | tcall (o : JOp)
  /-- SENDI (R359): Delivers a word to the qrx of a core named by an immediate place. -/
  | sendi (o : SendiOp)
  /-- FORKI (R358): Starts a thread on a core named by an immediate place. -/
  | forki (o : ForkiOp)
  /-- FTEST (R403): Returns a future's status without parking. -/
  | ftest (o : R2)
  /-- FCANCEL (R405): Cancels the operation of a future. -/
  | fcancel (o : S1)
  /-- MOVH (R404): Copies a handle with its tag. -/
  | movh (o : MovhOp)
  /-- FWAIT (R404): Parks until a future resolves. -/
  | fwait (o : S1)
  /-- VADD (R392): Vector addition. -/
  | vadd (o : V3)
  /-- VSUB (R392): Vector subtraction. -/
  | vsub (o : V3)
  /-- VMUL (R392): Vector multiplication. -/
  | vmul (o : V3)
  /-- VFMA (R392): Vector fused multiply-add into a value register. -/
  | vfma (o : V3v)
  /-- VMIN (R392): Vector minimum. -/
  | vmin (o : V3)
  /-- VMAX (R392): Vector maximum. -/
  | vmax (o : V3)
  /-- VABS (R392): Vector absolute value. -/
  | vabs (o : V2)
  /-- VNEG (R392): Vector negation. -/
  | vneg (o : V2)
  /-- VCVT (R393): Vector lane format conversion. -/
  | vcvt (o : VcvtOp)
  /-- VCMP (R392): Vector comparison into a mask register. -/
  | vcmp (o : VcmpOp)
  /-- VSEL (R392): Vector bitwise select by mask. -/
  | vsel (o : V3v)
  /-- VRED (R394): Reduces active lanes to a future. -/
  | vred (o : VredOp)
  /-- VEX2 (R392): Vector SFU exponential. -/
  | vex2 (o : VsfuOp)
  /-- VLG2 (R392): Vector SFU logarithm. -/
  | vlg2 (o : VsfuOp)
  /-- VRCP (R392): Vector SFU reciprocal. -/
  | vrcp (o : VsfuOp)
  /-- VRSQ (R392): Vector SFU reciprocal square root. -/
  | vrsq (o : VsfuOp)
  /-- VSCALE (R392): Vector multiply by 2 to a register power. -/
  | vscale (o : VscaleOp)
  /-- VMOV (R392): Vector bitwise move. -/
  | vmov (o : V2)
  /-- VBCAST (R392): Broadcasts a g register to every lane. -/
  | vbcast (o : VbcastOp)
  /-- VLOOP (R389): Opens a body of the next n vector instructions. -/
  | vloop (o : VloopOp)
  /-- VFENCE (R396): Parks until no vector instruction of the thread remains. -/
  | vfence (o : S0)
  /-- CPY (R399): Starts a strided copy on a channel. -/
  | cpy (o : CpyOp)
  /-- CPYX (R399): Starts a CX8 decoding copy on a channel. -/
  | cpyx (o : CpyOp)
  /-- CPTR (R400): Reads a channel's write pointer as an acquire. -/
  | cptr (o : CptrOp)
  /-- MMA (R414): Queues a tile multiply-accumulate on a stream. -/
  | mma (o : MatOp)
  /-- MMAZ (R414): Queues a tile multiply into a zeroed accumulator. -/
  | mmaz (o : MatOp)
  /-- MST (R418): Queues a store of an accumulator to scratchpad. -/
  | mst (o : MatOp)
  /-- MLD (R419): Queues a load of an accumulator from scratchpad. -/
  | mld (o : MatOp)
  /-- MSYNC (R417): Parks until a stream's operations resolve and returns the first failure status. -/
  | msync (o : MsyncOp)
  /-- BADDQ (R421): Queues a block add and requantisation on a gateway core. -/
  | baddq (o : BaddOp)
  /-- BQNEXT (R420): Takes the next index of the quad's block queue. -/
  | bqnext (o : D1)
  /-- TRAP (R338): Raises SWTRAP with a value. -/
  | trap (o : S1)
  /-- ERET (R339): Waits for long results, restores st and returns from the innermost handler. -/
  | eret (o : S0)
  /-- CAPR (R340): Reads a word of the capability list. -/
  | capr (o : R2)
  /-- CNTR (R341): Reads an event counter. -/
  | cntr (o : R2)
  /-- TLBI (R342): Removes translations package-wide and waits for acknowledgements. -/
  | tlbi (o : S2)
  /-- TFLUSH (R343): Clears a table id in every answer-table slice. -/
  | tflush (o : S1)
  /-- INCINIT (R344): Sets an incumbent unconditionally. -/
  | incinit (o : K2Op)
  /-- IDLE (R346): Parks a supervisor thread until its wake bit is set. -/
  | idle (o : S0)
  /-- BRK (R338): Raises BREAK with a value. -/
  | brk (o : S1)
  /-- SPILL (R347): Spills the thread in a named frame. -/
  | spill (o : S1)
  /-- ESET (R385): Writes an engine register that has no row of its own. -/
  | eset (o : EsetOp)
  /-- EGET (R385): Reads an engine register. -/
  | eget (o : EgetOp)
  /-- MFS (R335): Reads a system register. -/
  | mfs (o : MfsOp)
  /-- MTS (R335): Writes a system register that has no row of its own. -/
  | mts (o : MtsOp)
  /-- ILLEGAL_WORD (R273): A word that is no instruction raises ILLEG when issued. -/
  | illegalWord (w : BitVec 32)
  /-- MTS_ROTCFG (R51): Sets packed or fixed rotation, removing threads above P. -/
  | mtsRotcfg (v : Word)
  /-- MTS_HBMRMV_ACK (R112): Completes step 2 of a layer removal. -/
  | mtsHbmrmvAck (v : Word)
  /-- MTS_CORERST_GO (R209): Starts a per-core reset of another core, with or without map-out. -/
  | mtsCorerstGo (v : Word)
  /-- ERRINJ_ARM_RESID_FIRST (R349): Arms a residue mismatch in the first check only. -/
  | errinjArmResidFirst (v : Word)
  /-- ERRINJ_ARM_RESID_BOTH (R349): Arms a residue mismatch in both checks. -/
  | errinjArmResidBoth (v : Word)
  /-- ERRINJ_ARM_SCRATCH_UCE (R349): Arms an uncorrectable error in a scratchpad word. -/
  | errinjArmScratchUce (v : Word)
  /-- ERRINJ_ARM_SCRATCH_CE (R349): Arms a corrected bit in a scratchpad word. -/
  | errinjArmScratchCe (v : Word)
  /-- ERRINJ_ARM_REG_DAMAGE (R349): Arms damage to a register of the writing thread. -/
  | errinjArmRegDamage (v : Word)
  /-- ERRINJ_CANCEL (R349): A write of kind 0, 6, 7 or bad REG cancels an armed injection. -/
  | errinjCancel (v : Word)
  /-- ESET_RTAIL (R411): Makes ring tiles available, clamped to COUNT. -/
  | esetRtail (n : BitVec 9) (v : Word)
  /-- ESET_RING_CONFIG (R411): Writing RBASE or RCFG waits for the ring to be unused and resets head and tail. -/
  | esetRingConfig (n : BitVec 9) (v : Word)
  /-- ESET_STREAM_REG (R385): Writing a stream register parks until no instruction uses the stream. -/
  | esetStreamReg (n : BitVec 9) (v : Word)
  /-- ESET_COPY_REG (R385): Writing a copy channel register parks until the channel is idle. -/
  | esetCopyReg (n : BitVec 9) (v : Word)
  /-- VRSM_RETRY (R395): Re-runs a held vector instruction from its failing chunk. -/
  | vrsmRetry
  /-- VRSM_ASSIST_ONE (R395): Computes the failing chunk exactly, then runs normally. -/
  | vrsmAssistOne
  /-- VRSM_ASSIST_REST (R395): Assists every remaining subnormal chunk of the held instruction. -/
  | vrsmAssistRest
  /-- VRSM_DISCARD (R395): Drops the held body and every later queued entry. -/
  | vrsmDiscard
  /-- ESET_BQLIM (R420): Sets the block queue count and resets its position. -/
  | esetBqlim (v : Word)
  /-- LWERR_WRITE (R227): Clears launch-window error bits written as 1. -/
  | lwerrWrite (seam : Nat) (v : Word)
  /-- LAUNCH_SLOT_WORD_WRITE (R228): An 8-byte host write of a non-final launch record word. -/
  | launchSlotWordWrite (seam : Nat) (slot : Nat) (i : Nat) (v : Word)
  /-- LAUNCH_SLOT_FINAL_WORD (R228): Writing word 15 makes the slot busy and hands the record to the launcher. -/
  | launchSlotFinalWord (seam : Nat) (slot : Nat) (v : Word)
  /-- LAUNCH_WINDOW_NARROW_WRITE (R228): A write narrower than 8 bytes is discarded and sets NARROW. -/
  | launchWindowNarrowWrite (seam : Nat)
  /-- LAUNCH_SLOT_FREE (R228): The slot frees and the record is accepted or refused. -/
  | launchSlotFree (seam : Nat) (slot : Nat)
  /-- LAUNCH_RECORD_SUBMIT (R364): A device LAUNCH's record reaches the launcher after its read and release. -/
  | launchRecordSubmit (core : Nat) (frame : Nat)
  /-- LAUNCH_PLACEMENT (R76): The launcher places the head launch of the highest FIFO. -/
  | launchPlacement
  /-- REMOVED_THREAD_RETURN (R76): A removed thread returns to a free position. -/
  | removedThreadReturn (core : Nat) (frame : Nat)
  /-- ENGINE_RELEASE (R206): A removed anchored thread's engines drain or record restartable work. -/
  | engineRelease (core : Nat)
  /-- SPILL_ENGINE_RUN (R77): Writes a removed thread's context and engines to its spill area. -/
  | spillEngineRun (core : Nat)
  /-- THREAD_RELOAD (R77): Reloads a spilled thread before it returns to a position. -/
  | threadReload (launch : Nat) (idx : Nat) (core : Nat)
  /-- SCRATCHPAD_SAVE (R88): Saves another tenant's scratchpad and clears it. -/
  | scratchpadSave (core : Nat)
  /-- SCRATCHPAD_RESTORE (R88): Restores a saved scratchpad before its tenant returns. -/
  | scratchpadRestore (core : Nat) (tenant : Nat)
  /-- CLASSIFIER_WINDOW_END (R78): Classes a launch compute- or memory-bound after 19,200 cc. -/
  | classifierWindowEnd (launch : Nat)
  /-- TERMINATION_SWEEP (R82): Every 1,024 cc sums idle flags and message counts per launch. -/
  | terminationSweep
  /-- CTXLOST_THREAD_START (R212): Starts a new launch thread at TVEC after lost threads. -/
  | ctxlostThreadStart
  /-- SUPERVISOR_THREAD_RESTART (R345): Restarts a terminated supervisor thread at its entry pc. -/
  | supervisorThreadRestart (k : Nat)
  /-- FETCH_BLOCK (R52): The cluster fetch unit delivers one 32-byte block to waiting threads. -/
  | fetchBlock (cluster : Nat) (block : Nat)
  /-- LONG_RESULT_LAND (R55): A long result writes its register, or is discarded or pushed. -/
  | longResultLand (core : Nat) (frame : Nat) (k : Nat)
  /-- STORE_BUFFER_APPLY (R84): A store-buffer entry is applied at its coherence point. -/
  | storeBufferApply (core : Nat) (k : Nat)
  /-- MIGRATION_DEPART (R43): After results land and stores drain, the context ships to the home quad. -/
  | migrationDepart (core : Nat) (frame : Nat)
  /-- THREAD_ARRIVAL (R44): A migrating thread enters a free position and runs its access. -/
  | threadArrival (k : Nat)
  /-- REMOTE_WORD_REQUEST (R45): A remote word request is performed at its target. -/
  | remoteWordRequest (k : Nat)
  /-- TLB_WALK_COMPLETE (R120): A page walk ends, filling TLBs or raising a fault. -/
  | tlbWalkComplete (core : Nat) (tenant : Nat) (sup : Bool) (va : Word)
  /-- STEAL_REQUEST (R63): A steal request takes the victim's topmost launch entry or finds none. -/
  | stealRequest (core : Nat) (frame : Nat) (victim : Nat)
  /-- STEAL_REPLY (R62): A steal reply resumes a continuation or continues the walk. -/
  | stealReply (core : Nat) (frame : Nat)
  /-- QRX_MESSAGE_ARRIVAL (R65): A SEND word is pushed into the target qrx. -/
  | qrxMessageArrival (k : Nat)
  /-- QDN_PUSH_ARRIVAL (R64): A qdn push enters the downstream core's qup. -/
  | qdnPushArrival (k : Nat)
  /-- BARRIER_TIMEOUT (R69): A generation expires and its waiters take BARTO. -/
  | barrierTimeout (k : Nat)
  /-- RESERVATION_LAPSE (R140): A reservation expires 4,096 cc after its LRES. -/
  | reservationLapse (core : Nat) (frame : Nat)
  /-- WAIT_TIMEOUT (R360): A WAIT limit expires. -/
  | waitTimeout (core : Nat) (frame : Nat)
  /-- YIELD_EXPIRY (R305): A yielded thread becomes eligible after 32 cc. -/
  | yieldExpiry (core : Nat) (frame : Nat)
  /-- SYNC_RECHECK (R355): A parked SYNC re-reads its join word every 4,096 cc. -/
  | syncRecheck (core : Nat) (frame : Nat)
  /-- FULL_EMPTY_APPLY (R320): A full/empty operation is applied or entered at the scratchpad. -/
  | fullEmptyApply (core : Nat) (word : Nat)
  /-- WAIT_TABLE_RETRY (R320): A core retries an operation refused by a full wait table every 256 cc. -/
  | waitTableRetry (core : Nat) (frame : Nat)
  /-- AGG_COMBINE (R139): After its 16 cc window the combined add is performed and results delivered. -/
  | aggCombine (k : Nat)
  /-- HEM_WINDOW_DELIVERY (R135): Window announcements are delivered at cc 8w + 72. -/
  | hemWindowDelivery (w : Nat)
  /-- INCUMBENT_UPDATE_APPLY (R377): The master applies an INCU with a strictly smaller key. -/
  | incumbentUpdateApply (k : Nat)
  /-- TABLE_GROUP_CLOSE (R372): Once no member runs, the leader completes the group or starts a new pass. -/
  | tableGroupClose (group : Nat)
  /-- SEAM_RDS (R154): A read-for-sharing request is applied at a seam slice. -/
  | seamRds (agent : Nat) (line : Nat)
  /-- SEAM_RDX (R154): A read-for-ownership request is applied at a seam slice. -/
  | seamRdx (agent : Nat) (line : Nat)
  /-- SEAM_UPG (R154): An upgrade request is applied at a seam slice. -/
  | seamUpg (agent : Nat) (line : Nat)
  /-- SEAM_WB (R154): A write-back is applied at a seam slice. -/
  | seamWb (agent : Nat) (line : Nat)
  /-- SEAM_EVC (R154): A clean eviction is applied at a seam slice. -/
  | seamEvc (agent : Nat) (line : Nat)
  /-- SEAM_TRANSACTION_END (R155): All acknowledgements arrive, BUSY clears and the queue head is applied. -/
  | seamTransactionEnd (line : Nat)
  /-- SNOOP_ARRIVAL (R157): A seam snoop takes effect at a die in Hem order. -/
  | snoopArrival (die : Nat) (line : Nat) (inv : Bool)
  /-- DIRECTORY_RECALL_COMPLETE (R158): A recall's holders acknowledge and the way is freed. -/
  | directoryRecallComplete (line : Nat)
  /-- AGENT_DEAD (R160): A snoop unanswered for 120,000 cc or a down link declares an agent dead. -/
  | agentDead (agent : Nat)
  /-- CORE_SNOOP_TIMEOUT (R159): An L1 unanswering for 120,000 cc declares its core dead. -/
  | coreSnoopTimeout (core : Nat)
  /-- SEAM_FAILURE (R162): A seam die failure starts failover. -/
  | seamFailure (seam : Nat)
  /-- FAILOVER_COMPLETE (R162): Dzieth sets directoryless mode and requests replacement. -/
  | failoverComplete
  /-- HOST_SNPDATA (R165): A host snoop for data is applied as an agent 8 request. -/
  | hostSnpdata (line : Nat)
  /-- HOST_SNPINV (R165): A host invalidating snoop is applied as an agent 8 request. -/
  | hostSnpinv (line : Nat)
  /-- HOST_UNSUPPORTED_REQUEST (R217): A host request for an unsupported feature gets an unsupported completion. -/
  | hostUnsupportedRequest (seam : Nat)
  /-- COMBINING_BUFFER_DRAIN (R166): A far-memory combining buffer entry is written to its port. -/
  | combiningBufferDrain (line : Nat)
  /-- DCD_RELEASE_REQUEST (R167): A dynamic-capacity release starts recall and drain of an extent. -/
  | dcdReleaseRequest (port : Nat) (base : Nat) (size : Nat)
  /-- DCD_RELEASE_COMPLETE (R167): After the drain the port acknowledges the release. -/
  | dcdReleaseComplete (k : Nat)
  /-- DCD_FORCED_RELEASE (R167): A forced release drops dirty lines into the port's poison list. -/
  | dcdForcedRelease (k : Nat)
  /-- PEER_LINK_FAILURE (R224): Retries requests on another link or poisons and drops them. -/
  | peerLinkFailure (link : Nat)
  /-- LINK_TRAINED (R222): A host, CXL or peer link trains and its record is updated. -/
  | linkTrained (l : Link)
  /-- LINK_DOWN (R233): A host or CXL link is reported down. -/
  | linkDown (l : Link)
  /-- LAYER_FAILURE (R111): Dzieth starts mapping out a failed HBM layer. -/
  | layerFailure (stack : Nat) (layer : Nat)
  /-- LAYER_COPY_COMPLETE (R111): The device finishes moving the layer and Dzieth reduces CAP. -/
  | layerCopyComplete
  /-- WEIGHT_REFRESH_START (R101): A weight-store bank group enters its refresh window. -/
  | weightRefreshStart (die : Nat) (group : Nat)
  /-- WEIGHT_REFRESH_END (R101): A bank group leaves refresh and stalled reads resume. -/
  | weightRefreshEnd (die : Nat) (group : Nat)
  /-- HEALTH_CE_WINDOW_END (R214): The 60 s corrected-error window closes and CERATE may be set. -/
  | healthCeWindowEnd
  /-- DZIETH_CORE_RESET (R210): Dzieth starts a per-core reset of a failed core. -/
  | dziethCoreReset (core : Nat) (mapout : Bool)
  /-- CORE_RESET_RELEASE (R210): After saving frames and draining, the core is released, replaced or disabled. -/
  | coreResetRelease (core : Nat)
  /-- MATRIX_OP_BEGIN (R412): A stream's head operation begins once both rings are available. -/
  | matrixOpBegin (core : Nat) (stream : Nat)
  /-- MATRIX_OP_COMPLETE (R414): An MMA finishes its sum and residue check, retiring, retrying or resolving RESID. -/
  | matrixOpComplete (core : Nat)
  /-- MST_COMPLETE (R418): An accumulator store finishes writing scratchpad. -/
  | mstComplete (core : Nat)
  /-- MLD_COMPLETE (R419): An accumulator load finishes and writes the accumulator. -/
  | mldComplete (core : Nat)
  /-- BADDQ_COMPLETE (R421): A block add finishes and writes the local blocks. -/
  | baddqComplete (core : Nat)
  /-- VECTOR_BODY_START (R391): A queued body starts when earlier entries have ended. -/
  | vectorBodyStart (core : Nat)
  /-- VECTOR_CHUNK (R391): One iteration of a body runs over chunk j. -/
  | vectorChunk (core : Nat)
  /-- VECTOR_FAULT_DELIVERY (R395): The held fault traps at the thread's next issue. -/
  | vectorFaultDelivery (core : Nat) (frame : Nat)
  /-- SFU_ENTRY_SERVE (R397): The SFU serves the head of its queue. -/
  | sfuEntryServe (core : Nat)
  /-- COPY_BEGIN (R400): A queued copy begins and sets CWP and CPOS. -/
  | copyBegin (core : Nat) (ch : Nat)
  /-- COPY_ELEMENT_WRITE (R114): A copy writes one element and advances its write pointer. -/
  | copyElementWrite (core : Nat) (ch : Nat)
  /-- COPY_COMPLETE (R399): A copy finishes and its future resolves. -/
  | copyComplete (core : Nat) (ch : Nat)
  /-- PACKAGE_RESET (R229): The ROM verifies the image, firmware fills records and supervisor threads start. -/
  | packageReset
  /-- MB_ATTEST (R231): Returns a signed attestation report. -/
  | mbAttest (seam : Nat)
  /-- MB_RECOVER (R232): Accepts part of a recovery image, or verifies it at length 0. -/
  | mbRecover (seam : Nat)
  /-- MB_GETEVENT (R232): Removes and returns the oldest event. -/
  | mbGetevent (seam : Nat)
  /-- EXPANDER_BACK_INVALIDATE (R219): A back-invalidate snoop from an HDM-DB expander behind a port is applied to the package's cached copies of that expander's lines. -/
  | expanderBackInvalidate (port : Nat) (snoop : BackSnoop)
  /-- DYNAMIC_CAPACITY_ADD (R220): The fabric manager adds an extent to a dynamic capacity device, so CAPB rises and the addresses become backed again. -/
  | dynamicCapacityAdd (port : Nat) (base : Nat) (size : Nat)
  /-- CXL_CACHE_MEM_ENABLE (R218): Host software enables CXL.cache or CXL.mem through configuration space, and CACHEEN or MEMEN is set. -/
  | cxlCacheMemEnable (cache : Bool) (mem : Bool)
  /-- SUPERVISOR_ENDS_LAUNCH (R204): The supervisor ends a launch, terminating its threads, and the launch ends with status 0x03. -/
  | supervisorEndsLaunch (launch : Nat)
  /-- POWER_CLOCK_GATING (R5): The power manager gates and ungates the clock of the matrix units to hold the package within its power limit. -/
  | powerClockGating (gated : Bool)
deriving DecidableEq, Repr

end Sys2Proof
end

