-- ==== Sys2Proof/Machine/State.lean ====
section
/-! DEFINITION. The state of a Thafold package (R16): plain data. The thread that issues and its core stand unpacked in
`thr` and `core`; every other thread and every other touched core stands in a list (log 1). -/

namespace Sys2Proof.Machine

/-- Why a step can stop with a fault. -/
inductive Fault where
  /-- Raised by every instruction word executed while no thread exists (`Thread.live` is false): the hardware has no
  such step. Safe: the model stops. -/
  | noThread
  /-- Raised by a step of the machine named (by the agenda or by `exec`) in a state in which the spec does not let it
  happen: no such message, no such pending transaction, no such unit. Safe: the model stops. -/
  | notEnabled
deriving DecidableEq, Repr

/-- Why a step can be refused. -/
inductive Refusal where
  /-- Answered only by the dispatch, for an instruction that has no meaning yet. Safe: the model stops. -/
  | notModelled (mnemonic : String)
deriving DecidableEq, Repr

/-! ## Places in memory -/

/-- What kind of place an address names (R26, R28, R42). -/
inductive Place where
  /-- A scratchpad word of a core, seen through a window: 0 is raw bytes (R89). -/
  | scratch (core : Nat) (window : Nat)
  /-- The weight store of a die (R100). -/
  | weight (die : Nat)
  /-- Device HBM (R29). -/
  | hbm
  /-- Host memory. -/
  | host
  /-- CXL expander or fabric memory, by port. -/
  | cxl (port : Nat)
  /-- Another package of the node (R222). -/
  | peer (node : Nat)
deriving DecidableEq, Repr

/-- A resolved place: `key` is the address its first byte has in `Memory.bytes` (for a window view, the element number is
in `elem` and the key is that of the 8-byte word that holds its first bit), `va` the virtual address it was reached
by, `pol` the applied policy (R122), `msch` the MSC hint of its page (R103). -/
structure Loc where
  key : Nat
  place : Place
  pol : Nat
  va : Word
  elem : Nat
  msch : Nat
deriving DecidableEq, Repr

/-- The identity of a thread in the answer table (R368) and in a deque tag (R354): LAUNCHID and spill index. -/
structure Tid where
  launch : Nat
  idx : Nat
deriving DecidableEq, Repr

/-! ## Threads -/

/-- An outstanding long result (R53-R57). -/
structure Pending where
  /-- Names the result for the request that will deliver it. -/
  tok : Nat
  dst : Dst
  val : Word
  /-- Flags ORed into st.FLAGS when it lands (R291). -/
  flags : BitVec 5
  /-- The virtual address of the access that returned poison (R57). -/
  poison : Option Word
  /-- The value has been delivered and can land. -/
  ready : Bool
  /-- A later write has taken its place (R55). -/
  dropped : Bool
  /-- It holds an outstanding-request slot (R97). -/
  slot : Bool
  /-- The line of an L1 miss, whose slot every result of that line shares (R97). -/
  line : Option Nat
  /-- A load or an atomic (R134). -/
  load : Bool
  /-- A cache operation (R310, R328). -/
  cache : Bool
  /-- An entry of the SFU queue (R39, R207). -/
  sfu : Bool
  /-- The scope at which it acquires (R127, R129 (d)), 0 where it orders nothing. -/
  acq : Nat
  /-- A later load of the thread has gone ahead of it (R131). -/
  passed : Bool
  /-- pc of the instruction (R57, for qdn). -/
  pc : Word
  /-- The queue words the instruction popped, for a result bound for qdn (R57, R258): true for qup. -/
  popped : List (Bool × Word)
  /-- As it lands, the core counts one message received: the reply of a request to no core's scratchpad (R80). -/
  recv : Bool
deriving DecidableEq, Repr

/-- Why and since when a thread is parked (R58, R363). -/
structure Park where
  code : Nat
  arg : Word
  /-- What the wait watches, beside the argument: a key of memory, a line, a unit. -/
  key : Nat
  since : Nat
  /-- The cc at which a limited wait ends (R360), or a retry comes due (R320). -/
  until? : Option Nat
deriving DecidableEq, Repr

/-- A reservation of LRES: the line and the cc at which it was taken (R140). -/
structure Reservation where
  line : Nat
  cc : Nat
deriving DecidableEq, Repr

/-- The trap registers and where the thread stands among its handlers (R200, R201, R334). -/
structure TrapRegs where
  epc : Word
  ecause : Word
  eval : Word
  estat : Word
  evec : Word
  /-- Inside an EVEC handler. -/
  inE : Bool
  /-- Inside an SVEC handler. -/
  inS : Bool
deriving DecidableEq, Repr

/-- A deque entry (R59, R354, R379). -/
structure DqEntry where
  pc : Word
  g11 : Word
  g12 : Word
  g13 : Word
  g14 : Word
  tb : Word
  launch : Nat
  /-- The tag, none once a migration cleared it. -/
  tag : Option Nat
  dead : Bool
deriving DecidableEq, Repr

/-- A WORK's steal walk (R62): the victims left, and the reply of the last request once it has been applied. -/
structure Walk where
  victims : List Nat
  reply : Option (Option DqEntry)
deriving DecidableEq, Repr

/-! ## Engines of a core -/

/-- Status of a future (R403). -/
inductive FutStatus where
  | pending | done | resid | engf | cancelled
deriving DecidableEq, Repr

/-- An operation record (R402): `owner` is the frame that issued it and `launch` its launch, `stream` its matrix stream. -/
structure Future where
  id : Nat
  status : FutStatus
  value : Word
  addr : Word
  owner : Nat
  stream : Option Nat
  launch : Nat
deriving DecidableEq, Repr

/-- A vector instruction with the g values it read at issue (R388). -/
structure VecIns where
  instr : Instr
  ga : Word
  /-- The mode of a DYN VCVT, st.RM at issue (R393). -/
  rm : Nat
  pc : Word
  /-- The record of a VRED. -/
  fut : Option Nat
  /-- VRED accumulators, one per lane, none before the lane is first active (R394). -/
  acc : List (Option Nat)
  /-- ASSIST (R395): 0 none, 1 for the present chunk, 2 for every remaining chunk. -/
  assist : Nat
deriving DecidableEq, Repr

/-- A body in the vector unit: queued, collecting or running (R388-R391). -/
structure Body where
  frame : Nat
  /-- For R81, once the thread has ended. -/
  launch : Nat
  /-- Store-buffer number at the issue of its last member: earlier stores come first (R142). -/
  num : Nat
  ins : List VecIns
  /-- Members still awaited. -/
  awaited : Nat
  started : Bool
  /-- The chunk of the current iteration. -/
  chunk : Nat
  /-- Members of the current iteration already done. -/
  done : Nat
  /-- Cancelled after it began: it stops at its current chunk (R204). -/
  dying : Bool
  /-- The chunk under way: what it has read of the streams, none between chunks and while a fault is held. -/
  cur : Option (List (Nat × Lane × List Nat))
  /-- The present member waits for its entry in the SFU queue (R397). -/
  wait : Bool
deriving DecidableEq, Repr

/-- A fault held by the vector unit (R395): `idx` is the place of the held instruction in the first body. -/
structure VHeld where
  pc : Word
  chunk : Nat
  cause : Nat
  addr : Word
  delivered : Bool
  frame : Nat
  idx : Nat
deriving DecidableEq, Repr

/-- A copy on a channel (R399-R401). -/
structure CopyOp where
  fut : Nat
  frame : Nat
  /-- For R81, once the thread has ended. -/
  launch : Nat
  /-- Store-buffer number at issue (R142). -/
  num : Nat
  /-- Issued in supervisor mode: its accesses are made in that mode (R399). -/
  sup : Bool
  cx8 : Bool
  src : Word
  dst : Word
  resume : Bool
  /-- Geometry, fixed when the copy begins. -/
  geo : Word
  str0 : Word
  str1 : Word
  str2 : Word
  ctl : Word
  /-- Elements (or CX8 elements) written. -/
  pos : Nat
  /-- CX8: the address of the next record, and the elements decoded from the present one. -/
  next : Word
  codes : List Nat
  /-- The 8-byte source words read, each with its poison, the newest first: every element that lies in one comes from this one reading
  (R116). -/
  buf : List (Nat × Nat × Bool)
  /-- The page, by its first 64 KiB, whose walk the copy waits for, and the one whose walk has just ended (R120). -/
  walk : Option Nat
  walked : Option Nat
  /-- Bytes of the current 64-byte line of memory written unpoisoned (R107). -/
  line : Nat
  covered : BitVec 64
  cancel : Bool
deriving DecidableEq, Repr

/-- A copy channel (R113, R383). -/
structure Channel where
  geo : Word
  str0 : Word
  str1 : Word
  str2 : Word
  ctl : Word
  cwp : Word
  cpos : Nat
  run : Option CopyOp
  queue : List CopyOp
  stopped : Option CopyOp
deriving DecidableEq, Repr

/-- An operand ring (R408, R409). -/
structure Ring where
  base : Word
  cfg : Word
  head : BitVec 32
  tail : BitVec 32
  /-- Store-buffer number at the last ESET to its RTAIL (R142). -/
  num : Nat
deriving DecidableEq, Repr

/-- The kind of a matrix operation (R407). -/
inductive MatKind where
  | mma | mmaz | mst | mld
deriving DecidableEq, Repr

/-- A matrix operation, queued or begun (R414-R419). -/
structure MatEntry where
  kind : MatKind
  sw : Bool
  dst : Both
  regs : Src × Src
  stream : Nat
  ga : Word
  gb : Word
  fut : Nat
  frame : Nat
  /-- For R81, once the thread has ended. -/
  launch : Nat
  /-- Store-buffer number at issue (R142). -/
  num : Nat
  begun : Bool
  /-- An injected mismatch: 1 in the first check, 2 in both checks (R349). -/
  inject : Nat
  /-- What an MST read as it began: the accumulator (and the next one), its kind, MSCALE (R385, R415). -/
  snap : BitVec 16384
  kind0 : Nat
  scale : BitVec 32
  /-- Cancelled after it began: an MST stops after its current row (R416). -/
  dying : Bool
deriving DecidableEq, Repr

/-- A matrix operation that has not resolved DONE since its stream's last MSYNC, in issue order (R417). -/
structure MatRec where
  stream : Nat
  fut : Nat
  frame : Nat
  status : FutStatus
deriving DecidableEq, Repr

/-- A block add in the reduction unit (R421). -/
structure BaddEntry where
  ga : Word
  gb : Word
  fut : Nat
  frame : Nat
  /-- The thread that issued it, wherever it stands now (R421). -/
  tid : Tid
  /-- Store-buffer number at issue (R142). -/
  num : Nat
  /-- For R81, once the thread has ended. -/
  launch : Nat
  /-- Named by FCANCEL: it runs on and resolves CANCELLED (R405). -/
  cancel : Bool
deriving DecidableEq, Repr

/-- An entry of the SFU queue: a scalar operation of a thread's pending result, or a chunk of the vector unit (R397). -/
structure SfuEntry where
  /-- The frame of the thread, 64 for a cancelled entry of a terminated one (R398). -/
  frame : Nat
  tok : Nat
  /-- The result and the flags, fixed by the operand captured at issue. -/
  val : Word
  flags : BitVec 5
  /-- A chunk of the vector unit. -/
  vec : Bool
  /-- The lanes of such a chunk, captured as the entry is made. -/
  ops : List Nat
  /-- The address at which that read met poison, or another fault. -/
  bad : Option Word
deriving DecidableEq, Repr

/-- An operation recorded as restartable (R206, R208, R390, R416). -/
inductive RecOp where
  | mat (m : MatEntry)
  | body (b : Body)
  /-- A queued body is collecting while members are awaited. -/
  | collect (b : Body)
  /-- The fault held by the first body (R395). -/
  | held (h : VHeld)
  /-- The copy that was running on a channel, those queued behind it, and a stopped one (R401). -/
  | running (ch : Nat) (o : CopyOp)
  | copy (ch : Nat) (o : CopyOp)
  | stopped (ch : Nat) (o : CopyOp)
deriving DecidableEq, Repr

/-! ## Threads with their context -/

/-- A thread with its context (R36) and the state it holds beyond it (R39). -/
structure Thread where
  /-- False only in the placeholder that stands in `State.thr` while no thread issues (log 13). -/
  live : Bool
  /-- Core number, die × 256 + y × 16 + x (R336). -/
  core : Nat
  frame : Nat
  /-- Rotation position, none for a removed thread (R38, R76) or an idle supervisor thread (R345). -/
  pos : Option Nat
  launch : Nat
  idx : Nat
  /-- Entry pc of a supervisor thread (R345). -/
  entry : Word
  g : Vector Word 16
  pc : Word
  st : Word
  tb : Word
  tr : TrapRegs
  pend : List Pending
  seq : Nat
  /-- Poison marks: register and virtual address (R57). -/
  marks : List (Nat × Word)
  /-- Damaged words: 0-15 for g, 19 pc, 20 st, 21 tb (R203, R213). -/
  damage : List Nat
  resv : Option Reservation
  wake : Bool
  park : Option Park
  /-- The block its fetch buffer holds, by virtual address over 32, and its 32 bytes (R48, R52). -/
  fbuf : Option (Nat × BitVec 256)
  /-- The cc since which its fetch buffer waits (R52). -/
  fsince : Option Nat
  /-- One above the number of the youngest buffered store of a sibling that it has read (R126). -/
  seen : Nat
  /-- The 64 KiB page whose walk has ended while the thread waited for it (R57, R120). -/
  walked : Option Nat
  /-- YIELD: the cc it expires at and the frames still to issue (R305). -/
  yield : Option (Nat × List Nat)
  /-- Target core of a migration in progress (R43). -/
  migr : Option Nat
  /-- The Hem window of its SC operation (R135). -/
  slot : Option Nat
  /-- An unreported peer store dropped under R224. -/
  dropped : Option Word
  /-- The watch check is skipped once, at this pc (R339). -/
  skipWatch : Option Word
  walk : Option Walk
  /-- How far the instruction at pc has come, where it parks part way; 0 before it issues. -/
  phase : Nat
  /-- The queue words that the instruction at pc has popped, in the order popped, true for qup (R258). -/
  popped : List (Bool × Word)
  /-- A trap has been taken and earlier results still land, into ESTAT as well (R199, R200). -/
  entering : Bool
  /-- Restartable operations of a removed anchored thread (R206). -/
  recorded : List RecOp
  /-- g1 and on as they were before a TRET put the arguments of a call anew there, for a trap of that call (R199, R370). -/
  undo : List Word
deriving DecidableEq, Repr

/-! ## Engine registers -/

/-- The engines of a core and their registers (R383, R408). -/
structure Engines where
  /-- The frame of the anchored thread (R40). -/
  owner : Option Nat
  futs : List Future
  /-- SBASE, SGEO, SSTR of stream s at 3s, 3s+1, 3s+2. -/
  stream : Vector Word 24
  spos : Vector Nat 8
  ch : Vector Channel 4
  vflags : BitVec 5
  f : Vector (BitVec 512) 8
  vq : List Body
  coll : Option Body
  held : Option VHeld
  sfu : List SfuEntry
  ring : Vector Ring 8
  mscale : BitVec 32
  mflags : BitVec 6
  mfst : Word
  mkind : Vector (BitVec 2) 8
  acc : Vector (BitVec 8192) 8
  mq : List MatEntry
  mfail : List MatRec
  brlen : BitVec 7
  rflags : BitVec 5
  bq : List BaddEntry
deriving DecidableEq, Repr

/-! ## Store buffer, caches, wait table of a core -/

/-- What a store-buffer entry does when it is applied (R96, R137, R319, R326). -/
inductive SbKind where
  | store
  /-- A narrowing store through the window of a format (R91). -/
  | narrow
  | stsc
  | stf
  | stef
  | sete
  /-- SCON, with the token of its result. -/
  | scon (tok : Nat)
deriving DecidableEq, Repr

/-- A store-buffer entry (R96). -/
structure SbEntry where
  num : Nat
  frame : Nat
  tid : Tid
  kind : SbKind
  loc : Loc
  width : Nat
  data : Word
  /-- Held under R133: a release at core scope or wider. -/
  rel : Bool
  scope : Nat
  /-- Results of the thread with a token below this one must have landed (R133). -/
  tok : Nat
  /-- Not applied before this cc (R137). -/
  notBefore : Nat
  /-- It has left the buffer, in age order, and awaits its application (R84, R97). -/
  left : Bool
  /-- It has met an uncorrectable error: its target is written poisoned (R213). -/
  bad : Bool
  /-- The place of its coherence request on the Hem: window, and rank among those of its core (R148). -/
  lane : Option (Nat × Nat)
deriving DecidableEq, Repr

/-- The permission of an L1 line (R147). -/
inductive Perm where
  | s | e | o | m
deriving DecidableEq, Repr

/-- A line of an L1 or an L2 slice: `line` is the physical address shifted right 6 (R95). -/
structure L1Line where
  line : Nat
  perm : Perm
deriving DecidableEq, Repr

/-- A TLB entry: the tenant (none for TTBASESV), the base and size of the page, and the leaf (R118, R120). -/
structure TlbEntry where
  tenant : Option Nat
  base : Nat
  size : Nat
  leaf : Nat
  /-- Physical address of the leaf, for the D bit. -/
  at_ : Nat
deriving DecidableEq, Repr

/-- A waiting full/empty operation (R320). -/
inductive FeKind where
  | ldf | ldfe | stef
deriving DecidableEq, Repr

/-- A wait-table entry, or an operation that a full table turned away (R320). -/
structure WaitEntry where
  kind : FeKind
  key : Nat
  core : Nat
  frame : Nat
  /-- Token of the result; for an STEF its store-buffer number. -/
  tok : Nat
  data : Word
  launch : Nat
  remote : Bool
  /-- An STEF whose store-buffer entry has met an uncorrectable error (R213). -/
  bad : Bool
deriving DecidableEq, Repr

/-- A per-core reset in progress (R210). -/
structure CoreReset where
  mapout : Bool
deriving DecidableEq, Repr

/-- Eight event counters: count, selector and the launch that last wrote the selector (R234). -/
structure Counter where
  sel : Word
  cnt : BitVec 48
  by_ : Nat
deriving DecidableEq, Repr

/-- A core (R17, R38). -/
structure Core where
  id : Nat
  rot : Word
  /-- The cc in which fixed mode took effect (R50). -/
  rotFrom : Nat
  /-- The position that last issued (R49). -/
  last : Nat
  /-- Tenant of the scratchpad, and the slots of the save area in use with their tenants (R88). -/
  spOwner : Option Nat
  saved : List (Nat × Nat)
  waits : List WaitEntry
  /-- Operations turned away by a full table, each with the cc of its next retry (R320). -/
  retries : List (Nat × WaitEntry)
  sb : List SbEntry
  sbNum : Nat
  /-- Lines, most recently used first. -/
  l1 : List L1Line
  tlb : List TlbEntry
  qup : List Word
  qrx : List Word
  qOwner : Option Nat
  qdn : Option Nat
  /-- Topmost entry first. -/
  deque : List DqEntry
  work : Nat
  cnt : Vector Counter 8
  errinj : Word
  /-- The thread that armed the injection (R349). -/
  injTid : Tid
  injSkip : Nat
  watch : Word
  /-- TTBASESV, SPSAVE and TTBASE0-15 of the core, by index, as written since reset; one not written reads as `Sys` says (R334). -/
  regs : List (Nat × Word)
  reset : Option CoreReset
  eng : Engines
deriving DecidableEq, Repr

/-! ## Clusters, quads, dies -/

/-- The shared units of a cluster (R52, R98, R99, R120, R234). -/
structure Cluster where
  id : Nat
  /-- Lines, most recently used first. -/
  l2 : List L1Line
  /-- Constant cache: line and its 64 bytes as they were filled. -/
  kc : List (Nat × BitVec 512)
  ic : List Nat
  tlb : List TlbEntry
  cnt : Vector Counter 8
deriving DecidableEq, Repr

/-- The block queue of a gateway quad (R420): quad is die × 64 + quad number. -/
structure BlockQueue where
  quad : Nat
  lim : BitVec 32
  pos : BitVec 32
deriving DecidableEq, Repr

/-- An aggregated add being combined (R139). -/
structure AggPart where
  core : Nat
  pos : Nat
  frame : Nat
  tok : Nat
  addend : BitVec 32
  launch : Nat
  /-- Store-buffer number at issue. -/
  num : Nat
deriving DecidableEq, Repr

structure Agg where
  quad : Nat
  loc : Loc
  first : Nat
  parts : List AggPart
deriving DecidableEq, Repr

/-! ## Memory -/

/-- The bytes of the package with their side bits. `bytes` is in canonical form (`Memory.wf`): addresses strictly rising,
no entry 0, which is what an unlisted address reads as (log 3). Scratchpad bytes stand at their global window address
and weight-store bytes at theirs (R26); every other byte at its physical address. -/
structure Memory where
  bytes : List Host.Cell
  /-- Scratchpad words that are empty (R87), by key, rising. -/
  empty : List Nat
  /-- Poisoned units: 64-byte lines of memory and 8-byte words of scratchpad and weight store, by key, rising (R87, R107, R108). -/
  poison : List Nat
deriving DecidableEq, Repr

/-! ## Launches -/

/-- A launch record (R71). -/
structure LaunchRec where
  entry : Word
  die : Nat
  y : Nat
  x : Nat
  extd : Nat
  exty : Nat
  extx : Nat
  tpc : Nat
  anc : Bool
  prio : Nat
  tenant : Nat
  incx : Nat
  incb : Bool
  args : Word
  tvec : Word
  tables : BitVec 16
  spill : Word
  spillsz : Word
  dqovf : Word
  depk : Nat
  depv : Word
  done : Word
deriving DecidableEq, Repr

/-- Where a launch stands (R75, R82). -/
inductive LStatus where
  | held | queued | running | ended
deriving DecidableEq, Repr

/-- Messages of a launch at one core (R79), and the entries in the core's overflow area (R60). -/
structure CoreCount where
  core : Nat
  sent : Nat
  recv : Nat
  ovf : Nat
deriving DecidableEq, Repr

/-- A spilled thread (R77, R207). It keeps standing on its core under a frame number above 64, as whatever is delivered to it
leaves it; `words` is its record as it was last written. -/
structure Spilled where
  idx : Nat
  words : List Word
deriving DecidableEq, Repr

/-- Threads lost on a core and not yet reported (R212). -/
structure Lost where
  core : Nat
  threads : Nat
  entries : Nat
deriving DecidableEq, Repr

/-- A launch. -/
structure Launch where
  id : Nat
  info : LaunchRec
  status : LStatus
  /-- cc of its placement. -/
  placed : Nat
  incs : List Nat
  counts : List CoreCount
  spilled : List Spilled
  anyLost : Bool
  /-- Cores for which CTXLOST has been delivered or is due (R212). -/
  lostAt : List Nat
  /-- Cores released from a per-core reset since it began to run, which get no further thread of it (R210). -/
  barred : List Nat
  bySup : Bool
  /-- The two sums of the last sweep, when every core was idle (R82). -/
  sweep : Option (Nat × Nat)
  ops : Nat
  dram : Nat
  /-- The class of R78: compute-bound. -/
  cls : Option Bool
deriving DecidableEq, Repr

/-- A slot of a launch window (R227). -/
structure WinSlot where
  seam : Nat
  slot : Nat
  words : Vector Word 16
  busy : Bool
deriving DecidableEq, Repr

/-- A launch record on its way to the launcher (R364), from a device thread. -/
structure LaunchReq where
  core : Nat
  frame : Nat
  /-- Where the 16 words of the record stand. -/
  locs : List Loc
  tenant : Nat
  prio : Nat
deriving DecidableEq, Repr

/-- A TFLUSH whose slices have not all acknowledged: its table id, and the cc at which they have (R343). -/
structure Flush where
  table : Nat
  ends : Nat
deriving DecidableEq, Repr

/-- The launcher (R71-R82, R227). -/
structure Launcher where
  list : List Launch
  nextId : Nat
  /-- Priority FIFOs, as one list in order of entry. -/
  fifo : List Nat
  /-- Table ids and the launch that owns each. -/
  tables : List (Nat × Nat)
  slots : List WinSlot
  lwerr : Vector (BitVec 2) 2
  reqs : List LaunchReq
  flushes : List Flush
deriving DecidableEq, Repr

/-! ## Barriers, answer table, incumbents -/

/-- A barrier: scope, group number and index name it (R66). -/
structure Barrier where
  scope : Nat
  group : Nat
  idx : Nat
  holder : Option Nat
  count : Nat
  timeout : Nat
  arrived : Nat
  first : Nat
  gen : BitVec 32
deriving DecidableEq, Repr

/-- The state of an answer-table entry (R367). -/
inductive TState where
  | producing | grouped | complete | abandoned | failed
deriving DecidableEq, Repr

/-- The lattice joins (R365). -/
inductive Join where
  | first | min | max | minu | maxu | or
deriving DecidableEq, Repr

/-- A key of the answer table (R366). -/
structure TKey where
  table : Nat
  callee : Word
  args : List Word
deriving DecidableEq, Repr

/-- An entry of the answer table (R367). -/
structure TEntry where
  key : TKey
  join : Join
  state : TState
  answer : Word
  stamp : Nat
  producer : Option Tid
  fault : Bool
  consumers : List Tid
  group : Option Nat
  pass : Nat
  consumed : Bool
  prov : Word
  lru : Nat
deriving DecidableEq, Repr

/-- A completion group (R372). -/
structure TGroup where
  id : Nat
  join : Join
  pass : Nat
  dirty : Bool
  tainted : List Tid
deriving DecidableEq, Repr

/-- The producer stack of a thread: none is a null record (R368). -/
structure TStack where
  tid : Tid
  recs : List (Option TKey)
deriving DecidableEq, Repr

/-- The answer table (R366). -/
structure Table where
  entries : List TEntry
  groups : List TGroup
  prods : List TStack
  stamp : Nat
deriving DecidableEq, Repr

/-- An INCU on its way to the master (R377). -/
structure IncMsg where
  core : Nat
  frame : Nat
  launch : Nat
  k : Nat
  key : Word
  tag : Word
  num : Nat
  tok : Nat
deriving DecidableEq, Repr

/-- A change of a master copy announced on the Hem (R377): the incumbent, its new key, the cc of the change, and the cores whose local
copies hold it before the 72 cc are over. -/
structure IncPub where
  k : Nat
  key : Word
  since : Nat
  got : List Nat
deriving DecidableEq, Repr

/-- The incumbents (R376): master, mirror, the local copies as every core holds them once the announcements before `pubs` have
reached it, and the announcements under way. -/
structure Incumbents where
  key : Vector Word 8
  tag : Vector Word 8
  mirrorKey : Vector Word 8
  mirrorTag : Vector Word 8
  local_ : Vector Word 8
  msgs : List IncMsg
  pubs : List IncPub
deriving DecidableEq, Repr

/-! ## Messages in flight -/

/-- The operation of a remote word request (R42). -/
inductive ReqKind where
  | load (width : Nat) (sx : Bool)
  | atomic (op : Nat) (width : Nat) (x : Word) (cmp : Word)
  | fetst
  | lres
  /-- A prefetch, into the L2 where `l2` (R330). -/
  | pref (l2 : Bool)
deriving DecidableEq, Repr

/-- A remote word request (R45, R79, R80). -/
structure Req where
  core : Nat
  frame : Nat
  tid : Tid
  tok : Nat
  kind : ReqKind
  loc : Loc
  /-- Store-buffer number at issue. -/
  num : Nat
  rel : Bool
  scope : Nat
  /-- Served outside the core, and counted under R79; else an access of the core's own L1 or scratchpad that waits. -/
  remote : Bool
  /-- The window of an SC operation, whose place in S it has (R135). -/
  win : Option Nat
  /-- The place of its coherence request on the Hem: window, and rank among those of its core (R148). -/
  lane : Option (Nat × Nat)
deriving DecidableEq, Repr

/-- A page walk asked for and not ended (R120): the cluster whose misses it serves, the table, an address of the page. -/
structure WalkReq where
  cluster : Nat
  ctx : Option Nat
  va : Nat
deriving DecidableEq, Repr

/-- A 512-byte block that the MSC slice of its channel holds: the bytes not yet written to DRAM, none of them in a clean block
(R103, R104). -/
structure MscBlock where
  block : Nat
  dirty : BitVec 512
deriving DecidableEq, Repr

/-- A full/empty operation on its way to the scratchpad (R320). -/
structure FeReq where
  core : Nat
  word : Nat
  e : WaitEntry
deriving DecidableEq, Repr

/-- A word on its way to a qrx or a qup (R64, R65). -/
structure Msg where
  core : Nat
  frame : Nat
  launch : Nat
  /-- The sender's index in its launch: its messages arrive in order also where it has migrated (R65). -/
  idx : Nat
  target : Nat
  word : Word
  num : Nat
  tok : Nat
deriving DecidableEq, Repr

/-- The messages in flight. -/
structure Net where
  reqs : List Req
  fe : List FeReq
  sends : List Msg
  pushes : List Msg
  /-- Migrating threads with their target core (R43). -/
  moves : List Thread
  aggs : List Agg
  /-- The source that each bank has served last (R85). -/
  banks : List (Nat × Nat)
deriving DecidableEq, Repr

/-! ## Seam dies, links, management -/

/-- The state of a directory entry (R152). -/
inductive DState where
  | s | e | o | m
deriving DecidableEq, Repr

/-- A coherence request (R153); a write-back tells whether its data is dirty. -/
inductive CReq where
  | rds | rdx | upg
  | wb (dirty : Bool)
  | evc
deriving DecidableEq, Repr

/-- A directory entry (R152). It exists exactly while the line's export bit is set. -/
structure DirEntry where
  line : Nat
  st : DState
  owner : Nat
  sharers : BitVec 13
  busy : Bool
  /-- A recall is in progress (R158). -/
  evict : Bool
  queue : List (Nat × CReq)
  lru : Nat
  /-- The request whose transaction is in progress, while its snoops are under way (R155). -/
  serving : Option (Nat × CReq)
deriving DecidableEq, Repr

/-- An entry of the far-memory combining buffer (R166). -/
structure Comb where
  line : Nat
  since : Nat
  mask : BitVec 64
deriving DecidableEq, Repr

/-- Counters of one seam slice: slice 32s + i (R234). -/
structure SliceCnt where
  slice : Nat
  cnt : Vector Counter 8
deriving DecidableEq, Repr

/-- The seam dies. -/
structure Seam where
  dir : List DirEntry
  comb : List Comb
  cnts : List SliceCnt
  /-- Snoops sent to an agent and not yet answered: agent, line, invalidate (R155, R157). -/
  snoops : List (Nat × Nat × Bool)
  /-- Requests that wait for a way of their set (R158): agent, line, request. -/
  waits : List (Nat × Nat × CReq)
  tick : Nat
deriving DecidableEq, Repr

/-- A CXL port (R219, R220). -/
structure Port where
  up : Bool
  dcd : Bool
  fabric : Bool
  width : Nat
  rate : Nat
  /-- Backed extents: base and size. -/
  extents : List (Nat × Nat)
  /-- Poison list: base and size of each line or range (R167). -/
  plist : List (Nat × Nat)
  /-- Space released and not backed again: base and size (R167). -/
  released : List (Nat × Nat)
deriving DecidableEq, Repr

/-- An extent being released: port, base, size and the cc of the request (R167). -/
structure Release where
  port : Nat
  base : Nat
  size : Nat
  since : Nat
deriving DecidableEq, Repr

/-- A peer link (R221, R226). -/
structure PeerLink where
  trained : Bool
  node : Nat
  remote : Nat
deriving DecidableEq, Repr

/-- The links to the outside. -/
structure Links where
  ports : Vector Port 4
  releases : List Release
  peers : Vector PeerLink 16
  /-- Host-link record (R218). -/
  up : BitVec 2
  cacheen : Bool
  memen : Bool
  node : Nat
  /-- Host links over which MSI-X vector 0 has been raised and not yet taken by the host (R233). -/
  msix : BitVec 2
  /-- Writes of agents beyond the dies that wait for their line, in order: agent, address, bytes (R146, R155). -/
  writes : List (Nat × Nat × List Byte)
deriving DecidableEq, Repr

/-- The generation words and the varying fields of the capability list (R34, R35, R105, R168, R214). -/
structure Caps where
  genCore : Nat
  genMem : Nat
  genSeam : Nat
  genHost : Nat
  genCxl : Nat
  genPeer : Nat
  genHealth : Nat
  /-- Disabled cores. -/
  disabled : List Nat
  spares : Vector Nat 8
  cap : Nat
  rmv : Bool
  rmvbase : Nat
  /-- Mapped-out layers: stack and layer. -/
  layers : List (Nat × Nat)
  seamOk : BitVec 2
  dless : Bool
  surv : Nat
  fovr : Bool
  dead : BitVec 13
  incarn : Vector (BitVec 8) 13
deriving DecidableEq, Repr

/-- The health record (R214). -/
structure Health where
  why : BitVec 6
  cewin : Nat
  uecnt : Nat
  rstcnt : Nat
  cecnt : Nat
  rescnt : Nat
  lastset : Nat
  /-- Start of the running window, and its corrected errors. -/
  winStart : Nat
  winCount : Nat
deriving DecidableEq, Repr

/-- An event of the management queue (R233): code and two words of detail. -/
structure Event where
  code : Nat
  d0 : Word
  d1 : Word
deriving DecidableEq, Repr

/-- One mailbox of BAR 0 (R232). -/
structure Mailbox where
  /-- The command last written; it waits or runs while `stat` reads busy. -/
  cmd : Word
  stat : Nat
  outLen : Nat
  data : List Host.Cell
deriving DecidableEq, Repr

/-- A supervisor thread of the image's table (R345). -/
structure SupEntry where
  core : Nat
  entry : Word
deriving DecidableEq, Repr

/-- A layer removal in progress (R111): which layer, whether the supervisor has acknowledged, and a map-out that needs
no acknowledgement. -/
structure Removal where
  stack : Nat
  layer : Nat
  acked : Bool
deriving DecidableEq, Repr

/-- A TLBI that waits (R121, R342): its issuer and operands, the Hem window in which it is announced until that has been delivered, and the
accesses in flight as the entries were removed: the store-buffer number of each core, LAUNCHs, and STEFs that have left their buffer. -/
structure TlbiWait where
  core : Nat
  frame : Nat
  what : Word
  ctl : Word
  win : Option Nat
  marks : List (Nat × Nat)
  recs : List LaunchReq
  stefs : List WaitEntry
deriving DecidableEq, Repr

/-- Dzieth (R229-R233, R345). -/
structure Mgmt where
  booted : Bool
  /-- Bytes of the image, of the flash or of RECOVER. -/
  image : List Byte
  recover : List Byte
  lms : Nat
  svn : BitVec 32
  meas : BitVec 384
  mb : Vector Mailbox 2
  /-- Mailboxes whose command waits, in order of arrival (R232). -/
  mbq : List Nat
  events : List Event
  sup : List SupEntry
  /-- Terminated supervisor threads to start again. -/
  restarts : List SupEntry
  /-- CTXLOST threads to start: launch and loss. -/
  ctxlost : List (Nat × Lost)
  /-- Lost threads whose records are still to be written, with the STATE they get (R207, R212). -/
  unsaved : List (Thread × Nat)
  removals : List Removal
  gated : Bool
  failing : Option Nat
  /-- TLBIs whose named entries are removed and that wait for the accesses translated through them (R121). -/
  tlbis : List TlbiWait
deriving DecidableEq, Repr

/-- SVEC, the one system register of the package, and the values that reset and firmware give the table roots and SPSAVE of every core
(R334). -/
structure Sys where
  svec : Word
  ttbasesv : Word
  spsave : Word
  ttbase : Vector Word 16
deriving DecidableEq, Repr

/-- An act of the outside world for which the opcode table has no row (log 60). -/
inductive HostAct where
  /-- A write of at most 64 bytes within one line of device memory or of a port's own memory, by agent 8 to 12 (R146). -/
  | write (agent pa : Nat) (bytes : List Byte)
  /-- A message of an agent that was dead arrives, after it has joined again, with its old incarnation (R160). -/
  | late (agent line : Nat)
  /-- The host takes the interrupt that MSI-X vector 0 of a host link has raised (R233). -/
  | takeMsix (seam : Nat)
  /-- A write of MBDATA of a mailbox, at an offset (R232). -/
  | mbData (mailbox off : Nat) (bytes : List Byte)
  /-- A write of MBCMD of a mailbox (R232). -/
  | mbCmd (mailbox : Nat) (cmd : Word)
  /-- Host software gives the package its node number at link training (R222). -/
  | node (n : Nat)
  /-- The supervisor sets the tenant of a die's weight-store slot (R100). -/
  | weightTenant (die tenant : Nat)
  /-- The launcher copies bytes of device HBM into the weight store (R100). -/
  | weightCopy (die off pa len : Nat)
deriving DecidableEq, Repr

/-- An error of the hardware (R106, R108, R213; log 61). `corrected` errors are counted; others do what R213 says. -/
inductive Upset where
  /-- A 512-byte block of device HBM is read with some bit errors (R106). -/
  | dram (block errors : Nat)
  /-- A cache line or MSC line of a physical address (R108). -/
  | line (line : Nat) (corrected : Bool)
  /-- A scratchpad or weight-store word, by key (R87, R108). -/
  | word (key : Nat) (corrected : Bool)
  /-- A word of a register frame: 0-15 for g, 19 pc, 20 st, 21 tb. -/
  | frame (core frame word : Nat) (corrected : Bool)
  /-- The k-th entry of a store buffer. -/
  | store (core k : Nat) (corrected : Bool)
  /-- The k-th entry of a deque. -/
  | deque (core k : Nat) (corrected : Bool)
  /-- The k-th entry of the answer table. -/
  | answer (k : Nat) (corrected : Bool)
  /-- The master copy of an incumbent. -/
  | incumbent (k : Nat) (corrected : Bool)
  /-- The k-th context in flight is lost on a failed link. -/
  | context (k : Nat)
deriving DecidableEq, Repr

/-- Which agent moves next (log 1). -/
inductive Turn where
  /-- A step of the machine that is no instruction word. -/
  | event (i : Instr)
  /-- A core issues. -/
  | core (n : Nat)
  /-- The local copies of a core take the next change of an incumbent announced (R377). -/
  | copy (core : Nat)
  /-- The outside world acts. -/
  | host (a : HostAct)
  /-- Hardware errs. -/
  | upset (u : Upset)
deriving DecidableEq, Repr

/-- The state of a package. -/
structure State where
  pkg : Package
  cc : Nat
  /-- Counter at which free values are read (log 8). -/
  free : Nat
  agenda : List Turn
  thr : Thread
  core : Core
  threads : List Thread
  cores : List Core
  mem : Memory
  sys : Sys
  caps : Caps
  health : Health
  launcher : Launcher
  bars : List Barrier
  table : Table
  inc : Incumbents
  net : Net
  /-- Hem SC slots taken: core and window (R135). -/
  hem : List (Nat × Nat)
  seam : Seam
  links : Links
  clusters : List Cluster
  /-- Page walks asked for, in order of arrival (R120). -/
  walks : List WalkReq
  /-- Blocks that the MSC slices hold, most recently used first (R103, R104). -/
  msc : List MscBlock
  /-- Lines of device HBM that the ECC space holds poisoned while a cache or an MSC slice holds their data (R106). -/
  ecc : List Nat
  quads : List BlockQueue
  /-- Tenant of each die's weight store (R100). -/
  weight : List (Nat × Nat)
  mgmt : Mgmt
deriving DecidableEq, Repr

/-! ## Reset values -/

/-- 2^63 - 1, the unbounded task bound and the reset key of an incumbent (R71, R376). -/
abbrev maxKey : Word := 0x7FFFFFFFFFFFFFFF

def TrapRegs.reset : TrapRegs where
  epc := 0
  ecause := 0
  eval := 0
  estat := 0
  evec := 0
  inE := false
  inS := false

/-- The placeholder that stands for no thread (log 13). -/
def Thread.absent : Thread where
  live := false
  core := 0
  frame := 0
  pos := Option.none
  launch := 0
  idx := 0
  entry := 0
  g := Vector.replicate 16 0
  pc := 0
  st := 0
  tb := maxKey
  tr := TrapRegs.reset
  pend := []
  seq := 0
  marks := []
  damage := []
  resv := Option.none
  wake := false
  park := Option.none
  fbuf := Option.none
  fsince := Option.none
  seen := 0
  walked := Option.none
  yield := Option.none
  migr := Option.none
  slot := Option.none
  dropped := Option.none
  skipWatch := Option.none
  walk := Option.none
  phase := 0
  popped := []
  entering := false
  recorded := []
  undo := []

def Channel.reset : Channel where
  geo := 0
  str0 := 0
  str1 := 0
  str2 := 0
  ctl := 0
  cwp := 0
  cpos := 0
  run := Option.none
  queue := []
  stopped := Option.none

def Ring.reset : Ring where
  base := 0
  cfg := 0
  head := 0
  tail := 0
  num := 0

/-- Core reset sets every engine register to 0 (R383); value registers and accumulators 0 (log 13). -/
def Engines.reset : Engines where
  owner := Option.none
  futs := []
  stream := Vector.replicate 24 0
  spos := Vector.replicate 8 0
  ch := Vector.replicate 4 Channel.reset
  vflags := 0
  f := Vector.replicate 8 0
  vq := []
  coll := Option.none
  held := Option.none
  sfu := []
  ring := Vector.replicate 8 Ring.reset
  mscale := 0
  mflags := 0
  mfst := 0
  mkind := Vector.replicate 8 0
  acc := Vector.replicate 8 0
  mq := []
  mfail := []
  brlen := 0
  rflags := 0
  bq := []

def Counter.reset : Counter where
  sel := 0
  cnt := 0
  by_ := 0

/-- Core number n after reset (R51, R87, R334). -/
def Core.fresh (n : Nat) : Core where
  id := n
  rot := 62
  rotFrom := 0
  last := 31
  spOwner := Option.none
  saved := []
  waits := []
  retries := []
  sb := []
  sbNum := 0
  l1 := []
  tlb := []
  qup := []
  qrx := []
  qOwner := Option.none
  qdn := Option.none
  deque := []
  work := 0
  cnt := Vector.replicate 8 Counter.reset
  errinj := 0
  injTid := ⟨0, 0⟩
  injSkip := 0
  watch := 0
  regs := []
  reset := Option.none
  eng := Engines.reset

def Cluster.fresh (n : Nat) : Cluster where
  id := n
  l2 := []
  kc := []
  ic := []
  tlb := []
  cnt := Vector.replicate 8 Counter.reset

def Port.reset : Port where
  up := false
  dcd := false
  fabric := false
  width := 0
  rate := 0
  extents := []
  plist := []
  released := []

def Mailbox.reset : Mailbox where
  cmd := 0
  stat := 0
  outLen := 0
  data := []

def PeerLink.reset : PeerLink where
  trained := false
  node := 0
  remote := 0

def Caps.reset (p : Package) : Caps where
  genCore := 0
  genMem := 0
  genSeam := 0
  genHost := 0
  genCxl := 0
  genPeer := 0
  genHealth := 0
  disabled := []
  spares := match p with
    | .t8s => Vector.replicate 8 4
    | .t2s => ((Vector.replicate 8 0).set 0 4).set 1 4
  cap := p.hbm
  rmv := false
  rmvbase := 0
  layers := []
  seamOk := 3
  dless := false
  surv := 0
  fovr := false
  dead := 0
  incarn := Vector.replicate 13 0

def Health.reset : Health where
  why := 0
  cewin := 0
  uecnt := 0
  rstcnt := 0
  cecnt := 0
  rescnt := 0
  lastset := 0
  winStart := 0
  winCount := 0

def Launcher.reset : Launcher where
  list := []
  nextId := 1
  fifo := []
  tables := []
  slots := []
  lwerr := Vector.replicate 2 0
  reqs := []
  flushes := []

def Table.reset : Table where
  entries := []
  groups := []
  prods := []
  stamp := 0

def Incumbents.reset : Incumbents where
  key := Vector.replicate 8 maxKey
  tag := Vector.replicate 8 0
  mirrorKey := Vector.replicate 8 maxKey
  mirrorTag := Vector.replicate 8 0
  local_ := Vector.replicate 8 maxKey
  msgs := []
  pubs := []

def Net.reset : Net where
  reqs := []
  fe := []
  sends := []
  pushes := []
  moves := []
  aggs := []
  banks := []

def Seam.reset : Seam where
  dir := []
  comb := []
  cnts := []
  snoops := []
  waits := []
  tick := 0

def Links.reset : Links where
  ports := Vector.replicate 4 Port.reset
  releases := []
  peers := Vector.replicate 16 PeerLink.reset
  up := 0
  cacheen := false
  memen := false
  node := 0
  msix := 0
  writes := []

/-- Dzieth after boot (R229, R230; SVN, MEAS and the supervisor table: log 4, log 16). -/
def Mgmt.reset : Mgmt where
  booted := true
  image := []
  recover := []
  lms := 0
  svn := 0
  meas := 0x5bb99848f1d21ad5fb656fe7bfde4e27dae1f663bfc70c4c4307be1411b7fd216ae3b1b17e32d94c3896ac51a760b038
  mb := Vector.replicate 2 Mailbox.reset
  mbq := []
  events := []
  sup := []
  restarts := []
  ctxlost := []
  unsaved := []
  removals := []
  gated := false
  failing := Option.none
  tlbis := []

def Memory.reset : Memory where
  bytes := []
  empty := []
  poison := []

/-- System registers after firmware has set SVEC (R334, log 4). -/
def Sys.reset : Sys where
  svec := 0xFFFF000000000000
  ttbasesv := 0
  spsave := 0
  ttbase := Vector.replicate 16 0

/-- A package right after reset and boot (R8, R229): no thread, no launch, every unit empty. -/
def State.resetOf (p : Package) : State where
  pkg := p
  cc := 0
  free := 0
  agenda := []
  thr := Thread.absent
  core := Core.fresh 0
  threads := []
  cores := []
  mem := Memory.reset
  sys := Sys.reset
  caps := Caps.reset p
  health := Health.reset
  launcher := Launcher.reset
  bars := []
  table := Table.reset
  inc := Incumbents.reset
  net := Net.reset
  hem := []
  seam := Seam.reset
  links := Links.reset
  clusters := []
  walks := []
  msc := []
  ecc := []
  quads := []
  weight := []
  mgmt := Mgmt.reset

/-- The Thafold 8S right after reset. -/
def State.reset : State := State.resetOf .t8s

end Sys2Proof.Machine
end

