-- ==== Sys2Proof/Machine/Base.lean ====
section
/-! DEFINITION. Places and numbers of the package, the bytes of memory, and the accessors of threads, cores, clusters,
launches, counters and events that every meaning goes through. -/

namespace Sys2Proof.Machine

/-- The answer of a step. -/
abbrev Answer := Host.Outcome State Fault Refusal

/-! ## Places (R16-R18, R23, R26) -/

abbrev scratchBase : Nat := 0xFFFFFE0000000000
abbrev localBase : Nat := 0xFFFFFF0000000000
abbrev weightBase : Nat := 0xFFFFFD0000000000

def dieOf (c : Nat) : Nat := c / 256
def yOf (c : Nat) : Nat := c / 16 % 16
def xOf (c : Nat) : Nat := c % 16
def coreAt (d x y : Nat) : Nat := d * 256 + y * 16 + x

/-- Numbers of the groups of a core (R17): quad, cluster and stack within the package. -/
def quadOf (c : Nat) : Nat := dieOf c * 64 + (yOf c / 2) * 8 + xOf c / 2
def clusterOf (c : Nat) : Nat := dieOf c * 16 + (yOf c / 4) * 4 + xOf c / 4
def stackOf (c : Nat) : Nat := dieOf c * 2 + xOf c / 8

/-- Does the group of scope `sc` that holds core `a` hold core `b` (R30)? -/
def inScope (sc a b : Nat) : Bool :=
  match sc with
  | 0 => a == b
  | 1 => a == b
  | 2 => quadOf a == quadOf b
  | 3 => clusterOf a == clusterOf b
  | 4 => stackOf a == stackOf b
  | 5 => dieOf a == dieOf b
  | _ => true

/-- The smallest scope from core to package whose group holds both cores (R30). -/
def scopeOf (a b : Nat) : Nat := ((List.range 6).find? fun i => inScope (i + 1) a b).getD 5 + 1

/-- The group number of a barrier scope (R66). -/
def groupOf (sc c : Nat) : Nat :=
  match sc with
  | 1 => c
  | 2 => quadOf c
  | 3 => clusterOf c
  | 4 => stackOf c
  | 5 => dieOf c
  | _ => 0

/-- The key of a scratchpad byte (R26). -/
def scratchKey (core off : Nat) : Nat := scratchBase + core * 0x100000 + off

/-- The key of a weight-store byte (R26). -/
def weightKey (die off : Nat) : Nat := weightBase + die * 0x40000000 + off

/-- A core whose quad lies beside a peer link (R221). -/
def isGateway (c : Nat) : Bool := quadOf c % 64 == 0 || quadOf c % 64 == 63

/-- Is core n's position present and enabled (R20, R21, R35)? -/
def State.enabled (s : State) (n : Nat) : Bool := n < s.pkg.dies * 256 && !(s.caps.disabled.contains n)

/-- R23: a place offset resolved from core `c`, none for PLACE. -/
def resolvePlace (p : Package) (c : Nat) (off : Nat) : Option Nat :=
  let sx (w x : Nat) : Int := if x < 2 ^ (w - 1) then (x : Int) else (x : Int) - (2 ^ w : Nat)
  let tdie := (((dieOf c : Int) + sx 4 (bits off 10 4) + 8) % p.dies).toNat
  let ty := (yOf c : Int) + sx 5 (bits off 5 5)
  let tx := (xOf c : Int) + sx 5 (bits off 0 5)
  if ty < 0 || 15 < ty || tx < 0 || 15 < tx then none else some (coreAt tdie tx.toNat ty.toNat)

/-- The channel of a device address (R29). -/
def channelOf (p : Package) (pa : Nat) : Nat :=
  match p with
  | .t8s => bits pa 16 9 ^^^ (bits pa 25 9 ^^^ ((bits pa 25 9 / 16 + bits pa 25 9 * 32) % 512))
  | .t2s => bits pa 16 7 ^^^ (bits pa 23 7 ^^^ ((bits pa 23 7 / 8 + bits pa 23 7 * 16) % 128))

/-- The home quad of a device address (R18), by package number. -/
def homeQuad (p : Package) (pa : Nat) : Nat :=
  let c := channelOf p pa
  let i := c % 32
  c / 64 * 64 + (i / 4) * 8 + ((c / 32 % 2) * 4 + i % 4)

/-- The four cores of a quad in quad position order (R44). -/
def quadCores (q : Nat) : List Nat :=
  let d := q / 64
  let y := (q % 64 / 8) * 2
  let x := (q % 8) * 2
  [coreAt d x y, coreAt d (x + 1) y, coreAt d x (y + 1), coreAt d (x + 1) (y + 1)]

/-! ## Bits of a word -/

/-- A word with the bits [lo + n - 1 : lo] replaced. -/
def setField (w : Word) (lo n v : Nat) : Word :=
  (w &&& ~~~(BitVec.ofNat 64 ((2 ^ n - 1) * 2 ^ lo))) ||| BitVec.ofNat 64 (v % 2 ^ n * 2 ^ lo)

/-- The bits [lo + n - 1 : lo] of a word. -/
abbrev fieldOf (w : Word) (lo n : Nat) : Nat := bits w.toNat lo n

/-- A number from bits, least significant first. -/
def ofBits (l : List Bool) : Nat := l.foldr (fun b v => 2 * v + (if b then 1 else 0)) 0

/-- A word with one bit replaced. -/
def setBit (w : Word) (i : Nat) (b : Bool) : Word := setField w i 1 (if b then 1 else 0)

/-- A vector or return address with the two low bits 0, since pc is always a multiple of 4 (R255; DESIGN CHOICE, log 64). -/
def aligned (pc : Word) : Word := pc &&& ~~~3

/-! ## Memory in canonical form -/

/-- What is stored at an address; an unlisted address reads as 0 (log 3). -/
def getByte : List Host.Cell → Nat → Byte
  | [], _ => 0
  | (k, b) :: r, a => if a = k then b else if a < k then 0 else getByte r a

/-- Store one byte, keeping the form: a 0 is not listed. -/
def putByte : List Host.Cell → Nat → Byte → List Host.Cell
  | [], a, v => if v = 0 then [] else [(a, v)]
  | (k, b) :: r, a, v =>
    if a < k then (if v = 0 then (k, b) :: r else (a, v) :: (k, b) :: r)
    else if a = k then (if v = 0 then r else (k, v) :: r)
    else (k, b) :: putByte r a v

/-- The cells are canonical from address `lo` on. -/
def cellsFrom : Nat → List Host.Cell → Bool
  | _, [] => true
  | lo, (k, v) :: r => decide (lo ≤ k) && v != 0 && cellsFrom (k + 1) r

/-- A strictly rising list from `lo` on. -/
def risingFrom : Nat → List Nat → Bool
  | _, [] => true
  | lo, k :: r => decide (lo ≤ k) && risingFrom (k + 1) r

/-- The canonical form of memory. -/
def Memory.wf (m : Memory) : Bool := cellsFrom 0 m.bytes && risingFrom 0 m.empty && risingFrom 0 m.poison

/-- Insert into a rising list. -/
def addKey : List Nat → Nat → List Nat
  | [], a => [a]
  | k :: r, a => if a < k then a :: k :: r else if a = k then k :: r else k :: addKey r a

/-- Remove from a rising list. -/
def delKey : List Nat → Nat → List Nat
  | [], _ => []
  | k :: r, a => if a = k then r else if a < k then k :: r else k :: delKey r a

/-- n bytes at a, little-endian (R6). -/
def readBytes (bs : List Host.Cell) : Nat → Nat → Nat
  | _, 0 => 0
  | a, n + 1 => (getByte bs a).toNat + 256 * readBytes bs (a + 1) n

/-- Store n bytes, little-endian. -/
def writeBytes (bs : List Host.Cell) : Nat → Nat → Nat → List Host.Cell
  | _, 0, _ => bs
  | a, n + 1, v => writeBytes (putByte bs a (BitVec.ofNat 8 v)) (a + 1) n (v / 256)

/-- Is a key in a scratchpad? -/
def isScratchKey (a : Nat) : Bool := scratchBase ≤ a && a < scratchBase + 2048 * 0x100000

/-- Is a key in a weight store? -/
def isWeightKey (a : Nat) : Bool := weightBase ≤ a && a < weightBase + 8 * 0x40000000

/-- Does a key lie in a store whose poison is kept by words: a scratchpad (R87), or a weight store, whose ECC covers 8 bytes (R108)? -/
def byWords (a : Nat) : Bool := isScratchKey a || isWeightKey a

/-- The unit of poison of a key: an 8-byte word of scratchpad or weight store, else a 64-byte line (R87, R107, R108). -/
def poisonUnit (a : Nat) : Nat := if byWords a then a / 8 * 8 else a / 64 * 64

def Memory.isPoisoned (m : Memory) (a : Nat) : Bool := m.poison.contains (poisonUnit a)

def Memory.setPoison (m : Memory) (a : Nat) (b : Bool) : Memory :=
  { m with poison := if b then addKey m.poison (poisonUnit a) else delKey m.poison (poisonUnit a) }

def Memory.isFull (m : Memory) (a : Nat) : Bool := !(m.empty.contains (a / 8 * 8))

def Memory.setFull (m : Memory) (a : Nat) (b : Bool) : Memory :=
  { m with empty := if b then delKey m.empty (a / 8 * 8) else addKey m.empty (a / 8 * 8) }

def Memory.read (m : Memory) (a n : Nat) : Nat := readBytes m.bytes a n

/-- Store n bytes; a write of a whole unit of poison clears it (R107). -/
def Memory.write (m : Memory) (a n v : Nat) : Memory :=
  let m1 := { m with bytes := writeBytes m.bytes a n v }
  if (byWords a && n = 8 && a % 8 = 0) || (n = 64 && a % 64 = 0) then m1.setPoison a false else m1

/-- Every byte of the list stored from a on. -/
def writeList (bs : List Host.Cell) : Nat → List Byte → List Host.Cell
  | _, [] => bs
  | a, b :: r => writeList (putByte bs a b) (a + 1) r

/-- n bytes from a on, as a list. -/
def readList (bs : List Host.Cell) : Nat → Nat → List Byte
  | _, 0 => []
  | a, n + 1 => getByte bs a :: readList bs (a + 1) n

/-! ## Threads -/

def Thread.is (t : Thread) (core frame : Nat) : Bool := t.core == core && t.frame == frame

def Thread.tid (t : Thread) : Tid := ⟨t.launch, t.idx⟩

/-- st.MODE is supervisor (R37). -/
def Thread.sup (t : Thread) : Bool := t.st.getLsbD 0 || t.st.getLsbD 1

def Thread.anchored (t : Thread) : Bool := t.st.getLsbD 17

/-- A supervisor thread belongs to no launch (R345). -/
def Thread.isSup (t : Thread) : Bool := t.launch == 0

/-- The future tag of g register n (R37). -/
def Thread.tagged (t : Thread) (n : Nat) : Bool := t.st.getLsbD (19 + n)

def Thread.setTag (t : Thread) (n : Nat) (b : Bool) : Thread := { t with st := setBit t.st (19 + n) b }

/-- Does a destination name g register n? -/
def Dst.isG (d : Dst) (n : Nat) : Bool :=
  match d with
  | .g k => k.1 == n
  | _ => false

/-- A g register written: a pending write to it is discarded when it lands (R55), its poison mark (R57), its damage and
its handle (R402) go. -/
def Thread.writeG (t : Thread) (n : Fin 16) (v : Word) : Thread :=
  { t with
    g := t.g.set n v
    pend := t.pend.map fun p => if Dst.isG p.dst n then { p with dropped := true } else p
    marks := t.marks.filter fun m => m.1 != n.1
    damage := t.damage.filter fun m => m != n.1
    st := setBit t.st (19 + n.1) false }

/-- Every thread of the package. -/
def State.all (s : State) : List Thread := (if s.thr.live then [s.thr] else []) ++ s.threads

def State.threadAt (s : State) (core frame : Nat) : Option Thread := s.all.find? (·.is core frame)

def State.threadOf (s : State) (i : Tid) : Option Thread := s.all.find? fun t => t.tid == i

def State.modThr (s : State) (f : Thread → Thread) : State := { s with thr := f s.thr }

/-- Apply `f` to every thread that `p` picks. -/
def State.modThreads (s : State) (p : Thread → Bool) (f : Thread → Thread) : State :=
  { s with
    thr := if s.thr.live && p s.thr then f s.thr else s.thr
    threads := s.threads.map fun t => if p t then f t else t }

def State.modThread (s : State) (core frame : Nat) (f : Thread → Thread) : State :=
  s.modThreads (·.is core frame) f

def State.dropThread (s : State) (core frame : Nat) : State :=
  { s with
    thr := if s.thr.live && s.thr.is core frame then Thread.absent else s.thr
    threads := s.threads.filter fun t => !t.is core frame }

def State.addThread (s : State) (t : Thread) : State :=
  if s.thr.live then { s with threads := s.threads ++ [t] } else if s.core.id = t.core then { s with thr := t }
  else { s with threads := s.threads ++ [t] }

/-- Threads that stand on a core. -/
def State.onCore (s : State) (n : Nat) : List Thread := s.all.filter fun t => t.core == n

/-! ## Acquires (R129 (d), R131) -/

/-- Is the result an acquire not yet performed? -/
def Pending.acquires (p : Pending) : Bool := p.acq != 0 && !p.ready

/-- Has the thread an acquire not yet performed? -/
def Thread.acquiring (t : Thread) : Bool := t.pend.any Pending.acquires

/-- Does another thread of its core have a position? -/
def State.company (s : State) (t : Thread) : Bool := s.all.any fun u => u.core == t.core && u.frame != t.frame && u.pos.isSome

/-- Must a later access of a thread wait for an acquire (R129 (d))? A load goes ahead of one at core scope where its core has no other
thread, since observers outside the scope get no promise (R131); wider acquires are kept for every observer (DESIGN CHOICE, log 1). -/
def State.behindAcquire (s : State) (t : Thread) (wr : Bool) : Bool :=
  t.pend.any fun p => p.acquires && (wr || p.acq != 1 || s.company t)

/-- A load goes ahead of the acquires that let it. -/
def Thread.pass (t : Thread) : Thread :=
  if t.acquiring then { t with pend := t.pend.map fun p => if p.acquires then { p with passed := true } else p } else t

/-- Has a load of another thread of the core gone ahead of an acquire not yet performed? A thread that has come to the core since issues
nothing before it is (R131). -/
def State.overtaken (s : State) (t : Thread) : Bool :=
  s.all.any fun u => u.core == t.core && u.frame != t.frame && u.pend.any fun p => p.passed && p.acquires

/-! ## Cores, clusters, launches -/

def State.coreOf (s : State) (n : Nat) : Core :=
  if s.core.id = n then s.core else (s.cores.find? fun c => c.id == n).getD (Core.fresh n)

/-- Positions a core offers: P in fixed mode (R50). -/
def Core.positions (c : Core) : Nat := if c.rot.getLsbD 0 then fieldOf c.rot 1 5 + 1 else 32

/-- Store a core in a list sorted by number. -/
def insertCore : List Core → Core → List Core
  | [], c => [c]
  | k :: r, c => if c.id < k.id then c :: k :: r else if c.id = k.id then c :: r else k :: insertCore r c

def State.setCore (s : State) (c : Core) : State :=
  if s.core.id = c.id then { s with core := c } else { s with cores := insertCore s.cores c }

def State.modCore (s : State) (n : Nat) (f : Core → Core) : State := s.setCore (f (s.coreOf n))

/-- Apply `f` to every touched core. -/
def State.modCores (s : State) (f : Core → Core) : State := { s with core := f s.core, cores := s.cores.map f }

/-- Every touched core. -/
def State.allCores (s : State) : List Core := s.core :: s.cores

def State.clusterAt (s : State) (n : Nat) : Cluster := (s.clusters.find? fun c => c.id == n).getD (Cluster.fresh n)

def insertCluster : List Cluster → Cluster → List Cluster
  | [], c => [c]
  | k :: r, c => if c.id < k.id then c :: k :: r else if c.id = k.id then c :: r else k :: insertCluster r c

def State.modCluster (s : State) (n : Nat) (f : Cluster → Cluster) : State :=
  { s with clusters := insertCluster s.clusters (f (s.clusterAt n)) }

def State.launchOf (s : State) (id : Nat) : Option Launch := s.launcher.list.find? fun l => l.id == id

def State.modLaunch (s : State) (id : Nat) (f : Launch → Launch) : State :=
  { s with launcher := { s.launcher with list := s.launcher.list.map fun l => if l.id == id then f l else l } }

/-- The tenant of a launch, none for supervisor threads. -/
def State.tenantOf (s : State) (launch : Nat) : Option Nat := (s.launchOf launch).map fun l => l.info.tenant

def Launch.runs (l : Launch) : Bool := l.status == .running

/-- Accepted and not ended: what R72, R343, R344 and R376 call running (log 24). -/
def Launch.live (l : Launch) : Bool := l.status != .ended

/-- Is core n inside the rectangle of the record (R71)? -/
def LaunchRec.holds (p : Package) (r : LaunchRec) (n : Nat) : Bool :=
  let dd := (dieOf n + p.dies - r.die) % p.dies
  decide (dieOf n < p.dies) && decide (dd ≤ r.extd) && decide (r.y ≤ yOf n) && decide (yOf n ≤ r.y + r.exty)
    && decide (r.x ≤ xOf n) && decide (xOf n ≤ r.x + r.extx)

/-- Enabled cores of the rectangle in rectangle order: die offset, row, column (R207). -/
def State.rectCores (s : State) (r : LaunchRec) : List Nat :=
  ((List.range (r.extd + 1)).flatMap fun d => (List.range (r.exty + 1)).flatMap fun y =>
    (List.range (r.extx + 1)).map fun x => coreAt ((r.die + d) % s.pkg.dies) (r.x + x) (r.y + y)).filter s.enabled

/-! ## Counts, counters, events -/

def modCount (l : List CoreCount) (core : Nat) (f : CoreCount → CoreCount) : List CoreCount :=
  match l with
  | [] => [f ⟨core, 0, 0, 0⟩]
  | c :: r => if core < c.core then f ⟨core, 0, 0, 0⟩ :: c :: r else if core = c.core then f c :: r
    else c :: modCount r core f

/-- Does the classifier still measure a launch: is it within its first 19,200 cc (R78)? -/
def Launch.measured (l : Launch) (cc : Nat) : Bool := l.cls.isNone && decide (cc < l.placed + 19200)

/-- DRAM bytes of a launch (R78). -/
def State.countDram (s : State) (launch n : Nat) : State :=
  s.modLaunch launch fun l => if l.measured s.cc then { l with dram := l.dram + n } else l

/-- A message of the launch counted sent at a core (R79). -/
def State.sent (s : State) (launch core : Nat) : State :=
  s.modLaunch launch fun l => { l with counts := modCount l.counts core fun c => { c with sent := c.sent + 1 } }

/-- A message of the launch counted received at a core (R79). -/
def State.recvd (s : State) (launch core : Nat) : State :=
  s.modLaunch launch fun l => { l with counts := modCount l.counts core fun c => { c with recv := c.recv + 1 } }

/-- A counter after `n` events of source `src`, of a launch (R234). -/
def Counter.count (c : Counter) (src launch n : Nat) : Counter :=
  if c.sel.getLsbD 10 && fieldOf c.sel 0 10 == src && (!c.sel.getLsbD 11 || (launch != 0 && c.by_ == launch)) then
    let v := c.cnt.toNat + n
    { c with cnt := BitVec.ofNat 48 v, sel := if v < 2 ^ 48 then c.sel else setBit c.sel 12 true }
  else c

/-- Count an event of a core (R235). -/
def State.countCore (s : State) (core src launch : Nat) : State :=
  s.modCore core fun c => { c with cnt := c.cnt.map fun k => k.count src launch 1 }

/-- Count cycles on every core (R234): with OWNL those in which a thread of the counter's launch occupies a position. -/
def State.countCycles (s : State) (n : Nat) : State :=
  let here (c : Core) (k : Counter) : Counter :=
    if k.sel.getLsbD 10 && fieldOf k.sel 0 10 == 0 then
      k.count 0 (if s.all.any fun t => t.core == c.id && t.pos.isSome && t.launch == k.by_ then k.by_ else 0) n
    else k
  s.modCores fun c => if c.cnt.any fun k => k.sel != 0 then { c with cnt := c.cnt.map (here c) } else c

/-- Count an event of a cluster (R235). -/
def State.countCluster (s : State) (cl src launch : Nat) : State :=
  if (s.clusterAt cl).cnt.any fun k => k.sel != 0 then
    s.modCluster cl fun c => { c with cnt := c.cnt.map fun k => k.count src launch 1 }
  else s

/-- Count an event of a seam slice: slice 32s + i (R235). -/
def State.countSlice (s : State) (slice src : Nat) : State :=
  { s with seam := { s.seam with cnts := s.seam.cnts.map fun c =>
      if c.slice = slice then { c with cnt := c.cnt.map fun k => k.count src 0 1 } else c } }

/-- Append an event; a full queue keeps 255 and the overflow code (R233). A mailbox event wakes idle supervisor
threads (R346). -/
def State.post (s : State) (e : Event) : State :=
  let ev := s.mgmt.events
  let ev1 := if ev.length < 256 then ev ++ [e] else ev.take 255 ++ [⟨0xFFFF, 0, 0⟩]
  { s with
    mgmt := { s.mgmt with events := ev1 }
    links := { s.links with msix := s.links.msix ||| (s.links.up &&& s.caps.seamOk) } }.modThreads (fun t => t.isSup) fun t => { t with wake := true }

/-! ## Generations (R34) -/

/-- The generation of a record as Dzieth changes the record: odd, and another odd one where an update is already under way. -/
def bumpGen (g : Nat) : Nat := if g % 2 = 0 then g + 1 else g + 2

/-- A generation one step later: an update that no new change has joined is complete, and the generation even again. -/
def settleGen (before now : Nat) : Nat := if before % 2 = 1 && now = before then now + 1 else now

/-- Every generation one step later (R34). -/
def Caps.settle (before now : Caps) : Caps :=
  { now with
    genCore := settleGen before.genCore now.genCore
    genMem := settleGen before.genMem now.genMem
    genSeam := settleGen before.genSeam now.genSeam
    genHost := settleGen before.genHost now.genHost
    genCxl := settleGen before.genCxl now.genCxl
    genPeer := settleGen before.genPeer now.genPeer
    genHealth := settleGen before.genHealth now.genHealth }

/-- A reason bit of the health record set with REPLREQ, and the event of R215. -/
def State.replace (s : State) (bit : Nat) : State :=
  let why := s.health.why ||| 1 ||| BitVec.ofNat 6 (2 ^ bit)
  if s.health.why = why then s
  else
    { s with
      health := { s.health with why := why, lastset := s.cc }
      caps := { s.caps with genHealth := bumpGen s.caps.genHealth } }.post
      ⟨0x0003, BitVec.ofNat 64 why.toNat, 0⟩

/-- An uncorrectable error counted (R214). -/
def State.countUe (s : State) : State :=
  { s with
    health := { s.health with uecnt := min (s.health.uecnt + 1) (2 ^ 32 - 1) }
    caps := { s.caps with genHealth := bumpGen s.caps.genHealth } }

/-- A corrected error counted (R214). -/
def State.countCe (s : State) : State :=
  { s with
    health := { s.health with
      cecnt := min (s.health.cecnt + 1) (2 ^ 32 - 1), winCount := s.health.winCount + 1 }
    caps := { s.caps with genHealth := bumpGen s.caps.genHealth } }

/-- Take the next free value: the counter it is read at (log 8). -/
def State.fresh (s : State) : Nat × State := (s.free, { s with free := s.free + 1 })

/-! ## Waking (R58) -/

/-- Unpark a thread. -/
def Thread.unpark (t : Thread) : Thread := { t with park := none }

/-- An event that would return a parked thread: it sets the bit of a thread not parked on it (R58). -/
def Thread.wakeFor (t : Thread) (code : Nat) : Thread :=
  match t.park with
  | some p => if p.code = code then t.unpark else { t with wake := true }
  | none => { t with wake := true }

/-! ## Registers of a core (R334) -/

/-- TTBASESV, SPSAVE or TTBASE0-15 of a core, by index. -/
def State.coreReg (s : State) (core i : Nat) : Word :=
  match (s.coreOf core).regs.find? fun x => x.1 == i with
  | some x => x.2
  | none =>
    if i = 0x105 then s.sys.ttbasesv
    else if i = 0x106 then s.sys.spsave
    else s.sys.ttbase.toList.getD (i - 0x110) 0

/-- One of those registers of the core on hand written. -/
def State.setCoreReg (s : State) (i : Nat) (v : Word) : State :=
  { s with core := { s.core with regs := (i, v) :: s.core.regs.filter fun x => x.1 != i } }

end Sys2Proof.Machine
end

