-- ==== Sys2Proof/Machine/Float.lean ====
section
/-! DEFINITION. The number formats, their decoding, rounding and conversions (R170-R193), by format number 1-24. -/

namespace Sys2Proof.Machine

/-- A decoded value: a NaN (signalling, sign), an infinity, or (-1)^neg × m × 2^e (R171). -/
inductive FVal where
  | nan (sig neg : Bool)
  | inf (neg : Bool)
  | fin (neg : Bool) (m : Nat) (e : Int)
deriving DecidableEq, Repr

/-! Flags: bit 0 invalid, 1 divide by zero, 2 overflow, 3 underflow, 4 inexact (R37, R183). -/

abbrev fInvalid : BitVec 5 := 1
abbrev fDivZero : BitVec 5 := 2
abbrev fOverflow : BitVec 5 := 4
abbrev fUnderflow : BitVec 5 := 8
abbrev fInexact : BitVec 5 := 16

/-! ## Formats -/

/-- Exponent bits of a float format (R170); of the element for a block format (R174). -/
def expBits : Nat → Nat
  | 1 => 11 | 2 => 8 | 3 => 5 | 4 => 8 | 5 => 8 | 6 => 4 | 7 => 5 | 8 => 3 | 9 => 2 | 10 => 2
  | 17 => 4 | 18 => 5 | 19 => 3 | 20 => 2 | 21 => 2 | _ => 0

/-- Mantissa bits of a float format (R170, R174). -/
def manBits : Nat → Nat
  | 1 => 52 | 2 => 23 | 3 => 10 | 4 => 7 | 5 => 10 | 6 => 3 | 7 => 2 | 8 => 2 | 9 => 3 | 10 => 1
  | 17 => 3 | 18 => 2 | 19 => 2 | 20 => 3 | 21 => 1 | _ => 0

/-- Bias of a float format (R170, R174). -/
def biasOf : Nat → Nat
  | 1 => 1023 | 2 => 127 | 3 => 15 | 4 => 127 | 5 => 127 | 6 => 7 | 7 => 15 | 8 => 3 | 9 => 1 | 10 => 1
  | 17 => 7 | 18 => 15 | 19 => 3 | 20 => 1 | 21 => 1 | _ => 0

/-- Bits of a stored element (R170-R177): 32 for F19. -/
def elemBits : Nat → Nat
  | 1 => 64 | 2 => 32 | 3 => 16 | 4 => 16 | 5 => 32 | 6 => 8 | 7 => 8 | 8 => 6 | 9 => 6 | 10 => 4
  | 11 => 8 | 12 => 8 | 13 => 4 | 14 => 4 | 15 => 16 | 16 => 32
  | 17 => 8 | 18 => 8 | 19 => 6 | 20 => 6 | 21 => 4 | 22 => 8 | 24 => 2 | _ => 8

/-- Formats that have infinities: FP64-F19, E5M2 and its MX element (R170). -/
def hasInf (f : Nat) : Bool := (1 ≤ f && f ≤ 5) || f == 7 || f == 18

/-- E4M3 and its MX element (R170). -/
def isE4M3 (f : Nat) : Bool := f == 6 || f == 17

/-- Integer formats (R172). -/
def isInt (f : Nat) : Bool := 11 ≤ f && f ≤ 16

/-- Block formats (R174, R176). -/
def isBlock (f : Nat) : Bool := (17 ≤ f && f ≤ 22) || f == 24

/-- Elements per block: 64 in TRN2, 32 in the MX formats (R174, R176). -/
def blockElems (f : Nat) : Nat := if f = 24 then 64 else 32

/-- Bytes per block record (R174, R176). -/
def recordBytes : Nat → Nat
  | 17 => 36 | 18 => 36 | 19 => 28 | 20 => 28 | 21 => 20 | 22 => 36 | 24 => 20 | _ => 0

/-- Byte offset of the scale in a record (R174, R176). -/
def scaleAt : Nat → Nat
  | 17 => 32 | 18 => 32 | 19 => 24 | 20 => 24 | 21 => 16 | 22 => 32 | 24 => 16 | _ => 0

/-- Smallest value of an integer format (R172); format 0 stands for the 64-bit integer of FCVTI (R187). -/
def intMin : Nat → Int
  | 11 => -128 | 13 => -8 | 15 => -32768 | 16 => -2147483648 | 22 => -128
  | 0 => -9223372036854775808 | _ => 0

/-- Largest value of an integer format (R172). -/
def intMax : Nat → Int
  | 11 => 127 | 12 => 255 | 13 => 7 | 14 => 15 | 15 => 32767 | 16 => 2147483647 | 22 => 127
  | 0 => 9223372036854775807 | _ => 0

/-- Two's complement encoding in w bits. -/
def intBits (w : Nat) (x : Int) : Nat := (x % (2 ^ w : Nat)).toNat

/-- Two's complement value of w bits. -/
def intOf (w b : Nat) : Int := if b % 2 ^ w < 2 ^ (w - 1) then (b % 2 ^ w : Nat) else (b % 2 ^ w : Nat) - (2 ^ w : Nat)

/-- The sign bit of a float encoding (for F19, bit 18). -/
def signBit (f b : Nat) : Bool := b / 2 ^ (expBits f + manBits f) % 2 == 1

/-- The value of a float encoding (R170, R171). -/
def decodeFloat (f b : Nat) : FVal :=
  let mb := manBits f
  let ex := b / 2 ^ mb % 2 ^ expBits f
  let m := b % 2 ^ mb
  let neg := signBit f b
  let top := 2 ^ expBits f - 1
  if hasInf f && ex == top then
    if m = 0 then .inf neg else .nan (m / 2 ^ (mb - 1) == 0) neg
  else if isE4M3 f && ex == 15 && m == 7 then .nan false neg
  else if ex = 0 then .fin neg m (1 - (biasOf f : Int) - mb)
  else .fin neg (2 ^ mb + m) ((ex : Int) - biasOf f - mb)

/-- The value of an integer as an exact real. -/
def ofInt (x : Int) : FVal := .fin (x < 0) x.natAbs 0

/-- The integer value of an element of an integer format (R172). -/
def decodeInt (f b : Nat) : Int :=
  if f = 12 || f = 14 then (b % 2 ^ elemBits f : Nat) else intOf (elemBits f) b

/-- Multiply by 2^k, exact. -/
def FVal.scale (v : FVal) (k : Int) : FVal :=
  match v with
  | .fin n m e => .fin n m (e + k)
  | v => v

/-- Is the value a NaN? -/
def FVal.isNan : FVal → Bool
  | .nan _ _ => true
  | _ => false

/-- Is the value a signalling NaN? -/
def FVal.isSig : FVal → Bool
  | .nan s _ => s
  | _ => false

/-- Is the value a zero? -/
def FVal.isZero : FVal → Bool
  | .fin _ m _ => m == 0
  | _ => false

/-- The canonical NaN, as a value. -/
abbrev qnan : FVal := .nan false false

/-- The value as a signed pair over a common exponent: m × 2^e. -/
def FVal.signed : FVal → Int × Int
  | .fin n m e => (if n then -(m : Int) else m, e)
  | _ => (0, 0)

/-! ## Rounding (R181-R183) -/

/-- Bit length. -/
def bitLen (m : Nat) : Nat := if m = 0 then 0 else Nat.log2 m + 1

/-- Does the mode (0 RNE, 1 RZ, 2 RDN, 3 RUP, 4 RNA) round the magnitude up? `r2` is twice the remainder over the unit
`u`, `st` tells of a nonzero rest below it. DESIGN CHOICE (log 19): st.RM holding 5 to 7, which R37 gives no mode and ERET can leave
there, rounds as RNA. -/
def roundsUp (mode : Nat) (neg odd : Bool) (r2 u : Nat) (st : Bool) : Bool :=
  match mode with
  | 0 => decide (u < r2) || (r2 == u && (st || odd))
  | 1 => false
  | 2 => neg && (decide (0 < r2) || st)
  | 3 => !neg && (decide (0 < r2) || st)
  | _ => decide (u ≤ r2)

/-- m × 2^e (with a rest below when `st`) rounded to a multiple of 2^q: the multiple, and whether it is exact. -/
def roundAt (mode : Nat) (neg : Bool) (m : Nat) (e q : Int) (st : Bool) : Nat × Bool :=
  if q ≤ e then (m * 2 ^ (e - q).toNat, !st)
  else
    let u := 2 ^ (q - e).toNat
    let M := m / u
    let r := m % u
    let up := roundsUp mode neg (M % 2 == 1) (2 * r) u st
    (if up then M + 1 else M, r == 0 && !st)

/-- The largest finite value of a float format as (mantissa, exponent of its unit). -/
def maxFin (f : Nat) : Nat × Int :=
  let mb := manBits f
  let top : Int := (2 ^ expBits f : Nat) - 1 - biasOf f - mb
  if isE4M3 f then (2 ^ mb + 6, top) else if hasInf f then (2 ^ (mb + 1) - 1, top - 1) else (2 ^ (mb + 1) - 1, top)

/-- The encoding of m × 2^q, a value of the format with q the exponent of its unit. -/
def encodeFin (f : Nat) (neg : Bool) (m : Nat) (q : Int) : Nat :=
  let mb := manBits f
  let s := if neg then 2 ^ (expBits f + mb) else 0
  if m < 2 ^ mb then s + m else s + ((q + mb + biasOf f).toNat) * 2 ^ mb + (m - 2 ^ mb)

/-- The largest finite encoding with a sign. -/
def encodeMax (f : Nat) (neg : Bool) : Nat := encodeFin f neg (maxFin f).1 (maxFin f).2

/-- The infinity encoding of a format that has one. -/
def encodeInf (f : Nat) (neg : Bool) : Nat :=
  (if neg then 2 ^ (expBits f + manBits f) else 0) + (2 ^ expBits f - 1) * 2 ^ manBits f

/-- The NaN a conversion delivers (R184, R188): sign kept in E4M3 and E5M2. -/
def encodeNan (f : Nat) (neg : Bool) : Nat :=
  if f = 6 || f = 17 then (if neg then 0xFF else 0x7F)
  else if f = 7 || f = 18 then (if neg then 0xFE else 0x7E)
  else (2 ^ expBits f - 1) * 2 ^ manBits f + 2 ^ (manBits f - 1)

/-- Overflow of a finite value (R182, R188): `sat` is SAT. -/
def overflowTo (f mode : Nat) (sat neg : Bool) : Nat :=
  if isE4M3 f then (if sat then encodeMax f neg else encodeNan f neg)
  else if !hasInf f || sat then encodeMax f neg
  else match mode with
    | 1 => encodeMax f neg
    | 2 => if neg then encodeInf f neg else encodeMax f neg
    | 3 => if neg then encodeMax f neg else encodeInf f neg
    | _ => encodeInf f neg

/-- A finite value m × 2^e (and a rest when `st`) in a float format (R182, R183): encoding and flags. DEDUCED (log 19): overflow
is a rounded result above the largest finite value, as R183 says; R422's example, which raises it for 456 in E4M3, where 456 rounds
to 448, is not followed. -/
def roundFin (f mode : Nat) (sat neg : Bool) (m : Nat) (e : Int) (st : Bool) : Nat × BitVec 5 :=
  if m = 0 && !st then (encodeFin f neg 0 0, 0)
  else
    let mb := manBits f
    let emin : Int := 1 - biasOf f - mb
    let q0 : Int := e + bitLen m - 1 - mb
    let q := max q0 emin
    let (M, exact) := roundAt mode neg m e q st
    let (M, q) := if M = 2 ^ (mb + 1) then (2 ^ mb, q + 1) else (M, q)
    let (M0, _) := roundAt mode neg m e q0 st
    let tiny := decide (q0 < emin) && !(M0 == 2 ^ (mb + 1) && q0 + 1 == emin)
    let (mx, qx) := maxFin f
    if qx < q || (q == qx && mx < M) then (overflowTo f mode sat neg, fOverflow ||| fInexact)
    else
      (encodeFin f neg M q,
        (if exact then 0 else fInexact) ||| (if tiny && !exact then fUnderflow else 0))

/-- A value converted into a float format (R188). -/
def convertFloat (f mode : Nat) (sat : Bool) (v : FVal) : Nat × BitVec 5 :=
  match v with
  | .nan s n =>
    if hasInf f || isE4M3 f then (encodeNan f n, if s then fInvalid else 0) else (0, fInvalid)
  | .inf n =>
    if hasInf f then (encodeInf f n, 0)
    else if isE4M3 f && !sat then (encodeNan f n, fInvalid)
    else (encodeMax f n, fInvalid)
  | .fin n m e => roundFin f mode sat n m e false

/-- RoundTo (R276): arithmetic rounding into a format, overflow by R182, canonical NaN with sign 0 (R184). -/
def roundTo (f mode : Nat) (v : FVal) : Nat × BitVec 5 :=
  match v with
  | .nan s _ => (encodeNan f false, if s then fInvalid else 0)
  | v => convertFloat f mode false v

/-- A value rounded to an integer by the mode: the integer and whether it is exact. -/
def roundInt (mode : Nat) (neg : Bool) (m : Nat) (e : Int) : Int × Bool :=
  let (M, ex) := roundAt mode neg m e 0 false
  (if neg then -(M : Int) else M, ex)

/-- A value converted into an integer format (R187): the integer and the flags. -/
def convertInt (f mode : Nat) (v : FVal) : Int × BitVec 5 :=
  match v with
  | .nan _ _ => (0, fInvalid)
  | .inf n => (if n then intMin f else intMax f, fInvalid)
  | .fin n m e =>
    let (x, ex) := roundInt mode n m e
    if x < intMin f then (intMin f, fInvalid)
    else if intMax f < x then (intMax f, fInvalid)
    else (x, if ex then 0 else fInexact)

/-- Convert (R276) into an element format without blocks: encoding and flags. -/
def convertTo (f mode : Nat) (sat : Bool) (v : FVal) : Nat × BitVec 5 :=
  if isInt f then
    let (x, fl) := convertInt f mode v
    (intBits (elemBits f) x, fl)
  else convertFloat f mode sat v

/-! ## Exact arithmetic -/

/-- Exact sum of finite values; `rdn` gives the sign of an exact zero (R292). -/
def addFin (a b : FVal) (rdn : Bool) : FVal :=
  let (x, ea) := a.signed
  let (y, eb) := b.signed
  let e := min ea eb
  let s := x * (2 ^ (ea - e).toNat : Nat) + y * (2 ^ (eb - e).toNat : Nat)
  let neg := match a, b with
    | .fin na _ _, .fin nb _ _ => if na == nb then na else rdn
    | _, _ => rdn
  if s = 0 then .fin neg 0 0 else .fin (s < 0) s.natAbs e

/-- IEEE sum (R292): exact value and flags. -/
def addVal (mode : Nat) (a b : FVal) : FVal × BitVec 5 :=
  let sg := if a.isSig || b.isSig then fInvalid else 0
  match a, b with
  | .nan _ _, _ => (qnan, sg)
  | _, .nan _ _ => (qnan, sg)
  | .inf x, .inf y => if x == y then (.inf x, 0) else (qnan, fInvalid)
  | .inf x, _ => (.inf x, 0)
  | _, .inf y => (.inf y, 0)
  | a, b => (addFin a b (mode == 2), 0)

/-- The value negated. -/
def FVal.neg : FVal → FVal
  | .nan s n => .nan s !n
  | .inf n => .inf !n
  | .fin n m e => .fin (!n) m e

/-- IEEE product: exact value and flags. -/
def mulVal (a b : FVal) : FVal × BitVec 5 :=
  let sg := if a.isSig || b.isSig then fInvalid else 0
  match a, b with
  | .nan _ _, _ => (qnan, sg)
  | _, .nan _ _ => (qnan, sg)
  | .inf x, .inf y => (.inf (x != y), 0)
  | .inf x, .fin y m _ => if m = 0 then (qnan, fInvalid) else (.inf (x != y), 0)
  | .fin x m _, .inf y => if m = 0 then (qnan, fInvalid) else (.inf (x != y), 0)
  | .fin x m e, .fin y k d => (.fin (x != y) (m * k) (e + d), 0)

/-- Fused c + a × b (R185, R292): the product inf × 0 is invalid even beside a quiet NaN. -/
def fmaVal (mode : Nat) (c a b : FVal) : FVal × BitVec 5 :=
  let (p, f1) := mulVal a b
  let sg := if c.isSig then fInvalid else 0
  match c, p with
  | .nan _ _, _ => (qnan, f1 ||| sg)
  | _, .nan _ _ => (qnan, f1 ||| sg)
  | c, p => let (s, f2) := addVal mode c p; (s, f1 ||| f2)

/-- Rounded sum, product and fused forms in a format. -/
def fAdd (f mode a b : Nat) : Nat × BitVec 5 :=
  let (v, fl) := addVal mode (decodeFloat f a) (decodeFloat f b)
  let (r, g) := roundTo f mode v
  (r, fl ||| g)

def fMul (f mode a b : Nat) : Nat × BitVec 5 :=
  let (v, fl) := mulVal (decodeFloat f a) (decodeFloat f b)
  let (r, g) := roundTo f mode v
  (r, fl ||| g)

def fMulAdd (f mode : Nat) (c a b : FVal) : Nat × BitVec 5 :=
  let (v, fl) := fmaVal mode c a b
  let (r, g) := roundTo f mode v
  (r, fl ||| g)

/-- Quotient (R292): x/0 is an infinity with divide by zero, 0/0 and inf/inf are invalid. -/
def fDiv (f mode a b : Nat) : Nat × BitVec 5 :=
  let x := decodeFloat f a
  let y := decodeFloat f b
  let sg := if x.isSig || y.isSig then fInvalid else 0
  match x, y with
  | .nan _ _, _ => (encodeNan f false, sg)
  | _, .nan _ _ => (encodeNan f false, sg)
  | .inf _, .inf _ => (encodeNan f false, fInvalid)
  | .inf s, .fin t _ _ => (encodeInf f (s != t), 0)
  | .fin s _ _, .inf t => (encodeFin f (s != t) 0 0, 0)
  | .fin s m e, .fin t k d =>
    if k = 0 then (if m = 0 then (encodeNan f false, fInvalid) else (encodeInf f (s != t), fDivZero))
    else if m = 0 then (encodeFin f (s != t) 0 0, 0)
    else
      let sh := 128 + bitLen k
      let n := m * 2 ^ sh
      roundFin f mode false (s != t) (n / k) (e - d - sh) (n % k != 0)

/-- Integer square root by bits: the largest r below 2^(b+1) added to `r` with square at most n. -/
def isqrt (n : Nat) : Nat → Nat → Nat
  | 0, r => if (r + 1) * (r + 1) ≤ n then r + 1 else r
  | b + 1, r => isqrt n b (if (r + 2 ^ (b + 1)) * (r + 2 ^ (b + 1)) ≤ n then r + 2 ^ (b + 1) else r)

/-- Square root (R292). -/
def fSqrt (f mode a : Nat) : Nat × BitVec 5 :=
  match decodeFloat f a with
  | .nan s _ => (encodeNan f false, if s then fInvalid else 0)
  | .inf n => if n then (encodeNan f false, fInvalid) else (encodeInf f false, 0)
  | .fin n m e =>
    if m = 0 then (encodeFin f n 0 0, 0)
    else if n then (encodeNan f false, fInvalid)
    else
      let odd := e % 2 ≠ 0
      let m1 := (if odd then 2 * m else m) * 2 ^ 128
      let e1 := (if odd then e - 1 else e) - 128
      let r := isqrt m1 100 0
      roundFin f mode false false r (e1 / 2) (r * r != m1)

/-- Order of two values that are no NaN, −0 and +0 equal: less than. -/
def ltVal (a b : FVal) : Bool :=
  match a, b with
  | .inf x, .inf y => x && !y
  | .inf x, _ => x
  | _, .inf y => !y
  | a, b =>
    let (x, ea) := a.signed
    let (y, eb) := b.signed
    let e := min ea eb
    decide (x * (2 ^ (ea - e).toNat : Nat) < y * (2 ^ (eb - e).toNat : Nat))

/-- minimumNumber, maximumNumber (R185): −0 orders below +0. -/
def fMinMax (f : Nat) (isMax : Bool) (a b : Nat) : Nat × BitVec 5 :=
  let x := decodeFloat f a
  let y := decodeFloat f b
  let sg := if x.isSig || y.isSig then fInvalid else 0
  if x.isNan && y.isNan then (encodeNan f false, sg)
  else if x.isNan then (b, sg)
  else if y.isNan then (a, sg)
  else
    let less := ltVal x y || (!ltVal y x && signBit f a && !signBit f b)
    (if less == isMax then b else a, sg)

/-- Is the encoding a subnormal of a format that traps (R186)? -/
def isSubnormal (f b : Nat) : Bool := b / 2 ^ manBits f % 2 ^ expBits f == 0 && b % 2 ^ manBits f != 0

/-- The class mask of FCLASS (R295). -/
def fClass (f b : Nat) : Nat :=
  match decodeFloat f b with
  | .nan s _ => if s then 256 else 512
  | .inf n => if n then 1 else 128
  | .fin n m _ =>
    if m = 0 then (if n then 8 else 16)
    else if isSubnormal f b then (if n then 4 else 32)
    else if n then 2 else 64

/-! ## Block formats (R174-R179) -/

/-- The value of an E8M0 scale byte as a power of two, none for NaN (R175). -/
def e8m0 (s : Nat) : Option Int := if s = 255 then none else some ((s : Int) - 127)

/-- The value of a TRN2 code (R176). -/
def trnCode (c : Nat) : FVal :=
  match c with
  | 1 => .fin false 1 0
  | 3 => .fin true 1 0
  | _ => .fin false 0 0

/-- The value of an element of a block format with the scale bits of its block (R175, R176). -/
def decodeBlock (f elem scale : Nat) : FVal :=
  if f = 24 then
    match decodeFloat 3 scale with
    | .nan _ _ => qnan
    | .inf _ => qnan
    | s => (mulVal (trnCode elem) s).1
  else
    match e8m0 scale with
    | none => qnan
    | some k => if f = 22 then (ofInt (intOf 8 elem)).scale (k - 6) else (decodeFloat f elem).scale k

/-- The element of a TRN2 narrowing (R91, R179): nearest of -1, 0, +1 to q = m × 2^e, ties to 0. -/
def trnRound (q : FVal) : Nat × BitVec 5 :=
  match q with
  | .nan _ _ => (0, fInvalid)
  | .inf n => (if n then 3 else 1, fInvalid)
  | .fin n m e =>
    let one := if n then 3 else 1
    let q1 := FVal.fin false m e
    if m = 0 then (0, 0)
    else if !ltVal (.fin false 1 (-1)) q1 then (0, fInexact)
    else if ltVal (.fin false 3 (-1)) q1 then (one, fOverflow ||| fInexact)
    else (one, if ltVal q1 (.fin false 1 0) || ltVal (.fin false 1 0) q1 then fInexact else 0)

/-- Exact quotient of a finite value by a nonzero finite value, as a value and a rest; enough bits for any format. -/
def divFin (a b : FVal) : FVal :=
  match a, b with
  | .fin s m e, .fin t k d =>
    let sh := 128 + bitLen k
    let n := m * 2 ^ sh
    -- the rest is kept as one more low bit, so that no comparison or rounding is changed
    .fin (s != t) (2 * (n / k) + (if n % k = 0 then 0 else 1)) (e - d - sh - 1)
  | a, _ => a

/-- A narrowing store of one element of a block format under the present scale (R91). -/
def narrowBlock (f scale : Nat) (v : FVal) : Nat × BitVec 5 :=
  if f = 24 then
    match decodeFloat 3 scale with
    | .fin n m e => if m = 0 then (0, fInvalid) else
        match v with
        | .fin .. => trnRound (divFin v (.fin n m e))
        | .inf s => trnRound (.inf (s != n))
        | v => trnRound v
    | _ => (0, fInvalid)
  else
    match e8m0 scale with
    | none => (0, fInvalid)
    | some k =>
      if f = 22 then
        let (x, fl) := convertInt 22 0 (v.scale (6 - k))
        (intBits 8 x, fl)
      else convertFloat f 0 true (v.scale (-k))

/-- floor(log2) of a nonzero magnitude. -/
def floorLog2 (m : Nat) (e : Int) : Int := e + bitLen m - 1

/-- The larger magnitude of two finite values. -/
def maxMag (a b : FVal) : FVal :=
  match a, b with
  | .fin _ m e, .fin _ k d => if ltVal (.fin false m e) (.fin false k d) then .fin false k d else .fin false m e
  | a, _ => a

/-- emax of R179. -/
def blockEmax : Nat → Int
  | 17 => 8 | 18 => 15 | 19 => 4 | 20 => 2 | 21 => 2 | _ => 0

/-- A block formed from its values (R179): the scale bits, the elements and the flags. `free` names the free code and the
free flags when a TRN2 scale rounds to zero (log 19): q = v / scale then has no value. -/
def formBlock (f : Nat) (vs : List FVal) (free : Nat) : Nat × List Nat × BitVec 5 :=
  let special := vs.any fun v => match v with
    | .fin .. => false
    | _ => true
  let a := vs.foldl maxMag (.fin false 0 0)
  if f = 24 then
    if special then (0x7E00, vs.map fun _ => 0, fInvalid)
    else if a.isZero then (0x3C00, vs.map fun _ => 0, 0)
    else
      let (s, _) := convertFloat 3 0 true a
      if s = 0 then (0, vs.zipIdx.map fun x => (Config.trn2ZeroScale (free + x.2)).toNat, Config.trn2ZeroFlags free)
      else
        let es := vs.map fun v => trnRound (divFin v (decodeFloat 3 s))
        (s, es.map (·.1), es.foldl (fun x y => x ||| y.2) 0)
  else
    if special then (0xFF, vs.map fun _ => 0, fInvalid)
    else match a with
      | .fin _ m e =>
        if m = 0 then (0x7F, vs.map fun _ => 0, 0)
        else
          let x := max (-127) (min 127 (floorLog2 m e - blockEmax f))
          let es := vs.map fun v =>
            if f = 22 then
              let (i, fl) := convertInt 22 0 (v.scale (6 - x))
              (intBits 8 i, fl)
            else
              let (b, fl) := convertFloat f 0 true (v.scale (-x))
              -- R188, last row: −0 arrives as +0 where a block is formed
              (if v.isZero then 0 else b, fl)
          ((x + 127).toNat, es.map (·.1), es.foldl (fun y z => y ||| z.2) 0)
      | _ => (0xFF, vs.map fun _ => 0, fInvalid)

/-! ## The special-function unit (R197, R198) -/

/-- The two FP32 encodings that bracket m × 2^e with a rest, in rising magnitude (m × 2^e positive). -/
def bracket (m : Nat) (e : Int) (st : Bool) : Nat × Nat :=
  ((roundFin 2 1 false false m e st).1, (roundFin 2 3 false false m e st).1)

/-- Is m × 2^e a power of two? -/
def isPow2 (m : Nat) : Bool := m != 0 && m == 2 ^ Nat.log2 m

/-- The rational power: 2^n in FP32, n from -149 to 127. -/
def pow2Bits (n : Int) : Nat := (roundFin 2 0 false false 1 n false).1

/-! Bounds of the transcendental functions: the exact value is enclosed in fixed point with 96 fraction bits, and the free value
then lies on the FP32 encodings that are within the bound wherever the exact value lies in its enclosure (log 8). An enclosure is wider than
the exact value by far less than an ulp. -/

/-- One in fixed point. -/
abbrev fx : Nat := 2 ^ 96

/-- ln 2 and π/2 in fixed point, rounded down. -/
abbrev ln2Fx : Nat := 0xb17217f7d1cf79abc9e3b398
abbrev halfPiFx : Nat := 0x1921fb54442d18469898cc517

/-- Errors of the sums below stay under this many units. -/
abbrev fxErr : Nat := 1024

/-- Σ tᵏ/k!, from a term on. -/
def expSum (t term k : Nat) : Nat → Nat
  | 0 => 0
  | n + 1 => term + expSum t (term * t / fx / (k + 1)) (k + 1) n

/-- Σ z²ʲ⁺¹/(2j + 1), from a power on. -/
def atanhSum (z2 pw k : Nat) : Nat → Nat
  | 0 => 0
  | n + 1 => pw / k + atanhSum z2 (pw * z2 / fx) (k + 2) n

/-- The alternating sum of the sine (k = 1) or the cosine (k = 0). -/
def altSum (r2 term k : Nat) : Nat → Nat
  | 0 => 0
  | n + 1 => term - altSum r2 (term * r2 / fx / ((k + 1) * (k + 2))) (k + 2) n

/-- The encodings in the order of their values: a set sign bit below a clear one. -/
def ofKey (k : Int) : Nat := if k < 0 then 2 ^ 31 + (-k - 1).toNat else k.toNat

/-- The place of an encoding in that order. -/
def keyOf (b : Nat) : Int := if b < 2 ^ 31 then b else -((b - 2 ^ 31 : Nat) : Int) - 1

/-- The key of the largest FP32 value not above v × 2^e, and of the smallest not below. -/
def keyDown (v e : Int) : Int :=
  if 0 ≤ v then ((bracket v.toNat e false).1 : Int) else -((bracket (-v).toNat e false).2 : Int) - 1
def keyUp (v e : Int) : Int :=
  if 0 < v then ((bracket v.toNat e false).2 : Int) else -((bracket (-v).toNat e false).1 : Int) - 1

/-- v × 2^e + n × 2^u. -/
def addDyadic (v e n u : Int) : Int × Int :=
  if e ≤ u then (v + n * 2 ^ (u - e).toNat, e) else (v * 2 ^ (e - u).toNat + n, u)

/-- A free choice between two keys. -/
def pickKey (free : Nat) (k : Int × Int) : Int := k.1 + (free % ((k.2 - k.1).toNat + 1) : Nat)

/-- The choice of a monotone function between two keys: up from the lower one by one for each key below the upper one whose free
threshold the operand has passed. Where the bounds rise with the operand, these are the monotone functions within them, all of them
and no others (R198, log 8). -/
def stepKey (passed : Int → Bool) (k : Int × Int) : Int :=
  k.1 + (((List.range (k.2 - k.1).toNat).filter fun i => passed (k.1 + (i : Nat))).length : Nat)

/-- Keys kept between two others, those of exact results around (R198). -/
def within (k : Int × Int) (lo hi : Int) : Int × Int := (max k.1 lo, min k.2 hi)

/-- The key of 2^n: infinity above the range of FP32. -/
def pow2Key (n : Int) : Int := if 127 < n then 0x7F800000 else if n < -149 then 0 else (pow2Bits n : Nat)

/-- Within n × 2^u of a value between a × 2^e and b × 2^e, wherever it lies; infinity where it lies above the largest finite value. -/
def nearKeys (a b e n u : Int) : Int × Int :=
  let x := addDyadic b e (-n) u
  let y := addDyadic a e n u
  (keyUp x.1 x.2, if keyUp b e = 0x7F800000 then 0x7F800000 else keyDown y.1 y.2)

/-- Within n ulps of a positive value between a × 2^e and b × 2^e: the ulp is the gap that brackets it (R198). -/
def ulpKeys (a b : Nat) (e : Int) (n : Int) : Int × Int :=
  let k := nearKeys a b e n (max (floorLog2 a e - 23) (-149))
  (if k.2 = 0x7F800000 then min k.1 0x7F7FFFFF else max 0 k.1, k.2)

/-- A finite magnitude m × 2^e in fixed point, rounded down. -/
def toFx (m : Nat) (e : Int) : Nat := if 0 ≤ e + 96 then m * 2 ^ (e + 96).toNat else m / 2 ^ (-(e + 96)).toNat

/-- The quadrant of an angle and what remains of it, in fixed point: x = q × π/2 + r with |r| ≤ π/4. -/
def quadrant (x : Nat) : Nat × Int :=
  let q := (x + halfPiFx / 2) / halfPiFx
  (q, (x : Int) - (q * halfPiFx : Nat))

/-- Sine (cosine where `c`) of an angle in fixed point. -/
def sineFx (c : Bool) (x : Nat) : Int :=
  let (q, r) := quadrant x
  let p := r.natAbs
  let r2 := p * p / fx
  let k := (q + if c then 1 else 0) % 4
  let v : Int := if k % 2 = 1 then (altSum r2 fx 0 20 : Nat) else if r < 0 then -(altSum r2 p 1 20 : Nat) else (altSum r2 p 1 20 : Nat)
  if 2 ≤ k then -v else v

/-- Is a magnitude below 2^-14? There x - x³/3 and x enclose the hyperbolic tangent, and x - x³/6 and x - x³/6 + x⁵/120 the sine. -/
def tiny (m : Nat) (e : Int) : Bool := ltVal (.fin false m e) (.fin false 1 (-14))

/-- Bounds of the sine (cosine where `c`) of a magnitude up to 256: two numbers of units 2^e, and e. -/
def sineRange (c : Bool) (m : Nat) (e : Int) : Int × Int × Int :=
  if !c && tiny m e then
    let p := 2 ^ (-e).toNat
    let lo := 120 * m * p ^ 4 - 20 * m ^ 3 * p ^ 2
    ((lo * 1024 / 120 : Nat), ((lo + m ^ 5) * 1024 / 120 + 1 : Nat), 5 * e - 10)
  else
    let v := sineFx c (toFx m e)
    (v - fxErr, v + fxErr, -96)

/-- Keys of a sine or cosine: within 2^-21 up to 256, anywhere from -1 to 1 beyond (R198). -/
def sineKeys (c : Bool) (m : Nat) (e : Int) : Int × Int :=
  if ltVal (.fin false 256 0) (.fin false m e) then (-0x3F800001, 0x3F800000)
  else
    let r := sineRange c m e
    nearKeys r.1 r.2.1 r.2.2 1 (-21)

/-- An FP32 key of a BF16 value: the smallest not below a key, and the largest not above. -/
def upKey16 (k : Int) : Int := if 0 ≤ k then (k + 65535) / 65536 * 65536 else -((-k - 1) / 65536 * 65536) - 1
def downKey16 (k : Int) : Int := if 0 ≤ k then k / 65536 * 65536 else -((-k - 1 + 65535) / 65536 * 65536) - 1

/-- The largest FP32 key that RNE rounds to a BF16 key or below it, and the smallest that it rounds to one or above; a tie goes to the even
one. -/
def roundsDown16 (k : Int) : Int :=
  if 0 ≤ k then k + 0x8000 - k / 65536 % 2 else -(max 0 (-k - 1 - 0x8000 + (-k - 1) / 65536 % 2)) - 1
def roundsUp16 (k : Int) : Int := -(roundsDown16 (-k - 1)) - 1

/-- Keys of the BF16 values within one BF16 ulp of a sine or cosine of a magnitude up to 256 (R198). -/
def sineKeys16 (c : Bool) (m : Nat) (e : Int) : Int × Int :=
  let r := sineRange c m e
  let k := nearKeys r.1 r.2.1 r.2.2 1 (max (floorLog2 r.1.natAbs r.2.2 - 7) (-133))
  (upKey16 k.1, downKey16 k.2)

/-- Keys of a sine or cosine in FP32: for an operand of BF16 those alone that its BF16 form, which is their rounding (R197), needs to lie
within its own bound (R198). -/
def sineKeysFor (c bf16 : Bool) (m : Nat) (e : Int) : Int × Int :=
  if bf16 && !ltVal (.fin false 256 0) (.fin false m e) then
    let j := sineKeys16 c m e
    within (sineKeys c m e) (roundsUp16 j.1) (roundsDown16 j.2)
  else sineKeys c m e

/-- Keys of 2^x for x that is no integer: the encodings that bracket it. -/
def ex2Keys (n : Bool) (m : Nat) (e : Int) : Int × Int :=
  let q := m / 2 ^ (-e).toNat
  let r := m % 2 ^ (-e).toNat
  let k : Int := if n then -(q : Int) - 1 else q
  let f := (if n then 2 ^ (-e).toNat - r else r) * fx / 2 ^ (-e).toNat
  let v := expSum (f * ln2Fx / fx) fx 0 32
  (keyDown (max fx (v - fxErr) : Nat) (k - 96), keyUp (min (2 * fx) (v + fxErr) : Nat) (k - 96))

/-- Is a magnitude within the range in which LG2 has an absolute bound? -/
def lg2Near (m : Nat) (e : Int) : Bool := !ltVal (.fin false m e) (.fin false 1 (-1)) && !ltVal (.fin false 2 0) (.fin false m e)

/-- The key of an integer. -/
def intKey (n : Int) : Int := keyOf (roundTo 2 0 (ofInt n)).1

/-- Keys of the binary logarithm of a positive number that is no power of two, between the exact ones of the powers around it. -/
def lg2Keys (m : Nat) (e : Int) : Int × Int :=
  let k := Nat.log2 m
  let z := (m - 2 ^ k) * fx / (m + 2 ^ k)
  let v : Int := (e + k) * (fx : Int) + (2 * atanhSum (z * z / fx) z 1 34 * fx / ln2Fx : Nat)
  let u : Int := if lg2Near m e then -22 else max (floorLog2 (v.natAbs + fxErr) (-96) - 23) (-149)
  within (nearKeys (v - fxErr) (v + fxErr) (-96) 1 u) (intKey (e + k)) (intKey (e + k + 1))

/-- The key of the logarithm of a number from 0.5 to 2: the highest of the free choices of the number and of those below it whose bounds
can meet its own, so that it rises with the number (R198, log 8). -/
def lg2Rise (b : Nat) : Int :=
  let pick (y : Nat) : Int := match decodeFloat 2 y with
    | .fin _ m e => pickKey (Config.sfuValue .lg2 (BitVec.ofNat 32 y)).toNat (lg2Keys m e)
    | _ => 0
  (((List.range 7).map fun i => b - 1 - i).filter fun y => decide (b / 2 ^ 23 * 2 ^ 23 < y)).foldl (fun k y => max k (pick y)) (pick b)

/-- Keys of the hyperbolic tangent of a positive number below 10. -/
def tanhKeys (m : Nat) (e : Int) : Int × Int :=
  let k := if tiny m e then ulpKeys (m * (2 ^ 30 - 2)) (m * 2 ^ 30 - 1) (e - 30) 2
    else
      let y := 2 * toFx m e
      let q := y / ln2Fx
      let t := expSum (y - q * ln2Fx) fx 0 34 * 2 ^ q
      let err := fxErr * 2 ^ q
      ulpKeys ((t - err - fx) * fx / (t - err + fx)) ((t + err - fx) * fx / (t + err + fx) + 1) (-96) 2
  (k.1, min k.2 0x3F800000)

/-- Those of an encoding, raised to those of the encodings just below it: past a power of two the wider ulp must not let the result
fall (R198). -/
def tanhRise (b : Nat) : Int × Int :=
  let at_ (y : Nat) : Int × Int := match decodeFloat 2 y with
    | .fin _ m e => if m = 0 then (0, 0) else tanhKeys m e
    | _ => (0, 0)
  ((List.range 5).foldl (fun k i => max k (at_ (b - i)).1) 0, (at_ b).2)

/-- The FP32 function of the SFU (R198): special and exact cases, and elsewhere a free value within the function's bound, monotone
where the function is (log 8). A reciprocal beyond the range of FP32 is infinite (R299). -/
def sfuFn (fn : SfuFn) (b : Nat) : Nat × BitVec 5 :=
  let v := decodeFloat 2 b
  let free (x : Nat) (k : Int × Int) : Nat := ofKey (pickKey (Config.sfuValue fn (BitVec.ofNat 32 x)).toNat k)
  let step (i : Int) (sgn : Nat) : Int := keyOf (Config.sfuStep fn (BitVec.ofNat 32 (ofKey i + sgn))).toNat
  let rise (x : Nat) (k : Int × Int) : Nat := ofKey (stepKey (fun i => decide (step i 0 ≤ keyOf x)) k)
  let fall (x sgn : Nat) (k : Int × Int) : Nat := ofKey (stepKey (fun i => decide (keyOf x < step i sgn)) k)
  let nanB := encodeNan 2 false
  match v with
  | .nan s _ => (nanB, if s then fInvalid else 0)
  | .inf n =>
    match fn with
    | .ex2 => (if n then 0 else encodeInf 2 false, 0)
    | .lg2 => if n then (nanB, fInvalid) else (encodeInf 2 false, 0)
    | .rcp => (encodeFin 2 n 0 0, 0)
    | .rsq => if n then (nanB, fInvalid) else (0, 0)
    | .sin => (nanB, fInvalid)
    | .cos => (nanB, fInvalid)
    | .tanh => (if n then 0xBF800000 else 0x3F800000, 0)
  | .fin n m e =>
    let abs := b % 2 ^ 31
    let sgn := if n then 2 ^ 31 else 0
    match fn with
    | .ex2 =>
      if m = 0 then (0x3F800000, 0)
      else if !n && !ltVal v (.fin false 128 0) then (encodeInf 2 false, 0)
      else if n && !ltVal (.fin true 150 0) v then (0, 0)
      else
        let (x, exact) := roundInt 1 n m e
        (if exact then pow2Bits x else rise b (ex2Keys n m e), 0)
    | .lg2 =>
      if m = 0 then (encodeInf 2 true, fDivZero)
      else if n then (nanB, fInvalid)
      else if isPow2 m then ((roundTo 2 0 (ofInt (e + Nat.log2 m))).1, 0)
      else (if lg2Near m e then ofKey (lg2Rise b) else rise b (lg2Keys m e), 0)
    | .rcp =>
      if m = 0 then (encodeInf 2 n, fDivZero)
      else
        let w := 64 + bitLen m
        let q := 2 ^ w / m
        let j := e + Nat.log2 m
        if !ltVal (.fin false 1 (-128)) (.fin false m e) then (encodeInf 2 n, 0)
        else if isPow2 m && -127 ≤ e + Nat.log2 m then (sgn + pow2Bits (-e - Nat.log2 m), 0)
        else (sgn + fall abs sgn (within (ulpKeys q (if 2 ^ w % m = 0 then q else q + 1) (-e - w) 1) (pow2Key (-j - 1)) (pow2Key (-j))), 0)
    | .rsq =>
      if m = 0 then (encodeInf 2 n, fDivZero)
      else if n then (nanB, fInvalid)
      else
        -- 1/√(m·2^e): with 2^200/m' where m'·2^e' has an even exponent
        let odd := e % 2 ≠ 0
        let m1 := if odd then 2 * m else m
        let e1 := if odd then e - 1 else e
        let r := isqrt (2 ^ 200 / m1) 110 0
        if isPow2 m1 && Nat.log2 m1 % 2 = 0 then (pow2Bits (-(e1 + Nat.log2 m1) / 2), 0)
        else
          let j := (e1 + Nat.log2 m1) / 2
          (fall b 0 (within (ulpKeys r (r + 1) (-100 - e1 / 2) 2) (pow2Key (-j - 1)) (pow2Key (-j))), 0)
    | .sin => (if m = 0 then b else free abs (sineKeysFor false (b % 2 ^ 16 = 0) m e) ^^^ sgn, 0)
    | .cos => (if m = 0 then 0x3F800000 else free abs (sineKeysFor true (b % 2 ^ 16 = 0) m e), 0)
    | .tanh =>
      if m = 0 then (b, 0)
      else if !ltVal (.fin false m e) (.fin false 10 0) then (sgn + 0x3F800000, 0)
      else (sgn + rise abs (tanhRise abs), 0)

/-- The BF16 form (R197): widen, compute in FP32, round to BF16 with RNE. -/
def sfuFnB (fn : SfuFn) (b : Nat) : Nat × BitVec 5 :=
  let (r, fl) := sfuFn fn (b * 2 ^ 16)
  ((convertFloat 4 0 false (decodeFloat 2 r)).1, fl)

/-- FKEY (R190). -/
def fKey (single : Bool) (b : Nat) : Word :=
  if single then
    let x : BitVec 32 := BitVec.ofNat 32 b
    (if x.msb then x ^^^ 0x7FFFFFFF else x).signExtend 64
  else
    let x : BitVec 64 := BitVec.ofNat 64 b
    if x.msb then x ^^^ 0x7FFFFFFFFFFFFFFF else x

end Sys2Proof.Machine
end

