-- ==== Sys2Proof/Machine/Flags.lean ====
section
/-! DEFINITION. Where flags go: st.FLAGS of a thread (R37, R183), the sticky flags of the engines (R384, R409). -/

namespace Sys2Proof.Machine

/-- SetFlags (R276): st.FLAGS is bits [9:5], in the order of R37. -/
def setFlags (st : Word) (fl : BitVec 5) : Word := st ||| BitVec.ofNat 64 (fl.toNat * 32)

/-- Flags of a landed result (R291): into st, and into ESTAT while a trap entry waits for it (R199, R200). -/
def Thread.addFlags (t : Thread) (fl : BitVec 5) : Thread :=
  { t with
    st := setFlags t.st fl
    tr := if t.entering then { t.tr with estat := setFlags t.tr.estat fl } else t.tr }

/-- Flags of a vector or SFU lane (R384). -/
def Engines.addV (e : Engines) (fl : BitVec 5) : Engines := { e with vflags := e.vflags ||| fl }

/-- Flags of the matrix unit; the sixth is WRAP (R409). -/
def Engines.addM (e : Engines) (fl : BitVec 5) (wrap : Bool) : Engines :=
  { e with mflags := e.mflags ||| fl.setWidth 6 ||| (if wrap then 32 else 0) }

/-- Flags of the reduction unit (R409). -/
def Engines.addR (e : Engines) (fl : BitVec 5) : Engines := { e with rflags := e.rflags ||| fl }

end Sys2Proof.Machine
end

