-- ==== Sys2Proof/Machine/TableOps.lean ====
section
/-! DEFINITION. What the answer table does to its entries and their consumers: completion, abandonment, dissolution of a
group (R367-R373). -/

namespace Sys2Proof.Machine

def State.entryOf (s : State) (k : TKey) : Option TEntry := s.table.entries.find? fun e => e.key == k

def State.modTable (s : State) (f : Table → Table) : State := { s with table := f s.table }

def State.modEntry (s : State) (k : TKey) (f : TEntry → TEntry) : State :=
  s.modTable fun t => { t with entries := t.entries.map fun e => if e.key == k then f e else e }

/-- The producer stack of a thread, top first (R368). -/
def State.stackOf (s : State) (i : Tid) : List (Option TKey) :=
  ((s.table.prods.find? fun p => p.tid == i).map fun p => p.recs).getD []

def State.setStack (s : State) (i : Tid) (r : List (Option TKey)) : State :=
  s.modTable fun t =>
    let rest := t.prods.filter fun p => p.tid != i
    { t with prods := if r.isEmpty then rest else rest ++ [⟨i, r⟩] }

/-- A stack holds an entry: the thread is producing (R368). -/
def producing (r : List (Option TKey)) : Bool := r.any Option.isSome

/-- Restore g1 to g(ARGC) from a key. -/
def Thread.restoreArgs (t : Thread) (args : List Word) : Thread :=
  (args.zipIdx).foldl (fun t x => if h : x.2 + 1 < 16 then t.writeG ⟨x.2 + 1, h⟩ x.1 else t) t

/-- Where a thread in the table goes on: at `pc`, at the end of its run (R54). -/
def Thread.leaveTable (t : Thread) (pc : Word) : Thread :=
  { t with
    pc := aligned pc
    phase := 0
    skipWatch := none
    walked := none
    popped := []
    park := if t.pend.isEmpty then none else some ⟨1, 0, 0, 0, none⟩ }

/-- The phase of a thread in the table at its TCALL or TCALLR. -/
abbrev callPhase : Nat := 2 ^ 69

/-- The link of a TCALL or TCALLR: g15 ← pc + 4 (R369), written as the call comes about, so that a call that is performed again and
takes TFAIL has left g15 as it was (R199, R203; log 23). A call that a TRET performs anew keeps g15 (R370). -/
def Thread.link (t : Thread) : Thread := if t.phase = callPhase then t.writeG 15 (t.pc + 4) else t

/-- A caller receives an answer: g1 ← answer, and it goes on at its link (R369, R370). -/
def Thread.answered (t : Thread) (v : Word) : Thread := (t.link.writeG 1 v).leaveTable t.link.g[15]

/-- A caller made producer of a key: g1 to g(ARGC) restored, on at the callee (R372, R373). -/
def Thread.produces (t : Thread) (k : TKey) : Thread := (t.link.restoreArgs k.args).leaveTable k.callee

/-- The queue words of a list that a queue gets back at its head (R258). -/
def wordsBack (q : Bool) (ws : List (Bool × Word)) : List Word := (ws.filter fun x => x.1 == q).map fun x => x.2

/-- A suspended caller performs its TCALL again (R373): its instruction issues again, the word it popped back in its queue. -/
def State.recall (s : State) (i : Tid) : State :=
  match s.threadOf i with
  | none => s
  | some t =>
    (if t.popped.isEmpty then s
    else s.modCore t.core fun c => { c with qup := wordsBack true t.popped ++ c.qup, qrx := wordsBack false t.popped ++ c.qrx }).modThread
      t.core t.frame fun t => { t.unpark with popped := [] }

/-- The replies of the answer table to suspended callers are received at their cores (R80, R366). -/
def State.replies (s : State) (cs : List Tid) : State :=
  cs.foldl (fun s i => match s.threadOf i with
    | some t => s.recvd t.launch t.core
    | none => s) s

/-- Every consumer receives the answer (R370). -/
def State.answerAll (s : State) (cs : List Tid) (v : Word) : State :=
  (s.replies cs).modThreads (fun t => cs.contains t.tid) fun t => t.answered v

def State.recallAll (s : State) (cs : List Tid) : State :=
  cs.foldl (fun s i => s.recall i) (s.replies cs)

/-- An entry completes: its consumers are woken (R370). -/
def State.completeEntry (s : State) (k : TKey) (v : Word) : State :=
  match s.entryOf k with
  | none => s
  | some e =>
    (s.modEntry k fun e => { e with
        state := .complete, answer := v, producer := none, consumers := [], group := none, consumed := false,
        lru := s.table.stamp }).answerAll e.consumers v

/-- TAINT cleared in the threads of a group (R372, R373). -/
def State.untaint (s : State) (is : List Tid) : State :=
  s.modThreads (fun t => is.contains t.tid) fun t => { t with st := setBit t.st 18 false }

/-- Members of a group. -/
def State.membersOf (s : State) (g : Nat) : List TEntry := s.table.entries.filter fun e => e.group == some g

def State.groupAt (s : State) (g : Nat) : Option TGroup := s.table.groups.find? fun x => x.id == g

def State.modGroup (s : State) (g : Nat) (f : TGroup → TGroup) : State :=
  s.modTable fun t => { t with groups := t.groups.map fun x => if x.id == g then f x else x }

def State.dropGroup (s : State) (g : Nat) : State :=
  s.modTable fun t => { t with groups := t.groups.filter fun x => x.id != g }

/-- The phase of a leader at its TRET whose group has dissolved under it. -/
abbrev gonePhase : Nat := 2 ^ 70 - 1

/-- The leader that waits at its TRET, if any, returns when its group dissolves, to the last row of R370 (R373). -/
def State.freeLeader (s : State) (e : TEntry) : State :=
  match s.all.find? fun t => t.park.any fun p => p.code == 5 && p.key == e.stamp with
  | none => s
  | some t => ((s.replies [t.tid]).setStack t.tid (some e.key :: s.stackOf t.tid)).modThread t.core t.frame fun t =>
      { t.unpark with phase := gonePhase }

/-- R373, Groups: every member returns to ABANDONED, its consumers perform their TCALL again, the taint goes. -/
def State.dissolve (s : State) (g : Nat) : State :=
  let ms := s.membersOf g
  let cs := ms.flatMap (·.consumers)
  let ts := ((s.groupAt g).map fun x => x.tainted).getD []
  let back (e : TEntry) : TEntry :=
    if e.group = some g then
      { e with state := .abandoned, producer := none, consumers := [], group := none, consumed := false, prov := 0 }
    else e
  let s1 := s.modTable fun t => { t with entries := t.entries.map back }
  (((ms.foldl State.freeLeader s1).recallAll cs).untaint ts).dropGroup g

/-- An entry abandoned, with or without a charge (R373). -/
def State.abandonEntry (s : State) (k : TKey) (charged : Bool) : State :=
  match s.entryOf k with
  | none => s
  | some e =>
    let failed := charged && e.fault
    match e.group with
    | some g =>
      (s.dissolve g).modEntry k fun e => { e with
        fault := e.fault || charged, state := if failed then .failed else e.state }
    | none =>
      if failed then
        (s.modEntry k fun e => { e with state := .failed, producer := none, consumers := [] }).recallAll e.consumers
      else
        match e.consumers with
        | [] => s.modEntry k fun e => { e with state := .abandoned, producer := none, fault := e.fault || charged }
        | c :: rest =>
          let s1 := s.modEntry k fun e => { e with
            state := .producing, producer := some c, consumers := rest, fault := e.fault || charged }
          let s2 := s1.setStack c (some k :: s1.stackOf c)
          (s2.replies [c]).modThreads (fun t => t.tid == c) fun t => t.produces k

/-- Entries of a list of records that a thread still produces. -/
def State.produced (s : State) (i : Tid) (r : List (Option TKey)) : List TKey :=
  (r.filterMap id).filter fun k => match s.entryOf k with
    | some e => e.producer == some i
    | none => false

/-- TABLE_ABANDON (R373): every entry of a thread's stack that it produces is abandoned, newest first, also one whose group an earlier
one has dissolved; the stack is emptied and the taint cleared. -/
def State.abandonStack (s : State) (i : Tid) (charged : Bool) : State :=
  let s1 := (s.produced i (s.stackOf i)).foldl (fun s k => s.abandonEntry k charged) s
  (s1.setStack i []).modThreads (fun t => t.tid == i) fun t => { t with st := setBit t.st 18 false }

/-- A thread that leaves is no consumer any more. -/
def State.dropConsumer (s : State) (i : Tid) : State :=
  let s1 := if s.table.entries.any fun e => e.consumers.contains i then s.replies [i] else s
  s1.modTable fun t => { t with entries := t.entries.map fun e =>
    { e with consumers := e.consumers.filter fun c => c != i } }

end Sys2Proof.Machine
end

