-- ==== Sys2Proof/Machine/Ops.lean ====
section
/-! DEFINITION. The named operations over registers and threads: writing a result, ending an instruction, parking, the end
of a thread, taking an exception (R200) and returning from one (R339). -/

namespace Sys2Proof.Machine

/-! ## Traps -/

/-- What a trap carries: cause code, the W and F bits, and EVAL (R201, R203). -/
structure TrapInfo where
  code : Nat
  w : Bool
  f : Bool
  eval : Word
deriving DecidableEq, Repr

abbrev cILLEG : Nat := 0x01
abbrev cPRIV : Nat := 0x02
abbrev cALIGN : Nat := 0x03
abbrev cPAGE : Nat := 0x04
abbrev cPROT : Nat := 0x05
abbrev cSUBN : Nat := 0x07
abbrev cUCE : Nat := 0x08
abbrev cREGERR : Nat := 0x09
abbrev cRESID : Nat := 0x0A
abbrev cENGF : Nat := 0x0B
abbrev cTFULL : Nat := 0x0C
abbrev cTCYCLE : Nat := 0x0D
abbrev cTFAIL : Nat := 0x0E
abbrev cTDIVERGE : Nat := 0x0F
abbrev cBARTO : Nat := 0x10
abbrev cPLACE : Nat := 0x11
abbrev cFUTURE : Nat := 0x12
abbrev cSWTRAP : Nat := 0x13
abbrev cBREAK : Nat := 0x14
abbrev cWATCH : Nat := 0x15
abbrev cCTXLOST : Nat := 0x16
abbrev cQUEUE : Nat := 0x17

/-- A trap with no W and no F bit. -/
def cause (code : Nat) (eval : Word) : TrapInfo := ⟨code, false, false, eval⟩

/-- The vector of a cause for a launch-mode thread: SVEC when true (R203). -/
def causeSv (code : Nat) (subnh : Bool) : Bool :=
  code == cPRIV || code == cPAGE || code == cPROT || code == cUCE || code == cREGERR || code == cWATCH
    || (code == cSUBN && subnh)

/-! ## Engines given up -/

/-- The open body of a frame discarded: handles of VREDs among its members resolve CANCELLED (R390). -/
def Engines.dropOpen (e : Engines) (frame : Nat) : Engines :=
  let ids : List Nat := match e.coll with
    | some (b : Body) => if b.frame = frame then b.ins.filterMap (fun (x : VecIns) => x.fut) else []
    | none => []
  { e with
    coll := e.coll.filter fun b => b.frame != frame
    futs := e.futs.map fun f => if ids.contains f.id && f.status == .pending then { f with status := .cancelled } else f }

/-- st.VBUSY of every thread of a core as the unit stands (R388). -/
def State.setBusy (s : State) (core : Nat) : State :=
  let e := (s.coreOf core).eng
  let busy (f : Nat) : Bool := (e.vq.any fun b => b.frame == f) || e.coll.any fun b => b.frame == f
  s.modThreads (fun t => t.core == core) fun t => { t with st := setBit t.st 12 (busy t.frame) }

/-- Does an operation that has begun, and that a cancel does not end at once, stand for a record: a running copy, a begun MST, a
BADDQ? Its future resolves when it has stopped or run (R142, R405, R416). -/
def Engines.keeps (e : Engines) (id : Nat) : Bool :=
  (e.bq.any fun b => b.fut == id) || (e.mq.any fun m => m.fut == id && m.begun && m.kind == .mst) ||
    e.ch.toList.any fun c => c.run.any fun o => o.fut == id

/-- Every unresolved operation of a frame cancelled (R204): futures CANCELLED, queues emptied of it. A begun body and a
running copy stop at their current chunk or element, in the name of frame 64; a BADDQ runs on. Entries of the SFU queue are cancelled at its
head (R398). -/
def Engines.cancel (e : Engines) (frame : Nat) : Engines :=
  let stopBody (b : Body) : Body := if b.frame = frame then { b with frame := 64, dying := true } else b
  let stopCopy (o : CopyOp) : CopyOp := if o.frame = frame then { o with frame := 64, cancel := true } else o
  let stopMat (m : MatEntry) : MatEntry := if m.frame = frame then { m with frame := 64, dying := true } else m
  { e with
    futs := e.futs.map fun f =>
      if f.owner = frame && f.status == .pending && !e.keeps f.id then { f with status := .cancelled } else f
    vq := (e.vq.filter fun b => b.started || b.frame != frame).map stopBody
    coll := e.coll.filter fun b => b.frame != frame
    held := e.held.filter fun h => h.frame != frame
    ch := e.ch.map fun c => { c with
      run := c.run.map stopCopy
      queue := c.queue.filter fun o => o.frame != frame }
    mq := (e.mq.filter fun m => m.frame != frame || (m.begun && m.kind == .mst)).map stopMat
    mfail := e.mfail.filter fun r => r.frame != frame
    sfu := e.sfu.map fun x => if x.frame = frame then { x with frame := 64 } else x }

/-- What the engines hold of a frame that its thread leaves: block adds and unresolved futures go on under frame number 64, and the
records of MSYNC (R417) are gone. -/
def Engines.forget (e : Engines) (frame : Nat) : Engines :=
  { e with
    bq := e.bq.map fun b => if b.frame = frame then { b with frame := 64 } else b
    futs := e.futs.map fun f => if f.owner = frame then { f with owner := 64 } else f
    mfail := e.mfail.filter fun r => r.frame != frame }

/-- Has a cancelled operation yet to stop (R204): a chunk, a row or an element under way of frame 64? A VRED that runs on with its
result discarded is not waited for. -/
def Engines.stopping (e : Engines) : Bool :=
  (e.vq.any fun b => b.frame == 64 && b.dying) || (e.mq.any fun m => m.frame == 64 && m.dying) ||
    e.ch.toList.any fun c => c.run.any fun o => o.frame == 64 && o.cancel

/-- The oldest parked ANCH of a core (R40). A removed thread, which has no position, is passed over, and its ANCH is granted once
it has returned (DESIGN CHOICE: R40 says nothing of one; log 63). -/
def State.nextAnch (s : State) (core : Nat) : Option Thread :=
  let cand := (s.onCore core).filter fun t => ((t.park.map fun p => p.code == 11).getD false) && t.pos.isSome
  cand.foldl (fun b t => match b with
    | none => some t
    | some u =>
      if (t.park.map fun p => p.since).getD 0 < (u.park.map fun p => p.since).getD 0 then some t else some u) none

/-- Anchor a thread of a core: it owns the engines and is unparked. Its ANCH issues again and finds it anchored (R357); a
thread placed as a parked ANCH issues its first instruction (R71). -/
def State.anchor (s : State) (core frame : Nat) : State :=
  (s.modCore core fun c => { c with eng := { c.eng with owner := some frame } }).modThread core frame fun t =>
    { t with st := setBit t.st 17 true, park := none }

/-- The engines of a core released and granted to the oldest parked ANCH (R40, R357). -/
def State.releaseEngines (s : State) (core : Nat) : State :=
  let s1 := s.modCore core fun c => { c with eng := { c.eng with owner := none } }
  match s1.nextAnch core with
  | some t => s1.anchor core t.frame
  | none => s1

/-! ## The end of a thread -/

/-- What a thread has sent from a frame goes on under frame number 64, which names no thread. -/
def State.orphan (s : State) (core frame : Nat) : State :=
  let ofReq (r : Req) : Req := if r.core = core && r.frame = frame then { r with frame := 64 } else r
  let ofInc (m : IncMsg) : IncMsg := if m.core = core && m.frame = frame then { m with frame := 64 } else m
  let ofMsg (m : Msg) : Msg := if m.core = core && m.frame = frame then { m with frame := 64 } else m
  { s with
    net := { s.net with
      reqs := s.net.reqs.map ofReq
      sends := s.net.sends.map ofMsg
      pushes := s.net.pushes.map ofMsg }
    inc := { s.inc with msgs := s.inc.msgs.map ofInc } }

/-- A thread leaves its position and frame (R204, R304): queue ownership ends (R361), its wait-table entries are
withdrawn (R321), engines it holds pass on, and a LAUNCH of it not submitted is dropped. What it has sent goes on under frame number 64, which
names no thread; the replies that it does not wait for any more are received (R80). -/
def State.leave (s0 : State) (core frame : Nat) : State :=
  let owed := ((s0.threadAt core frame).map fun t => (t.launch, (t.pend.filter fun p => p.recv).length)).getD (0, 0)
  let s := (List.range owed.2).foldl (fun s _ => s.recvd owed.1 core) s0
  let c := s.coreOf core
  let s1 := if c.qOwner = some frame then s.modCore core fun c => { c with qOwner := none, qdn := none } else s
  let mine (e : WaitEntry) : Bool := e.core == core && e.frame == frame
  let s2 := s1.modCores fun c => { c with
    waits := c.waits.filter fun e => !mine e, retries := c.retries.filter fun e => !mine e.2 }
  let orphan (e : SbEntry) : SbEntry := if e.frame = frame then { e with frame := 64 } else e
  let s2 := s2.modCore core fun c => { c with
    sb := (c.sb.filter fun e => !(e.kind == .stef && e.frame == frame)).map orphan
    eng := c.eng.forget frame }
  let s3 := ({ s2 with
    net := { s2.net with fe := s2.net.fe.filter fun r => !mine r.e }
    launcher := { s2.launcher with reqs := s2.launcher.reqs.filter fun r => !(r.core == core && r.frame == frame) }
    mgmt := { s2.mgmt with tlbis := s2.mgmt.tlbis.filter fun w => !(w.core == core && w.frame == frame) } } : State).orphan core frame
  let s4 := s3.dropThread core frame
  if c.eng.owner = some frame then
    if c.eng.stopping then s4.modCore core fun c => { c with eng := { c.eng with owner := some 64 } } else s4.releaseEngines core
  else s4

/-- One more thread lost by a launch on a core (R212). -/
def addLost (l : List (Nat × Lost)) (launch core threads entries : Nat) : List (Nat × Lost) :=
  match l with
  | [] => [(launch, ⟨core, threads, entries⟩)]
  | (i, x) :: r =>
    if i = launch && x.core = core then (i, ⟨core, x.threads + threads, x.entries + entries⟩) :: r
    else (i, x) :: addLost r launch core threads entries

/-- A loss of a launch on a core (R212): the event is posted and CTXLOST becomes due once for the core; what the core loses before
that thread starts counts with it. -/
def State.lose (s : State) (launch core threads entries : Nat) : State :=
  match s.launchOf launch with
  | none => s
  | some l =>
    let due := s.mgmt.ctxlost.any fun x => x.1 == launch && x.2.core == core
    let s1 := s.modLaunch launch fun l => { l with anyLost := true }
    if l.lostAt.contains core && !due then s1
    else
      let s2 := s1.modLaunch launch fun l => { l with lostAt := if l.lostAt.contains core then l.lostAt else l.lostAt ++ [core] }
      let s3 : State := { s2 with mgmt := { s2.mgmt with ctxlost := addLost s2.mgmt.ctxlost launch core threads entries } }
      if due then s3 else s3.post ⟨0x0004, BitVec.ofNat 64 launch, BitVec.ofNat 64 core⟩

/-- A thread whose WAIT with a limit names what remains of it (R363). -/
def Thread.limited (t : Thread) (cc : Nat) : Thread :=
  let limit (p : Park) : Park := match p.code, p.until? with
    | 9, some u => { p with arg := BitVec.ofNat 64 (max 1 (u - cc)), until? := none }
    | _, _ => p
  { t with park := t.park.map limit }

/-- A launched thread lost: its record is due with STATE 3, or with STATE 2 where its frame cannot be read (R207, R210, R212; that a
termination leaves a record as a reset does: DEDUCED, log 65). -/
def State.loseThread (s : State) (t : Thread) : State :=
  ({ s with mgmt := { s.mgmt with unsaved := s.mgmt.unsaved ++ [(t.limited s.cc, if t.damage.isEmpty then 3 else 2)] } } : State).lose
    t.launch t.core 1 0

/-- THREAD_TERMINATE (R204). A supervisor thread is started again later (R345); a launched one is lost to its launch. -/
def State.terminate (s : State) (t : Thread) : State :=
  let s1 := s.modCore t.core fun c => { c with eng := c.eng.cancel t.frame }
  let s2 := ((s1.abandonStack t.tid true).dropConsumer t.tid).leave t.core t.frame
  if t.isSup then
    let s3 : State := { s2 with mgmt := { s2.mgmt with restarts := s2.mgmt.restarts ++ [⟨t.core, t.entry⟩] } }
    s3.post ⟨0x0004, 0, BitVec.ofNat 64 t.core⟩
  else s2.loseThread t

/-! ## Parking -/

/-- Is the wait one that neither tests nor clears the pending-wake bit (R58)? Of the waits that R58 names in neither of its lists,
codes 20 and 26 leave the bit alone as waits for the core's own stores do, and codes 8, 10, 11, 13 (LAUNCH), 15 to 19 and 22 to 24 test and
clear it (DESIGN CHOICE, log 63). -/
def plainWait (code : Nat) : Bool :=
  code == 0 || code == 1 || code == 12 || code == 21 || code == 25 || code == 26 || code == 20

/-- Park the issuing thread so that its instruction issues again when the wait's condition holds (R58, log 14). A set
pending-wake bit is cleared and the condition examined again instead. -/
def State.parkOn (s : State) (code : Nat) (arg : Word) (key : Nat) : State :=
  if s.thr.wake && !plainWait code then s.modThr fun t => { t with wake := false }
  else s.modThr fun t => { t with park := some ⟨code, arg, key, s.cc, none⟩ }

/-- Park the issuing thread behind an acquire (R129 (d), R363). -/
def State.parkBehind (s : State) : State := s.parkOn 1 0 1

/-- Park the issuing thread until a step delivers to it; the pending-wake bit is cleared (R58). -/
def State.parkFor (s : State) (code : Nat) (arg : Word) (key : Nat) (due : Option Nat) : State :=
  s.modThr fun t => { t with wake := false, park := some ⟨code, arg, key, s.cc, due⟩ }

/-- Set how far the instruction has come. -/
def State.phase (s : State) (n : Nat) : State := s.modThr fun t => { t with phase := n }

/-! ## Results -/

/-- Push a word to the bound core's qup (R64, R278): it leaves now and arrives by QDN_PUSH_ARRIVAL. -/
def State.push (s : State) (v : Word) : State :=
  match s.core.qdn with
  | none => s
  | some d =>
    let m : Msg := ⟨s.core.id, s.thr.frame, s.thr.launch, s.thr.idx, d, v, s.core.sbNum, s.thr.seq⟩
    { s.sent s.thr.launch s.core.id with net := { s.net with pushes := s.net.pushes ++ [m] } }

/-- SetG of a short result (R276). -/
def State.setG (s : State) (d : Dst) (v : Word) : State :=
  match d with
  | .g n => s.modThr fun t => t.writeG n v
  | .qdn => s.push v
  | .gz => s

/-- SetG of a long result: it becomes outstanding and lands later (R53, R55). A result for gz is discarded. -/
def State.long (s : State) (d : Dst) (p : Pending) : State :=
  s.modThr fun t =>
    { t with
      pend := (t.pend.map fun q => match d with
        | .g n => if Dst.isG q.dst n.1 then { q with dropped := true } else q
        | _ => q) ++ [{ p with tok := t.seq, dst := d, pc := t.pc, popped := if d == .qdn then t.popped else [], dropped := p.dropped || d == .gz }]
      seq := t.seq + 1 }

/-- A long result whose value is known at issue. -/
def Pending.ofVal (v : Word) (fl : BitVec 5) : Pending where
  tok := 0
  dst := .gz
  val := v
  flags := fl
  poison := none
  ready := true
  dropped := false
  slot := false
  line := none
  load := false
  cache := false
  sfu := false
  recv := false
  acq := 0
  passed := false
  pc := 0
  popped := []

/-! ## Ending an instruction -/

/-- A switch marker or an implicit end of run: park with code 1 until every long result has landed (R54). -/
def State.endRun (s : State) : State :=
  if s.thr.pend.isEmpty then s
  else s.modThr fun t => { t with park := some ⟨1, 0, 0, s.cc, none⟩ }

/-- The instruction has issued and the thread goes on at `pc`; `sw` is the switch marker. -/
def State.jump (s : State) (sw : Bool) (pc : Word) : State :=
  let s1 := s.modThr fun t => { t with pc := pc, phase := 0, skipWatch := none, walked := none, popped := [] }
  if sw then s1.endRun else s1

/-- The instruction has issued and the thread goes on at pc + 4. -/
def State.retire (s : State) (sw : Bool) : State := s.jump sw (s.thr.pc + 4)

/-- A short result written and the instruction ended. -/
def State.finish (s : State) (sw : Bool) (d : Dst) (v : Word) : State := (s.setG d v).retire sw

/-- A long instruction with a result: a result for qdn ends the run (R278). -/
def State.finishLong (s : State) (sw : Bool) (d : Dst) (p : Pending) : State :=
  (s.long d p).retire (sw || d == .qdn)

/-! ## Taking an exception -/

/-- Has the thread a narrowing store not yet applied (R91)? -/
def State.hasNarrow (s : State) (frame : Nat) : Bool :=
  s.core.sb.any fun e => e.kind == .narrow && e.frame == frame

/-- The words that the instruction of the issuing thread has popped return to the heads of their queues in their order (R258). -/
def State.unpop (s : State) : State :=
  if s.thr.popped.isEmpty then s
  else
    { s with
      core := { s.core with qup := wordsBack true s.thr.popped ++ s.core.qup, qrx := wordsBack false s.thr.popped ++ s.core.qrx }
      thr := { s.thr with popped := [] } }

/-- Trap entry (R200), the one operation by which the issuing thread takes any trap: EPC, ECAUSE, EVAL and ESTAT are
written, the vector chosen, st.MODE and st.NOKILL changed, and pc goes to the vector. Earlier long results and narrowing
stores reach st and ESTAT before the handler's first instruction (R57, R91, R199). The reservation is cleared (R39), and queue
words that the instruction popped are returned (R258). -/
def State.trap (s : State) (ti : TrapInfo) : State :=
  let s := s.unpop
  let t := s.thr
  let sv0 := t.sup || causeSv ti.code (t.st.getLsbD 16)
  let nest := !sv0 && t.tr.inE
  let sv := sv0 || nest
  let vec := if sv then s.sys.svec else t.tr.evec
  if (sv && t.tr.inS) || vec == 0 then s.terminate t
  else
    let ec := ti.code + (if ti.w then 256 else 0) + (if ti.f then 512 else 0) + (if nest then 1024 else 0)
    let wait := !t.pend.isEmpty || s.hasNarrow t.frame
    let s1 := s.modThr fun t => { t with
      tr := { t.tr with
        epc := t.pc, ecause := BitVec.ofNat 64 ec, eval := ti.eval, estat := t.st
        inE := t.tr.inE || !sv, inS := t.tr.inS || sv }
      st := setBit (if sv then setField t.st 0 2 1 else t.st) 11 true
      pc := aligned vec
      fbuf := if sv && !t.sup then none else t.fbuf
      resv := none
      phase := 0
      slot := none
      skipWatch := none
      walked := none
      entering := wait
      park := if wait then some ⟨1, 0, 0, s.cc, none⟩ else none }
    if sv then s1.modThreads (fun t => t.isSup) fun t => { t with wake := true } else s1

/-- REGERR leaves the damaged register holding 0 with its tag cleared (R203). -/
def State.regerr (s : State) (n : Nat) : State :=
  let s1 := s.modThr fun t => { t with damage := t.damage.filter fun m => m != n }
  let s2 := if h : n < 16 then s1.modThr fun t => t.writeG ⟨n, h⟩ 0
    else if n = 20 then s1.modThr fun t => { t with st := 0 }
    else if n = 21 then s1.modThr fun t => { t with tb := 0 }
    else s1
  s2.trap (cause cREGERR (BitVec.ofNat 64 n))

/-- The return of ERET (R339): st's writable fields come from ESTAT, MODE only falls, the innermost handler is left, and
the thread goes on at EPC. -/
def State.eret (s : State) : State :=
  s.modThr fun t =>
    let e := t.tr.estat
    let mode := if t.sup then (if e.toNat % 4 = 0 then 0 else 1) else t.st.toNat % 4
    let st := setField (setField (setField (setField t.st 2 3 (fieldOf e 2 3)) 5 7 (fieldOf e 5 7)) 16 1
      (fieldOf e 16 1)) 0 2 mode
    { t with
      st := st
      tr := { t.tr with inS := false, inE := if t.tr.inS then t.tr.inE else false }
      skipWatch := if t.tr.ecause.toNat % 256 = cWATCH then some t.tr.epc else none
      phase := 0
      walked := none
      fbuf := if t.sup && mode = 0 then none else t.fbuf
      pc := t.tr.epc }

/-- A trap of an illegal word (R274 step 2): EVAL holds the word. -/
def State.illeg (s : State) (w : BitVec 32) : State := s.trap (cause cILLEG (w.setWidth 64))

/-- Bring a thread and its core to the place of the issuing ones. -/
def State.focus (s : State) (core frame : Nat) : State :=
  let s1 := if s.thr.live then { s with thr := Thread.absent, threads := s.threads ++ [s.thr] } else s
  let s2 := if s1.core.id = core then s1
    else { s1 with core := s1.coreOf core, cores := (insertCore s1.cores s1.core).filter fun c => c.id != core }
  match s2.threads.find? fun t => t.is core frame with
  | some t => { s2 with thr := t, threads := s2.threads.filter fun u => !u.is core frame }
  | none => s2

/-- Run `f` with another thread in the place of the issuing one. -/
def State.asThread (s : State) (core frame : Nat) (f : State → State) : State :=
  if s.thr.live && s.thr.is core frame then f s
  else
    let t := f (s.focus core frame)
    if s.thr.live then t.focus s.core.id s.thr.frame else t.focus s.core.id 64

/-- An instruction word executed: it needs a thread. -/
def withThread (s : State) (t : State) : Answer := if s.thr.live then .next t else .fault .noThread

/-- A step of the machine: it happens only where the spec lets it. -/
def whenEnabled (c : Bool) (t : State) : Answer := if c then .next t else .fault .notEnabled

end Sys2Proof.Machine
end

