-- ==== Sys2Proof/Machine/Operands.lean ====
section
/-! DEFINITION. Reading the operands of an instruction word: steps 3 to 5 of R274, queue pops (R258), future tags (R56),
and the assembled immediate forms (R259). -/

namespace Sys2Proof.Machine

/-- The record a handle names: its core and number (R402; the value of a handle is internal). -/
def State.futureOf (s : State) (h : Word) : Option Future :=
  (s.coreOf (h.toNat / 64)).eng.futs.find? fun f => f.id == h.toNat % 64

/-- The handle value of record `id` of a core. -/
def handleOf (core id : Nat) : Word := BitVec.ofNat 64 (core * 64 + id)

/-- Change a record. -/
def State.modFuture (s : State) (core id : Nat) (f : Future → Future) : State :=
  s.modCore core fun c => { c with eng := { c.eng with
    futs := c.eng.futs.map fun x => if x.id = id then f x else x } }

/-- Resolve a future that is still pending (R402). -/
def State.resolve (s : State) (core id : Nat) (st : FutStatus) (v addr : Word) : State :=
  s.modFuture core id fun f => if f.status == .pending then { f with status := st, value := v, addr := addr } else f

/-- Does an operation that has not ended, cancelled or not, still stand for a record? -/
def Engines.runsFor (e : Engines) (id : Nat) : Bool :=
  (e.vq ++ e.coll.toList).any (fun b => b.ins.any fun x => x.fut == some id) ||
    e.ch.toList.any (fun c => (c.run.toList ++ c.queue).any fun o => o.fut == id) ||
    (e.mq.any fun m => m.fut == id) || e.bq.any fun b => b.fut == id

/-- Is a record in use: its operation has not resolved or ended, or its handle is held by some register, of a thread on its way too (R402)? -/
def State.recordBusy (s : State) (core id : Nat) : Bool :=
  (s.core.eng.futs.any fun f => f.id == id && f.status == .pending) || s.core.eng.runsFor id ||
    (s.all ++ s.net.moves).any fun t => (List.finRange 16).any fun n => t.tagged n.1 && t.g[n] == handleOf core id

/-- The lowest free operation record of the issuing core, if any (R402). -/
def State.freeRecord (s : State) : Option Nat :=
  (List.range 64).find? fun i => !s.recordBusy s.core.id i

/-- NewFuture (R276): take a record of the issuing core and write its handle, tagged, to a field. -/
def State.newFuture (s : State) (d : Both) (id : Nat) (stream : Option Nat) : State :=
  let c := s.core
  let futs := c.eng.futs.filter (fun f => f.id != id) ++ [⟨id, .pending, 0, 0, s.thr.frame, stream, s.thr.launch⟩]
  let s1 := { s with core := { c with eng := { c.eng with futs := futs } } }
  match d with
  | .g n => s1.modThr fun t => (t.writeG n (handleOf c.id id)).setTag n.1 true
  | .gz => s1

/-! ## Queues -/

/-- Code of a queue named as a source (R257). -/
def Src.queue : Src → Option Nat
  | .qup => some 16
  | .qrx => some 18
  | _ => none

/-- Step 4 of R274 for queues: a queue named by a thread that is not the owner, or qdn unbound (R64), or bound to a core that
has been disabled (R210). -/
def State.queueTrap (s : State) (srcs : List Src) (d : Dst) : Option TrapInfo :=
  let own := s.core.qOwner == some s.thr.frame
  let toQdn : Option TrapInfo :=
    if d != .qdn then none
    else if !own || s.core.qdn.isNone then some (cause cQUEUE 17)
    else if s.core.qdn.any fun c => !s.enabled c then some (cause cPLACE 0)
    else none
  match srcs.findSome? Src.queue with
  | some q => if own then toQdn else some (cause cQUEUE (BitVec.ofNat 64 q))
  | none => toQdn

/-- Has the qup that qdn is bound to room, words in flight counted (R64), and is its core out of reset (R210)? -/
def State.qdnRoom (s : State) : Bool :=
  match s.core.qdn with
  | none => true
  | some d => (s.coreOf d).reset.isNone && (s.coreOf d).qup.length + (s.net.pushes.filter fun m => m.target == d).length < 16

/-! ## Sources -/

/-- An armed injection of kind 5 that this read matches (R349): none does not match, true fires. -/
def State.injectReg (s : State) (n : Nat) : Option Bool :=
  let e := s.core.errinj
  if e.getLsbD 7 && fieldOf e 0 3 == 5 && fieldOf e 16 5 == n && s.core.injTid == s.thr.tid then
    some (s.core.injSkip == 0)
  else none

/-- Disarm an injection that fires. -/
def Core.disarm (c : Core) : Core := { c with errinj := setBit c.errinj 7 false, injSkip := 0 }

/-- The trap of reading a register whose future has failed (R56). -/
def State.futTrap (s0 : State) (n : Nat) (f : Future) : Option State :=
  match f.status with
  | .resid => some (s0.trap (cause cRESID (BitVec.ofNat 64 n)))
  | .engf => some (s0.trap (cause cENGF f.addr))
  | .cancelled => some (s0.trap (cause cFUTURE (BitVec.ofNat 64 n)))
  | _ => none

/-- A register that held a resolved future holds its value (R56). -/
def State.settleFut (s : State) (n : Fin 16) : Option Future → State
  | some f => s.modThr fun t => { t with g := t.g.set n f.value, st := setBit t.st (19 + n.1) false }
  | none => s

/-- Step 5 of R274 over the sources in field order; `s0` is the state the instruction issued in, from which a park or a
trap starts. -/
def State.check (s0 : State) (s : State) : List Src → Except State State
  | [] => .ok s
  | .g n :: r =>
    let t := s.thr
    let fut := if t.tagged n.1 then s.futureOf t.g[n] else none
    if (fut.map fun f => f.status == .pending).getD false then .error (s0.parkOn 18 (BitVec.ofNat 64 n.1) 0)
    else if t.damage.contains n.1 then .error (s0.regerr n.1)
    else match t.marks.find? fun m => m.1 == n.1 with
      | some m => .error (s0.trap (cause cUCE m.2))
      | none =>
        match fut.bind (s0.futTrap n.1) with
        | some e => .error e
        | none =>
          let s1 := s.settleFut n fut
          match s.injectReg n.1 with
          | some true => .error ({ s0 with core := s0.core.disarm }.countUe.regerr n.1)
          | some false => s0.check { s1 with core := { s1.core with injSkip := s1.core.injSkip - 1 } } r
          | none => s0.check s1 r
  | _ :: r => s0.check s r

/-- The values of the sources, popping queues in field order (R258). -/
def State.take (s : State) : List Src → State × List Word
  | [] => (s, [])
  | x :: r =>
    match x with
    | .g n => let (s1, vs) := s.take r; (s1, s.thr.g[n] :: vs)
    | .gz => let (s1, vs) := s.take r; (s1, 0 :: vs)
    | .qup =>
      let (s1, vs) := { s with core := { s.core with qup := s.core.qup.tail } }.take r
      (s1, s.core.qup.headD 0 :: vs)
    | .qrx =>
      let (s1, vs) := { s with core := { s.core with qrx := s.core.qrx.tail } }.take r
      (s1, s.core.qrx.headD 0 :: vs)

/-- The words that the sources pop, in field order (R258): true for qup. -/
def State.pops (s : State) : List Src → List (Bool × Word)
  | [] => []
  | .qup :: r => (true, s.core.qup.headD 0) :: { s with core := { s.core with qup := s.core.qup.tail } }.pops r
  | .qrx :: r => (false, s.core.qrx.headD 0) :: { s with core := { s.core with qrx := s.core.qrx.tail } }.pops r
  | _ :: r => s.pops r

/-- The sources read and the popped words noted in the thread, which a trap of the instruction returns (R258). -/
def State.takeAll (s : State) (srcs : List Src) : State × List Word :=
  let (s1, vs) := s.take srcs
  let ws := s.pops srcs
  (if ws.isEmpty then s1 else s1.modThr fun t => { t with popped := ws }, vs)

/-- The words a queue must hold for the sources. -/
def needs (srcs : List Src) (q : Src) : Nat := (srcs.filter fun x => x == q).length

/-- Steps 4 and 5 of R274: ownership of queues, the words pc and st that every instruction reads (R203), then the sources in
field order; then every queue read must hold its words, and qdn must have room for a short result, else the thread parks
(R64, R258, R278). `k` receives the state with words popped and resolved futures delivered, and the values. A trap of `k` is
taken from the state before, or returns the popped words, so nothing has changed (R199, R258). -/
def State.gatherOf (s : State) (short : Bool) (srcs : List Src) (d : Dst) (k : State → List Word → State) : State :=
  match s.queueTrap srcs d with
  | some ti => s.trap ti
  | none =>
    if s.thr.damage.contains 19 then s.regerr 19
    else if s.thr.damage.contains 20 then s.regerr 20
    else match s.check s srcs with
      | .error t => t
      | .ok s1 =>
        if s.core.qup.length < needs srcs .qup then s.parkOn 7 16 0
        else if s.core.qrx.length < needs srcs .qrx then s.parkOn 7 18 0
        else if short && d == .qdn && !s.qdnRoom then s.parkOn 8 17 0
        else let (s2, vs) := s1.takeAll srcs; k s2 vs

/-- The operands of a short instruction, or of one with no result. -/
def State.gather (s : State) (srcs : List Src) (d : Dst) (k : State → List Word → State) : State := s.gatherOf true srcs d k

/-- The operands of a long instruction: its result waits for room in qdn as it lands (R278). -/
def State.gatherLong (s : State) (srcs : List Src) (d : Dst) (k : State → List Word → State) : State := s.gatherOf false srcs d k

/-- One source. -/
def State.gather1 (s : State) (a : Src) (d : Dst) (k : State → Word → State) : State :=
  s.gather [a] d fun s vs => k s (vs.headD 0)

/-- Two sources. -/
def State.gather2 (s : State) (a b : Src) (d : Dst) (k : State → Word → Word → State) : State :=
  s.gather [a, b] d fun s vs => k s (vs.headD 0) (vs.tail.headD 0)

/-- Three sources. -/
def State.gather3 (s : State) (a b c : Src) (d : Dst) (k : State → Word → Word → Word → State) : State :=
  s.gather [a, b, c] d fun s vs => k s (vs.headD 0) (vs.tail.headD 0) (vs.tail.tail.headD 0)

/-- One source of a long instruction. -/
def State.long1 (s : State) (a : Src) (d : Dst) (k : State → Word → State) : State :=
  s.gatherLong [a] d fun s vs => k s (vs.headD 0)

/-- Two sources of a long instruction. -/
def State.long2 (s : State) (a b : Src) (d : Dst) (k : State → Word → Word → State) : State :=
  s.gatherLong [a, b] d fun s vs => k s (vs.headD 0) (vs.tail.headD 0)

/-- Three sources of a long instruction. -/
def State.long3 (s : State) (a b c : Src) (d : Dst) (k : State → Word → Word → Word → State) : State :=
  s.gatherLong [a, b, c] d fun s vs => k s (vs.headD 0) (vs.tail.headD 0) (vs.tail.tail.headD 0)

/-! ## Immediates (R259) -/

abbrev sx15 (i : BitVec 15) : Word := i.signExtend 64
abbrev sx13 (i : BitVec 13) : Word := i.signExtend 64
abbrev sx11 (i : BitVec 11) : Word := i.signExtend 64
abbrev sx20 (i : BitVec 20) : Word := i.signExtend 64

/-- A place offset from a register (R260): none when bits [63:14] are not all zero. -/
def placeWord (v : Word) : Option Nat := if v.toNat < 2 ^ 14 then some (v.toNat % 2 ^ 14) else none

/-- Resolve (R276): the core at a place offset of the issuing core, none for PLACE (R23). -/
def State.resolvePlace (s : State) (off : Nat) : Option Nat :=
  match Machine.resolvePlace s.pkg s.core.id off with
  | some n => if s.enabled n then some n else none
  | none => none

end Sys2Proof.Machine
end

