-- ==== Sys2Proof/Machine/Alu.lean ====
section
/-! DEFINITION. Integer register and immediate instructions (R277-R290). -/

namespace Sys2Proof.Machine

/-! ## Values -/

/-- A 64-bit operation and its .W form, which computes on bits [31:0] and sign-extends (R277). -/
def wide (w : Bool) (f : Word → Word → Word) (g : BitVec 32 → BitVec 32 → BitVec 32) (a b : Word) : Word :=
  if w then (g (a.setWidth 32) (b.setWidth 32)).signExtend 64 else f a b

/-- A one-source operation and its .W form. -/
def wide1 (w : Bool) (f : Word → Word) (g : BitVec 32 → BitVec 32) (a : Word) : Word :=
  if w then (g (a.setWidth 32)).signExtend 64 else f a

/-- Shift amount in an operation of n bits: [5:0] or [4:0] of gb (R281). -/
def shamt (n : Nat) (b : BitVec n) : Nat := b.toNat % n

def sllN (n : Nat) (a b : BitVec n) : BitVec n := a <<< shamt n b
def srlN (n : Nat) (a b : BitVec n) : BitVec n := a >>> shamt n b
def sraN (n : Nat) (a b : BitVec n) : BitVec n := a.sshiftRight (shamt n b)
def rolN (n : Nat) (a b : BitVec n) : BitVec n := a.rotateLeft (shamt n b)
def rorN (n : Nat) (a b : BitVec n) : BitVec n := a.rotateRight (shamt n b)

/-- High half of the signed product (R283). -/
def mulhN (n : Nat) (a b : BitVec n) : BitVec n := BitVec.ofInt n (a.toInt * b.toInt / (2 ^ n : Nat))

/-- High half of the unsigned product (R283). -/
def mulhuN (n : Nat) (a b : BitVec n) : BitVec n := BitVec.ofNat n (a.toNat * b.toNat / 2 ^ n)

/-- Quotients and remainders of R284. -/
def divN (n : Nat) (x y : BitVec n) : BitVec n := if y = 0 then BitVec.allOnes n else x.sdiv y
def divuN (n : Nat) (x y : BitVec n) : BitVec n := if y = 0 then BitVec.allOnes n else x / y
def remN (n : Nat) (x y : BitVec n) : BitVec n := if y = 0 then x else x.srem y
def remuN (n : Nat) (x y : BitVec n) : BitVec n := if y = 0 then x else x % y

/-- Bit instructions of R285. -/
def clzN (n : Nat) (x : BitVec n) : BitVec n :=
  BitVec.ofNat n (n - (if x.toNat = 0 then 0 else Nat.log2 x.toNat + 1))
def ctzN (n : Nat) (x : BitVec n) : BitVec n :=
  BitVec.ofNat n (((List.range n).find? fun i => x.getLsbD i).getD n)
def popcN (n : Nat) (x : BitVec n) : BitVec n :=
  BitVec.ofNat n ((List.range n).filter fun i => x.getLsbD i).length
def brevN (n : Nat) (x : BitVec n) : BitVec n :=
  BitVec.ofNat n ((List.range n).foldl (fun r i => 2 * r + (if x.getLsbD i then 1 else 0)) 0)
def bswapN (n : Nat) (x : BitVec n) : BitVec n :=
  BitVec.ofNat n ((List.range (n / 8)).foldl (fun r i => 256 * r + x.toNat / 256 ^ i % 256) 0)

/-- Comparison results (R282). -/
def flag (b : Bool) : Word := if b then 1 else 0

/-- SEXT and ZEXT (R286). -/
def sextV (n : ExtWidth) (a : Word) : Word :=
  match n with
  | .b8 => (a.setWidth 8).signExtend 64
  | .b16 => (a.setWidth 16).signExtend 64
  | .b32 => (a.setWidth 32).signExtend 64
def zextV (n : ExtWidth) (a : Word) : Word :=
  match n with
  | .b8 => (a.setWidth 8).setWidth 64
  | .b16 => (a.setWidth 16).setWidth 64
  | .b32 => (a.setWidth 32).setWidth 64

/-- SHI (R288). -/
def shiV (k : ShiftKind) (n : BitVec 6) (a : Word) : Word :=
  match k with
  | .sll => sllN 64 a (n.setWidth 64)
  | .srl => srlN 64 a (n.setWidth 64)
  | .sra => sraN 64 a (n.setWidth 64)
  | .ror => rorN 64 a (n.setWidth 64)

/-- imm20 followed by twelve zeros, sign-extended (R289). -/
def upper (i : BitVec 20) : Word := (i ++ (0 : BitVec 12)).signExtend 64

/-! ## Shapes -/

/-- A short instruction of two sources. -/
def short2 (s : State) (sw : Bool) (d : Dst) (a b : Src) (f : Word → Word → Word) : Answer :=
  withThread s (s.gather2 a b d fun s x y => s.finish sw d (f x y))

/-- A short instruction of one source. -/
def short1 (s : State) (sw : Bool) (d : Dst) (a : Src) (f : Word → Word) : Answer :=
  withThread s (s.gather1 a d fun s x => s.finish sw d (f x))

/-- A long instruction of two sources whose result is fixed at issue. -/
def long2 (s : State) (sw : Bool) (d : Dst) (a b : Src) (f : Word → Word → Word) : Answer :=
  withThread s (s.long2 a b d fun s x y => s.finishLong sw d (Pending.ofVal (f x y) 0))

/-- A long instruction of one source. -/
def long1 (s : State) (sw : Bool) (d : Dst) (a : Src) (f : Word → Word) : Answer :=
  withThread s (s.long1 a d fun s x => s.finishLong sw d (Pending.ofVal (f x) 0))

/-! ## Register forms -/

def execAdd (o : R3w) (s : State) : Answer := short2 s o.sw o.d o.a o.b (wide o.w (· + ·) (· + ·))
def execSub (o : R3w) (s : State) : Answer := short2 s o.sw o.d o.a o.b (wide o.w (· - ·) (· - ·))
def execAnd (o : R3) (s : State) : Answer := short2 s o.sw o.d o.a o.b (· &&& ·)
def execOr (o : R3) (s : State) : Answer := short2 s o.sw o.d o.a o.b (· ||| ·)
def execXor (o : R3) (s : State) : Answer := short2 s o.sw o.d o.a o.b (· ^^^ ·)
def execAndn (o : R3) (s : State) : Answer := short2 s o.sw o.d o.a o.b fun a b => a &&& ~~~b
def execOrn (o : R3) (s : State) : Answer := short2 s o.sw o.d o.a o.b fun a b => a ||| ~~~b
def execXnor (o : R3) (s : State) : Answer := short2 s o.sw o.d o.a o.b fun a b => ~~~(a ^^^ b)
def execSll (o : R3w) (s : State) : Answer := short2 s o.sw o.d o.a o.b (wide o.w (sllN 64) (sllN 32))
def execSrl (o : R3w) (s : State) : Answer := short2 s o.sw o.d o.a o.b (wide o.w (srlN 64) (srlN 32))
def execSra (o : R3w) (s : State) : Answer := short2 s o.sw o.d o.a o.b (wide o.w (sraN 64) (sraN 32))
def execRol (o : R3w) (s : State) : Answer := short2 s o.sw o.d o.a o.b (wide o.w (rolN 64) (rolN 32))
def execRor (o : R3w) (s : State) : Answer := short2 s o.sw o.d o.a o.b (wide o.w (rorN 64) (rorN 32))
def execMin (o : R3) (s : State) : Answer := short2 s o.sw o.d o.a o.b fun a b => if a.slt b then a else b
def execMax (o : R3) (s : State) : Answer := short2 s o.sw o.d o.a o.b fun a b => if a.slt b then b else a
def execMinu (o : R3) (s : State) : Answer := short2 s o.sw o.d o.a o.b fun a b => if a.ult b then a else b
def execMaxu (o : R3) (s : State) : Answer := short2 s o.sw o.d o.a o.b fun a b => if a.ult b then b else a
def execSlt (o : R3) (s : State) : Answer := short2 s o.sw o.d o.a o.b fun a b => flag (a.slt b)
def execSltu (o : R3) (s : State) : Answer := short2 s o.sw o.d o.a o.b fun a b => flag (a.ult b)
def execSeq (o : R3) (s : State) : Answer := short2 s o.sw o.d o.a o.b fun a b => flag (a == b)
def execSne (o : R3) (s : State) : Answer := short2 s o.sw o.d o.a o.b fun a b => flag (a != b)
def execSelz (o : R3) (s : State) : Answer := short2 s o.sw o.d o.a o.b fun a b => if b = 0 then 0 else a
def execMul (o : R3w) (s : State) : Answer := long2 s o.sw o.d o.a o.b (wide o.w (· * ·) (· * ·))
def execMulh (o : R3w) (s : State) : Answer := long2 s o.sw o.d o.a o.b (wide o.w (mulhN 64) (mulhN 32))
def execMulhu (o : R3w) (s : State) : Answer := long2 s o.sw o.d o.a o.b (wide o.w (mulhuN 64) (mulhuN 32))
def execDiv (o : R3w) (s : State) : Answer := long2 s o.sw o.d o.a o.b (wide o.w (divN 64) (divN 32))
def execDivu (o : R3w) (s : State) : Answer := long2 s o.sw o.d o.a o.b (wide o.w (divuN 64) (divuN 32))
def execRem (o : R3w) (s : State) : Answer := long2 s o.sw o.d o.a o.b (wide o.w (remN 64) (remN 32))
def execRemu (o : R3w) (s : State) : Answer := long2 s o.sw o.d o.a o.b (wide o.w (remuN 64) (remuN 32))
def execClz (o : R2w) (s : State) : Answer := short1 s o.sw o.d o.a (wide1 o.w (clzN 64) (clzN 32))
def execCtz (o : R2w) (s : State) : Answer := short1 s o.sw o.d o.a (wide1 o.w (ctzN 64) (ctzN 32))
def execPopc (o : R2w) (s : State) : Answer := short1 s o.sw o.d o.a (wide1 o.w (popcN 64) (popcN 32))
def execBrev (o : R2w) (s : State) : Answer := short1 s o.sw o.d o.a (wide1 o.w (brevN 64) (brevN 32))
def execBswap (o : R2w) (s : State) : Answer := short1 s o.sw o.d o.a (wide1 o.w (bswapN 64) (bswapN 32))
def execSext (o : ExtOp) (s : State) : Answer := short1 s o.sw o.d o.a (sextV o.n)
def execZext (o : ExtOp) (s : State) : Answer := short1 s o.sw o.d o.a (zextV o.n)
def execLea (o : LeaOp) (s : State) : Answer := short2 s o.sw o.d o.a o.b fun a b => a + (b <<< o.sh.toNat)

/-! ## Immediate forms -/

def execAddi (o : I15) (s : State) : Answer := short1 s o.sw o.d o.a (· + sx15 o.imm)
def execAndi (o : I15) (s : State) : Answer := short1 s o.sw o.d o.a (· &&& sx15 o.imm)
def execOri (o : I15) (s : State) : Answer := short1 s o.sw o.d o.a (· ||| sx15 o.imm)
def execXori (o : I15) (s : State) : Answer := short1 s o.sw o.d o.a (· ^^^ sx15 o.imm)
def execShi (o : ShiOp) (s : State) : Answer := short1 s o.sw o.d o.a (shiV o.kind o.n)
def execSlti (o : I15) (s : State) : Answer := short1 s o.sw o.d o.a fun a => flag (a.slt (sx15 o.imm))
def execSltiu (o : I15) (s : State) : Answer := short1 s o.sw o.d o.a fun a => flag (a.ult (sx15 o.imm))
def execMuli (o : I15) (s : State) : Answer := long1 s o.sw o.d o.a (· * sx15 o.imm)
def execLui (o : U20) (s : State) : Answer := withThread s (s.gather [] o.d fun s _ => s.finish o.sw o.d (upper o.imm))
def execLhi (o : LhiOp) (s : State) : Answer := short1 s o.sw o.d.dst o.d.src (· + (sx20 o.imm <<< 32))
def execLpc (o : U20) (s : State) : Answer :=
  withThread s (s.gather [] o.d fun s _ => s.finish o.sw o.d (s.thr.pc + upper o.imm))

/-- LEAP (R290): a place offset resolved, then the slot's address plus the byte offset. -/
def execLeap (o : LeapOp) (s : State) : Answer :=
  withThread s (s.gather1 o.a o.d fun s1 x =>
    match s1.resolvePlace o.p.toNat with
    | none => s.trap (cause cPLACE (o.p.setWidth 64))
    | some c => s1.finish o.sw o.d (BitVec.ofNat 64 (scratchKey c 0) + x))

end Sys2Proof.Machine
end

