-- ==== Sys2Proof/Machine/Translate.lean ====
section
/-! DEFINITION. Translation and protection (R25-R28, R117-R122), and the checks every access passes (R308, R309). -/

namespace Sys2Proof.Machine

/-- What an access asks of a page (R119). -/
inductive XKind where
  | fetch | load | store | const
deriving DecidableEq, Repr

/-- A translation: the leaf, the page's base and size, where the leaf stands, the entries the walk read (none on a
TLB hit), and whether the core's own TLB held it. -/
structure Xlate where
  leaf : Nat
  base : Nat
  size : Nat
  at_ : Nat
  walked : List Nat
  l1 : Bool
deriving DecidableEq, Repr

/-! ## The table walk -/

/-- Index of a virtual address at a level (R117). -/
def levelIndex (l va : Nat) : Nat :=
  match l with
  | 3 => bits va 39 17
  | 2 => bits va 30 9
  | 1 => bits va 21 9
  | _ => bits va 16 5

/-- Page size of a leaf at a level (R117). -/
def pageSize (l : Nat) : Nat :=
  match l with
  | 2 => 0x40000000
  | 1 => 0x200000
  | _ => 0x10000

/-- Walk from level l (R117-R119): an entry is checked as it is read. -/
def walk (bs : List Host.Cell) (va : Nat) : Nat → Nat → List Nat → Except Nat Xlate
  | l, table, seen =>
    let at_ := table + 8 * levelIndex l va
    let e := readBytes bs at_ 8
    if e % 2 = 0 then .error cPAGE
    else if bits e 12 4 ≠ 0 || bits e 52 12 ≠ 0 || bits e 8 2 = 3 then .error cPROT
    else
      let leaf := bits e 1 1 = 1
      let pa := bits e 16 36 * 0x10000
      match l with
      | 0 => if leaf then .ok ⟨e, va / pageSize 0 * pageSize 0, pageSize 0, at_, at_ :: seen, false⟩ else .error cPROT
      | l + 1 =>
        if leaf then
          if l + 1 = 3 || pa % pageSize (l + 1) ≠ 0 then .error cPROT
          else .ok ⟨e, va / pageSize (l + 1) * pageSize (l + 1), pageSize (l + 1), at_, at_ :: seen, false⟩
        else walk bs va l pa (at_ :: seen)

/-- Which table serves a thread (R117): TTBASESV, written none, in supervisor mode, its tenant's in launch mode. A thread of no
launch in launch mode has none: 16 names no tenant (R25; DEDUCED, log 62). -/
def State.tableOf (s : State) (t : Thread) : Option Nat := if t.sup then none else some ((s.tenantOf t.launch).getD 16)

/-- Root of a table, as a core's registers hold it. -/
def State.rootOf (s : State) (core : Nat) : Option Nat → Nat
  | none => bits (s.coreReg core 0x105).toNat 16 36 * 0x10000
  | some n => if n < 16 then bits (s.coreReg core (0x110 + n)).toNat 16 36 * 0x10000 else 0

/-- An entry of the TLBs that maps an address (R120). -/
def tlbFind (l : List TlbEntry) (ctx : Option Nat) (va : Nat) : Option TlbEntry :=
  l.find? fun e => e.tenant == ctx && e.base ≤ va && va < e.base + e.size

/-- A walk of the table of a context: without a table every address is invalid (R25, R119). -/
def State.walkOf (s : State) (core : Nat) (ctx : Option Nat) (va : Nat) : Except Nat Xlate :=
  if ctx.any fun n => decide (16 ≤ n) then .error cPAGE else walk s.mem.bytes va 3 (s.rootOf core ctx) []

/-- The TLB of the core, then that of its cluster, then a walk (R120). -/
def State.lookup (s : State) (core : Nat) (ctx : Option Nat) (va : Nat) : Except Nat Xlate :=
  match tlbFind (s.coreOf core).tlb ctx va with
  | some e => .ok ⟨e.leaf, e.base, e.size, e.at_, [], true⟩
  | none =>
    match tlbFind (s.clusterAt (clusterOf core)).tlb ctx va with
    | some e => .ok ⟨e.leaf, e.base, e.size, e.at_, [], false⟩
    | none => s.walkOf core ctx va

/-- Does a TLB of the core or its cluster map an address (R120)? -/
def State.mapped (s : State) (core : Nat) (ctx : Option Nat) (va : Nat) : Bool :=
  (tlbFind (s.coreOf core).tlb ctx va).isSome || (tlbFind (s.clusterAt (clusterOf core)).tlb ctx va).isSome

/-- Protection of a page (R119): U is asked of launch mode. -/
def pageOk (leaf : Nat) (kind : XKind) (launchMode : Bool) : Bool :=
  let bit (i : Nat) : Bool := leaf / 2 ^ i % 2 == 1
  (match kind with
    | .fetch => bit 3
    | .load => true
    | .store => bit 2 && !bit 4
    | .const => bit 4) && (!launchMode || bit 5)

/-- Does an extent of a port hold an address (R167, R219)? -/
def Port.holds (p : Port) (pa : Nat) : Bool := p.extents.any fun x => decide (x.1 ≤ pa) && decide (pa < x.1 + x.2)

/-- CXL port that reaches a physical address: that of its own range, or the one of those that reach the fabric range whose
extent holds it (R219). -/
def State.portOf (s : State) (pa : Nat) : Option Nat :=
  if pa < 0xC000000000000 then some ((pa - 0x8000000000000) / 0x1000000000000)
  else (List.finRange 4).findSome? fun p =>
    if s.links.ports[p].up && s.links.ports[p].fabric && s.links.ports[p].holds pa then some p.1 else none

/-- Is an address listed in its port's poison list (R167)? -/
def State.portPoison (s : State) (pa : Nat) : Bool :=
  0x8000000000000 ≤ pa && pa < 0xF000000000000 &&
    s.links.ports.toList.any fun p => p.plist.any fun x => x.1 ≤ pa && pa < x.1 + x.2

/-- The place of a physical address, or the refusal of R28: PROT, or UCE for a listed CXL address. -/
def State.placePa (s : State) (pa : Nat) : Except Nat Place :=
  if pa < 0x1000000000000 then (if pa < s.caps.cap then .ok .hbm else .error cPROT)
  else if pa < 0x8000000000000 then .ok .host
  else if pa < 0xF000000000000 then
    if s.portPoison pa then .error cUCE
    else match s.portOf pa with
      | some p =>
        if h : p < 4 then
          if (s.links.ports[p]'h).holds pa then .ok (.cxl p) else .error cPROT
        else .error cPROT
      | none => .error cPROT
  else if pa < 0xF800000000000 then .error cPROT
  else
    let n := (pa - 0xF800000000000) / 0x100000000000
    let off := (pa - 0xF800000000000) % 0x100000000000
    let linked := s.links.peers.toList.any fun l => l.trained && l.node == n
    if n = s.links.node || !linked then .error cPROT
    else if off < 0x10000000000 then .ok (.peer n)
    else if off < 0x10000000000 + 2048 * 0x100000 && off % 0x100000 < 0x80000 then .ok (.peer n)
    else .error cPROT

/-- Translate (R276) for a thread on a core: the translation, the physical address and its place, or the cause. -/
def State.translate (s : State) (t : Thread) (va : Nat) (kind : XKind) : Except Nat (Xlate × Nat × Place) :=
  match s.lookup t.core (s.tableOf t) va with
  | .error c => .error c
  | .ok x =>
    if !pageOk x.leaf kind (!t.sup) then .error cPROT
    else
      let pa := bits x.leaf 16 36 * 0x10000 / x.size * x.size + va % x.size
      match s.placePa pa with
      | .error c => .error c
      | .ok p => .ok (x, pa, p)

/-- Set a bit of a table entry in memory (R118). -/
def orEntry (bs : List Host.Cell) (at_ bit : Nat) : List Host.Cell :=
  writeBytes bs at_ 8 (readBytes bs at_ 8 ||| bit)

/-- A TLB with an entry put first (R120, log 11). The entries of a set, `ways` of them at most, are those that `set` gives one
number. -/
def tlbPut (l : List TlbEntry) (e : TlbEntry) (set : TlbEntry → Nat) (ways : Nat) : List TlbEntry :=
  let rest := l.filter fun x => !(x.tenant == e.tenant && x.base == e.base && x.size == e.size)
  let mates := (rest.filter fun x => set x == set e).take (ways - 1)
  e :: rest.filter fun x => set x != set e || mates.contains x

/-- The set of an entry in the 512 sets of 8 ways of a cluster's TLB (R120; which set a page has: DESIGN CHOICE, log 11). -/
def tlbSet (e : TlbEntry) : Nat := e.base / e.size % 512

/-- What a translation leaves but for its counts: A of the entries read, D on a store, and the TLBs filled (R118, R120). -/
def State.fillTlb (s : State) (core : Nat) (ctx : Option Nat) (x : Xlate) (store : Bool) : State :=
  let bs1 := x.walked.foldl (fun b a => orEntry b a 1024) s.mem.bytes
  let needD := store && bits x.leaf 11 1 = 0
  let bs2 := if needD then orEntry bs1 x.at_ 2048 else bs1
  let e : TlbEntry := ⟨ctx, x.base, x.size, x.leaf ||| (if store then 2048 else 0), x.at_⟩
  if x.l1 && !needD then s
  else
    let s1 := { s with mem := { s.mem with bytes := bs2 } }.modCore core fun c => { c with tlb := tlbPut c.tlb e (fun _ => 0) 64 }
    if x.walked.isEmpty && !needD then s1
    else s1.modCluster (clusterOf core) fun c => { c with tlb := tlbPut c.tlb e tlbSet 8 }

/-- What a translation leaves, its misses counted (R235). -/
def State.touch (s : State) (core : Nat) (ctx : Option Nat) (x : Xlate) (store : Bool) (launch : Nat) : State :=
  let s1 := if x.l1 then s else s.countCore core 0x016 launch
  let s2 := if x.walked.isEmpty then s1 else s1.countCluster (clusterOf core) 0x108 launch
  s2.fillTlb core ctx x store

/-- Set A and D of the entries of a walk that no TLB keeps: one of the launcher, the spill engine or the deque unit (R71,
R118). -/
def State.markWalk (s : State) (x : Xlate) (store : Bool) : State :=
  let bs1 := x.walked.foldl (fun b a => orEntry b a 1024) s.mem.bytes
  { s with mem := { s.mem with bytes := if store then orEntry bs1 x.at_ 2048 else bs1 } }

/-! ## Device windows -/

/-- Canonical: bits [63:57] equal bit 56 (R25). -/
def canonical (va : Nat) : Bool := va < 2 ^ 56 || 2 ^ 64 - 2 ^ 56 ≤ va

/-- A canonical user multiple of 4 (R72, R358). -/
def userPc (va : Nat) : Bool := va < 2 ^ 56 && va % 4 == 0

/-- Does an address lie in a device window (R26)? -/
def inWindow (va : Nat) : Bool :=
  (localBase ≤ va && va < localBase + 32 * 0x80000) || (scratchBase ≤ va && va < scratchBase + 2048 * 0x100000) ||
    (weightBase ≤ va && va < weightBase + 8 * 0x40000000)

/-- Is a format window present (R89, R180)? Window 0 always is. -/
def windowPresent (w : Nat) : Bool := w ≤ 22 || w == 24

/-- Element spacing of a window (R89). -/
def spacing (w : Nat) : Nat := if w = 0 then 1 else if w = 1 then 8 else 4

/-- Bit offset in the scratchpad of element e of format w, and of the scale of its block (R89, R173-R176). -/
def elemBit (w e : Nat) : Nat :=
  if isBlock w then (e / blockElems w) * recordBytes w * 8 + (e % blockElems w) * elemBits w else e * elemBits w

def scaleByte (w e : Nat) : Nat := (e / blockElems w) * recordBytes w + scaleAt w

/-- Elements a window reaches: offsets below 512 KiB (R89). -/
def windowReach (w : Nat) : Nat := 0x80000 / spacing w

/-- Does a launch run on a core of a die (R100)? -/
def State.dieRuns (s : State) (d : Nat) : Bool :=
  s.launcher.list.any fun l => l.runs && (s.rectCores l.info).any fun c => dieOf c == d

/-- Tenant of a scratchpad or weight slot against that of a thread: refused when another tenant's (R88, R100). -/
def tenantOk (owner mine : Option Nat) : Bool :=
  match owner, mine with
  | some a, some b => a == b
  | _, _ => true

/-- What an access is, for steps 2, 4 and 5 of R309. -/
structure Acc where
  width : Nat
  kind : XKind
  /-- Windows of LOCALSCRATCH it accepts. -/
  window : Nat → Bool
  /-- It reaches the weight store. -/
  weight : Bool
  /-- It reaches device windows at all, global scratchpad slots and window 0. -/
  scratch : Bool
  /-- It reaches memory. -/
  memory : Bool
  /-- An STF or STEF: it reaches the scratchpad slots of a peer, though it reaches no memory (R222). -/
  peers : Bool

/-- The W bit of a trap of the access (R309). -/
def Acc.w (a : Acc) : Bool := match a.kind with
  | .store => true
  | _ => false

/-- Does an address of a peer aperture lie in the scratchpad slots of that node (R222)? -/
def peerSlot (pa : Nat) : Bool := 0xF800000000000 ≤ pa && 0x10000000000 ≤ (pa - 0xF800000000000) % 0x100000000000

/-- R309 steps 1 to 5 for thread `t` at address `a`: the place, with the translation where there was one. -/
def State.access (s : State) (t : Thread) (a : Word) (acc : Acc) : Except TrapInfo (Loc × Option Xlate) :=
  let va := a.toNat
  let bad (c : Nat) : Except TrapInfo (Loc × Option Xlate) := .error ⟨c, acc.w, false, a⟩
  let mine := s.tenantOf t.launch
  if !canonical va || (!t.sup && 2 ^ 56 ≤ va && !inWindow va) then bad cPROT
  else if va % acc.width ≠ 0 then bad cALIGN
  else if localBase ≤ va && va < localBase + 32 * 0x80000 then
    let w := (va - localBase) / 0x80000
    let off := (va - localBase) % 0x80000
    if !acc.scratch || !windowPresent w || !acc.window w || !tenantOk (s.coreOf t.core).spOwner mine then bad cPROT
    else
      let e := off / spacing w
      let key := if w = 0 then off else if w = 1 then e * 8 else elemBit w e / 8 / 8 * 8
      .ok (⟨scratchKey t.core key, .scratch t.core w, 0, a, e, 0⟩, none)
  else if scratchBase ≤ va && va < scratchBase + 2048 * 0x100000 then
    let c := (va - scratchBase) / 0x100000
    let off := (va - scratchBase) % 0x100000
    if !s.enabled c then bad cPLACE
    else if 0x80000 ≤ off || !acc.scratch || !acc.window 0 || !tenantOk (s.coreOf c).spOwner mine then bad cPROT
    else .ok (⟨va, .scratch c 0, 0, a, 0, 0⟩, none)
  else if weightBase ≤ va && va < weightBase + 8 * 0x40000000 then
    let d := (va - weightBase) / 0x40000000
    let off := (va - weightBase) % 0x40000000
    let owner := (s.weight.find? fun x => x.1 == d).map fun x => x.2
    if s.pkg.dies ≤ d then bad cPLACE
    else if 0x30000000 ≤ off || !acc.weight then bad cPROT
    else if acc.w && (!t.sup || s.dieRuns d) then bad cPROT
    else if !acc.w && !t.sup && !tenantOk owner mine then bad cPROT
    else .ok (⟨va, .weight d, 0, a, 0, 0⟩, none)
  else if !acc.memory then
    -- STF and STEF reach the scratchpad slots of a peer, and no other place that a page maps (R222, R318)
    match s.translate t va acc.kind with
    | .ok (x, pa, .peer n) =>
      if acc.peers && peerSlot pa then .ok (⟨pa, .peer n, if bits x.leaf 6 2 = 3 then 3 else 2, a, 0, 0⟩, some x) else bad cPROT
    | _ => bad cPROT
  else
    match s.translate t va acc.kind with
    | .error c => bad c
    | .ok (x, pa, p) =>
        let pol := bits x.leaf 6 2
        let pol := match p with
          | .peer _ => if pol = 3 then 3 else 2
          | _ => pol
        .ok (⟨pa, p, pol, a, 0, bits x.leaf 8 2⟩, some x)

/-- Step 6: the watch check of R337, for a launch-mode access of the watched kind on the issuing core. -/
def State.watched (s : State) (a : Word) (rd wr : Bool) : Bool :=
  let w := s.core.watch
  !s.thr.sup && s.thr.skipWatch != some s.thr.pc && a.toNat / 64 == w.toNat / 64 &&
    ((rd && w.getLsbD 0) || (wr && w.getLsbD 1))

/-! ## Page walks asked for (R57, R120) -/

/-- Does an access that R309 sends to translation find its page in no TLB of its thread, whose walk for it has not just ended? -/
def State.mustWalk (s : State) (t : Thread) (a : Word) (width : Nat) : Bool :=
  let va := a.toNat
  canonical va && (t.sup || decide (va < 2 ^ 56)) && !inWindow va && va % width == 0
    && !s.mapped t.core (s.tableOf t) va && t.walked != some (va / 0x10000)

/-- The key of the wait for a page's walk. -/
def walkKey (va : Nat) : Nat := 2 ^ 32 + va / 0x10000

/-- Does the page that a walk finds for an address hold another address (R120)? A walk that fails concerns its own 64 KiB. -/
def State.samePage (s : State) (core : Nat) (ctx : Option Nat) (va vb : Nat) : Bool :=
  match s.walkOf core ctx va with
  | .ok x => decide (x.base ≤ vb) && decide (vb < x.base + x.size)
  | .error _ => va / 0x10000 == vb / 0x10000

/-- The walk that serves a miss: one that the cluster waits for already is shared (R120). -/
def State.walkFor (s : State) (core : Nat) (ctx : Option Nat) (va : Nat) : WalkReq :=
  (s.walks.find? fun w => w.cluster == clusterOf core && w.ctx == ctx && s.samePage core ctx va w.va).getD
    ⟨clusterOf core, ctx, va / 0x10000 * 0x10000⟩

/-- A walk asked for (R120). -/
def State.askWalk (s : State) (core : Nat) (ctx : Option Nat) (va : Nat) : State :=
  let w := s.walkFor core ctx va
  if s.walks.contains w then s else { s with walks := s.walks ++ [w] }

/-- The thread of a copy, in the mode the copy was issued in (R399). -/
def State.copyThread (s : State) (core : Nat) (o : CopyOp) : Thread :=
  let t := (s.threadAt core o.frame).getD Thread.absent
  { t with core := core, launch := o.launch, st := setField t.st 0 2 (if o.sup then 1 else 0), walked := o.walked }

/-- Is the walk that a thread waits for not yet ended? -/
def State.walking (s : State) (t : Thread) (key : Nat) : Bool :=
  s.walks.any fun w => w.cluster == clusterOf t.core && w.ctx == s.tableOf t && walkKey w.va == key

/-- The issuing thread parks at its instruction until the walk of an address's page has ended (R57). -/
def State.parkWalk (s : State) (a : Word) : State :=
  let w := s.walkFor s.core.id (s.tableOf s.thr) a.toNat
  (s.askWalk s.core.id (s.tableOf s.thr) a.toNat).parkOn 0 0 (walkKey w.va)

/-- An access checked for the issuing thread (R309), then `k` with the place in the state that the translation leaves;
a trap is taken from `s0`. An access behind an acquire waits for it (R129 (d)), and one to the scratchpad of a core in reset does not issue (R210). -/
def State.withAccess (s0 s : State) (a : Word) (acc : Acc) (rd wr : Bool) (k : State → Loc → State) : State :=
  if (acc.memory || acc.peers) && s.mustWalk s.thr a acc.width then s0.parkWalk a else
  match s.access s.thr a acc with
  | .error ti => s0.trap ti
  | .ok (loc, x) =>
    let held := match loc.place with
      | .scratch c _ => c != s.core.id && (s.coreOf c).reset.isSome
      | _ => false
    if s.watched a rd wr then s0.trap ⟨cWATCH, wr, false, a⟩
    else if s.behindAcquire s.thr (wr || !rd) then s0.parkBehind
    else if held then s0.parkOn 0 0 (1000 + (loc.key - scratchBase) / 0x100000)
    else
      let s1 := s.modThr Thread.pass
      match x with
      | none => k s1 loc
      | some x => k (s1.touch s1.core.id (s1.tableOf s1.thr) x acc.w s1.thr.launch) loc

/-- The fetch of a thread at its pc (R274 step 1): the word, or the trap. A device window holds no code (log 10). -/
def State.fetch (s : State) (t : Thread) : Except TrapInfo (BitVec 32 × Xlate) :=
  let va := t.pc.toNat
  let bad (c : Nat) : Except TrapInfo (BitVec 32 × Xlate) := .error ⟨c, false, true, t.pc⟩
  if !canonical va || (!t.sup && 2 ^ 56 ≤ va) || inWindow va then bad cPROT
  else match s.translate t va .fetch with
    | .error c => bad c
    | .ok (x, pa, _) => .ok (BitVec.ofNat 32 (readBytes s.mem.bytes pa 4), x)

end Sys2Proof.Machine
end

