-- ==== Sys2Proof/Machine/Coherence.lean ====
section
/-! DEFINITION. Lines in L1 and L2 and the seam directory (R95, R98, R147-R166). Values live in one coherent memory
(log 6); these structures decide who holds which line, what a request changes, and when a reservation is lost. -/

namespace Sys2Proof.Machine

/-! ## Reservations (R140) -/

/-- Every reservation on a line that `p` picks is lost. -/
def State.loseResv (s : State) (line : Nat) (p : Thread → Bool) : State :=
  s.modThreads (fun t => ((t.resv.map fun r => r.line == line).getD false) && p t) fun t => { t with resv := none }

/-! ## L1 and L2 -/

/-- The slice of a die that holds a line (R98). -/
def l2Cluster (die line : Nat) : Nat :=
  die * 16 + (bits line 0 4 ^^^ bits line 4 4 ^^^ bits line 8 4 ^^^ bits line 12 4)

/-- The set of a line among the 8,192 sets of 16 ways of its slice (R98; which set: DESIGN CHOICE, log 11). -/
def l2Set (line : Nat) : Nat := line / 16 % 8192

/-- The permission a list of lines holds one with. -/
def findLine (l : List L1Line) (line : Nat) : Option Perm := (l.find? fun x => x.line == line).map fun x => x.perm

def Core.l1Find (c : Core) (line : Nat) : Option Perm := findLine c.l1 line

/-- The permission with which the L2 of a die holds a line (R98). -/
def State.l2Find (s : State) (die line : Nat) : Option Perm := findLine (s.clusterAt (l2Cluster die line)).l2 line

/-- Is a permission one of a line that differs from its home (R147)? -/
def Perm.dirty : Perm → Bool
  | .m => true
  | .o => true
  | _ => false

/-- The stronger of two permissions: M > O > E > S (R147). -/
def Perm.max : Perm → Perm → Perm
  | .m, _ => .m
  | _, .m => .m
  | .o, _ => .o
  | _, .o => .o
  | .e, _ => .e
  | _, .e => .e
  | .s, .s => .s

/-- Cores of a die that have been touched. -/
def State.dieCores (s : State) (die : Nat) : List Core := s.allCores.filter fun c => dieOf c.id == die

/-- Does a die hold a line in any array (R147)? -/
def State.dieHolds (s : State) (die line : Nat) : Bool :=
  (s.dieCores die).any (fun c => (c.l1Find line).isSome) || (s.l2Find die line).isSome

/-- Does a die hold a line dirty (R154)? -/
def State.dieDirty (s : State) (die line : Nat) : Bool :=
  (s.dieCores die).any (fun c => (c.l1Find line).any Perm.dirty) || (s.l2Find die line).any Perm.dirty

/-- A line invalidated in every array of a die; reservations held through its L1s are lost (R140). -/
def State.invalDie (s : State) (die line : Nat) : State :=
  let inL1 (t : Thread) : Bool := dieOf t.core == die && ((s.coreOf t.core).l1Find line).isSome
  let s1 := s.loseResv line inL1
  let drop (c : Core) : Core := if dieOf c.id = die then { c with l1 := c.l1.filter fun x => x.line != line } else c
  let dropL2 (k : Cluster) : Cluster := if k.id / 16 = die then { k with l2 := k.l2.filter fun x => x.line != line } else k
  { s1.modCores drop with clusters := s1.clusters.map dropL2 }

/-- A copy brought down to a shared one; a dirty one keeps O when `keepO` (R154). -/
def L1Line.down (keepO : Bool) (x : L1Line) : L1Line := { x with perm := if keepO && x.perm.dirty then .o else .s }

/-- Every copy of a die brought down to a shared one (R154). -/
def State.downDie (s : State) (die line : Nat) (keepO : Bool) : State :=
  let f (x : L1Line) : L1Line := if x.line = line then x.down keepO else x
  let downL2 (k : Cluster) : Cluster := if k.id / 16 = die then { k with l2 := k.l2.map f } else k
  { s.modCores (fun c => if dieOf c.id = die then { c with l1 := c.l1.map f } else c) with
    clusters := s.clusters.map downL2 }

/-! ## Below the coherence point: MSC (R103, R104) and far-memory combining buffer (R166) -/

def State.modSeam (s : State) (f : Seam → Seam) : State := { s with seam := f s.seam }

/-- The bits of n bytes from an offset on. -/
def byteMask (w off n : Nat) : BitVec w := BitVec.ofNat w ((2 ^ n - 1) * 2 ^ off)

/-- A block put first among those of the MSC by an access of a launch; its slice holds 2,048 blocks, and the least recently used goes, to DRAM
as a whole block where it is dirty (R78, R103, R106). -/
def State.mscPut (s : State) (b : MscBlock) (launch : Nat) : State :=
  let ch := channelOf s.pkg (b.block * 512)
  let rest := s.msc.filter fun x => x.block != b.block
  let mates := (rest.filter fun x => channelOf s.pkg (x.block * 512) == ch).take 2047
  let kept := rest.filter fun x => channelOf s.pkg (x.block * 512) != ch || mates.contains x
  let out := rest.filter fun x => x.dirty != 0 && !kept.contains x
  -- a whole block written over an uncorrectable one; the 8S holds no more of a block than its writes
  let ecc := if s.pkg == .t2s then s.ecc.filter fun l => !out.any fun x => x.block == l / 8 else s.ecc
  { s with msc := b :: kept, ecc := ecc }.countDram launch (512 * out.length)

/-- A read of a line of device HBM at its channel, with its page's hint (R103, R104): where the slice does not serve it whole,
DRAM bytes are counted for the launch (R78). The 2S allocates what it reads, the 8S only on the hint. -/
def State.mscRead (s : State) (line hint launch : Nat) : State :=
  let blk := line * 64 / 512
  match s.msc.find? fun x => x.block == blk with
  | some b =>
    let s1 := s.mscPut b launch
    if s.pkg == .t8s && b.dirty &&& byteMask 512 (line * 64 % 512) 64 != byteMask 512 (line * 64 % 512) 64 then s1.countDram launch 64
    else s1
  | none =>
    let s1 := s.countDram launch 64
    if hint = 1 || (hint = 0 && s.pkg == .t2s) then s1.mscPut ⟨blk, 0⟩ launch else s1

/-- A write of n bytes to device HBM at its channel (R103, R104): absorbed by the slice, which on the 8S passes a block on as it
fills, and keeps none that its page's hint lets bypass; what goes to DRAM counts for the launch that wrote (R78), none for a write-back. A
line written whole takes the new data, whatever the ECC space holds of it (R106). -/
def State.mscWrite (s : State) (pa n hint launch : Nat) : State :=
  let blk := pa / 512
  let old : BitVec 512 := ((s.msc.find? fun x => x.block == blk).map fun x => x.dirty).getD 0
  let now := old ||| byteMask 512 (pa % 512) n
  let s1 : State := { s with ecc := s.ecc.filter fun l => !(decide (pa ≤ l * 64) && decide (l * 64 + 64 ≤ pa + n)) }
  if hint = 2 || (s.pkg == .t8s && now == BitVec.allOnes 512) then
    { s1 with msc := s.msc.filter fun x => x.block != blk }.countDram launch 512
  else s1.mscPut ⟨blk, now⟩ launch

/-- Does a cache or an MSC slice hold a line's data, so that no read of it goes to DRAM (R104)? -/
def State.aboveDram (s : State) (line : Nat) : Bool :=
  let mask := byteMask 512 (line * 64 % 512) 64
  ((List.range 8).any fun d => s.dieHolds d line) ||
    s.msc.any fun b => b.block == line / 8 && (s.pkg == .t2s || b.dirty &&& mask == mask)

/-- Lines that the ECC space holds poisoned read so once nothing above DRAM holds their data (R106). -/
def State.settleEcc (s : State) : State :=
  let gone := s.ecc.filter fun l => !s.aboveDram l
  { s with ecc := s.ecc.filter s.aboveDram, mem := gone.foldl (fun m l => m.setPoison (l * 64) true) s.mem }

/-- All lines of an uncorrectable block poisoned in the ECC space (R106): one whose data a cache or an MSC slice holds reads so when the last
copy has gone unwritten. -/
def State.poisonBlock (s : State) (block : Nat) : State :=
  let lines := (List.range 8).map fun i => block * 8 + i
  ({ s with ecc := lines ++ s.ecc.filter fun l => !lines.contains l } : State).settleEcc.countUe

/-- The set of a line among the 64 sets of 8 ways of its slice's combining buffer (which set: DESIGN CHOICE, log 46). -/
def combSet (line : Nat) : Nat := bits (line * 64) 12 6

/-- Slice of a line (R151), as 32 × seam + slice, and its set. -/
def dirSlice (line : Nat) : Nat :=
  let pa := line * 64
  (bits pa 6 1 ^^^ bits pa 17 1 ^^^ bits pa 28 1) * 32 + (bits pa 7 5 ^^^ bits pa 18 5 ^^^ bits pa 29 5)

def dirSet (line : Nat) : Nat := bits (line * 64) 12 13 ^^^ bits (line * 64) 25 13

/-! ## CXL ports (R167, R219, R220) -/

/-- Change a port. -/
def State.modPort (s : State) (p : Nat) (f : Port → Port) : State :=
  { s with
    links := { s.links with ports := if h : p < 4 then s.links.ports.set p (f s.links.ports[p]) else s.links.ports }
    caps := { s.caps with genCxl := bumpGen s.caps.genCxl } }

def State.port (s : State) (p : Nat) : Port := s.links.ports.toList.getD p Port.reset

/-- Extents without a range. -/
def cutRange (l : List (Nat × Nat)) (base size : Nat) : List (Nat × Nat) :=
  l.flatMap fun x =>
    let a := if x.1 < base then [(x.1, min x.2 (base - x.1))] else []
    let b := if base + size < x.1 + x.2 then [(max x.1 (base + size), x.1 + x.2 - max x.1 (base + size))] else []
    if x.1 + x.2 ≤ base || base + size ≤ x.1 then [x] else a ++ b

/-- A listed address is written whole, once it is backed again: it leaves the poison list (R167). -/
def State.unlist (s : State) (line : Nat) : State :=
  match s.links.ports.toList.findIdx? fun p => p.holds (line * 64) && p.plist.any fun x => x.1 ≤ line * 64 && line * 64 < x.1 + x.2 with
  | some p => s.modPort p fun q => { q with plist := cutRange q.plist (line * 64) 64 }
  | none => s

/-- Is a line one of an expander's memory, below the fabric range (R166)? -/
def farLine (line : Nat) : Bool := decide (0x8000000000000 ≤ line * 64) && decide (line * 64 < 0xC000000000000)

/-- A write of n bytes to expander memory below its caches (R166): the entry of its line takes it; one that is whole drains, and
so does the least recently used of a set that has no room. -/
def State.combine (s : State) (pa n : Nat) : State :=
  let line := pa / 64
  if farLine line then
    s.modSeam fun x =>
      let old := x.comb.find? fun c => c.line == line
      let rest := x.comb.filter fun c => c.line != line
      let same (c : Comb) : Bool := dirSlice c.line == dirSlice line && combSet c.line == combSet line
      let mates := (rest.filter same).take 7
      let kept := rest.filter fun c => !same c || mates.contains c
      let mask := ((old.map fun c => c.mask).getD 0) ||| byteMask 64 (pa % 64) n
      if mask == BitVec.allOnes 64 then { x with comb := rest }
      else { x with comb := ⟨line, (old.map fun c => c.since).getD s.cc, mask⟩ :: kept }
  else s

/-- A write of n bytes that leaves the package's caches, or is made below them, with its policy and hint (R122): DEV writes pass
the MSC and the combining buffer by. -/
def State.writeBelow (s : State) (pa n pol hint launch : Nat) : State :=
  if pol = 3 then s
  else if pa < 0x1000000000000 then s.mscWrite pa n hint launch
  else s.combine pa n

/-- The dirty data of a line leaves the caches (R154, R158). -/
def State.writeBack (s : State) (line : Nat) : State := s.writeBelow (line * 64) 64 0 0 0

/-! ## The directory -/

def State.dirOf (s : State) (line : Nat) : Option DirEntry := s.seam.dir.find? fun e => e.line == line

/-- Store a directory entry, or remove it when no agent holds the line: the export bit follows (R152, R154). -/
def State.putDir (s : State) (e : DirEntry) : State :=
  s.modSeam fun m => { m with
    dir := { e with lru := m.tick } :: m.dir.filter fun x => x.line != e.line
    tick := m.tick + 1 }

def State.delDir (s : State) (line : Nat) : State :=
  s.modSeam fun m => { m with dir := m.dir.filter fun x => x.line != line }

/-- The number of an agent under R147: a channel agent that obtains a line as its home die's agent (R150) goes under that number plus 16. -/
def agentNo (a : Nat) : Nat := a % 16

/-- The agent of a die, the host or a port as a sharer bit (R147). -/
def agentBit (a : Nat) : BitVec 13 := BitVec.ofNat 13 (2 ^ a)

def CReq.code : CReq → Nat
  | .rds => 0
  | .rdx => 1
  | .upg => 2
  | .wb _ => 3
  | .evc => 4

/-- Does a request ask for a copy? -/
def CReq.asks : CReq → Bool
  | .wb _ => false
  | .evc => false
  | _ => true

/-- The snoops with which R154 serves a request of agent `a`: each with its agent and whether it invalidates. -/
def DirEntry.snoopsFor (e : DirEntry) (a : Nat) (r : CReq) : List (Nat × Bool) :=
  let own := e.st != .s && e.owner != a
  match r with
  | .rds => if own then [(e.owner, false)] else []
  | .wb _ => []
  | .evc => []
  | _ => (if own then [(e.owner, true)] else []) ++
      ((List.range 13).filter fun b => b != a && e.sharers.getLsbD b && !(own && b == e.owner)).map fun b => (b, true)

/-- Has an entry a holder? -/
def DirEntry.held (e : DirEntry) : Bool := e.st != .s || e.sharers != 0

/-- The entry of a line after a request of agent `a` under R154, its snoops answered; none when no holder is left. The spec leaves open,
and the model fixes (DESIGN CHOICE, log 63): the first export of a line leaves the copies of its home die as they are; a WB that raced
with an RdS snoop, after which its sender still owns the line in O, is applied as a WB of the owner. -/
def dirAfter (e : Option DirEntry) (line a : Nat) (r : CReq) : Option DirEntry :=
  let q := (e.map fun e => e.queue).getD []
  let fresh (st : DState) : DirEntry := ⟨line, st, a, 0, false, false, q, 0, none⟩
  match e.filter DirEntry.held, r with
  | none, .rds => some (fresh .e)
  | none, .wb _ => none
  | none, .evc => none
  | none, _ => some (fresh .m)
  | some e, .rds => some (if e.st != .s && e.owner == a then e else { e with sharers := e.sharers ||| agentBit a })
  | some e, .wb _ =>
    if e.st != .s && e.owner == a then (if e.sharers = 0 then none else some { e with st := .s, owner := 0 }) else some e
  | some e, .evc =>
    if e.st != .s && e.owner == a then some e
    else
      let e1 := { e with sharers := e.sharers &&& ~~~(agentBit a) }
      if e1.held then some e1 else none
  | some _, _ => some (fresh .m)

/-- Is a write-back of dirty data by an agent on its way to the slice, so that it answers a snoop "write-back pending" (R156)? -/
def State.wbPending (s : State) (b line : Nat) : Bool :=
  (s.dirOf line).any (fun e => e.queue.contains (b, .wb true)) || s.seam.waits.contains (b, line, .wb true)

/-- The entry of a line once a snoop to agent `b` has been answered (R154): an invalidated holder is none any more; the owner of an RdS
keeps S where its copy is clean, and a die keeps O where it is dirty, while the host and a port write it back (R164). -/
def DirEntry.answered (e : DirEntry) (b : Nat) (inv dirty : Bool) : DirEntry :=
  if inv then
    let e1 := { e with sharers := e.sharers &&& ~~~(agentBit b) }
    if e.st != .s && e.owner == b then { e1 with st := .s, owner := 0 } else e1
  else if e.st != .s && e.owner == b then
    if 8 ≤ b || (e.st == .e && !dirty) then { e with st := .s, owner := 0, sharers := e.sharers ||| agentBit b } else { e with st := .o }
  else e

/-- A snoop answered by an agent: at a die every array acts, and dirty data keeps O (R154, R157). -/
def State.snoop (s : State) (line : Nat) (b : Nat) (inv : Bool) : State :=
  let dirty := s.dieDirty b line || s.wbPending b line
  let s1 := if 8 ≤ b then s else if inv then s.invalDie b line else s.downDie b line true
  s1.modSeam fun m => { m with dir := m.dir.map fun e => if e.line = line then e.answered b inv dirty else e }

/-- Is a line's set full, with no way of its own (R158)? DESIGN CHOICE (log 63): in directoryless mode the lines of the failed half,
which R163 leaves without a named slice and set, keep and fill the sets of their own slices. -/
def State.setFullFor (s : State) (line : Nat) : Bool :=
  (s.dirOf line).isNone &&
    16 ≤ (s.seam.dir.filter fun e => dirSlice e.line == dirSlice line && dirSet e.line == dirSet line).length

/-- The least recently used way of a line's set that is not busy (R158). -/
def State.victimOf (s : State) (line : Nat) : Option DirEntry :=
  (s.seam.dir.filter fun e => dirSlice e.line == dirSlice line && dirSet e.line == dirSet line && !e.busy).foldl
    (fun b e => match b with
      | none => some e
      | some x => if e.lru < x.lru then some e else some x) none

/-- What a die's access asks of an exported line in directoryless mode (R163): no die enters the directory; the host or a port
keeps a shared copy for a read and none for a write. -/
def State.dlessRequest (s : State) (line : Nat) (r : CReq) : State :=
  match s.dirOf line, r with
  | some e, .rds => if e.st == .s then s else s.putDir { e with st := .s, owner := 0, sharers := e.sharers ||| agentBit e.owner }
  | some _, .rdx => s.delDir line
  | some _, .upg => s.delDir line
  | _, _ => s

/-- Is a line one of host or CXL memory? -/
def beyond (line : Nat) : Bool := decide (0x40000000000 ≤ line)

/-- An entry of host or CXL memory that no die holds any more is removed (R152). -/
def State.pruneDir (s : State) (line : Nat) : State :=
  if (s.dirOf line).any fun e => beyond line && e.sharers.toNat % 256 = 0 && (e.st == .s || decide (8 ≤ e.owner)) then
    s.delDir line
  else s

/-- The entry that a request leaves, its snoops answered: host or expander memory that no die holds has none (R152). -/
def State.settleDir (s : State) (line a : Nat) (r : CReq) : State :=
  match dirAfter (s.dirOf line) line a r with
  | none => s.delDir line
  | some e => (s.putDir { e with busy := false, evict := false, serving := none }).pruneDir line

/-- A request applied with its whole transaction (R154, R155): snoops, entry, count. Lines of a failed seam are counted at the slice
that R151 gives them (DESIGN CHOICE, log 63). -/
def State.dirRequest (s : State) (a line : Nat) (r : CReq) : State :=
  if s.caps.dless && a < 8 then (s.dlessRequest line r).countSlice (dirSlice line) (0x200 + r.code) else
  let sn := ((s.dirOf line).map fun e => e.snoopsFor a r).getD []
  ((sn.foldl (fun s x => s.snoop line x.1 x.2) s).settleDir line a r).countSlice (dirSlice line) (0x200 + r.code)

/-- Must a request of a die for a line go to the seam (R149)? -/
def State.needsSeam (s : State) (die line : Nat) : Bool :=
  beyond line || homeQuad s.pkg (line * 64) / 64 != die || (s.dirOf line).isSome

/-- Is no transaction under way on a line (R155), and no failover that a request which needs the seam would wait for (R162)? -/
def State.seamIdle (s : State) (line : Nat) : Bool :=
  (match s.dirOf line with
    | some e => !e.busy
    | none => true) && !(s.caps.fovr && ((s.dirOf line).isSome || beyond line))

/-- Does some array of a die hold a line with the permission that an access needs, so that the die resolves it inside itself (R149)? -/
def State.dieHas (s : State) (die line : Nat) (excl : Bool) : Bool :=
  let has (p : Perm) : Bool := !excl || p == .e || p == .m
  (s.dieCores die).any (fun c => (c.l1Find line).any has) || (s.l2Find die line).any has

/-- Can a request of a die for a line be applied now: inside the die and at its channel (R149), or at a seam that has no
transaction on it and a way for it (R155, R158)? -/
def State.lineFree (s : State) (die line : Nat) (excl : Bool) : Bool :=
  s.dieHas die line excl || !s.needsSeam die line ||
    (s.seamIdle line && (s.caps.dless || !s.setFullFor line) && !(s.caps.fovr && homeQuad s.pkg (line * 64) / 64 != die))

/-- Is a way of a line's set being recalled? -/
def State.recalling (s : State) (line : Nat) : Bool :=
  s.seam.dir.any fun e => e.evict && dirSlice e.line == dirSlice line && dirSet e.line == dirSet line

/-- A recall started for the least recently used way of a full set, where none is under way (R158). -/
def State.startRecall (s : State) (line : Nat) : State :=
  if s.setFullFor line && !s.recalling line then
    match s.victimOf line with
    | some v => (s.putDir { v with busy := true, evict := true }).countSlice (dirSlice line) 0x205
    | none => s
  else s

/-- The lowest of the cores of a die that hold a line in L1 becomes its owner, where a dirty copy leaves L2 (R147). -/
def State.passOwner (s : State) (die line : Nat) : State :=
  let holders := ((List.range 256).map fun i => die * 256 + i).filter fun n => ((s.coreOf n).l1Find line).isSome
  match holders with
  | [] => s
  | n :: _ => s.modCore n fun c => { c with l1 := c.l1.map fun x => if x.line = line then { x with perm := .o } else x }

/-- Are the 4,096 queue entries of a line's slice in use (R155)? -/
def State.queueFull (s : State) (line : Nat) : Bool :=
  4096 ≤ ((s.seam.dir.filter fun e => dirSlice e.line == dirSlice line).map fun e => e.queue.length).foldl (· + ·) 0

/-- A die's request to give a line up arrives at its slice (R153-R156): on a busy line it joins the queue, or waits at its sender; else it is
applied, and the dirty data of an owner is written to its home. -/
def State.giveRequest (s : State) (die line : Nat) (r : CReq) : State :=
  let owns := (s.dirOf line).any fun e => e.st != .s && e.owner == die
  if (s.dirOf line).any fun e => e.busy then
    if s.queueFull line then s.modSeam fun m => { m with waits := m.waits ++ [(die, line, r)] }
    else s.modSeam fun m => { m with dir := m.dir.map fun e => if e.line = line then { e with queue := e.queue ++ [(die, r)] } else e }
  else
    let s1 := if (r == .wb true) && (owns || s.caps.dless) then s.writeBack line else s
    s1.dirRequest die line r

/-- A line that fell out of the L2 of a die, with its permission (R98): where an L1 still holds it a dirty copy passes to that
L1; else the die gives it up, writing dirty data back, and tells the seam where the seam tracks it (R153). -/
def State.leaveL2 (s : State) (die : Nat) (x : L1Line) : State :=
  if s.dieHolds die x.line then (if x.perm.dirty then s.passOwner die x.line else s)
  else if !s.needsSeam die x.line then (if x.perm.dirty then s.writeBack x.line else s)
  else if (s.dirOf x.line).any fun e => e.st != .s && e.owner == die then s.giveRequest die x.line (.wb x.perm.dirty)
  else if x.perm.dirty then s.giveRequest die x.line (.wb true)
  else s.giveRequest die x.line .evc

/-- A line put in the L2 of a die with a permission; the least recently used line of a full set leaves (R98). -/
def State.putL2 (s : State) (die line : Nat) (p : Perm) : State :=
  let k := l2Cluster die line
  let l2 := (s.clusterAt k).l2
  let rest := l2.filter fun x => x.line != line
  let new : L1Line := ⟨line, ((findLine l2 line).map p.max).getD p⟩
  match (rest.filter fun x => l2Set x.line == l2Set line).drop 15 with
  | [] => s.modCluster k fun c => { c with l2 := new :: rest }
  | v :: _ => (s.modCluster k fun c => { c with l2 := new :: rest.filter fun x => x.line != v.line }).leaveL2 die v

/-- A line put in an L1 with a permission; the least recently used line of a full set moves to L2 and takes the
reservations on it (R95, R140). -/
def State.putL1 (s : State) (core line : Nat) (p : Perm) : State :=
  let c := s.coreOf core
  let rest := c.l1.filter fun x => x.line != line
  let ways := rest.filter fun x => x.line % 256 == line % 256
  match ways.drop 3 with
  | [] => s.setCore { c with l1 := ⟨line, p⟩ :: rest }
  | v :: _ =>
    let s1 := s.setCore { c with l1 := ⟨line, p⟩ :: rest.filter fun x => x.line != v.line }
    (s1.putL2 (dieOf core) v.line v.perm).loseResv v.line fun t => t.core == core

/-- Has the L1 of a core the permission an access needs (R42)? -/
def State.l1Has (s : State) (core line : Nat) (excl : Bool) : Bool :=
  match (s.coreOf core).l1Find line with
  | some .e => true
  | some .m => true
  | some _ => !excl
  | none => false

/-- What the seam does for a fill of a die (R149, R153): nothing where the die holds the line with the permission needed. -/
def State.fillSeam (s : State) (die line : Nat) (excl hadDie : Bool) : State :=
  if s.dieHas die line excl || !s.needsSeam die line then s
  else s.dirRequest die line (if excl then (if hadDie then .upg else .rdx) else .rds)

/-- The directory records a die in the strongest state that an array of it holds (R147): an owner whose copies have become shared ones is
recorded in O or S. An E owner that has gone to M is told of by no message (R153). -/
def State.recordDie (s : State) (die line : Nat) : State :=
  if s.dieHas die line true then s
  else
    let dirty := s.dieDirty die line
    let f (e : DirEntry) : DirEntry :=
      if e.line = line && e.st != .s && e.owner == die && !e.busy then
        (if dirty then { e with st := .o } else { e with st := .s, owner := 0, sharers := e.sharers ||| agentBit die })
      else e
    s.modSeam fun m => { m with dir := m.dir.map f }

/-- A line brought into the L1 of a core (R148, R149): the other arrays of the die and the seam act on the request. The
line must be free. -/
def State.fill (s : State) (core : Nat) (l : Loc) (excl : Bool) (launch : Nat) : State :=
  let line := l.key / 64
  if s.l1Has core line excl then
    let perm : Perm := if excl then .m else ((s.coreOf core).l1Find line).getD .s
    s.putL1 core line perm
  else
    let die := dieOf core
    let hadDie := s.dieHolds die line
    let hit := (s.l2Find die line).isSome
    let s0 := (s.countCore core 0x015 launch).countCluster (clusterOf core) (if hit then 0x100 else 0x101) launch
    let s1 := s0.fillSeam die line excl hadDie
    let s2 := if l.place == .hbm && !hadDie && (s.dirOf line).isNone then s1.mscRead line l.msch launch else s1
    let others := (s2.dieCores die).any fun c => c.id != core && (c.l1Find line).isSome
    if excl then
      let lose (t : Thread) : Bool := dieOf t.core == die && t.core != core
      let drop (c : Core) : Core :=
        if dieOf c.id = die && c.id != core then { c with l1 := c.l1.filter fun x => x.line != line } else c
      let dropL2 (k : Cluster) : Cluster := if k.id / 16 = die then { k with l2 := k.l2.filter fun x => x.line != line } else k
      let s3 := (s2.loseResv line lose).modCores drop
      { s3 with clusters := s3.clusters.map dropL2 }.putL1 core line .m
    else
      let alone := !others && !hadDie && (match s2.dirOf line with
        | some e => e.st != .s && e.owner == die && e.sharers == 0
        | none => true)
      ((s2.downDie die line true).putL1 core line (if alone then .e else .s)).recordDie die line

/-! ## Requests at a slice (R154, R155) -/

/-- What the arrays of a die hold once it has given a line up or taken it, as its request is applied. A WB of a line that the die does not
own is discarded (R156), and so is an Evc of its owner (R153). -/
def State.dieTakes (s : State) (a line : Nat) (r : CReq) : State :=
  let own := (s.dirOf line).any fun e => e.st != .s && e.owner == a
  match r with
  | .wb d => if own then (if d || s.dieDirty a line then s.writeBack line else s).invalDie a line else s
  | .evc => if own then s else s.invalDie a line
  | .rds =>
    if 8 ≤ a || s.dieHolds a line then s
    else s.putL2 a line (if (s.dirOf line).any DirEntry.held then .s else .e)
  | _ => if 8 ≤ a then s else s.putL2 a line .m

/-- A request applied whose snoops have been answered: the arrays of its die, then the entry (R154). A channel agent takes no copy into the
arrays (R150). -/
def State.seamFinish (s : State) (line a : Nat) (r : CReq) : State :=
  let t := if 16 ≤ a then s else s.dieTakes a line r
  ({ t with seam := { t.seam with dir := s.seam.dir.filter (fun e => e.line == line) ++ t.seam.dir.filter fun e => e.line != line } } :
    State).settleDir line (agentNo a) r

/-- Is an address in an extent that is being released (R167)? -/
def State.releasing (s : State) (pa : Nat) : Bool :=
  s.links.releases.any fun r => decide (r.base ≤ pa) && decide (pa < r.base + r.size)

/-- A request applied at its slice under R154: where it snoops, the line is BUSY until the last agent has answered (R155). In
directoryless mode no die enters the directory (R163); no new copy of a line in an extent under release is granted (R167). -/
def State.seamApply (s : State) (line a : Nat) (r : CReq) : State :=
  if s.caps.dless && agentNo a < 8 then (s.dlessRequest line r).countSlice (dirSlice line) (0x200 + r.code)
  else if r.asks && a < 16 && s.releasing (line * 64) then s
  else
    let s0 := s.countSlice (dirSlice line) (0x200 + r.code)
    match s.dirOf line with
    | none => s0.seamFinish line a r
    | some e =>
      let sn := e.snoopsFor (agentNo a) r
      if sn.isEmpty then s0.seamFinish line a r
      else (s0.putDir { e with busy := true, evict := false, serving := some (a, r) }).modSeam fun m =>
        { m with snoops := m.snoops ++ sn.map fun (y : Nat × Bool) => (y.1, line, y.2) }

/-- A request arrives at a slice: it joins the queue of a busy line, or waits at its sender while the slice has no queue entry, and while a
failover runs; where it needs an entry and the set is full it waits for the recall of a way (R155, R158, R162). -/
def State.seamRequest (s : State) (line a : Nat) (r : CReq) : State :=
  let later : State := s.modSeam fun m => { m with waits := m.waits ++ [(a, line, r)] }
  if s.caps.fovr then later
  else match s.dirOf line with
  | some e =>
    if !e.busy then s.seamApply line a r
    else if s.queueFull line then later
    else s.putDir { e with queue := e.queue ++ [(a, r)] }
  | none =>
    if s.setFullFor line && r.asks && !(s.caps.dless && agentNo a < 8) then
      (s.startRecall line).modSeam fun m => { m with waits := m.waits ++ [(a, line, r)] }
    else s.seamApply line a r

/-- The requests that wait outside the queues sent again: a way, a queue entry or a line may have come free (R155, R158). None is while a
failover runs (R162). -/
def State.retryWaits (s : State) : State :=
  let w := s.seam.waits
  if s.caps.fovr then s else w.foldl (fun s x => s.seamRequest x.2.1 x.1 x.2.2) (s.modSeam fun m => { m with waits := [] })

/-- Every copy of a line left shared and clean, dirty data written to its home (R330). -/
def State.cleanLine (s : State) (line : Nat) : State :=
  let dies := List.range 8
  let s0 := if dies.any fun d => s.dieDirty d line then s.writeBack line else s
  let s1 := dies.foldl (fun s d => s.downDie d line false) s0
  s1.modSeam fun m => { m with dir := m.dir.map fun e =>
    if e.line = line && e.st != .s then { e with st := .s, owner := 0, sharers := e.sharers ||| agentBit e.owner } else e }

/-- Every copy of a line given up: each die writes it back and invalidates it, the entry goes (R158). -/
def State.recallLine (s : State) (line : Nat) : State :=
  let dies := List.range 8
  let s1 := if dies.any fun d => s.dieDirty d line then s.writeBack line else s
  (dies.foldl (fun s d => s.invalDie d line) s1).delDir line

/-- Has an agent asked for a line and not been answered (R155)? -/
def State.asked (s : State) (a line : Nat) : Bool :=
  s.seam.waits.any (fun w => w.1 == a && w.2.1 == line && w.2.2.asks) ||
    (s.dirOf line).any fun e => (e.queue.any fun q => q.1 == a && q.2.asks) || e.serving.any fun q => q.1 == a && q.2.asks

/-- A core's access waits for its line: its die's request joins the queue of the line, or waits for a way of its set, once
(R155, R158). -/
def State.askLine (s : State) (die line : Nat) (excl : Bool) : State :=
  if s.asked die line || s.caps.fovr || s.lineFree die line excl then s
  else s.seamRequest line die (if excl then (if s.dieHolds die line then .upg else .rdx) else .rds)

/-- An access that waits for a transaction to end has its agent's request join the queue of the line, once (R155). -/
def State.waitSeam (s : State) (a line : Nat) (excl : Bool) : State :=
  if s.asked a line || s.caps.fovr || s.seamIdle line then s else s.seamRequest line a (if excl then .rdx else .rds)

/-! ## Where an access is served (R42, R45, R46, R122, R163) -/

/-- How the access of the issuing thread is served. -/
inductive Serve where
  /-- In the core: its own scratchpad, its die's weight store, or its L1 once filled. -/
  | here
  /-- By migration to a core of the home quad. -/
  | migrate (core : Nat)
  /-- As a remote word request. -/
  | remote
deriving DecidableEq, Repr

/-- Free positions of a core, lowest first (R44); in fixed mode those above its configured ones are not used (R50). -/
def State.freePos (s : State) (core : Nat) : List Nat :=
  let used := (s.onCore core).filterMap fun t => t.pos
  (List.range (s.coreOf core).positions).filter fun p => !used.contains p

/-- Free frames for launched and guest threads (R345). -/
def State.freeFrames (s : State) (core : Nat) : List Nat :=
  let used := (s.onCore core).map fun t => t.frame
  (List.range 62).filter fun f => !used.contains f

/-- Can a core accept a migrating thread, beside those on their way to it (R44, R210)? -/
def State.accepts (s : State) (core : Nat) : Bool :=
  let c := s.coreOf core
  let coming := (s.net.moves.filter fun t => t.migr == some core).length
  s.enabled core && !c.rot.getLsbD 0 && c.reset.isNone && coming < (s.freePos core).length
    && coming < (s.freeFrames core).length

/-- The migration target in a quad: the accepting core with the fewest occupied positions (R44). -/
def State.target (s : State) (quad : Nat) : Option Nat :=
  ((quadCores quad).filter s.accepts).foldl (fun b c => match b with
    | none => some c
    | some x => if (s.freePos x).length < (s.freePos c).length then some c else some x) none

/-- How the issuing thread's access to a place is served (R42, R45, R46); an atomic outside a WB line of device HBM, or of an
anchored thread, at its agent (R138). -/
def State.serve (s : State) (loc : Loc) (excl atom : Bool) : Serve :=
  let c := s.core.id
  match loc.place with
  | .scratch k _ => if k = c then .here else .remote
  | .weight d => if d = dieOf c then .here else .remote
  | .peer _ => .remote
  | .host => if atom || loc.pol ≠ 0 || s.caps.dless then .remote else .here
  | .cxl _ => if atom || loc.pol ≠ 0 || s.caps.dless || s.releasing loc.key then .remote else .here
  | .hbm =>
    let q := homeQuad s.pkg loc.key
    if atom && s.thr.anchored then .remote
    else if loc.pol = 0 && s.l1Has c (loc.key / 64) excl then .here
    else if q = quadOf c then (if loc.pol = 0 then .here else .remote)
    else if s.thr.anchored || s.core.qOwner == some s.thr.frame then .remote
    else match s.target q with
      | some n => .migrate n
      | none => .remote

/-! ## Outstanding-request slots (R97) -/

/-- Is a place one whose lines the caches hold under an applied policy of WB (R95, R330)? -/
def Loc.cached (l : Loc) : Bool :=
  match l.place with
  | .hbm => l.pol == 0
  | .host => l.pol == 0
  | .cxl _ => l.pol == 0
  | _ => false

/-- Is an access to a place by a core served in the core itself, with no migration asked (R42, R46, R138, R163)? -/
def State.servedHere (s : State) (core : Nat) (loc : Loc) (excl : Bool) : Bool :=
  match loc.place with
  | .scratch k _ => k == core
  | .weight d => d == dieOf core
  | .peer _ => false
  | .hbm => loc.pol == 0 && (s.l1Has core (loc.key / 64) excl || homeQuad s.pkg loc.key == quadOf core)
  | .host => loc.pol == 0 && !s.caps.dless
  | .cxl _ => loc.pol == 0 && !s.caps.dless && !s.releasing loc.key

/-- The line of an access served in a core that misses in its L1, none on a hit and for scratchpad and weight store. -/
def State.missLine (s : State) (core : Nat) (loc : Loc) (excl : Bool) : Option Nat :=
  match loc.place with
  | .scratch _ _ => none
  | .weight _ => none
  | .peer _ => none
  | _ => if loc.pol = 0 && !s.l1Has core (loc.key / 64) excl then some (loc.key / 64) else none

/-- A join update has no result (R353). -/
def ReqKind.quiet : ReqKind → Bool
  | .atomic op _ _ _ => 10 ≤ op
  | _ => false

/-- STEFs of a core that have left its store buffer and are not yet applied (R319). -/
def State.sentStef (s : State) (core : Nat) : List WaitEntry :=
  let mine (e : WaitEntry) : Bool := e.kind == .stef && e.core == core
  (s.net.fe.filterMap fun r => if mine r.e then some r.e else none) ++
    s.allCores.flatMap fun c => (c.waits ++ c.retries.map (·.2)).filter mine

/-- Slots of a core in use once some stores, too, have left its buffer (R97): one for each request, for each store that has left the buffer
for another place and for each STEF sent there, and one for each line with a miss outstanding. -/
def State.slotsWith (s : State) (core : Nat) (l : List SbEntry) : Nat :=
  let pend := ((s.onCore core).flatMap fun t => t.pend).filter fun p => p.slot
  let left := (s.coreOf core).sb.filter (fun e => e.left) ++ l
  let own := (pend.filter fun p => p.line.isNone).length
  let away := (left.filter fun e => !s.servedHere core e.loc true).length
  let miss := (left.filter fun e => s.servedHere core e.loc true).filterMap fun e => s.missLine core e.loc true
  let stefs := ((s.sentStef core).filter fun e => e.remote).length
  let joins := (s.net.reqs.filter fun r => r.core == core && r.remote && r.kind.quiet).length
  own + ((pend.filterMap fun p => p.line) ++ miss).eraseDups.length + away + stefs + joins

/-- Outstanding-request slots in use on a core (R97). -/
def State.slotsAt (s : State) (core : Nat) : Nat := s.slotsWith core []

/-- Has a core a miss outstanding to a line, whose slot another miss to it shares (R97)? -/
def State.missOut (s : State) (core line : Nat) : Bool :=
  ((s.onCore core).flatMap fun t => t.pend).any fun p => p.slot && p.line == some line

/-- Is a slot free on the issuing core (R97)? -/
def State.slotFree (s : State) : Bool := s.slotsAt s.core.id < 64

/-- Is there a slot for an access served in a core: a miss needs one, which it may share (R97)? -/
def State.slotFor (s : State) (core : Nat) (loc : Loc) (excl : Bool) : Bool :=
  match s.missLine core loc excl with
  | none => true
  | some line => s.missOut core line || s.slotsAt core < 64

/-- The line of an access served here brought into a core's L1; nothing for scratchpad and weight store. -/
def State.fillLoc (s : State) (core : Nat) (loc : Loc) (excl : Bool) (launch : Nat) : State :=
  match loc.place with
  | .scratch _ _ => s
  | .weight _ => s
  | .peer _ => s
  | _ => if loc.pol = 0 then s.fill core loc excl launch else s

end Sys2Proof.Machine
end

