-- ==== Sys2Proof/Machine/Access.lean ====
section
/-! DEFINITION. Reading and writing places: the store buffer and its forwarding (R96), element views (R89-R91), poison
(R57, R107), injected errors (R349), and what a store sets off (R75, R140, R166). -/

namespace Sys2Proof.Machine

/-! ## Byte ranges -/

/-- First byte (scratchpad key) and number of bytes of an element's storage. -/
def elemRange (core w e : Nat) : Nat × Nat :=
  let b := elemBit w e
  (scratchKey core (b / 8), (b % 8 + elemBits w + 7) / 8)

/-- The byte ranges that an access of a width reads at a place: element and scale in an element view. -/
def Loc.ranges (l : Loc) (width : Nat) : List (Nat × Nat) :=
  match l.place with
  | .scratch c w =>
    if w < 2 then [(l.key, width)]
    else if isBlock w then [elemRange c w l.elem, (scratchKey c (scaleByte w l.elem), if w = 24 then 2 else 1)]
    else [elemRange c w l.elem]
  | _ => [(l.key, width)]

/-- The aligned 8-byte words that a range touches. -/
def wordsOf (r : Nat × Nat) : Nat × Nat := (r.1 / 8 * 8, ((r.1 + r.2 + 7) / 8 - r.1 / 8) * 8)

/-- Do two ranges share a byte (R124)? -/
def meets (a b : Nat × Nat) : Bool := decide (a.1 < b.1 + b.2) && decide (b.1 < a.1 + a.2)

/-- May the entry be forwarded (R96)? One that has met an uncorrectable error is read as it is applied (R213). -/
def SbEntry.forwards (e : SbEntry) : Bool :=
  match e.kind with
  | .store => !e.bad
  | .stf => !e.bad
  | _ => false

/-- The bytes of an entry, for R96: the whole word of an entry that is never forwarded. -/
def SbEntry.cover (e : SbEntry) : Nat × Nat :=
  match e.kind with
  | .store => (e.loc.key, e.width)
  | .stf => (e.loc.key, e.width)
  | .narrow => match e.loc.place with
    | .scratch c w => wordsOf (elemRange c w e.loc.elem)
    | _ => (e.loc.key, e.width)
  | _ => (e.loc.key / 8 * 8, 8)

/-- What a load finds in the store buffer (R96). -/
inductive Look where
  | memory
  | value (v : Nat)
  | wait
deriving DecidableEq, Repr

/-- The entries of a store buffer that share bytes with some ranges, oldest first. -/
def Core.hits (c : Core) (rs : List (Nat × Nat)) : List SbEntry := c.sb.filter fun e => rs.any fun r => meets e.cover r

/-- A load of some ranges looks through the store buffer of a core, entries oldest first; one that has left it and is not yet
applied is still performed for the core alone (R125). -/
def State.look (s : State) (c : Core) (rs : List (Nat × Nat)) : Look :=
  let hit := c.hits rs
  let sent := (s.sentStef c.id).any fun e => rs.any fun r => meets (e.key, 8) r
  if sent || hit.any fun e => !e.forwards then .wait
  else match hit.getLast?, rs with
    | none, _ => .memory
    | some e, [r] =>
      if e.loc.key ≤ r.1 && r.1 + r.2 ≤ e.loc.key + e.width then
        .value (e.data.toNat / 256 ^ (r.1 - e.loc.key) % 256 ^ r.2)
      else .wait
    | some _, _ => .wait

/-! ## Injected scratchpad errors (R349) -/

/-- An access to a scratchpad word meets an armed injection of kind 3 or 4. -/
def State.inject (s : State) (a : Nat) (write : Bool) : State :=
  if isScratchKey a then
    let n := (a - scratchBase) / 0x100000
    let c := s.coreOf n
    let k := fieldOf c.errinj 0 3
    if c.errinj.getLsbD 7 && fieldOf c.errinj 21 16 == (a - scratchBase) % 0x100000 / 8
        && (k == 3 || (k == 4 && !write)) then
      if c.injSkip = 0 then
        let s1 := s.modCore n Core.disarm
        if k = 3 then { s1 with mem := s1.mem.setPoison a true }.countUe else s1.countCe
      else s.modCore n fun c => { c with injSkip := c.injSkip - 1 }
    else s
  else s

/-- The injection met by a range of an access: that of the one word that an armed injection of its core names, if it lies there. -/
def State.injectIn (s : State) (r : Nat × Nat) (write : Bool) : State :=
  let w := wordsOf r
  let a := scratchBase + (w.1 - scratchBase) / 0x100000 * 0x100000 + fieldOf (s.coreOf ((w.1 - scratchBase) / 0x100000)).errinj 21 16 * 8
  if w.1 ≤ a && a < w.1 + w.2 then s.inject a write else s

/-- Injections met by every range of an access. -/
def State.injectAll (s : State) (rs : List (Nat × Nat)) (write : Bool) : State := rs.foldl (fun s r => s.injectIn r write) s

/-! ## Reading -/

/-- Is any unit of poison that the ranges touch poisoned? -/
def Memory.poisoned (m : Memory) (rs : List (Nat × Nat)) : Bool :=
  rs.any fun r => m.isPoisoned r.1 || m.isPoisoned (r.1 + r.2 - 1)

/-- An element code of a window (2-22, 24), with the scale of its block, as 32 bits, with flags (R90). -/
def widenCode (w raw scale : Nat) : Nat × BitVec 5 :=
  if isBlock w then roundTo 2 0 (decodeBlock w raw scale)
  else if isInt w then (intBits 32 (decodeInt w raw), 0)
  else if w = 5 then (raw % 2 ^ 19 * 2 ^ 13, 0)
  else roundTo 2 0 (decodeFloat w raw)

/-- The element of a window (2-22, 24) as 32 bits, with flags (R90). -/
def widenAt (m : Memory) (core w e : Nat) : Nat × BitVec 5 :=
  let r := elemRange core w e
  widenCode w (bits (m.read r.1 r.2) (elemBit w e % 8) (elemBits w))
    (if isBlock w then m.read (scratchKey core (scaleByte w e)) (if w = 24 then 2 else 1) else 0)

/-- What a load returns of bytes forwarded to it: through the window of a format the element that they hold (R90, R96). -/
def Loc.forward (l : Loc) (v : Nat) : Nat × BitVec 5 :=
  match l.place with
  | .scratch _ w => if w < 2 then (v, 0) else widenCode w (bits v (elemBit w l.elem % 8) (elemBits w)) 0
  | _ => (v, 0)

/-- The value an access reads at a place: value, flags. -/
def Memory.value (m : Memory) (l : Loc) (width : Nat) : Nat × BitVec 5 :=
  match l.place with
  | .scratch c w => if w < 2 then (m.read l.key width, 0) else widenAt m c w l.elem
  | _ => (m.read l.key width, 0)

/-- Is the element a reserved TRN2 code (R90, counted by source 0x012)? -/
def Memory.reservedCode (m : Memory) (l : Loc) : Bool :=
  match l.place with
  | .scratch c 24 =>
    let r := elemRange c 24 l.elem
    bits (m.read r.1 r.2) (elemBit 24 l.elem % 8) 2 == 2
  | _ => false

/-- Extend a value of a width. -/
def extendTo (width : Nat) (sx : Bool) (v : Nat) : Word :=
  if sx && 2 ^ (8 * width - 1) ≤ v % 2 ^ (8 * width) then BitVec.ofNat 64 (v % 2 ^ (8 * width) + 2 ^ 64 - 2 ^ (8 * width))
  else BitVec.ofNat 64 (v % 2 ^ (8 * width))

/-! ## What a store sets off -/

/-- The core whose table roots the launcher walks for a launch: the first of its rectangle (DESIGN CHOICE: R334 gives every core roots of its
own, R71 names none for the launcher; log 62). -/
def State.originOf (s : State) (r : LaunchRec) : Nat := (s.rectCores r).headD 0

/-- Translation as the launcher, the spill engine and the deque unit of a core make it (R71): a launch-mode access of a tenant. A
device window is not translated; the local window has no core here, and no launch writes the weight store. -/
def State.tenantX (s : State) (core tenant : Nat) (va : Word) (store : Bool) : Option (Loc × Option Xlate) :=
  let a := va.toNat
  if a < 2 ^ 56 then
    match s.walkOf core (some tenant) a with
    | .error _ => none
    | .ok x =>
      if !pageOk x.leaf (if store then .store else .load) true then none
      else
        let pa := bits x.leaf 16 36 * 0x10000 / x.size * x.size + a % x.size
        match s.placePa pa with
        | .error _ => none
        | .ok p => some (⟨pa, p, bits x.leaf 6 2, va, 0, bits x.leaf 8 2⟩, some x)
  else if scratchBase ≤ a && a < scratchBase + 2048 * 0x100000 then
    let c := (a - scratchBase) / 0x100000
    if s.enabled c && (a - scratchBase) % 0x100000 < 0x80000 && tenantOk (s.coreOf c).spOwner (some tenant) then
      some (⟨a, .scratch c 0, 0, va, 0, 0⟩, none)
    else none
  else if weightBase ≤ a && a < weightBase + 8 * 0x40000000 then
    let d := (a - weightBase) / 0x40000000
    let owner := (s.weight.find? fun x => x.1 == d).map fun x => x.2
    if !store && d < s.pkg.dies && (a - weightBase) % 0x40000000 < 0x30000000 && tenantOk owner (some tenant) then
      some (⟨a, .weight d, 0, va, 0, 0⟩, none)
    else none
  else none

/-- The place of such an access. -/
def State.tenantLoc (s : State) (core tenant : Nat) (va : Word) (store : Bool) : Option Loc :=
  (s.tenantX core tenant va store).map fun x => x.1

/-- The A and D bits that such an access sets (R118). -/
def State.tenantMark (s : State) (core tenant : Nat) (va : Word) (store : Bool) : State :=
  match s.tenantX core tenant va store with
  | some (_, some x) => s.markWalk x store
  | _ => s

/-- Is the dependence of a launch met (R75)? For DEPK 2 the low 32 bits of DEPV name the launch; for DEPK 1 a DEPV that is no
multiple of 8 names the aligned word that holds it (DESIGN CHOICE, log 63). -/
def State.depMet (s : State) (l : Launch) : Bool :=
  match l.info.depk with
  | 1 => match s.tenantLoc (s.originOf l.info) l.info.tenant l.info.depv false with
    | some loc => match loc.place with
      | .scratch _ _ => s.mem.isFull loc.key
      | _ => s.mem.read (loc.key / 8 * 8) 8 != 0
    | none => false
  | 2 => match s.launchOf (l.info.depv.toNat % 2 ^ 32) with
    | some p => p.status == .ended
    | none => true
  | _ => true

/-- Is a place in the dependence word of a held launch? A store to it is a release to the launch's first instructions (R144). -/
def State.depWord (s : State) (key : Nat) : Bool :=
  s.launcher.list.any fun l => l.status == .held && l.info.depk == 1 &&
    (s.tenantLoc (s.originOf l.info) l.info.tenant l.info.depv false).any fun loc => loc.key / 8 == key / 8

/-- DEPENDENCE_MET (R75): every held launch whose dependence is met enters the tail of its FIFO. -/
def State.depScan (s : State) : State :=
  let met := s.launcher.list.filter fun l => l.status == .held && s.depMet l
  if met.isEmpty then s
  else
    let ids := met.map fun l => l.id
    let s1 := met.foldl (fun s l => if l.info.depk = 1 then s.tenantMark (s.originOf l.info) l.info.tenant l.info.depv false else s) s
    { s1 with launcher := { s1.launcher with
        list := s1.launcher.list.map fun l => if ids.contains l.id then { l with status := .queued } else l
        fifo := s1.launcher.fifo ++ ids } }

/-- A store of bytes at the coherence point: the bytes, reservations on its line (R140), the poison of a whole unit (R107), and
dependences (R75). -/
def State.putBytes (s : State) (a n v : Nat) : State :=
  let s1 := { s with mem := s.mem.write a n v }
  (s1.loseResv (a / 64) fun _ => true).depScan

/-- Narrow a value into an element of a window (R91): the element's bits and the flags. -/
def narrowTo (m : Memory) (core w e v : Nat) : Nat × BitVec 5 :=
  if isBlock w then
    narrowBlock w (m.read (scratchKey core (scaleByte w e)) (if w = 24 then 2 else 1)) (decodeFloat 2 v)
  else if isInt w then convertTo w 0 true (ofInt (intOf 32 v))
  else convertFloat w 0 true (decodeFloat 2 v)

/-- A store at its place (R125): the value's bytes, or one element converted. The flags go to the storing thread. -/
def State.writeLoc (s : State) (l : Loc) (width v : Nat) : State × BitVec 5 :=
  match l.place with
  | .scratch c w =>
    if w < 2 then ((s.inject (l.key / 8 * 8) true).putBytes l.key width v, 0)
    else
      let r := elemRange c w l.elem
      let s1 := s.injectAll [r] true
      let (x, fl) := narrowTo s1.mem c w l.elem (v % 2 ^ 32)
      let o := elemBit w l.elem % 8
      let old := s1.mem.read r.1 r.2
      let new := old - bits old o (elemBits w) * 2 ^ o + x % 2 ^ elemBits w * 2 ^ o
      (s1.putBytes r.1 r.2 new, fl)
  | _ => (s.putBytes l.key width v, 0)

/-! ## Loading -/

/-- The long result of a load: value, flags and poison, ready at once. -/
def Pending.ofLoad (v : Word) (fl : BitVec 5) (poison : Option Word) : Pending :=
  { Pending.ofVal v fl with poison := poison, load := true }

/-- A load performed for the issuing thread at its place (R125, R313). -/
def State.loadNow (s : State) (l : Loc) (width : Nat) (sx : Bool) : State × Pending :=
  let rs := l.ranges width
  let s1 := s.injectAll rs false
  let s2 := if s1.mem.reservedCode l then s1.countCore s1.core.id 0x012 s1.thr.launch else s1
  let r := s2.mem.value l width
  (s2, Pending.ofLoad (extendTo width sx r.1) r.2 (if s2.mem.poisoned rs then some l.va else none))

/-! ## The coherence lane (R148) -/

/-- Does the request take its line for ownership? -/
def ReqKind.excl : ReqKind → Bool
  | .atomic _ _ _ _ => true
  | _ => false

/-- The coherence requests of a core on the lane: the place of each, its line, and whether it is for ownership. -/
def State.tickets (s : State) (core : Nat) : List ((Nat × Nat) × Nat × Bool) :=
  ((s.net.reqs.filter fun r => r.core == core).filterMap fun r => r.lane.map fun p => (p, r.loc.key / 64, r.kind.excl)) ++
    (s.coreOf core).sb.filterMap fun e => e.lane.map fun p => (p, e.loc.key / 64, true)

/-- The place of a core's next coherence request: the first window after the present one in which it has one of its 4 places free. A
miss to a line that the core has asked for already shares that request's place. -/
def State.lanePlace (s : State) (core line : Nat) (excl : Bool) : Nat × Nat :=
  let l := s.tickets core
  match l.find? fun x => x.2.1 == line && (x.2.2 || !excl) with
  | some x => x.1
  | none =>
    let w0 := s.cc / 8 + 1
    let free (w : Nat) : Option Nat := (List.range 4).find? fun k => !l.any fun x => x.1 == (w, k)
    let w := w0 + ((List.range (l.length + 1)).find? fun i => (free (w0 + i)).isSome).getD 0
    (w, (free w).getD 0)

/-- Is the effect of a coherence request at its place due: has cc 8w + 72 come (R148)? -/
def State.laneDue (s : State) (p : Nat × Nat) : Bool := decide (8 * p.1 + 72 ≤ s.cc)

/-- Does one place on the lane come before another: by window, then by core number, then in the core's order (R148)? -/
def earlierPlace (p : Nat × Nat) (c : Nat) (q : Nat × Nat) (d : Nat) : Bool :=
  decide (p.1 < q.1) || (p.1 == q.1 && (decide (c < d) || (c == d && decide (p.2 < q.2))))

/-! ## Requests -/

/-- Is the access of a request served outside the core of the issuing thread? -/
def State.reqAway (s : State) (kind : ReqKind) (l : Loc) : Bool :=
  match kind with
  | .atomic _ _ _ _ => s.serve l true true != .here
  | .fetst => s.serve l true false != .here
  | .pref _ => false
  | _ => s.serve l false false != .here

/-- Add a request of the issuing thread, counted where it leaves the core (R79, R80); its result holds a slot (R97) and the
token of the request names it. `num` tells the stores that come before it. A miss in the core's L1 is announced on the lane at once where
nothing else holds the request back (R148). -/
def State.requestAt (s : State) (kind : ReqKind) (l : Loc) (num : Nat) (rel : Bool) (scope : Nat) (win : Option Nat) : State :=
  let remote := s.reqAway kind l
  let lane := if remote || rel || win.isSome || (s.missLine s.core.id l kind.excl).isNone then none
    else some (s.lanePlace s.core.id (l.key / 64) kind.excl)
  let r : Req := ⟨s.core.id, s.thr.frame, s.thr.tid, s.thr.seq, kind, l, num, rel, scope, remote, win, lane⟩
  let s1 := if remote then (s.countCore s.core.id 0x00D s.thr.launch).sent s.thr.launch s.core.id else s
  { s1 with net := { s1.net with reqs := s1.net.reqs ++ [r] } }

/-- A request after every store that its core has numbered. -/
def State.request (s : State) (kind : ReqKind) (l : Loc) (rel : Bool) (scope : Nat) (win : Option Nat) : State :=
  s.requestAt kind l s.core.sbNum rel scope win

/-- A load or atomic whose result will be delivered; with `slot` it holds an outstanding-request slot (R97). -/
def Pending.awaited (slot : Bool) : Pending :=
  { Pending.ofVal 0 0 with ready := false, slot := slot, load := true }

/-- Begin the migration of the issuing thread (R43): the access ends the run and its instruction issues again at the
target, where the watch check is not made again (R337). `phase` notes which stores of the core are older. -/
def State.migrate (s : State) (target : Nat) : State :=
  s.modThr fun t => { t with
    migr := some target, phase := s.core.sbNum + 1, slot := none, skipWatch := some t.pc, park := some ⟨1, 0, 0, s.cc, none⟩ }

/-- A store enters the store buffer of the issuing core (R96), its number taken. -/
def State.enter (s : State) (kind : SbKind) (l : Loc) (width : Nat) (v : Word) (rel : Bool) (scope notBefore : Nat) :
    State :=
  let e : SbEntry := ⟨s.core.sbNum, s.thr.frame, s.thr.tid, kind, l, width, v, rel, scope, s.thr.seq, notBefore, false, false, none⟩
  { s with core := { s.core with sb := s.core.sb ++ [e], sbNum := s.core.sbNum + 1 } }

/-- Is the store buffer full (R96)? An entry that has left it frees its place. -/
def State.sbFull (s : State) : Bool := 32 ≤ (s.core.sb.filter fun e => !e.left).length

/-! ## Release waits (R133) -/

/-- The oldest number an entry of a core that is not yet performed has: the watermark of R133 (waiting STEFs in wait
tables included, R319). -/
def State.watermark (s : State) (core : Nat) : Nat :=
  let c := s.coreOf core
  (s.sentStef core).foldl (fun m e => min m e.tok) (c.sb.foldl (fun m e => min m e.num) c.sbNum)

/-- The oldest number an entry of a core has that is not yet performed for the agents of a scope (R133): for the threads of its
own core a store is performed as it enters the buffer, unless it is never forwarded (R125); for every other agent as it is
applied. -/
def State.performed (s : State) (core scope : Nat) : Nat :=
  let c := s.coreOf core
  if scope = 0 then c.sbNum
  else if scope = 1 then
    (s.sentStef core).foldl (fun m e => min m e.tok) ((c.sb.filter fun e => !e.forwards).foldl (fun m e => min m e.num) c.sbNum)
  else s.watermark core

/-- Has a thread of a core a write request or an aggregated add outstanding, issued while the store numbers were at most `num`
(R129)? -/
def State.writesOut (s : State) (core frame num : Nat) : Bool :=
  (s.net.reqs.any fun r => r.core == core && r.frame == frame && decide (r.num ≤ num) && (match r.kind with
    | .atomic _ _ _ _ => true
    | .fetst => true
    | _ => false)) ||
    s.net.aggs.any fun a => a.parts.any fun p => p.core == core && p.frame == frame

/-- Have every older store of the core and every earlier result of the thread come about for the agents of a scope (R133)? A
release at thread scope is not held. -/
def State.released (s : State) (core frame num tok scope : Nat) : Bool :=
  scope == 0 || (decide (num ≤ s.performed core scope) &&
    match s.threadAt core frame with
    | some t => t.pend.all fun p => tok ≤ p.tok
    | none => true)

/-- Has no thread write request outstanding that comes before entry number `num` in its program order (R129 (e))? -/
def State.joined (s : State) (core frame num : Nat) : Bool :=
  !(s.net.reqs.any fun r => r.core == core && r.frame == frame && decide (r.num ≤ num) && (match r.kind with
    | .atomic op _ _ _ => decide (10 ≤ op)
    | _ => false))

/-- Do a release at a scope, its join updates among the writes, and what comes before it stand in order (R129 (e), R133)? -/
def State.ordered (s : State) (core frame num tok scope : Nat) : Bool := s.released core frame num tok scope && s.joined core frame num

/-- Has every access of a thread to another package been acknowledged (R146)? -/
def State.peersDone (s : State) (t : Thread) : Bool :=
  let peer (l : Loc) : Bool := match l.place with
    | .peer _ => true
    | _ => false
  (s.net.reqs.all fun r => !(r.core == t.core && r.frame == t.frame && peer r.loc)) &&
    ((s.coreOf t.core).sb.all fun e => !(e.frame == t.frame && peer e.loc)) &&
    ((s.sentStef t.core).all fun e => !(e.frame == t.frame && !isScratchKey e.key)) &&
    s.net.aggs.all fun a => !(peer a.loc && a.parts.any fun p => p.core == t.core && p.frame == t.frame)

/-- Does a thread no longer wait for its older accesses (R133, R134, R328)? `mask` as FENCE has it; an atomic counts as a load and as a
store. At thread scope no store is waited for, since R129 (a) gives that order already; at node scope and wider every access to another
package is, whatever the mask (R146). -/
def State.olderDone (s : State) (t : Thread) (mask num scope : Nat) : Bool :=
  (mask / 4 = 0 || t.pend.all fun p => !p.load) &&
    (mask % 4 = 0 || (num ≤ s.performed t.core scope && (scope = 0 || !s.writesOut t.core t.frame num) && t.pend.all fun p => !p.cache)) &&
    (scope < 7 || s.peersDone t)

/-- The release wait of an instruction of the issuing thread at a scope (R133): the first issue fixes which stores are older, and
the thread parks until they and its own results have come about. -/
def State.release (s0 s : State) (scope : Nat) (k : State → State) : State :=
  let num := if s.thr.phase = 0 then s.core.sbNum else s.thr.phase - 1
  if scope = 0 || (s.thr.pend.isEmpty && num ≤ s.performed s.core.id scope && !s.writesOut s.core.id s.thr.frame num) then k s
  else (s0.phase (num + 1)).parkOn 26 15 (num * 16 + scope)

/-- A release or fence at node scope or wider takes UCE where a store of the thread to a peer has been dropped (R146, R224). -/
def State.unlessDropped (s0 s : State) (rel : Bool) (scope : Nat) (k : State → State) : State :=
  match (if rel && decide (7 ≤ scope) then s.thr.dropped else none) with
  | some va => (s0.modThr fun t => { t with dropped := none }).trap (cause cUCE va)
  | none => k s

end Sys2Proof.Machine
end

