-- ==== Sys2Proof/Machine/FullEmpty.lean ====
section
/-! DEFINITION. The full/empty bits and wait tables of the scratchpads (R87, R318-R321). -/

namespace Sys2Proof.Machine

/-- A value delivered to an outstanding long result: it can land. -/
def Thread.deliver (t : Thread) (tok : Nat) (v : Word) (fl : BitVec 5) (poison : Option Word) : Thread :=
  { t with pend := t.pend.map fun p =>
      if p.tok = tok then { p with val := v, flags := fl, poison := poison, ready := true } else p }

/-- The parked issuer of a full/empty operation goes on at pc + 4; phase 2 tells of a switch marker. -/
def Thread.feDone (t : Thread) : Thread :=
  { t with
    pc := t.pc + 4
    phase := 0
    skipWatch := none
    walked := none
    popped := []
    park := if t.phase = 2 && !t.pend.isEmpty then t.park.map fun p => { p with code := 1, arg := 0, key := 0 } else none }

/-- Can a waiting operation proceed (R320)? -/
def State.feReady (s : State) (e : WaitEntry) : Bool :=
  match e.kind with
  | .stef => !s.mem.isFull e.key
  | _ => s.mem.isFull e.key

/-- The core whose wait table an operation enters: the word's core. The table of a peer's core is taken as the issuer's own
(log 27). -/
def homeOf (key core : Nat) : Nat := if isScratchKey key then (key - scratchBase) / 0x100000 else core

/-- A full/empty operation performed at its word: the test, the value and the bit change in one step, its issuer woken and
the message received at the word's core (R318, R320). -/
def State.feDo (s : State) (e : WaitEntry) : State :=
  let home := homeOf e.key e.core
  let s0 := if e.remote then s.recvd e.launch home else s
  let s1 := s0.inject e.key (e.kind == .stef)
  match e.kind with
  | .stef =>
    let s2 := s1.putBytes e.key 8 e.data.toNat
    -- the target of an entry in error is written poisoned (R213)
    let m := if e.bad then s2.mem.setPoison e.key true else s2.mem
    { s2 with mem := m.setFull e.key true }.depScan.modThread e.core e.frame Thread.feDone
  | k =>
    let v := BitVec.ofNat 64 (s1.mem.read e.key 8)
    let bad := s1.mem.isPoisoned e.key
    let s2 := if k == .ldfe then { s1 with mem := s1.mem.setFull e.key false } else s1
    s2.modThread e.core e.frame fun t =>
      let va := (t.park.map fun p => p.arg).getD 0
      (t.deliver e.tok v 0 (if bad then some va else none)).feDone

/-- Is the scratchpad of a word in the hands of the tenant of an operation (R88)? -/
def State.tenantHolds (s : State) (e : WaitEntry) : Bool :=
  !isScratchKey e.key || tenantOk (s.coreOf (homeOf e.key e.core)).spOwner (s.tenantOf e.launch)

/-- WAIT_TABLE_PASS (R320): the entries of a word proceed in arrival order, one at a time, until none can. Those of a tenant whose
scratchpad has been saved stay until it is restored (R88, R321). -/
def State.fePass (s : State) (home key : Nat) : Nat → State
  | 0 => s
  | n + 1 =>
    match (s.coreOf home).waits.find? fun e => e.key == key && s.feReady e && s.tenantHolds e with
    | none => s
    | some e => ((s.modCore home fun c => { c with waits := c.waits.erase e }).feDo e).fePass home key n

/-- A word's bit has changed: the pass over its entries (R320). -/
def State.wakeWord (s : State) (key : Nat) : State :=
  if isScratchKey key then
    let home := (key - scratchBase) / 0x100000
    s.fePass home key (s.coreOf home).waits.length
  else s.allCores.foldl (fun s c => s.fePass c.id key c.waits.length) s

/-- A word set full or empty, with the pass and the launches that depend on it (R75, R320). -/
def State.setWord (s : State) (key : Nat) (full : Bool) : State :=
  ({ s with mem := s.mem.setFull key full }.depScan).wakeWord key

/-- A full/empty operation arrives at its scratchpad (R320): applied, entered, or turned away to be tried again 256 cc
later. -/
def State.feArrive (s : State) (e : WaitEntry) : State :=
  let home := homeOf e.key e.core
  if s.feReady e then (s.feDo e).wakeWord e.key
  else if (s.coreOf home).waits.length < 128 then s.modCore home fun c => { c with waits := c.waits ++ [e] }
  else s.modCore e.core fun c => { c with retries := c.retries ++ [(s.cc + 256, e)] }

/-- FULL_EMPTY_APPLY (R320): the oldest operation a core has sent to a word arrives. A core in reset holds it (R210). -/
def execFullEmptyApply (core word : Nat) (s : State) : Answer :=
  match s.net.fe.find? fun r => r.e.core == core && r.e.key == word with
  | none => .fault .notEnabled
  | some r =>
    whenEnabled ((s.coreOf r.core).reset.isNone && s.tenantHolds r.e)
      ({ s with net := { s.net with fe := s.net.fe.erase r } }.feArrive r.e)

/-- WAIT_TABLE_RETRY (R320): an operation turned away is tried again. -/
def execWaitTableRetry (core frame : Nat) (s : State) : Answer :=
  match (s.coreOf core).retries.find? fun r => r.2.frame == frame with
  | none => .fault .notEnabled
  | some r =>
    whenEnabled (decide (r.1 ≤ s.cc) && (s.coreOf (homeOf r.2.key r.2.core)).reset.isNone && s.tenantHolds r.2)
      ((s.modCore core fun c => { c with retries := c.retries.erase r }).feArrive r.2)

end Sys2Proof.Machine
end

