-- ==== Sys2Proof/Machine/Stores.lean ====
section
/-! DEFINITION. Store-buffer entries applied (R96, R125, R133), remote word requests performed (R45, R138, R150), and the
aggregated add (R139). -/

namespace Sys2Proof.Machine

/-! ## Reaching a line -/

/-- The agent that serves a place (R138, R147, R150): the channel agent acts as its home die's; host and expander memory have the host and
the port. -/
def Loc.agent (p : Package) (l : Loc) : Nat :=
  match l.place with
  | .host => 8
  | .cxl k => 9 + k
  | _ => homeQuad p l.key / 64

/-- What the agent that serves a remote access obtains before it performs it (R150): a line that the seam tracks, shared for a load, for
ownership for a write. It writes the line back and keeps no copy, and leaves none that disagrees with the channel. -/
def State.takeLine (s : State) (line a : Nat) (excl : Bool) : State :=
  let exported := (s.dirOf line).isSome
  let dirty := (List.range 8).any fun d => s.dieDirty d line
  if excl then
    let s1 := if exported then s.dirRequest a line .rdx else s
    let s2 := (if dirty then s1.writeBack line else s1).invalDie a line
    if (s2.dirOf line).isSome then s2.dirRequest a line (.wb true) else s2
  else
    let asks := exported && !s.dieHolds a line
    let s1 := if asks then s.dirRequest a line .rds else s
    let s2 := if dirty then s1.cleanLine line else s1
    if asks then s2.dirRequest a line .evc else s2

/-- The line of a remote access obtained (R150); a load of device HBM then reads it at its channel (R103). -/
def State.agentTake (s : State) (l : Loc) (excl : Bool) (launch : Nat) : State :=
  let t := s.takeLine (l.key / 64) (l.agent s.pkg) excl
  match l.place with
  | .hbm => if excl || l.pol = 3 then t else t.mscRead (l.key / 64) l.msch launch
  | .host => t
  | .cxl _ => t
  | _ => s

/-- The line of an access of a core obtained where it is performed. -/
def State.reach (s : State) (core : Nat) (l : Loc) (excl : Bool) (launch : Nat) : State :=
  if s.servedHere core l excl then s.fillLoc core l excl launch else s.agentTake l excl launch

/-- Is the line of a place free of transactions for an access of a core, with a way (R155, R158), or the core of a scratchpad out of reset
(R210)? `here` says that the core serves the access itself. -/
def State.reachableAs (s : State) (core : Nat) (l : Loc) (excl here : Bool) : Bool :=
  match l.place with
  | .scratch k _ => k == core || (s.coreOf k).reset.isNone
  | .weight _ => true
  | .peer _ => true
  | _ =>
    if here then (match s.missLine core l excl with
      | none => true
      | some line => s.lineFree (dieOf core) line excl)
    else s.seamIdle (l.key / 64)

def State.reachable (s : State) (core : Nat) (l : Loc) (excl : Bool) : Bool := s.reachableAs core l excl (s.servedHere core l excl)

/-- The core at which a remote message is received (R79, R80). -/
def Loc.receiver (l : Loc) (core : Nat) : Nat :=
  match l.place with
  | .scratch k _ => k
  | _ => core

/-! ## Order among a thread's accesses -/

/-- Must the later of two accesses of one thread, with these places and ranges, wait for the earlier (R129 (a), R145,
R223)? -/
def mustFollow (l1 l2 : Loc) (r1 r2 : List (Nat × Nat)) : Bool :=
  (r1.any fun a => r2.any fun b => meets a b) || (l1.pol == 3 && l2.pol == 3) ||
    (match l1.place, l2.place with
      | .peer _, .peer _ => l1.key / 64 == l2.key / 64
      | _, _ => false)

/-- Bytes of an access of a request. -/
def Req.ranges (r : Req) : List (Nat × Nat) :=
  match r.kind with
  | .load w _ => r.loc.ranges w
  | .atomic _ w _ _ => [(r.loc.key, w)]
  | .pref _ => []
  | _ => [(r.loc.key, 8)]

/-- Has a thread an aggregated add, issued before a token, that an access must follow and that has not been performed? -/
def State.aggBefore (s : State) (core frame tok : Nat) (l : Loc) (rs : List (Nat × Nat)) : Bool :=
  s.net.aggs.any fun a =>
    (a.parts.any fun p => p.core == core && p.frame == frame && decide (p.tok < tok)) && mustFollow a.loc l [(a.loc.key, 4)] rs

/-- Has the issuing thread an earlier request or aggregated add that an access must follow, not yet performed (R129 (a))? -/
def State.ownPending (s : State) (l : Loc) (rs : List (Nat × Nat)) : Bool :=
  (s.net.reqs.any fun r => r.core == s.core.id && r.tid == s.thr.tid && mustFollow r.loc l r.ranges rs) ||
    s.aggBefore s.core.id s.thr.frame s.thr.seq l rs

/-! ## Atomics (R323) -/

/-- The new value of an atomic over n-bit words, none when nothing is written. Operations: 0 add, 1 and, 2 or, 3 xor, 4 min,
5 max, 6 minu, 7 maxu, 8 swap, 9 compare and swap, 10 JoinAdd, 11 SetPruned (R353). -/
def atomicNew (op n old x cmp : Nat) : Option Nat :=
  let m := 2 ^ n
  match op with
  | 0 => some ((old + x) % m)
  | 1 => some (old &&& x)
  | 2 => some (old ||| x)
  | 3 => some (old ^^^ x)
  | 4 => some (if intOf n old < intOf n x then old else x)
  | 5 => some (if intOf n old < intOf n x then x else old)
  | 6 => some (min old x)
  | 7 => some (max old x)
  | 8 => some x
  | 9 => if old = cmp then some x else none
  | 10 => some (old - old % 2 ^ 32 + (old + x) % 2 ^ 32)
  | _ => some (old ||| 2 ^ 63)

/-- An atomic performed at its place: the old value, and whether it met poison, when nothing is written (R324). -/
def State.atomicAt (s : State) (l : Loc) (op width x cmp : Nat) : State × Nat × Bool :=
  let s1 := s.inject (l.key / 8 * 8) false
  let old := s1.mem.read l.key width
  if s1.mem.isPoisoned l.key then (s1, old, true)
  else match atomicNew op (8 * width) old (x % 256 ^ width) (cmp % 256 ^ width) with
    | some v => (s1.putBytes l.key width v, old, false)
    | none => (s1, old, false)

/-- A join word whose COUNT is 0 after a JoinAdd wakes the threads parked on it in SYNC (R355). -/
def State.wakeJoin (s : State) (key : Nat) : State :=
  if s.mem.read key 8 % 2 ^ 32 = 0 then
    s.modThreads (fun t => (t.park.map fun p => p.code == 3 && p.key == key).getD false) Thread.unpark
  else s

/-! ## The order S (R135-R137) -/

/-- Does the place (window, core) come before another in S (R135)? -/
def earlierSlot (a b : Nat × Nat) : Bool := decide (a.1 < b.1) || (a.1 == b.1 && decide (a.2 < b.2))

/-- The window of an STSC in the buffer, none before it has a slot: it is applied from cc 8w + 72 on (R137). -/
def SbEntry.window (e : SbEntry) : Option Nat :=
  match e.kind with
  | .stsc => if e.notBefore < 2 ^ 80 then some ((e.notBefore - 72) / 8) else none
  | _ => none

/-- Is an SC store with a place in S before a given one not yet performed (R136)? One that shares bytes with `rs`, or any where
`rs` is none. -/
def State.scStoreBefore (s : State) (place : Nat × Nat) (rs : Option (List (Nat × Nat))) : Bool :=
  let shared (l : List (Nat × Nat)) : Bool := match rs with
    | none => true
    | some r => l.any fun a => r.any fun b => meets a b
  (s.allCores.any fun c => c.sb.any fun e => (e.window.any fun w => earlierSlot (w, c.id) place) && shared [e.cover]) ||
    s.net.reqs.any fun r => (r.win.any fun w => earlierSlot (w, r.core) place) && (match r.kind with
      | .atomic _ n _ _ => shared [(r.loc.key, n)]
      | _ => false)

/-- Is an SC load, or the read of an SC atomic, with a place in S before a given one not yet performed (R136)? One that shares bytes
with `rs`, or any where `rs` is none. -/
def State.scLoadBefore (s : State) (place : Nat × Nat) (rs : Option (List (Nat × Nat))) : Bool :=
  s.net.reqs.any fun r => (r.win.any fun w => earlierSlot (w, r.core) place) && (match rs with
    | none => true
    | some l => l.any fun b => meets (r.loc.key, 8) b)

/-- May what stands behind an SC fence at a place in S go on: the slot's announcements are delivered, and the SC operations before it
in S are performed (R136, R137)? -/
def State.slotOver (s : State) (core w : Nat) : Bool :=
  decide (8 * w + 72 ≤ s.cc) && !s.scStoreBefore (w, core) none && !s.scLoadBefore (w, core) none

/-! ## Refresh of the weight store (R101, R102) -/

/-- Is bank group g of every weight store in its refresh window at a cc (R101, R102)? -/
def refreshing (cc g : Nat) : Bool := decide (2400 * g ≤ cc) && decide ((cc - 2400 * g) % 76800 < 1920)

/-- The bank group of a weight-store place (R101). -/
def Loc.bank (l : Loc) : Option Nat :=
  match l.place with
  | .weight _ => some ((l.key - weightBase) % 0x40000000 / 0x1800000)
  | _ => none

/-- Does a read of a place meet its bank group in refresh (R101)? -/
def State.refreshes (s : State) (l : Loc) : Bool := l.bank.any fun g => refreshing s.cc g

/-! ## Bank queues (R85) -/

/-- The bank at which an access served outside its core queues: a scratchpad, a bank group of a weight store, a channel of device HBM, the
host, a port or a node (which they are: DESIGN CHOICE, log 73). -/
def State.bankOf (s : State) (l : Loc) : Nat :=
  match l.place with
  | .hbm => channelOf s.pkg l.key
  | .scratch c _ => 2 ^ 16 + c
  | .weight d => 2 ^ 17 + 32 * d + l.bank.getD 0
  | .host => 2 ^ 18
  | .cxl p => 2 ^ 18 + 1 + p
  | .peer n => 2 ^ 18 + 16 + n

/-- How far a source stands behind the one that a bank has served last, in the order of core numbers. -/
def State.bankRank (s : State) (bank core : Nat) : Nat :=
  let last := ((s.net.banks.find? fun x => x.1 == bank).map fun x => x.2).getD 2047
  (core + 2048 * 2 - last - 1) % 2048

/-- A bank has served a source. -/
def State.bankServed (s : State) (bank core : Nat) : State :=
  { s with net := { s.net with banks := (bank, core) :: s.net.banks.filter fun x => x.1 != bank } }

/-! ## STORE_BUFFER_APPLY -/

/-- The reservation of a thread on a line, lost 4,096 cc after its LRES (R140). -/
def Thread.holdsLine (t : Thread) (line cc : Nat) : Bool := t.resv.any fun r => r.line == line && decide (cc < r.cc + 4096)

/-- The scope at which an entry is held (R133), none when it is not: a release is, and so is a store to a dependence word, which
releases to the launch's first instructions (R144). -/
def State.holdScope (s : State) (e : SbEntry) : Option Nat :=
  if s.depWord e.loc.key then some 6 else if e.rel then some e.scope else none

/-- May entry `e`, behind the older entries, be applied now (R122, R129, R133, R136, R137)? -/
def State.canApply (s : State) (core : Nat) (older : List SbEntry) (e : SbEntry) : Bool :=
  let rs := e.loc.ranges e.width
  (older.all fun x => !meets x.cover e.cover && !(x.tid == e.tid && mustFollow x.loc e.loc [x.cover] [e.cover])
      && !(x.loc.pol == 1 && e.loc.pol == 1 && x.loc.key / 64 != e.loc.key / 64))
    && decide (e.notBefore ≤ s.cc)
    && ((s.holdScope e).all fun sc => s.ordered core e.frame e.num e.tok sc)
    && (e.window.all fun w => !s.scStoreBefore (w, core) (some [e.cover]) && !s.scLoadBefore (w, core) (some [e.cover]))
    && (s.net.reqs.all fun r => !(r.core == core && r.tid == e.tid && decide (r.num ≤ e.num) && mustFollow r.loc e.loc r.ranges rs))
    && !s.aggBefore core e.frame e.tok e.loc rs

/-- The bytes that an entry in error was to write are poisoned (R213). -/
def State.spoil (s : State) (e : SbEntry) : State :=
  if e.bad then { s with mem := s.mem.setPoison e.cover.1 true } else s

/-- The write of an entry, its place reached. An SCON that meets poison fails, and its result marks gd (R332; DEDUCED, log 71). -/
def State.writeEntry (s : State) (core : Nat) (e : SbEntry) : State :=
  match e.kind with
  | .scon tok =>
    let line := e.loc.key / 64
    let held : Bool := (s.threadAt core e.frame).any fun t => t.holdsLine line s.cc
    let bad := held && s.mem.isPoisoned e.loc.key
    let s1 := if held && !bad then (s.writeLoc e.loc 8 e.data.toNat).1 else s
    s1.modThread core e.frame fun t =>
      { t.deliver tok (if held && !bad then 0 else 1) 0 (if bad then some e.loc.va else none) with resv := none }
  | .stf => ((s.writeLoc e.loc 8 e.data.toNat).1.spoil e).setWord (e.loc.key / 8 * 8) true
  | .sete => (s.inject (e.loc.key / 8 * 8) true).setWord (e.loc.key / 8 * 8) false
  | .stef => s
  | .narrow =>
    let (s1, fl) := s.writeLoc e.loc e.width e.data.toNat
    s1.modThread core e.frame fun t => t.addFlags fl
  | _ => (s.writeLoc e.loc e.width e.data.toNat).1

/-- Does an SCON find its reservation gone, or the word poisoned, so that it stores nothing (R326, R332)? -/
def State.sconFails (s : State) (core : Nat) (e : SbEntry) : Bool :=
  match e.kind with
  | .scon _ => !((s.threadAt core e.frame).any fun t => t.holdsLine (e.loc.key / 64) s.cc) || s.mem.isPoisoned e.loc.key
  | _ => false

/-- An entry leaves the buffer of its core, as every older one has done before it (R84), and is applied; a store served outside the
core is a remote word request whose acknowledgement lands at once (log 5). An STEF is sent to its scratchpad (R319). -/
def State.applyEntry (s : State) (core : Nat) (e : SbEntry) : State :=
  let launch := e.tid.launch
  let out (x : SbEntry) : SbEntry := if x.num < e.num then { x with left := true } else x
  let s1 := s.modCore core fun c => { c with sb := (c.sb.filter fun x => x.num != e.num).map out }
  let away : Bool := !s1.servedHere core e.loc true
  let failed := s1.sconFails core e
  let s2 := if away then (s1.countCore core 0x00D launch).sent launch core else s1
  if e.kind == .stef then
    let w : WaitEntry := ⟨.stef, e.loc.key, core, e.frame, e.num, e.data, launch, away, e.bad⟩
    { s2 with net := { s2.net with fe := s2.net.fe ++ [⟨e.loc.receiver core, e.loc.key, w⟩] } }
  else
    let s3 := if failed then s2 else s2.reach core e.loc true launch
    let s4 := (s3.writeEntry core e).spoil e
    let s5 := if away && !failed then s4.writeBelow e.loc.key e.width e.loc.pol e.loc.msch launch else s4
    if away then s5.recvd launch (e.loc.receiver core) else s5

/-! ## Gathered WC stores (R122) -/

/-- Is an entry one that gathers: a WC store that is no release? -/
def SbEntry.gathers (e : SbEntry) : Bool := e.loc.pol == 1 && e.kind == .store && !e.rel && !e.bad

/-- The WC stores of a buffer to a line that can be gathered into one write, oldest first: `got` those found so far, `past` the
entries passed that are not gathered. -/
def State.gathered (s : State) (core line : Nat) : List SbEntry → List SbEntry → List SbEntry → List SbEntry
  | [], _, got => got
  | e :: r, past, got =>
    if e.gathers && e.loc.key / 64 == line && s.canApply core past e then s.gathered core line r past (got ++ [e])
    else s.gathered core line r (past ++ [e]) got

/-- Gathered stores leave the buffer, as every older entry has done before them (R84), and are applied as one write of their line, in age
order; one that covers the line is a whole-line write, which clears its poison (R107, R122). -/
def State.applyGather (s : State) (core : Nat) (g : List SbEntry) : State :=
  match g with
  | [] => s
  | e :: _ =>
    let launch := e.tid.launch
    let line := e.loc.key / 64
    let mask : BitVec 64 := g.foldl (fun m x => m ||| byteMask 64 (x.loc.key % 64) x.width) 0
    let out (x : SbEntry) : SbEntry := if g.any fun y => x.num < y.num then { x with left := true } else x
    let s1 := s.modCore core fun c => { c with sb := (c.sb.filter fun x => !(g.any fun y => y.num == x.num)).map out }
    let s2 := ((s1.countCore core 0x00D launch).sent launch core).agentTake e.loc true launch
    let s3 := g.foldl (fun s x => s.putBytes x.loc.key x.width x.data.toNat) s2
    let s4 := if mask == BitVec.allOnes 64 then { s3 with mem := s3.mem.setPoison (line * 64) false } else s3
    let s5 := if mask == BitVec.allOnes 64 then (s4.writeBelow (line * 64) 64 1 e.loc.msch launch).unlist line
      else g.foldl (fun s x => s.writeBelow x.loc.key x.width 1 x.loc.msch launch) s4
    s5.recvd launch core

/-! ## Leaving the buffer (R84, R97) -/

/-- May an entry leave the buffer: the older ones leave before it, each with the slot that it needs, and an STEF only as it is sent
(R84, R97, R319)? -/
def State.mayLeave (s : State) (core : Nat) (older : List SbEntry) (e : SbEntry) : Bool :=
  let n := s.slotsWith core ((older ++ [e]).filter fun x => !x.left)
  (older.all fun x => x.left || x.kind != .stef) && (n == s.slotsAt core || decide (n ≤ 64))

/-- An access of a core to a place whose line is busy, or has no way, has a request join the queue, once (R155, R158): its die's, or that
of the agent which serves it (R150). -/
def State.waitLineAs (s : State) (core : Nat) (l : Loc) (excl here : Bool) : Answer :=
  let line := l.key / 64
  if here then whenEnabled (!s.asked (dieOf core) line && !s.caps.fovr) (s.askLine (dieOf core) line excl)
  else
    let a := l.agent s.pkg + 16
    whenEnabled (!s.asked a line && !s.caps.fovr && !s.seamIdle line) (s.waitSeam a line excl)

def State.waitLine (s : State) (core : Nat) (l : Loc) (excl : Bool) : Answer := s.waitLineAs core l excl (s.servedHere core l excl)

/-! ## The coherence lane (R148) -/

/-- Is an entry one that misses in the L1 of its core as it is applied? An SC store has no wait beyond its slot (R137), and a failed SCON
stores nothing. -/
def State.missesLine (s : State) (core : Nat) (e : SbEntry) : Bool :=
  e.kind != .stsc && s.servedHere core e.loc true && (s.missLine core e.loc true).isSome && !s.sconFails core e

/-- The stores of a buffer and the place of the coherence request that one announces: it has left, as every older one has (R84). -/
def State.announceEntry (s : State) (core : Nat) (e : SbEntry) : State :=
  let p := s.lanePlace core (e.loc.key / 64) true
  let f (x : SbEntry) : SbEntry :=
    if x.num < e.num then { x with left := true } else if x.num = e.num then { x with left := true, lane := some p } else x
  s.modCore core fun c => { c with sb := c.sb.map f }

/-! ## Requests performed -/

/-- May a request go ahead under its release part and its place in S (R133, R136, R137)? -/
def State.inOrder (s : State) (earlier : List Req) (r : Req) : Bool :=
  match r.kind with
  | .load _ _ => r.win.all fun w =>
      decide (8 * w + 72 ≤ s.cc) && !s.scStoreBefore (w, r.core) (some [(r.loc.key, 8)])
  | .lres => true
  | .pref _ => true
  | _ => (!(r.rel || s.depWord r.loc.key) ||
        (s.released r.core r.frame r.num r.tok (if s.depWord r.loc.key then 6 else r.scope)
          && earlier.all fun x => !(x.core == r.core && x.tid == r.tid && x.kind.quiet)))
      && r.win.all fun w => decide (8 * w + 72 ≤ s.cc) && !s.scStoreBefore (w, r.core) (some [(r.loc.key, 8)])
        && !s.scLoadBefore (w, r.core) (some [(r.loc.key, 8)])

/-- The entries of a core's buffer that a request of one of its threads may take bytes of: those before a store of the thread itself that
comes after the request, and, for an SC load, before an STSC to its bytes, which follows it in S (R126, R129 (a), R136). -/
def State.before (s : State) (r : Req) : List SbEntry :=
  (s.coreOf r.core).sb.takeWhile fun e => !((r.ranges.any fun a => meets e.cover a) &&
    ((e.tid == r.tid && decide (r.num ≤ e.num)) || (r.win.isSome && e.kind == .stsc)))

/-- May the k-th request be performed now: the order of its thread's accesses, its release, its place in S, and its bank's refresh
(R101, R129, R133, R136)? A load takes buffered bytes of its core as it is performed (R125); an atomic waits for its own thread's entries
(R138). -/
def State.canServe (s : State) (earlier : List Req) (r : Req) : Bool :=
  let own (e : SbEntry) : Bool := e.tid == r.tid && decide (e.num < r.num)
  let waits (e : SbEntry) : Bool := mustFollow e.loc r.loc [] [] ||
    ((r.kind.excl || !e.forwards) && r.ranges.any fun a => meets e.cover a)
  (earlier.all fun x => !(x.core == r.core && x.tid == r.tid && mustFollow x.loc r.loc x.ranges r.ranges))
    && ((s.coreOf r.core).sb.all fun e => !(own e && waits e))
    && !s.aggBefore r.core r.frame r.tok r.loc r.ranges && !s.refreshes r.loc && s.inOrder earlier r

/-- A value of n bytes at an address with the bytes that a buffered store holds in their places (R125). -/
def SbEntry.overlay (e : SbEntry) (a n v : Nat) : Nat :=
  (List.range n).foldl (fun v i =>
    if e.loc.key ≤ a + i && a + i < e.loc.key + e.width then
      v - v / 256 ^ i % 256 * 256 ^ i + e.data.toNat / 256 ^ (a + i - e.loc.key) % 256 * 256 ^ i
    else v) v

/-- What a load that a request performs reads at n bytes: memory, with what its core's buffer forwards to it, oldest first (R96, R125). -/
def State.overlaid (s : State) (r : Req) (n v : Nat) : Nat :=
  ((s.before r).filter fun e => e.forwards).foldl (fun v e => e.overlay r.loc.key n v) v

/-- Does such a load take a poisoned byte: one of memory that no buffered store stands for? -/
def State.takesPoison (s : State) (r : Req) (n : Nat) : Bool :=
  s.mem.poisoned r.ranges && !(List.range n).all fun i => (s.before r).any fun e =>
    e.forwards && decide (e.loc.key ≤ r.loc.key + i) && decide (r.loc.key + i < e.loc.key + e.width)

/-- The thread of a load notes the youngest entry that it has taken bytes of (R126). -/
def State.sawBuffered (s : State) (r : Req) : State :=
  match ((s.before r).filter fun e => e.forwards && r.ranges.any fun a => meets e.cover a).getLast? with
  | some e => s.modThread r.core r.frame fun t => { t with seen := max t.seen (e.num + 1) }
  | none => s

/-- The request performed at its place: the value, its flags and whether poison was read. -/
def State.serveReq (s : State) (r : Req) : State × Word × BitVec 5 × Bool :=
  match r.kind with
  | .load w sx =>
    let s1 := s.injectAll r.ranges false
    let v := s1.mem.value r.loc w
    (s1.sawBuffered r, extendTo w sx (s1.overlaid r w v.1), v.2, s1.takesPoison r w)
  | .atomic op w x cmp =>
    let (s1, old, bad) := s.atomicAt r.loc op w x.toNat cmp.toNat
    (if op = 10 && !bad then s1.wakeJoin r.loc.key else s1, extendTo w true old, 0, bad)
  | .fetst =>
    let s1 := s.inject (r.loc.key / 8 * 8) false
    let full := s1.mem.isFull r.loc.key
    (if full then s1.setWord (r.loc.key / 8 * 8) false else s1, if full then 1 else 0, 0, false)
  | .lres =>
    let s1 := s.injectAll r.ranges false
    let s2 := s1.modThread r.core r.frame fun t => { t with resv := some ⟨r.loc.key / 64, s1.cc⟩ }
    (s2.sawBuffered r, extendTo 8 false (s2.overlaid r 8 (s2.mem.read r.loc.key 8)), 0, s2.takesPoison r 8)
  | .pref _ => (s, 0, 0, false)

/-- How many bytes a request that read a value writes at its place: none where a compare fails (R323). -/
def ReqKind.writes (k : ReqKind) (old : Word) : Option Nat :=
  match k with
  | .atomic op w _ cmp => if op = 9 && old.toNat % 256 ^ w ≠ cmp.toNat % 256 ^ w then none else some w
  | _ => none

/-! ## The coherence lane (R148) -/

/-- May the die of a core cache a line now (R163, R167)? -/
def State.mayCache (s : State) (core : Nat) (l : Loc) : Bool :=
  l.pol == 0 && !s.releasing l.key && !(s.caps.dless && (beyond (l.key / 64) || homeQuad s.pkg l.key / 64 != dieOf core))

/-- Does the core of a request serve it itself? A prefetch never leaves its core (R330). -/
def State.hereReq (s : State) (r : Req) : Bool :=
  match r.kind with
  | .pref _ => true
  | k => !r.remote && s.servedHere r.core r.loc k.excl

/-- Does a request miss in the L1 of its core, so that it stands on the lane? An SC operation has no wait beyond its slot (R137). -/
def State.missesReq (s : State) (r : Req) : Bool :=
  s.hereReq r && r.win.isNone && (s.missLine r.core r.loc r.kind.excl).isSome && s.mayCache r.core r.loc

/-- The places on the lane of the coherence requests of a die for a line that stand ready to take effect. -/
def State.ahead (s : State) (die line : Nat) : List ((Nat × Nat) × Nat) :=
  let ofReq (x : Req × Nat) : Option ((Nat × Nat) × Nat) :=
    if dieOf x.1.core == die && x.1.loc.key / 64 == line && s.missesReq x.1 && s.canServe (s.net.reqs.take x.2) x.1 then
      x.1.lane.map fun p => (p, x.1.core)
    else none
  let ofEntry (c : Core) (x : SbEntry × Nat) : Option ((Nat × Nat) × Nat) :=
    if x.1.loc.key / 64 == line && s.missesLine c.id x.1 && s.canApply c.id (c.sb.take x.2) x.1 then x.1.lane.map fun p => (p, c.id)
    else none
  s.net.reqs.zipIdx.filterMap ofReq ++ (s.dieCores die).flatMap fun c => c.sb.zipIdx.filterMap (ofEntry c)

/-- May the coherence request of a core at a place on the lane take effect: cc 8w + 72 has come, and none for its line stands before it
(R148)? One that has gone on to the seam holds no other back. -/
def State.laneTurn (s : State) (core line : Nat) (p : Nat × Nat) : Bool :=
  s.laneDue p && (s.asked (dieOf core) line || (s.ahead (dieOf core) line).all fun x => !earlierPlace x.1 x.2 p core)

/-- A prefetched line brought into the L1 of a core, or into the L2 of its die, where it displaces none of the L1 (R330). -/
def State.prefetch (s : State) (core : Nat) (l : Loc) (l2 : Bool) (launch : Nat) : State :=
  if !s.mayCache core l || ((s.coreOf core).l1Find (l.key / 64)).isSome then s
  else if !l2 then s.fill core l false launch
  else
    let l1 := (s.coreOf core).l1
    let t := (s.modCore core fun c => { c with l1 := [] }).fill core l false launch
    let p := ((t.coreOf core).l1Find (l.key / 64)).getD .s
    (t.modCore core fun c => { c with l1 := l1 }).putL2 (dieOf core) (l.key / 64) p

/-- The cores with a request or a store that a bank can serve now (R85). -/
def State.bankSources (s : State) (bank : Nat) : List Nat :=
  let ofReq (x : Req × Nat) : Option Nat :=
    if !s.hereReq x.1 && s.bankOf x.1.loc == bank && s.canServe (s.net.reqs.take x.2) x.1 && s.reachableAs x.1.core x.1.loc x.1.kind.excl false then
      some x.1.core
    else none
  let ofEntry (c : Core) (x : SbEntry × Nat) : Option Nat :=
    if !s.servedHere c.id x.1.loc true && s.bankOf x.1.loc == bank && s.canApply c.id (c.sb.take x.2) x.1 && s.mayLeave c.id (c.sb.take x.2) x.1
        && s.reachable c.id x.1.loc true then some c.id
    else none
  s.net.reqs.zipIdx.filterMap ofReq ++ s.allCores.flatMap fun c => c.sb.zipIdx.filterMap (ofEntry c)

/-- Is it a core's turn at the bank of a place: no other source that the bank can serve stands before it in the round (R85)? -/
def State.bankTurn (s : State) (l : Loc) (core : Nat) : Bool :=
  let b := s.bankOf l
  (s.bankSources b).all fun c => !decide (s.bankRank b c < s.bankRank b core)

/-- STORE_BUFFER_APPLY (R125): the k-th entry of a core's buffer is applied, with the WC stores gathered with it. One that misses is first
announced on the lane, and applied at its place there (R148). -/
def execStoreBufferApply (core k : Nat) (s : State) : Answer :=
  let c := s.coreOf core
  match c.sb[k]? with
  | none => .fault .notEnabled
  | some e =>
    let older := c.sb.take k
    let got := s.gathered core (e.loc.key / 64) c.sb [] []
    let past (x : SbEntry) : List SbEntry := c.sb.filter fun y => decide (y.num < x.num) && !got.any fun z => z.num == y.num
    let g := got.filter fun x => s.mayLeave core (past x) x
    let away := !s.servedHere core e.loc true
    if e.gathers then
      whenEnabled (g.contains e && s.reachable core e.loc true && s.bankTurn e.loc core) ((s.bankServed (s.bankOf e.loc) core).applyGather core g)
    else if !s.canApply core older e || !s.mayLeave core older e then .fault .notEnabled
    else if s.missesLine core e && e.lane.isNone then .next (s.announceEntry core e)
    else if s.missesLine core e && e.lane.any (fun p => !s.laneTurn core (e.loc.key / 64) p) then .fault .notEnabled
    else if s.sconFails core e then .next (s.applyEntry core e)
    else if !s.reachable core e.loc true then s.waitLine core e.loc true
    else if away then whenEnabled (s.bankTurn e.loc core) ((s.bankServed (s.bankOf e.loc) core).applyEntry core e)
    else .next (s.applyEntry core e)

/-! ## REMOTE_WORD_REQUEST -/

/-- A request that misses announced on the lane (R148). -/
def State.announceReq (s : State) (k : Nat) (r : Req) : State :=
  let p := s.lanePlace r.core (r.loc.key / 64) r.kind.excl
  { s with net := { s.net with reqs := s.net.reqs.set k { r with lane := some p } } }

/-- The reply of a request that has been performed at a place, with its result under a token: one to a core's scratchpad was received there as
it was applied (R79), any other is received at the issuing core as the result lands, or at once where none waits for it (R80). -/
def State.replied (s : State) (r : Req) : State :=
  let waits : Bool := (s.threadAt r.core r.frame).any fun t => t.pend.any fun p => p.tok == r.tok
  match r.loc.place with
  | .scratch k _ => s.recvd r.tid.launch k
  | _ =>
    if r.kind.quiet || !waits then s.recvd r.tid.launch r.core
    else s.modThread r.core r.frame fun t => { t with pend := t.pend.map fun p => if p.tok = r.tok then { p with recv := true } else p }

/-- REMOTE_WORD_REQUEST (R45): the k-th request is performed at the scratchpad or agent that serves it, in the turn of its core at the bank
(R85), or in its core at its place on the lane (R148), and its reply can land. -/
def execRemoteWordRequest (k : Nat) (s : State) : Answer :=
  match s.net.reqs[k]? with
  | none => .fault .notEnabled
  | some r =>
    let here := s.hereReq r
    if !s.canServe (s.net.reqs.take k) r then .fault .notEnabled
    else if s.missesReq r && r.lane.isNone then .next (s.announceReq k r)
    else if s.missesReq r && r.lane.any (fun p => !s.laneTurn r.core (r.loc.key / 64) p) then .fault .notEnabled
    else if !s.reachableAs r.core r.loc r.kind.excl here then s.waitLineAs r.core r.loc r.kind.excl here
    else if !here && !s.bankTurn r.loc r.core then .fault .notEnabled
    else
      let launch := r.tid.launch
      let s0 := if here then s else s.bankServed (s.bankOf r.loc) r.core
      let s1 := { s0 with net := { s0.net with reqs := s.net.reqs.eraseIdx k } }
      let s2 := match r.kind with
        | .pref l2 => s1.prefetch r.core r.loc l2 launch
        | _ => if here then s1.fillLoc r.core r.loc r.kind.excl launch else s1.agentTake r.loc r.kind.excl launch
      let (s3, v, fl, bad) := s2.serveReq r
      let s4 := if r.kind.quiet then s3
        else s3.modThread r.core r.frame fun t => t.deliver r.tok v fl (if bad then some r.loc.va else none)
      let s5 := match (if !here && !bad then r.kind.writes v else none) with
        | some n => s4.writeBelow r.loc.key n r.loc.pol r.loc.msch launch
        | none => s4
      .next (if r.remote then s5.replied r else s5)

/-! ## AGG_COMBINE -/

/-- Insert a participant in the order of R139: core number, then position, then issue. -/
def insertPart : List AggPart → AggPart → List AggPart
  | [], p => [p]
  | q :: r, p => if p.core < q.core || (p.core = q.core && p.pos < q.pos) then p :: q :: r else q :: insertPart r p

/-- Each participant's result, and the sum after it (R139). -/
def State.aggResults (s : State) (first bad : Nat) (va : Word) : List AggPart → Nat → State
  | [], _ => s
  | p :: r, v =>
    let s1 := s.modThread p.core p.frame fun t =>
      t.deliver p.tok (extendTo 4 true v) 0 (if bad = 1 then some va else none)
    let s2 := if p.core = first then s1 else (s1.sent p.launch first).recvd p.launch p.core
    s2.aggResults first bad va r ((v + p.addend.toNat) % 2 ^ 32)

/-- AGG_COMBINE (R139): 16 cc after its first add, a combination is performed as one relaxed atomic; to a dependence word it releases
for each of its participants (R144). -/
def execAggCombine (k : Nat) (s : State) : Answer :=
  match s.net.aggs[k]? with
  | none => .fault .notEnabled
  | some a =>
    match a.parts with
    | [] => .fault .notEnabled
    | p :: _ =>
      let held := s.depWord a.loc.key && a.parts.any fun q => !s.ordered q.core q.frame q.num q.tok 6
      if decide (s.cc < a.first + 16) || held || !s.reachable p.core a.loc true then .fault .notEnabled
      else
        let s1 := { s with net := { s.net with aggs := s.net.aggs.eraseIdx k } }
        let s2 := ((s1.countCore p.core 0x00D p.launch).sent p.launch p.core).agentTake a.loc true p.launch
        let total := a.parts.foldl (fun n q => n + q.addend.toNat) 0
        let (s3, old, bad) := s2.atomicAt a.loc 0 4 total 0
        let s4 := (if bad then s3 else s3.writeBelow a.loc.key 4 a.loc.pol a.loc.msch p.launch).recvd p.launch (a.loc.receiver p.core)
        .next (s4.aggResults p.core (if bad then 1 else 0) a.loc.va a.parts old)

end Sys2Proof.Machine
end

