-- ==== Sys2Proof/Machine/Mem.lean ====
section
/-! DEFINITION. Plain loads and stores and LDK (R312-R315), ordered loads and stores (R316, R317), the SC slots (R135). -/

namespace Sys2Proof.Machine

/-! ## What an access may reach (R90, R309) -/

/-- Windows a plain access accepts: window 1 at 8 bytes, the element windows for LDW, LDWZ and STW (R90). -/
def plainWindow (elements : Bool) (width w : Nat) : Bool := w == 0 || (w == 1 && width == 8) || (2 ≤ w && elements)

def accPlain (width : Nat) (kind : XKind) (elements : Bool) : Acc :=
  ⟨width, kind, plainWindow elements width, true, true, true, false⟩

/-- LDA, STL, LDSC, STSC: as a plain LDD or STD, through window 0 only. -/
def accOrdered (kind : XKind) : Acc := ⟨8, kind, (· == 0), true, true, true, false⟩

/-- Atomics, LRES, SCON: no weight store (R322, R326). -/
def accAtomic (width : Nat) (kind : XKind) : Acc := ⟨width, kind, (· == 0), false, true, true, false⟩

/-- Full/empty operations: scratchpad through window 0 (R318). -/
def accFull (kind : XKind) : Acc := ⟨8, kind, (· == 0), false, true, false, false⟩

/-- STF and STEF: also the scratchpad slot of a peer (R222). -/
def accFill : Acc := { accFull .store with peers := true }

/-- LDK: no device window (R315). -/
def accConst : Acc := ⟨8, .const, fun _ => false, false, false, true, false⟩

/-! ## SC slots (R135) -/

/-- The first window after the present one in which a core's slot is free. -/
def State.freeWindow (s : State) (core : Nat) : Nat :=
  let taken := (s.hem.filter fun x => x.1 == core).map fun x => x.2
  let w0 := s.cc / 8 + 1
  ((List.range (taken.length + 1)).find? fun i => !taken.contains (w0 + i)).getD 0 + w0

/-- Announce (R276): take the core's slot in that window. -/
def State.announce (s : State) : State :=
  let w := s.freeWindow s.core.id
  { s.modThr (fun t => { t with slot := some w }) with hem := s.hem ++ [(s.core.id, w)] }

/-- An SC fence of the issuing thread takes a slot and ends at cc 8w + 72 of its window; until then the thread parks with code 25
and issues the instruction again (R135, R328). -/
def State.scGate (s0 s : State) (k : State → State) : State :=
  match s.thr.slot with
  | none => let s1 := s0.announce; s1.parkOn 25 0 (8 * s1.thr.slot.getD 0)
  | some w => if s.slotOver s.core.id w then k (s.modThr fun t => { t with slot := none }) else s0.parkOn 25 0 (8 * w)

/-- The issuing thread, whose SC operation has its slot, waits with code 25 for cc 8w + 72 of it, or at a switch marker for its results
(R54, R135, R137). -/
def State.parkSlot (s : State) (sw : Bool) (w : Nat) : State :=
  s.modThr fun t => { t with park := some ⟨25, 0, 8 * w + (if sw then 4 else 3), s.cc, none⟩ }

/-- Are the accesses of a thread performed for the agents of a scope, none of which the thread has itself put before them (R129 (e))? -/
def State.ownBefore (s : State) (t : Thread) (scope : Nat) : Bool :=
  scope == 0 || (((s.coreOf t.core).sb.all fun e => e.tid != t.tid || (scope == 1 && e.forwards))
    && (s.net.reqs.all fun r => !(r.core == t.core && r.tid == t.tid))
    && (s.net.aggs.all fun a => !a.parts.any fun p => p.core == t.core && p.frame == t.frame)
    && ((s.sentStef t.core).all fun e => e.frame != t.frame) && t.pend.all fun p => p.ready)

/-- How many stores of its core come before an instruction of the issuing thread, as its first issue has fixed them (R133). -/
abbrev State.olderNum (s : State) : Nat := if s.thr.phase = 0 then s.core.sbNum else s.thr.phase - 1

/-- An SC load or atomic of the issuing thread takes its slot and becomes a request, performed no earlier than cc 8w + 72 of its
window and in the order S (R135-R137); the thread's later accesses wait behind it (R127). -/
def State.scRequest (s : State) (sw : Bool) (d : Dst) (kind : ReqKind) (l : Loc) (scope : Nat) : State :=
  let s1 := s.announce
  let w := s1.thr.slot.getD 0
  let away := s.reqAway kind l
  (((s1.modThr fun t => { t with slot := none }).requestAt kind l s.olderNum true scope (some w)).finishLong sw d
    { Pending.awaited away with acq := scope }).parkSlot (sw || d == .qdn) w

/-! ## Loads -/

/-- Park because a line has a transaction or no way: the die's request joins the queue of the line (R155, R158). -/
def State.parkLine (s : State) (l : Loc) (excl : Bool) : State :=
  (s.askLine (dieOf s.core.id) (l.key / 64) excl).parkOn 21 0 (l.key / 64)

/-- A load has read bytes that a sibling's buffered store holds (R126). -/
def State.noteRead (s : State) (rs : List (Nat × Nat)) : State :=
  match (s.core.hits rs).getLast? with
  | some e => if e.tid == s.thr.tid then s else s.modThr fun t => { t with seen := max t.seen (e.num + 1) }
  | none => s

/-- A load of the issuing thread, checked and translated (R313): from the store buffer, from the core, or as a request, remote or to the
lane (R148); `acq` is the scope of an acquire, 0 for none. A load that hits in the core is performed as it issues: two such loads of a run
never reorder (DESIGN CHOICE: R125 leaves the instant open; log 1). `s0` is the state to park or migrate from. -/
def State.loadAt (s0 s : State) (sw : Bool) (d : Dst) (l : Loc) (width : Nat) (sx : Bool) (acq : Nat) :
    State :=
  match s.look s.core (l.ranges width) with
  | .wait => s0.parkOn 20 l.va 0
  | .value v =>
    if s.ownPending l (l.ranges width) then s0.parkOn 20 l.va 0
    else
      let r := l.forward v
      (s.noteRead (l.ranges width)).finishLong sw d (Pending.ofLoad (extendTo width sx r.1) r.2 none)
  | .memory =>
    match s.serve l false false with
    | .here =>
      if s.ownPending l (l.ranges width) then s0.parkOn 20 l.va 0
      else if s.refreshes l then s0.parkOn 0 0 (100 + l.bank.getD 0)
      else match s.missLine s.core.id l false with
        | none =>
          let (s1, p) := (s.fillLoc s.core.id l false s.thr.launch).loadNow l width sx
          s1.finishLong sw d p
        | some line =>
          if !s.slotFor s.core.id l false then s0.parkOn 21 0 0
          else (s.request (.load width sx) l false 0 none).finishLong sw d { Pending.awaited true with line := some line, acq := acq }
    | .migrate n => s0.migrate n
    | .remote =>
      if !s.slotFree then s0.parkOn 21 0 0
      else (s.request (.load width sx) l false 0 none).finishLong sw d { Pending.awaited true with acq := acq }

/-- A plain load instruction. -/
def plainLoad (o : LdOp) (width : Nat) (sx elements : Bool) (s : State) : Answer :=
  withThread s (s.long1 o.b o.d fun s1 b =>
    s.withAccess s1 (b + sx13 o.disp) (accPlain width .load elements) true false fun s2 l =>
      s.loadAt s2 o.sw o.d l width sx 0)

def execLdb (o : LdOp) (s : State) : Answer := plainLoad o 1 true false s
def execLdh (o : LdOp) (s : State) : Answer := plainLoad o 2 true false s
def execLdw (o : LdOp) (s : State) : Answer := plainLoad o 4 true true s
def execLdd (o : LdOp) (s : State) : Answer := plainLoad o 8 true false s
def execLdbz (o : LdOp) (s : State) : Answer := plainLoad o 1 false false s
def execLdhz (o : LdOp) (s : State) : Answer := plainLoad o 2 false false s
def execLdwz (o : LdOp) (s : State) : Answer := plainLoad o 4 false true s

/-! ## Stores -/

/-- Is the place an element of a narrowing window (R91)? -/
def Loc.narrows (l : Loc) : Bool :=
  match l.place with
  | .scratch _ w => 2 ≤ w
  | _ => false

/-- A store of the issuing thread, checked and translated (R314): into the store buffer, at the home quad's core where it
migrates. -/
def State.storeAt (s0 s : State) (sw : Bool) (kind : SbKind) (l : Loc) (width : Nat) (v : Word) (rel : Bool)
    (scope : Nat) : State :=
  match s.serve l true false with
  | .migrate n => s0.migrate n
  | _ =>
    if s.sbFull then s0.parkOn 12 0 0
    else s0.unlessDropped s rel scope fun s => (s.enter (if l.narrows then .narrow else kind) l width v rel scope 0).retire sw

/-- A plain store instruction. -/
def plainStore (o : StOp) (width : Nat) (elements : Bool) (s : State) : Answer :=
  withThread s (s.gather2 o.b o.v .gz fun s1 b v =>
    s.withAccess s1 (b + sx13 o.disp) (accPlain width .store elements) false true fun s2 l =>
      s.storeAt s2 o.sw .store l width v false 0)

def execStb (o : StOp) (s : State) : Answer := plainStore o 1 false s
def execSth (o : StOp) (s : State) : Answer := plainStore o 2 false s
def execStw (o : StOp) (s : State) : Answer := plainStore o 4 true s
def execStd (o : StOp) (s : State) : Answer := plainStore o 8 false s

/-! ## LDK (R99, R315) -/

/-- A line of the constant cache of a cluster, filled if it is not there. DESIGN CHOICE (log 11): R99 gives only the size, 64 KiB; the
model keeps the 1,024 lines filled last, fully associative. -/
def State.fillConst (s : State) (cl line : Nat) : State :=
  if (s.clusterAt cl).kc.any fun x => x.1 == line then s
  else s.modCluster cl fun c => { c with
    kc := ((line, BitVec.ofNat 512 (s.mem.read (line * 64) 64)) :: c.kc).take 1024 }

/-- What the constant cache holds at an address. -/
def State.constRead (s : State) (cl pa : Nat) : Word :=
  match (s.clusterAt cl).kc.find? fun x => x.1 == pa / 64 with
  | some x => BitVec.ofNat 64 (x.2.toNat / 256 ^ (pa % 64))
  | none => 0

/-- LDK (R315): through the constant cache of the cluster. Of a peer's memory nothing is cached: there it is a load of the peer (R222). -/
def execLdk (o : LdOp) (s : State) : Answer :=
  withThread s (s.long1 o.b o.d fun s1 b =>
    s.withAccess s1 (b + sx13 o.disp) accConst true false fun s2 l =>
      match l.place with
      | .peer _ => s.loadAt s2 o.sw o.d l 8 true 0
      | _ =>
        let cl := clusterOf s2.core.id
        let s3 := s2.fillConst cl (l.key / 64)
        s3.finishLong o.sw o.d
          (Pending.ofLoad (s3.constRead cl l.key) 0 (if s3.mem.isPoisoned l.key then some l.va else none)))

/-! ## Ordered loads and stores -/

/-- LDA (R316): acquire when ord = 1, which at thread scope orders nothing more (R127, R129). -/
def execLda (o : OLd) (s : State) : Answer :=
  withThread s (s.long1 o.b o.d fun s1 a =>
    s.withAccess s1 a (accOrdered .load) true false fun s2 l =>
      s.loadAt s2 o.sw o.d l 8 true (if o.ord = 1 then o.scope.toNat else 0))

/-- STL (R316): release when ord = 2; at thread scope it is not held (R133). -/
def execStl (o : OSt) (s : State) : Answer :=
  withThread s (s.gather2 o.a o.b .gz fun s1 v a =>
    s.withAccess s1 a (accOrdered .store) false true fun s2 l =>
      s.storeAt s2 o.sw .store l 8 v (o.ord == 2 && o.scope != 0) o.scope.toNat)

/-- LDSC (R317): a migration comes first, then the thread's earlier accesses, so that nothing but S is left to wait for (R129 (e), R137;
DEDUCED, log 71), then a buffered entry that it meets (R96), then the slot; the load is performed at its place in S. -/
def execLdsc (o : SLd) (s : State) : Answer :=
  withThread s (s.long1 o.b o.d fun s1 a =>
    s.withAccess s1 a (accOrdered .load) true false fun s2 l =>
      match s2.serve l false false with
      | .migrate n => s.migrate n
      | _ =>
        if !s2.ownBefore s2.thr o.scope.toNat then s.parkOn 25 0 (8 * o.scope.toNat + 2)
        else if s2.look s2.core [(l.key, 8)] = .wait then s.parkOn 20 a 0
        else if s2.reqAway (.load 8 true) l && !s2.slotFree then s.parkOn 21 0 0
        else s.unlessDropped s2 true o.scope.toNat fun s2 => s2.scRequest o.sw o.d (.load 8 true) l o.scope.toNat)

/-- The cc an STSC not yet in a slot is held to. -/
abbrev never : Nat := 2 ^ 80

/-- STSC once it is in the buffer: its wait under R133, then its slot (R135); the thread goes on once the store is performed, since
the store is an acquire too (R127, R129 (d)). -/
def State.stscSlot (s : State) (sw : Bool) : State :=
  let num := s.thr.phase - 1
  match s.core.sb.find? fun e => e.num == num with
  | none => s.retire sw
  | some e =>
    if e.notBefore = never && s.ordered s.core.id s.thr.frame num e.tok e.scope then
      let w := s.freeWindow s.core.id
      let f (x : SbEntry) : SbEntry := if x.num = num then { x with rel := false, notBefore := 8 * w + 72 } else x
      { s with
        core := { s.core with sb := s.core.sb.map f }
        hem := s.hem ++ [(s.core.id, w)] }.parkOn 25 0 (8 * num + 1)
    else s.parkOn 25 0 (8 * num + 1)

/-- STSC (R317). -/
def execStsc (o : SSt) (s : State) : Answer :=
  withThread s
    (if s.thr.phase ≠ 0 then s.stscSlot o.sw
    else s.gather2 o.a o.b .gz fun s1 v a =>
      s.withAccess s1 a (accOrdered .store) false true fun s2 l =>
        match s2.serve l true false with
        | .migrate n => s.migrate n
        | _ =>
          if s2.sbFull then s.parkOn 12 0 0
          else s.unlessDropped s2 true o.scope.toNat fun s2 =>
            ((s2.phase (s2.core.sbNum + 1)).enter .stsc l 8 v true o.scope.toNat never).stscSlot o.sw)

end Sys2Proof.Machine
end

