-- ==== Sys2Proof/Machine/Sync.lean ====
section
/-! DEFINITION. Full/empty operations (R318-R321), atomics (R322-R325), reservations (R326, R327), FENCE (R328), cache
operations and WSWAIT (R329-R331). -/

namespace Sys2Proof.Machine

/-! ## Full/empty operations -/

/-- Must the issuing thread wait for a buffered entry that shares bytes with a place: an older one of its own (R138, R319), or one
of a sibling that is performed for the core and that the thread may have read, or acquired from a release at core scope (R126, R132)? A
release at core scope follows every entry below `performed`, and each of these is applied without a wait for another thread's word. -/
def State.ownBuffered (s : State) (key width : Nat) : Bool :=
  (s.core.sb.any fun e => (e.frame == s.thr.frame || (e.forwards && decide (e.num < max s.thr.seen (s.performed s.core.id 1)))) &&
      meets e.cover (key, width)) ||
    (s.sentStef s.core.id).any fun e => e.frame == s.thr.frame && meets (e.key, 8) (key, width)

/-- Has the issuing thread an older buffered entry that its access to a place must follow: one of DEV memory before another, or
one of a line of a peer (R145, R223)? -/
def State.ownOrdered (s : State) (l : Loc) (width : Nat) : Bool :=
  s.core.sb.any fun e => e.tid == s.thr.tid && mustFollow e.loc l [e.cover] [(l.key, width)]

/-- Is the place outside the issuing core? -/
def State.away (s : State) (l : Loc) : Bool := !s.servedHere s.core.id l true

/-- LDF and LDFE (R318, R319): sent to the scratchpad; the thread parks at the instruction until it is applied. -/
def waitLoad (kind : FeKind) (o : SLd) (s : State) : Answer :=
  withThread s (s.long1 o.b o.d fun s1 a =>
    s.withAccess s1 a (accFull .load) true false fun s2 l =>
      if s2.ownBuffered l.key 8 || s2.ownPending l [(l.key, 8)] then s.parkOn 20 a 0
      else if s2.away l && !s2.slotFree then s.parkOn 21 0 0
      else
        let c := s2.core.id
        let e : WaitEntry := ⟨kind, l.key, c, s2.thr.frame, s2.thr.seq, 0, s2.thr.launch, s2.away l, false⟩
        let s3 := if e.remote then (s2.countCore c 0x00D e.launch).sent e.launch c else s2
        let s4 : State := { s3 with net := { s3.net with fe := s3.net.fe ++ [⟨l.receiver c, l.key, e⟩] } }
        ((s4.long o.d (Pending.awaited e.remote)).phase (if o.sw || o.d == Dst.qdn then 2 else 1)).parkFor 2 a l.key none)

def execLdf (o : SLd) (s : State) : Answer := waitLoad .ldf o s
def execLdfe (o : SLd) (s : State) : Answer := waitLoad .ldfe o s

/-- STF (R319): enters the store buffer like an STL with release at its scope. -/
def execStf (o : SSt) (s : State) : Answer :=
  withThread s (s.gather2 o.a o.b .gz fun s1 v a =>
    s.withAccess s1 a accFill false true fun s2 l =>
      if s2.sbFull then s.parkOn 12 0 0
      else s.unlessDropped s2 true o.scope.toNat fun s2 => (s2.enter .stf l 8 v (o.scope != 0) o.scope.toNat 0).retire o.sw)

/-- STEF (R319): enters the store buffer; the thread parks at the instruction until it is applied. -/
def execStef (o : SSt) (s : State) : Answer :=
  withThread s (s.gather2 o.a o.b .gz fun s1 v a =>
    s.withAccess s1 a accFill false true fun s2 l =>
      if s2.sbFull then s.parkOn 12 0 0
      else s.unlessDropped s2 true o.scope.toNat fun s2 =>
        ((s2.enter .stef l 8 v (o.scope != 0) o.scope.toNat 0).phase (if o.sw then 2 else 1)).parkFor 2 a l.key none)

/-- SETE (R319): relaxed. -/
def execSete (o : SeteOp) (s : State) : Answer :=
  withThread s (s.gather1 o.b .gz fun s1 a =>
    s.withAccess s1 a (accFull .store) false true fun s2 l =>
      if s2.sbFull then s.parkOn 12 0 0
      else (s2.enter .sete l 8 0 false o.scope.toNat 0).retire o.sw)

/-- FETST (R318): 1 if the word was full, which it leaves empty. -/
def execFetst (o : SLd) (s : State) : Answer :=
  withThread s (s.long1 o.b o.d fun s1 a =>
    s.withAccess s1 a (accFull .load) true false fun s2 l =>
      if s2.ownBuffered l.key 8 then s.parkOn 20 a 0
      else if s2.away l then
        if !s2.slotFree then s.parkOn 21 0 0
        else (s2.request .fetst l false 0 none).finishLong o.sw o.d { Pending.awaited true with acq := o.scope.toNat }
      else if s2.ownPending l [(l.key, 8)] then s.parkOn 20 a 0
      else
        let s3 := s2.inject l.key false
        let full := s3.mem.isFull l.key
        (if full then s3.setWord l.key false else s3).finishLong o.sw o.d
          { Pending.ofVal (if full then 1 else 0) 0 with load := true })

/-! ## Atomics -/

/-- An atomic of the issuing thread, checked and translated (R138, R323): SC waits for its release part and takes its slot (R135);
a release waits as a request under R133, and so does one to a dependence word (R144); else it is performed in the core, where it hits
there, or is sent, or waits for its line (R148). -/
def State.atomicOp (s0 s : State) (sw : Bool) (d : Dst) (l : Loc) (op width : Nat) (x cmp : Word) (ord scope : Nat) :
    State :=
  if s.ownBuffered l.key width then s0.parkOn 20 l.va 0
  else
    let acq := if ord = 1 then scope else 0
    let rel := ord == 2 && scope != 0
    let kind : ReqKind := .atomic op width x cmp
    match s.serve l true true with
    | .migrate n => s0.migrate n
    | way =>
      if ord = 3 then s0.release s scope fun s =>
        if way == .remote && !s.slotFree then s0.parkOn 21 0 0 else s0.unlessDropped s true scope fun s => s.scRequest sw d kind l scope
      else s0.unlessDropped s rel scope fun s =>
        let miss := if way == .remote then none else s.missLine s.core.id l true
        if way == .remote || rel || s.depWord l.key || miss.isSome then
          if (if way == .remote then !s.slotFree else !s.slotFor s.core.id l true) then s0.parkOn 21 0 0
          else (s.request kind l rel scope none).finishLong sw d
            { Pending.awaited (way == .remote || miss.isSome) with line := miss, acq := acq }
        else if s.ownPending l [(l.key, width)] then s0.parkOn 20 l.va 0
        else
          let (s1, old, bad) := (s.fillLoc s.core.id l true s.thr.launch).atomicAt l op width x.toNat cmp.toNat
          s1.finishLong sw d (Pending.ofLoad (extendTo width true old) 0 (if bad then some l.va else none))

/-- An atomic without a compare operand. -/
def atomic (op width : Nat) (o : AtOp) (s : State) : Answer :=
  withThread s (s.long2 o.a o.b o.d fun s1 x a =>
    s.withAccess s1 a (accAtomic width .store) true true fun s2 l =>
      s.atomicOp s2 o.sw o.d l op width x 0 o.ord.toNat o.scope.toNat)

/-- Compare and swap (R323): gd is source and destination. -/
def atomicCas (width : Nat) (o : CasOp) (s : State) : Answer :=
  withThread s (s.long3 o.a o.b o.d.src o.d.dst fun s1 x a c =>
    s.withAccess s1 a (accAtomic width .store) true true fun s2 l =>
      s.atomicOp s2 o.sw o.d.dst l 9 width x c o.ord.toNat o.scope.toNat)

def execAadd (o : AtOp) (s : State) : Answer := atomic 0 8 o s
def execAand (o : AtOp) (s : State) : Answer := atomic 1 8 o s
def execAor (o : AtOp) (s : State) : Answer := atomic 2 8 o s
def execAxor (o : AtOp) (s : State) : Answer := atomic 3 8 o s
def execAmin (o : AtOp) (s : State) : Answer := atomic 4 8 o s
def execAmax (o : AtOp) (s : State) : Answer := atomic 5 8 o s
def execAminu (o : AtOp) (s : State) : Answer := atomic 6 8 o s
def execAmaxu (o : AtOp) (s : State) : Answer := atomic 7 8 o s
def execAswp (o : AtOp) (s : State) : Answer := atomic 8 8 o s
def execAcas (o : CasOp) (s : State) : Answer := atomicCas 8 o s
def execAaddW (o : AtOp) (s : State) : Answer := atomic 0 4 o s
def execAandW (o : AtOp) (s : State) : Answer := atomic 1 4 o s
def execAorW (o : AtOp) (s : State) : Answer := atomic 2 4 o s
def execAxorW (o : AtOp) (s : State) : Answer := atomic 3 4 o s
def execAminW (o : AtOp) (s : State) : Answer := atomic 4 4 o s
def execAmaxW (o : AtOp) (s : State) : Answer := atomic 5 4 o s
def execAminuW (o : AtOp) (s : State) : Answer := atomic 6 4 o s
def execAmaxuW (o : AtOp) (s : State) : Answer := atomic 7 4 o s
def execAswpW (o : AtOp) (s : State) : Answer := atomic 8 4 o s
def execAcasW (o : CasOp) (s : State) : Answer := atomicCas 4 o s

/-- Is a combination one of a quad to a word, begun within 16 cc (R139)? -/
def Agg.open_ (a : Agg) (quad key cc : Nat) : Bool := a.quad == quad && a.loc.key == key && decide (cc < a.first + 16)

/-- Join a combination of the quad to the word begun within 16 cc, or begin one (R139). -/
def joinAgg (l : List Agg) (quad cc : Nat) (loc : Loc) (p : AggPart) : List Agg :=
  match l with
  | [] => [⟨quad, loc, cc, [p]⟩]
  | a :: r =>
    if a.open_ quad loc.key cc then { a with parts := insertPart a.parts p } :: r
    else a :: joinAgg r quad cc loc p

/-- AADD.agg (R139, R325): never migrates. An earlier one of the thread in the combination that it joins does not hold it back. -/
def execAaddAgg (o : R3) (s : State) : Answer :=
  withThread s (s.long2 o.a o.b o.d fun s1 x a =>
    s.withAccess s1 a (accAtomic 4 .store) true true fun s2 l =>
      let others : State := { s2 with net := { s2.net with
        aggs := s2.net.aggs.filter fun a => !a.open_ (quadOf s2.core.id) l.key s2.cc } }
      if s2.ownBuffered l.key 4 || s2.ownOrdered l 4 || others.ownPending l [(l.key, 4)] then s.parkOn 20 a 0
      else if !s2.slotFree then s.parkOn 21 0 0
      else
        let p : AggPart := ⟨s2.core.id, s2.thr.pos.getD 0, s2.thr.frame, s2.thr.seq, x.setWidth 32, s2.thr.launch, s2.core.sbNum⟩
        let s3 := { s2 with net := { s2.net with aggs := joinAgg s2.net.aggs (quadOf s2.core.id) s2.cc l p } }
        s3.finishLong o.sw o.d (Pending.awaited true))

/-! ## Reservations -/

/-- Is a place one of another package? -/
def Loc.isPeer (l : Loc) : Bool :=
  match l.place with
  | .peer _ => true
  | _ => false

/-- LRES (R326): the reservation is taken at the instant the read is performed (R140). No place of another package holds one. -/
def execLres (o : OLd) (s : State) : Answer :=
  withThread s (s.long1 o.b o.d fun s1 a =>
    s.withAccess s1 a (accAtomic 8 .load) true false fun s2 l =>
      if l.isPeer then s.trap (cause cPROT a) else
      match s2.look s2.core [(l.key, 8)] with
      | .wait => s.parkOn 20 a 0
      | v =>
        match s2.serve l false false with
        | .here =>
          if s2.ownPending l [(l.key, 8)] then s.parkOn 20 a 0
          else match s2.missLine s2.core.id l false with
            | none =>
              let (s3, p) := ((s2.noteRead [(l.key, 8)]).fillLoc s2.core.id l false s2.thr.launch).loadNow l 8 false
              let q := match v with
                | .value x => Pending.ofLoad (extendTo 8 false x) 0 none
                | _ => p
              (s3.modThr fun t => { t with resv := some ⟨l.key / 64, s3.cc⟩ }).finishLong o.sw o.d q
            | some line =>
              if !s2.slotFor s2.core.id l false then s.parkOn 21 0 0
              else (s2.request .lres l false 0 none).finishLong o.sw o.d
                { Pending.awaited true with line := some line, acq := if o.ord = 1 then o.scope.toNat else 0 }
        | .migrate n => s.migrate n
        | .remote =>
          if v != .memory then s.parkOn 20 a 0
          else if !s2.slotFree then s.parkOn 21 0 0
          else (s2.request .lres l false 0 none).finishLong o.sw o.d
            { Pending.awaited true with acq := if o.ord = 1 then o.scope.toNat else 0 })

/-- SCON (R326): enters the store buffer; success is decided when it is applied. -/
def execScon (o : AtOp) (s : State) : Answer :=
  withThread s (s.long2 o.a o.b o.d fun s1 v a =>
    s.withAccess s1 a (accAtomic 8 .store) false true fun s2 l =>
      if l.isPeer then s.trap ⟨cPROT, true, false, a⟩ else
      match s2.serve l true false with
      | .migrate n => s.migrate n
      | _ =>
        if s2.sbFull then s.parkOn 12 0 0
        else s.unlessDropped s2 (o.ord == 2) o.scope.toNat fun s2 =>
          (s2.enter (.scon s2.thr.seq) l 8 v (o.ord == 2 && o.scope != 0) o.scope.toNat 0).finishLong o.sw o.d
            (Pending.awaited false))

/-- WRS (R327): parks at the next instruction until the reservation is lost, and at its switch marker for the results outstanding (R54). It
reads nothing, so no watch meets it (R140, R337). -/
def execWrs (o : WrsOp) (s : State) : Answer :=
  withThread s (s.gather1 o.b o.d fun s1 a =>
    s.withAccess s1 a (accOrdered .load) false false fun s2 l =>
      if s2.thr.holdsLine (l.key / 64) s2.cc then
        (s2.finish false o.d 0).parkFor 10 (BitVec.ofNat 64 (l.key / 64 * 64)) (l.key / 64 * 2 + (if o.sw then 1 else 0)) none
      else s2.finish o.sw o.d 1)

/-- RESERVATION_LAPSE (R140): 4,096 cc after its LRES a reservation is lost. -/
def execReservationLapse (core frame : Nat) (s : State) : Answer :=
  whenEnabled ((s.threadAt core frame).any fun t => t.resv.any fun r => decide (r.cc + 4096 ≤ s.cc))
    (s.modThread core frame fun t => { t with resv := none })

/-! ## FENCE -/

/-- FENCE (R328): the first issue fixes which stores are older. A fence at node scope or wider takes UCE for a dropped peer
store (R224). An SC fence then takes its place in S. -/
def execFence (o : FenceOp) (s : State) : Answer :=
  withThread s (s.gather [] .gz fun s _ =>
    let scope := o.scope.toNat
    let mask := o.mask.toNat
    let num := s.olderNum
    if s.thr.slot.isNone && !s.olderDone s.thr mask num scope then
      (s.phase (num + 1)).parkOn 26 (BitVec.ofNat 64 mask) (num * 16 + scope)
    else s.unlessDropped s true scope fun s =>
      if o.ord = 3 then (s.phase (num + 1)).scGate (s.phase (num + 1)) fun s => s.retire o.sw else s.retire o.sw)

/-! ## Cache operations -/

/-- Access of a cache operation: no format window, which accepts none (R90), no alignment, as a load (R308, R329). -/
def accLine : Acc := ⟨1, .load, (· == 0), true, true, true, false⟩

/-- A line invalidated on one die after its dirty data has been written back (R330). -/
def State.dropLine (s : State) (die line : Nat) : State :=
  let dirty := s.dieDirty die line
  let s1 := s.invalDie die line
  match s1.dirOf line with
  | none => if dirty then s1.writeBack line else s1
  | some e =>
    if e.st != .s && e.owner == die then s1.giveRequest die line (.wb dirty)
    else if e.sharers.getLsbD die then s1.giveRequest die line .evc
    else s1

/-- A cache operation: it follows the thread's earlier accesses to its line (R129 (a)), acts, and stays an outstanding result
until it lands (R310). One that concerns the whole package waits for a transaction on its line: its die's request, of the kind `ask`, joins
the queue of the line (R155; DESIGN CHOICE, log 63). -/
def cacheOp (o : CacheOp) (s : State) (ask : Option Bool) (act : State → Nat → Bool → State) : Answer :=
  withThread s (s.gather1 o.b .gz fun s1 b =>
    let a := b + sx13 o.disp
    s.withAccess s1 a accLine false false fun s2 l =>
      let line := l.key / 64
      let mem := match l.place with
        | .scratch _ _ => false
        | .weight _ => false
        | _ => true
      if mem && (s2.ownBuffered (line * 64) 64 || s2.ownPending l [(line * 64, 64)]) then
        s.parkOn 20 a 0
      else if l.cached && ask.isSome && !s2.seamIdle line then
        (s.waitSeam (dieOf s.core.id) line (ask.getD false)).parkOn 21 0 line
      else
        let s3 := if mem then act s2 line l.cached else s2
        s3.finishLong o.sw .gz { Pending.ofVal 0 0 with cache := true })

def execCflush (o : CacheOp) (s : State) : Answer :=
  cacheOp o s (some true) fun s line wb => if wb then s.recallLine line else s

def execCclean (o : CacheOp) (s : State) : Answer :=
  cacheOp o s (some false) fun s line wb => if wb then s.cleanLine line else s

/-- CINV: also the constant cache of the cluster, for a K page (R99, R330). -/
def execCinv (o : CacheOp) (s : State) : Answer :=
  cacheOp o s none fun s line wb =>
    let s1 := if wb then s.dropLine (dieOf s.core.id) line else s
    if (s1.clusterAt (clusterOf s1.core.id)).kc.any fun x => x.1 == line then
      s1.modCluster (clusterOf s1.core.id) fun c => { c with kc := c.kc.filter fun x => x.1 != line }
    else s1

/-- Is the page of an address a constant page (R330)? -/
def State.constPage (s : State) (va : Nat) : Bool :=
  match s.lookup s.core.id (s.tableOf s.thr) va with
  | .ok x => x.leaf / 16 % 2 == 1
  | .error _ => false

/-- PREF (R330): fetches the line for sharing, announced on the lane (R148); a failed translation drops it (R329), and so does, without a
directory, a line that only another die may cache (R163), and a line of an extent under release (R167). PREF MSC reads the line at its
channel. -/
def execPref (o : PrefOp) (s : State) : Answer :=
  withThread s (s.gather1 o.b .gz fun s1 b =>
    let a := b + sx13 o.disp
    let drop := s1.finishLong o.sw .gz (Pending.ofVal 0 0)
    if s1.mustWalk s1.thr a 1 then s.parkWalk a else
    match s1.access s1.thr a accLine with
    | .error ti =>
      if canonical a.toNat && !inWindow a.toNat && (s1.thr.sup || decide (a.toNat < 2 ^ 56)) then drop
      else s.trap ti
    | .ok (l, x) =>
      let s2 := match x with
        | some x => s1.touch s1.core.id (s1.tableOf s1.thr) x false s1.thr.launch
        | none => s1
      let line := l.key / 64
      if !l.cached || s2.constPage a.toNat || s2.releasing l.key || (s2.caps.dless && (beyond line || homeQuad s2.pkg l.key / 64 != dieOf s2.core.id)) then
        s2.finishLong o.sw .gz (Pending.ofVal 0 0)
      else if o.hint = 2 then
        if !s2.slotFree then s.parkOn 21 0 0 else
        (if l.place == .hbm then s2.mscRead line 1 s2.thr.launch else s2).finishLong o.sw .gz { Pending.ofVal 0 0 with slot := true }
      else if (s2.coreOf s2.core.id).l1Find line != none then s2.finishLong o.sw .gz (Pending.ofVal 0 0)
      else if !s2.missOut s2.core.id line && !s2.slotFree then s.parkOn 21 0 0
      else (s2.request (.pref (o.hint = 1)) l false 0 none).finishLong o.sw .gz
        { Pending.awaited true with load := false, line := some line })

/-! ## WSWAIT -/

/-- WSWAIT (R331): an address of the own die's weight store. -/
def execWswait (o : CacheOp) (s : State) : Answer :=
  withThread s (s.gather1 o.b .gz fun s1 b =>
    let a := b + sx13 o.disp
    s.withAccess s1 a ⟨1, .load, fun _ => false, true, false, false, false⟩ false false fun s2 l =>
      if l.place ≠ .weight (dieOf s2.core.id) then s.trap (cause cPROT a)
      else
        let g := (l.key - weightBase) % 0x40000000 / 0x1800000
        if refreshing s2.cc g then s.parkOn 17 a g else s2.retire o.sw)

/-- WEIGHT_REFRESH_START (R101): time reaches the next refresh window of a group. -/
def execWeightRefreshStart (die group : Nat) (s : State) : Answer :=
  whenEnabled (decide (die < s.pkg.dies) && decide (group < 32) && !refreshing s.cc group)
    { s with cc := if s.cc < 2400 * group then 2400 * group
        else (s.cc - 2400 * group) / 76800 * 76800 + 76800 + 2400 * group }

/-- WEIGHT_REFRESH_END (R101): the window of a group in refresh ends. -/
def execWeightRefreshEnd (die group : Nat) (s : State) : Answer :=
  whenEnabled (decide (die < s.pkg.dies) && decide (group < 32) && refreshing s.cc group)
    { s with cc := (s.cc - 2400 * group) / 76800 * 76800 + 1920 + 2400 * group }

end Sys2Proof.Machine
end

