-- ==== Sys2Proof/Machine/Deque.lean ====
section
/-! DEFINITION. The task deques with their overflow areas (R59-R63, R354), the join word (R353), finishing a task, kills
(R355, R379) and the end of a thread by HALT (R304). -/

namespace Sys2Proof.Machine

/-! ## Overflow areas (R60, R61) -/

/-- A write of a launch that the launcher, the spill engine, the deque unit or a copy makes at a place of memory. -/
def State.engineWrite (s : State) (l : Loc) (n v launch : Nat) : State :=
  let s1 := (s.agentTake l true launch).putBytes l.key n v
  match l.place with
  | .scratch _ _ => s1
  | .weight _ => s1
  | _ => s1.writeBelow l.key n l.pol l.msch launch

/-- Entries of a launch in the area of a core. -/
def Launch.ovf (l : Launch) (core : Nat) : Nat := ((l.counts.find? fun c => c.core == core).map fun c => c.ovf).getD 0

/-- Address of the i-th entry of a launch's region for a core, none for a core outside the rectangle (R61). -/
def State.ovfAddr (s : State) (l : Launch) (core i : Nat) : Option Word :=
  match (s.rectCores l.info).findIdx? fun c => c == core with
  | some c => some (l.info.dqovf + BitVec.ofNat 64 (c * 0x10000 + i * 64))
  | none => none

/-- Word 6 of an entry in the area (R61); a cleared tag is written as all ones (log 21). -/
def DqEntry.word6 (e : DqEntry) : Nat :=
  e.launch % 2 ^ 32 + (e.tag.getD 0xFFFF) % 0x10000 * 2 ^ 32 + (if e.dead then 2 ^ 63 else 0)

/-- An entry read from the area of a launch: whatever word 6 holds of a launch id, the entry is one of that launch (R12, R61). -/
def DqEntry.ofWords (launch : Nat) (w : Nat → Word) : DqEntry :=
  ⟨aligned (w 0), w 1, w 2, w 3, w 4, w 5, launch,
    if fieldOf (w 6) 32 16 = 0xFFFF then none else some (fieldOf (w 6) 32 16), (w 6).getLsbD 63⟩

/-- The i-th entry of a launch in the area of a core. -/
def State.ovfRead (s : State) (l : Launch) (core i : Nat) : Option DqEntry :=
  match s.ovfAddr l core i with
  | none => none
  | some a => (s.tenantLoc core l.info.tenant a false).map fun loc =>
      DqEntry.ofWords l.id fun n => BitVec.ofNat 64 (s.mem.read (loc.key + 8 * n) 8)

/-- Can the i-th entry be written? A place of the area with no valid translation is taken as full, and `ovfList` drops an entry that
cannot be read (DESIGN CHOICE: R61 says nothing of either; log 63). -/
def State.ovfFits (s : State) (l : Launch) (core i : Nat) : Bool :=
  i < 1024 && match s.ovfAddr l core i with
    | some a => (s.tenantLoc core l.info.tenant a true).isSome
    | none => false

/-- Write the i-th entry. -/
def State.ovfWrite (s : State) (l : Launch) (core i : Nat) (e : DqEntry) : State :=
  match s.ovfAddr l core i with
  | none => s
  | some a =>
    match s.tenantLoc core l.info.tenant a true with
    | none => s
    | some loc =>
      let ws := [e.pc.toNat, e.g11.toNat, e.g12.toNat, e.g13.toNat, e.g14.toNat, e.tb.toNat, e.word6, 0]
      ws.zipIdx.foldl (fun s x => s.engineWrite { loc with key := loc.key + 8 * x.2 } 8 x.1 l.id)
        (s.tenantMark core l.info.tenant a true)

/-- Every entry of a launch in the area of a core, oldest first. -/
def State.ovfList (s : State) (l : Launch) (core : Nat) : List DqEntry :=
  (List.range (l.ovf core)).filterMap fun i => s.ovfRead l core i

/-- The A bits that reading the entries of an area sets (R118). -/
def State.ovfMark (s : State) (l : Launch) (core : Nat) : State :=
  (List.range (l.ovf core)).foldl (fun s i => match s.ovfAddr l core i with
    | some a => s.tenantMark core l.info.tenant a false
    | none => s) s

/-- The area of a launch on a core rewritten from place `from_` on, with its count. -/
def State.ovfPut (s : State) (l : Launch) (core : Nat) (es : List DqEntry) : State :=
  (es.zipIdx.foldl (fun s x => s.ovfWrite l core x.2 x.1) s).modLaunch l.id fun l =>
    { l with counts := modCount l.counts core fun c => { c with ovf := es.length } }

/-- Moving out (R60): the entries of a full deque, oldest first, at most `budget` of them; what stays is `kept`. -/
def State.moveOut (s : State) (core : Nat) : Nat → List DqEntry → List DqEntry → State × List DqEntry
  | _, [], kept => (s, kept.reverse)
  | 0, es, kept => (s, kept.reverse ++ es)
  | n + 1, e :: r, kept =>
    match s.launchOf e.launch with
    | none => s.moveOut core (n + 1) r (e :: kept)
    | some l =>
      let i := l.ovf core
      if s.ovfFits l core i then
        let s1 := (s.ovfWrite l core i e).modLaunch l.id fun l =>
          { l with counts := modCount l.counts core fun c => { c with ovf := c.ovf + 1 } }
        s1.moveOut core n r kept
      else s.moveOut core (n + 1) r (e :: kept)

/-- Push at the bottom (R59, R60), none when the deque is full and nothing can move (R61). -/
def State.pushDeque (s : State) (core : Nat) (e : DqEntry) : Option State :=
  let c := s.coreOf core
  if c.deque.length < 64 then some (s.modCore core fun c => { c with deque := c.deque ++ [e] })
  else
    let (s1, kept) := s.moveOut core 16 c.deque []
    if kept.length < 64 then some (s1.modCore core fun c => { c with deque := kept ++ [e] }) else none

/-- Moving back (R60): after a removal that leaves the deque without an entry of a launch. -/
def State.moveBack (s : State) (core launch : Nat) : State :=
  match s.launchOf launch with
  | none => s
  | some l =>
    let c := s.coreOf core
    if l.ovf core = 0 || c.deque.any fun e => e.launch == launch then s
    else
      let es := s.ovfList l core
      let n := min (min 16 es.length) (64 - c.deque.length)
      ((s.ovfMark l core).ovfPut l core (es.take (es.length - n))).modCore core fun c =>
        { c with deque := c.deque ++ es.drop (es.length - n) }

/-- The last place of a list that `p` picks, removed. -/
def removeLast (p : DqEntry → Bool) (l : List DqEntry) : Option (DqEntry × List DqEntry) :=
  match l.reverse.findIdx? p with
  | none => none
  | some i => let k := l.length - 1 - i; l[k]?.map fun e => (e, l.eraseIdx k)

/-- The newest own entry of a thread, removed: the deque first, then the area (R60, R354). -/
def State.popOwn (s : State) (t : Thread) : Option (DqEntry × State) :=
  let own (e : DqEntry) : Bool := e.launch == t.launch && e.tag == some t.idx
  match removeLast own (s.coreOf t.core).deque with
  | some (e, rest) => some (e, (s.modCore t.core fun c => { c with deque := rest }).moveBack t.core t.launch)
  | none =>
    match s.launchOf t.launch with
    | none => none
    | some l =>
      if l.ovf t.core = 0 then none
      else (removeLast own (s.ovfList l t.core)).map fun x =>
        (x.1, ((s.ovfMark l t.core).ovfPut l t.core x.2).moveBack t.core t.launch)

/-- The topmost entry of a launch on a core, removed: the area's oldest while it holds one (R60). -/
def State.popTop (s : State) (core launch : Nat) : Option (DqEntry × State) :=
  match s.launchOf launch with
  | none => none
  | some l =>
    if l.ovf core ≠ 0 then
      match s.ovfList l core with
      | e :: rest => some (e, ((s.ovfMark l core).ovfPut l core rest).moveBack core launch)
      | [] => none
    else
      let d := (s.coreOf core).deque
      match d.find? fun e => e.launch == launch with
      | none => none
      | some e => some (e, (s.modCore core fun c => { c with deque := c.deque.erase e }).moveBack core launch)

/-! ## Kills (R379) -/

/-- Is a task of bound `tb` dead against a key? -/
def bounded (tb key : Word) : Bool := tb != maxKey && !(tb.slt key)

/-- Does a core's local copy hold an announced change (R377): it has taken it, or 72 cc have passed since the change? -/
def State.heldAt (s : State) (core : Nat) (p : IncPub) : Bool := p.got.contains core || decide (p.since + 72 ≤ s.cc)

/-- A core's local copy of an incumbent (R376, R377). -/
def State.localInc (s : State) (core k : Nat) : Word :=
  match (s.inc.pubs.filter fun p => p.k == k && s.heldAt core p).getLast? with
  | some p => p.key
  | none => s.inc.local_.toList.getD k maxKey

/-- Dead(e) at a core: marked, or bounded at or above the local copy of its launch's incumbent. -/
def State.deadEntry (s : State) (core : Nat) (e : DqEntry) : Bool :=
  e.dead || match (s.launchOf e.launch).bind fun l => l.incs.head? with
    | some k => bounded e.tb (s.localInc core k)
    | none => false

/-- Does the check of KillPoint hold for the issuing thread? A supervisor thread is never killed (R345). -/
def State.killDue (s : State) : Bool :=
  !s.thr.isSup && !s.thr.st.getLsbD 11 && bounded s.thr.tb (s.localInc s.core.id (fieldOf s.thr.st 13 3))

/-! ## Join updates (R353) -/

/-- What stops an instruction in its course: a trap, or, under cause 0, the wait for a free request slot (R97). -/
abbrev noSlot : TrapInfo := cause 0 0

/-- Has the core no slot for one more join update of the issuing thread, whose earlier ones of the same instruction hold theirs? -/
def State.joinFull (s : State) (l : Loc) : Bool :=
  s.reqAway (.atomic 10 8 0 0) l && !s.slotFree && !s.net.reqs.any fun r => r.core == s.core.id && r.frame == s.thr.frame && r.kind.quiet

/-- An update of the join word of a frame: operation 10 adds, 11 sets PRUNED. It is checked as a store under R309 (R381), the watch
check among the steps (R337; DEDUCED, log 72), sent with release at package scope, and never migrates; frame 0 is not updated. -/
def State.joinUpdate (s : State) (op : Nat) (frame : Word) (n : Word) : Except TrapInfo State :=
  if frame = 0 then .ok s
  else match s.access s.thr frame (accAtomic 8 .store) with
    | .error ti => .error ti
    | .ok (l, x) =>
      if s.watched frame true true then .error ⟨cWATCH, true, false, frame⟩
      else if s.joinFull l then .error noSlot
      else
      let s1 := match x with
        | some x => s.touch s.core.id (s.tableOf s.thr) x true s.thr.launch
        | none => s
      .ok (s1.request (.atomic op 8 n 0) l true 6 none)

/-! ## Resume, Work, Finish (R355) -/

/-- Resume(e): the run ends (R54). -/
def State.resume (s : State) (e : DqEntry) : State :=
  (s.modThr fun t => { (((t.writeG 11 e.g11).writeG 12 e.g12).writeG 13 e.g13).writeG 14 e.g14 with
    tb := e.tb, walk := none }).jump true e.pc

/-- The victims of a steal walk, level by level (R62): within a level in core-number order from candidate r mod m. -/
def State.victims (s : State) (l : Launch) (core r : Nat) : List Nat :=
  let all := (s.rectCores l.info).filter fun c => c != core
  let sorted := (List.range (s.pkg.dies * 256)).filter fun c => all.contains c
  let turn (cs : List Nat) : List Nat := if cs.isEmpty then [] else cs.drop (r % cs.length) ++ cs.take (r % cs.length)
  let near (sc : Nat) : List Nat := turn (sorted.filter fun c => inScope sc core c && !(sc != 2 && inScope (sc - 1) core c))
  let n := s.pkg.dies
  let ring (d : Nat) : Nat := min ((d + n - dieOf core) % n) ((dieOf core + n - d) % n)
  let dies := (List.range n).flatMap fun dist => (List.range n).filter fun d => d != dieOf core && ring d == dist
  near 2 ++ near 3 ++ near 4 ++ near 5 ++ dies.flatMap fun d => turn (sorted.filter fun c => dieOf c == d)

/-- A WORK counted at its core: r of R62. -/
def State.countWork (s : State) : State := { s with core := { s.core with work := s.core.work + 1 } }

/-- Steal() begins (R62): the thread parks with code 22 at its instruction until the walk ends; with no victim the walk has
ended. The walk takes r as it was before this WORK counted (DESIGN CHOICE, log 36). -/
def State.startWalk (s : State) : State :=
  let vs := match s.launchOf s.thr.launch with
    | some l => s.victims l s.core.id (s.core.work - 1)
    | none => []
  let s1 := s.modThr fun t => { t with walk := some ⟨vs, none⟩ }
  if vs.isEmpty then s1 else s1.parkFor 22 0 0 none

mutual
/-- Finish(p, pr) (R355); the fuel bounds the dead entries it may remove. -/
def State.finishTask (s : State) (p : Word) (pr : Bool) : Nat → Except TrapInfo State
  | 0 => .ok s
  | n + 1 =>
    match if pr then s.joinUpdate 11 p 0 else .ok s with
    | .error ti => .error ti
    | .ok s1 =>
      match s1.popOwn s1.thr with
      | some (e, s2) => if s2.deadEntry s2.core.id e then s2.finishTask e.g13 true n else .ok (s2.resume e)
      | none =>
        match s1.joinUpdate 10 p (-1) with
        | .error ti => .error ti
        | .ok s2 => s2.countWork.workTop n

/-- Work() once the core holds no own entry: the topmost entry of the launch, else the steal walk. -/
def State.workTop (s : State) : Nat → Except TrapInfo State
  | 0 => .ok s.startWalk
  | n + 1 =>
    match s.popTop s.core.id s.thr.launch with
    | none => .ok s.startWalk
    | some (e, s1) =>
      match s1.joinUpdate 10 e.g14 1 with
      | .error ti => .error ti
      | .ok s2 => if s2.deadEntry s2.core.id e then s2.finishTask e.g13 true n else .ok (s2.resume e)
end

/-- Fuel for Finish and Work: more than the entries a launch can have on a core. -/
abbrev taskFuel : Nat := 4096

/-- Work() (R355). -/
def State.workTask (s0 : State) : Except TrapInfo State :=
  let s := s0.countWork
  match s.popOwn s.thr with
  | some (e, s1) => if s1.deadEntry s1.core.id e then s1.finishTask e.g13 true taskFuel else .ok (s1.resume e)
  | none => s.workTop taskFuel

/-- The state after, or from `s0` the trap taken, or the wait for a slot. -/
def State.orTrap (s0 : State) (r : Except TrapInfo State) : State :=
  match r with
  | .ok t => t
  | .error ti => if ti.code = 0 then s0.parkOn 21 0 0 else s0.trap ti

/-! ## HALT (R304) -/

/-- Has a frame an engine operation that has not resolved? -/
def Engines.busyFor (e : Engines) (frame : Nat) : Bool :=
  (e.futs.any fun f => f.owner == frame && f.status == .pending) || (e.vq.any fun b => b.frame == frame) ||
    (e.ch.toList.any fun c => (c.run.any fun o => o.frame == frame) || c.queue.any fun o => o.frame == frame) ||
    e.mq.any fun m => m.frame == frame

/-- Halt(): the thread ends once its results have landed and its engine operations have resolved; a record of a dropped peer
store takes UCE instead (R224). -/
def State.halt (s : State) : State :=
  match s.thr.dropped with
  | some va => (s.modThr fun t => { t with dropped := none }).trap (cause cUCE va)
  | none =>
    let s := ({ s with core := { s.core with eng := s.core.eng.dropOpen s.thr.frame } } : State).setBusy s.core.id
    if !s.thr.pend.isEmpty then s.modThr fun t => { t with park := some ⟨1, 0, 0, s.cc, none⟩ }
    else if s.core.eng.owner = some s.thr.frame && s.core.eng.busyFor s.thr.frame then s.parkOn 19 0 0
    else (((s.abandonStack s.thr.tid true).dropConsumer s.thr.tid)).leave s.thr.core s.thr.frame

/-- A WORK, or a task that has ended, whose steal walk has come to an end goes on (R355). -/
def State.resumeWalk (s : State) : State :=
  match s.thr.walk with
  | some ⟨_, some (some e)⟩ =>
    let s1 := s.modThr fun t => { t with walk := none }
    s.orTrap (match s1.joinUpdate 10 e.g14 1 with
      | .error ti => .error ti
      | .ok s2 => if s2.deadEntry s2.core.id e then s2.finishTask e.g13 true taskFuel else .ok (s2.resume e))
  | some ⟨[], none⟩ => s.halt
  | _ => s.parkFor 22 0 0 none

/-- An instruction that may end its task: it goes on with its walk where one is under way. -/
def State.unlessWalking (s : State) (t : State) : State := if s.thr.walk.isSome then s.resumeWalk else t

/-- KillPoint() (R379), then `k`: it reads tb (R203), and a kill reads g13 as a source (R56), abandons the producer stack and
finishes the task. -/
def State.killPoint (s0 s : State) (k : State → State) : State :=
  if s.thr.damage.contains 21 then s0.regerr 21
  else if s.killDue then
    match s0.check s [.g 13] with
    | .error t => t
    | .ok s1 =>
      let s2 := (s1.abandonStack s1.thr.tid false).countCore s1.core.id 0x014 s1.thr.launch
      s0.orTrap (s2.finishTask s2.thr.g[13] true taskFuel)
  else k s

/-! ## Steals (R62, R63) -/

/-- STEAL_REQUEST (R62, R63): the request of a walking thread is applied at its next victim, which sends its reply; a core in
reset answers empty (R210), and a core disabled since the walk began is no candidate and is passed over (R21). -/
def execStealRequest (core frame victim : Nat) (s : State) : Answer :=
  match s.threadAt core frame with
  | none => .fault .notEnabled
  | some t =>
    match t.walk with
    | some ⟨v :: vs, none⟩ =>
      if v ≠ victim then .fault .notEnabled
      else if !s.enabled v then
        .next (s.modThread core frame fun t => { t with walk := some ⟨vs, none⟩, park := if vs.isEmpty then none else t.park })
      else
        let s1 := ((s.sent t.launch core).recvd t.launch victim).sent t.launch victim
        let r := if (s1.coreOf victim).reset.isSome then none else s1.popTop victim t.launch
        let s2 := match r with
          | some x => x.2
          | none => s1
        .next (s2.modThread core frame fun t => { t with walk := some ⟨v :: vs, some (r.map fun x => x.1)⟩ })
    | _ => .fault .notEnabled

/-- STEAL_REPLY (R62): the reply reaches the thief; an entry, or the end of the walk, returns the thread. -/
def execStealReply (core frame : Nat) (s : State) : Answer :=
  match s.threadAt core frame with
  | none => .fault .notEnabled
  | some t =>
    match t.walk with
    | some ⟨_ :: vs, some r⟩ =>
      let s1 := (s.recvd t.launch core).countCore core (if r.isSome then 0x00E else 0x00F) t.launch
      .next (s1.modThread core frame fun t =>
        match r with
        | some e => { t with walk := some ⟨[], some (some e)⟩, park := none }
        | none => { t with walk := some ⟨vs, none⟩, park := if vs.isEmpty then none else t.park })
    | _ => .fault .notEnabled

end Sys2Proof.Machine
end

