-- ==== Sys2Proof/Machine/Branch.lean ====
section
/-! DEFINITION. Branches and jumps (R300-R303), HALT, YIELD and NOP (R304-R306). -/

namespace Sys2Proof.Machine

/-- pc plus four times a sign-extended word offset (R241). -/
def State.relative (s : State) {n : Nat} (off : BitVec n) : Word := s.thr.pc + 4 * off.signExtend 64

/-- Jump to a target, a kill point where KBB is 1 and the target is at or below pc (R303). -/
def State.jumpBack (s0 s : State) (sw : Bool) (target : Word) : State :=
  if s.thr.st.getLsbD 10 && target.ule s.thr.pc then s0.killPoint s fun s => s.jump sw target else s.jump sw target

/-- A branch: taken, or on to pc + 4. -/
def branch (o : BrOp) (s : State) (taken : Word → Word → Bool) : Answer :=
  withThread s (s.unlessWalking (s.gather2 o.a o.b .gz fun s1 a b =>
    if taken a b then s.jumpBack s1 o.sw (s1.relative o.off) else s1.retire o.sw))

def execBeq (o : BrOp) (s : State) : Answer := branch o s fun a b => a == b
def execBne (o : BrOp) (s : State) : Answer := branch o s fun a b => a != b
def execBlt (o : BrOp) (s : State) : Answer := branch o s fun a b => a.slt b
def execBge (o : BrOp) (s : State) : Answer := branch o s fun a b => !a.slt b
def execBltu (o : BrOp) (s : State) : Answer := branch o s fun a b => a.ult b
def execBgeu (o : BrOp) (s : State) : Answer := branch o s fun a b => !a.ult b
def execBbs (o : BrOp) (s : State) : Answer := branch o s fun a b => a.getLsbD (b.toNat % 64)
def execBbc (o : BrOp) (s : State) : Answer := branch o s fun a b => !a.getLsbD (b.toNat % 64)

/-- J (R301), a kill point under R303. -/
def execJ (o : JOp) (s : State) : Answer :=
  withThread s (s.unlessWalking (s.gather [] .gz fun s1 _ => s.jumpBack s1 o.sw (s1.relative o.off)))

/-- JAL (R301). -/
def execJal (o : JalOp) (s : State) : Answer :=
  withThread s (s.gather [] o.d fun s1 _ => (s1.setG o.d (s1.thr.pc + 4)).jump o.sw (s1.relative o.off))

/-- JR (R301). -/
def execJr (o : S1) (s : State) : Answer :=
  withThread s (s.gather1 o.a .gz fun s1 a =>
    if a.toNat % 4 ≠ 0 then s.trap (cause cALIGN a) else s1.jump o.sw a)

/-- JALR (R301): the target is read before the link is written. -/
def execJalr (o : R2) (s : State) : Answer :=
  withThread s (s.gather1 o.a o.d fun s1 a =>
    if a.toNat % 4 ≠ 0 then s.trap (cause cALIGN a) else (s1.setG o.d (s1.thr.pc + 4)).jump o.sw a)

/-- NOP (R306). -/
def execNop (o : S0) (s : State) : Answer := withThread s (s.gather [] .gz fun s1 _ => s1.retire o.sw)

/-- HALT (R304). -/
def execHalt (_ : S0) (s : State) : Answer := withThread s (s.gather [] .gz fun _ _ => s.halt)

/-- Is a thread ready but for its fetch buffer (R48)? -/
def Thread.stands (t : Thread) : Bool := t.pos.isSome && t.park.isNone && t.migr.isNone

/-- YIELD (R305): in packed mode the thread is passed over until each other ready thread has issued, or 32 cc. -/
def execYield (_ : S0) (s : State) : Answer :=
  withThread s (s.gather [] .gz fun s1 _ =>
    let others := (s1.onCore s1.core.id).filter fun t => t.frame != s1.thr.frame && t.stands && t.fbuf.any fun f => f.1 == t.pc.toNat / 32
    let s2 := s1.retire true
    if s1.core.rot.getLsbD 0 || others.isEmpty then s2
    else s2.modThr fun t => { t with yield := some (s1.cc + 32, others.map fun u => u.frame) })

/-- YIELD_EXPIRY (R305): 32 cc have passed. -/
def execYieldExpiry (core frame : Nat) (s : State) : Answer :=
  whenEnabled ((s.threadAt core frame).any fun t => t.yield.any fun y => decide (y.1 ≤ s.cc))
    (s.modThread core frame fun t => { t with yield := none })

end Sys2Proof.Machine
end

