-- ==== Sys2Proof/Machine/Fpu.lean ====
section
/-! DEFINITION. Scalar floating point and the scalar SFU forms (R291-R299). -/

namespace Sys2Proof.Machine

/-- Format number of a suffix (R291, R170). -/
def fnum : FFmt → Nat
  | .d => 1
  | .s => 2
  | .h => 3
  | .b => 4

/-- Bits of a format's operand in a register (R291). -/
def fbits (f : Nat) (a : Word) : Nat := a.toNat % 2 ^ (elemBits f)

/-- The mode of a rounding field; DYN takes st.RM (R181). -/
def rmode (r : Rm) (st : Word) : Nat :=
  match r with
  | .rne => 0
  | .rz => 1
  | .rdn => 2
  | .rup => 3
  | .rna => 4
  | .dyn => fieldOf st 2 3

/-- The mask of subnormal operands in ga, gb, gd (R186, R298). -/
def subnMask (f : Nat) (vs : List Nat) : Nat :=
  (vs.zipIdx.map fun x => if isSubnormal f x.1 then 2 ^ x.2 else 0).foldl (· + ·) 0

/-- SUBN (R186), counted. -/
def State.subn (s : State) (m : Nat) : State :=
  (s.countCore s.core.id 0x013 s.thr.launch).trap (cause cSUBN (BitVec.ofNat 64 m))

/-- A long FP instruction over the operand bits: SUBN where `trapsSub`, else result and flags (R298). -/
def fpOp (s : State) (sw : Bool) (d : Dst) (srcs : List Src) (f : Nat) (trapsSub : Bool)
    (op : Word → List Nat → Word × BitVec 5) : Answer :=
  withThread s (s.gatherLong srcs d fun s1 vs =>
    let bs := vs.map (fbits f)
    let m := subnMask f bs
    if trapsSub && m != 0 then s.subn m
    else
      let r := op s1.thr.st bs
      s1.finishLong sw d (Pending.ofVal r.1 r.2))

/-- A float result, zero-extended (R291). -/
def fres (r : Nat × BitVec 5) : Word × BitVec 5 := (BitVec.ofNat 64 r.1, r.2)

/-- The n-th operand. -/
def opnd (vs : List Nat) (n : Nat) : Nat := vs.getD n 0

def execFadd (o : F3r) (s : State) : Answer :=
  fpOp s o.sw o.d [o.a, o.b] (fnum o.f) true fun st v => fres (fAdd (fnum o.f) (rmode o.r st) (opnd v 0) (opnd v 1))

def execFsub (o : F3r) (s : State) : Answer :=
  fpOp s o.sw o.d [o.a, o.b] (fnum o.f) true fun st v =>
    let f := (fnum o.f)
    let r := addVal (rmode o.r st) (decodeFloat f (opnd v 0)) (decodeFloat f (opnd v 1)).neg
    let q := roundTo f (rmode o.r st) r.1
    (BitVec.ofNat 64 q.1, r.2 ||| q.2)

def execFmul (o : F3r) (s : State) : Answer :=
  fpOp s o.sw o.d [o.a, o.b] (fnum o.f) true fun st v => fres (fMul (fnum o.f) (rmode o.r st) (opnd v 0) (opnd v 1))

def execFdiv (o : F3r) (s : State) : Answer :=
  fpOp s o.sw o.d [o.a, o.b] (fnum o.f) true fun st v => fres (fDiv (fnum o.f) (rmode o.r st) (opnd v 0) (opnd v 1))

def execFsqrt (o : F2r) (s : State) : Answer :=
  fpOp s o.sw o.d [o.a] (fnum o.f) true fun st v => fres (fSqrt (fnum o.f) (rmode o.r st) (opnd v 0))

/-- FMA: gd + ga × gb with one rounding (R292); sources in the order ga, gb, gd. -/
def execFma (o : FmaOp) (s : State) : Answer :=
  fpOp s o.sw o.d.dst [o.a, o.b, o.d.src] (fnum o.f) true fun st v =>
    let f := (fnum o.f)
    fres (fMulAdd f (rmode o.r st) (decodeFloat f (opnd v 2)) (decodeFloat f (opnd v 0)) (decodeFloat f (opnd v 1)))

/-- FMS: gd − ga × gb. -/
def execFms (o : FmaOp) (s : State) : Answer :=
  fpOp s o.sw o.d.dst [o.a, o.b, o.d.src] (fnum o.f) true fun st v =>
    let f := (fnum o.f)
    fres (fMulAdd f (rmode o.r st) (decodeFloat f (opnd v 2)) (decodeFloat f (opnd v 0)).neg (decodeFloat f (opnd v 1)))

def execFmin (o : F3) (s : State) : Answer :=
  fpOp s o.sw o.d [o.a, o.b] (fnum o.f) true fun _ v => fres (fMinMax (fnum o.f) false (opnd v 0) (opnd v 1))

def execFmax (o : F3) (s : State) : Answer :=
  fpOp s o.sw o.d [o.a, o.b] (fnum o.f) true fun _ v => fres (fMinMax (fnum o.f) true (opnd v 0) (opnd v 1))

/-- Value of the sign bit of a format. -/
def signVal (f : Nat) : Nat := 2 ^ (expBits f + manBits f)

def execFabs (o : F2) (s : State) : Answer :=
  fpOp s o.sw o.d [o.a] (fnum o.f) false fun _ v => (BitVec.ofNat 64 (opnd v 0 % signVal (fnum o.f)), 0)

def execFneg (o : F2) (s : State) : Answer :=
  fpOp s o.sw o.d [o.a] (fnum o.f) false fun _ v => (BitVec.ofNat 64 (opnd v 0 ^^^ signVal (fnum o.f)), 0)

def execFcpys (o : F3) (s : State) : Answer :=
  fpOp s o.sw o.d [o.a, o.b] (fnum o.f) false fun _ v =>
    let q := signVal (fnum o.f)
    (BitVec.ofNat 64 (opnd v 0 % q + opnd v 1 / q * q), 0)

/-- FEQ (R294, R185): quiet; invalid only for a signalling NaN. -/
def execFeq (o : F3) (s : State) : Answer :=
  fpOp s o.sw o.d [o.a, o.b] (fnum o.f) true fun _ v =>
    let x := decodeFloat (fnum o.f) (opnd v 0)
    let y := decodeFloat (fnum o.f) (opnd v 1)
    (if !x.isNan && !y.isNan && !ltVal x y && !ltVal y x then 1 else 0, if x.isSig || y.isSig then fInvalid else 0)

/-- FLT: signalling; invalid for any NaN. -/
def execFlt (o : F3) (s : State) : Answer :=
  fpOp s o.sw o.d [o.a, o.b] (fnum o.f) true fun _ v =>
    let x := decodeFloat (fnum o.f) (opnd v 0)
    let y := decodeFloat (fnum o.f) (opnd v 1)
    let un := x.isNan || y.isNan
    (if !un && ltVal x y then 1 else 0, if un then fInvalid else 0)

def execFle (o : F3) (s : State) : Answer :=
  fpOp s o.sw o.d [o.a, o.b] (fnum o.f) true fun _ v =>
    let x := decodeFloat (fnum o.f) (opnd v 0)
    let y := decodeFloat (fnum o.f) (opnd v 1)
    let un := x.isNan || y.isNan
    (if !un && !ltVal y x then 1 else 0, if un then fInvalid else 0)

def execFclass (o : F2) (s : State) : Answer :=
  fpOp s o.sw o.d [o.a] (fnum o.f) false fun _ v => (BitVec.ofNat 64 (fClass (fnum o.f) (opnd v 0)), 0)

/-- FCVT (R296): R188 with the instruction's rounding; SAT unless .nonsat. -/
def execFcvt (o : FcvtOp) (s : State) : Answer :=
  fpOp s o.sw o.d [o.a] (fnum o.f) true fun st v =>
    fres (convertFloat (fnum o.x) (rmode o.r st) (!o.nonsat) (decodeFloat (fnum o.f) (opnd v 0)))

/-- FCVTI (R296, R187). -/
def execFcvti (o : F2r) (s : State) : Answer :=
  fpOp s o.sw o.d [o.a] (fnum o.f) true fun st v =>
    let r := convertInt 0 (rmode o.r st) (decodeFloat (fnum o.f) (opnd v 0))
    (BitVec.ofInt 64 r.1, r.2)

/-- ICVTF (R296, R189): the whole register is the source, and SUBN is never taken. -/
def execIcvtf (o : F2r) (s : State) : Answer :=
  withThread s (s.long1 o.a o.d fun s x =>
    let r := convertFloat (fnum o.f) (rmode o.r s.thr.st) true (ofInt x.toInt)
    s.finishLong o.sw o.d (Pending.ofVal (BitVec.ofNat 64 r.1) r.2))

/-- FKEY (R297, R190). -/
def execFkey (o : FkeyOp) (s : State) : Answer :=
  withThread s (s.long1 o.a o.d fun s x =>
    s.finishLong o.sw o.d (Pending.ofVal (fKey o.single (if o.single then x.toNat % 2 ^ 32 else x.toNat)) 0))

/-! ## Scalar SFU (R299, R397) -/

/-- A scalar SFU form: its operand is captured, it takes an entry of the core's queue, and its result lands once the
entry has been served. While the queue is full it does not issue (R397). -/
def sfuOp (s : State) (o : SfuOp) (fn : SfuFn) : Answer :=
  withThread s (s.long1 o.a o.d fun s1 x =>
    if 16 ≤ s1.core.eng.sfu.length then s.parkOn 0 0 7
    else
      let r := if o.b16 then sfuFnB fn (x.toNat % 2 ^ 16) else sfuFn fn (x.toNat % 2 ^ 32)
      let e : SfuEntry := ⟨s1.thr.frame, s1.thr.seq, BitVec.ofNat 64 r.1, r.2, false, [], none⟩
      let s2 := { s1 with core := { s1.core with eng := { s1.core.eng with sfu := s1.core.eng.sfu ++ [e] } } }
      s2.finishLong o.sw o.d { Pending.ofVal 0 0 with ready := false, sfu := true })

def execFex2 (o : SfuOp) (s : State) : Answer := sfuOp s o .ex2
def execFlg2 (o : SfuOp) (s : State) : Answer := sfuOp s o .lg2
def execFrcp (o : SfuOp) (s : State) : Answer := sfuOp s o .rcp
def execFrsq (o : SfuOp) (s : State) : Answer := sfuOp s o .rsq
def execFsin (o : SfuOp) (s : State) : Answer := sfuOp s o .sin
def execFcos (o : SfuOp) (s : State) : Answer := sfuOp s o .cos
def execFtanh (o : SfuOp) (s : State) : Answer := sfuOp s o .tanh

end Sys2Proof.Machine
end

