-- ==== Sys2Proof/WellFormed.lean ====
section
/-! DEFINITION. What a well-formed instruction is: the operand values that the types of Syntax.lean still allow and that
R128, R134, R263, R266, R389 and R393 refuse. An event row is well formed when its operands name a unit that exists. -/

namespace Sys2Proof

/-- A scope that is not reserved (R30, R128). -/
def scopeOk (sc : BitVec 4) : Bool := decide (sc.toNat ≤ 9)

/-- A scope that an SC access accepts (R128). -/
def scScopeOk (sc : BitVec 4) : Bool := decide (sc.toNat ≤ 6)

/-- Order and scope of an atomic other than AADD.agg (R128). -/
def atomicOk (ord : BitVec 2) (sc : BitVec 4) : Bool := if ord == 3 then scScopeOk sc else scopeOk sc

/-- Mask, order and scope of a FENCE (R128, R134). -/
def fenceOk (mask : BitVec 4) (ord : BitVec 2) (sc : BitVec 4) : Bool :=
  mask != 0 && ((ord == 0 && scopeOk sc) || (ord == 3 && scScopeOk sc && mask == 15))

/-- The instruction is one of the words of R261-R272 (true), or a step of the machine that has no bits (false). -/
def Instr.isWord : Instr → Bool
  | .add _ => true
  | .sub _ => true
  | .and _ => true
  | .or _ => true
  | .xor _ => true
  | .andn _ => true
  | .orn _ => true
  | .xnor _ => true
  | .sll _ => true
  | .srl _ => true
  | .sra _ => true
  | .rol _ => true
  | .ror _ => true
  | .min _ => true
  | .max _ => true
  | .minu _ => true
  | .maxu _ => true
  | .slt _ => true
  | .sltu _ => true
  | .seq _ => true
  | .sne _ => true
  | .mul _ => true
  | .mulh _ => true
  | .mulhu _ => true
  | .div _ => true
  | .divu _ => true
  | .rem _ => true
  | .remu _ => true
  | .clz _ => true
  | .ctz _ => true
  | .popc _ => true
  | .brev _ => true
  | .bswap _ => true
  | .sext _ => true
  | .zext _ => true
  | .selz _ => true
  | .lea _ => true
  | .addi _ => true
  | .andi _ => true
  | .ori _ => true
  | .xori _ => true
  | .shi _ => true
  | .slti _ => true
  | .sltiu _ => true
  | .muli _ => true
  | .lui _ => true
  | .lhi _ => true
  | .lpc _ => true
  | .leap _ => true
  | .fadd _ => true
  | .fsub _ => true
  | .fmul _ => true
  | .fdiv _ => true
  | .fsqrt _ => true
  | .fma _ => true
  | .fms _ => true
  | .fmin _ => true
  | .fmax _ => true
  | .fabs _ => true
  | .fneg _ => true
  | .fcpys _ => true
  | .feq _ => true
  | .flt _ => true
  | .fle _ => true
  | .fclass _ => true
  | .fcvt _ => true
  | .fcvti _ => true
  | .icvtf _ => true
  | .fkey _ => true
  | .fex2 _ => true
  | .flg2 _ => true
  | .frcp _ => true
  | .frsq _ => true
  | .fsin _ => true
  | .fcos _ => true
  | .ftanh _ => true
  | .beq _ => true
  | .bne _ => true
  | .blt _ => true
  | .bge _ => true
  | .bltu _ => true
  | .bgeu _ => true
  | .bbs _ => true
  | .bbc _ => true
  | .j _ => true
  | .jal _ => true
  | .nop _ => true
  | .jr _ => true
  | .jalr _ => true
  | .halt _ => true
  | .yield _ => true
  | .ldb _ => true
  | .ldh _ => true
  | .ldw _ => true
  | .ldd _ => true
  | .ldbz _ => true
  | .ldhz _ => true
  | .ldwz _ => true
  | .stb _ => true
  | .sth _ => true
  | .stw _ => true
  | .std _ => true
  | .ldk _ => true
  | .lda _ => true
  | .stl _ => true
  | .ldsc _ => true
  | .stsc _ => true
  | .ldf _ => true
  | .ldfe _ => true
  | .stf _ => true
  | .stef _ => true
  | .sete _ => true
  | .fetst _ => true
  | .lres _ => true
  | .scon _ => true
  | .wrs _ => true
  | .fence _ => true
  | .aadd _ => true
  | .aand _ => true
  | .aor _ => true
  | .axor _ => true
  | .amin _ => true
  | .amax _ => true
  | .aminu _ => true
  | .amaxu _ => true
  | .aswp _ => true
  | .acas _ => true
  | .aaddW _ => true
  | .aandW _ => true
  | .aorW _ => true
  | .axorW _ => true
  | .aminW _ => true
  | .amaxW _ => true
  | .aminuW _ => true
  | .amaxuW _ => true
  | .aswpW _ => true
  | .acasW _ => true
  | .aaddAgg _ => true
  | .cflush _ => true
  | .cinv _ => true
  | .cclean _ => true
  | .pref _ => true
  | .wswait _ => true
  | .sync _ => true
  | .sret _ => true
  | .work _ => true
  | .wait _ => true
  | .anch _ => true
  | .roam _ => true
  | .send _ => true
  | .fork _ => true
  | .qcfg _ => true
  | .barcfg _ => true
  | .barw _ => true
  | .bart _ => true
  | .barq _ => true
  | .tcallr _ => true
  | .tret _ => true
  | .tabort _ => true
  | .tlook _ => true
  | .bnd _ => true
  | .bchk _ => true
  | .incu _ => true
  | .incr _ => true
  | .launch _ => true
  | .spawn _ => true
  | .tcall _ => true
  | .sendi _ => true
  | .forki _ => true
  | .ftest _ => true
  | .fcancel _ => true
  | .movh _ => true
  | .fwait _ => true
  | .vadd _ => true
  | .vsub _ => true
  | .vmul _ => true
  | .vfma _ => true
  | .vmin _ => true
  | .vmax _ => true
  | .vabs _ => true
  | .vneg _ => true
  | .vcvt _ => true
  | .vcmp _ => true
  | .vsel _ => true
  | .vred _ => true
  | .vex2 _ => true
  | .vlg2 _ => true
  | .vrcp _ => true
  | .vrsq _ => true
  | .vscale _ => true
  | .vmov _ => true
  | .vbcast _ => true
  | .vloop _ => true
  | .vfence _ => true
  | .cpy _ => true
  | .cpyx _ => true
  | .cptr _ => true
  | .mma _ => true
  | .mmaz _ => true
  | .mst _ => true
  | .mld _ => true
  | .msync _ => true
  | .baddq _ => true
  | .bqnext _ => true
  | .trap _ => true
  | .eret _ => true
  | .capr _ => true
  | .cntr _ => true
  | .tlbi _ => true
  | .tflush _ => true
  | .incinit _ => true
  | .idle _ => true
  | .brk _ => true
  | .spill _ => true
  | .eset _ => true
  | .eget _ => true
  | .mfs _ => true
  | .mts _ => true
  | .illegalWord _ => false
  | .mtsRotcfg _ => false
  | .mtsHbmrmvAck _ => false
  | .mtsCorerstGo _ => false
  | .errinjArmResidFirst _ => false
  | .errinjArmResidBoth _ => false
  | .errinjArmScratchUce _ => false
  | .errinjArmScratchCe _ => false
  | .errinjArmRegDamage _ => false
  | .errinjCancel _ => false
  | .esetRtail _ _ => false
  | .esetRingConfig _ _ => false
  | .esetStreamReg _ _ => false
  | .esetCopyReg _ _ => false
  | .vrsmRetry => false
  | .vrsmAssistOne => false
  | .vrsmAssistRest => false
  | .vrsmDiscard => false
  | .esetBqlim _ => false
  | .lwerrWrite _ _ => false
  | .launchSlotWordWrite _ _ _ _ => false
  | .launchSlotFinalWord _ _ _ => false
  | .launchWindowNarrowWrite _ => false
  | .launchSlotFree _ _ => false
  | .launchRecordSubmit _ _ => false
  | .launchPlacement => false
  | .removedThreadReturn _ _ => false
  | .engineRelease _ => false
  | .spillEngineRun _ => false
  | .threadReload _ _ _ => false
  | .scratchpadSave _ => false
  | .scratchpadRestore _ _ => false
  | .classifierWindowEnd _ => false
  | .terminationSweep => false
  | .ctxlostThreadStart => false
  | .supervisorThreadRestart _ => false
  | .fetchBlock _ _ => false
  | .longResultLand _ _ _ => false
  | .storeBufferApply _ _ => false
  | .migrationDepart _ _ => false
  | .threadArrival _ => false
  | .remoteWordRequest _ => false
  | .tlbWalkComplete _ _ _ _ => false
  | .stealRequest _ _ _ => false
  | .stealReply _ _ => false
  | .qrxMessageArrival _ => false
  | .qdnPushArrival _ => false
  | .barrierTimeout _ => false
  | .reservationLapse _ _ => false
  | .waitTimeout _ _ => false
  | .yieldExpiry _ _ => false
  | .syncRecheck _ _ => false
  | .fullEmptyApply _ _ => false
  | .waitTableRetry _ _ => false
  | .aggCombine _ => false
  | .hemWindowDelivery _ => false
  | .incumbentUpdateApply _ => false
  | .tableGroupClose _ => false
  | .seamRds _ _ => false
  | .seamRdx _ _ => false
  | .seamUpg _ _ => false
  | .seamWb _ _ => false
  | .seamEvc _ _ => false
  | .seamTransactionEnd _ => false
  | .snoopArrival _ _ _ => false
  | .directoryRecallComplete _ => false
  | .agentDead _ => false
  | .coreSnoopTimeout _ => false
  | .seamFailure _ => false
  | .failoverComplete => false
  | .hostSnpdata _ => false
  | .hostSnpinv _ => false
  | .hostUnsupportedRequest _ => false
  | .combiningBufferDrain _ => false
  | .dcdReleaseRequest _ _ _ => false
  | .dcdReleaseComplete _ => false
  | .dcdForcedRelease _ => false
  | .peerLinkFailure _ => false
  | .linkTrained _ => false
  | .linkDown _ => false
  | .layerFailure _ _ => false
  | .layerCopyComplete => false
  | .weightRefreshStart _ _ => false
  | .weightRefreshEnd _ _ => false
  | .healthCeWindowEnd => false
  | .dziethCoreReset _ _ => false
  | .coreResetRelease _ => false
  | .matrixOpBegin _ _ => false
  | .matrixOpComplete _ => false
  | .mstComplete _ => false
  | .mldComplete _ => false
  | .baddqComplete _ => false
  | .vectorBodyStart _ => false
  | .vectorChunk _ => false
  | .vectorFaultDelivery _ _ => false
  | .sfuEntryServe _ => false
  | .copyBegin _ _ => false
  | .copyElementWrite _ _ => false
  | .copyComplete _ _ => false
  | .packageReset => false
  | .mbAttest _ => false
  | .mbRecover _ => false
  | .mbGetevent _ => false
  | .expanderBackInvalidate _ _ => false
  | .dynamicCapacityAdd _ _ _ => false
  | .cxlCacheMemEnable _ _ => false
  | .supervisorEndsLaunch _ => false
  | .powerClockGating _ => false

/-- The instruction is well formed: its operands are accepted by the rules named above. -/
def Instr.wf : Instr → Bool
  | .add _ => true
  | .sub _ => true
  | .and _ => true
  | .or _ => true
  | .xor _ => true
  | .andn _ => true
  | .orn _ => true
  | .xnor _ => true
  | .sll _ => true
  | .srl _ => true
  | .sra _ => true
  | .rol _ => true
  | .ror _ => true
  | .min _ => true
  | .max _ => true
  | .minu _ => true
  | .maxu _ => true
  | .slt _ => true
  | .sltu _ => true
  | .seq _ => true
  | .sne _ => true
  | .mul _ => true
  | .mulh _ => true
  | .mulhu _ => true
  | .div _ => true
  | .divu _ => true
  | .rem _ => true
  | .remu _ => true
  | .clz _ => true
  | .ctz _ => true
  | .popc _ => true
  | .brev _ => true
  | .bswap _ => true
  | .sext _ => true
  | .zext _ => true
  | .selz _ => true
  | .lea _ => true
  | .addi _ => true
  | .andi _ => true
  | .ori _ => true
  | .xori _ => true
  | .shi _ => true
  | .slti _ => true
  | .sltiu _ => true
  | .muli _ => true
  | .lui _ => true
  | .lhi _ => true
  | .lpc _ => true
  | .leap _ => true
  | .fadd _ => true
  | .fsub _ => true
  | .fmul _ => true
  | .fdiv _ => true
  | .fsqrt _ => true
  | .fma _ => true
  | .fms _ => true
  | .fmin _ => true
  | .fmax _ => true
  | .fabs _ => true
  | .fneg _ => true
  | .fcpys _ => true
  | .feq _ => true
  | .flt _ => true
  | .fle _ => true
  | .fclass _ => true
  | .fcvt o => decide (o.x ≠ o.f)
  | .fcvti _ => true
  | .icvtf _ => true
  | .fkey _ => true
  | .fex2 _ => true
  | .flg2 _ => true
  | .frcp _ => true
  | .frsq _ => true
  | .fsin _ => true
  | .fcos _ => true
  | .ftanh _ => true
  | .beq _ => true
  | .bne _ => true
  | .blt _ => true
  | .bge _ => true
  | .bltu _ => true
  | .bgeu _ => true
  | .bbs _ => true
  | .bbc _ => true
  | .j _ => true
  | .jal _ => true
  | .nop _ => true
  | .jr _ => true
  | .jalr _ => true
  | .halt _ => true
  | .yield _ => true
  | .ldb _ => true
  | .ldh _ => true
  | .ldw _ => true
  | .ldd _ => true
  | .ldbz _ => true
  | .ldhz _ => true
  | .ldwz _ => true
  | .stb _ => true
  | .sth _ => true
  | .stw _ => true
  | .std _ => true
  | .ldk _ => true
  | .lda o => (o.ord == 0 || o.ord == 1) && scopeOk o.scope
  | .stl o => (o.ord == 0 || o.ord == 2) && scopeOk o.scope
  | .ldsc o => scScopeOk o.scope
  | .stsc o => scScopeOk o.scope
  | .ldf o => scopeOk o.scope
  | .ldfe o => scopeOk o.scope
  | .stf o => scopeOk o.scope
  | .stef o => scopeOk o.scope
  | .sete o => scopeOk o.scope
  | .fetst o => scopeOk o.scope
  | .lres o => (o.ord == 0 || o.ord == 1) && scopeOk o.scope
  | .scon o => (o.ord == 0 || o.ord == 2) && scopeOk o.scope
  | .wrs _ => true
  | .fence o => fenceOk o.mask o.ord o.scope
  | .aadd o => atomicOk o.ord o.scope
  | .aand o => atomicOk o.ord o.scope
  | .aor o => atomicOk o.ord o.scope
  | .axor o => atomicOk o.ord o.scope
  | .amin o => atomicOk o.ord o.scope
  | .amax o => atomicOk o.ord o.scope
  | .aminu o => atomicOk o.ord o.scope
  | .amaxu o => atomicOk o.ord o.scope
  | .aswp o => atomicOk o.ord o.scope
  | .acas o => atomicOk o.ord o.scope
  | .aaddW o => atomicOk o.ord o.scope
  | .aandW o => atomicOk o.ord o.scope
  | .aorW o => atomicOk o.ord o.scope
  | .axorW o => atomicOk o.ord o.scope
  | .aminW o => atomicOk o.ord o.scope
  | .amaxW o => atomicOk o.ord o.scope
  | .aminuW o => atomicOk o.ord o.scope
  | .amaxuW o => atomicOk o.ord o.scope
  | .aswpW o => atomicOk o.ord o.scope
  | .acasW o => atomicOk o.ord o.scope
  | .aaddAgg _ => true
  | .cflush _ => true
  | .cinv _ => true
  | .cclean _ => true
  | .pref o => o.hint != 3
  | .wswait _ => true
  | .sync _ => true
  | .sret _ => true
  | .work _ => true
  | .wait _ => true
  | .anch _ => true
  | .roam _ => true
  | .send _ => true
  | .fork _ => true
  | .qcfg _ => true
  | .barcfg _ => true
  | .barw _ => true
  | .bart _ => true
  | .barq _ => true
  | .tcallr _ => true
  | .tret _ => true
  | .tabort _ => true
  | .tlook _ => true
  | .bnd _ => true
  | .bchk _ => true
  | .incu _ => true
  | .incr _ => true
  | .launch _ => true
  | .spawn _ => true
  | .tcall _ => true
  | .sendi _ => true
  | .forki _ => true
  | .ftest _ => true
  | .fcancel _ => true
  | .movh _ => true
  | .fwait _ => true
  | .vadd _ => true
  | .vsub _ => true
  | .vmul _ => true
  | .vfma _ => true
  | .vmin _ => true
  | .vmax _ => true
  | .vabs _ => true
  | .vneg _ => true
  | .vcvt o => decide (o.x ≠ o.f)
  | .vcmp _ => true
  | .vsel _ => true
  | .vred _ => true
  | .vex2 _ => true
  | .vlg2 _ => true
  | .vrcp _ => true
  | .vrsq _ => true
  | .vscale _ => true
  | .vmov _ => true
  | .vbcast _ => true
  | .vloop o => decide (1 ≤ o.n.toNat) && decide (o.n.toNat ≤ 8)
  | .vfence _ => true
  | .cpy _ => true
  | .cpyx _ => true
  | .cptr _ => true
  | .mma _ => true
  | .mmaz _ => true
  | .mst _ => true
  | .mld _ => true
  | .msync _ => true
  | .baddq _ => true
  | .bqnext _ => true
  | .trap _ => true
  | .eret _ => true
  | .capr _ => true
  | .cntr _ => true
  | .tlbi _ => true
  | .tflush _ => true
  | .incinit _ => true
  | .idle _ => true
  | .brk _ => true
  | .spill _ => true
  | .eset _ => true
  | .eget _ => true
  | .mfs _ => true
  | .mts _ => true
  | .illegalWord _ => true
  | .mtsRotcfg _ => true
  | .mtsHbmrmvAck _ => true
  | .mtsCorerstGo _ => true
  | .errinjArmResidFirst _ => true
  | .errinjArmResidBoth _ => true
  | .errinjArmScratchUce _ => true
  | .errinjArmScratchCe _ => true
  | .errinjArmRegDamage _ => true
  | .errinjCancel _ => true
  | .esetRtail _ _ => true
  | .esetRingConfig _ _ => true
  | .esetStreamReg _ _ => true
  | .esetCopyReg _ _ => true
  | .vrsmRetry => true
  | .vrsmAssistOne => true
  | .vrsmAssistRest => true
  | .vrsmDiscard => true
  | .esetBqlim _ => true
  | .lwerrWrite seam _ => decide (seam < 2)
  | .launchSlotWordWrite seam slot i _ => decide (seam < 2) && decide (slot < 64) && decide (i < 15)
  | .launchSlotFinalWord seam slot _ => decide (seam < 2) && decide (slot < 64)
  | .launchWindowNarrowWrite seam => decide (seam < 2)
  | .launchSlotFree seam slot => decide (seam < 2) && decide (slot < 64)
  | .launchRecordSubmit _ _ => true
  | .launchPlacement => true
  | .removedThreadReturn _ _ => true
  | .engineRelease _ => true
  | .spillEngineRun _ => true
  | .threadReload _ _ _ => true
  | .scratchpadSave _ => true
  | .scratchpadRestore _ _ => true
  | .classifierWindowEnd _ => true
  | .terminationSweep => true
  | .ctxlostThreadStart => true
  | .supervisorThreadRestart _ => true
  | .fetchBlock _ _ => true
  | .longResultLand _ _ _ => true
  | .storeBufferApply _ _ => true
  | .migrationDepart _ _ => true
  | .threadArrival _ => true
  | .remoteWordRequest _ => true
  | .tlbWalkComplete _ _ _ _ => true
  | .stealRequest _ _ _ => true
  | .stealReply _ _ => true
  | .qrxMessageArrival _ => true
  | .qdnPushArrival _ => true
  | .barrierTimeout _ => true
  | .reservationLapse _ _ => true
  | .waitTimeout _ _ => true
  | .yieldExpiry _ _ => true
  | .syncRecheck _ _ => true
  | .fullEmptyApply _ _ => true
  | .waitTableRetry _ _ => true
  | .aggCombine _ => true
  | .hemWindowDelivery _ => true
  | .incumbentUpdateApply _ => true
  | .tableGroupClose _ => true
  | .seamRds agent _ => decide (agent < 13)
  | .seamRdx agent _ => decide (agent < 13)
  | .seamUpg agent _ => decide (agent < 13)
  | .seamWb agent _ => decide (agent < 13)
  | .seamEvc agent _ => decide (agent < 13)
  | .seamTransactionEnd _ => true
  | .snoopArrival _ _ _ => true
  | .directoryRecallComplete _ => true
  | .agentDead agent => decide (agent < 13)
  | .coreSnoopTimeout _ => true
  | .seamFailure seam => decide (seam < 2)
  | .failoverComplete => true
  | .hostSnpdata _ => true
  | .hostSnpinv _ => true
  | .hostUnsupportedRequest seam => decide (seam < 2)
  | .combiningBufferDrain _ => true
  | .dcdReleaseRequest port _ _ => decide (port < 4)
  | .dcdReleaseComplete _ => true
  | .dcdForcedRelease _ => true
  | .peerLinkFailure _ => true
  | .linkTrained _ => true
  | .linkDown _ => true
  | .layerFailure _ _ => true
  | .layerCopyComplete => true
  | .weightRefreshStart _ _ => true
  | .weightRefreshEnd _ _ => true
  | .healthCeWindowEnd => true
  | .dziethCoreReset _ _ => true
  | .coreResetRelease _ => true
  | .matrixOpBegin _ stream => decide (stream < 16)
  | .matrixOpComplete _ => true
  | .mstComplete _ => true
  | .mldComplete _ => true
  | .baddqComplete _ => true
  | .vectorBodyStart _ => true
  | .vectorChunk _ => true
  | .vectorFaultDelivery _ _ => true
  | .sfuEntryServe _ => true
  | .copyBegin _ ch => decide (ch < 4)
  | .copyElementWrite _ ch => decide (ch < 4)
  | .copyComplete _ ch => decide (ch < 4)
  | .packageReset => true
  | .mbAttest seam => decide (seam < 2)
  | .mbRecover seam => decide (seam < 2)
  | .mbGetevent seam => decide (seam < 2)
  | .expanderBackInvalidate port _ => decide (port < 4)
  | .dynamicCapacityAdd port _ _ => decide (port < 4)
  | .cxlCacheMemEnable _ _ => true
  | .supervisorEndsLaunch _ => true
  | .powerClockGating _ => true

end Sys2Proof
end

