-- ==== Sys2Proof/Decode.lean ====
section
/-! DEFINITION. The decoder, total on any bytes and refusing by name (R255-R273), and after it the encoder, both written
from the encoding tables of R256, R257 and R261-R272. A word is read as a number, its fields with `bits` (R6). -/

namespace Sys2Proof

/-- Why a word is no instruction (R273): each is the trap ILLEG. -/
inductive DecodeError where
  /-- Not four bytes. -/
  | truncated
  /-- A reserved major. -/
  | reservedMajor
  /-- A reserved fn, eop, op, cond, sz or CACHE code. -/
  | reservedCode
  /-- A nonzero bit in a field marked 0, or a literal the row refuses. -/
  | fieldRefused
  /-- A register code from 19 to 30, a queue in a field whose direction forbids it, or a reserved sub-code. -/
  | operandRefused
  /-- An order, scope, mask, hint, count or format that the row does not accept. -/
  | valueRefused
deriving DecidableEq, Repr

def flagOf (n : Nat) : Bool := n == 1

def Src.code : Src → Nat
  | .g n => n.val
  | .qup => 16
  | .qrx => 18
  | .gz => 31

def Dst.code : Dst → Nat
  | .g n => n.val
  | .qdn => 17
  | .gz => 31

def Both.code : Both → Nat
  | .g n => n.val
  | .gz => 31

/-- A source field (R257). -/
def srcOf (n : Nat) : Option Src :=
  if h : n < 16 then some (.g ⟨n, h⟩) else if n = 16 then some .qup else if n = 18 then some .qrx
  else if n = 31 then some .gz else none

/-- A destination field (R257). -/
def dstOf (n : Nat) : Option Dst :=
  if h : n < 16 then some (.g ⟨n, h⟩) else if n = 17 then some .qdn else if n = 31 then some .gz else none

/-- A field marked sd or one that receives a handle (R257). -/
def bothOf (n : Nat) : Option Both :=
  if h : n < 16 then some (.g ⟨n, h⟩) else if n = 31 then some .gz else none

def finOf (k n : Nat) : Fin (2 ^ k) := ⟨n % 2 ^ k, Nat.mod_lt _ (Nat.two_pow_pos k)⟩

def FFmt.code : FFmt → Nat
  | .d => 0 | .s => 1 | .h => 2 | .b => 3

def ffmtOf (n : Nat) : FFmt :=
  match n with
  | 0 => .d | 1 => .s | 2 => .h | _ => .b

def Rm.code : Rm → Nat
  | .rne => 0 | .rz => 1 | .rdn => 2 | .rup => 3 | .rna => 4 | .dyn => 7

/-- The rounding field; 5 and 6 are refused (R181). -/
def rmOf (n : Nat) : Option Rm :=
  match n with
  | 0 => some .rne | 1 => some .rz | 2 => some .rdn | 3 => some .rup | 4 => some .rna | 7 => some .dyn | _ => none

def ShiftKind.code : ShiftKind → Nat
  | .sll => 0 | .srl => 1 | .sra => 2 | .ror => 3

def shiftOf (n : Nat) : ShiftKind :=
  match n with
  | 0 => .sll | 1 => .srl | 2 => .sra | _ => .ror

def Lane.code : Lane → Nat
  | .f64 => 0 | .f32 => 1 | .f16 => 2 | .bf16 => 3 | .i32 => 4 | .i16 => 5 | .i8 => 6 | .u8 => 7

def laneOf (n : Nat) : Lane :=
  match n with
  | 0 => .f64 | 1 => .f32 | 2 => .f16 | 3 => .bf16 | 4 => .i32 | 5 => .i16 | 6 => .i8 | _ => .u8

def VCond.code : VCond → Nat
  | .eq => 0 | .ne => 1 | .lt => 2 | .le => 3 | .gt => 4 | .ge => 5

def vcondOf (n : Nat) : Option VCond :=
  match n with
  | 0 => some .eq | 1 => some .ne | 2 => some .lt | 3 => some .le | 4 => some .gt | 5 => some .ge | _ => none

def RedKind.code : RedKind → Nat
  | .sum => 0 | .min => 1 | .max => 2

def redOf (n : Nat) : Option RedKind :=
  match n with
  | 0 => some .sum | 1 => some .min | 2 => some .max | _ => none

def ExtWidth.code : ExtWidth → Nat
  | .b8 => 0 | .b16 => 1 | .b32 => 2

def extOf (n : Nat) : Option ExtWidth :=
  match n with
  | 0 => some .b8 | 1 => some .b16 | 2 => some .b32 | _ => none

/-- The listed fields (low bit, width, value) hold their values. -/
def fixedIs (w : Nat) (l : List (Nat × Nat × Nat)) : Bool := l.all fun x => bits w x.1 x.2.1 == x.2.2

/-- One row of an encoding table: its fixed fields, then its operands. -/
def row {α : Type} (w : Nat) (fixed : List (Nat × Nat × Nat)) (dec : Nat → Option α) (mk : α → Instr) :
    Except DecodeError Instr :=
  if fixedIs w fixed then
    match dec w with
    | some o => .ok (mk o)
    | none => .error .operandRefused
  else .error .fieldRefused

/-! Shape R3w. -/

def R3w.dec (w : Nat) : Option R3w :=
  (dstOf (bits w 20 5)).bind fun d => (srcOf (bits w 15 5)).bind fun a => (srcOf (bits w 10 5)).bind fun b => some ⟨flagOf (bits w 31 1), d, a, b, flagOf (bits w 0 1)⟩

def R3w.enc (o : R3w) (base : Nat) : Nat :=
  base + (o.sw.toNat * 2 ^ 31 + o.d.code * 2 ^ 20 + o.a.code * 2 ^ 15 + o.b.code * 2 ^ 10 + o.w.toNat)

/-! Shape R3. -/

def R3.dec (w : Nat) : Option R3 :=
  (dstOf (bits w 20 5)).bind fun d => (srcOf (bits w 15 5)).bind fun a => (srcOf (bits w 10 5)).bind fun b => some ⟨flagOf (bits w 31 1), d, a, b⟩

def R3.enc (o : R3) (base : Nat) : Nat :=
  base + (o.sw.toNat * 2 ^ 31 + o.d.code * 2 ^ 20 + o.a.code * 2 ^ 15 + o.b.code * 2 ^ 10)

/-! Shape R2w. -/

def R2w.dec (w : Nat) : Option R2w :=
  (dstOf (bits w 20 5)).bind fun d => (srcOf (bits w 15 5)).bind fun a => some ⟨flagOf (bits w 31 1), d, a, flagOf (bits w 0 1)⟩

def R2w.enc (o : R2w) (base : Nat) : Nat :=
  base + (o.sw.toNat * 2 ^ 31 + o.d.code * 2 ^ 20 + o.a.code * 2 ^ 15 + o.w.toNat)

/-! Shape ExtOp. -/

def ExtOp.dec (w : Nat) : Option ExtOp :=
  (dstOf (bits w 20 5)).bind fun d => (srcOf (bits w 15 5)).bind fun a => (extOf (bits w 0 2)).bind fun n => some ⟨flagOf (bits w 31 1), d, a, n⟩

def ExtOp.enc (o : ExtOp) (base : Nat) : Nat :=
  base + (o.sw.toNat * 2 ^ 31 + o.d.code * 2 ^ 20 + o.a.code * 2 ^ 15 + o.n.code)

/-! Shape LeaOp. -/

def LeaOp.dec (w : Nat) : Option LeaOp :=
  (dstOf (bits w 20 5)).bind fun d => (srcOf (bits w 15 5)).bind fun a => (srcOf (bits w 10 5)).bind fun b => some ⟨flagOf (bits w 31 1), d, a, b, BitVec.ofNat 2 (bits w 0 2)⟩

def LeaOp.enc (o : LeaOp) (base : Nat) : Nat :=
  base + (o.sw.toNat * 2 ^ 31 + o.d.code * 2 ^ 20 + o.a.code * 2 ^ 15 + o.b.code * 2 ^ 10 + o.sh.toNat)

/-! Shape I15. -/

def I15.dec (w : Nat) : Option I15 :=
  (dstOf (bits w 20 5)).bind fun d => (srcOf (bits w 15 5)).bind fun a => some ⟨flagOf (bits w 31 1), d, a, BitVec.ofNat 15 (bits w 0 15)⟩

def I15.enc (o : I15) (base : Nat) : Nat :=
  base + (o.sw.toNat * 2 ^ 31 + o.d.code * 2 ^ 20 + o.a.code * 2 ^ 15 + o.imm.toNat)

/-! Shape ShiOp. -/

def ShiOp.dec (w : Nat) : Option ShiOp :=
  (dstOf (bits w 20 5)).bind fun d => (srcOf (bits w 15 5)).bind fun a => some ⟨flagOf (bits w 31 1), d, a, shiftOf (bits w 6 2), BitVec.ofNat 6 (bits w 0 6)⟩

def ShiOp.enc (o : ShiOp) (base : Nat) : Nat :=
  base + (o.sw.toNat * 2 ^ 31 + o.d.code * 2 ^ 20 + o.a.code * 2 ^ 15 + o.kind.code * 2 ^ 6 + o.n.toNat)

/-! Shape U20. -/

def U20.dec (w : Nat) : Option U20 :=
  (dstOf (bits w 20 5)).bind fun d => some ⟨flagOf (bits w 31 1), d, BitVec.ofNat 20 (bits w 0 20)⟩

def U20.enc (o : U20) (base : Nat) : Nat :=
  base + (o.sw.toNat * 2 ^ 31 + o.d.code * 2 ^ 20 + o.imm.toNat)

/-! Shape LhiOp. -/

def LhiOp.dec (w : Nat) : Option LhiOp :=
  (bothOf (bits w 20 5)).bind fun d => some ⟨flagOf (bits w 31 1), d, BitVec.ofNat 20 (bits w 0 20)⟩

def LhiOp.enc (o : LhiOp) (base : Nat) : Nat :=
  base + (o.sw.toNat * 2 ^ 31 + o.d.code * 2 ^ 20 + o.imm.toNat)

/-! Shape LeapOp. -/

def LeapOp.dec (w : Nat) : Option LeapOp :=
  (dstOf (bits w 20 5)).bind fun d => (srcOf (bits w 15 5)).bind fun a => some ⟨flagOf (bits w 31 1), d, a, BitVec.ofNat 14 (bits w 0 14)⟩

def LeapOp.enc (o : LeapOp) (base : Nat) : Nat :=
  base + (o.sw.toNat * 2 ^ 31 + o.d.code * 2 ^ 20 + o.a.code * 2 ^ 15 + o.p.toNat)

/-! Shape F3r. -/

def F3r.dec (w : Nat) : Option F3r :=
  (dstOf (bits w 20 5)).bind fun d => (srcOf (bits w 15 5)).bind fun a => (srcOf (bits w 10 5)).bind fun b => (rmOf (bits w 0 3)).bind fun r => some ⟨flagOf (bits w 31 1), d, a, b, ffmtOf (bits w 3 2), r⟩

def F3r.enc (o : F3r) (base : Nat) : Nat :=
  base + (o.sw.toNat * 2 ^ 31 + o.d.code * 2 ^ 20 + o.a.code * 2 ^ 15 + o.b.code * 2 ^ 10 + o.f.code * 2 ^ 3 + o.r.code)

/-! Shape F2r. -/

def F2r.dec (w : Nat) : Option F2r :=
  (dstOf (bits w 20 5)).bind fun d => (srcOf (bits w 15 5)).bind fun a => (rmOf (bits w 0 3)).bind fun r => some ⟨flagOf (bits w 31 1), d, a, ffmtOf (bits w 3 2), r⟩

def F2r.enc (o : F2r) (base : Nat) : Nat :=
  base + (o.sw.toNat * 2 ^ 31 + o.d.code * 2 ^ 20 + o.a.code * 2 ^ 15 + o.f.code * 2 ^ 3 + o.r.code)

/-! Shape FmaOp. -/

def FmaOp.dec (w : Nat) : Option FmaOp :=
  (bothOf (bits w 20 5)).bind fun d => (srcOf (bits w 15 5)).bind fun a => (srcOf (bits w 10 5)).bind fun b => (rmOf (bits w 0 3)).bind fun r => some ⟨flagOf (bits w 31 1), d, a, b, ffmtOf (bits w 3 2), r⟩

def FmaOp.enc (o : FmaOp) (base : Nat) : Nat :=
  base + (o.sw.toNat * 2 ^ 31 + o.d.code * 2 ^ 20 + o.a.code * 2 ^ 15 + o.b.code * 2 ^ 10 + o.f.code * 2 ^ 3 + o.r.code)

/-! Shape F3. -/

def F3.dec (w : Nat) : Option F3 :=
  (dstOf (bits w 20 5)).bind fun d => (srcOf (bits w 15 5)).bind fun a => (srcOf (bits w 10 5)).bind fun b => some ⟨flagOf (bits w 31 1), d, a, b, ffmtOf (bits w 3 2)⟩

def F3.enc (o : F3) (base : Nat) : Nat :=
  base + (o.sw.toNat * 2 ^ 31 + o.d.code * 2 ^ 20 + o.a.code * 2 ^ 15 + o.b.code * 2 ^ 10 + o.f.code * 2 ^ 3)

/-! Shape F2. -/

def F2.dec (w : Nat) : Option F2 :=
  (dstOf (bits w 20 5)).bind fun d => (srcOf (bits w 15 5)).bind fun a => some ⟨flagOf (bits w 31 1), d, a, ffmtOf (bits w 3 2)⟩

def F2.enc (o : F2) (base : Nat) : Nat :=
  base + (o.sw.toNat * 2 ^ 31 + o.d.code * 2 ^ 20 + o.a.code * 2 ^ 15 + o.f.code * 2 ^ 3)

/-! Shape FcvtOp. -/

def FcvtOp.dec (w : Nat) : Option FcvtOp :=
  (dstOf (bits w 20 5)).bind fun d => (srcOf (bits w 15 5)).bind fun a => (rmOf (bits w 0 3)).bind fun r => some ⟨flagOf (bits w 31 1), d, a, flagOf (bits w 12 1), ffmtOf (bits w 10 2), ffmtOf (bits w 3 2), r⟩

def FcvtOp.enc (o : FcvtOp) (base : Nat) : Nat :=
  base + (o.sw.toNat * 2 ^ 31 + o.d.code * 2 ^ 20 + o.a.code * 2 ^ 15 + o.nonsat.toNat * 2 ^ 12 + o.x.code * 2 ^ 10 + o.f.code * 2 ^ 3 + o.r.code)

/-! Shape FkeyOp. -/

def FkeyOp.dec (w : Nat) : Option FkeyOp :=
  (dstOf (bits w 20 5)).bind fun d => (srcOf (bits w 15 5)).bind fun a => some ⟨flagOf (bits w 31 1), d, a, flagOf (bits w 3 1)⟩

def FkeyOp.enc (o : FkeyOp) (base : Nat) : Nat :=
  base + (o.sw.toNat * 2 ^ 31 + o.d.code * 2 ^ 20 + o.a.code * 2 ^ 15 + o.single.toNat * 2 ^ 3)

/-! Shape SfuOp. -/

def SfuOp.dec (w : Nat) : Option SfuOp :=
  (dstOf (bits w 20 5)).bind fun d => (srcOf (bits w 15 5)).bind fun a => some ⟨flagOf (bits w 31 1), d, a, flagOf (bits w 4 1)⟩

def SfuOp.enc (o : SfuOp) (base : Nat) : Nat :=
  base + (o.sw.toNat * 2 ^ 31 + o.d.code * 2 ^ 20 + o.a.code * 2 ^ 15 + o.b16.toNat * 2 ^ 4)

/-! Shape BrOp. -/

def BrOp.dec (w : Nat) : Option BrOp :=
  (srcOf (bits w 16 5)).bind fun a => (srcOf (bits w 11 5)).bind fun b => some ⟨flagOf (bits w 31 1), a, b, BitVec.ofNat 11 (bits w 0 11)⟩

def BrOp.enc (o : BrOp) (base : Nat) : Nat :=
  base + (o.sw.toNat * 2 ^ 31 + o.a.code * 2 ^ 16 + o.b.code * 2 ^ 11 + o.off.toNat)

/-! Shape JOp. -/

def JOp.dec (w : Nat) : Option JOp :=
  some ⟨flagOf (bits w 31 1), BitVec.ofNat 20 (bits w 0 20)⟩

def JOp.enc (o : JOp) (base : Nat) : Nat :=
  base + (o.sw.toNat * 2 ^ 31 + o.off.toNat)

/-! Shape JalOp. -/

def JalOp.dec (w : Nat) : Option JalOp :=
  (dstOf (bits w 20 5)).bind fun d => some ⟨flagOf (bits w 31 1), d, BitVec.ofNat 20 (bits w 0 20)⟩

def JalOp.enc (o : JalOp) (base : Nat) : Nat :=
  base + (o.sw.toNat * 2 ^ 31 + o.d.code * 2 ^ 20 + o.off.toNat)

/-! Shape S0. -/

def S0.dec (w : Nat) : Option S0 :=
  some ⟨flagOf (bits w 31 1)⟩

def S0.enc (o : S0) (base : Nat) : Nat :=
  base + (o.sw.toNat * 2 ^ 31)

/-! Shape S1. -/

def S1.dec (w : Nat) : Option S1 :=
  (srcOf (bits w 15 5)).bind fun a => some ⟨flagOf (bits w 31 1), a⟩

def S1.enc (o : S1) (base : Nat) : Nat :=
  base + (o.sw.toNat * 2 ^ 31 + o.a.code * 2 ^ 15)

/-! Shape R2. -/

def R2.dec (w : Nat) : Option R2 :=
  (dstOf (bits w 20 5)).bind fun d => (srcOf (bits w 15 5)).bind fun a => some ⟨flagOf (bits w 31 1), d, a⟩

def R2.enc (o : R2) (base : Nat) : Nat :=
  base + (o.sw.toNat * 2 ^ 31 + o.d.code * 2 ^ 20 + o.a.code * 2 ^ 15)

/-! Shape LdOp. -/

def LdOp.dec (w : Nat) : Option LdOp :=
  (dstOf (bits w 20 5)).bind fun d => (srcOf (bits w 15 5)).bind fun b => some ⟨flagOf (bits w 31 1), d, b, BitVec.ofNat 13 (bits w 0 13)⟩

def LdOp.enc (o : LdOp) (base : Nat) : Nat :=
  base + (o.sw.toNat * 2 ^ 31 + o.d.code * 2 ^ 20 + o.b.code * 2 ^ 15 + o.disp.toNat)

/-! Shape StOp. -/

def StOp.dec (w : Nat) : Option StOp :=
  (srcOf (bits w 20 5)).bind fun v => (srcOf (bits w 15 5)).bind fun b => some ⟨flagOf (bits w 31 1), v, b, BitVec.ofNat 13 (bits w 0 13)⟩

def StOp.enc (o : StOp) (base : Nat) : Nat :=
  base + (o.sw.toNat * 2 ^ 31 + o.v.code * 2 ^ 20 + o.b.code * 2 ^ 15 + o.disp.toNat)

/-! Shape OLd. -/

def OLd.dec (w : Nat) : Option OLd :=
  (dstOf (bits w 20 5)).bind fun d => (srcOf (bits w 10 5)).bind fun b => some ⟨flagOf (bits w 31 1), d, b, BitVec.ofNat 2 (bits w 8 2), BitVec.ofNat 4 (bits w 4 4)⟩

def OLd.enc (o : OLd) (base : Nat) : Nat :=
  base + (o.sw.toNat * 2 ^ 31 + o.d.code * 2 ^ 20 + o.b.code * 2 ^ 10 + o.ord.toNat * 2 ^ 8 + o.scope.toNat * 2 ^ 4)

/-! Shape OSt. -/

def OSt.dec (w : Nat) : Option OSt :=
  (srcOf (bits w 15 5)).bind fun a => (srcOf (bits w 10 5)).bind fun b => some ⟨flagOf (bits w 31 1), a, b, BitVec.ofNat 2 (bits w 8 2), BitVec.ofNat 4 (bits w 4 4)⟩

def OSt.enc (o : OSt) (base : Nat) : Nat :=
  base + (o.sw.toNat * 2 ^ 31 + o.a.code * 2 ^ 15 + o.b.code * 2 ^ 10 + o.ord.toNat * 2 ^ 8 + o.scope.toNat * 2 ^ 4)

/-! Shape SLd. -/

def SLd.dec (w : Nat) : Option SLd :=
  (dstOf (bits w 20 5)).bind fun d => (srcOf (bits w 10 5)).bind fun b => some ⟨flagOf (bits w 31 1), d, b, BitVec.ofNat 4 (bits w 4 4)⟩

def SLd.enc (o : SLd) (base : Nat) : Nat :=
  base + (o.sw.toNat * 2 ^ 31 + o.d.code * 2 ^ 20 + o.b.code * 2 ^ 10 + o.scope.toNat * 2 ^ 4)

/-! Shape SSt. -/

def SSt.dec (w : Nat) : Option SSt :=
  (srcOf (bits w 15 5)).bind fun a => (srcOf (bits w 10 5)).bind fun b => some ⟨flagOf (bits w 31 1), a, b, BitVec.ofNat 4 (bits w 4 4)⟩

def SSt.enc (o : SSt) (base : Nat) : Nat :=
  base + (o.sw.toNat * 2 ^ 31 + o.a.code * 2 ^ 15 + o.b.code * 2 ^ 10 + o.scope.toNat * 2 ^ 4)

/-! Shape SeteOp. -/

def SeteOp.dec (w : Nat) : Option SeteOp :=
  (srcOf (bits w 10 5)).bind fun b => some ⟨flagOf (bits w 31 1), b, BitVec.ofNat 4 (bits w 4 4)⟩

def SeteOp.enc (o : SeteOp) (base : Nat) : Nat :=
  base + (o.sw.toNat * 2 ^ 31 + o.b.code * 2 ^ 10 + o.scope.toNat * 2 ^ 4)

/-! Shape AtOp. -/

def AtOp.dec (w : Nat) : Option AtOp :=
  (dstOf (bits w 20 5)).bind fun d => (srcOf (bits w 15 5)).bind fun a => (srcOf (bits w 10 5)).bind fun b => some ⟨flagOf (bits w 31 1), d, a, b, BitVec.ofNat 2 (bits w 8 2), BitVec.ofNat 4 (bits w 4 4)⟩

def AtOp.enc (o : AtOp) (base : Nat) : Nat :=
  base + (o.sw.toNat * 2 ^ 31 + o.d.code * 2 ^ 20 + o.a.code * 2 ^ 15 + o.b.code * 2 ^ 10 + o.ord.toNat * 2 ^ 8 + o.scope.toNat * 2 ^ 4)

/-! Shape WrsOp. -/

def WrsOp.dec (w : Nat) : Option WrsOp :=
  (dstOf (bits w 20 5)).bind fun d => (srcOf (bits w 10 5)).bind fun b => some ⟨flagOf (bits w 31 1), d, b⟩

def WrsOp.enc (o : WrsOp) (base : Nat) : Nat :=
  base + (o.sw.toNat * 2 ^ 31 + o.d.code * 2 ^ 20 + o.b.code * 2 ^ 10)

/-! Shape FenceOp. -/

def FenceOp.dec (w : Nat) : Option FenceOp :=
  some ⟨flagOf (bits w 31 1), BitVec.ofNat 4 (bits w 20 4), BitVec.ofNat 2 (bits w 8 2), BitVec.ofNat 4 (bits w 4 4)⟩

def FenceOp.enc (o : FenceOp) (base : Nat) : Nat :=
  base + (o.sw.toNat * 2 ^ 31 + o.mask.toNat * 2 ^ 20 + o.ord.toNat * 2 ^ 8 + o.scope.toNat * 2 ^ 4)

/-! Shape CasOp. -/

def CasOp.dec (w : Nat) : Option CasOp :=
  (bothOf (bits w 20 5)).bind fun d => (srcOf (bits w 15 5)).bind fun a => (srcOf (bits w 10 5)).bind fun b => some ⟨flagOf (bits w 31 1), d, a, b, BitVec.ofNat 2 (bits w 8 2), BitVec.ofNat 4 (bits w 4 4)⟩

def CasOp.enc (o : CasOp) (base : Nat) : Nat :=
  base + (o.sw.toNat * 2 ^ 31 + o.d.code * 2 ^ 20 + o.a.code * 2 ^ 15 + o.b.code * 2 ^ 10 + o.ord.toNat * 2 ^ 8 + o.scope.toNat * 2 ^ 4)

/-! Shape CacheOp. -/

def CacheOp.dec (w : Nat) : Option CacheOp :=
  (srcOf (bits w 15 5)).bind fun b => some ⟨flagOf (bits w 31 1), b, BitVec.ofNat 13 (bits w 0 13)⟩

def CacheOp.enc (o : CacheOp) (base : Nat) : Nat :=
  base + (o.sw.toNat * 2 ^ 31 + o.b.code * 2 ^ 15 + o.disp.toNat)

/-! Shape PrefOp. -/

def PrefOp.dec (w : Nat) : Option PrefOp :=
  (srcOf (bits w 15 5)).bind fun b => some ⟨flagOf (bits w 31 1), b, BitVec.ofNat 2 (bits w 13 2), BitVec.ofNat 13 (bits w 0 13)⟩

def PrefOp.enc (o : PrefOp) (base : Nat) : Nat :=
  base + (o.sw.toNat * 2 ^ 31 + o.b.code * 2 ^ 15 + o.hint.toNat * 2 ^ 13 + o.disp.toNat)

/-! Shape S2. -/

def S2.dec (w : Nat) : Option S2 :=
  (srcOf (bits w 15 5)).bind fun a => (srcOf (bits w 10 5)).bind fun b => some ⟨flagOf (bits w 31 1), a, b⟩

def S2.enc (o : S2) (base : Nat) : Nat :=
  base + (o.sw.toNat * 2 ^ 31 + o.a.code * 2 ^ 15 + o.b.code * 2 ^ 10)

/-! Shape KOp. -/

def KOp.dec (w : Nat) : Option KOp :=
  (srcOf (bits w 15 5)).bind fun a => some ⟨flagOf (bits w 31 1), a, finOf 3 (bits w 0 3)⟩

def KOp.enc (o : KOp) (base : Nat) : Nat :=
  base + (o.sw.toNat * 2 ^ 31 + o.a.code * 2 ^ 15 + o.k.val)

/-! Shape K2Op. -/

def K2Op.dec (w : Nat) : Option K2Op :=
  (srcOf (bits w 15 5)).bind fun a => (srcOf (bits w 10 5)).bind fun b => some ⟨flagOf (bits w 31 1), a, b, finOf 3 (bits w 0 3)⟩

def K2Op.enc (o : K2Op) (base : Nat) : Nat :=
  base + (o.sw.toNat * 2 ^ 31 + o.a.code * 2 ^ 15 + o.b.code * 2 ^ 10 + o.k.val)

/-! Shape IncrOp. -/

def IncrOp.dec (w : Nat) : Option IncrOp :=
  (dstOf (bits w 20 5)).bind fun d => (dstOf (bits w 10 5)).bind fun b => some ⟨flagOf (bits w 31 1), d, b, finOf 3 (bits w 0 3)⟩

def IncrOp.enc (o : IncrOp) (base : Nat) : Nat :=
  base + (o.sw.toNat * 2 ^ 31 + o.d.code * 2 ^ 20 + o.b.code * 2 ^ 10 + o.k.val)

/-! Shape SendiOp. -/

def SendiOp.dec (w : Nat) : Option SendiOp :=
  (srcOf (bits w 15 5)).bind fun a => some ⟨flagOf (bits w 31 1), a, BitVec.ofNat 14 (bits w 0 14)⟩

def SendiOp.enc (o : SendiOp) (base : Nat) : Nat :=
  base + (o.sw.toNat * 2 ^ 31 + o.a.code * 2 ^ 15 + o.p.toNat)

/-! Shape ForkiOp. -/

def ForkiOp.dec (w : Nat) : Option ForkiOp :=
  (dstOf (bits w 20 5)).bind fun d => (srcOf (bits w 15 5)).bind fun a => some ⟨flagOf (bits w 31 1), d, a, BitVec.ofNat 14 (bits w 0 14)⟩

def ForkiOp.enc (o : ForkiOp) (base : Nat) : Nat :=
  base + (o.sw.toNat * 2 ^ 31 + o.d.code * 2 ^ 20 + o.a.code * 2 ^ 15 + o.p.toNat)

/-! Shape MovhOp. -/

def MovhOp.dec (w : Nat) : Option MovhOp :=
  (bothOf (bits w 20 5)).bind fun d => (srcOf (bits w 15 5)).bind fun a => some ⟨flagOf (bits w 31 1), d, a⟩

def MovhOp.enc (o : MovhOp) (base : Nat) : Nat :=
  base + (o.sw.toNat * 2 ^ 31 + o.d.code * 2 ^ 20 + o.a.code * 2 ^ 15)

/-! Shape V3. -/

def V3.dec (w : Nat) : Option V3 :=
  some ⟨flagOf (bits w 31 1), finOf 4 (bits w 20 4), finOf 4 (bits w 15 4), finOf 4 (bits w 10 4), laneOf (bits w 0 3)⟩

def V3.enc (o : V3) (base : Nat) : Nat :=
  base + (o.sw.toNat * 2 ^ 31 + o.d.val * 2 ^ 20 + o.a.val * 2 ^ 15 + o.b.val * 2 ^ 10 + o.f.code)

/-! Shape V3v. -/

def V3v.dec (w : Nat) : Option V3v :=
  some ⟨flagOf (bits w 31 1), finOf 3 (bits w 20 3), finOf 4 (bits w 15 4), finOf 4 (bits w 10 4), laneOf (bits w 0 3)⟩

def V3v.enc (o : V3v) (base : Nat) : Nat :=
  base + (o.sw.toNat * 2 ^ 31 + o.d.val * 2 ^ 20 + o.a.val * 2 ^ 15 + o.b.val * 2 ^ 10 + o.f.code)

/-! Shape V2. -/

def V2.dec (w : Nat) : Option V2 :=
  some ⟨flagOf (bits w 31 1), finOf 4 (bits w 20 4), finOf 4 (bits w 15 4), laneOf (bits w 0 3)⟩

def V2.enc (o : V2) (base : Nat) : Nat :=
  base + (o.sw.toNat * 2 ^ 31 + o.d.val * 2 ^ 20 + o.a.val * 2 ^ 15 + o.f.code)

/-! Shape VcvtOp. -/

def VcvtOp.dec (w : Nat) : Option VcvtOp :=
  some ⟨flagOf (bits w 31 1), finOf 4 (bits w 20 4), finOf 4 (bits w 15 4), flagOf (bits w 14 1), flagOf (bits w 13 1), laneOf (bits w 10 3), laneOf (bits w 0 3)⟩

def VcvtOp.enc (o : VcvtOp) (base : Nat) : Nat :=
  base + (o.sw.toNat * 2 ^ 31 + o.d.val * 2 ^ 20 + o.a.val * 2 ^ 15 + o.rne.toNat * 2 ^ 14 + o.nonsat.toNat * 2 ^ 13 + o.x.code * 2 ^ 10 + o.f.code)

/-! Shape VcmpOp. -/

def VcmpOp.dec (w : Nat) : Option VcmpOp :=
  (vcondOf (bits w 10 3)).bind fun c => some ⟨flagOf (bits w 31 1), finOf 3 (bits w 20 3), finOf 4 (bits w 15 4), c, laneOf (bits w 0 3)⟩

def VcmpOp.enc (o : VcmpOp) (base : Nat) : Nat :=
  base + (o.sw.toNat * 2 ^ 31 + o.d.val * 2 ^ 20 + o.a.val * 2 ^ 15 + o.c.code * 2 ^ 10 + o.f.code)

/-! Shape VredOp. -/

def VredOp.dec (w : Nat) : Option VredOp :=
  (bothOf (bits w 20 5)).bind fun d => (redOf (bits w 10 5)).bind fun k => some ⟨flagOf (bits w 31 1), d, finOf 4 (bits w 15 4), k, laneOf (bits w 0 3)⟩

def VredOp.enc (o : VredOp) (base : Nat) : Nat :=
  base + (o.sw.toNat * 2 ^ 31 + o.d.code * 2 ^ 20 + o.a.val * 2 ^ 15 + o.k.code * 2 ^ 10 + o.f.code)

/-! Shape VsfuOp. -/

def VsfuOp.dec (w : Nat) : Option VsfuOp :=
  some ⟨flagOf (bits w 31 1), finOf 4 (bits w 20 4), finOf 4 (bits w 15 4), flagOf (bits w 1 1)⟩

def VsfuOp.enc (o : VsfuOp) (base : Nat) : Nat :=
  base + (o.sw.toNat * 2 ^ 31 + o.d.val * 2 ^ 20 + o.a.val * 2 ^ 15 + o.b16.toNat * 2 ^ 1)

/-! Shape VscaleOp. -/

def VscaleOp.dec (w : Nat) : Option VscaleOp :=
  (bothOf (bits w 10 5)).bind fun b => some ⟨flagOf (bits w 31 1), finOf 4 (bits w 20 4), finOf 4 (bits w 15 4), b, finOf 2 (bits w 0 2)⟩

def VscaleOp.enc (o : VscaleOp) (base : Nat) : Nat :=
  base + (o.sw.toNat * 2 ^ 31 + o.d.val * 2 ^ 20 + o.a.val * 2 ^ 15 + o.b.code * 2 ^ 10 + o.f.val)

/-! Shape VbcastOp. -/

def VbcastOp.dec (w : Nat) : Option VbcastOp :=
  (bothOf (bits w 15 5)).bind fun a => some ⟨flagOf (bits w 31 1), finOf 4 (bits w 20 4), a, laneOf (bits w 0 3)⟩

def VbcastOp.enc (o : VbcastOp) (base : Nat) : Nat :=
  base + (o.sw.toNat * 2 ^ 31 + o.d.val * 2 ^ 20 + o.a.code * 2 ^ 15 + o.f.code)

/-! Shape VloopOp. -/

def VloopOp.dec (w : Nat) : Option VloopOp :=
  some ⟨flagOf (bits w 31 1), BitVec.ofNat 5 (bits w 10 5)⟩

def VloopOp.enc (o : VloopOp) (base : Nat) : Nat :=
  base + (o.sw.toNat * 2 ^ 31 + o.n.toNat * 2 ^ 10)

/-! Shape CpyOp. -/

def CpyOp.dec (w : Nat) : Option CpyOp :=
  (bothOf (bits w 20 5)).bind fun d => (srcOf (bits w 15 5)).bind fun a => (srcOf (bits w 10 5)).bind fun b => some ⟨flagOf (bits w 31 1), d, a, b, finOf 2 (bits w 0 2)⟩

def CpyOp.enc (o : CpyOp) (base : Nat) : Nat :=
  base + (o.sw.toNat * 2 ^ 31 + o.d.code * 2 ^ 20 + o.a.code * 2 ^ 15 + o.b.code * 2 ^ 10 + o.ch.val)

/-! Shape CptrOp. -/

def CptrOp.dec (w : Nat) : Option CptrOp :=
  (dstOf (bits w 20 5)).bind fun d => some ⟨flagOf (bits w 31 1), d, finOf 2 (bits w 0 2)⟩

def CptrOp.enc (o : CptrOp) (base : Nat) : Nat :=
  base + (o.sw.toNat * 2 ^ 31 + o.d.code * 2 ^ 20 + o.ch.val)

/-! Shape MatOp. -/

def MatOp.dec (w : Nat) : Option MatOp :=
  (bothOf (bits w 20 5)).bind fun d => (srcOf (bits w 15 5)).bind fun a => (srcOf (bits w 10 5)).bind fun b => some ⟨flagOf (bits w 31 1), d, a, b, finOf 4 (bits w 0 4)⟩

def MatOp.enc (o : MatOp) (base : Nat) : Nat :=
  base + (o.sw.toNat * 2 ^ 31 + o.d.code * 2 ^ 20 + o.a.code * 2 ^ 15 + o.b.code * 2 ^ 10 + o.t.val)

/-! Shape MsyncOp. -/

def MsyncOp.dec (w : Nat) : Option MsyncOp :=
  (dstOf (bits w 20 5)).bind fun d => some ⟨flagOf (bits w 31 1), d, finOf 4 (bits w 0 4)⟩

def MsyncOp.enc (o : MsyncOp) (base : Nat) : Nat :=
  base + (o.sw.toNat * 2 ^ 31 + o.d.code * 2 ^ 20 + o.t.val)

/-! Shape BaddOp. -/

def BaddOp.dec (w : Nat) : Option BaddOp :=
  (bothOf (bits w 20 5)).bind fun d => (srcOf (bits w 15 5)).bind fun a => (srcOf (bits w 10 5)).bind fun b => some ⟨flagOf (bits w 31 1), d, a, b⟩

def BaddOp.enc (o : BaddOp) (base : Nat) : Nat :=
  base + (o.sw.toNat * 2 ^ 31 + o.d.code * 2 ^ 20 + o.a.code * 2 ^ 15 + o.b.code * 2 ^ 10)

/-! Shape D1. -/

def D1.dec (w : Nat) : Option D1 :=
  (dstOf (bits w 20 5)).bind fun d => some ⟨flagOf (bits w 31 1), d⟩

def D1.enc (o : D1) (base : Nat) : Nat :=
  base + (o.sw.toNat * 2 ^ 31 + o.d.code * 2 ^ 20)

/-! Shape EsetOp. -/

def EsetOp.dec (w : Nat) : Option EsetOp :=
  (srcOf (bits w 15 5)).bind fun a => some ⟨flagOf (bits w 31 1), a, BitVec.ofNat 9 (bits w 0 9)⟩

def EsetOp.enc (o : EsetOp) (base : Nat) : Nat :=
  base + (o.sw.toNat * 2 ^ 31 + o.a.code * 2 ^ 15 + o.n.toNat)

/-! Shape EgetOp. -/

def EgetOp.dec (w : Nat) : Option EgetOp :=
  (dstOf (bits w 20 5)).bind fun d => some ⟨flagOf (bits w 31 1), d, BitVec.ofNat 9 (bits w 0 9)⟩

def EgetOp.enc (o : EgetOp) (base : Nat) : Nat :=
  base + (o.sw.toNat * 2 ^ 31 + o.d.code * 2 ^ 20 + o.n.toNat)

/-! Shape MfsOp. -/

def MfsOp.dec (w : Nat) : Option MfsOp :=
  (dstOf (bits w 20 5)).bind fun d => some ⟨flagOf (bits w 31 1), d, BitVec.ofNat 15 (bits w 0 15)⟩

def MfsOp.enc (o : MfsOp) (base : Nat) : Nat :=
  base + (o.sw.toNat * 2 ^ 31 + o.d.code * 2 ^ 20 + o.idx.toNat)

/-! Shape MtsOp. -/

def MtsOp.dec (w : Nat) : Option MtsOp :=
  (srcOf (bits w 15 5)).bind fun a => some ⟨flagOf (bits w 31 1), a, BitVec.ofNat 15 (bits w 0 15)⟩

def MtsOp.enc (o : MtsOp) (base : Nat) : Nat :=
  base + (o.sw.toNat * 2 ^ 31 + o.a.code * 2 ^ 15 + o.idx.toNat)

/-- Major 0x00. -/
def decodeAlu (w : Nat) : Except DecodeError Instr :=
  match bits w 3 7 with
  | 0 => row w [(1, 2, 0)] R3w.dec .add
  | 1 => row w [(1, 2, 0)] R3w.dec .sub
  | 2 => row w [(0, 3, 0)] R3.dec .and
  | 3 => row w [(0, 3, 0)] R3.dec .or
  | 4 => row w [(0, 3, 0)] R3.dec .xor
  | 5 => row w [(0, 3, 0)] R3.dec .andn
  | 6 => row w [(0, 3, 0)] R3.dec .orn
  | 7 => row w [(0, 3, 0)] R3.dec .xnor
  | 8 => row w [(1, 2, 0)] R3w.dec .sll
  | 9 => row w [(1, 2, 0)] R3w.dec .srl
  | 10 => row w [(1, 2, 0)] R3w.dec .sra
  | 11 => row w [(1, 2, 0)] R3w.dec .rol
  | 12 => row w [(1, 2, 0)] R3w.dec .ror
  | 13 => row w [(0, 3, 0)] R3.dec .min
  | 14 => row w [(0, 3, 0)] R3.dec .max
  | 15 => row w [(0, 3, 0)] R3.dec .minu
  | 16 => row w [(0, 3, 0)] R3.dec .maxu
  | 17 => row w [(0, 3, 0)] R3.dec .slt
  | 18 => row w [(0, 3, 0)] R3.dec .sltu
  | 19 => row w [(0, 3, 0)] R3.dec .seq
  | 20 => row w [(0, 3, 0)] R3.dec .sne
  | 21 => row w [(1, 2, 0)] R3w.dec .mul
  | 22 => row w [(1, 2, 0)] R3w.dec .mulh
  | 23 => row w [(1, 2, 0)] R3w.dec .mulhu
  | 24 => row w [(1, 2, 0)] R3w.dec .div
  | 25 => row w [(1, 2, 0)] R3w.dec .divu
  | 26 => row w [(1, 2, 0)] R3w.dec .rem
  | 27 => row w [(1, 2, 0)] R3w.dec .remu
  | 28 => row w [(1, 2, 0), (10, 5, 0)] R2w.dec .clz
  | 29 => row w [(1, 2, 0), (10, 5, 0)] R2w.dec .ctz
  | 30 => row w [(1, 2, 0), (10, 5, 0)] R2w.dec .popc
  | 31 => row w [(1, 2, 0), (10, 5, 0)] R2w.dec .brev
  | 32 => row w [(1, 2, 0), (10, 5, 0)] R2w.dec .bswap
  | 33 => row w [(2, 1, 0), (10, 5, 0)] ExtOp.dec .sext
  | 34 => row w [(2, 1, 0), (10, 5, 0)] ExtOp.dec .zext
  | 35 => row w [(0, 3, 0)] R3.dec .selz
  | 36 => row w [(2, 1, 0)] LeaOp.dec .lea
  | _ => .error .reservedCode

/-- Major 0x0D. -/
def decodeFpu (w : Nat) : Except DecodeError Instr :=
  match bits w 5 5 with
  | 0 => row w [] F3r.dec .fadd
  | 1 => row w [] F3r.dec .fsub
  | 2 => row w [] F3r.dec .fmul
  | 3 => row w [] F3r.dec .fdiv
  | 4 => row w [(10, 5, 0)] F2r.dec .fsqrt
  | 5 => row w [] FmaOp.dec .fma
  | 6 => row w [] FmaOp.dec .fms
  | 7 => row w [(0, 3, 7)] F3.dec .fmin
  | 8 => row w [(0, 3, 7)] F3.dec .fmax
  | 9 => row w [(0, 3, 7), (10, 5, 0)] F2.dec .fabs
  | 10 => row w [(0, 3, 7), (10, 5, 0)] F2.dec .fneg
  | 11 => row w [(0, 3, 7)] F3.dec .fcpys
  | 12 => row w [(0, 3, 7)] F3.dec .feq
  | 13 => row w [(0, 3, 7)] F3.dec .flt
  | 14 => row w [(0, 3, 7)] F3.dec .fle
  | 15 => row w [(0, 3, 7), (10, 5, 0)] F2.dec .fclass
  | 16 => row w [(13, 2, 0)] FcvtOp.dec .fcvt
  | 17 => row w [(10, 5, 0)] F2r.dec .fcvti
  | 18 => row w [(10, 5, 0)] F2r.dec .icvtf
  | 19 => row w [(0, 3, 7), (4, 1, 0), (10, 5, 0)] FkeyOp.dec .fkey
  | 20 => row w [(0, 4, 15), (10, 5, 0)] SfuOp.dec .fex2
  | 21 => row w [(0, 4, 15), (10, 5, 0)] SfuOp.dec .flg2
  | 22 => row w [(0, 4, 15), (10, 5, 0)] SfuOp.dec .frcp
  | 23 => row w [(0, 4, 15), (10, 5, 0)] SfuOp.dec .frsq
  | 24 => row w [(0, 4, 15), (10, 5, 0)] SfuOp.dec .fsin
  | 25 => row w [(0, 4, 15), (10, 5, 0)] SfuOp.dec .fcos
  | 26 => row w [(0, 4, 15), (10, 5, 0)] SfuOp.dec .ftanh
  | _ => .error .reservedCode

/-- Major 0x0E. -/
def decodeBr (w : Nat) : Except DecodeError Instr :=
  match bits w 21 4 with
  | 0 => row w [] BrOp.dec .beq
  | 1 => row w [] BrOp.dec .bne
  | 2 => row w [] BrOp.dec .blt
  | 3 => row w [] BrOp.dec .bge
  | 4 => row w [] BrOp.dec .bltu
  | 5 => row w [] BrOp.dec .bgeu
  | 6 => row w [] BrOp.dec .bbs
  | 7 => row w [] BrOp.dec .bbc
  | _ => .error .reservedCode

/-- Major 0x11. -/
def decodeCtl (w : Nat) : Except DecodeError Instr :=
  match bits w 3 7 with
  | 0 => row w [(0, 3, 0), (10, 15, 0)] S0.dec .nop
  | 1 => row w [(0, 3, 0), (10, 5, 0), (20, 5, 0)] S1.dec .jr
  | 2 => row w [(0, 3, 0), (10, 5, 0)] R2.dec .jalr
  | 3 => row w [(0, 3, 0), (10, 15, 0)] S0.dec .halt
  | 4 => row w [(0, 3, 0), (10, 15, 0)] S0.dec .yield
  | _ => .error .reservedCode

/-- Major 0x12. -/
def decodeLd (w : Nat) : Except DecodeError Instr :=
  match bits w 13 2 with
  | 0 => row w [] LdOp.dec .ldb
  | 1 => row w [] LdOp.dec .ldh
  | 2 => row w [] LdOp.dec .ldw
  | 3 => row w [] LdOp.dec .ldd
  | _ => .error .reservedCode

/-- Major 0x13. -/
def decodeLdz (w : Nat) : Except DecodeError Instr :=
  match bits w 13 2 with
  | 0 => row w [] LdOp.dec .ldbz
  | 1 => row w [] LdOp.dec .ldhz
  | 2 => row w [] LdOp.dec .ldwz
  | _ => .error .reservedCode

/-- Major 0x14. -/
def decodeSt (w : Nat) : Except DecodeError Instr :=
  match bits w 13 2 with
  | 0 => row w [] StOp.dec .stb
  | 1 => row w [] StOp.dec .sth
  | 2 => row w [] StOp.dec .stw
  | 3 => row w [] StOp.dec .std
  | _ => .error .reservedCode

/-- Major 0x16. -/
def decodeMemo (w : Nat) : Except DecodeError Instr :=
  match bits w 0 4 with
  | 0 => row w [(15, 5, 0)] OLd.dec .lda
  | 1 => row w [(20, 5, 0)] OSt.dec .stl
  | 2 => row w [(8, 2, 3), (15, 5, 0)] SLd.dec .ldsc
  | 3 => row w [(8, 2, 3), (20, 5, 0)] SSt.dec .stsc
  | 4 => row w [(8, 2, 0), (15, 5, 0)] SLd.dec .ldf
  | 5 => row w [(8, 2, 0), (15, 5, 0)] SLd.dec .ldfe
  | 6 => row w [(8, 2, 0), (20, 5, 0)] SSt.dec .stf
  | 7 => row w [(8, 2, 0), (20, 5, 0)] SSt.dec .stef
  | 8 => row w [(8, 2, 0), (15, 10, 0)] SeteOp.dec .sete
  | 9 => row w [(8, 2, 0), (15, 5, 0)] SLd.dec .fetst
  | 10 => row w [(15, 5, 0)] OLd.dec .lres
  | 11 => row w [] AtOp.dec .scon
  | 12 => row w [(4, 6, 0), (15, 5, 0)] WrsOp.dec .wrs
  | 13 => row w [(10, 10, 0), (24, 1, 0)] FenceOp.dec .fence
  | _ => .error .reservedCode

/-- Major 0x17. -/
def decodeAtomd (w : Nat) : Except DecodeError Instr :=
  match bits w 0 4 with
  | 0 => row w [] AtOp.dec .aadd
  | 1 => row w [] AtOp.dec .aand
  | 2 => row w [] AtOp.dec .aor
  | 3 => row w [] AtOp.dec .axor
  | 4 => row w [] AtOp.dec .amin
  | 5 => row w [] AtOp.dec .amax
  | 6 => row w [] AtOp.dec .aminu
  | 7 => row w [] AtOp.dec .amaxu
  | 8 => row w [] AtOp.dec .aswp
  | 9 => row w [] CasOp.dec .acas
  | _ => .error .reservedCode

/-- Major 0x18. -/
def decodeAtomw (w : Nat) : Except DecodeError Instr :=
  match bits w 0 4 with
  | 0 => row w [] AtOp.dec .aaddW
  | 1 => row w [] AtOp.dec .aandW
  | 2 => row w [] AtOp.dec .aorW
  | 3 => row w [] AtOp.dec .axorW
  | 4 => row w [] AtOp.dec .aminW
  | 5 => row w [] AtOp.dec .amaxW
  | 6 => row w [] AtOp.dec .aminuW
  | 7 => row w [] AtOp.dec .amaxuW
  | 8 => row w [] AtOp.dec .aswpW
  | 9 => row w [] CasOp.dec .acasW
  | 10 => row w [(4, 6, 0)] R3.dec .aaddAgg
  | _ => .error .reservedCode

/-- Major 0x19. -/
def decodeCache (w : Nat) : Except DecodeError Instr :=
  match bits w 20 5 with
  | 0 => row w [(13, 2, 0)] CacheOp.dec .cflush
  | 1 => row w [(13, 2, 0)] CacheOp.dec .cinv
  | 2 => row w [(13, 2, 0)] CacheOp.dec .cclean
  | 3 => row w [] PrefOp.dec .pref
  | 4 => row w [(13, 2, 0)] CacheOp.dec .wswait
  | _ => .error .reservedCode

/-- Major 0x1A. -/
def decodeTask (w : Nat) : Except DecodeError Instr :=
  match bits w 3 7 with
  | 0 => row w [(0, 3, 0), (10, 15, 0)] S0.dec .sync
  | 1 => row w [(0, 3, 0), (10, 15, 0)] S0.dec .sret
  | 2 => row w [(0, 3, 0), (10, 15, 0)] S0.dec .work
  | 3 => row w [(0, 3, 0), (10, 5, 0), (20, 5, 0)] S1.dec .wait
  | 4 => row w [(0, 3, 0), (10, 15, 0)] S0.dec .anch
  | 5 => row w [(0, 3, 0), (10, 15, 0)] S0.dec .roam
  | 6 => row w [(0, 3, 0), (20, 5, 0)] S2.dec .send
  | 7 => row w [(0, 3, 0)] R3.dec .fork
  | 8 => row w [(0, 3, 0), (20, 5, 0)] S2.dec .qcfg
  | 9 => row w [(0, 3, 0), (20, 5, 0)] S2.dec .barcfg
  | 10 => row w [(0, 3, 0), (10, 5, 0), (20, 5, 0)] S1.dec .barw
  | 11 => row w [(0, 3, 0), (10, 5, 0), (20, 5, 0)] S1.dec .bart
  | 12 => row w [(0, 3, 0), (10, 5, 0)] R2.dec .barq
  | 13 => row w [(0, 3, 0), (10, 5, 0), (20, 5, 0)] S1.dec .tcallr
  | 14 => row w [(0, 3, 0), (10, 15, 0)] S0.dec .tret
  | 15 => row w [(0, 3, 0), (10, 15, 0)] S0.dec .tabort
  | 16 => row w [(0, 3, 0), (10, 5, 0)] R2.dec .tlook
  | 17 => row w [(10, 5, 0), (20, 5, 0)] KOp.dec .bnd
  | 18 => row w [(0, 3, 0), (10, 15, 0)] S0.dec .bchk
  | 19 => row w [(20, 5, 0)] K2Op.dec .incu
  | 20 => row w [(15, 5, 0)] IncrOp.dec .incr
  | 21 => row w [(0, 3, 0), (10, 5, 0), (20, 5, 0)] S1.dec .launch
  | _ => .error .reservedCode

/-- Major 0x1F. -/
def decodeEng (w : Nat) : Except DecodeError Instr :=
  match bits w 4 6 with
  | 0 => row w [(0, 4, 0), (10, 5, 0)] R2.dec .ftest
  | 1 => row w [(0, 4, 0), (10, 5, 0), (20, 5, 0)] S1.dec .fcancel
  | 2 => row w [(0, 4, 0), (10, 5, 0)] MovhOp.dec .movh
  | 3 => row w [(0, 4, 0), (10, 5, 0), (20, 5, 0)] S1.dec .fwait
  | _ => .error .reservedCode

/-- Major 0x20. -/
def decodeVec (w : Nat) : Except DecodeError Instr :=
  match bits w 4 6 with
  | 0 => row w [(3, 1, 0), (14, 1, 0), (19, 1, 0), (24, 1, 0)] V3.dec .vadd
  | 1 => row w [(3, 1, 0), (14, 1, 0), (19, 1, 0), (24, 1, 0)] V3.dec .vsub
  | 2 => row w [(3, 1, 0), (14, 1, 0), (19, 1, 0), (24, 1, 0)] V3.dec .vmul
  | 3 => row w [(3, 1, 0), (14, 1, 0), (19, 1, 0), (23, 2, 1)] V3v.dec .vfma
  | 4 => row w [(3, 1, 0), (14, 1, 0), (19, 1, 0), (24, 1, 0)] V3.dec .vmin
  | 5 => row w [(3, 1, 0), (14, 1, 0), (19, 1, 0), (24, 1, 0)] V3.dec .vmax
  | 6 => row w [(3, 1, 0), (10, 5, 0), (19, 1, 0), (24, 1, 0)] V2.dec .vabs
  | 7 => row w [(3, 1, 0), (10, 5, 0), (19, 1, 0), (24, 1, 0)] V2.dec .vneg
  | 8 => row w [(3, 1, 0), (19, 1, 0), (24, 1, 0)] VcvtOp.dec .vcvt
  | 9 => row w [(3, 1, 0), (13, 2, 0), (19, 1, 0), (23, 2, 1)] VcmpOp.dec .vcmp
  | 10 => row w [(3, 1, 0), (14, 1, 0), (19, 1, 0), (23, 2, 1)] V3v.dec .vsel
  | 11 => row w [(3, 1, 0), (19, 1, 0)] VredOp.dec .vred
  | 12 => row w [(0, 1, 1), (2, 2, 0), (10, 5, 0), (19, 1, 0), (24, 1, 0)] VsfuOp.dec .vex2
  | 13 => row w [(0, 1, 1), (2, 2, 0), (10, 5, 0), (19, 1, 0), (24, 1, 0)] VsfuOp.dec .vlg2
  | 14 => row w [(0, 1, 1), (2, 2, 0), (10, 5, 0), (19, 1, 0), (24, 1, 0)] VsfuOp.dec .vrcp
  | 15 => row w [(0, 1, 1), (2, 2, 0), (10, 5, 0), (19, 1, 0), (24, 1, 0)] VsfuOp.dec .vrsq
  | 16 => row w [(2, 2, 0), (19, 1, 0), (24, 1, 0)] VscaleOp.dec .vscale
  | 17 => row w [(3, 1, 0), (10, 5, 0), (19, 1, 0), (24, 1, 0)] V2.dec .vmov
  | 18 => row w [(3, 1, 0), (10, 5, 0), (24, 1, 0)] VbcastOp.dec .vbcast
  | 19 => row w [(0, 4, 0), (15, 10, 0)] VloopOp.dec .vloop
  | 20 => row w [(0, 4, 0), (10, 15, 0)] S0.dec .vfence
  | _ => .error .reservedCode

/-- Major 0x21. -/
def decodeCpy (w : Nat) : Except DecodeError Instr :=
  match bits w 4 6 with
  | 0 => row w [(2, 2, 0)] CpyOp.dec .cpy
  | 1 => row w [(2, 2, 0)] CpyOp.dec .cpyx
  | 2 => row w [(2, 2, 0), (10, 10, 0)] CptrOp.dec .cptr
  | _ => .error .reservedCode

/-- Major 0x22. -/
def decodeMat (w : Nat) : Except DecodeError Instr :=
  match bits w 4 6 with
  | 0 => row w [] MatOp.dec .mma
  | 1 => row w [] MatOp.dec .mmaz
  | 2 => row w [] MatOp.dec .mst
  | 3 => row w [] MatOp.dec .mld
  | 4 => row w [(10, 10, 0)] MsyncOp.dec .msync
  | _ => .error .reservedCode

/-- Major 0x23. -/
def decodeRed (w : Nat) : Except DecodeError Instr :=
  match bits w 4 6 with
  | 0 => row w [(0, 4, 0)] BaddOp.dec .baddq
  | 1 => row w [(0, 4, 0), (10, 10, 0)] D1.dec .bqnext
  | _ => .error .reservedCode

/-- Major 0x24. -/
def decodeSys (w : Nat) : Except DecodeError Instr :=
  match bits w 3 7 with
  | 0 => row w [(0, 3, 0), (10, 5, 0), (20, 5, 0)] S1.dec .trap
  | 1 => row w [(0, 3, 0), (10, 15, 0)] S0.dec .eret
  | 2 => row w [(0, 3, 0), (10, 5, 0)] R2.dec .capr
  | 3 => row w [(0, 3, 0), (10, 5, 0)] R2.dec .cntr
  | 4 => row w [(0, 3, 0), (20, 5, 0)] S2.dec .tlbi
  | 5 => row w [(0, 3, 0), (10, 5, 0), (20, 5, 0)] S1.dec .tflush
  | 6 => row w [(20, 5, 0)] K2Op.dec .incinit
  | 7 => row w [(0, 3, 0), (10, 15, 0)] S0.dec .idle
  | 8 => row w [(0, 3, 0), (10, 5, 0), (20, 5, 0)] S1.dec .brk
  | 9 => row w [(0, 3, 0), (10, 5, 0), (20, 5, 0)] S1.dec .spill
  | _ => .error .reservedCode

/-- The major map (R261). -/
def decodeMajor (w : Nat) : Except DecodeError Instr :=
  match bits w 25 6 with
  | 0 => decodeAlu w
  | 1 => row w [] I15.dec .addi
  | 2 => row w [] I15.dec .andi
  | 3 => row w [] I15.dec .ori
  | 4 => row w [] I15.dec .xori
  | 5 => row w [(8, 7, 0)] ShiOp.dec .shi
  | 6 => row w [] I15.dec .slti
  | 7 => row w [] I15.dec .sltiu
  | 8 => row w [] I15.dec .muli
  | 9 => row w [] U20.dec .lui
  | 10 => row w [] LhiOp.dec .lhi
  | 11 => row w [] U20.dec .lpc
  | 12 => row w [(14, 1, 0)] LeapOp.dec .leap
  | 13 => decodeFpu w
  | 14 => decodeBr w
  | 15 => row w [(20, 5, 0)] JOp.dec .j
  | 16 => row w [] JalOp.dec .jal
  | 17 => decodeCtl w
  | 18 => decodeLd w
  | 19 => decodeLdz w
  | 20 => decodeSt w
  | 21 => row w [(13, 2, 3)] LdOp.dec .ldk
  | 22 => decodeMemo w
  | 23 => decodeAtomd w
  | 24 => decodeAtomw w
  | 25 => decodeCache w
  | 26 => decodeTask w
  | 27 => row w [(20, 5, 0)] JOp.dec .spawn
  | 28 => row w [(20, 5, 0)] JOp.dec .tcall
  | 29 => row w [(14, 1, 0), (20, 5, 0)] SendiOp.dec .sendi
  | 30 => row w [(14, 1, 0)] ForkiOp.dec .forki
  | 31 => decodeEng w
  | 32 => decodeVec w
  | 33 => decodeCpy w
  | 34 => decodeMat w
  | 35 => decodeRed w
  | 36 => decodeSys w
  | 37 => row w [(9, 6, 0), (20, 5, 0)] EsetOp.dec .eset
  | 38 => row w [(9, 11, 0)] EgetOp.dec .eget
  | 39 => row w [(15, 5, 0)] MfsOp.dec .mfs
  | 40 => row w [(20, 5, 0)] MtsOp.dec .mts
  | _ => .error .reservedMajor

/-- The instruction of a word (R273): a defined instruction, or a refusal by name, which is ILLEG. -/
def decode (w : BitVec 32) : Except DecodeError Instr :=
  match decodeMajor w.toNat with
  | .ok i => if i.wf then .ok i else .error .valueRefused
  | .error e => .error e

/-- A word from its four bytes, the byte at the lowest address first (R6, R255). -/
def wordOfBytes (b0 b1 b2 b3 : Byte) : BitVec 32 := b3 ++ b2 ++ b1 ++ b0

/-- Decoding from bytes: total, refusing by name. -/
def decodeBytes : List Byte → Except DecodeError Instr
  | [b0, b1, b2, b3] => decode (wordOfBytes b0 b1 b2 b3)
  | _ => .error .truncated

/-- The four bytes of a word in memory order (R255). -/
def bytesOfWord (w : BitVec 32) : List Byte :=
  [w.extractLsb' 0 8, w.extractLsb' 8 8, w.extractLsb' 16 8, w.extractLsb' 24 8]

/-- The instruction the decoder reads from a table row's bits; bits at and above `nbits` are 0. -/
def decodeTableWord (nbits w : Nat) : Option Instr :=
  match decodeBytes (bytesOfWord (BitVec.ofNat 32 (w % 2 ^ nbits))) with
  | .ok i => some i
  | .error _ => none

/-- The word of an instruction, as a number; none for a row that has no bits. -/
def encodeNat : Instr → Option Nat
  | .add o => some (o.enc 0x00000000)
  | .sub o => some (o.enc 0x00000008)
  | .and o => some (o.enc 0x00000010)
  | .or o => some (o.enc 0x00000018)
  | .xor o => some (o.enc 0x00000020)
  | .andn o => some (o.enc 0x00000028)
  | .orn o => some (o.enc 0x00000030)
  | .xnor o => some (o.enc 0x00000038)
  | .sll o => some (o.enc 0x00000040)
  | .srl o => some (o.enc 0x00000048)
  | .sra o => some (o.enc 0x00000050)
  | .rol o => some (o.enc 0x00000058)
  | .ror o => some (o.enc 0x00000060)
  | .min o => some (o.enc 0x00000068)
  | .max o => some (o.enc 0x00000070)
  | .minu o => some (o.enc 0x00000078)
  | .maxu o => some (o.enc 0x00000080)
  | .slt o => some (o.enc 0x00000088)
  | .sltu o => some (o.enc 0x00000090)
  | .seq o => some (o.enc 0x00000098)
  | .sne o => some (o.enc 0x000000A0)
  | .mul o => some (o.enc 0x000000A8)
  | .mulh o => some (o.enc 0x000000B0)
  | .mulhu o => some (o.enc 0x000000B8)
  | .div o => some (o.enc 0x000000C0)
  | .divu o => some (o.enc 0x000000C8)
  | .rem o => some (o.enc 0x000000D0)
  | .remu o => some (o.enc 0x000000D8)
  | .clz o => some (o.enc 0x000000E0)
  | .ctz o => some (o.enc 0x000000E8)
  | .popc o => some (o.enc 0x000000F0)
  | .brev o => some (o.enc 0x000000F8)
  | .bswap o => some (o.enc 0x00000100)
  | .sext o => some (o.enc 0x00000108)
  | .zext o => some (o.enc 0x00000110)
  | .selz o => some (o.enc 0x00000118)
  | .lea o => some (o.enc 0x00000120)
  | .addi o => some (o.enc 0x02000000)
  | .andi o => some (o.enc 0x04000000)
  | .ori o => some (o.enc 0x06000000)
  | .xori o => some (o.enc 0x08000000)
  | .shi o => some (o.enc 0x0A000000)
  | .slti o => some (o.enc 0x0C000000)
  | .sltiu o => some (o.enc 0x0E000000)
  | .muli o => some (o.enc 0x10000000)
  | .lui o => some (o.enc 0x12000000)
  | .lhi o => some (o.enc 0x14000000)
  | .lpc o => some (o.enc 0x16000000)
  | .leap o => some (o.enc 0x18000000)
  | .fadd o => some (o.enc 0x1A000000)
  | .fsub o => some (o.enc 0x1A000020)
  | .fmul o => some (o.enc 0x1A000040)
  | .fdiv o => some (o.enc 0x1A000060)
  | .fsqrt o => some (o.enc 0x1A000080)
  | .fma o => some (o.enc 0x1A0000A0)
  | .fms o => some (o.enc 0x1A0000C0)
  | .fmin o => some (o.enc 0x1A0000E7)
  | .fmax o => some (o.enc 0x1A000107)
  | .fabs o => some (o.enc 0x1A000127)
  | .fneg o => some (o.enc 0x1A000147)
  | .fcpys o => some (o.enc 0x1A000167)
  | .feq o => some (o.enc 0x1A000187)
  | .flt o => some (o.enc 0x1A0001A7)
  | .fle o => some (o.enc 0x1A0001C7)
  | .fclass o => some (o.enc 0x1A0001E7)
  | .fcvt o => some (o.enc 0x1A000200)
  | .fcvti o => some (o.enc 0x1A000220)
  | .icvtf o => some (o.enc 0x1A000240)
  | .fkey o => some (o.enc 0x1A000267)
  | .fex2 o => some (o.enc 0x1A00028F)
  | .flg2 o => some (o.enc 0x1A0002AF)
  | .frcp o => some (o.enc 0x1A0002CF)
  | .frsq o => some (o.enc 0x1A0002EF)
  | .fsin o => some (o.enc 0x1A00030F)
  | .fcos o => some (o.enc 0x1A00032F)
  | .ftanh o => some (o.enc 0x1A00034F)
  | .beq o => some (o.enc 0x1C000000)
  | .bne o => some (o.enc 0x1C200000)
  | .blt o => some (o.enc 0x1C400000)
  | .bge o => some (o.enc 0x1C600000)
  | .bltu o => some (o.enc 0x1C800000)
  | .bgeu o => some (o.enc 0x1CA00000)
  | .bbs o => some (o.enc 0x1CC00000)
  | .bbc o => some (o.enc 0x1CE00000)
  | .j o => some (o.enc 0x1E000000)
  | .jal o => some (o.enc 0x20000000)
  | .nop o => some (o.enc 0x22000000)
  | .jr o => some (o.enc 0x22000008)
  | .jalr o => some (o.enc 0x22000010)
  | .halt o => some (o.enc 0x22000018)
  | .yield o => some (o.enc 0x22000020)
  | .ldb o => some (o.enc 0x24000000)
  | .ldh o => some (o.enc 0x24002000)
  | .ldw o => some (o.enc 0x24004000)
  | .ldd o => some (o.enc 0x24006000)
  | .ldbz o => some (o.enc 0x26000000)
  | .ldhz o => some (o.enc 0x26002000)
  | .ldwz o => some (o.enc 0x26004000)
  | .stb o => some (o.enc 0x28000000)
  | .sth o => some (o.enc 0x28002000)
  | .stw o => some (o.enc 0x28004000)
  | .std o => some (o.enc 0x28006000)
  | .ldk o => some (o.enc 0x2A006000)
  | .lda o => some (o.enc 0x2C000000)
  | .stl o => some (o.enc 0x2C000001)
  | .ldsc o => some (o.enc 0x2C000302)
  | .stsc o => some (o.enc 0x2C000303)
  | .ldf o => some (o.enc 0x2C000004)
  | .ldfe o => some (o.enc 0x2C000005)
  | .stf o => some (o.enc 0x2C000006)
  | .stef o => some (o.enc 0x2C000007)
  | .sete o => some (o.enc 0x2C000008)
  | .fetst o => some (o.enc 0x2C000009)
  | .lres o => some (o.enc 0x2C00000A)
  | .scon o => some (o.enc 0x2C00000B)
  | .wrs o => some (o.enc 0x2C00000C)
  | .fence o => some (o.enc 0x2C00000D)
  | .aadd o => some (o.enc 0x2E000000)
  | .aand o => some (o.enc 0x2E000001)
  | .aor o => some (o.enc 0x2E000002)
  | .axor o => some (o.enc 0x2E000003)
  | .amin o => some (o.enc 0x2E000004)
  | .amax o => some (o.enc 0x2E000005)
  | .aminu o => some (o.enc 0x2E000006)
  | .amaxu o => some (o.enc 0x2E000007)
  | .aswp o => some (o.enc 0x2E000008)
  | .acas o => some (o.enc 0x2E000009)
  | .aaddW o => some (o.enc 0x30000000)
  | .aandW o => some (o.enc 0x30000001)
  | .aorW o => some (o.enc 0x30000002)
  | .axorW o => some (o.enc 0x30000003)
  | .aminW o => some (o.enc 0x30000004)
  | .amaxW o => some (o.enc 0x30000005)
  | .aminuW o => some (o.enc 0x30000006)
  | .amaxuW o => some (o.enc 0x30000007)
  | .aswpW o => some (o.enc 0x30000008)
  | .acasW o => some (o.enc 0x30000009)
  | .aaddAgg o => some (o.enc 0x3000000A)
  | .cflush o => some (o.enc 0x32000000)
  | .cinv o => some (o.enc 0x32100000)
  | .cclean o => some (o.enc 0x32200000)
  | .pref o => some (o.enc 0x32300000)
  | .wswait o => some (o.enc 0x32400000)
  | .sync o => some (o.enc 0x34000000)
  | .sret o => some (o.enc 0x34000008)
  | .work o => some (o.enc 0x34000010)
  | .wait o => some (o.enc 0x34000018)
  | .anch o => some (o.enc 0x34000020)
  | .roam o => some (o.enc 0x34000028)
  | .send o => some (o.enc 0x34000030)
  | .fork o => some (o.enc 0x34000038)
  | .qcfg o => some (o.enc 0x34000040)
  | .barcfg o => some (o.enc 0x34000048)
  | .barw o => some (o.enc 0x34000050)
  | .bart o => some (o.enc 0x34000058)
  | .barq o => some (o.enc 0x34000060)
  | .tcallr o => some (o.enc 0x34000068)
  | .tret o => some (o.enc 0x34000070)
  | .tabort o => some (o.enc 0x34000078)
  | .tlook o => some (o.enc 0x34000080)
  | .bnd o => some (o.enc 0x34000088)
  | .bchk o => some (o.enc 0x34000090)
  | .incu o => some (o.enc 0x34000098)
  | .incr o => some (o.enc 0x340000A0)
  | .launch o => some (o.enc 0x340000A8)
  | .spawn o => some (o.enc 0x36000000)
  | .tcall o => some (o.enc 0x38000000)
  | .sendi o => some (o.enc 0x3A000000)
  | .forki o => some (o.enc 0x3C000000)
  | .ftest o => some (o.enc 0x3E000000)
  | .fcancel o => some (o.enc 0x3E000010)
  | .movh o => some (o.enc 0x3E000020)
  | .fwait o => some (o.enc 0x3E000030)
  | .vadd o => some (o.enc 0x40000000)
  | .vsub o => some (o.enc 0x40000010)
  | .vmul o => some (o.enc 0x40000020)
  | .vfma o => some (o.enc 0x40800030)
  | .vmin o => some (o.enc 0x40000040)
  | .vmax o => some (o.enc 0x40000050)
  | .vabs o => some (o.enc 0x40000060)
  | .vneg o => some (o.enc 0x40000070)
  | .vcvt o => some (o.enc 0x40000080)
  | .vcmp o => some (o.enc 0x40800090)
  | .vsel o => some (o.enc 0x408000A0)
  | .vred o => some (o.enc 0x400000B0)
  | .vex2 o => some (o.enc 0x400000C1)
  | .vlg2 o => some (o.enc 0x400000D1)
  | .vrcp o => some (o.enc 0x400000E1)
  | .vrsq o => some (o.enc 0x400000F1)
  | .vscale o => some (o.enc 0x40000100)
  | .vmov o => some (o.enc 0x40000110)
  | .vbcast o => some (o.enc 0x40000120)
  | .vloop o => some (o.enc 0x40000130)
  | .vfence o => some (o.enc 0x40000140)
  | .cpy o => some (o.enc 0x42000000)
  | .cpyx o => some (o.enc 0x42000010)
  | .cptr o => some (o.enc 0x42000020)
  | .mma o => some (o.enc 0x44000000)
  | .mmaz o => some (o.enc 0x44000010)
  | .mst o => some (o.enc 0x44000020)
  | .mld o => some (o.enc 0x44000030)
  | .msync o => some (o.enc 0x44000040)
  | .baddq o => some (o.enc 0x46000000)
  | .bqnext o => some (o.enc 0x46000010)
  | .trap o => some (o.enc 0x48000000)
  | .eret o => some (o.enc 0x48000008)
  | .capr o => some (o.enc 0x48000010)
  | .cntr o => some (o.enc 0x48000018)
  | .tlbi o => some (o.enc 0x48000020)
  | .tflush o => some (o.enc 0x48000028)
  | .incinit o => some (o.enc 0x48000030)
  | .idle o => some (o.enc 0x48000038)
  | .brk o => some (o.enc 0x48000040)
  | .spill o => some (o.enc 0x48000048)
  | .eset o => some (o.enc 0x4A000000)
  | .eget o => some (o.enc 0x4C000000)
  | .mfs o => some (o.enc 0x4E000000)
  | .mts o => some (o.enc 0x50000000)
  | .illegalWord _ => none
  | .mtsRotcfg _ => none
  | .mtsHbmrmvAck _ => none
  | .mtsCorerstGo _ => none
  | .errinjArmResidFirst _ => none
  | .errinjArmResidBoth _ => none
  | .errinjArmScratchUce _ => none
  | .errinjArmScratchCe _ => none
  | .errinjArmRegDamage _ => none
  | .errinjCancel _ => none
  | .esetRtail _ _ => none
  | .esetRingConfig _ _ => none
  | .esetStreamReg _ _ => none
  | .esetCopyReg _ _ => none
  | .vrsmRetry => none
  | .vrsmAssistOne => none
  | .vrsmAssistRest => none
  | .vrsmDiscard => none
  | .esetBqlim _ => none
  | .lwerrWrite _ _ => none
  | .launchSlotWordWrite _ _ _ _ => none
  | .launchSlotFinalWord _ _ _ => none
  | .launchWindowNarrowWrite _ => none
  | .launchSlotFree _ _ => none
  | .launchRecordSubmit _ _ => none
  | .launchPlacement => none
  | .removedThreadReturn _ _ => none
  | .engineRelease _ => none
  | .spillEngineRun _ => none
  | .threadReload _ _ _ => none
  | .scratchpadSave _ => none
  | .scratchpadRestore _ _ => none
  | .classifierWindowEnd _ => none
  | .terminationSweep => none
  | .ctxlostThreadStart => none
  | .supervisorThreadRestart _ => none
  | .fetchBlock _ _ => none
  | .longResultLand _ _ _ => none
  | .storeBufferApply _ _ => none
  | .migrationDepart _ _ => none
  | .threadArrival _ => none
  | .remoteWordRequest _ => none
  | .tlbWalkComplete _ _ _ _ => none
  | .stealRequest _ _ _ => none
  | .stealReply _ _ => none
  | .qrxMessageArrival _ => none
  | .qdnPushArrival _ => none
  | .barrierTimeout _ => none
  | .reservationLapse _ _ => none
  | .waitTimeout _ _ => none
  | .yieldExpiry _ _ => none
  | .syncRecheck _ _ => none
  | .fullEmptyApply _ _ => none
  | .waitTableRetry _ _ => none
  | .aggCombine _ => none
  | .hemWindowDelivery _ => none
  | .incumbentUpdateApply _ => none
  | .tableGroupClose _ => none
  | .seamRds _ _ => none
  | .seamRdx _ _ => none
  | .seamUpg _ _ => none
  | .seamWb _ _ => none
  | .seamEvc _ _ => none
  | .seamTransactionEnd _ => none
  | .snoopArrival _ _ _ => none
  | .directoryRecallComplete _ => none
  | .agentDead _ => none
  | .coreSnoopTimeout _ => none
  | .seamFailure _ => none
  | .failoverComplete => none
  | .hostSnpdata _ => none
  | .hostSnpinv _ => none
  | .hostUnsupportedRequest _ => none
  | .combiningBufferDrain _ => none
  | .dcdReleaseRequest _ _ _ => none
  | .dcdReleaseComplete _ => none
  | .dcdForcedRelease _ => none
  | .peerLinkFailure _ => none
  | .linkTrained _ => none
  | .linkDown _ => none
  | .layerFailure _ _ => none
  | .layerCopyComplete => none
  | .weightRefreshStart _ _ => none
  | .weightRefreshEnd _ _ => none
  | .healthCeWindowEnd => none
  | .dziethCoreReset _ _ => none
  | .coreResetRelease _ => none
  | .matrixOpBegin _ _ => none
  | .matrixOpComplete _ => none
  | .mstComplete _ => none
  | .mldComplete _ => none
  | .baddqComplete _ => none
  | .vectorBodyStart _ => none
  | .vectorChunk _ => none
  | .vectorFaultDelivery _ _ => none
  | .sfuEntryServe _ => none
  | .copyBegin _ _ => none
  | .copyElementWrite _ _ => none
  | .copyComplete _ _ => none
  | .packageReset => none
  | .mbAttest _ => none
  | .mbRecover _ => none
  | .mbGetevent _ => none
  | .expanderBackInvalidate _ _ => none
  | .dynamicCapacityAdd _ _ _ => none
  | .cxlCacheMemEnable _ _ => none
  | .supervisorEndsLaunch _ => none
  | .powerClockGating _ => none

/-- The encoder: the word of a well-formed instruction. -/
def encode (i : Instr) : Option (BitVec 32) := (encodeNat i).map (BitVec.ofNat 32)

end Sys2Proof
end

