-- ==== Sys2Proof/Machine/Task.lean ====
section
/-! DEFINITION. Fork-join, messages, queues and barriers (R351-R362), and migration (R43, R44). -/

namespace Sys2Proof.Machine

/-- ILLEG of an instruction (R274 step 2 and the entries that name it): EVAL holds its word. -/
def State.illegal (s : State) (i : Instr) : State := s.illeg ((encode i).getD 0)

/-! ## Fork-join (R355) -/

/-- SPAWN: a kill point; the continuation goes to the bottom of the deque; QUEUE with 19 when nothing can move (R61). -/
def execSpawn (o : JOp) (s : State) : Answer :=
  withThread s (s.unlessWalking (s.gather1 (.g 14) .gz fun s1 g14 =>
    s.killPoint s1 fun s1 =>
      let t := s1.thr
      let e : DqEntry := ⟨t.pc + 4, t.g[11], t.g[12], t.g[13], g14, t.tb, t.launch, some t.idx, false⟩
      match s1.pushDeque s1.core.id e with
      | none => s.trap (cause cQUEUE 19)
      | some s2 =>
        let s3 := (s2.sent t.launch s2.core.id).recvd t.launch s2.core.id
        (s3.setG (.g 13) g14).jump true (s3.relative o.off)))

/-- SRET: Finish(G(g13), 0). -/
def execSret (_ : S0) (s : State) : Answer :=
  withThread s (s.unlessWalking (s.gather1 (.g 13) .gz fun s1 p => s.orTrap (s1.finishTask p false taskFuel)))

/-- WORK: Work(). -/
def execWork (_ : S0) (s : State) : Answer :=
  withThread s (s.unlessWalking (s.gather [] .gz fun s1 _ => s.orTrap s1.workTask))

/-- SYNC once its kill point is passed: COUNT is read as a load is, by a migration where R42 asks for one; elsewhere outside the
core the read is performed as it issues (log 22), and a poisoned word raises UCE (R107; DEDUCED, log 72). The thread parks with code 3 while
COUNT is not 0. -/
def State.syncRead (s0 s : State) (g14 : Word) : State :=
  s0.withAccess s g14 (accOrdered .load) true false fun s1 l =>
    match s1.look s1.core [(l.key, 8)] with
    | .wait => s0.parkOn 20 g14 0
    | v =>
      match s1.serve l false false with
      | .migrate n => s0.migrate n
      | way =>
      let away := way != .here
      let s2 := if away then (((s1.countCore s1.core.id 0x00D s1.thr.launch).sent s1.thr.launch s1.core.id).agentTake l false s1.thr.launch).recvd s1.thr.launch (l.receiver s1.core.id)
        else s1.fillLoc s1.core.id l false s1.thr.launch
      let s3 := match v with
        | .value _ => s2
        | _ => s2.injectAll [(l.key, 8)] false
      let w := match v with
        | .value x => x
        | _ => s3.mem.read l.key 8
      let bad := match v with
        | .value _ => false
        | _ => s3.mem.poisoned [(l.key, 8)]
      if s1.ownOrdered l 8 || s1.ownPending l [(l.key, 8)] then s0.parkOn 20 g14 0
      else if away && !s1.slotFree then s0.parkOn 21 0 0
      else if s1.refreshes l then s0.parkOn 0 0 (100 + l.bank.getD 0)
      else if !s1.reachable s1.core.id l false then s0.parkLine l false
      else if bad then ({ s3 with thr := s0.thr } : State).trap (cause cUCE l.va)
      else if w % 2 ^ 32 = 0 then (s3.noteRead [(l.key, 8)]).retire true
      else s3.parkOn 3 g14 l.key

/-- SYNC. -/
def execSync (_ : S0) (s : State) : Answer :=
  withThread s (s.unlessWalking (s.gather1 (.g 14) .gz fun s1 g14 =>
    if s.thr.phase ≠ 0 then s.syncRead s1 g14
    else s.killPoint s1 fun s1 => (s.phase 1).syncRead (s1.phase 1) g14))

/-- SYNC_RECHECK (R355): every 4,096 cc a thread parked in SYNC reads its word again. -/
def execSyncRecheck (core frame : Nat) (s : State) : Answer :=
  whenEnabled ((s.threadAt core frame).any fun t => t.park.any fun p => p.code == 3 && decide (p.since + 4096 ≤ s.cc))
    (s.modThread core frame Thread.unpark)

/-! ## Queues and messages (R357-R361) -/

/-- WAIT: pops nothing. It parks at the next instruction with code 9 until qrx is not empty or its limit has passed. -/
def execWait (o : S1) (s : State) : Answer :=
  withThread s (
    if s.core.qOwner ≠ some s.thr.frame then s.trap (cause cQUEUE 18)
    else s.gather1 o.a .gz fun s1 a =>
      if !s1.core.qrx.isEmpty then s1.retire true
      else (s1.retire false).parkFor 9 a 0 (if a = 0 then none else some (s1.cc + a.toNat)))

/-- A wait that ends leaves the thread at the end of its run (R54). -/
def Thread.endWait (t : Thread) (cc : Nat) : Thread :=
  { t with park := if t.pend.isEmpty then none else some ⟨1, 0, 0, cc, none⟩ }

/-- WAIT_TIMEOUT (R360). -/
def execWaitTimeout (core frame : Nat) (s : State) : Answer :=
  whenEnabled ((s.threadAt core frame).any fun t => t.park.any fun p => p.code == 9 && p.until?.any fun u => decide (u ≤ s.cc))
    (s.modThread core frame fun t => t.endWait s.cc)

/-- ANCH (R40, R357). -/
def execAnch (o : S0) (s : State) : Answer :=
  withThread s (s.gather [] .gz fun s1 _ =>
    if s1.thr.anchored then s1.retire o.sw
    else if s1.core.eng.owner.isNone then
      let s2 := s1.anchor s1.core.id s1.thr.frame
      s2.retire o.sw
    else s1.parkFor 11 0 0 none)

/-- ROAM (R357): ILLEG while a vector body is being collected (R390); it waits for the thread's engine operations. -/
def execRoam (o : S0) (s : State) : Answer :=
  withThread s (s.gather [] .gz fun s1 _ =>
    if !s1.thr.anchored then s1.retire o.sw
    else if s1.core.eng.coll.any fun b => b.frame == s1.thr.frame then s.illegal (.roam o)
    else if s1.core.eng.busyFor s1.thr.frame then s1.parkOn 19 0 0
    else ((s1.modThr fun t => { t with st := setBit t.st 17 false }).retire o.sw).releaseEngines s1.core.id)

/-- Is a core one that a message or a queue of the issuing thread may name (R359, R381)? -/
def State.reaches (s : State) (core : Nat) : Bool :=
  s.thr.isSup || match s.launchOf s.thr.launch with
    | some l => l.info.holds s.pkg core
    | none => false

/-- The trap PLACE with the offset presented (R203). -/
def placeTrap (v : Word) : TrapInfo := cause cPLACE (v &&& 0x3FFF)

/-- The core a place names for SEND, FORK and QCFG: R260, R23, then the launch's rectangle. -/
def State.placeOf (s : State) (v : Word) : Option Nat :=
  (placeWord v).bind fun off => (s.resolvePlace off).bind fun c => if s.reaches c then some c else none

/-- Room of the qrx of a core, words in flight counted (R65). -/
def State.qrxRoom (s : State) (core : Nat) : Bool :=
  (s.coreOf core).qrx.length + (s.net.sends.filter fun m => m.target == core).length < 64

/-- SEND to a core (R65, R359). -/
def State.sendTo (s0 s : State) (sw : Bool) (v place : Word) : State :=
  match s.placeOf place with
  | none => s0.trap (placeTrap place)
  | some c =>
    if (s.coreOf c).reset.isSome || !s.qrxRoom c then s0.parkOn 8 18 c
    else
      let m : Msg := ⟨s.core.id, s.thr.frame, s.thr.launch, s.thr.idx, c, v, s.core.sbNum, s.thr.seq⟩
      let s1 := s.sent s.thr.launch s.core.id
      { s1 with net := { s1.net with sends := s1.net.sends ++ [m] } }.retire sw

def execSend (o : S2) (s : State) : Answer :=
  withThread s (s.gather2 o.a o.b .gz fun s1 v p => s.sendTo s1 o.sw v p)

def execSendi (o : SendiOp) (s : State) : Answer :=
  withThread s (s.gather1 o.a .gz fun s1 v => s.sendTo s1 o.sw v (o.p.setWidth 64))

/-- May a message arrive: its release at the smallest scope that holds both cores (R133, R144; that scope: DEDUCED, log 59), and
the sender's earlier messages to the same core (R65)? -/
def State.msgReady (s : State) (earlier : List Msg) (m : Msg) : Bool :=
  (s.coreOf m.target).reset.isNone && s.ordered m.core m.frame m.num m.tok (scopeOf m.core m.target) &&
    earlier.all fun x => !(x.launch == m.launch && x.idx == m.idx && x.target == m.target)

/-- A word has entered a queue: its owner returns where it waits for that queue, and else has its bit set (R58). -/
def Thread.wakeQueue (t : Thread) (q : Nat) : Thread :=
  if t.park.any fun p => p.code == 7 && p.arg == BitVec.ofNat 64 q then t.unpark else { t with wake := true }

/-- QRX_MESSAGE_ARRIVAL (R65): a word enters a qrx; it returns the owner from WAIT (R58, R360). -/
def execQrxMessageArrival (k : Nat) (s : State) : Answer :=
  match s.net.sends[k]? with
  | none => .fault .notEnabled
  | some m =>
    if !s.msgReady (s.net.sends.take k) m then .fault .notEnabled
    else
      let s1 := { s with net := { s.net with sends := s.net.sends.eraseIdx k } }.recvd m.launch m.target
      let s2 := s1.modCore m.target fun c => { c with qrx := c.qrx ++ [m.word] }
      match (s2.coreOf m.target).qOwner with
      | none => .next s2
      | some f => .next (s2.modThread m.target f fun t =>
          if t.park.any fun p => p.code == 9 then t.endWait s.cc else t.wakeQueue 18)

/-- QDN_PUSH_ARRIVAL (R64): a word enters a qup. -/
def execQdnPushArrival (k : Nat) (s : State) : Answer :=
  match s.net.pushes[k]? with
  | none => .fault .notEnabled
  | some m =>
    if !s.msgReady (s.net.pushes.take k) m then .fault .notEnabled
    else
      let s1 := { s with net := { s.net with pushes := s.net.pushes.eraseIdx k } }.recvd m.launch m.target
      let s2 := s1.modCore m.target fun c => { c with qup := c.qup ++ [m.word] }
      match (s2.coreOf m.target).qOwner with
      | none => .next s2
      | some f => .next (s2.modThread m.target f fun t => t.wakeQueue 16)

/-- QCFG (R361). -/
def execQcfg (o : S2) (s : State) : Answer :=
  withThread s (s.gather2 o.a o.b .gz fun s1 a b =>
    let me := s1.thr.frame
    if !a.getLsbD 0 then
      if s1.core.qOwner = some me then { s1 with core := { s1.core with qOwner := none, qdn := none } }.retire o.sw
      else s1.retire o.sw
    else if s1.core.qOwner.any fun f => f != me then s.trap (cause cQUEUE 20)
    else if a.getLsbD 1 then
      match s1.placeOf b with
      | none => s.trap (placeTrap b)
      | some c => { s1 with core := { s1.core with qOwner := some me, qdn := some c } }.retire o.sw
    else { s1 with core := { s1.core with qOwner := some me, qdn := none } }.retire o.sw)

/-! ## New threads -/

/-- A thread of a launch as it starts (R71). -/
def launchedThread (l : Launch) (core frame pos idx : Nat) (pc : Word) : Thread :=
  { Thread.absent with
    live := true, core := core, frame := frame, pos := some pos, launch := l.id, idx := idx, entry := l.info.entry
    g := ((Vector.replicate 16 0).set 1 l.info.args).set 2 (BitVec.ofNat 64 pos)
    pc := pc
    st := if l.info.incb then setField 0 13 3 l.info.incx else 0
    tr := { TrapRegs.reset with evec := l.info.tvec } }

/-- Place of a core among the enabled cores of a rectangle (R207). -/
def State.rectIndex (s : State) (l : Launch) (core : Nat) : Nat := (s.rectCores l.info).findIdx fun c => c == core

/-- A launched thread starts at a position of its core: at position 0 of a launch with ANC it is anchored, or, where another thread holds the
engines, it is a parked ANCH (R71); it is held as a removed thread where the core offers fewer positions (R72). -/
def State.startThread (s : State) (l : Launch) (p : Nat) (t : Thread) : State :=
  let t := if p < (s.coreOf t.core).positions then t else { t with pos := none }
  if l.info.anc && p = 0 then
    if (s.coreOf t.core).eng.owner.isNone then (s.addThread t).anchor t.core t.frame
    else s.addThread { t with park := some ⟨11, 0, 0, s.cc, none⟩ }
  else s.addThread t

/-- FORK (R358): a release toward the new thread's first instruction. A core in reset has no place for it, and one released from a reset takes
it as any other, since R210 keeps the launcher's threads alone from there (DESIGN CHOICE: R210 names no FORK; log 45). -/
def State.forkTo (s0 s : State) (sw : Bool) (d : Dst) (pc place : Word) : State :=
  match (placeWord place).bind s.resolvePlace with
  | none => s0.trap (placeTrap place)
  | some c =>
    if s.thr.isSup then s0.trap (cause cPROT (place &&& 0x3FFF))
    else match s.launchOf s.thr.launch with
      | none => s0.trap (placeTrap place)
      | some l =>
        if !l.info.holds s.pkg c then s0.trap (placeTrap place)
        else if !userPc pc.toNat then s0.trap (cause cALIGN pc)
        else if s.thr.damage.contains 21 then s0.regerr 21
        else s0.release s 6 fun s =>
          let s1 := (s.sent l.id s.core.id).recvd l.id c
          let q := if (s1.coreOf c).reset.isSome then none else (s1.freePos c).find? fun p => p ≤ l.info.tpc
          match q, (s1.freeFrames c).head? with
          | some p, some f =>
            let t := launchedThread l c f p (s1.rectIndex l c * (l.info.tpc + 1) + p) pc
            let t := { t with tb := s1.thr.tb, st := setField t.st 13 3 (fieldOf s1.thr.st 13 3) }
            (s1.startThread l p t).finishLong sw d (Pending.ofVal 1 0)
          | _, _ => s1.finishLong sw d (Pending.ofVal 0 0)

def execFork (o : R3) (s : State) : Answer :=
  withThread s (s.long2 o.a o.b o.d fun s1 pc p => s.forkTo s1 o.sw o.d pc p)

def execForki (o : ForkiOp) (s : State) : Answer :=
  withThread s (s.long1 o.a o.d fun s1 pc => s.forkTo s1 o.sw o.d pc (o.p.setWidth 64))

/-! ## Barriers (R66-R70, R362) -/

/-- A barrier as it is before any BARCFG. -/
def Barrier.fresh (scope group idx : Nat) : Barrier := ⟨scope, group, idx, none, 0, 0, 0, 0, 0⟩

def Barrier.is (b : Barrier) (scope group idx : Nat) : Bool := b.scope == scope && b.group == group && b.idx == idx

/-- The number that names a barrier in a park. -/
def barKey (scope group idx : Nat) : Nat := (scope * 4096 + group) * 16 + idx

def State.barrier (s : State) (scope group idx : Nat) : Barrier :=
  (s.bars.find? fun b => b.is scope group idx).getD (Barrier.fresh scope group idx)

def State.setBarrier (s : State) (b : Barrier) : State :=
  { s with bars := if s.bars.any fun x => x.is b.scope b.group b.idx then
      s.bars.map fun x => if x.is b.scope b.group b.idx then b else x else s.bars ++ [b] }

/-- Threads parked on a barrier's generation. -/
def State.parkedOn (s : State) (b : Barrier) : List Thread :=
  s.all.filter fun t => t.park.any fun p => p.code == 6 && p.key == barKey b.scope b.group b.idx

/-- The trap of a barrier wait that expires (R203). -/
def Barrier.expired (b : Barrier) : TrapInfo :=
  cause cBARTO (BitVec.ofNat 64 (b.idx + b.scope * 16 + b.gen.toNat * 2 ^ 32))

/-- A generation ended as a timeout ends it (R67, R69). -/
def State.expireBarrier (s : State) (b : Barrier) : State :=
  let s1 := (s.parkedOn b).foldl (fun s t => s.asThread t.core t.frame fun s => s.trap b.expired) s
  s1.setBarrier { b with gen := b.gen + 1, arrived := 0, first := 0 }

/-- Has the timeout of a generation expired: has it gone by since the first arrival (R69)? -/
def Barrier.overdue (b : Barrier) (cc : Nat) : Bool := b.arrived != 0 && b.timeout != 0 && decide (b.first + b.timeout ≤ cc)

/-- A barrier as an arrival or a read finds it: a generation whose timeout has expired has ended (R69). -/
def State.lapse (s : State) (b : Barrier) : State × Barrier :=
  if b.overdue s.cc then
    let t := s.expireBarrier b
    (t, t.barrier b.scope b.group b.idx)
  else (s, b)

/-- An arrival counted (R68); the count-th releases the generation. -/
def State.arriveAt (s : State) (b : Barrier) : State :=
  if b.arrived + 1 ≥ b.count then
    let mine (t : Thread) : Bool := t.park.any fun p => p.code == 6 && p.key == barKey b.scope b.group b.idx
    let go (t : Thread) : Thread :=
      { t with pc := t.pc + 4, phase := 0, skipWatch := none, walked := none, popped := [] }.endWait s.cc
    (s.modThreads mine go).setBarrier { b with gen := b.gen + 1, arrived := 0, first := 0 }
  else s.setBarrier { b with arrived := b.arrived + 1, first := if b.arrived = 0 then s.cc else b.first }

/-- The barrier a selector names for the issuing thread, none for a scope outside 1-6 (R66). -/
def State.selBarrier (s : State) (a : Word) : Option Barrier :=
  let sc := fieldOf a 4 4
  if 1 ≤ sc && sc ≤ 6 then some (s.barrier sc (groupOf sc s.core.id) (fieldOf a 0 4)) else none

/-- BARCFG (R67, R362). -/
def execBarcfg (o : S2) (s : State) : Answer :=
  withThread s (s.gather2 o.a o.b .gz fun s1 a v =>
    match s1.selBarrier a with
    | none => s.illegal (.barcfg o)
    | some b =>
      let me := s1.thr.launch
      let other := b.holder.any fun h => h != me && (s1.launchOf h).any Launch.runs
      if fieldOf v 0 16 = 0 then s.trap (cause cPROT a)
      else if other then s.parkOn 15 a (barKey b.scope b.group b.idx)
      else
        let s2 := if b.holder = some me && !(s1.parkedOn b).isEmpty then s1.expireBarrier b else s1
        let b2 := s2.barrier b.scope b.group b.idx
        (s2.setBarrier { b2 with
          holder := some me, count := fieldOf v 0 16, timeout := fieldOf v 16 32, arrived := 0, first := 0 }).retire o.sw)

/-- BARW (R68, R70): a release, then an arrival; the thread parks at the instruction with code 6. -/
def execBarw (o : S1) (s : State) : Answer :=
  withThread s (s.gather1 o.a .gz fun s1 a =>
    match s1.selBarrier a with
    | none => s.illegal (.barw o)
    | some b =>
      if b.holder ≠ some s1.thr.launch then s.trap (cause cPROT a)
      else s.release s1 b.scope fun s2 =>
        let (s2, b) := s2.lapse b
        if b.arrived + 1 ≥ b.count then (s2.arriveAt b).retire true
        else ((s2.arriveAt b).phase 0).parkFor 6 a (barKey b.scope b.group b.idx) none)

/-- BART (R68, R70). -/
def execBart (o : S1) (s : State) : Answer :=
  withThread s (s.gather1 o.a .gz fun s1 a =>
    match s1.selBarrier a with
    | none => s.illegal (.bart o)
    | some b =>
      if b.holder ≠ some s1.thr.launch then s.trap (cause cPROT a)
      else s.release s1 b.scope fun s2 => let (s2, b) := s2.lapse b; (s2.arriveAt b).retire o.sw)

/-- BARQ (R362). -/
def execBarq (o : R2) (s : State) : Answer :=
  withThread s (s.long1 o.a o.d fun s1 a =>
    match s1.selBarrier a with
    | none => s.illegal (.barq o)
    | some b =>
      if b.holder ≠ some s1.thr.launch then s.trap (cause cPROT a)
      else
        let (s2, b) := s1.lapse b
        s2.finishLong o.sw o.d (Pending.ofVal (b.gen.setWidth 64) 0))

/-- BARRIER_TIMEOUT (R69). -/
def execBarrierTimeout (k : Nat) (s : State) : Answer :=
  match s.bars[k]? with
  | none => .fault .notEnabled
  | some b =>
    whenEnabled (b.overdue s.cc) (s.expireBarrier b)

/-! ## Migration (R43) -/

/-- Has a migrating thread no store of its own left on its core (R43), nor one of a sibling that it may have seen there, from the
buffer, before its migration began (R126, R132)? -/
def State.drained (s : State) (t : Thread) : Bool :=
  ((s.coreOf t.core).sb.all fun e => e.frame != t.frame && !(e.forwards && decide (e.num + 1 < t.phase))) &&
    (s.sentStef t.core).all fun e => e.frame != t.frame

/-- The tags of a thread's entries cleared in the deque and area of a core (R354). -/
def State.clearTags (s : State) (t : Thread) : State :=
  let f (e : DqEntry) : DqEntry := if e.launch = t.launch && e.tag = some t.idx then { e with tag := none } else e
  let s1 := s.modCore t.core fun c => { c with deque := c.deque.map f }
  match s1.launchOf t.launch with
  | none => s1
  | some l => if l.ovf t.core = 0 then s1 else (s1.ovfMark l t.core).ovfPut l t.core ((s1.ovfList l t.core).map f)

/-- MIGRATION_DEPART (R43): its results landed and its stores drained, the thread's context leaves. Where the target no
longer accepts, the access issues again and chooses anew. -/
def execMigrationDepart (core frame : Nat) (s : State) : Answer :=
  match s.threadAt core frame with
  | none => .fault .notEnabled
  | some t =>
    match t.migr with
    | none => .fault .notEnabled
    | some target =>
      if !t.pend.isEmpty || !s.drained t then .fault .notEnabled
      else if !s.accepts target then .next (s.modThread core frame fun t => { t with migr := none, park := none, phase := 0 })
      else
        let s1 := ((s.clearTags t).countCore core 0x00B t.launch).sent t.launch core
        let s2 := ((s1.dropThread core frame).orphan core frame).modCore core fun c => { c with eng := c.eng.forget frame }
        let u := { t with
          resv := none, fbuf := none, fsince := none, yield := none, pos := none, phase := 0, seen := 0, walked := none, slot := none }
        .next { s2 with net := { s2.net with moves := s2.net.moves ++ [u] } }

/-- THREAD_ARRIVAL (R43, R44): a thread enters the lowest free position of its target, or of another core of the quad that
accepts where the target does not; its access is its first instruction there. -/
def execThreadArrival (k : Nat) (s : State) : Answer :=
  match s.net.moves[k]? with
  | none => .fault .notEnabled
  | some t =>
    let s1 := { s with net := { s.net with moves := s.net.moves.eraseIdx k } }
    let want := t.migr.getD 0
    let dest := if s1.accepts want then some want else s1.target (quadOf want)
    match dest with
    | none => .fault .notEnabled
    | some c =>
      match (s1.freePos c).head?, (s1.freeFrames c).head? with
      | some p, some f =>
        let s2 := (s1.recvd t.launch c).countCore c 0x00C t.launch
        .next (s2.addThread { t with core := c, frame := f, pos := some p, migr := none, park := none })
      | _, _ => .fault .notEnabled

end Sys2Proof.Machine
end

