-- ==== Sys2Proof/Machine/Table.lean ====
section
/-! DEFINITION. The answer table (R343, R365-R375): TCALL, TCALLR, TRET, TABORT, TLOOK, TFLUSH and the close of a completion
group. A request and its reply are one step of the issuing instruction (log 23). -/

namespace Sys2Proof.Machine

/-! ## Descriptors and keys (R365, R366) -/

/-- A table descriptor. -/
structure TDesc where
  argc : Nat
  join : Join
  table : Nat
deriving DecidableEq, Repr

def joinOf : Nat → Option Join
  | 0 => some .first
  | 1 => some .min
  | 2 => some .max
  | 3 => some .minu
  | 4 => some .maxu
  | 5 => some .or
  | _ => none

/-- The checks of R365 for a callee, in order; `i` is the instruction whose word ILLEG reports. -/
def State.descOf (s : State) (i : Instr) (c : Word) : Except TrapInfo TDesc :=
  let illeg : Except TrapInfo TDesc := .error (cause cILLEG (((encode i).getD 0).setWidth 64))
  let a := c - 16
  let va := a.toNat
  if c.toNat % 16 ≠ 0 then illeg
  else if !canonical va || (!s.thr.sup && 2 ^ 56 ≤ va) || inWindow va then .error (cause cPROT a)
  else match s.translate s.thr va .fetch with
    | .error e => .error (cause e a)
    | .ok (_, pa, _) =>
      let w0 := s.mem.read pa 8
      let w1 := s.mem.read (pa + 8) 8
      match joinOf (bits w0 3 3) with
      | none => illeg
      | some j =>
        if 6 < bits w0 0 3 || bits w0 10 22 ≠ 0 || bits w0 32 32 ≠ 0x5D1A || w1 ≠ 0 then illeg
        else if s.thr.sup || !(s.launcher.tables.contains (bits w0 6 4, s.thr.launch)) then .error (cause cPROT c)
        else .ok ⟨bits w0 0 3, j, bits w0 6 4⟩

/-- The access to the descriptor of a callee: a TLB miss parks the thread first (R57), and `k` goes on with what the translation
leaves. -/
def State.withDesc (s0 s : State) (i : Instr) (c : Word) (k : State → TDesc → State) : State :=
  if c.toNat % 16 = 0 && s.mustWalk s.thr (c - 16) 8 then s0.parkWalk (c - 16)
  else match s.descOf i c with
    | .error ti => s0.trap ti
    | .ok d =>
      match s.translate s.thr (c - 16).toNat .fetch with
      | .ok (x, _, _) => k (s.touch s.core.id (s.tableOf s.thr) x false s.thr.launch) d
      | .error _ => k s d

/-- The key of a call (R366). -/
def State.keyOf (s : State) (d : TDesc) (c : Word) : TKey :=
  ⟨d.table, c, (List.range d.argc).map fun i => s.thr.g.toList.getD (i + 1) 0⟩

/-- The hash of R366. -/
def TKey.hash (k : TKey) : Nat :=
  let x := k.args.foldl (fun (x : Word) a => (x.rotateLeft 17 ^^^ a) * 0x9E3779B97F4A7C15)
    (k.callee ^^^ BitVec.ofNat 64 (k.table * 2 ^ 60))
  (x ^^^ (x >>> 32)).toNat

/-- Slice and set of a key. -/
def TKey.place (p : Package) (k : TKey) : Nat × Nat := (k.hash % p.slices, bits k.hash 7 10)

/-- The next stamp, taken. -/
def State.stamp (s : State) : State := s.modTable fun t => { t with stamp := t.stamp + 1 }

/-- LRU of an entry touched. -/
def State.touchEntry (s : State) (k : TKey) : State :=
  let s1 := s.stamp
  s1.modEntry k fun e => { e with lru := s1.table.stamp }

/-- A new entry in its set (R374): a free way, else the least recently used COMPLETE way, else none. -/
def State.allocEntry (s : State) (k : TKey) (j : Join) (launch : Nat) : Option State :=
  let ways := s.table.entries.filter fun e => e.key.place s.pkg == k.place s.pkg
  let n := s.table.stamp + 1
  let e : TEntry := ⟨k, j, .producing, 0, n, none, false, [], none, 0, false, 0, n⟩
  let add (s : State) : State := s.modTable fun t => { t with entries := t.entries ++ [e], stamp := n }
  if ways.length < 8 then some (add s)
  else
    let old := (ways.filter fun e => e.state == .complete).foldl (fun b e => match b with
      | none => some e
      | some x => if e.lru < x.lru then some e else some x) (none : Option TEntry)
    old.map fun o => (add (s.modTable fun t => { t with entries := t.entries.filter fun x => x.key != o.key })).countCluster
      ((k.place s.pkg).1) 0x107 launch

/-! ## Completion groups (R372) -/

/-- Identity of a join. -/
def Join.identity : Join → Word
  | .min => maxKey
  | .max => 0x8000000000000000
  | .minu => BitVec.allOnes 64
  | _ => 0

/-- Join of two answers. -/
def Join.apply (j : Join) (a b : Word) : Word :=
  match j with
  | .first => b
  | .min => if b.slt a then b else a
  | .max => if a.slt b then b else a
  | .minu => if b.ult a then b else a
  | .maxu => if a.ult b then b else a
  | .or => a ||| b

/-- The member of a group with the oldest stamp. -/
def State.leaderOf (s : State) (g : Nat) : Option TEntry :=
  (s.membersOf g).foldl (fun b e => match b with
    | none => some e
    | some x => if e.stamp < x.stamp then some e else some x) none

/-- Threads parked with code 5 as leaders that are no longer the oldest member return as members do (log 23). -/
def State.settle (s : State) (g : Nat) : State :=
  let lead := ((s.leaderOf g).map fun e => e.stamp).getD 0
  (s.membersOf g).foldl (fun s e =>
    if e.stamp = lead then s
    else
      let mine (t : Thread) : Bool := t.park.any fun p => p.code == 5 && p.key == e.stamp
      (s.replies ((s.all.filter mine).map fun t => t.tid)).modThreads mine fun t => t.answered e.prov) s

/-- Group `h` merged into `g`: the larger pass, dirty; its members take the JOIN of `g` (R372). -/
def State.mergeGroup (s : State) (g h : Nat) : State :=
  if g = h then s
  else match s.groupAt h, s.groupAt g with
    | some x, some z =>
      let move (e : TEntry) : TEntry := if e.group = some h then { e with group := some g, join := z.join } else e
      let s1 := s.modTable fun t => { t with entries := t.entries.map move }
      (s1.modGroup g fun y => { y with
        pass := max y.pass x.pass, dirty := true, tainted := y.tainted ++ x.tainted }).dropGroup h
    | _, _ => s

/-- An entry made a member of a group. -/
def State.addMember (s : State) (g : Nat) (k : TKey) : State :=
  match s.entryOf k, s.groupAt g with
  | some e, some x =>
    match e.group with
    | some h => s.mergeGroup g h
    | none => s.modEntry k fun e => { e with
        state := .grouped, group := some g, join := x.join, prov := x.join.identity, pass := x.pass, consumed := false }
  | _, _ => s

/-- JoinGroup: the thread's entries join, and it is tainted. -/
def State.joinGroup (s : State) (g : Nat) (i : Tid) : State :=
  let s1 := (s.produced i (s.stackOf i)).foldl (fun s k => s.addMember g k) s
  let s2 := s1.modGroup g fun x => { x with tainted := if x.tainted.contains i then x.tainted else x.tainted ++ [i] }
  (s2.modThreads (fun t => t.tid == i) fun t => { t with st := setBit t.st 18 true }).settle g

/-- Cycle(E) (R369): the chain from an entry through its producers to the issuer, or 16 steps of it; none is no cycle. -/
def State.chainOf (s : State) (me : Tid) (e : TEntry) : Nat → Option (List (TKey × Option Tid))
  | 0 => some []
  | n + 1 =>
    match e.producer with
    | none => none
    | some p =>
      if p = me then some [(e.key, some p)]
      else match s.table.entries.find? fun x => x.consumers.contains p with
        | none => none
        | some x => (s.chainOf me x n).map fun c => (e.key, some p) :: c

/-- What a thread on the chain produces from its chain entry up (R372). -/
def State.chainKeys (s : State) (c : TKey × Option Tid) : List TKey :=
  match c.2 with
  | none => [c.1]
  | some p =>
    let r := s.stackOf p
    match r.findIdx? fun x => x == some c.1 with
    | some i => s.produced p (r.take (i + 1))
    | none => [c.1]

/-- FormGroup(E) (R372), none for tables of different JOIN. -/
def State.formGroup (s : State) (me : Tid) (chain : List (TKey × Option Tid)) : Option (State × Nat) :=
  let ks := chain.flatMap s.chainKeys
  let joins := (ks.filterMap fun k => s.entryOf k).map fun e => e.join
  match joins with
  | [] => none
  | j :: r =>
    if j = .first || r.any fun x => x != j then none
    else
      let g := (s.table.groups.foldl (fun m x => max m x.id) 0) + 1
      let s1 := s.modTable fun t => { t with groups := t.groups ++ [⟨g, j, 1, false, []⟩] }
      let all := ks ++ s.produced me (s.stackOf me)
      -- groups already there come in first, so that new members take the final pass
      let old := all.filterMap fun k => (s.entryOf k).bind fun e => e.group
      let s2 := old.foldl (fun s h => s.mergeGroup g h) s1
      let s3 := all.foldl (fun s k => s.addMember g k) s2
      -- a chain thread suspended on a member is resumed with its provisional answer
      let resume (s : State) (c : TKey × Option Tid) : State :=
        match c.2 with
        | none => s
        | some p =>
          if p = me then s
          else match s.table.entries.find? fun x => x.consumers.contains p with
            | none => s
            | some x =>
              if x.group ≠ some g then s
              else
                let s1 := s.modEntry x.key fun e => { e with
                  consumed := true, consumers := e.consumers.filter fun i => i != p }
                ((s1.answerAll [p] x.prov).joinGroup g p)
      some (chain.foldl resume s3, g)

/-! ## TCALL (R369) -/

/-- The issuer becomes producer of an entry and goes on at the callee. -/
def State.produce (s : State) (k : TKey) : State :=
  let i := s.thr.tid
  let s1 := s.modEntry k fun e => { e with producer := some i }
  (s1.setStack i (some k :: s1.stackOf i)).modThr fun t => t.produces k

/-- Phase of a thread in the table at a TRET that performs its call anew: with the callee. -/
abbrev anewPhase : Nat := 2 ^ 70

/-- Suspend(E): the thread parks at its instruction with code 4 (R369). -/
def State.suspend (s : State) (k : TKey) : State :=
  let i := s.thr.tid
  (s.modEntry k fun e => { e with consumers := e.consumers ++ [i] }).parkFor 4 k.callee 0 none

/-- A request of the issuing thread to a slice (R366, R235). -/
def State.tableAsk (s : State) : State := (s.countCore s.core.id 0x00D s.thr.launch).sent s.thr.launch s.core.id

/-- A request with the reply in the same step (R366). -/
def State.tableTrip (s : State) : State := s.tableAsk.recvd s.thr.launch s.core.id

/-- The GROUPED path. -/
def State.callGrouped (s : State) (e : TEntry) (g : Nat) : State :=
  let i := s.thr.tid
  if !producing (s.stackOf i) then s.tableAsk.suspend e.key
  else
    let pass := ((s.groupAt g).map fun x => x.pass).getD 0
    if e.pass < pass && e.producer.isNone then (s.tableTrip.modEntry e.key fun e => { e with pass := pass }).produce e.key
    else
      let s1 := s.tableTrip.modEntry e.key fun e => { e with consumed := true }
      (s1.joinGroup g i).modThr fun t => t.answered e.prov

/-- The call of a key by a thread whose phase says whether it links; traps are taken from `s0`. -/
def State.callKey (s0 s : State) (k : TKey) (j : Join) : State :=
  let i := s.thr.tid
  match s.entryOf k with
  | none =>
    match s.allocEntry k j s.thr.launch with
    | none =>
      if j = .first then
        let s1 := (s.tableTrip.countCluster ((k.place s.pkg).1) 0x104 s.thr.launch).countCluster ((k.place s.pkg).1) 0x106
          s.thr.launch
        (s1.setStack i (none :: s1.stackOf i)).modThr fun t => t.link.leaveTable k.callee
      else (s0.tableTrip.countCluster ((k.place s.pkg).1) 0x104 s.thr.launch).trap (cause cTFULL k.callee)
    | some s1 =>
      let s2 := s1.tableTrip.countCluster ((k.place s.pkg).1) 0x104 s.thr.launch
      let s3 := match s2.table.groups.find? fun x => x.tainted.contains i with
        | some x => if s.thr.st.getLsbD 18 then s2.addMember x.id k else s2
        | none => s2
      s3.produce k
  | some e =>
    let s := s.countCluster ((k.place s.pkg).1) 0x104 s.thr.launch
    let s0 := s0.countCluster ((k.place s.pkg).1) 0x104 s.thr.launch
    match e.state with
    | .complete =>
      ((s.tableTrip.countCluster ((k.place s.pkg).1) 0x105 s.thr.launch).touchEntry k).modThr fun t => t.answered e.answer
    | .abandoned =>
      if e.consumers.isEmpty then
        (s.tableTrip.modEntry k fun e => { e with state := .producing, join := j }).produce k
      else s.tableAsk.suspend k
    | .producing =>
      match if producing (s.stackOf i) then s.chainOf i e 16 else none with
      | none => s.tableAsk.suspend k
      | some chain =>
        if e.join = .first then s0.tableTrip.trap (cause cTCYCLE k.callee)
        else match s.formGroup i chain with
          | none => s0.tableTrip.trap (cause cTCYCLE k.callee)
          | some (s1, g) =>
            match s1.entryOf k with
            | some e1 => s1.callGrouped e1 g
            | none => s1
    | .grouped =>
      match e.group with
      | some g => s.callGrouped e g
      | none => s
    | .failed => s0.tableTrip.trap (cause cTFAIL k.callee)

/-- The registers of a key's arguments. -/
def argSrcs (n : Nat) : List Src := ([.g 1, .g 2, .g 3, .g 4, .g 5, .g 6] : List Src).take n

/-- TCALL and TCALLR: the checks of R365, the kill point with the link written (R369), the call. -/
def State.tcall (s0 s : State) (i : Instr) (c : Word) : State :=
  s0.withDesc s i c fun s d =>
    match s0.check s (argSrcs d.argc) with
    | .error t => t
    | .ok s => s0.killPoint (s.setG (.g 15) (s.thr.pc + 4)) fun _ => s0.callKey (s.phase callPhase) (s.keyOf d c) d.join

def execTcall (o : JOp) (s : State) : Answer :=
  withThread s (s.unlessWalking (s.gather [] .gz fun s1 _ => s.tcall s1 (.tcall o) (s1.relative o.off)))

def execTcallr (o : S1) (s : State) : Answer :=
  withThread s (s.unlessWalking (s.gather1 o.a .gz fun s1 a => s.tcall s1 (.tcallr o) a))

/-! ## TRET (R370) -/

/-- TRET on an entry of the issuer. -/
def State.tretEntry (s : State) (k : TKey) (e : TEntry) : State :=
  let i := s.thr.tid
  let g1 := s.thr.g[1]
  let s1 := s.setStack i (s.stackOf i).tail
  match e.group with
  | none => ((s1.tableTrip.completeEntry k g1).touchEntry k).modThr fun t => t.leaveTable t.g[15]
  | some g =>
    let new := e.join.apply e.prov g1
    let s2 := if new != e.prov && e.consumed then s1.modGroup g fun x => { x with dirty := true } else s1
    let s3 := s2.modEntry k fun e => { e with prov := new, producer := none }
    if (s3.leaderOf g).any fun x => x.stamp == e.stamp then
      s3.tableAsk.parkFor 5 k.callee e.stamp none
    else s3.tableTrip.modThr fun t => t.answered new

/-- The call performed anew by a TRET whose entry is no longer the issuer's (R370): the key's arguments are in g1 to
g(ARGC), and g15 stays. A trap is taken from `s0`, with the entry still on the stack at the first attempt. -/
def State.tretAnew (s0 s : State) (i : Instr) (c : Word) : State :=
  s0.withDesc s i c fun s d =>
    let k := s.keyOf d c
    s0.killPoint s fun s1 => s0.callKey (s1.phase (anewPhase + c.toNat)) k d.join

/-- The last row of R370: the entry leaves the stack, its key's arguments are restored, and the call is performed anew. -/
def State.tretGone (s0 s : State) (i : Instr) (k : TKey) : State :=
  let s1 := s.setStack s.thr.tid (s.stackOf s.thr.tid).tail
  let was := (List.range k.args.length).map fun n => s.thr.g.toList.getD (n + 1) 0
  s0.tretAnew (s1.modThr fun t => { t.restoreArgs k.args with undo := was }) i k.callee

/-- The thread of a TRET that has suspended in its call anew as it was before that call, for a trap of it (R199): the entry is on its stack
again, and the registers hold what they held. An instruction that parks from there begins the call again. -/
def State.undoTret (s : State) (c : Word) : State :=
  let k : Option TKey := match s.descOf (.tret ⟨false⟩) c with
    | .ok d => some (s.keyOf d c)
    | .error _ => none
  (s.setStack s.thr.tid (k :: s.stackOf s.thr.tid)).modThr fun t => { t.restoreArgs t.undo with undo := [], phase := gonePhase }

/-- TRET on the entry on top of the stack: its own, else the call anew. -/
def State.tretTop (s0 s : State) (i : Instr) (k : TKey) : State :=
  let own := (s.entryOf k).filter fun e => e.producer == some s.thr.tid
  match own with
  | some e => s.tretEntry k e
  | none => s0.tretGone s.tableTrip i k

/-- TRET (R370). A thread that its table entry woke to perform a call anew does so. -/
def execTret (o : S0) (s : State) : Answer :=
  withThread s (s.unlessWalking (s.gather1 (.g 15) .gz fun s1 _ =>
    if anewPhase ≤ s1.thr.phase then
      let c := BitVec.ofNat 64 (s1.thr.phase - anewPhase)
      (s.undoTret c).tretAnew s1 (.tret o) c
    else match s1.stackOf s1.thr.tid with
      | [] => s.illegal (.tret o)
      | none :: rest => (s1.setStack s1.thr.tid rest).tableTrip.modThr fun t => t.leaveTable t.g[15]
      | some k :: _ =>
        if s1.thr.phase = gonePhase then s.tretGone s1 (.tret o) k
        else match s.check s1 [.g 1] with
        | .error t => t
        | .ok s2 => s.release s2 6 fun s3 => s.tretTop s3 (.tret o) k))

/-! ## TABORT, TLOOK, TFLUSH -/

/-- TABORT (R371): every entry of the stack is abandoned, uncharged. -/
def execTabort (o : S0) (s : State) : Answer :=
  withThread s (s.gather [] .gz fun s1 _ => (s1.abandonStack s1.thr.tid false).retire o.sw)

/-- What TLOOK writes for a state. -/
def TState.code : TState → Nat
  | .producing => 1
  | .complete => 2
  | .grouped => 3
  | .abandoned => 4
  | .failed => 5

/-- TLOOK (R371): long; with a complete entry g1 takes the answer, after gd (log 20). -/
def execTlook (o : R2) (s : State) : Answer :=
  withThread s (s.long1 o.a o.d fun s1 c =>
    s.withDesc s1 (.tlook o) c fun s1 d =>
      match s.check s1 (argSrcs d.argc) with
      | .error t => t
      | .ok s2 =>
        let k := s2.keyOf d c
        let s3 := s2.tableAsk.countCluster ((k.place s.pkg).1) 0x104 s2.thr.launch
        let reply (v : Word) : Pending := { Pending.ofVal v 0 with recv := true }
        match s3.entryOf k with
        | none => s3.finishLong o.sw o.d (reply 0)
        | some e =>
          let p := reply (BitVec.ofNat 64 e.state.code)
          if e.state == .complete then
            let s4 := (s3.countCluster ((k.place s.pkg).1) 0x105 s2.thr.launch).touchEntry k
            ((s4.long o.d p).long (.g 1) (Pending.ofVal e.answer 0)).retire (o.sw || o.d == .qdn)
          else s3.finishLong o.sw o.d p)

/-- A supervisor-only instruction (R270, R274 step 3): PRIV in launch mode, with the word. -/
def State.privileged (s : State) (i : Instr) (t : State) : State :=
  if s.thr.sup then t else s.trap (cause cPRIV (((encode i).getD 0).setWidth 64))

/-- Every entry of a table id removed (R343): groups with such a member dissolve, and consumers call again. -/
def State.clearTable (s : State) (t : Nat) : State :=
  let gs := (s.table.entries.filter fun e => e.key.table == t).filterMap fun e => e.group
  let s1 := gs.foldl (fun s g => s.dissolve g) s
  let cs := (s1.table.entries.filter fun e => e.key.table == t).flatMap fun e => e.consumers
  let s2 := s1.modTable fun x => { x with entries := x.entries.filter fun e => e.key.table != t }
  let s3 := s2.recallAll cs
  { s3 with launcher := { s3.launcher with tables := s3.launcher.tables.filter fun x => x.1 != t } }

/-- The key of the wait for the slices' acknowledgements of a TFLUSH, before the cc at which they have come. -/
def flushKey : Nat := 2 ^ 73

/-- TFLUSH (R343): every entry of the table id goes as it issues, and its thread waits for the slices' acknowledgements (log 5). -/
def execTflush (o : S1) (s : State) : Answer :=
  withThread s (s.privileged (.tflush o) (s.gather1 o.a .gz fun s1 a =>
    let t := a.toNat % 16
    let owned := s1.launcher.tables.any fun x => x.1 == t && (s1.launchOf x.2).any Launch.live
    if flushKey ≤ s.thr.phase then
      if s.cc < s.thr.phase - flushKey then s.parkOn 16 0 s.thr.phase else s1.retire o.sw
    else if owned then s.trap (cause cPROT a)
    else
      let (f, s2) := (s.clearTable t).fresh
      let e := s.cc + 1 + (Config.flushTime f).toNat
      let s3 : State := { s2 with launcher := { s2.launcher with
        flushes := (s2.launcher.flushes.filter fun (x : Flush) => decide (s.cc < x.ends)) ++ [⟨t, e⟩] } }
      (s3.phase (flushKey + e)).parkOn 16 0 (flushKey + e)))

/-! ## TABLE_GROUP_CLOSE (R372) -/

/-- The end of a group: its members leave it in state `st`, the taint goes. -/
def State.endGroup (s : State) (g : Nat) (st : TState) : State :=
  let ts := ((s.groupAt g).map fun x => x.tainted).getD []
  let n := s.table.stamp + 1
  let done (e : TEntry) : TEntry :=
    if e.group = some g then
      { e with state := st, answer := e.prov, producer := none, consumers := [], group := none, consumed := false, lru := n }
    else e
  ((s.modTable fun t => { t with entries := t.entries.map done, stamp := n }).untaint ts).dropGroup g

/-- The close of a clean group: every member complete, its consumers woken. -/
def State.closeClean (s : State) (g : Nat) (lead : TEntry) (leader : Thread) : State :=
  let ms := s.membersOf g
  let s1 := s.endGroup g .complete
  let s2 := ms.foldl (fun s e => s.answerAll e.consumers e.prov) s1
  (s2.recvd leader.launch leader.core).modThread leader.core leader.frame fun t => t.answered lead.prov

/-- The close of a dirty group: another pass, or TDIVERGE. -/
def State.closeDirty (s : State) (g : Nat) (lead : TEntry) (leader : Thread) (pass : Nat) : State :=
  let s0 := s.recvd leader.launch leader.core
  if 65536 ≤ pass + 1 then
    let cs := (s0.membersOf g).flatMap fun e => e.consumers
    ((s0.endGroup g .failed).recallAll cs).asThread leader.core leader.frame fun s =>
      (s.modThr Thread.unpark).trap (cause cTDIVERGE lead.key.callee)
  else
    let s1 := s0.modGroup g fun x => { x with pass := pass + 1, dirty := false }
    let clean (e : TEntry) : TEntry := if e.group = some g then { e with consumed := false } else e
    let s2 := s1.modTable fun t => { t with entries := t.entries.map clean }
    let s3 := s2.modEntry lead.key fun e => { e with pass := pass + 1, producer := some leader.tid }
    (s3.setStack leader.tid (some lead.key :: s3.stackOf leader.tid)).modThread leader.core leader.frame fun t =>
      t.produces lead.key

/-- TABLE_GROUP_CLOSE (R372): the leader parked with code 5 closes its group once no member has a running producer. -/
def execTableGroupClose (group : Nat) (s : State) : Answer :=
  match s.groupAt group, s.leaderOf group with
  | some x, some lead =>
    match s.all.find? fun t => t.park.any fun p => p.code == 5 && p.key == lead.stamp with
    | none => .fault .notEnabled
    | some leader =>
      if (s.membersOf group).any fun e => e.producer.isSome then .fault .notEnabled
      else if x.dirty then .next (s.closeDirty group lead leader x.pass)
      else .next (s.closeClean group lead leader)
  | _, _ => .fault .notEnabled

end Sys2Proof.Machine
end

