-- ==== Sys2Proof/Machine/Search.lean ====
section
/-! DEFINITION. The incumbents and the kill check (R344, R376-R380): BND, INCU, INCR, INCINIT, BCHK. -/

namespace Sys2Proof.Machine

/-! ## Binding (R376) -/

/-- Bind(k) by the issuing thread: a launch binds one incumbent, which no running launch of another tenant has bound. A
supervisor thread belongs to no launch and binds nothing. -/
def State.bind (s : State) (k : Nat) : Except TrapInfo State :=
  match s.launchOf s.thr.launch with
  | none => .ok s
  | some l =>
    let other (x : Launch) : Bool := x.live && x.id != l.id && x.info.tenant != l.info.tenant && x.incs.contains k
    if l.incs.contains k then .ok s
    else if !l.incs.isEmpty || s.launcher.list.any other then .error (cause cPROT (BitVec.ofNat 64 k))
    else .ok (s.modLaunch l.id fun l => { l with incs := [k] })

/-- What INCU and INCR ask of incumbent k: that the launch has bound it, by INCB or its first BND (R376; DEDUCED, log 24). A supervisor
thread belongs to no launch. -/
def State.boundInc (s : State) (k : Nat) : Bool :=
  match s.launchOf s.thr.launch with
  | none => true
  | some l => l.incs.contains k

/-! ## Changes of a master copy (R377, R379) -/

/-- The sweep of the deques of some cores and of the areas on them after a change of their local copies of incumbent k: dead entries
are marked (R379). -/
def State.sweepDead (s : State) (on : Nat → Bool) (k : Nat) : State :=
  let hit (e : DqEntry) : Bool := (s.launchOf e.launch).any fun l => l.incs.head? == some k
  let mark (core : Nat) (e : DqEntry) : DqEntry := if hit e && s.deadEntry core e then { e with dead := true } else e
  let s1 := s.modCores fun c => if on c.id then { c with deque := c.deque.map (mark c.id) } else c
  s1.launcher.list.foldl (fun s l =>
    if l.incs.head? == some k then
      (l.counts.filter fun c => on c.core && c.ovf != 0).foldl (fun s c =>
        let old := s.ovfList l c.core
        let new := old.map (mark c.core)
        if old == new then s else (s.ovfMark l c.core).ovfPut l c.core new) s
    else s) s1

/-- INCUMBENT_PUBLISH (R377): master and mirror changed, and the change announced on the Hem. -/
def State.publish (s : State) (k : Fin 8) (key tag : Word) : State :=
  let i := s.inc
  { s with inc := { i with
      key := i.key.set k key, tag := i.tag.set k tag
      mirrorKey := i.mirrorKey.set k key, mirrorTag := i.mirrorTag.set k tag
      pubs := i.pubs ++ [⟨k.1, key, s.cc, []⟩] } }

/-- The local copies of a core take the oldest announced change that they do not hold (R377), and its deque is swept (R379). -/
def State.takeInc (s : State) (core : Nat) : Answer :=
  match s.inc.pubs.find? fun p => !p.got.contains core with
  | none => .fault .notEnabled
  | some p =>
    let got (q : IncPub) : IncPub := if q = p then { q with got := core :: q.got } else q
    .next (({ s with inc := { s.inc with pubs := s.inc.pubs.map got } } : State).sweepDead (fun n => n == core) p.k)

/-- Changes announced 72 cc ago: every local copy holds them (R377). -/
def State.settleIncs (s : State) : State :=
  let due := s.inc.pubs.filter fun p => decide (p.since + 72 ≤ s.cc)
  if due.isEmpty then s
  else
    let copies := due.foldl (fun (v : Vector Word 8) p => v.set! p.k p.key) s.inc.local_
    let rest := s.inc.pubs.filter fun p => !decide (p.since + 72 ≤ s.cc)
    let s1 : State := { s with inc := { s.inc with local_ := copies, pubs := rest } }
    due.foldl (fun s p => s.sweepDead (fun _ => true) p.k) s1

/-- INCUMBENT_UPDATE_APPLY (R377): the n-th INCU reaches the master once it is released, and replaces a larger key. -/
def execIncumbentUpdateApply (n : Nat) (s : State) : Answer :=
  match s.inc.msgs[n]? with
  | none => .fault .notEnabled
  | some m =>
    if !s.ordered m.core m.frame m.num m.tok 6 then .fault .notEnabled
    else
      let s1 := { s with inc := { s.inc with msgs := s.inc.msgs.eraseIdx n } }.recvd m.launch m.core
      let k : Fin 8 := Fin.ofNat 8 m.k
      .next (if m.key.slt s1.inc.key[k] then s1.publish k m.key m.tag else s1)

/-! ## The instructions -/

/-- BND: not a kill point. -/
def execBnd (o : KOp) (s : State) : Answer :=
  withThread s (s.gather1 o.a .gz fun s1 a =>
    match s1.bind o.k.toNat with
    | .error ti => s.trap ti
    | .ok s2 => (s2.modThr fun t => { t with tb := a, st := setField t.st 13 3 o.k.toNat, damage := t.damage.filter fun n => n != 21 }).retire o.sw)

/-- INCU: sent to the master as a release at package scope. -/
def execIncu (o : K2Op) (s : State) : Answer :=
  withThread s (s.gather2 o.a o.b .gz fun s1 a b =>
    if !s1.boundInc o.k.toNat then s.trap (cause cPROT (BitVec.ofNat 64 o.k.toNat))
    else
      let c := s1.core.id
      let m : IncMsg := ⟨c, s1.thr.frame, s1.thr.launch, o.k.toNat, a, b, s1.core.sbNum, s1.thr.seq⟩
      let s3 := (s1.countCore c 0x00D s1.thr.launch).sent s1.thr.launch c
      { s3 with inc := { s3.inc with msgs := s3.inc.msgs ++ [m] } }.retire o.sw)

/-- INCR: key and tag of the master, both long. -/
def execIncr (o : IncrOp) (s : State) : Answer :=
  withThread s (s.gatherLong [] (if o.d == Dst.qdn then o.d else o.b) fun s1 _ =>
    if !s1.boundInc o.k.toNat then s.trap (cause cPROT (BitVec.ofNat 64 o.k.toNat))
    else
      let c := s1.core.id
      let s3 := (s1.countCore c 0x00D s1.thr.launch).sent s1.thr.launch c
      let p (v : Word) : Pending := { Pending.ofVal v 0 with load := true }
      ((s3.long o.d { p s3.inc.key[o.k] with recv := true }).long o.b (p s3.inc.tag[o.k])).retire (o.sw || o.d == Dst.qdn || o.b == Dst.qdn))

/-- The key of the wait of an INCINIT for its announcement, and above it those for its release. -/
def incKey : Nat := 2 ^ 71

/-- INCINIT (R344): a release at package scope; PROT while a running launch has bound the incumbent. It completes when its
announcement has been delivered. -/
def execIncinit (o : K2Op) (s : State) : Answer :=
  withThread s (s.privileged (.incinit o) (s.gather2 o.a o.b .gz fun s1 a b =>
    let k := o.k.toNat
    if s.thr.phase = incKey then
      if s.inc.pubs.any fun p => p.k == k then s.parkOn 16 0 (incKey + k) else s1.retire o.sw
    else if s1.launcher.list.any fun l => l.live && l.incs.contains k then s.trap (cause cPROT (BitVec.ofNat 64 k))
    else
      let num := if s.thr.phase = 0 then s.core.sbNum else s.thr.phase - 1
      if s1.thr.pend.isEmpty && num ≤ s1.performed s1.core.id 6 && !s1.writesOut s1.core.id s1.thr.frame num then
        ((s.publish o.k a b).phase incKey).parkOn 16 0 (incKey + k)
      else (s.phase (num + 1)).parkOn 16 0 (2 * incKey + num)))

/-- BCHK (R379). -/
def execBchk (o : S0) (s : State) : Answer :=
  withThread s (s.unlessWalking (s.gather [] .gz fun s1 _ => s.killPoint s1 fun s2 => s2.retire o.sw))

end Sys2Proof.Machine
end

