-- ==== Sys2Proof/Machine/Record.lean ====
section
/-! DEFINITION. Spill records and the places that the launcher and the spill engine write and read (R71, R207, R208). -/

namespace Sys2Proof.Machine

/-- Frame number of a spilled thread: above every frame of a core, and its own. -/
def ghostFrame (t : Tid) : Nat := 65 + t.launch * 65536 + t.idx

/-- Is a thread spilled? -/
def Thread.spilled (t : Thread) : Bool := 64 < t.frame

/-- Bit n set while an SFU result for gn has yet to land. -/
def Thread.sfup (t : Thread) : Nat :=
  ofBits ((List.range 16).map fun n => t.pend.any fun p => p.sfu && !p.dropped && Dst.isG p.dst n)

/-- The record of a thread with STATE `st` (R207, R363). -/
def Thread.record (t : Thread) (st : Nat) : List Word :=
  let code := (t.park.map fun p => p.code).getD 0
  let bit (b : Bool) (i : Nat) : Nat := if b then 2 ^ i else 0
  let w19 := st + bit t.anchored 2 + bit t.tr.inE 3 + bit t.tr.inS 4 + bit t.wake 5 + code * 256
  t.g.toList ++ [t.pc, t.st, t.tb, BitVec.ofNat 64 w19, BitVec.ofNat 64 t.sfup,
    if code = 0 then 0 else (t.park.map fun p => p.arg).getD 0, t.tr.epc, t.tr.ecause, t.tr.eval, t.tr.estat, 0, 0, 0, 0, 0, 0]

/-- Address of a thread's record. -/
def Launch.recordAt (l : Launch) (idx : Nat) : Word := l.info.spill + BitVec.ofNat 64 (idx * 256)

/-- Address of the engine area of a core (R208). -/
def State.areaAt (s : State) (l : Launch) (core : Nat) : Word :=
  l.info.spill + BitVec.ofNat 64 ((s.rectCores l.info).length * (l.info.tpc + 1) * 256 + s.rectIndex l core * 0x4000)

/-- Do all the 64-byte pieces of an area translate for a tenant (R71)? -/
def State.areaMapped (s : State) (core tenant : Nat) (va : Word) (n : Nat) (store : Bool) : Bool :=
  (List.range (n / 64)).all fun i => (s.tenantLoc core tenant (va + BitVec.ofNat 64 (64 * i)) store).isSome

/-- Words written from an address on by the spill engine, in 64-byte pieces to memory and in words to a scratchpad. -/
def State.putWords (s : State) (core launch tenant : Nat) : Word → List Word → State
  | _, [] => s
  | va, ws@(w :: r) =>
    match s.tenantLoc core tenant va true with
    | none => s
    | some l =>
      let line := l.key % 64 = 0 && 8 ≤ ws.length && !isScratchKey l.key
      let s1 : State := if line then s.engineWrite l 64 ((ws.take 8).foldr (fun x v => x.toNat + 2 ^ 64 * v) 0) launch
        else s.engineWrite l 8 w.toNat launch
      (if va.toNat % 64 = 0 then s1.tenantMark core tenant va true else s1).putWords core launch tenant (va + 8) r

/-- Words read from an address on. -/
def State.getWords (s : State) (core tenant : Nat) (va : Word) (n : Nat) : List Word :=
  (List.range n).map fun i => match s.tenantLoc core tenant (va + BitVec.ofNat 64 (8 * i)) false with
    | some l => BitVec.ofNat 64 (s.mem.read l.key 8)
    | none => 0

/-- The A bits that reading words sets (R118). -/
def State.markWords (s : State) (core tenant : Nat) (va : Word) (n : Nat) : State :=
  (List.range (n / 8 + 1)).foldl (fun s i => s.tenantMark core tenant (va + BitVec.ofNat 64 (64 * i)) false) s

/-- The records of lost threads written (R207, R210, R212): the context with STATE 3, or STATE 2 alone where it cannot be read. None has
an engine area. -/
def State.writeLost (s : State) : State :=
  let put (s : State) (x : Thread × Nat) : State :=
    match s.launchOf x.1.launch with
    | some l =>
      let a := l.recordAt x.1.idx
      if x.2 = 2 then (s.putWords x.1.core l.id l.info.tenant (a + 152) [2]).tenantMark x.1.core l.info.tenant (a + 152) true
      else s.putWords x.1.core l.id l.info.tenant a ((x.1.record x.2).modify 19 fun w => w &&& ~~~(4 : Word))
    | none => s
  { s.mgmt.unsaved.foldl put s with mgmt := { s.mgmt with unsaved := [] } }

end Sys2Proof.Machine
end

