-- ==== Sys2Proof/Machine/Launcher.lean ====
section
/-! DEFINITION. The launcher (R71-R76, R78-R82, R211, R227, R228, R364): records, windows, placement, the sweep and the end of
a launch, CTXLOST, supervisor threads. -/

namespace Sys2Proof.Machine

/-! ## Records (R71, R72) -/

/-- A record read from its words; the rectangle's first core has been resolved. -/
def LaunchRec.ofWords (w : Nat → Word) (origin : Nat) : LaunchRec :=
  let f (n lo k : Nat) : Nat := fieldOf (w n) lo k
  { entry := w 0, die := dieOf origin, y := yOf origin, x := xOf origin, extd := f 1 16 3, exty := f 1 19 4,
    extx := f 1 23 4, tpc := f 1 27 5, anc := f 1 32 1 == 1, prio := f 1 33 5, tenant := f 1 38 4, incx := f 1 42 3,
    incb := f 1 45 1 == 1, args := w 2, tvec := w 3, tables := BitVec.ofNat 16 (f 4 0 16), spill := w 5, spillsz := w 6,
    dqovf := w 7, depk := f 8 0 2, depv := w 9, done := w 10 }

/-- Is a field of the record one that R72 refuses: reserved bits, DEPK 3, ENTRY? -/
def badFields (w : Nat → Word) : Bool :=
  fieldOf (w 1) 14 2 != 0 || fieldOf (w 1) 46 18 != 0 || fieldOf (w 4) 16 48 != 0 || fieldOf (w 8) 2 62 != 0
    || (List.range 5).any (fun i => w (11 + i) != 0) || fieldOf (w 8) 0 2 == 3 || !userPc (w 0).toNat

/-- Does the rectangle leave the package (R72)? -/
def badRectangle (p : Package) (r : LaunchRec) : Bool := 15 < r.y + r.exty || 15 < r.x + r.extx || p.dies < r.extd + 1

/-- LAUNCH_RECORD_CHECK (R72, R73, R364): 0, or the code of the refusal; the conditions stand in the order of R72. -/
def State.recordCode (s : State) (w : Nat → Word) (origin : Option Nat) (issuer : Option (Nat × Nat)) : Nat :=
  let r := LaunchRec.ofWords w (origin.getD 0)
  let foreign := issuer.any fun i => r.tenant != i.1 || decide (i.2 < r.prio)
  let cs := s.rectCores r
  let owned (t : Nat) : Bool := s.launcher.tables.any fun x => x.1 == t && (s.launchOf x.2).any Launch.live
  let busy := (List.range 16).any fun t => r.tables.getLsbD t && owned t
  let need := cs.length * ((r.tpc + 1) * 256 + (if r.anc then 16384 else 0))
  let bound := r.incb && s.launcher.list.any fun l => l.live && l.info.tenant != r.tenant && l.incs.contains r.incx
  if foreign || badFields w then 0x10
  else if origin.isNone || badRectangle s.pkg r then 0x11
  else if busy then 0x12
  else if r.spillsz.toNat < need then 0x13
  else if cs.any fun c => (s.coreOf c).positions < r.tpc + 1 then 0x11
  else if bound then 0x14
  else 0

/-- The status word of a launch written below DONE, or event 0x0007 where it cannot be (R73). -/
def State.writeDone (s : State) (core tenant : Nat) (done : Word) (id code : Nat) : State :=
  if done = 0 then s
  else
    let loc := if done.toNat % 8 = 0 then s.tenantLoc core tenant done true else none
    match loc with
    | some l => (s.tenantMark core tenant done true).engineWrite l 8 (code + id % 2 ^ 32 * 2 ^ 32) id
    | none => s.post ⟨0x0007, BitVec.ofNat 64 id, BitVec.ofNat 64 code⟩

/-- A record accepted (R73, R75, R82): LAUNCHID, table ids, incumbent; it is held until its dependence is met. -/
def State.accept (s : State) (r : LaunchRec) : State :=
  let id := s.launcher.nextId
  let l : Launch :=
    { id := id, info := r, status := if r.depk = 0 then .queued else .held, placed := 0
      incs := if r.incb then [r.incx] else [], counts := [], spilled := [], anyLost := false, lostAt := [], barred := [], bySup := false
      sweep := none, ops := 0, dram := 0, cls := none }
  let mine := (List.range 16).filter fun t => r.tables.getLsbD t
  let kept := s.launcher.tables.filter fun x => !mine.contains x.1
  let s1 := { s with launcher := { s.launcher with
    list := s.launcher.list ++ [l]
    nextId := id + 1
    fifo := if r.depk = 0 then s.launcher.fifo ++ [id] else s.launcher.fifo
    tables := kept ++ mine.map fun t => (t, id) } }
  -- the launcher reads the dependence word (R75), which sets the A bits of its page (R118)
  (if r.depk = 1 then s1.tenantMark (s.originOf r) r.tenant r.depv false else s1).depScan

/-- Does a record wait at the launcher for a TFLUSH of a table that it names (R343)? -/
def State.flushing (s : State) (tables : BitVec 16) : Bool :=
  s.launcher.flushes.any fun f => tables.getLsbD f.table && decide (s.cc < f.ends)

/-- A record reaches the launcher from core `from_` (R71): accepted, or refused with its code written to DONE. -/
def State.submit (s : State) (w : Nat → Word) (from_ : Nat) (issuer : Option (Nat × Nat)) : State :=
  let origin := (Machine.resolvePlace s.pkg from_ (fieldOf (w 1) 0 14)).filter s.enabled
  let r := LaunchRec.ofWords w (origin.getD 0)
  match s.recordCode w origin issuer with
  | 0 => s.accept r
  | c => s.writeDone (s.originOf r) r.tenant r.done 0 c

/-! ## Launch windows (R227, R228) -/

/-- The slot of a launch window as it stands. -/
def State.winSlot (s : State) (seam slot : Nat) : WinSlot :=
  (s.launcher.slots.find? fun x => x.seam == seam && x.slot == slot).getD ⟨seam, slot, Vector.replicate 16 0, false⟩

def State.setSlot (s : State) (x : WinSlot) : State :=
  { s with launcher := { s.launcher with
      slots := (s.launcher.slots.filter fun y => !(y.seam == x.seam && y.slot == x.slot)) ++ [x] } }

/-- LWERR of a seam with bits set. -/
def State.lwSet (s : State) (seam : Nat) (v : BitVec 2) : State :=
  if h : seam < 2 then
    { s with launcher := { s.launcher with lwerr := s.launcher.lwerr.set seam (s.launcher.lwerr[seam] ||| v) } }
  else s

/-- Can the host reach a seam die: its link is trained, its seam works, and boot has not stopped (R163, R216, R218, R229)? -/
def State.windowUp (s : State) (seam : Nat) : Bool :=
  decide (seam < 2) && s.caps.seamOk.getLsbD seam && s.links.up.getLsbD seam && s.mgmt.booted

/-- An 8-byte write of word i of a slot. -/
def State.slotWrite (s : State) (seam slot i : Nat) (v : Word) : State :=
  let x := s.winSlot seam slot
  if x.busy then s.lwSet seam 1
  else if h : i < 16 then s.setSlot { x with words := x.words.set i v, busy := i == 15 } else s

/-- LWERR_WRITE (R227): a bit written 1 is cleared. -/
def execLwerrWrite (seam : Nat) (v : Word) (s : State) : Answer :=
  whenEnabled (s.windowUp seam)
    (if h : seam < 2 then
      { s with launcher := { s.launcher with lwerr := s.launcher.lwerr.set seam (s.launcher.lwerr[seam] &&& ~~~(v.setWidth 2)) } }
    else s)

/-- LAUNCH_SLOT_WORD_WRITE (R228): words 0 to 14. -/
def execLaunchSlotWordWrite (seam slot i : Nat) (v : Word) (s : State) : Answer :=
  whenEnabled (s.windowUp seam && decide (slot < 64) && decide (i < 15)) (s.slotWrite seam slot i v)

/-- LAUNCH_SLOT_FINAL_WORD (R228): word 15 makes the slot busy. -/
def execLaunchSlotFinalWord (seam slot : Nat) (v : Word) (s : State) : Answer :=
  whenEnabled (s.windowUp seam && decide (slot < 64)) (s.slotWrite seam slot 15 v)

/-- LAUNCH_WINDOW_NARROW_WRITE (R228). -/
def execLaunchWindowNarrowWrite (seam : Nat) (s : State) : Answer := whenEnabled (s.windowUp seam) (s.lwSet seam 2)

/-- Have the supervisor threads that boot starts been started, as they are before the launcher accepts its first record (R345)? -/
def State.bootDone (s : State) : Bool := s.launcher.nextId != 1 || s.mgmt.restarts.isEmpty

/-- LAUNCH_SLOT_FREE (R228): the slot frees, and its record is accepted or refused, also where the host's link has gone down since
its last word arrived; ORIGIN counts from die 0 at (0, 0). It waits while a TFLUSH clears a table that it names (R343). -/
def execLaunchSlotFree (seam slot : Nat) (s : State) : Answer :=
  let x := s.winSlot seam slot
  whenEnabled (x.busy && s.bootDone && !s.flushing (BitVec.ofNat 16 (fieldOf (x.words.toList.getD 4 0) 0 16))) ((s.setSlot { x with busy := false }).submit (fun i => x.words.toList.getD i 0) 0 none)

/-! ## LAUNCH (R364) -/

/-- LAUNCH's 16 loads, checked and translated. -/
def State.recordLocs (s : State) (a : Word) : Except TrapInfo (List Loc) :=
  (List.range 16).mapM fun i => (s.access s.thr (a + BitVec.ofNat 64 (8 * i)) (accPlain 8 .load false)).map fun r => r.1

/-- LAUNCH: ALIGN, the checks of its loads, which stand in two lines (R337), a migration where one of them asks for it (R42), then the thread parks at the
instruction with code 13. A supervisor thread has no tenant and no priority to exceed. -/
def execLaunch (o : S1) (s : State) : Answer :=
  withThread s (s.gather1 o.a .gz fun s1 a =>
    if a.toNat % 128 ≠ 0 then s.trap (cause cALIGN a)
    else s.withAccess s1 a (accPlain 8 .load false) true false fun s2 _ =>
      s.withAccess s2 (a + 64) (accPlain 8 .load false) true false fun s2 _ =>
      match s2.recordLocs a with
      | .error ti => s.trap ti
      | .ok ls =>
        let away (l : Loc) : Option Nat := match s2.serve l false false with
          | .migrate n => some n
          | _ => none
        match ls.findSome? away with
        | some n => s.migrate n
        | none =>
        let c := s2.core.id
        let tp : Nat × Nat := match s2.launchOf s2.thr.launch with
          | some l => (l.info.tenant, l.info.prio)
          | none => (16, 31)
        let r : LaunchReq := ⟨c, s2.thr.frame, ls, tp.1, tp.2⟩
        let s3 := { s2 with launcher := { s2.launcher with reqs := s2.launcher.reqs ++ [r] } }
        (s3.phase (s2.core.sbNum + 1)).parkFor 13 a (if o.sw then 1 else 0) none)

/-- The lines of a record brought to where its loads are performed, which meet the injected errors of a scratchpad (R349). -/
def State.readRecord (s : State) (r : LaunchReq) (launch : Nat) : State :=
  let s1 := (r.locs.filter fun l => l.key % 64 = 0).foldl (fun s l => s.reach r.core l false launch) s
  s1.injectAll (r.locs.map fun l => (l.key, 8)) false

/-- LAUNCH_RECORD_SUBMIT (R364): its release wait has ended, the record has been read and reaches the launcher; the thread
goes on, unless a TFLUSH clears a table that it names (R343). A load that returns poison takes UCE at the LAUNCH (R57). -/
def execLaunchRecordSubmit (core frame : Nat) (s : State) : Answer :=
  match s.launcher.reqs.find? fun r => r.core == core && r.frame == frame,
    (s.threadAt core frame).filter fun t => t.park.any fun p => p.code == 13 with
  | some r, some t =>
    if !s.bootDone || !s.ordered core frame (t.phase - 1) t.seq 6 || r.locs.any fun l => s.refreshes l then .fault .notEnabled
    else match r.locs.find? fun l => !s.reachable core l false with
    | some l => s.waitLine core l false
    | none =>
      let s0 : State := { s with launcher := { s.launcher with reqs := s.launcher.reqs.erase r } }
      let s1 := s0.readRecord r t.launch
      match r.locs.find? fun l => s1.mem.isPoisoned l.key with
      | some l => .next (s1.asThread core frame fun s => (s.modThr Thread.unpark).trap (cause cUCE l.va))
      | none =>
        let words := r.locs.map fun l => BitVec.ofNat 64 (s1.mem.read l.key 8)
        if s.flushing (BitVec.ofNat 16 (fieldOf (words.getD 4 0) 0 16)) then .fault .notEnabled
        else
        let marker := t.park.any fun p => p.key == 1
        let go (t : Thread) : Thread := { t with
          pc := t.pc + 4, phase := 0, skipWatch := none, walked := none, popped := []
          park := if marker && !t.pend.isEmpty then some ⟨1, 0, 0, s.cc, none⟩ else none }
        .next ((s1.modThread core frame go).submit (fun i => words.getD i 0) core (if r.tenant < 16 then some (r.tenant, r.prio) else none))
  | _, _ => .fault .notEnabled

/-! ## Placement (R71, R75, R76) -/

/-- Does a tenant have a running launch whose data a core's scratchpad may hold (R88)? -/
def State.holdsData (s : State) (core tenant : Nat) : Bool :=
  s.launcher.list.any fun l => l.runs && l.info.tenant == tenant &&
    (l.info.holds s.pkg core || s.all.any fun t => t.core == core && t.launch == l.id)

/-- Is the scratchpad of a core free for a tenant (R88)? -/
def State.scratchFree (s : State) (core tenant : Nat) : Bool :=
  match (s.coreOf core).spOwner with
  | none => true
  | some t => t == tenant || !s.holdsData core t

/-- May a launch of priority `prio` remove a thread (R76)? -/
def State.removable (s : State) (prio : Nat) (t : Thread) : Bool :=
  !t.isSup && (s.launchOf t.launch).any fun l => decide (l.info.prio < prio)

/-- A thread removed from the rotation (R76, R205): it keeps its frame, its results and its wake bit. An access that was to
migrate issues anew, and is checked anew. -/
def Thread.remove (t : Thread) : Thread :=
  let u := { t with pos := none, fbuf := none, yield := none }
  if t.migr.isSome then { u with migr := none, park := none, phase := 0, skipWatch := none } else u

def State.removeAll (s : State) (ts : List Thread) : State :=
  ts.foldl (fun s t => s.modThread t.core t.frame Thread.remove) s

/-- The thread of the lowest-priority launch on a core, the most recently placed first (R76). -/
def State.lowest (s : State) (core prio : Nat) : Option Thread :=
  let rank (t : Thread) : Nat × Nat := match s.launchOf t.launch with
    | some l => (l.info.prio, l.placed)
    | none => (32, 0)
  ((s.onCore core).filter fun t => t.pos.isSome && s.removable prio t).foldl (fun b t => match b with
    | none => some t
    | some u =>
      let a := rank t
      let c := rank u
      if a.1 < c.1 || (a.1 == c.1 && c.2 < a.2) then some t else some u) none

/-- Threads that stand in the positions a launch needs on a core. -/
def State.blockers (s : State) (l : Launch) (core : Nat) : List Thread :=
  (s.onCore core).filter fun t => t.pos.any fun p => decide (p ≤ l.info.tpc)

/-- The core whose record a launched thread has (R207): where it was placed or forked. -/
def State.homeCore (s : State) (t : Thread) : Option Nat :=
  (s.launchOf t.launch).bind fun l => (s.rectCores l.info)[t.idx / (l.info.tpc + 1)]?

/-- Is a guest resident on a core (R44): a thread with a frame there that has come by a migration? -/
def State.hasGuest (s : State) (core : Nat) : Bool :=
  (s.onCore core).any fun t => !t.isSup && !t.spilled && s.homeCore t != some core

/-- Has every core of the rectangle what the launch needs? Positions 30 and 31 are given only where no guest is resident (R44). -/
def State.placeable (s : State) (l : Launch) : Bool :=
  (s.rectCores l.info).all fun c => (s.blockers l c).isEmpty && decide (l.info.tpc < (s.freeFrames c).length)
    && s.scratchFree c l.info.tenant && !((s.coreOf c).saved.any fun x => x.2 == l.info.tenant) && (s.coreOf c).reset.isNone
    && (l.info.tpc < 30 || !s.hasGuest c)

/-- Has a launch a class, and has a running launch on cores of its rectangle the other one (R78)? -/
def State.pairs (s : State) (l : Launch) : Bool :=
  l.cls.any fun b => s.launcher.list.any fun x => x.runs && x.cls == some (!b) &&
    (s.rectCores l.info).any fun c => x.info.holds s.pkg c

/-- The launch to place: of the highest FIFO that is not empty the first placeable one that pairs with a running launch of the other class
(R78), else the head (R75). A launch gets its class once it runs, so that of the waiting ones the head is placed (log 30). -/
def State.headLaunch (s : State) : Option Launch :=
  let q := s.launcher.fifo.filterMap s.launchOf
  let top := q.foldl (fun m l => max m l.info.prio) 0
  let best := q.filter fun l => l.info.prio == top
  match best.find? fun l => s.pairs l && s.placeable l with
  | some l => some l
  | none => best.head?

/-- Threads removed from a core to place a launch (R76): the lowest priority first, until none stands in a position it needs. -/
def State.clearCore (s : State) (l : Launch) (core : Nat) : Nat → State
  | 0 => s
  | n + 1 =>
    if (s.blockers l core).isEmpty then s
    else match s.lowest core l.info.prio with
      | none => s
      | some t => (s.removeAll [t]).clearCore l core n

/-- A scratchpad cleared: every word 0 and full, none poisoned (R87, R88). -/
def Memory.clearScratch (m : Memory) (core : Nat) : Memory :=
  let lo := scratchKey core 0
  let out (a : Nat) : Bool := a < lo || lo + 0x80000 ≤ a
  { bytes := m.bytes.filter fun x => out x.1, empty := m.empty.filter out, poison := m.poison.filter out }

/-- The scratchpad of a core handed to a tenant, cleared when another held it (R87, R88; log 25). -/
def State.giveScratch (s : State) (core tenant : Nat) : State :=
  let c := s.coreOf core
  let s1 := if c.spOwner.any fun t => t != tenant then { s with mem := s.mem.clearScratch core } else s
  s1.modCore core fun c => { c with spOwner := some tenant }

/-- Thread p of the c-th core of a launch as it is placed. -/
def State.placeThread (s : State) (l : Launch) (core c p : Nat) : State :=
  match (s.freeFrames core).head? with
  | none => s
  | some f => s.startThread l p (launchedThread l core f p (c * (l.info.tpc + 1) + p) l.info.entry)

/-- The constant caches of the clusters of a launch cleared (R99). -/
def State.clearConst (s : State) (l : Launch) : State :=
  let cl := (s.rectCores l.info).map clusterOf
  { s with clusters := s.clusters.map fun c => if cl.contains c.id then { c with kc := [] } else c }

/-- Every thread of a launch started. -/
def State.place (s : State) (l : Launch) : State :=
  let cs := (s.rectCores l.info).zipIdx
  let s1 := cs.foldl (fun s x => s.giveScratch x.1 l.info.tenant) s
  let s2 := cs.foldl (fun s x => (List.range (l.info.tpc + 1)).foldl (fun s p => s.placeThread l x.1 x.2 p) s) s1
  let s3 := s2.modLaunch l.id fun l => { l with status := .running, placed := s.cc }
  { s3 with launcher := { s3.launcher with fifo := s3.launcher.fifo.erase l.id } }.clearConst l

/-- LAUNCH_PLACEMENT (R75, R76): threads of lower priority are removed where some stand in its way; once every core has room the
head launch is placed. -/
def execLaunchPlacement (s : State) : Answer :=
  match s.headLaunch with
  | none => .fault .notEnabled
  | some l =>
    let inWay := (s.rectCores l.info).flatMap fun c => s.blockers l c
    if inWay.any fun t => !s.removable l.info.prio t then .fault .notEnabled
    else
      let s1 := (s.rectCores l.info).foldl (fun s c => s.clearCore l c 32) s
      if s1.placeable l then .next (s1.place l).depScan
      else whenEnabled (!inWay.isEmpty) s1

/-! ## The classifier (R78) -/

/-- CLASSIFIER_WINDOW_END: 19,200 cc after its placement a launch gets its class, which `State.pairs` reads. -/
def execClassifierWindowEnd (launch : Nat) (s : State) : Answer :=
  match s.launchOf launch with
  | none => .fault .notEnabled
  | some l =>
    whenEnabled (l.runs && l.cls.isNone)
      ({ s with cc := max s.cc (l.placed + 19200) }.modLaunch launch fun l => { l with cls := some (decide (8 * l.dram ≤ l.ops)) })

/-! ## The end of a launch (R79-R82, R211) -/

/-- Has an engine of a core an operation of a launch that has not ended (R81), in the name of a thread or of one that has ended? -/
def Engines.worksFor (e : Engines) (launch : Nat) : Bool :=
  (e.vq ++ e.coll.toList).any (fun b => b.launch == launch) || (e.mq.any fun m => m.launch == launch) ||
    (e.bq.any fun b => b.launch == launch) ||
    e.ch.toList.any fun c => (c.run.toList ++ c.queue).any fun o => o.launch == launch

/-- The core on which a CTXLOST thread of a launch starts: the lowest-numbered enabled core of its rectangle that is not in reset
(R212) and has not been released from one since the launch began to run (R210). -/
def State.lostCore (s : State) (l : Launch) : Option Nat :=
  ((s.rectCores l.info).filter fun c => (s.coreOf c).reset.isNone && !l.barred.contains c).foldl
    (fun (b : Option Nat) c => match b with
      | none => some c
      | some d => some (min c d)) none

/-- Is every enabled core idle for a launch (R81, R82)? A store still buffered counts as outstanding (log 26), and a launch with a
CTXLOST thread due that has a core to start on, or with a record of a lost thread still due, is not idle (DESIGN CHOICE: R81 names no such
condition; log 63). -/
def State.idleFor (s : State) (l : Launch) : Bool :=
  let mine (n : Nat) : Bool := n == l.id
  (s.all.all fun t => !mine t.launch) && (s.net.moves.all fun t => !mine t.launch) && l.spilled.isEmpty
    && ((s.allCores.filter fun c => s.enabled c.id).all fun c =>
      (c.deque.all fun e => !mine e.launch) && (c.sb.all fun e => !mine e.tid.launch) && !c.eng.worksFor l.id
      && (c.waits.all fun e => !mine e.launch) && (c.retries.all fun e => !mine e.2.launch))
    && (l.counts.all fun c => c.ovf == 0 || !s.enabled c.core) && (s.net.reqs.all fun r => !mine r.tid.launch)
    && (s.net.fe.all fun r => !mine r.e.launch) && (s.inc.msgs.all fun m => !mine m.launch)
    && (s.net.aggs.all fun a => a.parts.all fun p => !mine p.launch)
    && (s.mgmt.ctxlost.all fun x => !mine x.1 || l.info.tvec == 0 || (s.lostCore l).isNone) && (s.mgmt.unsaved.all fun x => !mine x.1.launch)

/-- The two sums of a sweep over the enabled cores (R82). -/
def State.sums (s : State) (l : Launch) : Nat × Nat :=
  (l.counts.filter fun c => s.enabled c.core).foldl (fun a c => (a.1 + c.sent, a.2 + c.recv)) (0, 0)

/-- LAUNCH_END (R82): barriers released, constant caches cleared, the status word written, dependences examined, saved
scratchpads of a tenant that has no launch left given up. -/
def State.endLaunch (s : State) (l : Launch) (code : Nat) : State :=
  let free (b : Barrier) : Barrier := if b.holder = some l.id then { b with holder := none, arrived := 0, first := 0 } else b
  let s1 := { s with
    bars := s.bars.map free
    launcher := { s.launcher with fifo := s.launcher.fifo.erase l.id } }.modLaunch l.id fun l => { l with status := .ended }
  let s2 := (s1.clearConst l).writeDone (s.originOf l.info) l.info.tenant l.info.done l.id code
  let s3 := s2.modCores fun c => { c with saved := c.saved.filter fun x => s2.holdsData c.id x.2 }
  s3.depScan

/-- One launch in a sweep. -/
def State.sweepOne (s : State) (id : Nat) : State :=
  match s.launchOf id with
  | none => s
  | some l =>
    let sums := s.sums l
    let now := if s.idleFor l && (l.anyLost || l.bySup || sums.1 == sums.2) then some sums else none
    if now.isSome && now == l.sweep then s.endLaunch l (if l.bySup then 3 else if l.anyLost then 2 else 1)
    else s.modLaunch id fun l => { l with sweep := now }

/-- TERMINATION_SWEEP (R82): at the next multiple of 1,024 cc. -/
def execTerminationSweep (s : State) : Answer :=
  let run := s.launcher.list.filter Launch.runs
  whenEnabled (!run.isEmpty)
    (run.foldl (fun s l => s.sweepOne l.id) { s with cc := (s.cc / 1024 + 1) * 1024 })

/-- A thread on its way to another core terminated (R204). -/
def State.terminateMoving (s : State) (t : Thread) : State :=
  ((s.abandonStack t.tid true).dropConsumer t.tid).loseThread t

/-- SUPERVISOR_ENDS_LAUNCH (R73, R82, R204): its threads are terminated, the spilled and migrating ones too, and its deque entries
given up. A launch that runs then ends with code 0x03 at the sweeps that find it idle (R82), when its stores have been performed
(R144); one that waits ends at once. -/
def execSupervisorEndsLaunch (launch : Nat) (s : State) : Answer :=
  match s.launchOf launch with
  | none => .fault .notEnabled
  | some l =>
    if !l.live then .fault .notEnabled
    else
      let s1 := (s.all.filter fun t => t.launch == launch).foldl (fun s t => s.terminate t) s
      let moving := s1.net.moves.filter fun t => t.launch == launch
      let s2 := moving.foldl (fun s t => s.terminateMoving t)
        { s1 with net := { s1.net with moves := s1.net.moves.filter fun t => t.launch != launch } }
      let s3 := s2.modCores fun c => { c with deque := c.deque.filter fun e => e.launch != launch }
      let none_ (c : CoreCount) : CoreCount := { c with ovf := 0 }
      let s4 := s3.modLaunch launch fun l => { l with spilled := [], bySup := true, sweep := none, counts := l.counts.map none_ }
      .next (if l.runs then s4 else s4.endLaunch l 3)

/-! ## CTXLOST (R212) -/

/-- The new thread of one loss, where it can start now: at TVEC, where TVEC is not 0 and the launch has not ended, in the first free position of
its core, for which a thread of lower priority may be removed. One that no core will ever take is given up. -/
def State.startLost (s : State) (y : Nat × Lost) : Option State :=
  let s1 := { s with mgmt := { s.mgmt with ctxlost := s.mgmt.ctxlost.erase y } }
  match (s.launchOf y.1).filter fun l => l.live && l.info.tvec != 0 with
  | none => some s1
  | some l =>
    match s1.lostCore l with
    | none => some s1
    | some c =>
      let s2 := if (s1.freePos c).isEmpty then s1.removeAll (s1.lowest c l.info.prio).toList else s1
      match (s2.freePos c).head?, (s2.freeFrames c).head? with
      | some p, some f =>
        let t := launchedThread l c f p (s.rectIndex l c * (l.info.tpc + 1) + p) (aligned l.info.tvec)
        let ev := y.2.core + y.2.threads % 2048 * 0x10000 + y.2.entries % 2048 * 2 ^ 32
        some (s2.addThread { t with tr := { t.tr with epc := l.info.tvec, ecause := 0x16, eval := BitVec.ofNat 64 ev } })
      | _, _ => none

/-- CTXLOST_THREAD_START (R212): the records of lost threads are written; then the new thread of the first loss that one can start for
starts. -/
def execCtxlostThreadStart (s : State) : Answer :=
  let s0 := s.writeLost
  match s0.mgmt.ctxlost.findSome? s0.startLost with
  | some t => .next t
  | none => whenEnabled (!s.mgmt.unsaved.isEmpty) s0

/-! ## Supervisor threads (R345) -/

/-- A supervisor thread as it starts. -/
def supThread (core frame pos : Nat) (entry : Word) : Thread :=
  { Thread.absent with
    live := true, core := core, frame := frame, pos := some pos, idx := frame, entry := entry
    g := ((Vector.replicate 16 0).set 1 (BitVec.ofNat 64 (dieOf core))).set 2 (BitVec.ofNat 64 pos)
    pc := aligned entry, st := 1 }

/-- The lowest free position of a core for a supervisor thread, a launched thread removed where there is none (R345). -/
def State.supPosition (s : State) (core : Nat) : State × Option Nat :=
  match (s.freePos core).head? with
  | some p => (s, some p)
  | none =>
    let s1 := s.removeAll (s.lowest core 32).toList
    (s1, (s1.freePos core).head?)

/-- SUPERVISOR_THREAD_RESTART (R345): a supervisor thread of the image's table starts, at boot or after its termination. -/
def execSupervisorThreadRestart (k : Nat) (s : State) : Answer :=
  match s.mgmt.restarts[k]? with
  | none => .fault .notEnabled
  | some e =>
    let used := (s.onCore e.core).map fun t => t.frame
    match ([62, 63].find? fun f => !used.contains f), s.supPosition e.core with
    | some f, (s1, some p) =>
      if (s.coreOf e.core).reset.isSome || !s.enabled e.core then .fault .notEnabled
      else .next ({ s1 with mgmt := { s1.mgmt with restarts := s1.mgmt.restarts.eraseIdx k } }.addThread
        (supThread e.core f p e.entry))
    | _, _ => .fault .notEnabled

end Sys2Proof.Machine
end

