-- ==== Sys2Proof/Machine/Vec.lean ====
section
/-! DEFINITION. The vector unit (R386-R396): streams, lane arithmetic, bodies and their iterations, held faults, and the
vector instructions. -/

namespace Sys2Proof.Machine

/-! ## Lane formats (R272, R387) -/

/-- Format number of a lane format (R170, R172). -/
def laneFmt : Lane → Nat
  | .f64 => 1
  | .f32 => 2
  | .f16 => 3
  | .bf16 => 4
  | .i32 => 16
  | .i16 => 15
  | .i8 => 11
  | .u8 => 12

def laneBits (f : Lane) : Nat := elemBits (laneFmt f)

def laneFloat (f : Lane) : Bool := laneFmt f ≤ 4

/-- The value of a lane. -/
def laneVal (f : Lane) (b : Nat) : FVal := if laneFloat f then decodeFloat (laneFmt f) b else ofInt (decodeInt (laneFmt f) b)

/-! ## The forms (R392) -/

/-- What a vector instruction computes. -/
inductive VKind where
  | add | sub | mul | fma | min | max | abs | neg | sel | scale | mov | bcast
  | cvt (rne nonsat : Bool)
  | cmp (c : VCond)
  | red (k : RedKind)
  | sfu (fn : SfuFn)
deriving DecidableEq, Repr

/-- A vector instruction: destination f0-f15 (none for VRED), sources in the order fa, fb, fd, lane formats of the sources and
of the result. -/
structure VForm where
  kind : VKind
  dst : Option Nat
  srcs : List Nat
  f : Lane
  fo : Lane
deriving DecidableEq, Repr

def v3 (k : VKind) (o : V3) : Option VForm := some ⟨k, some o.d.1, [o.a.1, o.b.1], o.f, o.f⟩
def v2 (k : VKind) (o : V2) : Option VForm := some ⟨k, some o.d.1, [o.a.1], o.f, o.f⟩
def vsfu (fn : SfuFn) (o : VsfuOp) : Option VForm :=
  let f : Lane := if o.b16 then .bf16 else .f32
  some ⟨.sfu fn, some o.d.1, [o.a.1], f, f⟩

/-- Lane format of VSCALE's field. -/
def scaleLane (f : Fin 4) : Lane :=
  match f with
  | 0 => .f64
  | 1 => .f32
  | 2 => .f16
  | _ => .bf16

/-- The form of a VEC instruction that joins a body. -/
def vform : Instr → Option VForm
  | .vadd o => v3 .add o
  | .vsub o => v3 .sub o
  | .vmul o => v3 .mul o
  | .vmin o => v3 .min o
  | .vmax o => v3 .max o
  | .vfma o => some ⟨.fma, some (8 + o.d.1), [o.a.1, o.b.1, 8 + o.d.1], o.f, o.f⟩
  | .vsel o => some ⟨.sel, some (8 + o.d.1), [o.a.1, o.b.1, 8 + o.d.1], o.f, o.f⟩
  | .vabs o => v2 .abs o
  | .vneg o => v2 .neg o
  | .vmov o => v2 .mov o
  | .vcvt o => some ⟨.cvt o.rne o.nonsat, some o.d.1, [o.a.1], o.f, o.x⟩
  | .vcmp o => some ⟨.cmp o.c, some (8 + o.d.1), [o.a.1, 8 + o.d.1], o.f, o.f⟩
  | .vred o => some ⟨.red o.k, none, [o.a.1], o.f, o.f⟩
  | .vex2 o => vsfu .ex2 o
  | .vlg2 o => vsfu .lg2 o
  | .vrcp o => vsfu .rcp o
  | .vrsq o => vsfu .rsq o
  | .vscale o => some ⟨.scale, some o.d.1, [o.a.1], scaleLane o.f, scaleLane o.f⟩
  | .vbcast o => some ⟨.bcast, some o.d.1, [], o.f, o.f⟩
  | _ => none

/-- Lanes of a form: of the wider of its formats (R387, R393). -/
def VForm.lanes (v : VForm) : Nat := 512 / max (laneBits v.f) (laneBits v.fo)

/-- Stream registers named: register, whether as destination, lane format. -/
def VForm.streams (v : VForm) : List (Nat × Bool × Lane) :=
  (v.srcs.filter fun r => decide (r < 8)).map (fun r => (r, false, v.f)) ++
    (v.dst.toList.filter fun r => decide (r < 8)).map fun r => (r, true, v.fo)

/-- Does a form trap on subnormal operands (R186, R392)? -/
def VForm.subn (v : VForm) : Bool :=
  laneFloat v.f && match v.kind with
    | .abs => false
    | .neg => false
    | .mov => false
    | .bcast => false
    | .sel => false
    | .sfu _ => false
    | _ => true

/-! ## Streams (R386) -/

/-- A stream as its registers give it: window, first element, spacing, counts, direction, strides, SBASE. -/
structure SGeo where
  w : Nat
  e0 : Nat
  unit : Nat
  n0 : Nat
  n1 : Nat
  n : Nat
  out : Bool
  s0 : Int
  s1 : Int
  s2 : Int
  base : Word
deriving DecidableEq, Repr

/-- Stream register r for a lane format, or the address of ENGF. -/
def sgeo (e : Engines) (r : Nat) (f : Lane) : Except Word SGeo :=
  let x (i : Nat) : Word := e.stream.toList.getD (3 * r + i) 0
  let va := (x 0).toNat
  if va < localBase || localBase + 32 * 0x80000 ≤ va then .error (x 0)
  else
    let w := (va - localBase) / 0x80000
    let off := (va - localBase) % 0x80000
    let unit := if w = 0 then laneBits f / 8 else if w = 1 then 8 else 4
    let n0 := fieldOf (x 1) 0 16 + 1
    let n1 := fieldOf (x 1) 16 16 + 1
    if !windowPresent w || off % unit ≠ 0 then .error (x 0)
    else .ok ⟨w, off / unit, unit, n0, n1, n0 * n1 * (fieldOf (x 1) 32 16 + 1), (x 1).getLsbD 48,
      intOf 21 (fieldOf (x 2) 0 21), intOf 21 (fieldOf (x 2) 21 21), intOf 21 (fieldOf (x 2) 42 21), x 0⟩

/-- Element k of a stream: its index in the window, or the address of ENGF. -/
def SGeo.elem (g : SGeo) (k : Nat) : Except Word Nat :=
  let q := k / g.n0
  let i : Int := g.e0 + (k % g.n0 : Nat) * g.s0 + (q % g.n1 : Nat) * g.s1 + (q / g.n1 : Nat) * g.s2
  let addr : Word := BitVec.ofInt 64 (localBase + g.w * 0x80000 + i * g.unit)
  if i < 0 || (0x80000 / g.unit : Nat) ≤ i then .error addr else .ok i.toNat

/-- Address of an element. -/
def SGeo.addr (g : SGeo) (i : Nat) : Word := BitVec.ofNat 64 (localBase + g.w * 0x80000 + i * g.unit)

/-- Bytes of an element's storage. -/
def SGeo.range (g : SGeo) (core i : Nat) : Nat × Nat :=
  if g.w = 0 then (scratchKey core (i * g.unit), g.unit) else elemRange core g.w i

/-- Bytes that a read of an element needs: also its block's scale. -/
def SGeo.ranges (g : SGeo) (core i : Nat) : List (Nat × Nat) :=
  g.range core i :: if isBlock g.w then [(scratchKey core (scaleByte g.w i), if g.w = 24 then 2 else 1)] else []

/-- The exact value of an element of a window. -/
def elemVal (m : Memory) (core w i : Nat) : FVal :=
  let r := elemRange core w i
  let raw := bits (m.read r.1 r.2) (elemBit w i % 8) (elemBits w)
  if isBlock w then decodeBlock w raw (m.read (scratchKey core (scaleByte w i)) (if w = 24 then 2 else 1))
  else if isInt w then ofInt (decodeInt w raw)
  else decodeFloat w (if w = 5 then raw % 2 ^ 19 else raw)

/-- A value narrowed into an element of a window (R91). -/
def narrowVal (m : Memory) (core w i : Nat) (v : FVal) : Nat × BitVec 5 :=
  if isBlock w then narrowBlock w (m.read (scratchKey core (scaleByte w i)) (if w = 24 then 2 else 1)) v
  else convertTo w 0 true v

/-- The launch of the thread whose body runs in the vector unit of a core. -/
def State.vecLaunch (s : State) (core : Nat) : Nat :=
  match (s.coreOf core).eng.vq with
  | b :: _ => ((s.threadAt core b.frame).map fun t => t.launch).getD 0
  | [] => 0

/-- An element read as a lane (R387): ENGF with its address where it meets poison, in the state that the read leaves. -/
def State.readElem (s : State) (core : Nat) (g : SGeo) (f : Lane) (i : Nat) :
    Except (State × Word) (State × Nat × BitVec 5) :=
  let rs := g.ranges core i
  let s1 := s.injectAll rs false
  if s1.mem.poisoned rs then .error (s1, g.addr i)
  else if g.w = 0 then .ok (s1, s1.mem.read (g.range core i).1 g.unit, 0)
  else
    let s2 := if s1.mem.reservedCode ⟨0, .scratch core g.w, 0, 0, i, 0⟩ then s1.countCore core 0x012 (s1.vecLaunch core) else s1
    let r := convertTo (laneFmt f) 0 true (elemVal s2.mem core g.w i)
    .ok (s2, r.1, r.2)

/-- A lane written as an element (R387, R91). -/
def State.writeElem (s : State) (core : Nat) (g : SGeo) (f : Lane) (i v : Nat) : State × BitVec 5 :=
  let r := g.range core i
  let s1 := s.injectAll [r] true
  if g.w = 0 then (s1.putBytes r.1 r.2 v, 0)
  else
    let (x, fl) := narrowVal s1.mem core g.w i (laneVal f v)
    let o := elemBit g.w i % 8
    let old := s1.mem.read r.1 r.2
    (s1.putBytes r.1 r.2 (old - bits old o (elemBits g.w) * 2 ^ o + x % 2 ^ elemBits g.w * 2 ^ o), fl)

/-! ## Lane arithmetic (R392-R394) -/

/-- VCMP on one lane. -/
def laneCmp (c : VCond) (f : Lane) (d a : Nat) : Nat × BitVec 5 :=
  let ones := 2 ^ laneBits f - 1
  let x := laneVal f d
  let y := laneVal f a
  let un := x.isNan || y.isNan
  let lt := !un && ltVal x y
  let gt := !un && ltVal y x
  let sig := if x.isSig || y.isSig then fInvalid else 0
  let any := if un then fInvalid else 0
  let r : Bool × BitVec 5 := match c with
    | .eq => (!un && !lt && !gt, sig)
    | .ne => (un || lt || gt, sig)
    | .lt => (lt, any)
    | .le => (!un && !gt, any)
    | .gt => (gt, any)
    | .ge => (!un && !lt, any)
  (if r.1 then ones else 0, r.2)

/-- Float lanes of the plain forms. -/
def laneFp (k : VKind) (f a b d : Nat) (x : Word) : Nat × BitVec 5 :=
  let top := 2 ^ (elemBits f - 1)
  match k with
  | .add => fAdd f 0 a b
  | .sub =>
    let r := addVal 0 (decodeFloat f a) (decodeFloat f b).neg
    let q := roundTo f 0 r.1
    (q.1, r.2 ||| q.2)
  | .mul => fMul f 0 a b
  | .fma => fMulAdd f 0 (decodeFloat f d) (decodeFloat f a) (decodeFloat f b)
  | .min => fMinMax f false a b
  | .max => fMinMax f true a b
  | .abs => (a % top, 0)
  | .neg => (a ^^^ top, 0)
  -- beyond 4,096 every scale gives the same zero or infinity
  | .scale => roundTo f 0 ((decodeFloat f a).scale (max (-4096) (min 4096 x.toInt)))
  | _ => (a, 0)

/-- Integer lanes of the plain forms, modulo 2^w. -/
def laneInt (k : VKind) (f : Lane) (a b d : Nat) : Nat :=
  let w := laneBits f
  let less := decodeInt (laneFmt f) a < decodeInt (laneFmt f) b
  let m := 2 ^ w
  match k with
  | .add => (a + b) % m
  | .sub => (a + m - b) % m
  | .mul => a * b % m
  | .fma => (d + a * b) % m
  | .min => if less then a else b
  | .max => if less then b else a
  | .abs => if decodeInt (laneFmt f) a < 0 then (m - a) % m else a
  | .neg => (m - a) % m
  | _ => a

/-- One lane of a form: `x` is the g value, `rm` the mode of a DYN VCVT. -/
def laneOp (v : VForm) (a b d : Nat) (x : Word) (rm : Nat) : Nat × BitVec 5 :=
  match v.kind with
  | .mov => (a, 0)
  | .bcast => (x.toNat % 2 ^ laneBits v.f, 0)
  | .sel => (if d ≠ 0 then a else b, 0)
  | .cmp c => laneCmp c v.f d a
  | .cvt rne nonsat => convertTo (laneFmt v.fo) (if rne then 0 else rm) (!nonsat) (laneVal v.f a)
  | .sfu fn => if laneFmt v.f = 4 then sfuFnB fn a else sfuFn fn a
  | .red _ => (a, 0)
  | k => if laneFloat v.f then laneFp k (laneFmt v.f) a b d x else (laneInt k v.f a b d, 0)

/-- One reduction step (R394). -/
def laneRed (k : RedKind) (f : Lane) (a b : Nat) : Nat × BitVec 5 :=
  let op : VKind := match k with
    | .sum => .add
    | .min => .min
    | .max => .max
  if laneFloat f then laneFp op (laneFmt f) a b 0 0 else (laneInt op f a b 0, 0)

/-- One round of pairs. -/
def redPairs (k : RedKind) (f : Lane) : List (Option Nat) → List (Option Nat) × BitVec 5
  | some x :: some y :: r =>
    let q := laneRed k f x y
    let t := redPairs k f r
    (some q.1 :: t.1, q.2 ||| t.2)
  | x :: y :: r =>
    let t := redPairs k f r
    (x.or y :: t.1, t.2)
  | l => (l, 0)

/-- The lanes combined in pairs until one is left (R394); `n` bounds the rounds. -/
def redAll (k : RedKind) (f : Lane) : Nat → List (Option Nat) → Option Nat × BitVec 5
  | 0, l => ((l.headD none), 0)
  | n + 1, l =>
    let t := redPairs k f l
    let u := redAll k f n t.1
    (u.1, t.2 ||| u.2)

/-- The resolution of a VRED (R394). -/
def redWord (f : Lane) (r : Nat) : Word :=
  match f with
  | .i32 => extendTo 4 true r
  | .i16 => extendTo 2 true r
  | .i8 => extendTo 1 true r
  | _ => BitVec.ofNat 64 r

/-! ## One member of a body in one iteration -/

/-- Chunks of streams read in the present iteration: register, lane format, lanes (Body.cur). -/
abbrev ChunkCache := List (Nat × Lane × List Nat)

/-- Active lanes of iteration j over n elements (all of them with no stream). -/
def activeLanes (lanes j : Nat) (n : Option Nat) : List Nat :=
  (List.range lanes).filter fun l => match n with
    | some n => decide (j * lanes + l < n)
    | none => true

/-- Change the engines of a core. -/
def State.modEng (s : State) (core : Nat) (f : Engines → Engines) : State := s.modCore core fun c => { c with eng := f c.eng }

/-- The lanes of a source register in iteration j. -/
def State.readLanes (s : State) (core lanes j : Nat) (n : Option Nat) (f : Lane) (cache : ChunkCache) (r : Nat) :
    Except (State × Word) (State × ChunkCache × List Nat) :=
  let e := (s.coreOf core).eng
  if 8 ≤ r then
    let v := (e.f.toList.getD (r - 8) 0).toNat
    .ok (s, cache, (List.range lanes).map fun l => bits v (laneBits f * l) (laneBits f))
  else match cache.find? fun x => x.1 == r && x.2.1 == f with
    | some x => .ok (s, cache, x.2.2)
    | none =>
      match sgeo e r f with
      | .error a => .error (s, a)
      | .ok g =>
        let step (acc : State × List Nat × BitVec 5) (l : Nat) : Except (State × Word) (State × List Nat × BitVec 5) :=
          if (n.map fun n => decide (j * lanes + l < n)).getD true then
            match g.elem (j * lanes + l) with
            | .error a => .error (acc.1, a)
            | .ok i => (acc.1.readElem core g f i).map fun x => (x.1, acc.2.1 ++ [x.2.1], acc.2.2 ||| x.2.2)
          else .ok (acc.1, acc.2.1 ++ [0], acc.2.2)
        match (List.range lanes).foldlM step (s, [], 0) with
        | .error a => .error a
        | .ok (s1, vs, fl) => .ok (s1.modEng core fun e => e.addV fl, (r, f, vs) :: cache, vs)

/-- Every source in order. -/
def State.readAll (s : State) (core lanes j : Nat) (n : Option Nat) (f : Lane) (cache : ChunkCache) :
    List Nat → Except (State × Word) (State × ChunkCache × List (List Nat))
  | [] => .ok (s, cache, [])
  | r :: rs =>
    match s.readLanes core lanes j n f cache r with
    | .error a => .error a
    | .ok (s1, c1, vs) => (s1.readAll core lanes j n f c1 rs).map fun x => (x.1, x.2.1, vs :: x.2.2)

/-- The result lanes written: to a value register, with inactive lanes 0, or to its stream; every address is checked before
any is written. -/
def State.writeLanes (s : State) (core lanes j r : Nat) (f : Lane) (out : List (Nat × Nat)) : Except Word State :=
  if 8 ≤ r then
    let v := out.foldl (fun v x => v + x.2 % 2 ^ laneBits f * 2 ^ (laneBits f * x.1)) 0
    .ok (s.modEng core fun e => { e with f := if h : r - 8 < 8 then e.f.set (r - 8) (BitVec.ofNat 512 v) else e.f })
  else match sgeo (s.coreOf core).eng r f with
    | .error a => .error a
    | .ok g =>
      match out.mapM fun x => (g.elem (j * lanes + x.1)).map fun i => (i, x.2) with
      | .error a => .error a
      | .ok l =>
        let step (t : State × BitVec 5) (x : Nat × Nat) : State × BitVec 5 :=
          let y := t.1.writeElem core g f x.1 x.2
          (y.1, t.2 ||| y.2)
        let t := l.foldl step (s, 0)
        .ok (t.1.modEng core fun e => e.addV t.2)

/-- A member that computes lane by lane: its active lanes computed from its sources and written, or the address of a fault. -/
def State.vecWrite (s : State) (core j : Nat) (n : Option Nat) (v : VForm) (m : VecIns) (ops : List (List Nat)) : Except Word State :=
  let opnds (l i : Nat) : Nat := (ops.getD i []).getD l 0
  -- fd is the second source of VCMP and the third of VFMA and VSEL
  let dIdx : Nat := match v.kind with
    | .cmp _ => 1
    | _ => 2
  let rs := (activeLanes v.lanes j n).map fun l => (l, laneOp v (opnds l 0) (opnds l 1) (opnds l dIdx) m.ga m.rm)
  let fl : BitVec 5 := rs.foldl (fun f x => f ||| x.2.2) 0
  (s.writeLanes core v.lanes j (v.dst.getD 0) v.fo (rs.map fun x => (x.1, x.2.1))).map fun t => t.modEng core fun e => e.addV fl

/-- One member in iteration j: SUBN with the chunk, or ENGF with an address, in the state that its reads leave, without their flags;
else the state after it (R391, R392, R395). DESIGN CHOICE (log 19): R186's subnormal operand is the lane as it stands after the read's
conversion, so a value that only its stored form has subnormal does not trap, and one that only the lane has does. -/
def State.vecMember (s : State) (core j : Nat) (n : Option Nat) (cache : ChunkCache) (m : VecIns) :
    Except (State × Nat × Word) (State × ChunkCache × VecIns) :=
  match vform m.instr with
  | none => .ok (s, cache, m)
  | some v =>
    let faults (t : State) (c : Nat) (a : Word) : Except (State × Nat × Word) (State × ChunkCache × VecIns) :=
      .error (t.modEng core fun e => { e with vflags := (s.coreOf core).eng.vflags }, c, a)
    let lanes := v.lanes
    let act := activeLanes lanes j n
    match s.readAll core lanes j n v.f cache v.srcs with
    | .error x => faults x.1 cENGF x.2
    | .ok (s1, c1, ops) =>
      let sub (o : List Nat) : Bool := act.any fun l => isSubnormal (laneFmt v.f) (o.getD l 0)
      if v.subn && ops.any sub && m.assist = 0 then faults s1 cSUBN (BitVec.ofNat 64 j)
      else
        let m1 := { m with assist := if m.assist = 1 then 0 else m.assist }
        let opnds (l i : Nat) : Nat := (ops.getD i []).getD l 0
        match v.kind with
        | .red k =>
          let step (t : List (Option Nat) × BitVec 5) (l : Nat) : List (Option Nat) × BitVec 5 :=
            match t.1.getD l none with
            | none => (t.1.set l (some (opnds l 0)), t.2)
            | some x =>
              let q := laneRed k v.f x (opnds l 0)
              (t.1.set l (some q.1), t.2 ||| q.2)
          let acc0 := if m.acc.isEmpty then List.replicate lanes none else m.acc
          let t := act.foldl step (acc0, 0)
          .ok (s1.modEng core fun e => e.addV t.2, c1, { m1 with acc := t.1 })
        | _ =>
          match s1.vecWrite core j n v m ops with
          | .error a => faults s1 cENGF a
          | .ok s2 => .ok (s2, c1, m1)

/-- The form of a member that the SFU computes (R397). -/
def VecIns.sfuForm (m : VecIns) : Option VForm :=
  (vform m.instr).filter fun v => match v.kind with
    | .sfu _ => true
    | _ => false

/-- Members in order, until one faults or is the SFU's: the state, the members as they are then, how many have been done, what
has been read of the streams, and the fault. -/
def State.vecLoop (core j : Nat) (n : Option Nat) : List VecIns → State → ChunkCache → List VecIns →
    State × List VecIns × Nat × ChunkCache × Option (Nat × Word)
  | [], s, c, acc => (s, acc.reverse, acc.length, c, none)
  | m :: r, s, c, acc =>
    if m.sfuForm.isSome then (s, acc.reverse ++ m :: r, acc.length, c, none)
    else match s.vecMember core j n c m with
      | .error flt => (flt.1, acc.reverse ++ m :: r, acc.length, c, some flt.2)
      | .ok (s1, c1, m1) => State.vecLoop core j n r s1 c1 (m1 :: acc)

/-! ## Bodies (R388-R391) -/

/-- The checks of R391: lanes and elements of a body, or the place of the faulting member and the address. -/
def bodyCheck (e : Engines) (b : Body) : Except (Nat × Word) (Nat × Option Nat) :=
  let vs := (b.ins.zipIdx).filterMap fun x => (vform x.1.instr).map fun v => (x.2, v)
  let lanes := (vs.head?.map fun x => x.2.lanes).getD 8
  match vs.find? fun x => x.2.lanes != lanes with
  | some x => .error (x.1, 0)
  | none =>
    let named := vs.flatMap fun x => x.2.streams.map fun y => (x.1, y)
    let step (n : Option Nat) (x : Nat × Nat × Bool × Lane) : Except (Nat × Word) (Option Nat) :=
      match sgeo e x.2.1 x.2.2.2 with
      | .error a => .error (x.1, a)
      | .ok g => if g.out != x.2.2.1 || n.any fun k => k != g.n then .error (x.1, g.base) else .ok (some g.n)
    (named.foldlM step none).map fun n => (lanes, n)

/-- Chunks of a body. -/
def chunksOf (lanes : Nat) (n : Option Nat) : Nat := match n with
  | some n => (n + lanes - 1) / lanes
  | none => 1

/-- Keys of the scratchpad words that some members write in chunk j. -/
def wordsWritten (e : Engines) (core lanes j : Nat) (n : Option Nat) (ms : List VecIns) : List Nat :=
  ms.flatMap fun m => match vform m.instr with
    | none => []
    | some v => match v.dst with
      | none => []
      | some r =>
        if 8 ≤ r then []
        else match sgeo e r v.fo with
          | .error _ => []
          | .ok g => (activeLanes lanes j n).flatMap fun l => match g.elem (j * lanes + l) with
            | .error _ => []
            | .ok i =>
              let x := wordsOf (g.range core i)
              (List.range (x.2 / 8)).map fun k => x.1 + 8 * k

/-- Words set full (R92), with the passes over their entries (R320). -/
def State.fillWords (s : State) (ks : List Nat) : State :=
  ks.eraseDups.foldl (fun s k => if s.mem.isFull k then s else s.setWord k true) s

/-- The words of a body that stops after `done` members of its chunk: written, not yet full because a later write was to
come. -/
def stoppedWords (e : Engines) (core : Nat) (b : Body) : List Nat :=
  match bodyCheck e b with
  | .error _ => []
  | .ok (lanes, n) =>
    let later := wordsWritten e core lanes b.chunk n (b.ins.drop b.done) ++
      ((List.range (chunksOf lanes n - (b.chunk + 1))).flatMap fun k => wordsWritten e core lanes (b.chunk + 1 + k) n b.ins)
    let early := (List.range b.chunk).flatMap fun k => wordsWritten e core lanes k n b.ins
    wordsWritten e core lanes b.chunk n (b.ins.take b.done) ++ early.filter fun k => later.contains k

/-- A fault recorded and held (R395). -/
def State.holdFault (s : State) (core : Nat) (b : Body) (idx cause : Nat) (a : Word) : State :=
  let pc := (b.ins[idx]?.map fun m => m.pc).getD 0
  s.modEng core fun e => { e with held := some ⟨pc, b.chunk, cause, a, false, b.frame, idx⟩ }

/-- The first body replaced, or removed. -/
def State.setHead (s : State) (core : Nat) (b : Option Body) : State :=
  (s.modEng core fun e => { e with vq := b.toList ++ e.vq.tail }).setBusy core

/-- VREDs of a body that has run resolve (R394, R399). -/
def State.resolveReds (s : State) (core : Nat) (ms : List VecIns) : State :=
  ms.foldl (fun s m => match m.fut, (vform m.instr).map fun v => (v.kind, v.f) with
    | some id, some (.red k, f) =>
      let r := redAll k f 6 m.acc
      (s.modEng core fun e => e.addV r.2).resolve core id .done (redWord f (r.1.getD 0)) 0
    | _, _ => s) s

/-- Have the stores of a frame older than `num` been performed for its operation (R142), with its atomics in flight, the accesses that it
has acquired before, and those stores of siblings that it may have acquired at core scope (R413)? -/
def State.storesBefore (s : State) (core frame num : Nat) : Bool :=
  let mine (e : SbEntry) : Bool := e.frame == frame || (e.forwards && decide (e.num < s.performed core 1))
  ((s.coreOf core).sb.all fun e => !(mine e && decide (e.num < num))) &&
    ((s.sentStef core).all fun e => !(e.frame == frame && decide (e.tok < num))) && !s.writesOut core frame num &&
    (s.threadAt core frame).all fun t => !t.acquiring

/-- SPOS of the streams that a body names (R383). -/
def State.setSpos (s : State) (core j : Nat) (b : Body) : State :=
  let named := b.ins.flatMap fun m => match vform m.instr with
    | some v => v.streams.map fun x => x.1
    | none => []
  s.modEng core fun e => { e with spos := named.foldl (fun p r => p.set! r j) e.spos }

/-- A body uses its streams no more: what their SPOS then reads is left open (log 8). -/
def State.idleSpos (s : State) (core : Nat) (b : Body) : State :=
  let (k, s1) := s.fresh
  s1.setSpos core (Config.idleSpos k).toNat b

/-- VECTOR_BODY_START (R389, R391): the first entry of the queue begins. -/
def execVectorBodyStart (core : Nat) (s : State) : Answer :=
  match (s.coreOf core).eng.vq with
  | [] => .fault .notEnabled
  | b :: _ =>
    whenEnabled (!b.started && s.storesBefore core b.frame b.num) ((s.setHead core (some { b with started := true })).setSpos core b.chunk b)

/-- An engine operation of a launch completed (R78). -/
def State.countOp (s : State) (launch : Nat) : State :=
  s.modLaunch launch fun l => if l.measured s.cc then { l with ops := l.ops + 1 } else l

/-- A cancelled body stops at its chunk (R204): of its members only the VREDs run on, in the name of no thread, and their results are
discarded. -/
def State.stopBody (s : State) (core : Nat) (b : Body) : State :=
  let red (m : VecIns) : Bool := m.fut.isSome
  let s1 := s.fillWords (stoppedWords (s.coreOf core).eng core b)
  match b.ins.filter red with
  | [] => (s1.setHead core none).idleSpos core b
  | ms => s1.setHead core (some { b with ins := ms, done := ((b.ins.take b.done).filter red).length, frame := 64, dying := false })

/-- A fault of the first body, whose chunk it ends: held for its thread (R395), or the end of a body that runs on in the name of no
thread. -/
def State.bodyFault (s : State) (core : Nat) (b : Body) (idx cause : Nat) (a : Word) : State :=
  let b1 := { b with cur := none, wait := false }
  let s1 := s.setHead core (some b1)
  if b.dying then s1.stopBody core b1
  else if b.frame = 64 then (s1.setHead core none).idleSpos core b1
  else s1.holdFault core b1 idx cause a

/-- The present member of a chunk makes its entry in the SFU queue, with its operands as they stand now; the vector unit has at most 4
there (R397). -/
def State.sfuEnter (s : State) (core lanes : Nat) (n : Option Nat) (b : Body) (v : VForm) : Answer :=
  let q := (s.coreOf core).eng.sfu
  let enter (t : State) (c : ChunkCache) (ops : List Nat) (bad : Option Word) : State :=
    (t.setHead core (some { b with cur := some c, wait := true })).modEng core fun e =>
      { e with sfu := e.sfu ++ [⟨b.frame, 0, 0, 0, true, ops, bad⟩] }
  let c := b.cur.getD []
  whenEnabled (decide ((q.filter fun x => x.vec).length < 4) && decide (q.length < 16))
    (match s.readAll core lanes b.chunk n v.f c v.srcs with
      | .error x => enter x.1 c [] (some x.2)
      | .ok (t, c1, ops) => enter t c1 (ops.headD []) none)

/-- An entry of the vector unit at the head of the SFU queue: the member that waits for it has its lanes computed and written, or, where
the read of them met a fault, faults (R398). -/
def State.sfuChunk (s : State) (core : Nat) (x : SfuEntry) : State :=
  let e := (s.coreOf core).eng
  match e.vq with
  | [] => s
  | b :: _ =>
    match x.bad, b.ins[b.done]?, bodyCheck e b with
    | none, some m, .ok (_, n) =>
      match m.sfuForm.map fun v => s.vecWrite core b.chunk n v m [x.ops] with
      | some (.ok t) => t.setHead core (some { b with done := b.done + 1, wait := false })
      | some (.error a) => s.bodyFault core b b.done cENGF a
      | none => s
    | bad, _, _ => s.bodyFault core b b.done cENGF (bad.getD 0)

/-- VECTOR_CHUNK (R391): one iteration of the running body, or what is left of it after a held fault or an SFU member; a member that the
SFU computes makes its entry there and is waited for (R397). A cancelled body stops between its chunks (R204). -/
def execVectorChunk (core : Nat) (s : State) : Answer :=
  let e := (s.coreOf core).eng
  match e.vq, e.held with
  | b :: _, none =>
    if !b.started || b.wait then .fault .notEnabled
    else if b.dying && b.cur.isNone then .next (s.stopBody core b)
    else match bodyCheck e b with
      | .error x => .next (s.bodyFault core b x.1 cENGF x.2)
      | .ok (lanes, n) =>
        let r := State.vecLoop core b.chunk n (b.ins.drop b.done) s (b.cur.getD []) []
        let b1 := { b with ins := b.ins.take b.done ++ r.2.1, done := b.done + r.2.2.1, cur := some r.2.2.2.1 }
        match r.2.2.2.2, (b1.ins[b1.done]?).bind VecIns.sfuForm with
        | some flt, _ => .next (r.1.bodyFault core b1 b1.done flt.1 flt.2)
        | none, some v => if b1.done = b.done then s.sfuEnter core lanes n b v else .next (r.1.setHead core (some b1))
        | none, none =>
          let last := decide (chunksOf lanes n ≤ b.chunk + 1)
          let later := (List.range (chunksOf lanes n - (b.chunk + 1))).flatMap fun k =>
            wordsWritten e core lanes (b.chunk + 1 + k) n b.ins
          let now := (wordsWritten e core lanes b.chunk n b.ins).filter fun k => !later.contains k
          let s1 := (r.1.fillWords now).setSpos core (b.chunk + 1) b1
          if last then .next ((((s1.setHead core none).resolveReds core b1.ins).countOp b.launch).idleSpos core b1)
          else .next (s1.setHead core (some { b1 with chunk := b.chunk + 1, done := 0, cur := none }))
  | _, _ => .fault .notEnabled

/-! ## Held faults (R395) -/

/-- The trap of a held fault taken by the issuing thread. -/
def State.deliverFault (s : State) (h : VHeld) : State :=
  let s1 := s.modEng s.core.id fun e => { e with held := some { h with delivered := true } }
  let s2 := if h.cause = cSUBN then s1.countCore s.core.id 0x013 s.thr.launch else s1
  s2.trap (cause h.cause (if h.cause = cSUBN then BitVec.ofNat 64 h.chunk else h.addr))

/-- The held fault that a thread has still to take. -/
def State.faultOf (s : State) (t : Thread) : Option VHeld :=
  (s.coreOf t.core).eng.held.filter fun h => !h.delivered && h.frame == t.frame

/-- Does a thread stand where a held fault is delivered: at an instruction that waits unissued for a unit (R388, R363: code 0), at
VFENCE, or at the handle of a VRED of the held body or a later one, the open one too? -/
def State.parkedOnHeld (s : State) (t : Thread) : Bool :=
  t.park.any fun p => p.code == 0 || p.code == 23 || (p.code == 18 &&
    (((s.coreOf t.core).eng.vq ++ (s.coreOf t.core).eng.coll.toList).any fun b => b.ins.any fun m => m.fut.any fun id =>
      t.g.toList.getD p.arg.toNat 0 == handleOf t.core id))

/-- VECTOR_FAULT_DELIVERY (R395): the thread takes the trap at the instruction it would issue next. -/
def execVectorFaultDelivery (core frame : Nat) (s : State) : Answer :=
  match s.threadAt core frame with
  | none => .fault .notEnabled
  | some t =>
    match s.faultOf t with
    | none => .fault .notEnabled
    | some h =>
      whenEnabled (t.pos.isSome && t.migr.isNone && (t.park.isNone || s.parkedOnHeld t))
        (s.asThread core frame fun s => (s.modThr Thread.unpark).deliverFault h)

/-- The held instruction goes on: RETRY, or ASSIST 1 or 2 for SUBN; on ENGF each acts as RETRY, and an ASSIST 2 chosen before stands. -/
def State.resumeHeld (s : State) (core choice : Nat) : State :=
  match (s.coreOf core).eng.held with
  | none => s
  | some h =>
    s.modEng core fun e => { e with
      held := none
      vq := e.vq.modifyHead fun b => { b with ins := b.ins.modify h.idx fun m =>
        { m with assist := if h.cause = cSUBN then choice else m.assist } } }

/-- DISCARD (R395): the body of the held instruction and every later entry dropped, their VREDs cancelled. -/
def State.discardHeld (s : State) (core : Nat) : State :=
  let e := (s.coreOf core).eng
  match e.held, e.vq with
  | some _, b :: _ =>
    let ids := e.vq.flatMap fun b => b.ins.filterMap fun m => m.fut
    let s1 := s.modEng core fun e => { e with
      held := none, vq := []
      futs := e.futs.map fun f => if ids.contains f.id && f.status == .pending then { f with status := .cancelled } else f }
    ((s1.fillWords (stoppedWords e core b)).setBusy core).idleSpos core b
  | _, _ => s

/-- The choice an ESET to VRSM makes (R395). -/
def State.vrsm (s : State) (core choice : Nat) : State :=
  if choice = 3 then s.discardHeld core else s.resumeHeld core choice

/-- An ERET while a delivered fault is held acts as RETRY (R395). -/
def State.eretHeld (s : State) : State :=
  match s.core.eng.held with
  | some h => if h.delivered && h.frame = s.thr.frame then s.resumeHeld s.core.id 0 else s
  | none => s

/-- The ESET to VRSM of a VRSM_* row, by the anchored issuing thread: ignored while nothing is held (R385). -/
def vrsmStep (choice : Nat) (s : State) : Answer :=
  withThread s (if !s.thr.anchored then s.illegal (.eset ⟨false, .gz, 0x43⟩) else (s.vrsm s.core.id choice).retire false)

def execVrsmRetry (s : State) : Answer := vrsmStep 0 s
def execVrsmAssistOne (s : State) : Answer := vrsmStep 1 s
def execVrsmAssistRest (s : State) : Answer := vrsmStep 2 s
def execVrsmDiscard (s : State) : Answer := vrsmStep 3 s

/-! ## Issue (R388-R390) -/

/-- Ownership of a VEC instruction (R41, R390): anchored, and not inside a handler while its body is open. -/
def State.vecGate (s : State) (i : Instr) (t : State) : State :=
  let mine := s.core.eng.coll.any fun b => b.frame == s.thr.frame
  if !s.thr.anchored || (mine && (s.thr.tr.inE || s.thr.tr.inS)) then s.illegal i else t

/-- Would a VEC instruction complete a body while the queue is full (R388)? -/
def State.vecFull (s : State) : Bool :=
  (match s.core.eng.coll with
    | some b => b.awaited ≤ 1
    | none => true) && 2 ≤ s.core.eng.vq.length

/-- A VEC instruction joins the open body, or makes a body of one. -/
def State.vecEnter (s : State) (m : VecIns) : State :=
  let e := s.core.eng
  let f := s.thr.frame
  let e1 : Engines := match e.coll with
    | some b =>
      let b1 := { b with ins := b.ins ++ [m], awaited := b.awaited - 1, num := s.core.sbNum }
      if b1.awaited = 0 then { e with coll := none, vq := e.vq ++ [b1] } else { e with coll := some b1 }
    | none => { e with vq := e.vq ++ [⟨f, s.thr.launch, s.core.sbNum, [m], 0, false, 0, 0, false, none, false⟩] }
  { s with core := { s.core with eng := e1 } }.setBusy s.core.id

/-- A vector form without a handle; the instruction waits unissued while the queue is full. -/
def vecOp (i : Instr) (sw : Bool) (src : Src) (s : State) : Answer :=
  withThread s (s.vecGate i (s.gather1 src .gz fun s1 x =>
    if s1.vecFull then s.parkOn 0 0 1
    else (s1.vecEnter ⟨i, x, fieldOf s1.thr.st 2 3, s1.thr.pc, none, [], 0⟩).retire sw))

def execVadd (o : V3) (s : State) : Answer := vecOp (.vadd o) o.sw .gz s
def execVsub (o : V3) (s : State) : Answer := vecOp (.vsub o) o.sw .gz s
def execVmul (o : V3) (s : State) : Answer := vecOp (.vmul o) o.sw .gz s
def execVfma (o : V3v) (s : State) : Answer := vecOp (.vfma o) o.sw .gz s
def execVmin (o : V3) (s : State) : Answer := vecOp (.vmin o) o.sw .gz s
def execVmax (o : V3) (s : State) : Answer := vecOp (.vmax o) o.sw .gz s
def execVabs (o : V2) (s : State) : Answer := vecOp (.vabs o) o.sw .gz s
def execVneg (o : V2) (s : State) : Answer := vecOp (.vneg o) o.sw .gz s
def execVcvt (o : VcvtOp) (s : State) : Answer := vecOp (.vcvt o) o.sw .gz s
def execVcmp (o : VcmpOp) (s : State) : Answer := vecOp (.vcmp o) o.sw .gz s
def execVsel (o : V3v) (s : State) : Answer := vecOp (.vsel o) o.sw .gz s
def execVex2 (o : VsfuOp) (s : State) : Answer := vecOp (.vex2 o) o.sw .gz s
def execVlg2 (o : VsfuOp) (s : State) : Answer := vecOp (.vlg2 o) o.sw .gz s
def execVrcp (o : VsfuOp) (s : State) : Answer := vecOp (.vrcp o) o.sw .gz s
def execVrsq (o : VsfuOp) (s : State) : Answer := vecOp (.vrsq o) o.sw .gz s
def execVscale (o : VscaleOp) (s : State) : Answer := vecOp (.vscale o) o.sw o.b.src s
def execVmov (o : V2) (s : State) : Answer := vecOp (.vmov o) o.sw .gz s
def execVbcast (o : VbcastOp) (s : State) : Answer := vecOp (.vbcast o) o.sw o.a.src s

/-- VRED (R394, R402): a record is taken and its handle written. -/
def execVred (o : VredOp) (s : State) : Answer :=
  withThread s (s.vecGate (.vred o) (s.gather [] .gz fun s1 _ =>
    if s1.vecFull then s.parkOn 0 0 1
    else match s1.freeRecord with
      | none => s.parkOn 0 0 9
      | some id =>
        ((s1.vecEnter ⟨.vred o, 0, 0, s1.thr.pc, some id, [], 0⟩).newFuture o.d id none).retire o.sw))

/-- VLOOP (R389): opens a body of n members. -/
def execVloop (o : VloopOp) (s : State) : Answer :=
  withThread s (s.vecGate (.vloop o) (s.gather [] .gz fun s1 _ =>
    if s1.core.eng.coll.any fun b => b.frame == s1.thr.frame then s.illegal (.vloop o)
    else
      let b : Body := ⟨s1.thr.frame, s1.thr.launch, s1.core.sbNum, [], o.n.toNat, false, 0, 0, false, none, false⟩
      ((s1.modEng s1.core.id fun e => { e with coll := some b }).setBusy s1.core.id).retire o.sw))

/-- VFENCE (R396). -/
def execVfence (o : S0) (s : State) : Answer :=
  withThread s (s.vecGate (.vfence o) (s.gather [] .gz fun s1 _ =>
    if s1.core.eng.coll.any fun b => b.frame == s1.thr.frame then s.illegal (.vfence o)
    else if s1.core.eng.vq.any fun b => b.frame == s1.thr.frame then s.parkOn 23 0 0
    else s1.retire o.sw))

end Sys2Proof.Machine
end

