-- ==== Sys2Proof/Machine/Copy.lean ====
section
/-! DEFINITION. The copy engine (R113-R116, R178, R399-R401): four channels of a core, CPY, CPYX and CPTR. -/

namespace Sys2Proof.Machine

/-! ## Channels -/

/-- Change a channel of a core. -/
def State.modCh (s : State) (core : Nat) (ch : Fin 4) (f : Channel → Channel) : State :=
  s.modEng core fun e => { e with ch := e.ch.set ch (f e.ch[ch]) }

def State.chOf (s : State) (core : Nat) (ch : Fin 4) : Channel := (s.coreOf core).eng.ch[ch]

/-- A channel number named by a step. -/
def chan (ch : Nat) : Option (Fin 4) := if h : ch < 4 then some ⟨ch, h⟩ else none

/-- Bytes per element: CPYX writes E4M3 bytes (R399). -/
def CopyOp.size (o : CopyOp) : Nat := if o.cx8 then 1 else 2 ^ fieldOf o.ctl 0 2

/-- Elements of a copy (R399). -/
def CopyOp.total (o : CopyOp) : Nat :=
  let n0 := fieldOf o.geo 0 32
  if o.cx8 then 32 * n0 else n0 * (fieldOf o.geo 32 16 + 1) * (fieldOf o.geo 48 16 + 1)

/-- Address of source element k (R399). -/
def CopyOp.srcOf (o : CopyOp) (k : Nat) : Word :=
  let n0 := fieldOf o.geo 0 32
  let n1 := fieldOf o.geo 32 16 + 1
  let q := k / n0
  o.src + BitVec.ofNat 64 (k % n0) * o.str0 + BitVec.ofNat 64 (q % n1) * o.str1 + BitVec.ofNat 64 (q / n1) * o.str2

/-- Address of destination element k. -/
def CopyOp.dstOf (o : CopyOp) (k : Nat) : Word := o.dst + BitVec.ofNat 64 (k * o.size)

/-- The scratchpad key of an address that names raw bytes of a scratchpad. -/
def rawScratch (core : Nat) (a : Word) : Option Nat :=
  let va := a.toNat
  if localBase ≤ va && va < localBase + 0x80000 then some (scratchKey core (va - localBase))
  else if isScratchKey va then some va else none

/-! ## Accesses of a copy -/

/-- An address checked for a copy: the place under the stricter of the page's policy and the channel's (R122). Every
refusal gives ENGF with that address (R399). -/
def State.copyAccess (s : State) (core : Nat) (o : CopyOp) (a : Word) (acc : Acc) : Except Word (Loc × Option Xlate) :=
  match s.access (s.copyThread core o) a acc with
  | .error _ => .error a
  | .ok (l, x) =>
    match l.place, acc.w with
    | .peer _, true => .error a
    | .scratch _ _, _ => .ok (l, x)
    | .weight _, _ => .ok (l, x)
    | _, _ => .ok ({ l with pol := max l.pol (fieldOf o.ctl 2 2) }, x)

/-- What the translation of a copy's access leaves (R118, R120). -/
def State.copyTouch (s : State) (core : Nat) (o : CopyOp) (x : Option Xlate) (store : Bool) : State :=
  let t := s.copyThread core o
  match x with
  | some x => s.touch core (s.tableOf t) x store t.launch
  | none => s

/-- The allocation hint that a copy's access carries: 1 L1, 2 L2, 3 MSC, on a WB page alone (R123). -/
def CopyOp.hint (o : CopyOp) (l : Loc) : Nat := if l.cached then fieldOf o.ctl 4 3 else 0

/-- The line of a copy's access obtained where it is performed (R45, R150), with the hint MSC in the place of its page's (R123). An access
outside the core counts no message (R400). -/
def State.copyReach (s : State) (core : Nat) (o : CopyOp) (l : Loc) (excl : Bool) : State :=
  s.reach core (if o.hint l = 3 then { l with msch := 1 } else l) excl (s.copyThread core o).launch

/-- The level that the hint of a copy's access names keeps its line (R123): L1 or L2 of the core's die, where it may cache the line, or, of
the channel's own lines, the MSC alone. -/
def State.copyKeep (s : State) (core : Nat) (o : CopyOp) (l : Loc) : State :=
  let line := l.key / 64
  let launch := (s.copyThread core o).launch
  -- the line out of the core's L1, with its permission
  let off := (s.loseResv line fun t => t.core == core).modCore core fun c => { c with l1 := c.l1.filter fun y => y.line != line }
  match o.hint l, (s.coreOf core).l1Find line with
  | 1, none => if s.lineFree (dieOf core) line false then s.prefetch core l false launch else s
  | 2, none => if s.lineFree (dieOf core) line false then s.prefetch core l true launch else s
  | 2, some p => off.putL2 (dieOf core) line p
  | 3, some p =>
    if s.needsSeam (dieOf core) line then off.putL2 (dieOf core) line p
    else
      let t := if p.dirty then off.writeBack line else off
      if t.msc.any fun x => x.block == line * 64 / 512 then t else t.mscRead line 1 launch
  | _, _ => s

/-- The reading that a copy has made of the 8-byte word at a place (R116). -/
def CopyOp.held (o : CopyOp) (a : Nat) : Option (Nat × Nat × Bool) := o.buf.find? fun b => b.1 == a / 8 * 8

/-- The words of a range read, those that the copy has not read yet: a store to one is seen by all the elements that lie in it or by
none (R116). -/
def CopyOp.take (o : CopyOp) (m : Memory) (r : Nat × Nat) : CopyOp :=
  let w := wordsOf r
  (List.range (w.2 / 8)).foldl (fun o i =>
    let a := w.1 + 8 * i
    if (o.held a).isSome then o else { o with buf := (a, m.read a 8, m.isPoisoned a) :: o.buf }) o

/-- n bytes from a on, of which those of a word that the copy has read come from that reading (R116). -/
def CopyOp.bytes (o : CopyOp) (m : Memory) (a n : Nat) : Nat :=
  let byte (i : Nat) : Nat := match o.held (a + i) with
    | some b => b.2.1 / 256 ^ ((a + i) % 8) % 256
    | none => (getByte m.bytes (a + i)).toNat
  (List.range n).foldr (fun i v => byte i + 256 * v) 0

/-- The value that a copy reads at a place: raw bytes, or the element that a format window shows (R90). -/
def CopyOp.value (o : CopyOp) (m : Memory) (l : Loc) (width : Nat) : Nat :=
  match l.place with
  | .scratch c w =>
    if w < 2 then o.bytes m l.key width
    else
      let r := elemRange c w l.elem
      (widenCode w (bits (o.bytes m r.1 r.2) (elemBit w l.elem % 8) (elemBits w))
        (if isBlock w then o.bytes m (scratchKey c (scaleByte w l.elem)) (if w = 24 then 2 else 1) else 0)).1
  | _ => o.bytes m l.key width

/-- Source bytes of a copy: value and poison (R107). -/
def State.copyRead (s : State) (core : Nat) (o : CopyOp) (l : Loc) (width : Nat) : State × CopyOp × Nat × Bool :=
  let rs := l.ranges width
  let s1 := ((s.copyReach core o l false).injectAll rs false).copyKeep core o l
  let s2 := if s1.mem.reservedCode l then s1.countCore core 0x012 o.launch else s1
  let o1 := rs.foldl (fun o r => o.take s2.mem r) o
  let bad (a : Nat) : Bool := (o1.held a).any fun b => b.2.2
  (s2, o1, o1.value s2.mem l width, rs.any fun r => bad r.1 || bad (r.1 + r.2 - 1))

/-! ## CX8 (R177, R178) -/

/-- One token from bit p of the stream: the zigzag value and the next bit, none when malformed. `bit i` is bit i of the
stream, most significant of each byte first. -/
def cx8Token (bit : Nat → Nat) (p : Nat) : Option (Nat × Nat) :=
  match (List.range 9).find? fun z => bit (p + z) == 1 with
  | none => none
  | some z => some ((List.range (z + 1)).foldl (fun v i => 2 * v + bit (p + z + i)) 0 - 1, p + 2 * z + 1)

/-- An E4M3 element of base b, zigzag value v and a nibble (R178). -/
def cx8Elem (b v nib : Nat) : Nat :=
  let d : Int := if v % 2 = 0 then (v / 2 : Nat) else -(((v + 1) / 2 : Nat) : Int)
  let e : Int := b + d
  let sign := nib / 8 % 2 * 128
  let m := nib % 8
  if 15 < e || (e = 15 && m = 7) then sign + 0x7E
  else if e < 0 then sign
  else sign + e.toNat * 8 + m

/-- The elements from token i on, from bit p: the codes and the bit after the last token. -/
def cx8Tokens (bit : Nat → Nat) (byte : Nat → Nat) : Nat → Nat → Nat → Option (List Nat × Nat)
  | 0, _, p => some ([], p)
  | n + 1, i, p =>
    match cx8Token bit p with
    | none => none
    | some (v, q) =>
      let nib := byte (1 + i / 2) / (if i % 2 = 0 then 1 else 16) % 16
      (cx8Tokens bit byte n (i + 1) q).map fun r => (cx8Elem (byte 0) v nib :: r.1, r.2)

/-- A block read through `byte`: its 32 elements and its length in bytes, none when malformed. -/
def cx8Block (byte : Nat → Nat) : Option (List Nat × Nat) :=
  let bit (i : Nat) : Nat := byte (17 + i / 8) / 2 ^ (7 - i % 8) % 2
  (cx8Tokens bit byte 32 0 0).map fun r => (r.1, (17 + (r.2 + 7) / 8 + 3) / 4 * 4)

/-- Bits that a decoder examines in n tokens from bit p on, up to and with the first malformed one. -/
def cx8Reach (bit : Nat → Nat) : Nat → Nat → Nat
  | 0, p => p
  | n + 1, p =>
    match cx8Token bit p with
    | none => p + 9
    | some (_, q) => cx8Reach bit n q

/-- Byte i of the record at the copy's next address. -/
def CopyOp.recordAt (o : CopyOp) (i : Nat) : Word := o.next + BitVec.ofNat 64 i

/-- A byte of that record as a decoder meets it, one that cannot be read taken as 0. -/
def State.recordByte (s : State) (core : Nat) (o : CopyOp) (i : Nat) : Nat :=
  match s.copyAccess core o (o.recordAt i) (accPlain 1 .load false) with
  | .error _ => 0
  | .ok (l, _) => o.bytes s.mem l.key 1

/-- The bytes of that record that a decoder reads: to the end of the block, or to the first malformed token. -/
def State.recordLen (s : State) (core : Nat) (o : CopyOp) : Nat :=
  let byte := s.recordByte core o
  match cx8Block byte with
  | some r => r.2
  | none => 17 + (cx8Reach (fun i => byte (17 + i / 8) / 2 ^ (7 - i % 8) % 2) 32 0 + 7) / 8

/-- The record at the copy's next address read and decoded: the state, the copy, the elements and the address after it, or the address
of ENGF in the state that the reads leave (R116, R178, R400). -/
def State.copyRecord (s : State) (core : Nat) (o : CopyOp) : Except (State × Word) (State × CopyOp × List Nat × Word) :=
  let acc := accPlain 1 .load false
  let step (t : (State × CopyOp) × Bool) (i : Nat) : Except (State × Word) ((State × CopyOp) × Bool) :=
    match t.1.1.copyAccess core o (o.recordAt i) acc with
    | .error a => .error (t.1.1, a)
    | .ok (l, x) =>
      let r := (t.1.1.copyTouch core o x false).copyRead core t.1.2 l 1
      .ok ((r.1, r.2.1), t.2 || r.2.2.2)
  let len := s.recordLen core o
  match cx8Block (s.recordByte core o) with
  | none =>
    -- the first byte refused, if one is met before the token that is malformed; else the block's first byte
    match (List.range len).findSome? fun i => match s.copyAccess core o (o.recordAt i) acc with
      | .error a => some a
      | .ok _ => none with
    | some a => .error (s, a)
    | none => .error (s, o.next)
  | some (codes, _) =>
    match (List.range len).foldlM step ((s, o), false) with
    | .error a => .error a
    | .ok (t, bad) => if bad then .error (t.1, o.next) else .ok (t.1, t.2, codes, o.recordAt len)

/-! ## COPY_BEGIN -/

/-- A word of scratchpad that a copy leaves written in part is set full: its last write of the operation is made (R92). -/
def State.copyEnd (s : State) (core : Nat) (o : CopyOp) : State :=
  let a := o.dstOf o.pos
  if o.pos ≠ 0 && a.toNat % 8 ≠ 0 then
    match rawScratch core (a - 1) with
    | some k => s.fillWords [k / 8 * 8]
    | none => s
  else s

/-- A copy begins on its channel (R400, R401). -/
def State.copyBegin (s : State) (core : Nat) (ch : Fin 4) (o : CopyOp) : State :=
  let c := s.chOf core ch
  let s1 := s.modCh core ch fun c => { c with queue := c.queue.tail }
  if o.resume then
    match c.stopped with
    | some old => s1.modCh core ch fun c => { c with
        run := some { old with
          fut := o.fut, frame := o.frame, launch := o.launch, sup := o.sup, num := o.num, buf := [], walk := none, walked := none, line := 0, covered := 0 }
        stopped := none }
    | none => (s1.resolve core o.fut .done c.cwp 0).countOp o.launch
  else
    let s2 := match c.stopped with
      | some old => s1.copyEnd core old
      | none => s1
    let o1 := { o with
      geo := c.geo, str0 := c.str0, str1 := c.str1, str2 := c.str2, ctl := c.ctl, pos := 0, next := o.src }
    let s3 := s2.modCh core ch fun c => { c with stopped := none, cwp := o.dst, cpos := 0 }
    if o1.total = 0 then (s3.resolve core o.fut .done o.dst 0).countOp o.launch
    else s3.modCh core ch fun c => { c with run := some o1 }

/-- COPY_BEGIN (R400): the oldest queued copy of a free channel begins, once the earlier stores of its thread are performed
(R142). -/
def execCopyBegin (core ch : Nat) (s : State) : Answer :=
  match chan ch with
  | none => .fault .notEnabled
  | some ch =>
    match (s.chOf core ch).queue with
    | [] => .fault .notEnabled
    | o :: _ =>
      whenEnabled ((s.chOf core ch).run.isNone && s.storesBefore core o.frame o.num) (s.copyBegin core ch o)

/-! ## COPY_ELEMENT_WRITE -/

/-- A running copy stopped by a fault at an address: ENGF (R116, R401). -/
def State.copyFault (s : State) (core : Nat) (ch : Fin 4) (o : CopyOp) (a : Word) : State :=
  (s.modCh core ch fun c => { c with run := none, stopped := some o }).resolve core o.fut .engf 0 a

/-- A cancelled copy has stopped, and then its future resolves: it is no stopped copy (R401, R405). -/
def State.copyStop (s : State) (core : Nat) (ch : Fin 4) (o : CopyOp) : State :=
  ((s.modCh core ch fun c => { c with run := none }).copyEnd core o).resolve core o.fut .cancelled 0 0

/-- One element written at its place, with poison carried, a line of memory covered whole cleared (R107), and a scratchpad
word that the pointer has passed set full (R114). -/
def State.copyWrite (s : State) (core : Nat) (o : CopyOp) (l : Loc) (v : Nat) (bad : Bool) : State × CopyOp :=
  let n := o.size
  let s1 := (s.copyReach core o l true).inject (l.key / 8 * 8) true
  let s2 := s1.putBytes l.key n (v % 256 ^ n)
  let s3 : State := if bad then { s2 with mem := s2.mem.setPoison l.key true } else s2
  let last := decide (o.total ≤ o.pos + 1)
  match l.place with
  | .scratch _ _ =>
    let s4 := if (l.key + n) % 8 = 0 || last then s3.fillWords [l.key / 8 * 8] else s3
    (s4, o)
  | .weight _ => (s3, o)
  | _ =>
    let line := l.key / 64
    let old : BitVec 64 := if o.line = line + 1 then o.covered else 0
    let now := if bad then old else old ||| BitVec.ofNat 64 ((2 ^ n - 1) * 2 ^ (l.key % 64))
    let s4 : State := if now = BitVec.allOnes 64 then { s3 with mem := s3.mem.setPoison l.key false } else s3
    let s5 := if s.servedHere core l true then s4 else s4.writeBelow l.key n l.pol (if o.hint l = 3 then 1 else l.msch) o.launch
    (s5.copyKeep core o l, { o with line := line + 1, covered := now })

/-- The access that a copy's element makes to its destination. -/
def CopyOp.put (o : CopyOp) : Acc := ⟨o.size, .store, (· == 0), true, true, true, false⟩

/-- Must an access of a copy wait for the walk of its page (R120)? -/
def State.copyWalks (s : State) (core : Nat) (o : CopyOp) (a : Word) (width : Nat) : Bool := s.mustWalk (s.copyThread core o) a width

/-- A copy waits for the walk of an address's page, which it asks for once (R120). -/
def State.copyWait (s : State) (core : Nat) (ch : Fin 4) (o : CopyOp) (a : Word) : Answer :=
  let ctx := s.tableOf (s.copyThread core o)
  let w := s.walkFor core ctx a.toNat
  whenEnabled (!(o.walk == some (w.va / 0x10000) && s.walks.contains w))
    ((s.askWalk core ctx a.toNat).modCh core ch fun c => { c with run := some { o with walk := some (w.va / 0x10000) } })

/-- The element's value written and the pointer advanced; `o0` is the copy that a fault leaves stopped. -/
def State.copyStep (s : State) (core : Nat) (ch : Fin 4) (o0 o : CopyOp) (v : Nat) (bad : Bool) : Answer :=
  let d := o.dstOf o.pos
  match s.copyAccess core o d o.put with
  | .error a => .next (s.copyFault core ch o0 a)
  | .ok (l, x) =>
    let r := (s.copyTouch core o x true).copyWrite core o l v bad
    let o1 := { r.2 with pos := o.pos + 1, walk := none, walked := none }
    .next (r.1.modCh core ch fun c => { c with run := some o1, cwp := o1.dstOf o1.pos, cpos := o1.pos })

/-- What a copy waits for before an element: the walks of its source's and destination's pages (R120), a bank group of the source in refresh
(R101), and the line of either (R155). None where nothing is to be waited for. -/
def State.copyHeld (s : State) (core : Nat) (ch : Fin 4) (o : CopyOp) (src : List Word) : Option Answer :=
  let width := if o.cx8 then 1 else o.size
  let locs := src.filterMap fun a => match s.copyAccess core o a (accPlain width .load (width == 4)) with
    | .ok (l, _) => some l
    | .error _ => none
  let d := o.dstOf o.pos
  match src.find? fun a => s.copyWalks core o a width with
  | some a => some (s.copyWait core ch o a)
  | none =>
    if locs.any s.refreshes then some (.fault .notEnabled)
    else match locs.find? fun l => !s.reachable core l false with
    | some l => some (s.waitLine core l false)
    | none =>
      -- a source that is refused stops the copy first
      if locs.length < src.length then none
      else if s.copyWalks core o d o.size then some (s.copyWait core ch o d)
      else match s.copyAccess core o d o.put with
      | .error _ => none
      | .ok (l, _) => if s.reachable core l true then none else some (s.waitLine core l true)

/-- COPY_ELEMENT_WRITE (R113, R114): the running copy of a channel writes its next element, or stops by a fault
(COPY_FAULT, R116) or because it was cancelled. -/
def execCopyElementWrite (core ch : Nat) (s : State) : Answer :=
  match chan ch with
  | none => .fault .notEnabled
  | some ch =>
    match (s.chOf core ch).run with
    | none => .fault .notEnabled
    | some o =>
      if o.cancel then .next (s.copyStop core ch o)
      else if o.total ≤ o.pos then .fault .notEnabled
      else
        let src := if !o.cx8 then [o.srcOf o.pos] else if o.codes.isEmpty then (List.range (s.recordLen core o)).map o.recordAt else []
        match s.copyHeld core ch o src with
        | some r => r
        | none =>
          if o.cx8 then
            match o.codes with
            | v :: rest => s.copyStep core ch o { o with codes := rest } v false
            | [] =>
              match s.copyRecord core o with
              | .error x => .next (x.1.copyFault core ch o x.2)
              | .ok (s1, o1, codes, next) => s1.copyStep core ch o { o1 with codes := codes.tail, next := next } (codes.headD 0) false
          else
            match s.copyAccess core o (o.srcOf o.pos) (accPlain o.size .load (o.size == 4)) with
            | .error a => .next (s.copyFault core ch o a)
            | .ok (l, x) =>
              let r := (s.copyTouch core o x false).copyRead core o l o.size
              r.1.copyStep core ch o r.2.1 r.2.2.1 r.2.2.2

/-- COPY_COMPLETE (R399): a copy that has written its last element resolves to one past its last byte. -/
def execCopyComplete (core ch : Nat) (s : State) : Answer :=
  match chan ch with
  | none => .fault .notEnabled
  | some ch =>
    match (s.chOf core ch).run with
    | none => .fault .notEnabled
    | some o =>
      if o.cancel then .next (s.copyStop core ch o)
      else whenEnabled (decide (o.total ≤ o.pos))
        (((s.modCh core ch fun c => { c with run := none }).resolve core o.fut .done (o.dstOf o.total) 0).countOp
          o.launch)

/-! ## CPY, CPYX, CPTR -/

/-- A copy issued (R399, R400): it waits unissued while its channel holds 4 copies or no record is free. -/
def copyOp (i : Instr) (o : CpyOp) (cx8 : Bool) (s : State) : Answer :=
  withThread s (
    if !s.thr.anchored then s.illegal i
    else s.gather2 o.a o.b .gz fun s1 a b =>
      let c := s1.core.eng.ch[o.ch]
      if 4 ≤ c.run.toList.length + c.queue.length then s.parkOn 0 0 (2 + o.ch.1)
      else match s1.freeRecord with
        | none => s.parkOn 0 0 9
        | some id =>
          let op : CopyOp := {
            fut := id, frame := s1.thr.frame, launch := s1.thr.launch, num := s1.core.sbNum, sup := s1.thr.sup, cx8 := cx8, src := a, dst := b
            resume := c.ctl.getLsbD 7, geo := 0, str0 := 0, str1 := 0, str2 := 0, ctl := 0, pos := 0, next := 0, codes := []
            buf := [], walk := none, walked := none, line := 0, covered := 0, cancel := false }
          ((s1.modCh s1.core.id o.ch fun c => { c with queue := c.queue ++ [op] }).newFuture o.d id none).retire o.sw)

def execCpy (o : CpyOp) (s : State) : Answer := copyOp (.cpy o) o false s
def execCpyx (o : CpyOp) (s : State) : Answer := copyOp (.cpyx o) o true s

/-- CPTR (R400): the write pointer of a channel, an acquire (R115). -/
def execCptr (o : CptrOp) (s : State) : Answer :=
  withThread s (
    if !s.thr.anchored then s.illegal (.cptr o)
    else s.gatherLong [] o.d fun s1 _ => s1.finishLong o.sw o.d (Pending.ofVal s1.core.eng.ch[o.ch].cwp 0))

end Sys2Proof.Machine
end

