-- ==== Sys2Proof/Machine/Matrix.lean ====
section
/-! DEFINITION. The matrix unit (R191-R196, R407-R419): rings, sums, the residue check, and MMA, MMAZ, MST, MLD, MSYNC. -/

namespace Sys2Proof.Machine

/-! ## Formats of operand tiles (R410) -/

/-- Accumulator kinds (R409). -/
inductive AccKind where
  | fp32 | int32 | fp64
deriving DecidableEq, Repr

/-- KIND of an accumulator of a kind: of the low half for FP64 (R409). -/
def AccKind.code : AccKind → BitVec 2
  | .fp32 => 0
  | .int32 => 1
  | .fp64 => 2

/-- Kind, K and TILE bytes of a format, none when it is refused (R410). -/
def matFormat (f : Nat) : Option (AccKind × Nat × Nat) :=
  match f with
  | 1 => some (.fp64, 8, 1024)
  | 2 => some (.fp32, 16, 1024)
  | 3 => some (.fp32, 32, 1024)
  | 4 => some (.fp32, 32, 1024)
  | 5 => some (.fp32, 32, 2048)
  | 6 => some (.fp32, 64, 1024)
  | 7 => some (.fp32, 64, 1024)
  | 8 => some (.fp32, 128, 1536)
  | 9 => some (.fp32, 128, 1536)
  | 10 => some (.fp32, 128, 1024)
  | 11 => some (.int32, 64, 1024)
  | 12 => some (.int32, 64, 1024)
  | 13 => some (.int32, 128, 1024)
  | 14 => some (.int32, 128, 1024)
  | 17 => some (.fp32, 64, 1152)
  | 18 => some (.fp32, 64, 1152)
  | 19 => some (.fp32, 128, 1792)
  | 20 => some (.fp32, 128, 1792)
  | 21 => some (.fp32, 128, 1280)
  | 22 => some (.fp32, 64, 1152)
  | 24 => some (.fp32, 256, 1280)
  | _ => none

/-! ## Rings (R411, R412) -/

/-- Where a base address lies: window and offset of LOCALSCRATCH, or die and offset of a weight-store slot. -/
inductive Base where
  | local_ (w off : Nat)
  | weight (die off : Nat)
  | other
deriving DecidableEq, Repr

def baseOf (a : Word) : Base :=
  let va := a.toNat
  if localBase ≤ va && va < localBase + 32 * 0x80000 then .local_ ((va - localBase) / 0x80000) ((va - localBase) % 0x80000)
  else if weightBase ≤ va && va < weightBase + 8 * 0x40000000 then
    .weight ((va - weightBase) / 0x40000000) ((va - weightBase) % 0x40000000)
  else .other

/-- The format a ring names: that of its window, or WFMT (R411). -/
def Ring.fmt (r : Ring) : Nat :=
  match baseOf r.base with
  | .local_ w _ => w
  | .weight _ _ => fieldOf r.cfg 21 5
  | .other => 0

/-- STATIC as it takes effect: a ring of the weight store is always static (R409, R412). -/
def Ring.static_ (r : Ring) : Bool := r.cfg.getLsbD 16 || match baseOf r.base with
  | .weight _ _ => true
  | _ => false

def Ring.count (r : Ring) : Nat := fieldOf r.cfg 0 16

/-- TILE of RCFG (R409). -/
def Ring.tile (r : Ring) : Nat := match matFormat r.fmt with
  | some x => x.2.2
  | none => 0

/-- RCFG as it reads. -/
def Ring.cfgWord (r : Ring) : Word := (r.cfg &&& 0x3E1FFFF) ||| BitVec.ofNat 64 (r.tile * 2 ^ 32)

/-- A ring that can serve: key of its first byte's array, first element, format, kind, K, TILE bytes, position of the
tile at its head. -/
structure RingInfo where
  num : Nat
  arr : Nat
  e0 : Nat
  fmt : Nat
  kind : AccKind
  k : Nat
  tile : Nat
  pos : Nat
  base : Word
deriving DecidableEq, Repr

/-- Ring number n of a core as an operand, or the cause (4 or 6) with the base that R414 refuses it for; `mine` is the
tenant of the issuing thread. -/
def State.ringInfo (s : State) (core n : Nat) (isB : Bool) (mine : Option Nat) : Except (Nat × Word) RingInfo :=
  let r := (s.coreOf core).eng.ring.toList.getD n Ring.reset
  let pos := r.head.toNat % r.count
  match matFormat r.fmt, baseOf r.base with
  | none, _ => .error (4, r.base)
  | some (kind, k, tile), .local_ w off =>
    let e0 := off / spacing w
    if off % spacing w ≠ 0 || e0 % k ≠ 0 || windowReach w < e0 + 16 * k * r.count then .error (6, r.base)
    else .ok ⟨n, scratchKey core 0, e0, w, kind, k, tile, pos, r.base⟩
  | some (kind, k, tile), .weight d off =>
    let owner := (s.weight.find? fun x => x.1 == d).map fun x => x.2
    if !isB || d ≠ dieOf core || !tenantOk owner mine then .error (4, r.base)
    else if off % tile ≠ 0 || 0x30000000 < off + tile * r.count then .error (6, r.base)
    else .ok ⟨n, weightKey d off, 0, r.fmt, kind, k, tile, pos, r.base⟩
  | _, .other => .error (4, r.base)

/-- First byte of the tile at the head of a ring. -/
def RingInfo.tileKey (i : RingInfo) : Nat := i.arr + elemBit i.fmt (i.e0 + 16 * i.k * i.pos) / 8

/-- The address of a byte of a tile: in window 0 for a scratchpad ring. -/
def RingInfo.addr (i : RingInfo) (key : Nat) : Word :=
  if isScratchKey key then BitVec.ofNat 64 (localBase + (key - i.arr)) else BitVec.ofNat 64 key

/-- The first poisoned byte of n bytes from a on. -/
def Memory.firstPoison (m : Memory) (a n : Nat) : Option Nat :=
  (List.range n).findSome? fun i => if m.isPoisoned (a + i) then some (a + i) else none

/-- Bits of element e of an array of a format that starts at a byte. -/
def Memory.elemRaw (m : Memory) (arr f e : Nat) : Nat :=
  let b := elemBit f e
  let x := bits (m.read (arr + b / 8) ((b % 8 + elemBits f + 7) / 8)) (b % 8) (elemBits f)
  if f = 5 then x % 2 ^ 19 else x

/-- Scale bits of the block of element e. -/
def Memory.scaleRaw (m : Memory) (arr f e : Nat) : Nat :=
  if isBlock f then m.read (arr + scaleByte f e) (if f = 24 then 2 else 1) else 0

/-- A tile at a ring's head: per row, the raw elements and the scale of each. -/
def RingInfo.row (i : RingInfo) (m : Memory) (r : Nat) : List (Nat × Nat) :=
  (List.range i.k).map fun c =>
    let e := i.e0 + 16 * i.k * i.pos + i.k * r + c
    (m.elemRaw i.arr i.fmt e, m.scaleRaw i.arr i.fmt e)

/-- Value of a tile element. -/
def tileVal (f : Nat) (x : Nat × Nat) : FVal :=
  if isBlock f then decodeBlock f x.1 x.2 else decodeFloat f x.1

/-! ## Sums (R191-R193) -/

/-- R192: the exact sum of a group of products, with its special cases. -/
def groupSum (ps : List (FVal × BitVec 5)) : FVal × BitVec 5 :=
  let fl : BitVec 5 := ps.foldl (fun f p => f ||| p.2) 0
  let nan := ps.any fun p => p.1.isNan
  let pos := ps.any fun p => p.1 == .inf false
  let neg := ps.any fun p => p.1 == .inf true
  if pos && neg then (qnan, fl ||| fInvalid)
  else if nan then (qnan, fl)
  else if pos then (.inf false, fl)
  else if neg then (.inf true, fl)
  else
    let s := ps.foldl (fun a p => addFin a p.1 false) (.fin false 0 0)
    (if s.isZero then .fin false 0 0 else s, fl)

/-- R192: groups of 16 products added into an FP32 value. -/
def sumGroups (fa fb : Nat) : Nat → Nat × BitVec 5 → List ((Nat × Nat) × (Nat × Nat)) → Nat × BitVec 5
  | 0, c, _ => c
  | n + 1, c, ps =>
    let g := groupSum ((ps.take 16).map fun p => mulVal (tileVal fa p.1) (tileVal fb p.2))
    let r := roundTo 2 0 g.1
    let t := fAdd 2 0 c.1 r.1
    sumGroups fa fb n (t.1, c.2 ||| g.2 ||| r.2 ||| t.2) (ps.drop 16)

/-- R191: one fused multiply-add per k. -/
def sumFused (f : Nat) (c : Nat × BitVec 5) (ps : List ((Nat × Nat) × (Nat × Nat))) : Nat × BitVec 5 :=
  ps.foldl (fun c p =>
    let t := fMulAdd f 0 (decodeFloat f c.1) (decodeFloat f p.1.1) (decodeFloat f p.2.1)
    (t.1, c.2 ||| t.2)) c

/-- R193: integer products added modulo 2^32; the flag says that an addition left the INT32 range. -/
def sumInt (fa fb : Nat) (c : Nat × Bool) (ps : List ((Nat × Nat) × (Nat × Nat))) : Nat × Bool :=
  ps.foldl (fun c p =>
    let x := intOf 32 c.1 + decodeInt fa p.1.1 * decodeInt fb p.2.1
    (intBits 32 x, c.2 || decide (x < -2147483648) || decide (2147483647 < x))) c

/-- One element of the product, from its starting value. -/
def matElem (a b : RingInfo) (c : Nat) (ra rb : List (Nat × Nat)) : Nat × BitVec 5 × Bool :=
  let ps := ra.zip rb
  match a.kind with
  | .int32 =>
    let r := sumInt a.fmt b.fmt (c, false) ps
    (r.1, 0, r.2)
  | .fp64 =>
    let r := sumFused 1 (c, 0) ps
    (r.1, r.2, false)
  | .fp32 =>
    if a.fmt = 2 then
      let r := sumFused 2 (c, 0) ps
      (r.1, r.2, false)
    else
      let r := sumGroups a.fmt b.fmt (a.k / 16) (c, 0) ps
      (r.1, r.2, false)

/-! ## Accumulators -/

/-- Element i of an accumulator. -/
def accElem (a : BitVec 8192) (i : Nat) : Nat := (a.extractLsb' (32 * i) 32).toNat

/-- An accumulator from its 256 elements. -/
def accOf (l : List Nat) : BitVec 8192 := BitVec.ofNat 8192 (l.foldr (fun x v => x % 2 ^ 32 + 2 ^ 32 * v) 0)

def Engines.accAt (e : Engines) (a : Nat) : BitVec 8192 := e.acc.toList.getD a 0
def Engines.kindAt (e : Engines) (a : Nat) : BitVec 2 := e.mkind.toList.getD a 0

/-- Element i of accumulator a of a kind: 64 bits over the pair for FP64. -/
def Engines.element (e : Engines) (k : AccKind) (a i : Nat) : Nat :=
  match k with
  | .fp64 => accElem (e.accAt a) i + 2 ^ 32 * accElem (e.accAt (a + 1)) i
  | _ => accElem (e.accAt a) i

/-- Accumulator a, and a + 1 for FP64, written with their kinds (R414, R419). -/
def Engines.putAcc (e : Engines) (k : AccKind) (a : Nat) (l : List Nat) : Engines :=
  let set (e : Engines) (a : Nat) (v : BitVec 8192) (c : BitVec 2) : Engines :=
    if h : a < 8 then { e with acc := e.acc.set a v, mkind := e.mkind.set a c } else e
  match k with
  | .fp64 => set (set e a (accOf l) 2) (a + 1) (accOf (l.map fun x => x / 2 ^ 32)) 3
  | k => set e a (accOf l) k.code

/-! ## Resolution -/

/-- The operation leaves the queue and its future resolves; the stream's record keeps a status other than DONE (R417). -/
def State.matResolve (s : State) (core : Nat) (m : MatEntry) (st : FutStatus) (addr : Word) : State :=
  let note (r : MatRec) : MatRec := if r.fut = m.fut && r.status == .pending then { r with status := st } else r
  let s1 := s.modEng core fun e => { e with
    mq := e.mq.filter fun x => x.fut != m.fut
    mfail := if st == .done then e.mfail.filter fun r => !(r.fut == m.fut && r.status == .pending)
      else e.mfail.map note }
  let s2 := s1.resolve core m.fut st 0 addr
  if st == .cancelled then s2 else s2.countOp m.launch

/-- ENGF with a cause (R409, R414). -/
def State.matFault (s : State) (core : Nat) (m : MatEntry) (c : Nat) (addr : Word) : State :=
  (s.modEng core fun e => { e with mfst := BitVec.ofNat 64 (c + 256 * m.stream) }).matResolve core m .engf addr

/-! ## MATRIX_OP_BEGIN -/

/-- The rings of an MMA or MMAZ, or the first of causes 1 to 6 (R414). -/
def State.matRings (s : State) (core : Nat) (m : MatEntry) : Except (Nat × Word) (RingInfo × RingInfo) :=
  let ra := fieldOf m.ga 0 4
  let rb := fieldOf m.ga 4 4
  let mine := s.tenantOf m.launch
  let cnt (n : Nat) : Nat := ((s.coreOf core).eng.ring.toList.getD n Ring.reset).count
  if 8 ≤ ra || 8 ≤ rb then .error (1, 0)
  else if ra = rb then .error (2, 0)
  else if cnt ra = 0 || cnt rb = 0 then .error (3, 0)
  else
    let a := s.ringInfo core ra false mine
    let b := s.ringInfo core rb true mine
    match a, b with
    | .ok a, .ok b =>
      if a.k ≠ b.k || a.kind != b.kind || (a.fmt == 24) != (b.fmt == 24) then .error (5, 0) else .ok (a, b)
    | .error x, .error y =>
      if x.1 = 4 || y.1 ≠ 4 then .error x else .error y
    | .error x, .ok _ => .error x
    | .ok _, .error y => .error y

/-- Cause 5 comes before cause 6: a ring that only cause 6 refuses still has its format (R414). -/
def State.matCheck (s : State) (core : Nat) (m : MatEntry) : Except (Nat × Word) (RingInfo × RingInfo) :=
  match s.matRings core m with
  | .error (6, x) =>
    let fmt (n : Nat) : Nat := ((s.coreOf core).eng.ring.toList.getD n Ring.reset).fmt
    let fa := fmt (fieldOf m.ga 0 4)
    let fb := fmt (fieldOf m.ga 4 4)
    let same := match matFormat fa, matFormat fb with
      | some p, some q => p.1 == q.1 && p.2.1 == q.2.1 && (fa == 24) == (fb == 24)
      | _, _ => true
    if same then .error (6, x) else .error (5, 0)
  | r => r

/-- Causes 7 and 8 of an MMA or MMAZ (R414). -/
def Engines.kindCause (e : Engines) (m : MatEntry) (k : AccKind) : Nat :=
  let a := fieldOf m.gb 0 3
  let pairOk := match k with
    | .fp64 => e.kindAt a == 2 && decide (a < 7) && e.kindAt (a + 1) == 3
    | k => e.kindAt a == k.code
  if m.kind == .mma && !pairOk then 7
  else if k == .fp64 && a % 2 = 1 then 8
  else 0

/-- Is a tile of a ring available to an operation of a frame (R412), with the stores before its RTAIL performed (R142)? -/
def State.available (s : State) (core frame n : Nat) : Bool :=
  let r := (s.coreOf core).eng.ring.toList.getD n Ring.reset
  r.static_ || (r.head != r.tail && s.storesBefore core frame r.num)

/-- Does an MMA or MMAZ wait for no ring (R412)? A ring that does not exist, or has no tile, never becomes available and is not waited
for (DEDUCED, log 41). -/
def State.ringsReady (s : State) (core : Nat) (m : MatEntry) : Bool :=
  let ra := fieldOf m.ga 0 4
  let rb := fieldOf m.ga 4 4
  let cnt (n : Nat) : Nat := ((s.coreOf core).eng.ring.toList.getD n Ring.reset).count
  8 ≤ ra || 8 ≤ rb || cnt ra == 0 || cnt rb == 0 || (s.available core m.frame ra && s.available core m.frame rb)

/-- Where MST and MLD find their 256 elements: window and first byte (window 0) or first element (R418). -/
def moveAt (ga : Word) (k : AccKind) : Option (Nat × Nat) :=
  match baseOf ga with
  | .local_ w off =>
    let size := if k == .fp64 then 8 else 4
    let e0 := off / spacing w
    if w = 0 then (if off % 8 = 0 && off + 256 * size ≤ 0x80000 then some (0, off) else none)
    else if !windowPresent w || off % spacing w ≠ 0 || (isBlock w && e0 % blockElems w ≠ 0) || windowReach w < e0 + 256 then
      none
    else some (w, e0)
  | _ => none

/-- Kind that an MLD loads (R419). -/
def mldKind (gb : Word) : Option AccKind :=
  match fieldOf gb 4 2 with
  | 0 => some .fp32
  | 1 => some .int32
  | 2 => some .fp64
  | _ => none

/-- Kind of the accumulator an MST names. -/
def kindOf (c : BitVec 2) : AccKind := if c = 0 then .fp32 else if c = 1 then .int32 else .fp64

/-- May an MLD of a kind read through a window (R419)? -/
def mldWindow (k : AccKind) (w : Nat) : Bool :=
  match k with
  | .int32 => w == 0 || (11 ≤ w && w ≤ 14) || w == 16
  | _ => w ≤ 10 || (17 ≤ w && w ≤ 22) || w == 24

/-- A queued entry replaced by its begun form. -/
def State.setMat (s : State) (core : Nat) (m : MatEntry) : State :=
  s.modEng core fun e => { e with mq := e.mq.map fun x => if x.fut = m.fut then m else x }

/-- An injection of kind 1 or 2 that matches the operation (R349): the state after it and what it does. -/
def State.injectMat (s : State) (core stream : Nat) : State × Nat :=
  let c := s.coreOf core
  let k := fieldOf c.errinj 0 3
  if c.errinj.getLsbD 7 && (k == 1 || k == 2) && fieldOf c.errinj 3 4 == stream then
    if c.injSkip = 0 then (s.modCore core Core.disarm, k)
    else (s.modCore core fun c => { c with injSkip := c.injSkip - 1 }, 0)
  else (s, 0)

/-- MATRIX_OP_BEGIN (R412, R414, R415): the head of a stream begins, or is found to fault as it does. The clock of the unit may be
gated (R5). -/
def execMatrixOpBegin (core stream : Nat) (s : State) : Answer :=
  let e := (s.coreOf core).eng
  match e.mq.find? fun m => m.stream == stream with
  | none => .fault .notEnabled
  | some m =>
    if m.begun || s.mgmt.gated || !s.storesBefore core m.frame m.num then .fault .notEnabled
    else match m.kind with
      | .mst =>
        let a := fieldOf m.gb 0 3
        let k := kindOf (e.kindAt a)
        if k == .fp64 && a % 2 = 1 then .next (s.matFault core m 8 0)
        else match moveAt m.ga k with
          | none => .next (s.matFault core m 10 m.ga)
          | some _ =>
            let snap := BitVec.ofNat 16384 ((e.accAt a).toNat + 2 ^ 8192 * (e.accAt (a + 1)).toNat)
            .next (s.setMat core { m with begun := true, snap := snap, kind0 := (e.kindAt a).toNat, scale := e.mscale })
      | .mld =>
        let a := fieldOf m.gb 0 3
        match mldKind m.gb with
        | none => .next (s.matFault core m 11 m.ga)
        | some k =>
          if k == .fp64 && a % 2 = 1 then .next (s.matFault core m 8 0)
          else match moveAt m.ga k with
            | none => .next (s.matFault core m 10 m.ga)
            | some (w, _) =>
              if mldWindow k w then .next (s.setMat core { m with begun := true }) else .next (s.matFault core m 11 m.ga)
      | _ =>
        if (e.mq.any fun x => x.begun && (x.kind == .mma || x.kind == .mmaz)) || !s.ringsReady core m then .fault .notEnabled
        else match s.matCheck core m with
          | .error x => .next (s.matFault core m x.1 x.2)
          | .ok (a, _) =>
            let c := e.kindCause m a.kind
            if c ≠ 0 then .next (s.matFault core m c 0)
            else
              let (s1, inj) := s.injectMat core stream
              .next (s1.setMat core { m with begun := true, inject := inj })

/-! ## MATRIX_OP_COMPLETE -/

/-- Count n events of a core. -/
def State.countMany (s : State) (core src launch n : Nat) : State :=
  s.modCore core fun c => { c with cnt := c.cnt.map fun k => k.count src launch n }

/-- RESCNT of the health record (R214). -/
def State.countRes (s : State) : State :=
  { s with
    health := { s.health with rescnt := min (s.health.rescnt + 1) (2 ^ 32 - 1) }
    caps := { s.caps with genHealth := bumpGen s.caps.genHealth } }

/-- Reserved TRN2 codes among the elements of a tile (R176). -/
def RingInfo.reserved (i : RingInfo) (m : Memory) : Nat :=
  if i.fmt = 24 then
    ((List.range 16).map fun r => ((i.row m r).filter fun x => x.1 == 2).length).foldl (· + ·) 0
  else 0

/-- The product of two tiles added to the accumulator: elements, flags, wrap. -/
def matProduct (m : Memory) (a b : RingInfo) (start : Nat → Nat) : List Nat × BitVec 5 × Bool :=
  let rows := (List.range 16).map fun i => a.row m i
  let cols := (List.range 16).map fun j => b.row m j
  let cells := (rows.zipIdx).flatMap fun r => (cols.zipIdx).map fun c =>
    matElem a b (start (16 * r.2 + c.2)) r.1 c.1
  (cells.map fun x => x.1, cells.foldl (fun f x => f ||| x.2.1) 0, cells.any fun x => x.2.2)

/-! ## The residue check (R195, R196) -/

/-- Residue modulo 255 (R195). -/
def residue (n : Int) : Nat := (n % 255).toNat

/-- The operand elements of a group as signed integer significands with their exponents. -/
def signedPairs (fa fb : Nat) (ps : List ((Nat × Nat) × (Nat × Nat))) : List ((Int × Int) × (Int × Int)) :=
  ps.map fun p => ((tileVal fa p.1).signed, (tileVal fb p.2).signed)

/-- The least exponent of the products of a group: the bit that their sum is aligned to. -/
def leastExp (ps : List ((Int × Int) × (Int × Int))) : Int := ps.foldl (fun e p => min e (p.1.2 + p.2.2)) 0

/-- Residue path: the significand product, from the residues of the operands' integer significands. -/
def pathProduct (x y : Int) : Nat := residue x * residue y % 255

/-- Residue path: an exact group sum, each product aligned by 2^(shift mod 8), as 2^8 ≡ 1. -/
def pathGroup (ps : List ((Int × Int) × (Int × Int))) : Nat :=
  let e := leastExp ps
  ps.foldl (fun t p => (t + pathProduct p.1.1 p.2.1 * 2 ^ ((p.1.2 + p.2.2 - e) % 8).toNat) % 255) 0

/-- The main array's exact group sum, in units of the least exponent. -/
def arrayGroup (ps : List ((Int × Int) × (Int × Int))) : Int :=
  let e := leastExp ps
  ps.foldl (fun t p => t + p.1.1 * p.2.1 * 2 ^ (p.1.2 + p.2.2 - e).toNat) 0

/-- Residue path: the exact sum of the integer products of an operation. -/
def pathInts (l : List (Int × Int)) : Nat := l.foldl (fun t p => (t + pathProduct p.1 p.2) % 255) 0

/-- What the main array forms exactly for one element of the product: significand products, group sums, integer sums. -/
def arrayExact (a b : RingInfo) (ra rb : List (Nat × Nat)) : List Int :=
  let ps := ra.zip rb
  match a.kind with
  | .int32 => [(ps.map fun p => decodeInt a.fmt p.1.1 * decodeInt b.fmt p.2.1).foldl (· + ·) 0]
  | _ =>
    let q := signedPairs a.fmt b.fmt ps
    let groups := if a.kind == .fp64 || a.fmt == 2 then [] else (List.range (a.k / 16)).map fun g => arrayGroup ((q.drop (16 * g)).take 16)
    (q.map fun p => p.1.1 * p.2.1) ++ groups

/-- What the residue path forms for the same values. -/
def pathExact (a b : RingInfo) (ra rb : List (Nat × Nat)) : List Nat :=
  let ps := ra.zip rb
  match a.kind with
  | .int32 => [pathInts (ps.map fun p => (decodeInt a.fmt p.1.1, decodeInt b.fmt p.2.1))]
  | _ =>
    let q := signedPairs a.fmt b.fmt ps
    let groups := if a.kind == .fp64 || a.fmt == 2 then [] else (List.range (a.k / 16)).map fun g => pathGroup ((q.drop (16 * g)).take 16)
    (q.map fun p => pathProduct p.1.1 p.2.1) ++ groups

/-- The check of one element: `err` is what a fault of the main array adds to the first of its exact values. -/
def residueMatches (a b : RingInfo) (ra rb : List (Nat × Nat)) (err : Int) : Bool :=
  let x := arrayExact a b ra rb
  ((x.headD 0 + err) :: x.tail).map residue == pathExact a b ra rb

/-- Does the check of a whole operation match, with a fault in the first element of the product? -/
def matChecks (m : Memory) (a b : RingInfo) (err : Int) : Bool :=
  let cols := (List.range 16).map fun j => b.row m j
  (List.range 16).all fun i =>
    let r := a.row m i
    cols.zipIdx.all fun c => residueMatches a b r c.1 (if i = 0 && c.2 = 0 then err else 0)

/-- Pop of a ring (R412). -/
def Engines.pop (e : Engines) (n : Nat) : Engines :=
  if h : n < 8 then { e with ring := e.ring.set n { e.ring[n] with head := e.ring[n].head + 1 } } else e

/-- The success of an MMA or MMAZ (R414). DESIGN CHOICE (log 19): the reserved TRN2 codes that it read (R176) are counted here, once;
an operation that ends RESID or faults counts none, and a retry counts none of its own. -/
def State.matRetire (s : State) (core : Nat) (m : MatEntry) (a b : RingInfo) : State :=
  let e := (s.coreOf core).eng
  let n := fieldOf m.gb 0 3
  let start (i : Nat) : Nat := if m.kind == .mmaz then 0 else e.element a.kind n i
  let r := matProduct s.mem a b start
  let s1 := s.countMany core 0x012 m.launch (a.reserved s.mem + b.reserved s.mem)
  (s1.modEng core fun e => (((e.putAcc a.kind n r.1).addM r.2.1 r.2.2).pop a.num).pop b.num).matResolve core m .done 0

/-- RESID: the later operations of the stream that have not begun are cancelled (R196). -/
def State.matResid (s : State) (core : Nat) (m : MatEntry) : State :=
  let later := (s.coreOf core).eng.mq.filter fun x => x.stream == m.stream && !x.begun
  let s1 := (s.countCore core 0x011 m.launch).countRes.matResolve core m .resid 0
  later.foldl (fun s x => s.matResolve core x .cancelled 0) s1

/-- Does the read of a tile meet its bank group of the weight store in refresh (R101)? -/
def State.tileRefreshes (s : State) (i : RingInfo) : Bool :=
  let group (a : Nat) : Nat := (a - weightBase) % 0x40000000 / 0x1800000
  decide (weightBase ≤ i.arr) && !isScratchKey i.arr &&
    (refreshing s.cc (group i.tileKey) || refreshing s.cc (group (i.tileKey + i.tile - 1)))

/-- MATRIX_OP_COMPLETE (R414, R196): the operation on the array ends. The array errs only where an injection says so (R349): in the first
execution (kind 1), or in the retry too (kind 2). A read of weights that meets refresh pauses it (R101). -/
def execMatrixOpComplete (core : Nat) (s : State) : Answer :=
  match (s.coreOf core).eng.mq.find? fun m => m.begun && (m.kind == .mma || m.kind == .mmaz) with
  | none => .fault .notEnabled
  | some m =>
    if s.mgmt.gated then .fault .notEnabled
    else match s.matCheck core m with
      | .error x => .next (s.matFault core m x.1 x.2)
      | .ok (a, b) =>
        if s.tileRefreshes b then .fault .notEnabled
        else
          let s1 := s.injectAll [wordsOf (a.tileKey, a.tile), wordsOf (b.tileKey, b.tile)] false
          match s1.mem.firstPoison a.tileKey a.tile, s1.mem.firstPoison b.tileKey b.tile with
          | some x, _ => .next (s1.matFault core m 9 (a.addr x))
          | none, some y => .next (s1.matFault core m 9 (b.addr y))
          | none, none =>
            if matChecks s1.mem a b (if m.inject = 0 then 0 else 1) then .next (s1.matRetire core m a b)
            else
              let s2 := s1.countCore core 0x010 m.launch
              if matChecks s2.mem a b (if m.inject = 2 then 1 else 0) then .next (s2.matRetire core m a b)
              else .next (s2.matResid core m)

/-! ## MST_COMPLETE (R418) -/

/-- The value of element i of what an MST read, multiplied by MSCALE when selected: value and flags. -/
def MatEntry.value (m : MatEntry) (k : AccKind) (i : Nat) : FVal × BitVec 5 :=
  let lo := (m.snap.extractLsb' (32 * i) 32).toNat
  let hi := (m.snap.extractLsb' (8192 + 32 * i) 32).toNat
  let v := match k with
    | .fp64 => decodeFloat 1 (lo + 2 ^ 32 * hi)
    | .int32 => ofInt (intOf 32 lo)
    | .fp32 => decodeFloat 2 lo
  if m.gb.getLsbD 3 then mulVal v (decodeFloat 2 m.scale.toNat) else (v, 0)

/-- n bytes stored by an engine in pieces of at most 4 bytes, or as one word. -/
def State.putPieces (s : State) (key : Nat) : Nat → Nat → State
  | 0, _ => s
  | n + 1, v => ((s.inject (key / 8 * 8) true).putBytes key 4 (v % 2 ^ 32)).putPieces (key + 4) n (v / 2 ^ 32)

/-- One block formed and stored with its padding 0 (R174, R176, R179): the state and the flags. -/
def State.putBlock (s : State) (core w e : Nat) (vs : List FVal) : State × BitVec 5 :=
  let r := formBlock w vs s.free
  let w0 := elemBits w
  let body := r.2.1.foldr (fun x v => x % 2 ^ w0 + 2 ^ w0 * v) 0
  let s1 : State := if w = 24 then { s with free := s.free + 64 } else s
  let key := scratchKey core (elemBit w e / 8)
  (s1.putPieces key (recordBytes w / 4) (body + r.1 * 256 ^ scaleAt w), r.2.2)

/-- Elements [i, i + n) of an MST stored: the state and the flags. -/
def State.mstRun (s : State) (core w x : Nat) (m : MatEntry) (k : AccKind) (i n : Nat) : State × BitVec 5 :=
  if w = 0 then
    let size := if k == .fp64 then 8 else 4
    let raw (j : Nat) : Nat := (m.snap.extractLsb' (32 * j) 32).toNat +
      (if k == .fp64 then 2 ^ 32 * (m.snap.extractLsb' (8192 + 32 * j) 32).toNat else 0)
    let put (s : State) (j : Nat) : State :=
      let a := scratchKey core (x + size * (i + j))
      (s.inject (a / 8 * 8) true).putBytes a size (raw (i + j))
    ((List.range n).foldl put s, 0)
  else if isBlock w then
    let vs := (List.range n).map fun j => m.value k (i + j)
    let r := s.putBlock core w (x + i) (vs.map fun v => v.1)
    (r.1, vs.foldl (fun f v => f ||| v.2) r.2)
  else
    let put (t : State × BitVec 5) (j : Nat) : State × BitVec 5 :=
      let v := m.value k (i + j)
      let q := convertTo w 0 true v.1
      let r := elemRange core w (x + i + j)
      let s1 := t.1.injectAll [r] true
      let o := elemBit w (x + i + j) % 8
      let old := s1.mem.read r.1 r.2
      (s1.putBytes r.1 r.2 (old - bits old o (elemBits w) * 2 ^ o + q.1 % 2 ^ elemBits w * 2 ^ o), t.2 ||| v.2 ||| q.2)
    (List.range n).foldl put (s, 0)

/-- Elements of the run in which an MST writes: a row, or a block. -/
def mstUnit (w : Nat) : Nat := if isBlock w then blockElems w else 16

/-- Bytes of the first n elements of an MST's destination. -/
def mstRange (core w x n : Nat) (k : AccKind) : Nat × Nat :=
  if w = 0 then (scratchKey core x, n * (if k == .fp64 then 8 else 4))
  else
    let b := elemBit w x / 8
    (scratchKey core b, if isBlock w then n / blockElems w * recordBytes w else (elemBit w (x + n) + 7) / 8 - b)

/-- The rows of an MST stored from its first to row r - 1, whole blocks where the format has them; the flags go to MFLAGS
and the words are set full (R92, R418). -/
def State.mstStore (s : State) (core : Nat) (m : MatEntry) (rows : Nat) : State :=
  let k := kindOf (BitVec.ofNat 2 m.kind0)
  match moveAt m.ga k with
  | none => s
  | some (w, x) =>
    let u := mstUnit w
    let n := (16 * rows + u - 1) / u
    let t := (List.range n).foldl
      (fun (t : State × BitVec 5) j =>
        let r := t.1.mstRun core w x m k (u * j) u
        (r.1, t.2 ||| r.2)) (s, 0)
    let ws := wordsOf (mstRange core w x (u * n) k)
    (t.1.modEng core fun e => e.addM t.2 false).fillWords ((List.range (ws.2 / 8)).map fun i => ws.1 + 8 * i)

/-- MST_COMPLETE (R418): the begun MST writes its elements; one that was cancelled stops after its current row, which the
spec leaves open, and then its future resolves (R405, R416). -/
def execMstComplete (core : Nat) (s : State) : Answer :=
  match (s.coreOf core).eng.mq.find? fun m => m.begun && m.kind == .mst with
  | none => .fault .notEnabled
  | some m =>
    if s.mgmt.gated then .fault .notEnabled
    else if m.dying then
      let f := s.fresh
      .next ((f.2.mstStore core m ((Config.mstRow f.1).1 + 1)).matResolve core m .cancelled 0)
    else .next ((s.mstStore core m 16).matResolve core m .done 0)

/-! ## MLD_COMPLETE (R419) -/

/-- The element of an MLD from a window: bits and flags. -/
def mldElem (m : Memory) (core w x i : Nat) (k : AccKind) : Nat × BitVec 5 :=
  if w = 0 then
    let size := if k == .fp64 then 8 else 4
    (m.read (scratchKey core (x + size * i)) size, 0)
  else
    let v := elemVal m core w (x + i)
    match k with
    | .int32 => (intBits 32 (decodeInt w (m.elemRaw (scratchKey core 0) w (x + i))), 0)
    | .fp64 => roundTo 1 0 v
    | .fp32 => roundTo 2 0 v

/-- MLD_COMPLETE (R419): the begun MLD has read its elements; accumulator and kind are written together. -/
def execMldComplete (core : Nat) (s : State) : Answer :=
  match (s.coreOf core).eng.mq.find? fun m => m.begun && m.kind == .mld with
  | none => .fault .notEnabled
  | some m =>
    match mldKind m.gb with
    | none => .fault .notEnabled
    | some k =>
      match moveAt m.ga k with
      | none => .fault .notEnabled
      | some (w, x) =>
        if s.mgmt.gated then .fault .notEnabled
        else
          let r := mstRange core w x 256 k
          let s1 := s.injectAll [wordsOf r] false
          match s1.mem.firstPoison r.1 r.2 with
          | some a => .next (s1.matFault core m 9 (BitVec.ofNat 64 (localBase + (a - scratchKey core 0))))
          | none =>
            let l := (List.range 256).map fun i => mldElem s1.mem core w x i k
            let fl : BitVec 5 := l.foldl (fun f y => f ||| y.2) 0
            let resv := if w = 24 then
              ((List.range 256).filter fun i => s1.mem.elemRaw (scratchKey core 0) 24 (x + i) == 2).length else 0
            let s2 := s1.countMany core 0x012 m.launch resv
            .next ((s2.modEng core fun e => (e.putAcc k (fieldOf m.gb 0 3) (l.map fun y => y.1)).addM fl false).matResolve
              core m .done 0)

/-! ## Issue -/

/-- Status codes (R403). -/
def FutStatus.code : FutStatus → Nat
  | .pending => 0
  | .done => 1
  | .resid => 2
  | .engf => 3
  | .cancelled => 4

/-- MMA, MMAZ, MST, MLD issued (R414, R415): queued on the stream, with a handle. -/
def matOp (i : Instr) (kind : MatKind) (o : MatOp) (s : State) : Answer :=
  withThread s (
    if !s.thr.anchored then s.illegal i
    else s.gather2 o.a o.b .gz fun s1 a b =>
      if 16 ≤ s1.core.eng.mq.length then s.parkOn 0 0 6
      else match s1.freeRecord with
        | none => s.parkOn 0 0 9
        | some id =>
          let m : MatEntry := {
            kind := kind, sw := o.sw, dst := o.d, regs := (o.a, o.b), stream := o.t.1, ga := a, gb := b, fut := id
            frame := s1.thr.frame, launch := s1.thr.launch, num := s1.core.sbNum, begun := false, inject := 0, snap := 0, kind0 := 0, scale := 0
            dying := false }
          let s2 := s1.modEng s1.core.id fun e => { e with
            mq := e.mq ++ [m], mfail := e.mfail ++ [⟨o.t.1, id, s1.thr.frame, .pending⟩] }
          (s2.newFuture o.d id (some o.t.1)).retire o.sw)

def execMma (o : MatOp) (s : State) : Answer := matOp (.mma o) .mma o s
def execMmaz (o : MatOp) (s : State) : Answer := matOp (.mmaz o) .mmaz o s
def execMst (o : MatOp) (s : State) : Answer := matOp (.mst o) .mst o s
def execMld (o : MatOp) (s : State) : Answer := matOp (.mld o) .mld o s

/-- MSYNC (R417): parks until the thread's operations of the stream have resolved, then returns the first status other than
DONE and clears the record. While the queue is full it does not issue (R415). -/
def execMsync (o : MsyncOp) (s : State) : Answer :=
  withThread s (
    if !s.thr.anchored then s.illegal (.msync o)
    else s.gather [] o.d fun s1 _ =>
      let e := s1.core.eng
      let f := s1.thr.frame
      if 16 ≤ e.mq.length then s.parkOn 0 0 6
      else if e.mq.any fun m => m.stream == o.t.1 && m.frame == f then s.parkOn 24 (BitVec.ofNat 64 o.t.1) o.t.1
      else
        let st := match e.mfail.find? fun r => r.stream == o.t.1 && r.frame == f with
          | some r => r.status.code
          | none => 1
        (s1.modEng s1.core.id fun e => { e with
          mfail := e.mfail.filter fun r => r.stream != o.t.1 || r.frame != f || r.status == .pending }).finish o.sw o.d (BitVec.ofNat 64 st))

end Sys2Proof.Machine
end

