-- ==== Sys2Proof/Machine/Red.lean ====
section
/-! DEFINITION. The reduction unit and the block queue of a gateway quad (R420-R422): BADDQ and BQNEXT. -/

namespace Sys2Proof.Machine

/-! ## The block queue (R420) -/

def State.quadAt (s : State) (q : Nat) : BlockQueue := (s.quads.find? fun b => b.quad == q).getD ⟨q, 0, 0⟩

def State.setQuad (s : State) (b : BlockQueue) : State :=
  { s with quads := b :: s.quads.filter fun x => x.quad != b.quad }

/-- A write to BQLIM (R409): N set, and BQPOS 0. -/
def State.setBqlim (s : State) (core : Nat) (v : Word) : State := s.setQuad ⟨quadOf core, v.setWidth 32, 0⟩

/-- BQNEXT (R420): the next index of the quad's queue, or all ones once it is exhausted. -/
def execBqnext (o : D1) (s : State) : Answer :=
  withThread s (
    if !isGateway s.core.id then s.illegal (.bqnext o)
    else s.gatherLong [] o.d fun s1 _ =>
      let b := s1.quadAt (quadOf s1.core.id)
      if b.pos.toNat < b.lim.toNat then
        (s1.setQuad { b with pos := b.pos + 1 }).finishLong o.sw o.d (Pending.ofVal (b.pos.setWidth 64) 0)
      else s1.finishLong o.sw o.d (Pending.ofVal (BitVec.allOnes 64) 0))

/-! ## BADDQ (R421, R422) -/

/-- Elements of a block of BADDQ. -/
def baddBlock (w : Nat) : Nat := if w = 24 then 64 else 32

/-- An address of BADDQ: window and first element of NB blocks, none where R422 refuses it. -/
def baddAt (nb : Nat) (a : Word) : Option (Nat × Nat) :=
  match baseOf a with
  | .local_ w off =>
    let e := off / 4
    if (2 ≤ w && w ≤ 10) || (17 ≤ w && w ≤ 22) || w == 24 then
      if off % 4 ≠ 0 || e % baddBlock w ≠ 0 || windowReach w < e + nb * baddBlock w then none else some (w, e)
    else none
  | _ => none

/-- Bytes of n elements of a window from element e on, whole blocks. -/
def windowRange (core w e n : Nat) : Nat × Nat :=
  let b := elemBit w e / 8
  (scratchKey core b, if isBlock w then n / blockElems w * recordBytes w else n * elemBits w / 8)

/-- A block add has ended: its future resolves, CANCELLED where FCANCEL has named it (R405). -/
def State.baddEnd (s : State) (core : Nat) (b : BaddEntry) (st : FutStatus) (a : Word) : State :=
  ((s.modEng core fun e => { e with bq := e.bq.tail }).resolve core b.fut (if b.cancel then .cancelled else st) 0 a).countOp b.launch

/-- A block add ends with ENGF and an address: nothing is written (R422). -/
def State.baddFault (s : State) (core : Nat) (b : BaddEntry) (a : Word) : State := s.baddEnd core b .engf a

/-- The values of one block stored over the local one: the state and the flags. -/
def State.putSums (s : State) (core w e : Nat) (vs : List Nat) : State × BitVec 5 :=
  if isBlock w then s.putBlock core w e (vs.map fun v => decodeFloat 2 v)
  else
    let put (t : State × BitVec 5) (x : Nat × Nat) : State × BitVec 5 :=
      let q := convertTo w 0 true (decodeFloat 2 x.1)
      let r := elemRange core w (e + x.2)
      let s1 := t.1.injectAll [r] true
      let o := elemBit w (e + x.2) % 8
      let old := s1.mem.read r.1 r.2
      (s1.putBytes r.1 r.2 (old - bits old o (elemBits w) * 2 ^ o + q.1 % 2 ^ elemBits w * 2 ^ o), t.2 ||| q.2)
    vs.zipIdx.foldl put (s, 0)

/-- BADDQ_COMPLETE (R421, R422): the oldest block add of a core's unit, every read before any write. -/
def execBaddqComplete (core : Nat) (s : State) : Answer :=
  match (s.coreOf core).eng.bq with
  | [] => .fault .notEnabled
  | b :: _ =>
    if !s.storesBefore core b.frame b.num then .fault .notEnabled
    else
      let nb := (s.coreOf core).eng.brlen.toNat
      if nb = 0 || 64 < nb then .next (s.baddFault core b 0)
      else match baddAt nb b.ga, baddAt nb b.gb with
        | none, _ => .next (s.baddFault core b b.ga)
        | some _, none => .next (s.baddFault core b b.gb)
        | some (w, e), some (w', d) =>
          if w ≠ w' then .next (s.baddFault core b b.gb)
          else
            let n := nb * baddBlock w
            let ra := windowRange core w e n
            let rb := windowRange core w d n
            let s1 := s.injectAll [wordsOf ra, wordsOf rb] false
            let addr (a : Nat) : Word := BitVec.ofNat 64 (localBase + (a - scratchKey core 0))
            match s1.mem.firstPoison ra.1 ra.2, s1.mem.firstPoison rb.1 rb.2 with
            | some a, _ => .next (s1.baddFault core b (addr a))
            | none, some a => .next (s1.baddFault core b (addr a))
            | none, none =>
              let sums := (List.range n).map fun i =>
                let v := addVal 0 (elemVal s1.mem core w (e + i)) (elemVal s1.mem core w (d + i))
                let r := roundTo 2 0 v.1
                (r.1, v.2 ||| r.2)
              let fl : BitVec 5 := sums.foldl (fun f x => f ||| x.2) 0
              let raw := scratchKey core 0
              let resv := if w = 24 then ((List.range n).map fun i =>
                (if s1.mem.elemRaw raw 24 (e + i) = 2 then 1 else 0) +
                  (if s1.mem.elemRaw raw 24 (d + i) = 2 then 1 else 0)).foldl (· + ·) 0 else 0
              let step (t : State × BitVec 5) (j : Nat) : State × BitVec 5 :=
                let vs := ((sums.drop (j * baddBlock w)).take (baddBlock w)).map fun x => x.1
                let q := t.1.putSums core w (d + j * baddBlock w) vs
                (q.1, t.2 ||| q.2)
              let t := (List.range nb).foldl step (s1.countMany core 0x012 b.launch resv, fl)
              let ws := wordsOf rb
              let s2 := (t.1.modEng core fun e => e.addR t.2).fillWords
                ((List.range (ws.2 / 8)).map fun i => ws.1 + 8 * i)
              .next (s2.baddEnd core b .done 0)

/-- BADDQ (R421): a block add queued, with a handle. -/
def execBaddq (o : BaddOp) (s : State) : Answer :=
  withThread s (
    if !isGateway s.core.id then s.illegal (.baddq o)
    else s.gather2 o.a o.b .gz fun s1 a b =>
      if 4 ≤ s1.core.eng.bq.length then s.parkOn 0 0 8
      else match s1.freeRecord with
        | none => s.parkOn 0 0 9
        | some id =>
          let x : BaddEntry := ⟨a, b, id, s1.thr.frame, s1.thr.tid, s1.core.sbNum, s1.thr.launch, false⟩
          ((s1.modEng s1.core.id fun e => { e with bq := e.bq ++ [x] }).newFuture o.d id none).retire o.sw)

end Sys2Proof.Machine
end

