-- ==== Sys2Proof/Machine/Future.lean ====
section
/-! DEFINITION. The future instructions (R402-R405): FTEST, FWAIT, MOVH, FCANCEL. -/

namespace Sys2Proof.Machine

/-- The handle a source holds: its value, while the register is tagged (R402). -/
def Thread.handle (t : Thread) : Src → Option Word
  | .g n => if t.tagged n.1 then some t.g[n] else none
  | _ => none

/-- The source of a future instruction (R56, R406): a handle is read without parking or trap; a register that holds none, or
a queue, is read as any source. `k` receives the handle, if there is one, and the value. -/
def State.gatherHandle (s : State) (a : Src) (d : Dst) (k : State → Option Word → Word → State) : State :=
  match s.thr.handle a with
  | some h => s.gatherLong [] d fun s1 _ => k s1 (some h) h
  | none => s.long1 a d fun s1 v => k s1 none v

/-- FTEST (R403): the status of a future, or 5 for a register that holds no handle. -/
def execFtest (o : R2) (s : State) : Answer :=
  withThread s (s.gatherHandle o.a o.d fun s1 h _ =>
    let code := match h.bind s1.futureOf with
      | some f => f.status.code
      | none => 5
    s1.finishLong o.sw o.d (Pending.ofVal (BitVec.ofNat 64 code) 0))

/-- FWAIT (R404): parks until the future has resolved; it consumes nothing. -/
def execFwait (o : S1) (s : State) : Answer :=
  withThread s (s.gatherHandle o.a .gz fun s1 h _ =>
    let n := match o.a with
      | .g n => n.1
      | _ => 0
    if (h.bind s1.futureOf).any fun f => f.status == .pending then s.parkOn 18 (BitVec.ofNat 64 n) 0
    else s1.retire o.sw)

/-- MOVH (R404): the handle copied with its tag, or a value as MOV. -/
def execMovh (o : MovhOp) (s : State) : Answer :=
  withThread s (s.gatherHandle o.a .gz fun s1 h v =>
    match o.d, h with
    | .g n, some x => (s1.modThr fun t => (t.writeG n x).setTag n.1 true).retire o.sw
    | d, _ => s1.finish o.sw d.dst v)

/-! ## FCANCEL (R405, R416) -/

/-- A VRED taken out of a body that has not begun. -/
def Body.without (b : Body) (id : Nat) : Body := { b with ins := b.ins.filter fun x => x.fut != some id }

/-- A VRED cancelled: removed from a body that has not begun; a held one dropped alone, its fault withdrawn (R395); a begun
one runs on. -/
def Engines.cancelRed (e : Engines) (id : Nat) : Engines :=
  let drop (b : Body) : Option Body :=
    if b.started then some b
    else
      let c := b.without id
      if c.ins.isEmpty && !b.ins.isEmpty then none else some c
  let e1 := { e with vq := e.vq.filterMap drop, coll := e.coll.map fun b => b.without id }
  match e.held, e.vq with
  | some h, b :: r =>
    if (b.ins[h.idx]?).any fun x => x.fut == some id then
      { e1 with held := none, vq := { b with ins := b.ins.eraseIdx h.idx } :: r.filterMap drop }
    else e1
  | _, _ => e1

/-- A copy cancelled: removed while queued, stopped after its current element while running, which then resolves it. -/
def Engines.cancelCopy (e : Engines) (id : Nat) : Engines :=
  let stop (o : CopyOp) : CopyOp := if o.fut = id then { o with cancel := true } else o
  { e with ch := e.ch.map fun c => { c with run := c.run.map stop, queue := c.queue.filter fun o => o.fut != id } }

/-- A matrix operation cancelled: removed or aborted, a begun MST stopped after its current row, which then resolves it. -/
def Engines.cancelMat (e : Engines) (id : Nat) : Engines :=
  if e.keeps id then { e with mq := e.mq.map fun m => if m.fut = id then { m with dying := true } else m } else
  let note (r : MatRec) : MatRec := if r.fut = id && r.status == .pending then { r with status := .cancelled } else r
  { e with mq := e.mq.filter fun m => m.fut != id, mfail := e.mfail.map note }

/-- A BADDQ cancelled: the tables of R405 and R416 give it no row, so it runs on and resolves CANCELLED as it ends (R142; DEDUCED,
log 66). -/
def Engines.cancelBadd (e : Engines) (id : Nat) : Engines :=
  { e with bq := e.bq.map fun b => if b.fut = id then { b with cancel := true } else b }

/-- FCANCEL of the operation of a record that has not resolved (R405, R416). The future of a running copy, of a begun MST and of a BADDQ
resolves CANCELLED once the operation has ended, so that every write of the operation has then been applied (R142). -/
def State.cancelFuture (s : State) (core id : Nat) : State :=
  let s1 := s.modEng core fun e => (((e.cancelRed id).cancelCopy id).cancelMat id).cancelBadd id
  (if (s.coreOf core).eng.keeps id then s1 else s1.resolve core id .cancelled 0 0).setBusy core

/-- May the thread cancel the operation of a future: is it one of its own launch? A handle that a rewritten context record put into a
register may name another's, whose state does not change (R12). -/
def State.ownsFuture (s : State) (f : Future) : Bool := f.launch == s.thr.launch

/-- FCANCEL (R405): no effect on a resolved future or a register that holds no handle, and none on an operation of another launch
(R12). -/
def execFcancel (o : S1) (s : State) : Answer :=
  withThread s (s.gatherHandle o.a .gz fun s1 h _ =>
    match h with
    | some x =>
      if (s1.futureOf x).any fun f => f.status == .pending && s1.ownsFuture f then
        (s1.cancelFuture (x.toNat / 64) (x.toNat % 64)).retire o.sw
      else s1.retire o.sw
    | none => s1.retire o.sw)

end Sys2Proof.Machine
end

