-- ==== Sys2Proof/Machine/EngReg.lean ====
section
/-! DEFINITION. The engine registers (R383-R385, R408, R409, R411): ESET, EGET and the steps of a write. -/

namespace Sys2Proof.Machine

/-- The engine registers of a core. -/
inductive EReg where
  /-- SBASE, SGEO, SSTR of stream s: k = 0, 1, 2. -/
  | stream (s : Fin 8) (k : Fin 3)
  | spos (s : Fin 8)
  /-- CGEO, CSTR0-CSTR2, CCTL, CWP, CPOS of channel c: k = 0 to 6. -/
  | copy (c : Fin 4) (k : Fin 7)
  | vflags | vfpc | vfst | vrsm
  /-- RBASE, RCFG, RHEAD, RTAIL of ring r: k = 0 to 3. -/
  | ring (r : Fin 8) (k : Fin 4)
  | mscale | mflags | mfst | mkind
  | bqlim | bqpos | brlen | rflags
deriving DecidableEq, Repr

/-- The register of a number on a core, none where the maps assign none (R383, R408). -/
def engReg (core : Nat) (n : Nat) : Option EReg :=
  let f8 (x : Nat) : Fin 8 := Fin.ofNat 8 x
  if n < 0x20 then some (if n % 4 = 3 then .spos (f8 (n / 4)) else .stream (f8 (n / 4)) (Fin.ofNat 3 (n % 4)))
  else if n < 0x40 then
    if n % 8 = 7 then none else some (.copy (Fin.ofNat 4 ((n - 0x20) / 8)) (Fin.ofNat 7 (n % 8)))
  else if n = 0x40 then some .vflags
  else if n = 0x41 then some .vfpc
  else if n = 0x42 then some .vfst
  else if n = 0x43 then some .vrsm
  else if n < 0x100 then none
  else if n < 0x140 then if n % 8 < 4 then some (.ring (f8 ((n - 0x100) / 8)) (Fin.ofNat 4 (n % 8))) else none
  else if n = 0x140 then some .mscale
  else if n = 0x141 then some .mflags
  else if n = 0x142 then some .mfst
  else if n = 0x143 then some .mkind
  else if !isGateway core then none
  else if n = 0x148 then some .bqlim
  else if n = 0x149 then some .bqpos
  else if n = 0x14A then some .brlen
  else if n = 0x14B then some .rflags
  else none

/-! ## Reading -/

/-- VFST (R384). -/
def Engines.vfst (e : Engines) : Word :=
  match e.held with
  | some h => BitVec.ofNat 64 (h.chunk % 2 ^ 32 + h.cause % 256 * 2 ^ 32 + 2 ^ 40 + (if h.delivered then 2 ^ 41 else 0))
  | none => 0

/-- MKIND (R409). -/
def Engines.mkindWord (e : Engines) : Word :=
  BitVec.ofNat 64 (e.mkind.toList.foldr (fun k v => k.toNat + 4 * v) 0)

/-- A register as EGET reads it. -/
def State.engGet (s : State) (core : Nat) (r : EReg) : Word :=
  let e := (s.coreOf core).eng
  match r with
  | .stream i k => e.stream.toList.getD (3 * i.1 + k.1) 0
  | .spos i => BitVec.ofNat 64 (e.spos[i])
  | .copy c k =>
    let x := e.ch[c]
    match k with
    | 0 => x.geo
    | 1 => x.str0
    | 2 => x.str1
    | 3 => x.str2
    | 4 => x.ctl
    | 5 => x.cwp
    | 6 => BitVec.ofNat 64 x.cpos
  | .vflags => e.vflags.setWidth 64
  | .vfpc => (e.held.map fun h => h.pc).getD 0
  | .vfst => e.vfst
  | .vrsm => 0
  | .ring i k =>
    let x := e.ring[i]
    match k with
    | 0 => x.base
    | 1 => x.cfgWord
    | 2 => x.head.setWidth 64
    | 3 => x.tail.setWidth 64
  | .mscale => e.mscale.setWidth 64
  | .mflags => e.mflags.setWidth 64
  | .mfst => e.mfst
  | .mkind => e.mkindWord
  | .bqlim => (s.quadAt (quadOf core)).lim.setWidth 64
  | .bqpos => (s.quadAt (quadOf core)).pos.setWidth 64
  | .brlen => e.brlen.setWidth 64
  | .rflags => e.rflags.setWidth 64

/-! ## Writing -/

/-- RTAIL as a write leaves it (R411): clamped to RHEAD + COUNT. -/
def Ring.newTail (r : Ring) (v : Word) : BitVec 32 :=
  let t : BitVec 32 := v.setWidth 32
  if r.count < (t - r.head).toNat then r.head + BitVec.ofNat 32 r.count else t

/-- A register written; RO and RSV fields keep their values (R385, R409). -/
def State.engPut (s : State) (core : Nat) (r : EReg) (v : Word) : State :=
  match r with
  | .stream i k =>
    let w : Word := if k = 0 then v else if k = 1 then v &&& 0x1FFFFFFFFFFFF else v &&& 0x7FFFFFFFFFFFFFFF
    s.modEng core fun e => { e with stream := e.stream.set! (3 * i.1 + k.1) w }
  | .copy c k =>
    s.modCh core c fun x => match k with
      | 0 => { x with geo := v }
      | 1 => { x with str0 := v }
      | 2 => { x with str1 := v }
      | 3 => { x with str2 := v }
      | 4 => { x with ctl := v &&& 0xFF }
      | _ => x
  | .vflags => s.modEng core fun e => { e with vflags := v.setWidth 5 }
  | .vrsm => s.vrsm core (v.toNat % 4)
  | .ring i k =>
    let num := (s.coreOf core).sbNum
    s.modEng core fun e =>
      let x := e.ring[i]
      let y : Ring := match k with
        | 0 => { x with base := v, head := 0, tail := 0 }
        | 1 => { x with cfg := v &&& 0x3E1FFFF, head := 0, tail := 0 }
        | 2 => x
        | 3 => { x with tail := x.newTail v, num := num }
      { e with ring := e.ring.set i y }
  | .mscale => s.modEng core fun e => { e with mscale := v.setWidth 32 }
  | .mflags => s.modEng core fun e => { e with mflags := v.setWidth 6 }
  | .bqlim => s.setBqlim core v
  | .brlen => s.modEng core fun e => { e with brlen := v.setWidth 7 }
  | .rflags => s.modEng core fun e => { e with rflags := v.setWidth 5 }
  | _ => s

/-- Does a vector instruction that is queued or running name a stream? A held one is not asked (R385). -/
def Engines.vecNames (e : Engines) (r : Nat) : Bool :=
  e.vq.zipIdx.any fun b => b.1.ins.zipIdx.any fun m =>
    !(b.2 == 0 && e.held.any fun h => h.idx == m.2) && (vform m.1.instr).any fun v => v.streams.any fun x => x.1 == r

/-- Does an operation of the matrix unit name a ring? -/
def MatEntry.names (m : MatEntry) (r : Nat) : Bool :=
  (m.kind == .mma || m.kind == .mmaz) && (fieldOf m.ga 0 4 == r || fieldOf m.ga 4 4 == r)

/-- What a write to a register waits for (R385, R411): the key of the wait. -/
def Engines.inUse (e : Engines) (r : EReg) : Option Nat :=
  match r with
  | .stream i _ => if e.vecNames i.1 then some (10 + i.1) else none
  | .spos i => if e.vecNames i.1 then some (10 + i.1) else none
  | .copy c _ => if e.ch[c].run.isSome || !e.ch[c].queue.isEmpty then some (20 + c.1) else none
  | .ring i k => if k.1 < 2 && e.mq.any fun m => m.names i.1 then some (30 + i.1) else none
  | _ => none

/-- ESET by the issuing thread (R385): ILLEG unless it is anchored and the number is assigned; it waits unissued while the
register is in use. -/
def State.eset (s : State) (i : Instr) (sw : Bool) (a : Src) (n : Nat) (v? : Option Word) : State :=
  match engReg s.core.id n with
  | none => s.illegal i
  | some r =>
    if !s.thr.anchored then s.illegal i
    else s.gather1 a .gz fun s1 x =>
      match s1.core.eng.inUse r with
      | some k => s.parkOn 0 0 k
      | none => (s1.engPut s1.core.id r (v?.getD x)).retire sw

def execEset (o : EsetOp) (s : State) : Answer := withThread s (s.eset (.eset o) o.sw o.a o.n.toNat none)

/-- EGET (R385). -/
def execEget (o : EgetOp) (s : State) : Answer :=
  withThread s (match engReg s.core.id o.n.toNat with
    | none => s.illegal (.eget o)
    | some r =>
      if !s.thr.anchored then s.illegal (.eget o)
      else s.gatherLong [] o.d fun s1 _ => s1.finishLong o.sw o.d (Pending.ofVal (s1.engGet s1.core.id r) 0))

/-! ## The steps of a write, with the value written -/

/-- The write of a value to a register of the named kind by the issuing thread. -/
def esetStep (ok : EReg → Bool) (n : BitVec 9) (v : Word) (s : State) : Answer :=
  if (engReg s.core.id n.toNat).any ok then withThread s (s.eset (.eset ⟨false, .gz, n⟩) false .gz n.toNat (some v))
  else .fault .notEnabled

/-- ESET_RTAIL (R411). -/
def execEsetRtail (n : BitVec 9) (v : Word) (s : State) : Answer :=
  esetStep (fun r => match r with
    | .ring _ 3 => true
    | _ => false) n v s

/-- ESET_RING_CONFIG (R411): RBASE or RCFG. -/
def execEsetRingConfig (n : BitVec 9) (v : Word) (s : State) : Answer :=
  esetStep (fun r => match r with
    | .ring _ 0 => true
    | .ring _ 1 => true
    | _ => false) n v s

/-- ESET_STREAM_REG (R385). -/
def execEsetStreamReg (n : BitVec 9) (v : Word) (s : State) : Answer :=
  esetStep (fun r => match r with
    | .stream _ _ => true
    | .spos _ => true
    | _ => false) n v s

/-- ESET_COPY_REG (R385). -/
def execEsetCopyReg (n : BitVec 9) (v : Word) (s : State) : Answer :=
  esetStep (fun r => match r with
    | .copy _ _ => true
    | _ => false) n v s

/-- ESET_BQLIM (R420): ILLEG on a core that is no gateway core. -/
def execEsetBqlim (v : Word) (s : State) : Answer :=
  withThread s (s.eset (.eset ⟨false, .gz, 0x148⟩) false .gz 0x148 (some v))

end Sys2Proof.Machine
end

