-- ==== Sys2Proof/Machine/Sys.lean ====
section
/-! DEFINITION. The system instructions (R333-R350): the capability list (R32-R35), the system registers, counters, TLBI,
IDLE, SPILL, error injection, TRAP, BRK and ERET. -/

namespace Sys2Proof.Machine

/-! ## The capability list (R32-R35) -/

/-- Ids and lengths of the records, in ascending order of id (log 4). -/
def capRecords : List (Nat × Nat) :=
  [(1, 288), (2, 168), (3, 56), (4, 32), (5, 16), (6, 16), (7, 32), (8, 80), (9, 56), (10, 64), (11, 24), (12, 80)]

/-- Word 1 of a record that changes: its generation (R34). -/
def genWord (g : Nat) : Nat := g % 2 ^ 32

/-- Core array (R35). -/
def State.capCores (s : State) (n : Nat) : Nat :=
  let c := s.caps
  if n = 1 then genWord c.genCore
  else if n = 2 then (if s.pkg == .t8s then 0xFF else 3) + c.seamOk.toNat * 256 + 16 * 2 ^ 16 + 16 * 2 ^ 24
  else if n < 35 then
    let d := (n - 3) / 4
    ofBits ((List.range 64).map fun i => s.enabled (d * 256 + (n - 3) % 4 * 64 + i))
  else
    let left (d : Nat) : Nat := if c.disabled.any fun x => dieOf x == d then 0 else c.spares.toList.getD d 0
    (List.range 8).foldr (fun d v => left d % 16 + 16 * v) 0

/-- Memory (R105). -/
def State.capMem (s : State) (n : Nat) : Nat :=
  let c := s.caps
  if n = 1 then genWord c.genMem
  else if n = 2 then c.cap
  else if n = 3 then
    (if s.pkg == .t8s then 1 else 0) + (if c.rmv then 2 else 0) + s.pkg.stacks * 256 + 16 * 2 ^ 16
  else if n = 4 then c.rmvbase
  else if n - 5 < s.pkg.stacks then ofBits ((List.range 16).map fun l => !(c.layers.contains (n - 5, l)))
  else 0

/-- Seam directory (R168). -/
def State.capSeam (s : State) (n : Nat) : Nat :=
  let c := s.caps
  let inc (a : Nat) : Nat := (c.incarn.toList.getD a 0).toNat
  match n with
  | 1 => genWord c.genSeam
  | 2 => c.seamOk.toNat + (if c.dless then 4 else 0) + c.surv * 8 + (if c.fovr then 16 else 0)
  | 3 => c.dead.toNat
  | 4 => (List.range 8).foldr (fun a v => inc a + 256 * v) 0
  | 5 => (List.range 5).foldr (fun a v => inc (8 + a) + 256 * v) 0
  | _ => 4194304

/-- Answer table (R375). -/
def State.capTable (s : State) (n : Nat) : Nat :=
  match n with
  | 1 => if s.pkg == .t8s then 1048576 else 262144
  | 2 => s.pkg.slices + 8 * 2 ^ 8 + 1024 * 2 ^ 16 + 96 * 2 ^ 32 + 16 * 2 ^ 40
  | _ => 65535 + 16 * 2 ^ 16

/-- Host link (R218). -/
def State.capHost (s : State) (n : Nat) : Nat :=
  match n with
  | 1 => genWord s.caps.genHost
  | 2 => (s.links.up &&& s.caps.seamOk).toNat + (if s.links.cacheen then 4 else 0) + (if s.links.memen then 8 else 0)
  | _ => 512

/-- CXL ports (R220). -/
def State.capCxl (s : State) (n : Nat) : Nat :=
  let port (i : Nat) : Port := s.links.ports.toList.getD i Port.reset
  if n = 1 then genWord s.caps.genCxl
  else if n < 6 then
    let p := port (n - 2)
    (if p.up then 1 else 0) + (if p.dcd then 2 else 0) + (if p.fabric then 4 else 0) + p.width % 32 * 8 + p.rate % 256 * 256
  else (port (n - 6)).extents.foldl (fun v x => v + x.2) 0

/-- Peer links (R226). -/
def State.capPeer (s : State) (n : Nat) : Nat :=
  let link (i : Nat) : PeerLink := s.links.peers.toList.getD i PeerLink.reset
  if n = 1 then genWord s.caps.genPeer
  else if n = 2 then
    s.links.node % 8 + 8 * ofBits ((List.range 8).map fun k => s.links.peers.toList.any fun l => l.trained && l.node == k)
  else (List.range 4).foldr (fun i v =>
    let l := link (4 * (n - 3) + i)
    (if l.trained then 1 + l.node % 8 * 2 + l.remote % 16 * 16 else 0) + 65536 * v) 0

/-- Health (R214). -/
def State.capHealth (s : State) (n : Nat) : Nat :=
  let h := s.health
  match n with
  | 1 => genWord s.caps.genHealth
  | 2 => h.why.toNat
  | 3 => h.cewin % 2 ^ 32 + 10000 * 2 ^ 32
  | 4 => h.uecnt % 2 ^ 32 + h.rstcnt % 2 ^ 32 * 2 ^ 32
  | 5 => h.cecnt % 2 ^ 32 + h.rescnt % 2 ^ 32 * 2 ^ 32
  | 6 => h.lastset
  | _ => 0

/-- Security (R230). -/
def State.capSecurity (s : State) (n : Nat) : Nat :=
  if n = 1 then 1
  else if n = 2 then s.mgmt.svn.toNat
  else if n < 9 then s.mgmt.meas.toNat / 2 ^ (64 * (n - 3)) % 2 ^ 64
  else 1048576

/-- Word n, n at least 1, of a record by id. -/
def State.capField (s : State) (id n : Nat) : Nat :=
  match id with
  | 1 => s.capCores n
  | 2 => s.capMem n
  | 3 => s.capSeam n
  | 4 => s.capTable n
  | 5 => 8 + 72 * 256
  | 6 => 0x1FFFFFE
  | 7 => s.capHost n
  | 8 => s.capCxl n
  | 9 => s.capPeer n
  | 10 => s.capHealth n
  | 11 => if n = 1 then 8 + 8 * 2 ^ 8 + 8 * 2 ^ 16 + 48 * 2 ^ 24 else 0x7F
  | _ => s.capSecurity n

/-- The word at byte offset o of the list, whose record on hand begins at `at_` (R32, R33). -/
def State.capFrom (s : State) (o : Nat) : Nat → List (Nat × Nat) → Word
  | _, [] => 0
  | at_, (id, len) :: r =>
    if o < at_ + len then
      if o = at_ then
        BitVec.ofNat 64 (id + 2 ^ 16 + (if r.isEmpty then 0 else at_ + len) * 2 ^ 24 + len * 2 ^ 40)
      else BitVec.ofNat 64 (s.capField id ((o - at_) / 8))
    else s.capFrom o (at_ + len) r

/-- CAPR (R340). -/
def execCapr (o : R2) (s : State) : Answer :=
  withThread s (s.long1 o.a o.d fun s1 a =>
    if a.toNat % 8 ≠ 0 then s.trap (cause cALIGN a)
    else s1.finishLong o.sw o.d (Pending.ofVal (if 0x1000 ≤ a.toNat then 0 else s1.capFrom a.toNat 0 capRecords) 0))

/-! ## System registers (R334) -/

/-- Does an index name a register? -/
def sysNamed (i : Nat) : Bool :=
  i ≤ 7 || (0x10 ≤ i && i ≤ 0x18) || (0x20 ≤ i && i ≤ 0x27) || (0x30 ≤ i && i ≤ 0x37) || (0x100 ≤ i && i ≤ 0x106) ||
    (0x110 ≤ i && i ≤ 0x11F) || (0x4000 ≤ i && i ≤ 0x41FF)

/-- Is an access from launch mode marked PRIV? ERRINJ is under R348, CLSEL under R234. -/
def sysPriv (i : Nat) : Bool :=
  i == 6 || (0x100 ≤ i && i ≤ 0x106 && i != 0x103) || (0x110 ≤ i && i ≤ 0x11F) || 0x4000 ≤ i

/-- The next refresh window later than a cc (R102). -/
def wsrw (cc : Nat) : Word :=
  let n := cc / 2400 + 1
  BitVec.ofNat 64 (n * 2400 % 2 ^ 32 + n % 32 * 2 ^ 32 + 1920 * 2 ^ 37)

def State.sliceCnt (s : State) (i : Nat) : SliceCnt :=
  (s.seam.cnts.find? fun c => c.slice == i).getD ⟨i, Vector.replicate 8 Counter.reset⟩

/-- A register as MFS reads it at issue. -/
def State.sysGet (s : State) (i : Nat) : Word :=
  let t := s.thr
  let n := s.core.id
  if i = 0 then t.st
  else if i = 1 then t.tr.epc
  else if i = 2 then t.tr.ecause
  else if i = 3 then t.tr.eval
  else if i = 4 then t.tr.estat
  else if i = 5 then t.tr.evec
  else if i = 6 then s.sys.svec
  else if i = 7 then t.tb
  else if i = 0x10 then BitVec.ofNat 64 (n + t.pos.getD 0 * 2 ^ 11)
  else if i = 0x11 then BitVec.ofNat 64 (quadOf n % 64)
  else if i = 0x12 then BitVec.ofNat 64 (clusterOf n % 16)
  else if i = 0x13 then BitVec.ofNat 64 (Machine.stackOf n % 2)
  else if i = 0x14 then BitVec.ofNat 64 (dieOf n)
  else if i = 0x15 then BitVec.ofNat 64 t.launch
  else if i = 0x16 then BitVec.ofNat 64 s.cc
  else if i = 0x17 then wsrw s.cc
  else if i = 0x18 then 0xF000000010000
  else if 0x20 ≤ i && i ≤ 0x27 then (s.core.cnt.toList.getD (i - 0x20) Counter.reset).sel
  else if 0x30 ≤ i && i ≤ 0x37 then ((s.clusterAt (clusterOf n)).cnt.toList.getD (i - 0x30) Counter.reset).sel
  else if i = 0x100 then s.core.rot
  else if i = 0x103 then s.core.errinj
  else if i = 0x104 then s.core.watch
  else if i = 0x105 || i = 0x106 || (0x110 ≤ i && i ≤ 0x11F) then s.coreReg n i
  else if 0x4000 ≤ i then ((s.sliceCnt ((i - 0x4000) / 8)).cnt.toList.getD (i % 8) Counter.reset).sel
  else 0

/-- PRIV with the instruction word (R203). -/
def State.privTrap (s : State) (i : Instr) : State := s.trap (cause cPRIV (((encode i).getD 0).setWidth 64))

/-- MFS (R335): st is read once the thread's narrowing stores have been applied (R91). -/
def execMfs (o : MfsOp) (s : State) : Answer :=
  let i := o.idx.toNat
  withThread s (
    if !sysNamed i then s.illegal (.mfs o)
    else if !s.thr.sup && sysPriv i then s.privTrap (.mfs o)
    else s.gatherLong [] o.d fun s1 _ =>
      if i = 7 && s.thr.damage.contains 21 then s.regerr 21
      else if i = 0 && s1.hasNarrow s1.thr.frame then s.parkOn 20 0 0
      else s1.finishLong o.sw o.d (Pending.ofVal (s1.sysGet i) 0))

/-! ## Writes -/

/-- A counter selector written (R234): OVF is cleared by 1; launch mode forces OWNL. -/
def Counter.select (c : Counter) (v : Word) (launchMode : Bool) (launch : Nat) : Counter :=
  let ovf := c.sel.getLsbD 12 && !v.getLsbD 12
  { c with sel := setBit (setBit (v &&& 0xFFF) 11 (v.getLsbD 11 || launchMode)) 12 ovf, by_ := launch }

/-- st written by MTS: RM, FLAGS, KBB, NOKILL, SUBNH (R37). -/
def stWrite (st v : Word) : Word := (st &&& ~~~(0x10FFC : Word)) ||| (v &&& 0x10FFC)

/-- ROTCFG written (R50, R51): threads at and above P leave the rotation, and the mode takes effect from the next cc. -/
def State.setRot (s : State) (v : Word) : State :=
  let old := s.core.rot
  let new := v &&& 0x3F
  let p := fieldOf new 1 5 + 1
  let out := if new.getLsbD 0 then
      (s.onCore s.core.id).filter fun t => !t.isSup && t.pos.any fun x => decide (p ≤ x)
    else []
  let from_ := if old = new then s.core.rotFrom else s.cc + 1
  ({ s with core := { s.core with rot := new, rotFrom := from_ } }).removeAll out

/-- HBMRMV written (R111, R112): the acknowledgement of step 2. -/
def State.ackRemoval (s : State) (v : Word) : State :=
  if v.getLsbD 0 && s.caps.rmv then
    { s with mgmt := { s.mgmt with removals := s.mgmt.removals.modifyHead fun r => { r with acked := true } } }
  else s

/-- Does a write to CORERST name a core that cannot be reset (R209)? -/
def State.resetRefused (s : State) (v : Word) : Bool :=
  let n := fieldOf v 0 11
  n == s.core.id || !s.enabled n || (s.coreOf n).reset.isSome

/-- A per-core reset begins (R210 step 1). -/
def State.startReset (s : State) (n : Nat) (mapout : Bool) : State :=
  s.modCore n fun c => { c with reset := some ⟨mapout⟩ }

/-- Does a value written to ERRINJ arm an injection (R349)? -/
def arms (v : Word) : Bool :=
  let k := fieldOf v 0 3
  (1 ≤ k && k ≤ 4) || (k == 5 && !v.getLsbD 20)

/-- ERRINJ written (R348, R349). -/
def State.setErrinj (s : State) (v : Word) : State :=
  let lopen := if s.thr.sup then v.getLsbD 63 else s.core.errinj.getLsbD 63
  let w := setBit (setBit (v &&& 0x1FFFFFFF7F) 7 (arms v)) 63 lopen
  { s with core := { s.core with errinj := w, injTid := s.thr.tid, injSkip := if arms v then fieldOf v 8 8 else 0 } }

/-- A register written by the issuing thread in a mode that may write it; RO registers keep their values. -/
def State.sysPut (s : State) (i : Nat) (v : Word) : State :=
  let t := s.thr
  let lm := !t.sup
  let tr (f : TrapRegs → TrapRegs) : State := s.modThr fun t => { t with tr := f t.tr }
  if i = 0 then s.modThr fun t => { t with st := stWrite t.st v }
  else if i = 1 then tr fun r => { r with epc := v }
  else if i = 2 then tr fun r => { r with ecause := v &&& 0x7FF }
  else if i = 3 then tr fun r => { r with eval := v }
  else if i = 4 then tr fun r => { r with estat := v }
  else if i = 5 then tr fun r => { r with evec := v }
  else if i = 6 then { s with sys := { s.sys with svec := v } }
  else if 0x20 ≤ i && i ≤ 0x27 then
    let f (c : Counter) : Counter := c.select v lm t.launch
    { s with core := { s.core with cnt := if h : i - 0x20 < 8 then s.core.cnt.set (i - 0x20) (f s.core.cnt[i - 0x20])
        else s.core.cnt } }
  else if 0x30 ≤ i && i ≤ 0x37 then
    s.modCluster (clusterOf s.core.id) fun c => { c with
      cnt := if h : i - 0x30 < 8 then c.cnt.set (i - 0x30) (c.cnt[i - 0x30].select v lm t.launch) else c.cnt }
  else if i = 0x100 then s.setRot v
  else if i = 0x101 then s.ackRemoval v
  else if i = 0x102 then
    if v.getLsbD 11 then s.startReset (fieldOf v 0 11) (v.getLsbD 12) else s
  else if i = 0x103 then s.setErrinj v
  else if i = 0x104 then { s with core := { s.core with watch := v &&& ~~~(0x3C : Word) } }
  else if i = 0x106 then s.setCoreReg i v
  else if i = 0x105 || (0x110 ≤ i && i ≤ 0x11F) then s.setCoreReg i (v &&& 0xFFFFFFFFF0000)
  else if 0x4000 ≤ i then
    let k := (i - 0x4000) / 8
    let c := s.sliceCnt k
    let c1 : SliceCnt := { c with
      cnt := if h : i % 8 < 8 then c.cnt.set (i % 8) (c.cnt[i % 8].select v lm t.launch) else c.cnt }
    s.modSeam fun m => { m with cnts := c1 :: m.cnts.filter fun x => x.slice != k }
  else s

/-- Does an MTS from launch mode raise PRIV? -/
def State.mtsPriv (s : State) (i : Nat) : Bool :=
  sysPriv i || (0x30 ≤ i && i ≤ 0x37) || (i == 0x103 && !s.core.errinj.getLsbD 63)

/-- MTS by the issuing thread (R335). -/
def State.mts (s : State) (ins : Instr) (sw : Bool) (a : Src) (i : Nat) (v? : Option Word) : State :=
  if !sysNamed i then s.illegal ins
  else if !s.thr.sup && s.mtsPriv i then s.privTrap ins
  else s.gather1 a .gz fun s1 x =>
    let v := v?.getD x
    if i = 0 && 5 ≤ fieldOf v 2 3 then s.illegal ins
    else if i = 0x102 && v.getLsbD 11 && s.resetRefused v then s.trap (cause cPROT v)
    else (s1.sysPut i v).retire sw

def execMts (o : MtsOp) (s : State) : Answer := withThread s (s.mts (.mts o) o.sw o.a o.idx.toNat none)

/-- The write of a value to a system register by the issuing thread, where the value has the form that the step is for. -/
def mtsStep (idx : BitVec 15) (ok : Bool) (v : Word) (s : State) : Answer :=
  if ok then withThread s (s.mts (.mts ⟨false, .gz, idx⟩) false .gz idx.toNat (some v)) else .fault .notEnabled

/-- MTS_ROTCFG (R51). -/
def execMtsRotcfg (v : Word) (s : State) : Answer := mtsStep 0x100 true v s

/-- MTS_HBMRMV_ACK (R112). -/
def execMtsHbmrmvAck (v : Word) (s : State) : Answer := mtsStep 0x101 (v.getLsbD 0) v s

/-- MTS_CORERST_GO (R209). -/
def execMtsCorerstGo (v : Word) (s : State) : Answer := mtsStep 0x102 (v.getLsbD 11) v s

/-- ERRINJ_ARM_RESID_FIRST (R349). -/
def execErrinjArmResidFirst (v : Word) (s : State) : Answer := mtsStep 0x103 (fieldOf v 0 3 == 1) v s

/-- ERRINJ_ARM_RESID_BOTH (R349). -/
def execErrinjArmResidBoth (v : Word) (s : State) : Answer := mtsStep 0x103 (fieldOf v 0 3 == 2) v s

/-- ERRINJ_ARM_SCRATCH_UCE (R349). -/
def execErrinjArmScratchUce (v : Word) (s : State) : Answer := mtsStep 0x103 (fieldOf v 0 3 == 3) v s

/-- ERRINJ_ARM_SCRATCH_CE (R349). -/
def execErrinjArmScratchCe (v : Word) (s : State) : Answer := mtsStep 0x103 (fieldOf v 0 3 == 4) v s

/-- ERRINJ_ARM_REG_DAMAGE (R349). -/
def execErrinjArmRegDamage (v : Word) (s : State) : Answer := mtsStep 0x103 (fieldOf v 0 3 == 5 && !v.getLsbD 20) v s

/-- ERRINJ_CANCEL (R349). -/
def execErrinjCancel (v : Word) (s : State) : Answer := mtsStep 0x103 (!arms v) v s

/-! ## Event counters (R341) -/

/-- Sources of a core that count time the model leaves out: stalls (R235, log 2). -/
def coreTimed (i : Nat) : Bool := 2 ≤ i && i ≤ 0xA

/-- Those of a cluster: the traffic of the link beside a gateway cluster. -/
def clusterTimed (cl i : Nat) : Bool := (cl % 16 == 0 || cl % 16 == 15) && 0x110 ≤ i && i ≤ 0x113

/-- Those of a seam slice: busy cycles and queue depth, and on slice 0 the traffic of the host link. -/
def sliceTimed (k i : Nat) : Bool := i == 0x206 || i == 0x207 || (k % 32 == 0 && 0x210 ≤ i && i ≤ 0x212)

/-- A counter as it is read: one of a timed source of its unit has gone on by a free number of events. A source that the unit does not
offer counts nothing (R234). -/
def Counter.read (timed : Nat → Bool) (c : Counter) (free : Nat) : Counter :=
  let src := fieldOf c.sel 0 10
  if c.sel.getLsbD 10 && timed src && !(0x110 ≤ src && c.sel.getLsbD 11) then
    c.count src c.by_ (Config.timedCount free).toNat
  else c

/-- CNTR (R341). -/
def execCntr (o : R2) (s : State) : Answer :=
  withThread s (s.long1 o.a o.d fun s1 a =>
    let n := a.toNat % 8
    let k := fieldOf a 5 6
    let (f, s2) := s1.fresh
    let upd (timed : Nat → Bool) (v : Vector Counter 8) : Vector Counter 8 :=
      v.set! n ((v.toList.getD n Counter.reset).read timed f)
    let get (v : Vector Counter 8) : Word := (v.toList.getD n Counter.reset).cnt.setWidth 64
    match fieldOf a 3 2 with
    | 0 =>
      let s3 : State := { s2 with core := { s2.core with cnt := upd coreTimed s2.core.cnt } }
      s3.finishLong o.sw o.d (Pending.ofVal (get s3.core.cnt) 0)
    | 1 =>
      let cl := clusterOf s2.core.id
      let s3 := s2.modCluster cl fun c => { c with cnt := upd (clusterTimed cl) c.cnt }
      s3.finishLong o.sw o.d (Pending.ofVal (get (s3.clusterAt (clusterOf s3.core.id)).cnt) 0)
    | 2 =>
      if !s2.caps.seamOk.getLsbD (k / 32) then s2.finishLong o.sw o.d (Pending.ofVal 0 0)
      else
        let c := s2.sliceCnt k
        let s3 := s2.modSeam fun m => { m with
          cnts := m.cnts.map fun x => if x.slice = k then { x with cnt := upd (sliceTimed k) x.cnt } else x }
        s3.finishLong o.sw o.d (Pending.ofVal (get (upd (sliceTimed k) c.cnt)) 0)
    | _ => s1.finishLong o.sw o.d (Pending.ofVal 0 0))

/-! ## TLBI (R342) -/

/-- Does a TLBI name an entry? -/
def tlbiNames (a b : Word) (e : TlbEntry) : Bool :=
  let ctx : Option Nat := if b.getLsbD 4 then none else some (b.toNat % 16)
  match fieldOf b 5 2 with
  | 0 => e.tenant == ctx && canonical a.toNat && e.base ≤ a.toNat && a.toNat < e.base + e.size
  | 1 => e.tenant == ctx
  | _ => true

/-- Every named translation removed from every core and cluster. -/
def State.tlbi (s : State) (a b : Word) : State :=
  let keep (l : List TlbEntry) : List TlbEntry := l.filter fun e => !tlbiNames a b e
  let s1 := s.modCores fun c => { c with tlb := keep c.tlb }
  { s1 with clusters := s1.clusters.map fun c => { c with tlb := keep c.tlb } }

/-- May an access at an address have been translated through an entry that a TLBI names (R121)? Told by the table, where `mine` says
that it is the one named, and by the largest page size that a leaf can have. -/
def TlbiWait.meets (w : TlbiWait) (mine : Bool) (l : Loc) : Bool :=
  let b := w.ctl
  (match l.place with
    | .scratch _ _ => false
    | .weight _ => false
    | _ => true) &&
  (2 ≤ fieldOf b 5 2 || ((b.getLsbD 4 || mine) &&
    (fieldOf b 5 2 == 1 || (canonical w.what.toNat && l.va.toNat / 0x40000000 == w.what.toNat / 0x40000000))))

/-- The same of an access of a launch. -/
def State.tlbiMeets (s : State) (w : TlbiWait) (launch : Nat) (l : Loc) : Bool := w.meets (s.tenantOf launch == some (w.ctl.toNat % 16)) l

/-- Has a TLBI's announcement been delivered, and has every access that was in flight as its entries went, and that may have used one of
them, completed (R121)? -/
def State.tlbiDone (s : State) (w : TlbiWait) : Bool :=
  w.win.isNone &&
  (w.marks.all fun m =>
    ((s.coreOf m.1).sb.all fun e => !(decide (e.num < m.2) && s.tlbiMeets w e.tid.launch e.loc)) &&
      s.net.reqs.all fun r => !(r.core == m.1 && decide (r.num ≤ m.2) && s.tlbiMeets w r.tid.launch r.loc)) &&
    (w.recs.all fun r => !s.launcher.reqs.any fun x => x.core == r.core && x.locs == r.locs) &&
    (w.stefs.all fun e => !s.net.fe.any fun r => r.e.core == e.core && r.e.tok == e.tok && r.e.key == e.key) &&
    s.net.aggs.all fun a => !(a.parts.any fun p => s.tlbiMeets w p.launch a.loc)

/-- A TLBI reaches every core, L2 TLB and walker (R342): the entries go, and what is in flight is noted. A walk reads its entries as it ends, so
that one which has read an entry that goes begins anew. -/
def State.tlbiLands (s : State) (w : TlbiWait) : State :=
  let s1 := s.tlbi w.what w.ctl
  let w1 : TlbiWait := { w with
    win := none
    marks := s.allCores.map fun c => (c.id, c.sbNum)
    recs := s.launcher.reqs.filter fun r => r.locs.any (w.meets (r.tenant == w.ctl.toNat % 16))
    stefs := (s.net.fe.map fun r => r.e).filter fun e => e.kind == .stef && !isScratchKey e.key }
  { s1 with mgmt := { s1.mgmt with tlbis := s1.mgmt.tlbis.map fun x => if x.core = w.core && x.frame = w.frame then w1 else x } }

/-- The window in which a core's TLBI is announced: the next that its lane has free. One core announces one a window (DESIGN CHOICE, log 5). -/
def State.tlbiWindow (s : State) (core : Nat) : Nat :=
  let w0 := s.cc / 8 + 1
  let taken (w : Nat) : Bool := s.mgmt.tlbis.any fun x => x.core == core && x.win == some w
  w0 + ((List.range (s.mgmt.tlbis.length + 1)).find? fun i => !taken (w0 + i)).getD 0

/-- The TLBI of a thread that has been announced, if any. -/
def State.tlbiOf (s : State) (core frame : Nat) : Option TlbiWait := s.mgmt.tlbis.find? fun w => w.core == core && w.frame == frame

/-- The key of the wait of a TLBI that has been announced. -/
def tlbiKey : Nat := 2 ^ 70

/-- TLBI (R342): it waits as FENCE.p with SL and SS would, is announced on the Hem, and waits until its window has been delivered, the named
entries are gone, and the accesses in flight that may have used them have completed (R121). -/
def execTlbi (o : S2) (s : State) : Answer :=
  withThread s (s.privileged (.tlbi o) (s.gather2 o.a o.b .gz fun s1 a b =>
    let others := s.mgmt.tlbis.filter fun w => !(w.core == s.core.id && w.frame == s.thr.frame)
    let put (t : State) (l : List TlbiWait) : State := { t with mgmt := { t.mgmt with tlbis := l } }
    if s.thr.phase = tlbiKey then
      if (s.tlbiOf s.core.id s.thr.frame).all s.tlbiDone then (put s1 others).retire o.sw else s.parkOn 16 0 tlbiKey
    else
      let num := if s.thr.phase = 0 then s.core.sbNum else s.thr.phase - 1
      if s1.olderDone s1.thr 3 num 6 then
        let w : TlbiWait := ⟨s.core.id, s.thr.frame, a, b, some (s.tlbiWindow s.core.id), [], [], []⟩
        (put (s.phase tlbiKey) (others ++ [w])).parkOn 16 0 tlbiKey
      else (s.phase (num + 1)).parkOn 16 0 (64 + num)))

/-- HEM_WINDOW_DELIVERY (R135, R342): the announcements of window w are delivered in cc 8w + 72, after those of the windows before it. -/
def execHemWindowDelivery (w : Nat) (s : State) : Answer :=
  let due (x : TlbiWait) : Bool := x.win.any fun v => decide (v ≤ w)
  let s1 : State := { s with cc := max s.cc (8 * w + 72), hem := s.hem.filter fun x => w < x.2 }
  whenEnabled ((s.hem.any fun x => x.2 == w) || s.mgmt.tlbis.any fun x => x.win == some w)
    ((s.mgmt.tlbis.filter due).foldl State.tlbiLands s1)

/-! ## IDLE, SPILL (R346, R347) -/

/-- IDLE (R346): an idle supervisor thread gives up its position. -/
def execIdle (o : S0) (s : State) : Answer :=
  withThread s (s.privileged (.idle o) (s.gather [] .gz fun s1 _ =>
    if !s1.thr.pend.isEmpty then s.modThr fun t => { t with park := some ⟨1, 0, 0, s.cc, none⟩ }
    else if s1.thr.wake then (s1.modThr fun t => { t with wake := false }).retire o.sw
    else ((s1.retire false).parkFor 14 0 0 none).modThr fun t => if t.isSup then { t with pos := none } else t))

/-- Does the engine area of the core of a thread lie wholly in its launch's spill area, where it is anchored (R208)? -/
def State.areaFits (s : State) (t : Thread) : Bool :=
  !t.anchored || match s.launchOf t.launch with
    | none => false
    | some l =>
      let cs := s.rectCores l.info
      cs.contains t.core &&
        decide (cs.length * (l.info.tpc + 1) * 256 + (s.rectIndex l t.core + 1) * 0x4000 ≤ l.info.spillsz.toNat)

/-- Has the thread of a frame still to be spilled for a SPILL? One whose engine area does not fit stays removed. -/
def State.spillDue (s : State) (core f : Nat) : Bool := (s.threadAt core f).any fun t => t.pos.isNone && s.areaFits t

/-- SPILL (R347): the thread of a frame is removed, and the issuer parks until the spill engine has written it. -/
def execSpill (o : S1) (s : State) : Answer :=
  withThread s (s.privileged (.spill o) (s.gather1 o.a .gz fun s1 a =>
    let f := a.toNat % 64
    if s.thr.phase ≠ 0 then (if s1.spillDue s1.core.id f then s.parkFor 16 0 f none else s1.retire o.sw)
    else if f = s1.thr.frame || 62 ≤ f then s.trap (cause cPROT a)
    else match s1.threadAt s1.core.id f with
      | none => s1.retire o.sw
      | some t => ((if t.pos.isSome then s.removeAll [t] else s).phase 1).parkFor 16 0 f none))

/-! ## TRAP, BRK, ERET (R338, R339) -/

def execTrap (o : S1) (s : State) : Answer :=
  withThread s (s.gather1 o.a .gz fun _ a => s.trap (cause cSWTRAP a))

def execBrk (o : S1) (s : State) : Answer :=
  withThread s (s.gather1 o.a .gz fun _ a => s.trap (cause cBREAK a))

/-- ERET (R339): waits for the long results, then returns from the innermost handler; a held vector fault is retried
(R395). -/
def execEret (o : S0) (s : State) : Answer :=
  withThread s (s.gather [] .gz fun s1 _ =>
    if !s1.thr.pend.isEmpty then s.modThr fun t => { t with park := some ⟨1, 0, 0, s.cc, none⟩ }
    else if !s1.thr.tr.inE && !s1.thr.tr.inS then s.illegal (.eret o)
    else if s1.thr.tr.epc.toNat % 4 ≠ 0 then s.trap (cause cALIGN s1.thr.tr.epc)
    else s1.eretHeld.eret)

end Sys2Proof.Machine
end

