-- ==== Sys2Proof/Machine/Spill.lean ====
section
/-! DEFINITION. Pre-emption (R76, R77, R205-R208): the engines of a removed thread released, the spill engine, the reload and
the return of removed threads, and scratchpads saved and restored (R88). -/

namespace Sys2Proof.Machine

/-! ## Release of the engines of a removed thread (R206) -/

/-- Operations of a frame on a channel that are recorded, in order; a cancelled copy is left to stop. -/
def Channel.records (c : Channel) (ch frame : Nat) : List RecOp :=
  let mine (o : CopyOp) : Bool := o.frame == frame && !o.cancel
  (c.run.filter mine).toList.map (RecOp.running ch) ++ (c.queue.filter mine).map (RecOp.copy ch) ++
    (c.stopped.filter fun o => o.frame == frame).toList.map (RecOp.stopped ch)

/-- What the engines hold of a frame as restartable operations (R206, R390): matrix operations, bodies with the fault held by
the first of them, the body being collected, copies. -/
def Engines.records (e : Engines) (frame : Nat) : List RecOp :=
  (e.mq.filter fun m => m.frame == frame && !m.begun).map RecOp.mat ++
    (e.vq.filter fun b => b.frame == frame && !b.dying).map RecOp.body ++
    (e.held.filter fun h => h.frame == frame).toList.map RecOp.held ++
    (e.coll.filter fun b => b.frame == frame).toList.map RecOp.collect ++
    (List.finRange 4).flatMap fun i => e.ch[i].records i.1 frame

/-- The engines without what has been recorded of a frame. -/
def Engines.withoutRecords (e : Engines) (frame : Nat) : Engines :=
  let keep (o : CopyOp) : Bool := o.frame != frame || o.cancel
  { e with
    mq := e.mq.filter fun m => m.frame != frame || m.begun
    vq := e.vq.filter fun b => b.frame != frame || b.dying
    held := e.held.filter fun h => h.frame != frame
    coll := e.coll.filter fun b => b.frame != frame
    ch := e.ch.map fun c => { c with
      run := c.run.filter keep, queue := c.queue.filter keep, stopped := c.stopped.filter fun o => o.frame != frame } }

/-- ENGINE_RELEASE (R206): the owner has been removed and no matrix operation of it is under way; its other operations,
each at a chunk or an element, are recorded and the engines pass on. -/
def execEngineRelease (core : Nat) (s : State) : Answer :=
  let e := (s.coreOf core).eng
  -- a terminated owner leaves them to frame 64 until its cancelled operations have stopped (R204)
  if e.owner = some 64 then whenEnabled (!e.stopping) (s.releaseEngines core)
  else match e.owner.bind fun f => s.threadAt core f with
  | none => .fault .notEnabled
  | some t =>
    let f := t.frame
    whenEnabled (t.pos.isNone && !(e.mq.any fun m => m.frame == f && m.begun && !m.dying) && e.vq.all fun b => b.frame != f || b.cur.isNone)
      (((s.modCore core fun c => { c with eng := c.eng.withoutRecords f }).modThread core f fun t =>
        { t with recorded := e.records f }).releaseEngines core)

/-- A recorded operation put back. -/
def Engines.putBack (e : Engines) (frame : Nat) (r : RecOp) : Engines :=
  let chan (ch : Nat) (f : Channel → Channel) : Engines :=
    { e with ch := if h : ch < 4 then e.ch.set ch (f e.ch[ch]) else e.ch }
  match r with
  | .mat m => { e with mq := e.mq ++ [{ m with frame := frame }] }
  | .body b => { e with vq := e.vq ++ [{ b with frame := frame }] }
  | .collect b => { e with coll := some { b with frame := frame } }
  | .held h => { e with held := some { h with frame := frame } }
  | .running ch o => chan ch fun c => { c with run := some { o with frame := frame } }
  | .copy ch o => chan ch fun c => { c with queue := c.queue ++ [{ o with frame := frame }] }
  | .stopped ch o => chan ch fun c => { c with stopped := some { o with frame := frame } }

/-- A removed thread regains its engines and its recorded operations run on (R206). -/
def State.regain (s : State) (t : Thread) : State :=
  let s1 := s.modCore t.core fun c =>
    { c with eng := t.recorded.foldl (fun e r => e.putBack t.frame r) { c.eng with owner := some t.frame } }
  (s1.modThread t.core t.frame fun t => { t with recorded := [] }).setBusy t.core

/-- Are the engines of a thread's core free for it: its own still, or owned by no one and at rest? -/
def State.enginesFor (s : State) (t : Thread) : Bool :=
  let e := (s.coreOf t.core).eng
  !t.anchored || e.owner == some t.frame ||
    (e.owner.isNone && e.vq.isEmpty && e.coll.isNone && e.mq.isEmpty && e.ch.toList.all fun c => c.run.isNone && c.queue.isEmpty)

/-! ## Spill records (R207) -/

/-- Does an own wait go on as its record says, or does a wait that a code and its argument tell whole begin (R363)? With any other code
the instruction at pc issues again, and parks by itself where it has to wait (DEDUCED, log 67). -/
def Thread.parkOf (t : Thread) (code : Nat) (arg : Word) (cc : Nat) : Option Park :=
  let due := if code = 9 && arg ≠ 0 then some (cc + arg.toNat) else none
  match t.park.filter fun p => p.code == code && code != 0 && code != 2 with
  | some p => some { p with arg := arg, key := if code = 24 then arg.toNat else p.key, until? := if code = 9 then due else p.until? }
  | none =>
    if code = 1 || code = 9 || code = 14 || code = 18 || code = 19 || code = 23 || code = 24 || (code = 7 && (arg = 16 || arg = 18)) then
      some ⟨code, arg, if code = 24 then arg.toNat else 0, cc, due⟩
    else none

/-- Does the record of a spilled thread stand in memory as the spill engine wrote it? -/
def State.recordKept (s : State) (t : Thread) : Bool :=
  match s.launchOf t.launch with
  | none => false
  | some l =>
    ((l.spilled.find? fun x => x.idx == t.idx).map fun x => x.words) == some (s.getWords t.core l.info.tenant (l.recordAt t.idx) 32)

/-- st as a record gives it (R37, R207). Reserved bits read 0; MODE only falls, and does so where the program has written the record, so that
nothing it wrote runs in supervisor mode; an FTAG stands only for a record of the thread's own launch: a rewritten record stays within it
(R12). -/
def State.stOfRecord (s : State) (t : Thread) (w : Nat → Word) : Word :=
  let mode := if t.sup && (w 17).toNat % 4 ≠ 0 && s.recordKept t then 1 else 0
  let anc := (w 17).getLsbD 17 && (w 19).getLsbD 2
  let tag (n : Nat) : Bool := (w 17).getLsbD (19 + n) && (s.futureOf (w n)).any fun f => f.launch == t.launch
  let st := setField (setField ((w 17) &&& 0x7FFFFFFFF) 0 2 mode) 17 1 (if anc then 1 else 0)
  setField st 19 16 (ofBits ((List.range 16).map tag))

/-- The thread as its record gives it (R207); EVEC is not in the record. Its wait goes on as the record names it, but one in a wait table
issues again (R321, R363). What an own wait has begun is withdrawn where the record names another. -/
def State.ofRecord (s : State) (t : Thread) (w : Nat → Word) : Thread :=
  let w19 := (w 19).toNat
  let code := bits w19 8 8
  let own : Bool := (t.park.map fun p => p.code).getD 0 == code && code != 2 && w 16 == t.pc
  { t with
    g := Vector.ofFn fun i => w i.1
    pc := aligned (w 16)
    st := s.stOfRecord t w
    tb := w 18
    wake := bits w19 5 1 == 1
    park := t.parkOf code (w 21) s.cc
    phase := if own then t.phase else 0
    slot := if own then t.slot else none
    tr := { t.tr with
      epc := w 22, ecause := w 23 &&& 0x7FF, eval := w 24, estat := w 25
      inE := bits w19 3 1 == 1, inS := bits w19 4 1 == 1 } }

/-! ## The engine area (R208) -/

/-- A wide value as words, least significant first. -/
def wordsOfNat : Nat → Nat → List Word
  | 0, _ => []
  | n + 1, v => BitVec.ofNat 64 v :: wordsOfNat n (v / 2 ^ 64)

def natOfWords (l : List Word) : Nat := l.foldr (fun x v => x.toNat + 2 ^ 64 * v) 0

/-- The instruction a matrix operation was issued as. -/
def MatEntry.instr (m : MatEntry) : Instr :=
  let o : MatOp := ⟨m.sw, m.dst, m.regs.1, m.regs.2, Fin.ofNat 16 m.stream⟩
  match m.kind with
  | .mma => .mma o
  | .mmaz => .mmaz o
  | .mst => .mst o
  | .mld => .mld o

/-- The 32-byte entry of a restartable operation: R416 gives a matrix operation's; of the others the spec gives no format, and
theirs tells kind, place and progress. -/
def RecOp.words : RecOp → List Word
  | .mat m => [BitVec.ofNat 64 (((encode m.instr).getD 0).toNat + m.fut * 2 ^ 32), m.ga, m.gb, 0]
  | .body b => [BitVec.ofNat 64 (2 ^ 56 + b.ins.length), BitVec.ofNat 64 b.chunk, BitVec.ofNat 64 b.done, 0]
  | .collect b => [BitVec.ofNat 64 (2 * 2 ^ 56 + b.ins.length), BitVec.ofNat 64 b.awaited, 0, 0]
  | .held h => [BitVec.ofNat 64 (3 * 2 ^ 56 + h.cause), h.pc, BitVec.ofNat 64 h.chunk, h.addr]
  | .running ch o => [BitVec.ofNat 64 (4 * 2 ^ 56 + ch + o.fut * 2 ^ 32), o.src, o.dst, BitVec.ofNat 64 o.pos]
  | .copy ch o => [BitVec.ofNat 64 (5 * 2 ^ 56 + ch + o.fut * 2 ^ 32), o.src, o.dst, 0]
  | .stopped ch o => [BitVec.ofNat 64 (6 * 2 ^ 56 + ch + o.fut * 2 ^ 32), o.src, o.dst, BitVec.ofNat 64 o.pos]

/-- The 16 KiB of an engine area. -/
def State.areaWords (s : State) (t : Thread) : List Word :=
  let e := (s.coreOf t.core).eng
  let regs := (List.range 512).map fun n => ((engReg t.core n).map fun r => s.engGet t.core r).getD 0
  let ops := (t.recorded.take 64).flatMap RecOp.words
  e.acc.toList.flatMap (fun a => wordsOfNat 128 a.toNat) ++ e.f.toList.flatMap (fun v => wordsOfNat 8 v.toNat) ++ regs ++
    ops ++ List.replicate (448 - ops.length) 0

/-- An engine register as a reload restores it, read-only ones too. The block queue belongs to the quad, and a held fault is
restored with the recorded operations. -/
def State.engRestore (s : State) (core : Nat) (r : EReg) (v : Word) : State :=
  match r with
  | .spos i => s.modEng core fun e => { e with spos := e.spos.set i (v.toNat % 2 ^ 32) }
  | .copy c k => match k with
    | 5 => s.modCh core c fun x => { x with cwp := v }
    | 6 => s.modCh core c fun x => { x with cpos := v.toNat }
    | _ => s.engPut core r v
  | .ring i k => match k with
    | 2 => s.modEng core fun e => { e with ring := e.ring.set i { e.ring[i] with head := v.setWidth 32 } }
    | 3 => s.modEng core fun e => { e with ring := e.ring.set i { e.ring[i] with tail := v.setWidth 32 } }
    | _ => s.engPut core r v
  | .mfst => s.modEng core fun e => { e with mfst := v &&& 0xFFF }
  | .mkind => s.modEng core fun e => { e with mkind := Vector.ofFn fun i => BitVec.ofNat 2 (v.toNat / 4 ^ i.1) }
  | .vfpc => s
  | .vfst => s
  | .vrsm => s
  | .bqlim => s
  | .bqpos => s
  | _ => s.engPut core r v

/-- The engines of a core as an engine area gives them. -/
def State.loadArea (s : State) (core : Nat) (ws : List Word) : State :=
  let s1 := s.modEng core fun e => { e with
    acc := Vector.ofFn fun i => BitVec.ofNat 8192 (natOfWords ((ws.drop (128 * i.1)).take 128))
    f := Vector.ofFn fun i => BitVec.ofNat 512 (natOfWords ((ws.drop (1024 + 8 * i.1)).take 8)) }
  (List.range 512).foldl (fun s n => match engReg core n with
    | some r => s.engRestore core r (ws.getD (1088 + n) 0)
    | none => s) s1

/-- The engines after their owner's state has been spilled: at reset values (R206), while records of operations, the SFU queue
and block adds stay. -/
def Engines.afterSpill (e : Engines) : Engines :=
  { Engines.reset with futs := e.futs, sfu := e.sfu, bq := e.bq, mfail := e.mfail, mq := e.mq, vq := e.vq
                       ch := e.ch.map fun c => { Channel.reset with run := c.run } }

/-! ## The spill engine (R39, R77) -/

/-- The frame number of a thread replaced wherever it is named. -/
def State.rename (s : State) (core f g : Nat) : State :=
  let at_ (c x : Nat) : Nat := if c = core && x = f then g else x
  let fe (e : WaitEntry) : WaitEntry := { e with frame := at_ e.core e.frame }
  let fr (x : Nat) : Nat := if x = f then g else x
  let copy (o : CopyOp) : CopyOp := { o with frame := fr o.frame }
  let s1 := s.modThread core f fun t => { t with frame := g }
  let s2 := s1.modCore core fun c => { c with
    qOwner := c.qOwner.map fr
    sb := c.sb.map fun e => { e with frame := fr e.frame }
    eng := { c.eng with
      owner := c.eng.owner.map fr
      futs := c.eng.futs.map fun x => { x with owner := fr x.owner }
      sfu := c.eng.sfu.map fun x => { x with frame := fr x.frame }
      mq := c.eng.mq.map fun x => { x with frame := fr x.frame }
      vq := c.eng.vq.map fun x => { x with frame := fr x.frame }
      ch := c.eng.ch.map fun x => { x with
        run := x.run.map copy
        queue := x.queue.map copy
        stopped := x.stopped.map copy }
      mfail := c.eng.mfail.map fun x => { x with frame := fr x.frame } } }
  let s3 := s2.modCores fun c => { c with waits := c.waits.map fe, retries := c.retries.map fun e => (e.1, fe e.2) }
  let n := s3.net
  { s3 with
    net := { n with
      reqs := n.reqs.map fun r => { r with frame := at_ r.core r.frame }
      fe := n.fe.map fun r => { r with e := fe r.e }
      sends := n.sends.map fun m => { m with frame := at_ m.core m.frame }
      pushes := n.pushes.map fun m => { m with frame := at_ m.core m.frame }
      aggs := n.aggs.map fun a => { a with parts := a.parts.map fun p => { p with frame := at_ p.core p.frame } } }
    inc := { s3.inc with msgs := s3.inc.msgs.map fun m => { m with frame := at_ m.core m.frame } }
    mgmt := { s3.mgmt with tlbis := s3.mgmt.tlbis.map fun w => { w with frame := at_ w.core w.frame } }
    launcher := { s3.launcher with reqs := s3.launcher.reqs.map fun r => { r with frame := at_ r.core r.frame } } }

/-- Is the result of a thread's own wait in a wait table? A spill withdraws it (R321). -/
def State.waitsFor (s : State) (t : Thread) (tok : Nat) : Bool :=
  s.allCores.any fun c => (c.waits ++ c.retries.map (·.2)).any fun e =>
    e.core == t.core && e.frame == t.frame && e.kind != .stef && e.tok == tok

/-- Has a thread a block add unresolved, on this core or one that it has left (R421)? -/
def State.addsFor (s : State) (t : Thread) : Bool := s.allCores.any fun c => c.eng.bq.any fun b => b.tid == t.tid

/-- Can the spill of a removed thread start (R39, R206, R421): results landed but for SFU results and a wait in a wait table,
narrowing stores applied, engines released, no full/empty operation in flight? -/
def State.spillReady (s : State) (t : Thread) : Bool :=
  let c := s.coreOf t.core
  t.pos.isNone && !t.spilled && c.eng.owner != some t.frame && !t.entering
    && (t.pend.all fun p => p.sfu || s.waitsFor t p.tok)
    && (c.sb.all fun e => !(e.kind == .narrow && e.frame == t.frame))
    && !s.addsFor t
    && (c.eng.ch.toList.all fun x => (x.run.toList ++ x.queue).all fun o => o.frame != t.frame)
    && (s.net.fe.all fun r => !(r.e.core == t.core && r.e.frame == t.frame))

/-- The operations of a spilled thread in wait tables withdrawn (R321); one sent to another core counts as received. -/
def State.withdraw (s : State) (t : Thread) : State :=
  let mine (e : WaitEntry) : Bool := e.core == t.core && e.frame == t.frame
  let gone := s.allCores.flatMap fun c => (c.waits ++ c.retries.map (·.2)).filter mine
  let s1 := s.modCores fun c => { c with
    waits := c.waits.filter fun e => !mine e, retries := c.retries.filter fun e => !mine e.2 }
  let s2 := gone.foldl (fun s e => if e.remote then s.recvd e.launch (homeOf e.key e.core) else s) s1
  let s3 := s2.modCore t.core fun c => { c with sb := c.sb.filter fun e => !(e.kind == .stef && e.frame == t.frame) }
  s3.modThread t.core t.frame fun t => { t with pend := t.pend.filter fun p => p.sfu }

/-- Does the spill area of a launch take a thread (R71, R208)? -/
def State.spillMapped (s : State) (l : Launch) (t : Thread) : Bool :=
  s.areaMapped t.core l.info.tenant (l.recordAt t.idx) 256 true &&
    (!t.anchored || s.areaMapped t.core l.info.tenant (s.areaAt l t.core) 0x4000 true)

/-- A removed thread spilled (R77, R207, R208): record and engine area written, its frame freed. -/
def State.spill (s : State) (l : Launch) (t : Thread) : State :=
  let s1 := (s.withdraw t).modThread t.core t.frame fun t => { t.limited s.cc with resv := none }
  match s1.threadAt t.core t.frame with
  | none => s
  | some u =>
    let ws := u.record 1
    let s2 := s1.putWords u.core l.id l.info.tenant (l.recordAt u.idx) ws
    let s3 := if u.anchored then s2.putWords u.core l.id l.info.tenant (s2.areaAt l u.core) (s2.areaWords u) else s2
    let s4 := if u.anchored && (s3.coreOf u.core).eng.owner.isNone then s3.modEng u.core Engines.afterSpill else s3
    let s5 := (s4.rename u.core u.frame (ghostFrame u.tid)).modLaunch l.id fun l =>
      { l with spilled := l.spilled.filter (fun x => x.idx != u.idx) ++ [⟨u.idx, ws⟩] }
    (s5.sent l.id u.core).recvd l.id u.core

/-- Is the spill of a frame asked for by a SPILL (R347)? -/
def State.spillAsked (s : State) (core f : Nat) : Bool :=
  (s.onCore core).any fun t => t.park.any fun p => p.code == 16 && p.key == f

/-- Priority of a thread's launch. -/
def State.prioOf (s : State) (t : Thread) : Nat := ((s.launchOf t.launch).map fun l => l.info.prio).getD 32

/-- The head launch, where it takes a core. -/
def State.wanting (s : State) (core : Nat) : Option Launch := s.headLaunch.filter fun l => (s.rectCores l.info).contains core

/-- The removed threads of a core that the spill engine may choose: no block add unresolved, the engine area fits. -/
def State.spillable (s : State) (core : Nat) : List Thread :=
  (s.onCore core).filter fun t => t.pos.isNone && !t.spilled && !t.isSup && s.areaFits t
    && !s.addsFor t

/-- The words of the record of a spilled thread as they stand in memory, those that what was delivered to it has changed since it was
written in their new form (R39, R207). -/
def State.recordNow (s : State) (l : Launch) (t : Thread) : List Word :=
  let mem := s.getWords t.core l.info.tenant (l.recordAt t.idx) 32
  let was := ((l.spilled.find? fun x => x.idx == t.idx).map fun x => x.words).getD []
  let now := t.record 1
  (List.range 32).map fun i => if now.getD i 0 = was.getD i 0 then mem.getD i 0 else now.getD i 0

/-- The words of a record that a delivery to its spilled thread has changed are written (R39, R207). -/
def State.syncRecord (s : State) (t : Thread) : State :=
  match s.launchOf t.launch with
  | none => s
  | some l =>
    if s.areaMapped t.core l.info.tenant (l.recordAt t.idx) 256 true then
      let s1 := s.putWords t.core l.id l.info.tenant (l.recordAt t.idx) (s.recordNow l t)
      s1.modLaunch l.id fun l => { l with spilled := l.spilled.map fun y => if y.idx = t.idx then ⟨t.idx, t.record 1⟩ else y }
    else s

/-- A spilled thread as its record stands; any other as it is. -/
def State.onRecord (s : State) (t : Thread) : Thread :=
  if t.spilled then
    match s.launchOf t.launch with
    | none => t
    | some l => s.ofRecord t fun i => (s.recordNow l t).getD i 0
  else t

/-! ## Reload and return (R76, R77) -/

/-- May a removed thread come back to its core at all: a free position, its scratchpad (R88), its engines, no head launch of
higher priority that takes the core, no SPILL that names it? -/
def State.mayReturn (s : State) (t : Thread) : Bool :=
  let c := s.coreOf t.core
  t.pos.isNone && !t.isSup && s.enabled t.core && c.reset.isNone && (s.freePos t.core).any (fun p => decide (p < c.positions))
    && (c.spOwner.isNone || c.spOwner == s.tenantOf t.launch) && s.enginesFor t && !s.spillAsked t.core t.frame
    && !((s.wanting t.core).any fun l => decide (s.prioOf t < l.info.prio))

/-- Could a spilled thread, as its record stands, be reloaded into a free frame? Not while SFUP is nonzero (R207). -/
def State.reloadable (s : State) (t : Thread) : Bool := t.spilled && s.mayReturn (s.onRecord t) && t.pend.isEmpty

/-- Can a spilled thread be reloaded? -/
def State.mayReload (s : State) (t : Thread) : Bool := s.reloadable t && !(s.freeFrames t.core).isEmpty

/-! ## The choice of the spill engine (R77) -/

/-- What needs a frame of a core that has none free (R77): the head launch, for which any removed thread gives way, and a CTXLOST thread
(R212) and a spilled thread that could return (R76), for which those of lower priority do. Each is given by the priority below which a removed
thread gives way. -/
def State.frameNeeds (s : State) (core : Nat) : List Nat :=
  let free := (s.freeFrames core).length
  ((s.wanting core).filter fun l => decide (free ≤ l.info.tpc)).toList.map (fun _ => 33) ++
    if free = 0 then
      (s.mgmt.ctxlost.filterMap fun x => ((s.launchOf x.1).filter fun l => s.lostCore l == some core).map fun l => l.info.prio) ++
        ((s.onCore core).filter s.reloadable).map s.prioOf
    else []

/-- The thread to spill on a core: one that a SPILL names, else, when a frame is needed, the one of lowest priority; of several of
equal priority the first in the list of threads (DESIGN CHOICE: R77 gives no order; log 63). -/
def State.spillNext (s : State) (core : Nat) : Option Thread :=
  let cand := s.spillable core
  match cand.find? fun t => s.spillAsked core t.frame with
  | some t => some t
  | none =>
    let need := (s.frameNeeds core).foldl max 0
    (cand.filter fun t => decide (s.prioOf t < need)).foldl (fun b t => match b with
      | none => some t
      | some u => if s.prioOf t < s.prioOf u then some t else some u) none

/-- SPILL_ENGINE_RUN (R77, R347). -/
def execSpillEngineRun (core : Nat) (s : State) : Answer :=
  match s.spillNext core with
  | none => .fault .notEnabled
  | some t => match s.launchOf t.launch with
    | none => .fault .notEnabled
    | some l => whenEnabled (s.spillReady t && s.spillMapped l t) (s.spill l t)

/-- Has a thread that could come back to a core a higher priority than a given one? -/
def State.outranked (s : State) (t : Thread) : Bool :=
  (s.onCore t.core).any fun u => decide (s.prioOf t < s.prioOf u) && (if u.spilled then s.mayReload u else s.mayReturn u)

/-- REMOVED_THREAD_RETURN (R76, R206, R345): highest priority first, into the lowest free position, the guest positions 30 and 31 among
them (DESIGN CHOICE: R44 keeps these from launch placement alone, and R76 says "free positions"; log 63). An idle supervisor thread returns
when it is woken. -/
def execRemovedThreadReturn (core frame : Nat) (s : State) : Answer :=
  match s.threadAt core frame with
  | none => .fault .notEnabled
  | some t =>
    if t.isSup then
      match s.supPosition core with
      | (s1, some p) => whenEnabled (t.pos.isNone && t.wake && s.enabled core && (s.coreOf core).reset.isNone)
          (s1.modThread core frame fun t => { t with pos := some p, park := none, wake := false })
      | _ => .fault .notEnabled
    else if t.spilled || !s.mayReturn t || s.outranked t then .fault .notEnabled
    else match (s.freePos core).head? with
      | none => .fault .notEnabled
      | some p =>
        let s0 := match s.tenantOf t.launch with
          | some n => s.giveScratch core n
          | none => s
        let s1 := s0.modThread core frame fun t => { t with pos := some p }
        .next (if t.anchored && (s.coreOf core).eng.owner.isNone then s1.regain t else s1)

/-- What a thread has begun that its record no longer names is withdrawn: its recorded operations, where the record says that it is not
anchored, and its place as a consumer, where it waits for no table entry (DEDUCED, log 67). -/
def State.withdrawn (s : State) (old new : Thread) : State :=
  let waits (t : Thread) : Bool := t.park.any fun p => p.code == 4
  let s1 := if waits old && !waits new then s.dropConsumer new.tid else s
  if new.anchored then s1
  else
    let mine (f : Future) : Bool := f.owner == new.frame && f.status == .pending && !(s1.coreOf new.core).eng.runsFor f.id
    (s1.modEng new.core fun e => { e with futs := e.futs.map fun f => if mine f then { f with status := .cancelled } else f }).modThread
      new.core new.frame fun t => { t with recorded := [] }

/-- THREAD_RELOAD (R77, R207): into the lowest free frame of its core; it resumes what its record then holds. -/
def execThreadReload (launch idx core : Nat) (s : State) : Answer :=
  match s.threadOf ⟨launch, idx⟩, s.launchOf launch, (s.freeFrames core).head? with
  | some t, some l, some f =>
    let n := l.info.tenant
    let ws := s.recordNow l t
    let u := s.ofRecord t fun i => ws.getD i 0
    if t.core ≠ core || !s.mayReload t || s.outranked t || s.spillAsked core f then .fault .notEnabled
    else if !s.areaMapped core n (l.recordAt idx) 256 true || (u.anchored && !s.areaMapped core n (s.areaAt l core) 0x4000 false) then .fault .notEnabled
    else if fieldOf (ws.getD 20 0) 0 16 ≠ 0 then .fault .notEnabled
    else
      let s1 := s.markWords core n (l.recordAt idx) 32
      let s2 := if u.anchored then (s1.markWords core n (s1.areaAt l core) 2048).loadArea core (s1.getWords core n (s1.areaAt l core) 2048) else s1
      let s3 := (s2.rename core t.frame f).modThread core f fun t => s.ofRecord t fun i => ws.getD i 0
      let s4 := (s3.withdrawn t { u with frame := f }).putWords core l.id n (l.recordAt idx)
        ((ws.take 32).set 19 (setField (ws.getD 19 0) 0 2 0))
      let s5 := s4.modLaunch launch fun l => { l with spilled := l.spilled.filter fun x => x.idx != idx }
      .next ((s5.sent launch core).recvd launch core)
  | _, _, _ => .fault .notEnabled

/-! ## Scratchpads saved and restored (R88) -/

/-- Physical address of a save slot. -/
def State.slotAt (s : State) (core slot : Nat) : Nat := (s.coreReg core 0x106).toNat + (2 * core + slot) * 0x84000

/-- 64 Ki bits as bytes: bit i of byte k is bit 8k + i. -/
def bitBytes (f : Nat → Bool) (base : Nat) : List Host.Cell :=
  (List.range 8192).map fun k => (base + k, BitVec.ofNat 8 (ofBits ((List.range 8).map fun i => f (8 * k + i))))

/-- Cells stored at their addresses. -/
def putCells (bs : List Host.Cell) (l : List Host.Cell) : List Host.Cell := l.foldl (fun b x => putByte b x.1 x.2) bs

/-- A scratchpad copied to a save slot: its bytes, full/empty bits and poison bits. -/
def Memory.saveScratch (m : Memory) (core base : Nat) : Memory :=
  let lo := scratchKey core 0
  let out (a : Nat) : Bool := a < base || base + 0x84000 ≤ a
  let data := (m.bytes.filter fun x => lo ≤ x.1 && x.1 < lo + 0x80000).map fun x => (base + (x.1 - lo), x.2)
  let full := bitBytes (fun i => !m.empty.contains (lo + 8 * i)) (base + 0x80000)
  let bad := bitBytes (fun i => m.poison.contains (lo + 8 * i)) (base + 0x82000)
  { m with bytes := putCells (putCells (putCells (m.bytes.filter fun x => out x.1) data) full) bad
           poison := m.poison.filter out }

/-- A scratchpad as a save slot holds it. -/
def Memory.restoreScratch (m : Memory) (core base : Nat) : Memory :=
  let lo := scratchKey core 0
  let m1 := m.clearScratch core
  let data := (m.bytes.filter fun x => base ≤ x.1 && x.1 < base + 0x80000).map fun x => (lo + (x.1 - base), x.2)
  let bit (at_ i : Nat) : Bool := (getByte m.bytes (at_ + i / 8)).getLsbD (i % 8)
  let words := List.range 65536
  { bytes := putCells m1.bytes data
    empty := (words.filter fun i => !bit (base + 0x80000) i).foldl (fun l i => addKey l (lo + 8 * i)) m1.empty
    poison := (words.filter fun i => bit (base + 0x82000) i).foldl (fun l i => addKey l (lo + 8 * i)) m1.poison }

/-- Is no access under way to the scratchpad of a core? -/
def State.scratchQuiet (s : State) (core : Nat) : Bool :=
  let here (l : Loc) : Bool := match l.place with
    | .scratch c _ => c == core
    | _ => false
  (s.net.reqs.all fun r => !here r.loc) && (s.net.fe.all fun r => r.core != core)
    && s.allCores.all fun c => c.sb.all fun e => !here e.loc

/-- The launch for which a scratchpad is to be saved, with the tenant that holds it and a free slot. -/
def State.saveFor (s : State) (core : Nat) : Option (Launch × Nat × Nat) :=
  match s.wanting core, (s.coreOf core).spOwner with
  | some l, some t =>
    let used := (s.coreOf core).saved.map fun x => x.1
    match [0, 1].find? fun k => !used.contains k with
    | some k => if s.scratchFree core l.info.tenant then none else some (l, t, k)
    | none => none
  | _, _ => none

/-- SCRATCHPAD_SAVE (R88): threads of the tenant that holds the scratchpad leave the rotation; then it is saved, cleared and
handed to the tenant of the head launch. Operations in its wait table stay (R321). -/
def execScratchpadSave (core : Nat) (s : State) : Answer :=
  match s.saveFor core with
  | none => .fault .notEnabled
  | some (l, t, k) =>
    let inWay := (s.onCore core).filter fun u => u.pos.isSome && s.tenantOf u.launch == some t
    let c := s.coreOf core
    if inWay.any fun u => !s.removable l.info.prio u then .fault .notEnabled
    else if !inWay.isEmpty then .next (s.removeAll inWay)
    else if c.eng.owner.isSome || !s.scratchQuiet core then .fault .notEnabled
    else
      let mem := (s.mem.saveScratch core (s.slotAt core k)).clearScratch core
      let s1 : State := { s with mem := mem }
      .next (s1.modCore core fun c => { c with spOwner := some l.info.tenant, saved := (k, t) :: c.saved }).depScan

/-- SCRATCHPAD_RESTORE (R88): a saved scratchpad comes back once no running launch of another tenant has data there and the
head launch, where it takes the core, is of that tenant or gives way. The wait table's entries are passed over then (R320). -/
def execScratchpadRestore (core tenant : Nat) (s : State) : Answer :=
  let c := s.coreOf core
  match c.saved.find? fun x => x.2 == tenant with
  | none => .fault .notEnabled
  | some (k, _) =>
    let back := (s.onCore core).filter fun t => t.pos.isNone && s.tenantOf t.launch == some tenant
    let yields := (s.wanting core).any fun l => l.info.tenant != tenant && back.all fun t => decide (s.prioOf t < l.info.prio)
    if yields || !s.scratchFree core tenant || !s.scratchQuiet core then .fault .notEnabled
    else
      let s1 := ({ s with mem := s.mem.restoreScratch core (s.slotAt core k) }.modCore core fun c =>
        { c with spOwner := some tenant, saved := c.saved.filter fun x => x.2 != tenant }).depScan
      .next ((c.waits.map fun e => e.key).eraseDups.foldl State.wakeWord s1)

end Sys2Proof.Machine
end

