-- ==== Sys2Proof/Machine/Land.lean ====
section
/-! DEFINITION. What comes to a thread between its instructions: long results that land (R55, R57), SFU entries served (R397),
fetch blocks (R52), page walks (R120), and a word that is no instruction (R273). -/

namespace Sys2Proof.Machine

/-! ## Long results -/

/-- A result written to its register as it lands: flags to st.FLAGS (R291), and to ESTAT once a trap has been taken (R57,
R199); a poisoned one marks its register. -/
def Thread.land (t : Thread) (p : Pending) : Thread :=
  let fl : Word := p.flags.setWidth 64 <<< 5
  let t1 := { t with
    pend := t.pend.filter fun q => q.tok != p.tok
    st := t.st ||| fl
    tr := if t.entering then { t.tr with estat := t.tr.estat ||| fl } else t.tr }
  match p.dst with
  | .g n =>
    if p.dropped then t1
    else
      let t2 := t1.writeG n p.val
      match p.poison with
      | some va => { t2 with marks := t2.marks ++ [(n.1, va)] }
      | none => t2
  | _ => t1

/-- LONG_RESULT_LAND (R55, R57): the k-th outstanding result of a thread. One for qdn is pushed once qdn has room (R278), or, poisoned,
makes the parked thread take UCE at its instruction, whose popped words return (R258); where the core that qdn is bound to has been disabled
it takes PLACE there (R210). A reply that came from no core's scratchpad is counted as it lands (R80). -/
def execLongResultLand (core frame k : Nat) (s : State) : Answer :=
  match s.threadAt core frame with
  | none => .fault .notEnabled
  | some t =>
    match t.pend[k]? with
    | none => .fault .notEnabled
    | some p =>
      if !p.ready then .fault .notEnabled
      else
        let s0 := if p.recv then s.recvd t.launch core else s
        let s1 := s0.modThread core frame fun t => t.land p
        let redo (s : State) : State := s.modThr fun t => { t with pc := p.pc, park := none, popped := p.popped }
        if p.dst == .qdn && !p.dropped then
          match p.poison with
          | some va =>
            if t.pos.isNone then .fault .notEnabled
            else .next (s1.asThread core frame fun s => (redo s).trap (cause cUCE va))
          | none =>
            if (s.coreOf core).qdn.any fun c => !s.enabled c then
              if t.pos.isNone then .fault .notEnabled
              else .next (s1.asThread core frame fun s => (redo s).trap (cause cPLACE 0))
            else if !(s.focus core frame).qdnRoom then .fault .notEnabled
            else .next (s1.asThread core frame fun s => s.push p.val)
        else
          match s1.threadAt core frame with
          | some u => .next (if u.spilled then s1.syncRecord u else s1)
          | none => .next s1

/-- SFU_ENTRY_SERVE (R397): the head of a core's queue; its result can land, or the chunk that it belongs to is computed. An entry of a
terminated thread, which frame 64 names, is cancelled here and goes to no thread (R398). -/
def execSfuEntryServe (core : Nat) (s : State) : Answer :=
  match (s.coreOf core).eng.sfu with
  | [] => .fault .notEnabled
  | x :: r =>
    if x.vec then .next ((s.modEng core fun e => { e with sfu := r }).sfuChunk core x)
    else .next ((s.modEng core fun e => { e with sfu := r }).modThread core x.frame fun t => t.deliver x.tok x.val x.flags none)

/-! ## Fetch (R52) -/

/-- Does the fetch buffer of a thread hold the block of its pc? -/
def Thread.holdsPc (t : Thread) : Bool := t.fbuf.any fun f => f.1 == t.pc.toNat / 32

/-- The instruction word at pc: as the fetch buffer holds it, or a word fetched. -/
def Thread.wordAt (t : Thread) (w : BitVec 32) : BitVec 32 :=
  match t.fbuf with
  | some (b, d) => if b = t.pc.toNat / 32 then d.extractLsb' (t.pc.toNat % 32 * 8) 32 else w
  | none => w

/-- Does a thread's fetch buffer wait, the thread being one that may issue? -/
def Thread.fetches (t : Thread) : Bool := t.pos.isSome && !t.holdsPc

/-- The block a thread's fetch buffer waits for, as a physical address over 32, once a TLB maps its page (R57, R120). -/
def State.blockOf (s : State) (t : Thread) : Option (Nat × Xlate) :=
  if !t.fetches || !s.mapped t.core (s.tableOf t) t.pc.toNat then none
  else match s.fetch t with
    | .error _ => none
    | .ok (_, x) => some ((bits x.leaf 16 36 * 0x10000 / x.size * x.size + t.pc.toNat % x.size) / 32, x)

/-- The waiting threads of a cluster with the blocks they wait for. -/
def State.fetchers (s : State) (cluster : Nat) : List (Thread × Nat × Xlate) :=
  s.all.filterMap fun t =>
    if clusterOf t.core = cluster && (s.coreOf t.core).reset.isNone then (s.blockOf t).map fun b => (t, b.1, b.2) else none

/-- The block that a fetch unit serves next, of those in the instruction cache (R52): that of the oldest request that has waited 64 cc or
more, else the one with the lowest address. -/
def State.nextBlock (s : State) (cluster : Nat) : Option Nat :=
  let w := (s.fetchers cluster).filter fun x => (s.clusterAt cluster).ic.contains x.2.1
  let since (x : Thread × Nat × Xlate) : Nat := x.1.fsince.getD s.cc
  let least (f : Thread × Nat × Xlate → Nat) (l : List (Thread × Nat × Xlate)) : Option (Thread × Nat × Xlate) :=
    l.foldl (fun b x => match b with
      | none => some x
      | some y => if f x < f y then some x else some y) none
  match least since (w.filter fun x => decide (since x + 64 ≤ s.cc)) with
  | some x => some x.2.1
  | none => (least (fun x => x.2.1) w).map fun x => x.2.1

/-- Count one event of a cluster for the launches that caused it or were served by it (R234, R235). -/
def State.countServed (s : State) (cluster src : Nat) (launches : List Nat) : State :=
  s.modCluster cluster fun c => { c with cnt := c.cnt.map fun k => k.count src (if launches.contains k.by_ then k.by_ else 0) 1 }

/-- FETCH_BLOCK (R52): a waiting block that misses is brought into the instruction cache of the cluster; the block that the fetch unit
serves next is delivered from there to every thread that waits for it. A cached block reads as memory does: the spec gives no
instruction that would make a changed one visible (DESIGN CHOICE, log 10). -/
def execFetchBlock (cluster block : Nat) (s : State) : Answer :=
  let waiting := (s.fetchers cluster).filter fun x => x.2.1 == block
  let ic := (s.clusterAt cluster).ic
  if waiting.isEmpty then .fault .notEnabled
  else if !ic.contains block then .next (s.modCluster cluster fun c => { c with ic := (block :: ic).take 4096 })
  else if s.nextBlock cluster ≠ some block then .fault .notEnabled
  else
    let data := BitVec.ofNat 256 (readBytes s.mem.bytes (block * 32) 32)
    let give (s : State) (y : Thread × Nat × Xlate) : State :=
      (s.touch y.1.core (s.tableOf y.1) y.2.2 false y.1.launch).modThread y.1.core y.1.frame fun t =>
        { t with fbuf := some (t.pc.toNat / 32, data), fsince := none }
    let s1 := (waiting.foldl give s).modCluster cluster fun c => { c with ic := block :: c.ic.filter fun b => b != block }
    let s2 := s1.countServed cluster 0x102 (waiting.map fun x => x.1.launch)
    .next (if 2 ≤ waiting.length then waiting.foldl (fun s x => s.countCluster cluster 0x103 x.1.launch) s2 else s2)

/-! ## Page walks (R120) -/

/-- The walks that a die's walker runs now: the first 64 asked for (R120). -/
def State.runningWalks (s : State) (die : Nat) : List WalkReq := (s.walks.filter fun w => w.cluster / 16 == die).take 64

/-- The threads of a cluster that wait for the walk of a page: for an access, or for the fetch of their next instruction, where it can
succeed. -/
def State.walkWaiters (s : State) (cluster : Nat) (ctx : Option Nat) (page : Nat) : List Thread :=
  s.all.filter fun t => clusterOf t.core == cluster && s.tableOf t == ctx &&
    ((t.park.any fun p => p.code == 0 && p.key == walkKey (page * 0x10000)) ||
      (t.fetches && s.samePage t.core ctx t.pc.toNat (page * 0x10000) && !s.mapped t.core ctx t.pc.toNat && (s.walkOf t.core ctx t.pc.toNat).toBool))

/-- The cores of a cluster and the launches for which a copy waits for the walk of a page. -/
def State.walkCopies (s : State) (cluster : Nat) (ctx : Option Nat) (page : Nat) : List (Nat × Nat) :=
  (s.allCores.filter fun c => clusterOf c.id == cluster).flatMap fun c =>
    (c.eng.ch.toList.filterMap Channel.run).filterMap fun o =>
      if o.walk == some page && s.tableOf (s.copyThread c.id o) == ctx then some (c.id, o.launch) else none

/-- The copies of a cluster that wait for the walk of a page go on (R120). -/
def State.walkedCopies (s : State) (cluster : Nat) (ctx : Option Nat) (page : Nat) : State :=
  let go (c : Core) (o : CopyOp) : CopyOp :=
    if o.walk == some page && s.tableOf (s.copyThread c.id o) == ctx then { o with walk := none, walked := some page } else o
  let on (c : Core) (h : Channel) : Channel := { h with run := h.run.map (go c) }
  s.modCores fun c => if clusterOf c.id = cluster then { c with eng := { c.eng with ch := c.eng.ch.map (on c) } } else c

/-- TLB_WALK_COMPLETE (R120): a walk ends for every thread and copy of a core's cluster that waits for the page, and fills the TLBs of the
cluster and of their cores, the misses counted (R235). Where it fails nothing is filled: a thread that asked takes the fault as its
instruction issues (log 11). -/
def execTlbWalkComplete (core tenant : Nat) (sup : Bool) (va : Word) (s : State) : Answer :=
  let ctx : Option Nat := if sup then none else some tenant
  let cl := clusterOf core
  let page := va.toNat / 0x10000
  let w : WalkReq := ⟨cl, ctx, page * 0x10000⟩
  let waiting := s.walkWaiters cl ctx page
  let copies := s.walkCopies cl ctx page
  if !s.enabled core || !((s.runningWalks (cl / 16)).contains w || (!waiting.isEmpty && !s.walks.contains w)) then .fault .notEnabled
  else
    let s1 : State := { s with walks := s.walks.filter fun x => x != w }
    let s2 := waiting.foldl (fun s t => s.modThread t.core t.frame fun t => { t with walked := some page }) s1
    let on := waiting.map (fun t => (t.core, t.launch)) ++ copies
    let on := if on.isEmpty then [(core, 0)] else on
    let s3 := on.foldl (fun s y => s.countCore y.1 0x016 y.2) (s2.walkedCopies cl ctx page)
    let s4 := s3.countServed cl 0x108 (on.map fun y => y.2)
    match s.lookup core ctx va.toNat with
    | .error _ => .next s4
    | .ok x => .next (on.foldl (fun s y => s.fillTlb y.1 ctx { x with l1 := false } false) s4)

/-! ## Illegal words -/

/-- ILLEGAL_WORD (R273): a word that is no instruction. -/
def execIllegalWord (w : BitVec 32) (s : State) : Answer :=
  match decode w with
  | .ok _ => .fault .notEnabled
  | .error _ => withThread s (s.illeg w)

end Sys2Proof.Machine
end

