-- ==== Sys2Proof/Machine/Seam.lean ====
section
/-! DEFINITION. The seam as it acts by itself: requests queued at a line, transactions, snoops and recalls (R153-R158), dead
agents (R159, R160), failover to directoryless mode (R161-R163). -/

namespace Sys2Proof.Machine

/-! ## Requests at a slice (R154, R155) -/

/-- Does an agent exist, work, and take part in the directory (R147, R160, R163)? -/
def State.agentUp (s : State) (a : Nat) : Bool :=
  (a < s.pkg.dies && !s.caps.dless || a == 8 || (9 ≤ a && a ≤ 12)) && !s.caps.dead.getLsbD a

/-- May an agent send a request for a line: the address is backed, the seam is needed (R149) and gives answers (R162)? -/
def State.mayRequest (s : State) (a line : Nat) : Bool :=
  s.agentUp a && !s.caps.fovr && !s.releasing (line * 64) &&
    match s.placePa (line * 64) with
    | .error _ => false
    | .ok (.peer _) => false
    | .ok p =>
      if a < 8 then s.needsSeam a line
      else if a = 8 then p == .hbm && s.links.memen && (s.links.up &&& s.caps.seamOk) != 0
      else p == .cxl (a - 9)

/-- A message of a dead agent, which carries its old incarnation, is discarded and counted (R160). -/
def State.lateFrom (s : State) (line : Nat) : State := s.countSlice (dirSlice line) 0x208

/-- A request of an agent: one of a dead agent arrives too late (R160). -/
def seamStep (agent line : Nat) (r : CReq) (s : State) : Answer :=
  if s.caps.dead.getLsbD agent then .next (s.lateFrom line)
  else whenEnabled (s.mayRequest agent line) (s.seamRequest line agent r)

/-- SEAM_RDS (R154). -/
def execSeamRds (agent line : Nat) (s : State) : Answer := seamStep agent line .rds s

/-- SEAM_RDX (R154). -/
def execSeamRdx (agent line : Nat) (s : State) : Answer := seamStep agent line .rdx s

/-- SEAM_UPG (R153, R154): from an agent that no longer holds the line it is an RdX. -/
def execSeamUpg (agent line : Nat) (s : State) : Answer := seamStep agent line .upg s

/-- SEAM_WB (R153, R154, R156): a die's copy is dirty or not, the host and a port give dirty data; of a line that its sender does not own it
is discarded. -/
def execSeamWb (agent line : Nat) (s : State) : Answer := seamStep agent line (.wb (decide (8 ≤ agent) || s.dieDirty agent line)) s

/-- SEAM_EVC (R153, R154): of a line that its sender holds in S; the owner of a line gives it up with WB. -/
def execSeamEvc (agent line : Nat) (s : State) : Answer := seamStep agent line .evc s

/-- Are snoops for a line under way? -/
def State.snooping (s : State) (line : Nat) : Bool := s.seam.snoops.any fun x => x.2.1 == line

/-- SEAM_TRANSACTION_END (R155): every snoop has been answered; the request is applied to what they left, BUSY clears, and the queue goes on
from its head. While a failover runs the seam grants nothing (R162). -/
def execSeamTransactionEnd (line : Nat) (s : State) : Answer :=
  match s.dirOf line with
  | none => .fault .notEnabled
  | some e =>
    let s1 := s.putDir { e with busy := false, queue := [], serving := none }
    let s2 := match e.serving with
      | some (a, r) => s1.seamFinish line a r
      | none => s1.pruneDir line
    whenEnabled (e.busy && !e.evict && !s.snooping line && !s.caps.fovr) (e.queue.foldl (fun s x => s.seamRequest line x.1 x.2) s2)

/-- SNOOP_ARRIVAL (R157): a snoop takes effect at every array of a die, after the die's requests for the line whose place on the lane has
come; the host and a port answer theirs (R164). The answer of a dead agent is discarded (R160). -/
def execSnoopArrival (die line : Nat) (inv : Bool) (s : State) : Answer :=
  if s.caps.dead.getLsbD die then .next (s.lateFrom line)
  else whenEnabled (s.seam.snoops.contains (die, line, inv) &&
      (s.asked die line || (s.ahead die line).all fun x => !s.laneDue x.1))
    ((s.modSeam fun m => { m with snoops := m.snoops.erase (die, line, inv) }).snoop line die inv)

/-- DIRECTORY_RECALL_COMPLETE (R158): every holder of the victim has written back and invalidated, and its way is freed; the
requests that waited for a way, then those queued at the victim, go on. -/
def execDirectoryRecallComplete (line : Nat) (s : State) : Answer :=
  match s.dirOf line with
  | none => .fault .notEnabled
  | some e =>
    whenEnabled (e.busy && e.evict && !s.caps.fovr) (e.queue.foldl (fun s x => s.seamRequest line x.1 x.2) (s.recallLine line).retryWaits)

/-! ## Dead agents (R159, R160) -/

/-- An entry without a dead agent: none when no holder is left; whether the line was its own. -/
def DirEntry.scrub (e : DirEntry) (a : Nat) : Option DirEntry × Bool :=
  let sh := e.sharers &&& ~~~(agentBit a)
  let owned := e.st != .s && e.owner == a
  let mine (x : Nat × CReq) : Bool := agentNo x.1 == a
  let e1 := { e with
    sharers := sh, queue := e.queue.filter fun x => !mine x, serving := e.serving.filter fun x => !mine x }
  if owned then (if sh = 0 then none else some { e1 with st := .s, owner := 0 }, true)
  else if e.st == .s && sh = 0 then (none, false)
  else (some e1, false)

/-- The slices scrubbed of an agent: its lines poisoned at home and counted, its requests discarded. -/
def State.scrub (s : State) (a : Nat) : State :=
  let lost := (s.seam.dir.filter fun e => (e.scrub a).2).map fun e => e.line
  let orphans := s.seam.dir.flatMap fun e => if (e.scrub a).1.isNone then (e.serving.toList ++ e.queue).filter (fun x => agentNo x.1 != a) |>.map fun x => (e.line, x) else []
  let late := (s.seam.dir.flatMap fun e => ((e.serving.toList ++ e.queue).filter fun x => agentNo x.1 == a).map fun _ => e.line) ++
    (s.seam.waits.filter fun w => agentNo w.1 == a).map fun w => w.2.1
  let s1 := s.modSeam fun m => { m with
    dir := m.dir.filterMap fun e => (e.scrub a).1
    snoops := m.snoops.filter fun x => x.1 != a
    waits := m.waits.filter fun w => agentNo w.1 != a }
  let s1 : State := { s1 with links := { s1.links with writes := s1.links.writes.filter fun w => w.1 != a } }
  let s2 := lost.foldl (fun s l =>
    let s := if a < 8 then s.invalDie a l else s
    { s with mem := s.mem.setPoison (l * 64) true }.countSlice (dirSlice l) 0x209) s1
  let s3 := late.foldl (fun s l => s.countSlice (dirSlice l) 0x208) s2
  -- an entry of host or CXL memory that no die holds is removed (R152)
  let s4 := ((s3.seam.dir.filter fun e => !e.busy).map fun e => e.line).foldl State.pruneDir s3
  orphans.foldl (fun s x => s.seamRequest x.1 x.2.1 x.2.2) s4

/-- Threads lost with a die, and its deque entries; its cores stay in reset until the package is reset (R160). -/
def State.loseDie (s : State) (d : Nat) : State :=
  let cores := (List.range 256).map fun i => d * 256 + i
  let s0 := cores.foldl (fun s n => s.startReset n false) s
  let s1 := (s0.all.filter fun t => dieOf t.core == d && !t.spilled).foldl (fun s t => s.terminate t) s0
  -- a context in flight to the die is lost with the link (R213)
  let there (t : Thread) : Bool := t.migr.any fun c => dieOf c == d
  let s1 := (s1.net.moves.filter there).foldl (fun s t => s.terminateMoving t)
    { s1 with net := { s1.net with moves := s1.net.moves.filter fun t => !there t } }
  let entries := (s1.dieCores d).flatMap fun c => c.deque.map fun e => (c.id, e.launch)
  let s3 := entries.foldl (fun s x => s.lose x.2 x.1 0 1) s1
  let s4 := s3.modCores fun c => if dieOf c.id = d then
      { c with deque := [], sb := [], l1 := [], qup := [], qrx := [], waits := [], retries := [], eng := Engines.reset }
    else c
  { s4 with clusters := s4.clusters.map fun k => if k.id / 16 = d then { k with l2 := [] } else k }

/-- An agent declared dead (R160): its incarnation advances, the slices are scrubbed; a compute die's threads are lost and
the health record shows it (R214). -/
def State.declareDead (s : State) (a : Nat) : State :=
  let c := s.caps
  let inc := if h : a < 13 then c.incarn.set a (c.incarn[a] + 1) else c.incarn
  let s1 : State := { s with caps := { c with dead := c.dead ||| agentBit a, incarn := inc, genSeam := bumpGen c.genSeam } }
  let s2 := s1.scrub a
  if a < 8 then (s2.loseDie a).replace 5 else s2

/-- Is the link of an agent beyond the dies down? -/
def State.agentLinkDown (s : State) (a : Nat) : Bool :=
  if a = 8 then (s.links.up &&& s.caps.seamOk) == 0
  else if h : 9 ≤ a ∧ a ≤ 12 then !(s.links.ports[a - 9]'(by omega)).up
  else false

/-- AGENT_DEAD (R159, R160): its link is down, or a snoop or recall to it has gone unanswered for 120,000 cc. -/
def execAgentDead (agent : Nat) (s : State) : Answer :=
  let holder (e : DirEntry) : Bool := e.sharers.getLsbD agent || (e.st != .s && e.owner == agent)
  let asked := s.seam.snoops.any (fun x => x.1 == agent) || s.seam.dir.any fun e => e.busy && e.evict && holder e
  let present := agent < s.pkg.dies || (8 ≤ agent && agent ≤ 12)
  if !present || s.caps.dead.getLsbD agent then .fault .notEnabled
  else if s.agentLinkDown agent then .next (s.declareDead agent)
  else whenEnabled asked ({ s with cc := s.cc + 120000 }.declareDead agent)

/-- Does a snoop stand at the arrays of a die: one of the seam, a recall of a line that it holds, or a request on its lane (R148, R157)? -/
def State.dieSnooped (s : State) (die : Nat) : Bool :=
  (s.seam.snoops.any fun x => x.1 == die) || (s.seam.dir.any fun e => e.busy && e.evict && s.dieHolds die e.line) ||
    (s.net.reqs.any fun r => dieOf r.core == die && r.lane.isSome) || (s.dieCores die).any fun c => c.sb.any fun e => e.lane.isSome

/-- CORE_SNOOP_TIMEOUT (R159): the L1 of a core has not answered a snoop of its die for 120,000 cc; the core is held in
per-core reset. -/
def execCoreSnoopTimeout (core : Nat) (s : State) : Answer :=
  whenEnabled (s.enabled core && (s.coreOf core).reset.isNone && s.dieSnooped (dieOf core))
    ({ s with cc := s.cc + 120000 }.startReset core false)

/-! ## Failover (R161-R163) -/

/-- SEAM_FAILURE (R162 step 1): the survivor sets SEAMOK and FOVR. The launch window and the host link of the failed seam are
lost (R163). -/
def execSeamFailure (seam : Nat) (s : State) : Answer :=
  whenEnabled (decide (seam < 2) && s.caps.seamOk == 3 && !s.caps.fovr)
    { s with
      caps := { s.caps with
        seamOk := if seam = 0 then 2 else 1, fovr := true, surv := 1 - seam, genSeam := bumpGen s.caps.genSeam
        genCore := bumpGen s.caps.genCore, genHost := bumpGen s.caps.genHost }
      launcher := { s.launcher with slots := s.launcher.slots.filter fun x => x.seam != seam }
      mgmt := { s.mgmt with mbq := s.mgmt.mbq.filter fun k => k != seam } }

/-- Is a line homed on a die's own channels? -/
def State.homeLine (s : State) (die line : Nat) : Bool :=
  decide (line < 0x40000000000) && homeQuad s.pkg (line * 64) / 64 == die

/-- The dirty lines that a die holds and that are homed elsewhere or in host or CXL memory. -/
def State.dirtyForeign (s : State) : List Nat :=
  ((s.allCores.flatMap fun c => (c.l1.filter fun x => x.perm.dirty && !s.homeLine (dieOf c.id) x.line).map fun x => x.line) ++
    s.clusters.flatMap fun k => (k.l2.filter fun x => x.perm.dirty && !s.homeLine (k.id / 16) x.line).map fun x => x.line).eraseDups

/-- R162 step 2: no die keeps a line homed elsewhere or in host or expander memory: the dirty ones are written back; reservations held
through them go. -/
def State.dropForeign (s0 : State) : State :=
  let s := s0.dirtyForeign.foldl State.writeBack s0
  let foreign (c : Nat) (l : Nat) : Bool := !s.homeLine (dieOf c) l
  let lost (t : Thread) : Bool := t.resv.any fun r => foreign t.core r.line
  let s1 := s.modThreads lost fun t => { t with resv := none }
  let s2 := s1.modCores fun c => { c with l1 := c.l1.filter fun x => !foreign c.id x.line }
  { s2 with clusters := s2.clusters.map fun k => { k with l2 := k.l2.filter fun l => s.homeLine (k.id / 16) l.line } }

/-- An entry as the directory of the survivor keeps it (R163): only the host and the ports, none in the failed half (R162
steps 3 and 4). -/
def DirEntry.survives (e : DirEntry) (failed : Nat) : Option DirEntry :=
  if dirSlice e.line / 32 = failed then none
  else
    let sh := e.sharers &&& 0x1F00
    let own := e.st != .s && 8 ≤ e.owner
    if !own && sh = 0 then none
    else some { e with sharers := sh, st := if own then e.st else .s, owner := if own then e.owner else 0
                       busy := false, evict := false, queue := [], serving := none }

/-- FAILOVER_COMPLETE (R162 steps 2 to 5): caches give up foreign lines, the failed half's entries and combining buffer are
lost, the latter's lines poisoned but for those whose dirty copy a die writes back; DLESS is set, replacement requested and the event
posted. The ports of the failed seam are lost with what they backed (R163), and requests of the host that had no answer are sent
again. -/
def execFailoverComplete (s : State) : Answer :=
  let failed := 1 - s.caps.surv
  let half (line : Nat) : Bool := dirSlice line / 32 == failed
  let again := (s.seam.dir.flatMap fun e => ((e.serving.toList ++ e.queue).filter fun x => decide (8 ≤ agentNo x.1)).map fun x => (e.line, x.1, x.2)) ++
    (s.seam.waits.filter fun w => decide (8 ≤ agentNo w.1)).map fun w => (w.2.1, w.1, w.2.2)
  let written := s.dirtyForeign
  let gone := ((s.seam.comb.filter fun c => half c.line).map fun c => c.line).filter fun l => !written.contains l
  let s1 := (s.modSeam fun m => { m with comb := m.comb.filter fun c => !half c.line }).dropForeign
  let s2 := s1.modSeam fun m => { m with
    dir := m.dir.filterMap fun e => e.survives failed
    snoops := [], waits := [] }
  let s3 := gone.foldl (fun s l => { s with mem := s.mem.setPoison (l * 64) true }.countSlice (dirSlice l) 0x20A) s2
  let down (i : Fin 4) (p : Port) : Port := if i.1 / 2 = failed then { Port.reset with plist := p.plist, released := p.released } else p
  let s4 : State := { s3 with
    caps := { s3.caps with dless := true, fovr := false, genSeam := bumpGen s3.caps.genSeam, genCxl := bumpGen s3.caps.genCxl }
    links := { s3.links with
      ports := Vector.ofFn fun i => down i s3.links.ports[i]
      releases := s3.links.releases.filter fun r => r.port / 2 != failed } }
  let s5 := (s4.replace 1).post ⟨0x0006, BitVec.ofNat 64 s.caps.surv, 0⟩
  whenEnabled s.caps.fovr (again.foldl (fun s x => s.seamRequest x.1 x.2.1 x.2.2) s5)

end Sys2Proof.Machine
end

