-- ==== Sys2Proof/Machine/Links.lean ====
section
/-! DEFINITION. The links to the outside (R164-R167, R216-R226): the host, CXL ports and their extents, peer links. -/

namespace Sys2Proof.Machine

/-! ## The host (R165, R217, R218) -/

/-- Can a snoop of the host for a line of its memory arrive? -/
def State.hostSnoops (s : State) (line : Nat) : Bool :=
  s.agentUp 8 && !s.caps.fovr && s.links.cacheen && (s.links.up &&& s.caps.seamOk) != 0
    && decide (0x1000000000000 ≤ line * 64) && decide (line * 64 < 0x8000000000000)

/-- HOST_SNPDATA (R165): a request of agent 8 for sharing. -/
def execHostSnpdata (line : Nat) (s : State) : Answer := whenEnabled (s.hostSnoops line) (s.seamRequest line 8 .rds)

/-- HOST_SNPINV (R165): a request of agent 8 for ownership. -/
def execHostSnpinv (line : Nat) (s : State) : Answer := whenEnabled (s.hostSnoops line) (s.seamRequest line 8 .rdx)

/-- HOST_UNSUPPORTED_REQUEST (R217): answered as unsupported; no device state changes but the count of R235. -/
def execHostUnsupportedRequest (seam : Nat) (s : State) : Answer :=
  whenEnabled (s.windowUp seam) (s.countSlice (32 * seam) 0x213)

/-- CXL_CACHE_MEM_ENABLE (R218): by the host, through configuration space. -/
def execCxlCacheMemEnable (cache mem : Bool) (s : State) : Answer :=
  whenEnabled ((cache || mem) && (s.links.up &&& s.caps.seamOk) != 0)
    { s with
      links := { s.links with cacheen := s.links.cacheen || cache, memen := s.links.memen || mem }
      caps := { s.caps with genHost := bumpGen s.caps.genHost } }

/-! ## CXL memory (R166, R167, R219, R220) -/

/-- COMBINING_BUFFER_DRAIN (R166): an entry held for 12,000 cc, or one of an extent under release, is written to its port; its bytes have
counted as the port's since they were applied. An entry that is whole, or whose set needs room, has drained as the write came. -/
def execCombiningBufferDrain (line : Nat) (s : State) : Answer :=
  whenEnabled (s.seam.comb.any fun c => c.line == line && (decide (c.since + 12000 ≤ s.cc) || s.releasing (line * 64)))
    (s.modSeam fun m => { m with comb := m.comb.filter fun c => c.line != line })

/-- Is a range one that a port reaches: its own 256 TiB, or the fabric range (R219)? -/
def portReaches (p base size : Nat) (fabric : Bool) : Bool :=
  let lo := 0x8000000000000 + p * 0x1000000000000
  (lo ≤ base && base + size ≤ lo + 0x1000000000000) || (fabric && 0xC000000000000 ≤ base && base + size ≤ 0xF000000000000)

/-- DYNAMIC_CAPACITY_ADD (R220): an extent becomes backed. -/
def execDynamicCapacityAdd (port base size : Nat) (s : State) : Answer :=
  let p := s.port port
  whenEnabled (decide (port < 4) && p.up && p.dcd && decide (0 < size) && base % 64 = 0 && size % 64 = 0
      && portReaches port base size p.fabric
      && s.links.ports.toList.all fun q => q.extents.all fun x => x.1 + x.2 ≤ base || base + size ≤ x.1)
    (s.modPort port fun p => { p with extents := p.extents ++ [(base, size)], released := cutRange p.released base size })

/-- DCD_RELEASE_REQUEST (R167 step 1). -/
def execDcdReleaseRequest (port base size : Nat) (s : State) : Answer :=
  let p := s.port port
  whenEnabled (decide (port < 4) && p.up && p.dcd && decide (0 < size) && base % 64 = 0 && size % 64 = 0
      && (p.extents.any fun x => x.1 ≤ base && base + size ≤ x.1 + x.2)
      && s.links.releases.all fun r => r.base + r.size ≤ base || base + size ≤ r.base)
    { s with links := { s.links with releases := s.links.releases ++ [⟨port, base, size, s.cc⟩] } }

/-- Does a release take a line? -/
def Release.has (r : Release) (line : Nat) : Bool := decide (r.base ≤ line * 64) && decide (line * 64 < r.base + r.size)

/-- The lines of a release that the directory or a cache holds. -/
def State.heldLines (s : State) (r : Release) : List Nat :=
  ((s.seam.dir.filter fun e => r.has e.line).map fun e => e.line) ++
    (s.allCores.flatMap fun c => (c.l1.filter fun x => r.has x.line).map fun x => x.line) ++
    s.clusters.flatMap fun k => (k.l2.filter fun x => r.has x.line).map fun x => x.line

/-- A line recalled: a directory entry's recall is counted (R158, R169). -/
def State.recallCounted (s : State) (line : Nat) : State :=
  let s1 := s.recallLine line
  if (s.dirOf line).isSome then s1.countSlice (dirSlice line) 0x205 else s1

/-- The extent of a release given up: no cache, buffer or map holds it. -/
def State.giveUp (s : State) (r : Release) : State :=
  let s1 := (s.heldLines r).foldl (fun s l => s.recallCounted l) s
  let s2 := s1.modSeam fun m => { m with comb := m.comb.filter fun c => !r.has c.line }
  let s3 : State := { s2 with links := { s2.links with releases := s2.links.releases.erase r } }
  s3.modPort r.port fun p => { p with
    extents := cutRange p.extents r.base r.size, released := p.released ++ [(r.base, r.size)] }

/-- DCD_RELEASE_COMPLETE (R167 steps 2 and 3): entries recalled, lines drained, the release acknowledged. -/
def execDcdReleaseComplete (k : Nat) (s : State) : Answer :=
  match s.links.releases[k]? with
  | none => .fault .notEnabled
  | some r => whenEnabled (s.seam.dir.all fun e => !(r.has e.line && e.busy)) (s.giveUp r)

/-- The one range that spans some ranges. -/
def spanOf (l : List (Nat × Nat)) : Nat × Nat :=
  let lo := l.foldl (fun m y => min m y.1) ((l.head?.map fun y => y.1).getD 0)
  (lo, l.foldl (fun m y => max m (y.1 + y.2)) 0 - lo)

/-- Lines entered in a port's poison list (R167): 4,096 lines, then 16 ranges to the end of the extent at `stop`, then one range, the
port's released space. -/
def addLost64 (l released : List (Nat × Nat)) (stop : Nat) : List Nat → List (Nat × Nat)
  | [] => l
  | x :: r =>
    let a := x * 64
    if l.any fun y => y.1 ≤ a && a < y.1 + y.2 then addLost64 l released stop r
    else if (l.filter fun y => y.2 = 64).length < 4096 then addLost64 (l ++ [(a, 64)]) released stop r
    else if (l.filter fun y => y.2 ≠ 64).length < 16 then l ++ [(a, stop - a)]
    else [spanOf (released ++ l)]

/-- DCD_FORCED_RELEASE (R167): 1,200,000 cc after the request, dirty lines not yet written back are dropped and listed, in ascending
order of their addresses (DESIGN CHOICE: the spec gives no order; log 63). -/
def execDcdForcedRelease (k : Nat) (s : State) : Answer :=
  match s.links.releases[k]? with
  | none => .fault .notEnabled
  | some r =>
    let s0 : State := { s with cc := max s.cc (r.since + 1200000) }
    let dirty := (s0.heldLines r).filter (fun l => (List.range 8).any fun d => s0.dieDirty d l) ++
      (s0.seam.comb.filter fun c => r.has c.line).map fun c => c.line
    let lost := (dirty.eraseDups.mergeSort (· ≤ ·))
    let s1 := (s0.giveUp r).modPort r.port fun p => { p with
      plist := addLost64 p.plist p.released (r.base + r.size) lost }
    .next (lost.foldl (fun s l => s.countSlice (dirSlice l) 0x20B) s1)

/-- EXPANDER_BACK_INVALIDATE (R219): a back-invalidate snoop of an expander, applied to the package's copies of its line as R164 does for
the host: BISnpInv takes them away, BISnpData has a dirty owner write the line back and keep it shared. -/
def execExpanderBackInvalidate (port : Nat) (snoop : BackSnoop) (s : State) : Answer :=
  whenEnabled (decide (port < 4) && (s.port port).up && s.agentUp (9 + port) && !s.caps.fovr
      && portReaches port (snoop.line * 64) 64 (s.port port).fabric && !((s.dirOf snoop.line).any fun e => e.busy))
    (if snoop.inv then s.recallLine snoop.line else s.cleanLine snoop.line)

/-! ## Peer links (R221-R226) -/

/-- The cluster beside a peer link (R221). -/
def linkCluster (link : Nat) : Nat := link / 2 * 16 + (if link % 2 = 0 then 0 else 15)

/-- Node of a place, where it is a peer's. -/
def Loc.node (l : Loc) : Option Nat := match l.place with
  | .peer n => some n
  | _ => none

/-- The link that a request to a physical address of a node takes: of the trained links to it the one chosen by pa[11:6] modulo their
number (R223). -/
def State.linkOf (s : State) (node pa : Nat) : Option Nat :=
  let ls := (List.finRange 16).filter fun i => s.links.peers[i].trained && s.links.peers[i].node == node
  (ls[bits pa 6 6 % ls.length]?).map fun i => i.1

/-- Requests under way over a link, of any kind: loads, atomics, aggregated adds, full/empty operations, stores that have left their
buffer (R223, R224). -/
def State.linkLoad (s : State) (link node : Nat) : Nat :=
  let via (l : Loc) : Bool := l.node == some node && s.linkOf node l.key == some link
  (s.net.reqs.filter fun r => via r.loc).length + (s.net.aggs.filter fun a => via a.loc).length +
    (s.net.fe.filter fun r => r.e.key / 0x100000000000 == (0xF800000000000 / 0x100000000000) + node && s.linkOf node r.e.key == some link).length +
    (s.allCores.flatMap fun c => c.sb.filter fun e => e.left && via e.loc).length

/-- Node of a physical address of a peer aperture. -/
def nodeOf (key : Nat) : Option Nat :=
  if 0xF800000000000 ≤ key && key < 0x10000000000000 then some ((key - 0xF800000000000) / 0x100000000000) else none

/-- A peer store dropped (R224): recorded in its thread and counted in UECNT; one message received (R225). -/
def State.dropStore (s : State) (core frame launch : Nat) (va : Word) : State :=
  (((s.modThread core frame fun t => { t with dropped := t.dropped.or (some va) }).countUe).sent launch core).recvd launch core

/-- The requests to a node that no link reaches any more (R224): loads and atomics land poisoned, stores are dropped, and so is a join update,
which has no register to land in (R353; DEDUCED, log 60). -/
def State.loseNode (s : State) (n : Nat) : State :=
  let reqs := s.net.reqs.filter fun r => r.loc.node == some n
  let s1 : State := { s with net := { s.net with reqs := s.net.reqs.filter fun r => r.loc.node != some n } }
  let lost (s : State) (r : Req) : State :=
    if r.kind.quiet then (s.modThread r.core r.frame fun t => { t with dropped := t.dropped.or (some r.loc.va) }).countUe
    else s.modThread r.core r.frame fun t => t.deliver r.tok 0 0 (some r.loc.va)
  let s2 := reqs.foldl (fun s r => (lost s r).recvd r.tid.launch r.core) s1
  let aggs := s2.net.aggs.filter fun a => a.loc.node == some n
  let s3 : State := { s2 with net := { s2.net with aggs := s2.net.aggs.filter fun a => a.loc.node != some n } }
  let s4 := aggs.foldl (fun s a => a.parts.foldl (fun s p =>
    s.modThread p.core p.frame fun t => t.deliver p.tok 0 0 (some a.loc.va)) s) s3
  let mine (e : WaitEntry) : Bool := nodeOf e.key == some n
  let fe := (s4.net.fe.map fun r => r.e).filter mine ++
    s4.allCores.flatMap fun c => (c.waits ++ c.retries.map (·.2)).filter mine
  let s5 : State := { s4 with net := { s4.net with fe := s4.net.fe.filter fun r => !mine r.e } }
  let s6 := s5.modCores fun c => { c with waits := c.waits.filter fun e => !mine e, retries := c.retries.filter fun e => !mine e.2 }
  let s7 := fe.foldl (fun s e =>
    let va := ((s.threadAt e.core e.frame).bind fun t => t.park.map fun p => p.arg).getD 0
    let t := s.modThread e.core e.frame fun t =>
      ((if e.kind == .stef then { t with dropped := t.dropped.or (some va) } else t.deliver e.tok 0 0 (some va))).feDone
    (if e.kind == .stef then t.countUe else t).recvd e.launch e.core) s6
  let stores := s7.allCores.flatMap fun c => (c.sb.filter fun e => e.loc.node == some n).map fun e => (c.id, e)
  let s8 := s7.modCores fun c => { c with sb := c.sb.filter fun e => e.loc.node != some n }
  stores.foldl (fun s x => match x.2.kind with
    | .scon tok => s.modThread x.1 x.2.frame fun t => t.deliver tok 0 0 (some x.2.loc.va)
    | .stef => (s.dropStore x.1 x.2.frame x.2.tid.launch x.2.loc.va).modThread x.1 x.2.frame Thread.feDone
    | _ => s.dropStore x.1 x.2.frame x.2.tid.launch x.2.loc.va) s8

/-- PEER_LINK_FAILURE (R224): the requests under way over the link are sent again over another one to the node, each of them counted
(R235); with none left they are lost and a link-down event is posted. -/
def execPeerLinkFailure (link : Nat) (s : State) : Answer :=
  if h : link < 16 then
    let l := s.links.peers[link]
    let s1 : State := { s with
      links := { s.links with peers := s.links.peers.set link PeerLink.reset }
      caps := { s.caps with genPeer := bumpGen s.caps.genPeer } }
    let left := s1.links.peers.toList.any fun x => x.trained && x.node == l.node
    whenEnabled l.trained
      (if left then (List.range (s.linkLoad link l.node)).foldl (fun s _ => s.countCluster (linkCluster link) 0x114 0) s1
      else ((s1.loseNode l.node).countCluster (linkCluster link) 0x115 0).post ⟨0x0005, 2, BitVec.ofNat 64 link⟩)
  else .fault .notEnabled

/-! ## Training and failure of links -/

/-- An agent that was dead rejoins after the reset of its link (R160). -/
def State.rejoin (s : State) (a : Nat) : State :=
  if s.caps.dead.getLsbD a then
    { s with caps := { s.caps with dead := s.caps.dead &&& ~~~(agentBit a), genSeam := bumpGen s.caps.genSeam } }
  else s

/-- LINK_TRAINED (R218, R220, R222): the record shows the link. A port of dynamic capacity has no extent yet; another expander
backs what it has, a free value. -/
def execLinkTrained (l : Link) (s : State) : Answer :=
  match l with
  | .host seam =>
    whenEnabled (decide (seam < 2) && s.caps.seamOk.getLsbD seam && !s.links.up.getLsbD seam)
      ({ s with
        links := { s.links with up := s.links.up ||| BitVec.ofNat 2 (2 ^ seam) }
        caps := { s.caps with genHost := bumpGen s.caps.genHost } }.rejoin 8)
  | .cxl p width rate dcd fabric =>
    let size := Config.expanderBytes p % 0x1000000000000 / 64 * 64
    whenEnabled (decide (p < 4) && s.mgmt.booted && s.caps.seamOk.getLsbD (p / 2) && !(s.port p).up && decide (width ≤ 16) && decide (rate ≤ 64))
      ((s.modPort p fun q => { q with
        up := true, dcd := dcd, fabric := fabric, width := width, rate := rate
        extents := if dcd then [] else [(0x8000000000000 + p * 0x1000000000000, size)] }).rejoin (9 + p))
  | .peer link node remote =>
    if h : link < 16 then
      whenEnabled (s.mgmt.booted && decide (link < 2 * s.pkg.dies) && decide (node < 8) && decide (remote < 16) && !s.links.peers[link].trained)
        { s with
          links := { s.links with peers := s.links.peers.set link ⟨true, node, remote⟩ }
          caps := { s.caps with genPeer := bumpGen s.caps.genPeer } }
    else .fault .notEnabled

/-- LINK_DOWN (R233): a host or CXL link is reported down, and the event posted. Nothing is trained behind the port, and what it backed
is backed no longer (R220). -/
def execLinkDown (l : Link) (s : State) : Answer :=
  match l with
  | .host seam =>
    whenEnabled (decide (seam < 2) && s.links.up.getLsbD seam)
      ({ s with
        links := { s.links with up := s.links.up &&& ~~~(BitVec.ofNat 2 (2 ^ seam)) }
        caps := { s.caps with genHost := bumpGen s.caps.genHost } }.post ⟨0x0005, 0, BitVec.ofNat 64 seam⟩)
  | .cxl p _ _ _ _ =>
    let s1 : State := { s with links := { s.links with releases := s.links.releases.filter fun r => r.port != p } }
    whenEnabled (decide (p < 4) && (s.port p).up)
      ((s1.modPort p fun q => { Port.reset with plist := q.plist, released := q.released }).post ⟨0x0005, 1, BitVec.ofNat 64 p⟩)
  | .peer _ _ _ => .fault .notEnabled

end Sys2Proof.Machine
end

