-- ==== Sys2Proof/Machine/Manage.lean ====
section
/-! DEFINITION. Dzieth: layer map-out (R110, R111), the health record (R214), per-core reset (R210), package reset and boot
(R229, R230), the mailbox (R231, R232), power (R5). -/

namespace Sys2Proof.Machine

/-! ## HBM layers (R110, R111) -/

/-- Layers mapped out of a stack. -/
def Caps.lost (c : Caps) (stack : Nat) : Nat := (c.layers.filter fun x => x.1 == stack).length

/-- CAP with the layers of a list mapped out (R110). -/
def capFor (p : Package) (layers : List (Nat × Nat)) : Nat :=
  let m := (List.range p.stacks).foldl (fun m k => max m (layers.filter fun x => x.1 == k).length) 0
  p.hbm * (16 - m) / 16

/-- R111 step 1 for the removal at the head of the list. -/
def State.startRemoval (s : State) : State :=
  match s.mgmt.removals with
  | [] => s
  | r :: _ =>
    let base := capFor s.pkg ((r.stack, r.layer) :: s.caps.layers)
    let s1 : State := { s with caps := { s.caps with rmv := true, rmvbase := base, genMem := bumpGen s.caps.genMem } }
    (s1.post ⟨0x0001, BitVec.ofNat 64 base, BitVec.ofNat 64 s.caps.cap⟩).replace 3

/-- LAYER_FAILURE (R111): Dzieth starts to map a failed layer out; it does one removal at a time. -/
def execLayerFailure (stack layer : Nat) (s : State) : Answer :=
  let s1 : State := { s with mgmt := { s.mgmt with removals := s.mgmt.removals ++ [⟨stack, layer, false⟩] } }
  whenEnabled (decide (stack < s.pkg.stacks) && decide (layer < 16) && !s.caps.layers.contains (stack, layer)
      && !(s.mgmt.removals.any fun r => r.stack == stack && r.layer == layer))
    (if s.mgmt.removals.isEmpty then s1.startRemoval else s1)

/-- R111 step 3: the blocks of a layer that cannot be corrected are poisoned and counted. Which they are, is free; they lie in the failed
layer's stack. -/
def State.loseBlocks (s : State) (stack : Nat) : State :=
  let f := s.fresh
  let mine (b : Nat) : Bool := decide (b * 512 < s.pkg.hbm) && channelOf s.pkg (b * 512) / 32 == stack
  ((Config.lostBlocks f.1).filter mine).foldl State.poisonBlock f.2

/-- LAYER_COPY_COMPLETE (R111 steps 3 and 4): after the acknowledgement, where CAP falls. A map-out that leaves CAP needs no
acknowledgement and posts no completion (R110). -/
def execLayerCopyComplete (s0 : State) : Answer :=
  match s0.mgmt.removals with
  | [] => .fault .notEnabled
  | r :: rest =>
    let s := s0.loseBlocks r.stack
    let falls := s.caps.rmvbase != s.caps.cap
    let s1 : State := { s with
      caps := { s.caps with
        cap := s.caps.rmvbase, rmv := false, rmvbase := 0, layers := s.caps.layers ++ [(r.stack, r.layer)]
        genMem := bumpGen s.caps.genMem }
      mgmt := { s.mgmt with removals := rest } }
    let s2 := if falls then s1.post ⟨0x0002, BitVec.ofNat 64 s.caps.rmvbase, 0⟩ else s1
    whenEnabled (s.caps.rmv && (!falls || r.acked)) s2.startRemoval

/-! ## Health (R214) -/

/-- HEALTH_CE_WINDOW_END (R214): time reaches the end of the 60 s window; more than CETHR corrected errors set CERATE. -/
def execHealthCeWindowEnd (s : State) : Answer :=
  let stop := s.health.winStart + 72000000000
  let s1 : State := { s with
    cc := max s.cc stop
    health := { s.health with cewin := s.health.winCount, winStart := stop, winCount := 0 }
    caps := { s.caps with genHealth := bumpGen s.caps.genHealth } }
  .next (if 10000 < s.health.winCount then s1.replace 4 else s1)

/-! ## Per-core reset (R209, R210) -/

/-- DZIETH_CORE_RESET (R210): of a failed core. -/
def execDziethCoreReset (core : Nat) (mapout : Bool) (s : State) : Answer :=
  whenEnabled (s.enabled core && (s.coreOf core).reset.isNone) (s.startReset core mapout)

/-- R210 step 3: the deque entries of a core moved to its overflow area in deque order; one that finds no room is counted as
lost. -/
def State.saveDeque (s : State) (core : Nat) : State :=
  let es := (s.coreOf core).deque
  (es.foldl (fun s e => match s.launchOf e.launch with
    | none => s
    | some l =>
      let i := l.ovf core
      if s.ovfFits l core i then
        (s.ovfWrite l core i e).modLaunch l.id fun l => { l with counts := modCount l.counts core fun c => { c with ovf := c.ovf + 1 } }
      else s.lose l.id core 0 1) s).modCore core fun c => { c with deque := [] }

/-- Is an entry one for the scratchpad of another core that is in reset? It stays buffered (R210). -/
def State.heldBack (s : State) (core : Nat) (e : SbEntry) : Bool :=
  match e.loc.place with
  | .scratch k _ => k != core && (s.coreOf k).reset.isSome
  | _ => false

/-- R210 step 4: the store buffer of a core drained in order. -/
def State.drain (s : State) (core : Nat) : State :=
  ((s.coreOf core).sb.filter fun e => !s.heldBack core e).foldl (fun s e => s.applyEntry core e) s

/-- R210 step 4: the L1 of a core given up, its dirty lines written back. -/
def State.dropL1 (s : State) (core : Nat) : State :=
  let die := dieOf core
  (s.coreOf core).l1.foldl (fun s x =>
    if x.perm.dirty then s.putL2 die x.line x.perm else s.leaveL2 die x) (s.modCore core fun c => { c with l1 := [] })

/-- Full/empty operations withdrawn (R321): their issuers issue again. -/
def State.reissue (s : State) (core : Nat) (es : List WaitEntry) : State :=
  es.foldl (fun s e =>
    let t := s.modThread e.core e.frame fun t => { t with
      pend := if e.kind == .stef then t.pend else t.pend.filter fun p => p.tok != e.tok
      phase := 0, park := none }
    if e.remote then t.recvd e.launch core else t) s

/-- The entries of the wait table of a core withdrawn. -/
def State.withdrawTable (s : State) (core : Nat) : State :=
  (s.modCore core fun c => { c with waits := [] }).reissue core (s.coreOf core).waits

/-- A message queued for a core that is lost has been received (R210). -/
def State.loseMessages (s : State) (core : Nat) : State :=
  let ms := (s.net.sends ++ s.net.pushes).filter fun m => m.target == core
  let s1 : State := { s with net := { s.net with
    sends := s.net.sends.filter fun m => m.target != core, pushes := s.net.pushes.filter fun m => m.target != core } }
  ms.foldl (fun s m => s.recvd m.launch core) s1

/-- What was on its way to the scratchpad of a core as it was disabled (R210): a full/empty operation issues again and raises PLACE; a
load or an atomic, which has issued, lands poisoned, and a store is dropped (DEDUCED: the spec lets them raise PLACE, which only an
instruction can; log 68). -/
def State.refuseAccesses (s : State) (core : Nat) : State :=
  let here (l : Loc) : Bool := match l.place with
    | .scratch k _ => k == core
    | _ => false
  let reqs := s.net.reqs.filter fun r => here r.loc
  let fe := (s.net.fe.filter fun r => r.core == core).map fun r => r.e
  let aggs := s.net.aggs.filter fun a => here a.loc
  let s1 : State := { s with net := { s.net with
    reqs := s.net.reqs.filter fun r => !here r.loc, fe := s.net.fe.filter fun r => r.core != core
    aggs := s.net.aggs.filter fun a => !here a.loc } }
  let s2 := reqs.foldl (fun s r => (s.modThread r.core r.frame fun t => t.deliver r.tok 0 0 (some r.loc.va)).recvd r.tid.launch core) s1
  let s3 := aggs.foldl (fun s a => a.parts.foldl (fun s p =>
    s.modThread p.core p.frame fun t => t.deliver p.tok 0 0 (some a.loc.va)) s) s2
  let sb := s3.allCores.flatMap fun c => (c.sb.filter fun e => here e.loc && c.id != core).map fun e => (c.id, e)
  let s4 := s3.modCores fun c => if c.id = core then c else { c with sb := c.sb.filter fun e => !here e.loc }
  let s5 := sb.foldl (fun s x => match x.2.kind with
    | .scon tok => s.modThread x.1 x.2.frame fun t => t.deliver tok 1 0 none
    | .stef => s.modThread x.1 x.2.frame fun t => { t with phase := 0, park := none }
    | _ => s) s4
  s5.reissue core fe

/-- R210 step 6: the core disabled, with no spare left (R20), and the health record told. Its spilled threads have no core to return
to: they are lost too (DEDUCED, log 65). -/
def State.disableCore (s : State) (core : Nat) : State :=
  let s1 : State := { s with caps := { s.caps with
    disabled := addKey s.caps.disabled core, genCore := bumpGen s.caps.genCore } }
  let out := (s1.onCore core).filter fun t => t.spilled
  let s2 := out.foldl (fun s t =>
    (s.terminate t).modLaunch t.launch fun l => { l with spilled := l.spilled.filter fun x => x.idx != t.idx }) s1
  ((s2.loseMessages core).refuseAccesses core).replace 2

/-- R210 step 6: a spare takes the position. -/
def State.useSpare (s : State) (core : Nat) : State :=
  let d := dieOf core
  { s with caps := { s.caps with
    spares := if h : d < 8 then s.caps.spares.set d (s.caps.spares[d] - 1) else s.caps.spares, genCore := bumpGen s.caps.genCore } }

/-- The core after its reset: empty, its scratchpad 0 and full. What it had stored for scratchpads of cores in reset stays buffered. -/
def Core.released (c : Core) : Core := { Core.fresh c.id with saved := c.saved, sb := c.sb, sbNum := c.sbNum }

/-- CORE_RESET_RELEASE (R210 steps 2 to 6): frames and deque saved, the store buffer drained, threads terminated, and the core
released empty, replaced, or disabled. Running launches get no further thread of the launcher's on it. -/
def execCoreResetRelease (core : Nat) (s : State) : Answer :=
  match (s.coreOf core).reset with
  | none => .fault .notEnabled
  | some r =>
    if s.caps.dead.getLsbD (dieOf core) then .fault .notEnabled
    else match (s.coreOf core).sb.find? fun e => !s.heldBack core e && !s.reachable core e.loc true with
    | some e => s.waitLine core e.loc true
    | none =>
      let mine := (s.onCore core).filter fun t => !t.spilled
      let s1 := ((s.saveDeque core).drain core).dropL1 core
      let s2 := ((mine.foldl (fun s t => s.terminate t) s1).writeLost).withdrawTable core
      let spare := decide (0 < s.caps.spares.toList.getD (dieOf core) 0)
      let s3 := if !r.mapout then s2 else if spare then s2.useSpare core else s2.disableCore core
      let bar (l : Launch) : Launch := if l.runs && !l.barred.contains core then { l with barred := core :: l.barred } else l
      let s4 : State := { s3 with
        mem := s3.mem.clearScratch core
        net := { s3.net with fe := s3.net.fe.filter fun q => q.e.core != core }
        launcher := { s3.launcher with list := s3.launcher.list.map bar }
        health := { s3.health with rstcnt := min (s3.health.rstcnt + 1) (2 ^ 32 - 1) }
        caps := { s3.caps with genHealth := bumpGen s3.caps.genHealth } }
      .next ((s4.modCore core Core.released).depScan)

/-! ## Package reset and boot (R229, R230) -/

/-- What a package reset leaves (R8): every unit at its reset values; mapped-out cores and layers stay so, memory outside the
package stands, and Dzieth keeps its flash. -/
def State.packageReset (s : State) : State :=
  let r := State.resetOf s.pkg
  let far (a : Nat) : Bool := 0x1000000000000 ≤ a && a < 0x10000000000000
  { r with
    free := s.free
    agenda := s.agenda
    mem := { bytes := s.mem.bytes.filter fun x => far x.1, empty := s.mem.empty.filter far, poison := s.mem.poison.filter far }
    caps := { r.caps with disabled := s.caps.disabled, spares := s.caps.spares, layers := s.caps.layers, cap := s.caps.cap }
    mgmt := { r.mgmt with image := s.mgmt.image, lms := s.mgmt.lms, sup := s.mgmt.sup } }

/-- Boot from an image (R229, R230): verified, it is measured and its supervisor threads start (R345); else boot stops and
both mailboxes await a recovery image, one whose command still waits once that is done. A new image brings a new key tree (R231). -/
def State.boot (s : State) (image : List Byte) : State :=
  if Config.imageVerified image then
    let same := image == s.mgmt.image
    let sup := if same then s.mgmt.sup else (Config.imageSupervisors image).map fun x => ⟨x.1, x.2⟩
    let go (m : Mailbox) : Mailbox := if m.stat = 0x81 then { m with stat := 0 } else m
    { s with mgmt := { s.mgmt with
        mb := s.mgmt.mb.map go, booted := true, image := image, recover := [], lms := if same then s.mgmt.lms else 0
        svn := Config.imageSvn image, meas := sha384 image, sup := sup, restarts := sup } }
  else
    let wait (m : Mailbox) : Mailbox := if m.stat = 1 then m else { m with stat := 0x81, outLen := 0 }
    { s with mgmt := { s.mgmt with booted := false, recover := [], restarts := [], mb := s.mgmt.mb.map wait } }

/-- PACKAGE_RESET (R229). -/
def execPackageReset (s : State) : Answer := .next (s.packageReset.boot s.mgmt.image)

/-! ## The mailbox (R231, R232) -/

/-- Can the host reach BAR 0 of a seam die? -/
def State.mailboxUp (s : State) (seam : Nat) : Bool :=
  decide (seam < 2) && s.caps.seamOk.getLsbD seam && (s.links.up.getLsbD seam || !s.mgmt.booted)

def State.mailbox (s : State) (seam : Nat) : Mailbox := s.mgmt.mb.toList.getD seam Mailbox.reset

/-- Change a mailbox. -/
def State.modMailbox (s : State) (seam : Nat) (f : Mailbox → Mailbox) : State :=
  { s with mgmt := { s.mgmt with mb := if h : seam < 2 then s.mgmt.mb.set seam (f s.mgmt.mb[seam]) else s.mgmt.mb } }

/-- The command at the head of Dzieth's queue completes: its status, output length and data. -/
def State.answer (s : State) (seam stat len : Nat) (data : List Host.Cell) : State :=
  let s1 := s.modMailbox seam fun m => { m with stat := stat, outLen := len, data := data }
  { s1 with mgmt := { s1.mgmt with mbq := s1.mgmt.mbq.filter fun k => k != seam } }

/-- Can Dzieth execute a command: the one at the head of its queue has this code, and firmware runs, or awaits an image, as the command
needs (R232)? Any other command is refused. -/
def State.commandDue (s : State) (seam code : Nat) : Bool := s.mgmt.mbq.head? == some seam && fieldOf (s.mailbox seam).cmd 0 8 == code

/-- Commands at the head of the queue that Dzieth does not know, or that need firmware while none runs, refused (R232; what becomes of
them is not said: DEDUCED, log 69). -/
def State.refuseUnknown (s : State) : List Nat → State
  | [] => s
  | k :: r =>
    let code := fieldOf (s.mailbox k).cmd 0 8
    let known := code == 2 || (s.mgmt.booted && (code == 1 || code == 3))
    if known then s else (s.answer k 3 0 (s.mailbox k).data).refuseUnknown r

/-- MBCMD written by the host (R232): a command starts, or waits behind the other mailbox's; one that finds its mailbox busy is
discarded. It wakes the supervisor threads (R346). -/
def State.writeCommand (s : State) (seam : Nat) (cmd : Word) : State :=
  if (s.mailbox seam).stat = 1 then s
  else
    let s1 := (s.modMailbox seam fun m => { m with cmd := cmd, stat := 1, outLen := 0 }).modThreads (fun t => t.isSup) fun t => { t with wake := true }
    let q := s1.mgmt.mbq ++ [seam]
    ({ s1 with mgmt := { s1.mgmt with mbq := q } } : State).refuseUnknown q

/-- Bytes of MBDATA written by the host (R232). -/
def State.writeData (s : State) (seam off : Nat) (bytes : List Byte) : State :=
  s.modMailbox seam fun m => { m with data := writeList m.data off bytes }

/-- A number as bytes, least significant first. -/
def bytesOf : Nat → Nat → List Byte
  | 0, _ => []
  | n + 1, v => BitVec.ofNat 8 v :: bytesOf n (v / 256)

/-- Free bytes of a signature over some bytes, from number k on. -/
def freeBytes (signed : List Byte) (k n : Nat) : List Byte := (List.range n).map fun i => Config.signatureByte signed (k + i)

/-- An LMS signature under LMS_SHA256_M32_H10 with LMOTS_SHA256_N32_W4, by leaf q (R231): the leaf, the one-time signature of 32 + 67 × 32
bytes with its type, the type and the path of 10 × 32 bytes, as RFC 8554 lays them out. -/
def lmsSignature (signed : List Byte) (k q : Nat) : List Byte :=
  bigBytes 4 q ++ bigBytes 4 3 ++ freeBytes signed k 2176 ++ bigBytes 4 6 ++ freeBytes signed (k + 2176) 320

/-- The HSS signature of two levels (R231): one signed key, the upper tree's signature of the lower tree's public key, that key of 56
bytes, and the lower tree's signature. The n-th signature is by leaf n modulo 1,024 of lower tree n div 1,024 (DEDUCED, log 9). -/
def hssSignature (signed : List Byte) (n : Nat) : List Byte :=
  bigBytes 4 1 ++ lmsSignature signed 96 (n / 1024) ++ bigBytes 4 6 ++ bigBytes 4 3 ++ freeBytes signed 2592 48 ++
    lmsSignature signed 2640 (n % 1024)

/-- The report of an attestation over a nonce (R231). -/
def State.report (s : State) (nonce : List Byte) : List Byte :=
  let health := (List.range 5).flatMap fun i => bytesOf 8 (s.capHealth (2 + i))
  let body := nonce ++ bytesOf 48 s.mgmt.meas.toNat ++ bytesOf 4 s.mgmt.svn.toNat ++ health
  let signed := body ++ freeBytes body 0 96
  signed ++ hssSignature signed s.mgmt.lms

/-- MB_ATTEST (R231): the report over the nonce in MBDATA, with its signatures; none once ATTCAP have been made. What exceeds
the 4 KiB of MBDATA is not held. -/
def execMbAttest (seam : Nat) (s : State) : Answer :=
  let m := s.mailbox seam
  let report := s.report (readList m.data 0 32)
  let s1 : State := { s with mgmt := { s.mgmt with lms := s.mgmt.lms + 1 } }
  whenEnabled (s.commandDue seam 1 && s.mgmt.booted)
    ((if 1048576 ≤ s.mgmt.lms then s.answer seam 3 0 m.data
    else s1.answer seam 2 (report.length % 65536) (writeList m.data 0 (report.take 4096))).refuseUnknown (s.mgmt.mbq.drop 1))

/-- Bytes put into an image at an offset. -/
def placeBytes (image : List Byte) (off : Nat) (part : List Byte) : List Byte :=
  let head := image.take off
  head ++ List.replicate (off - head.length) 0 ++ part ++ image.drop (off + part.length)

/-- MB_RECOVER (R229, R232): while boot awaits an image, a part of it is taken, or at length 0 it is verified and booted. At
any other time the command is refused. -/
def execMbRecover (seam : Nat) (s : State) : Answer :=
  let m := s.mailbox seam
  let n := min (fieldOf m.cmd 16 16) 4096
  let off := readBytes m.data 4 4
  let next (t : State) : Answer := .next (t.refuseUnknown (s.mgmt.mbq.drop 1))
  if !s.commandDue seam 2 then .fault .notEnabled
  else if s.mgmt.booted then next (s.answer seam 3 0 m.data)
  else if n = 0 then
    let s1 := s.boot s.mgmt.recover
    next (s1.answer seam (if s1.mgmt.booted then 2 else 0x81) 0 m.data)
  else
    let s1 : State := { s with mgmt := { s.mgmt with recover := placeBytes s.mgmt.recover off (readList m.data 8 (n - 8)) } }
    next (s1.answer seam 2 0 m.data)

/-- MB_GETEVENT (R232): the oldest event, two bytes of code and 16 of detail; with an empty queue the command is done with output length 0
(DESIGN CHOICE: R232 does not say; log 63). -/
def execMbGetevent (seam : Nat) (s : State) : Answer :=
  let m := s.mailbox seam
  whenEnabled (s.commandDue seam 3 && s.mgmt.booted)
    ((match s.mgmt.events with
    | [] => s.answer seam 2 0 m.data
    | e :: r =>
      let s1 : State := { s with mgmt := { s.mgmt with events := r } }
      s1.answer seam 2 18 (writeList m.data 0 (bytesOf 2 e.code ++ bytesOf 8 e.d0.toNat ++ bytesOf 8 e.d1.toNat))).refuseUnknown
        (s.mgmt.mbq.drop 1))

/-! ## Power (R5) -/

/-- POWER_CLOCK_GATING (R5): the clock of the matrix units stands while it is gated. -/
def execPowerClockGating (gated : Bool) (s : State) : Answer :=
  whenEnabled (s.mgmt.gated != gated) { s with mgmt := { s.mgmt with gated := gated } }

end Sys2Proof.Machine
end

