-- ==== Sys2Proof/Machine/Dispatch.lean ====
section
/-! DEFINITION. The meaning of every instruction of the opcode table, one arm per constructor. -/

namespace Sys2Proof.Machine

def exec (i : Instr) (s : State) : Host.Outcome State Fault Refusal :=
  match i with
  | .add o => Sys2Proof.Machine.execAdd o s
  | .sub o => Sys2Proof.Machine.execSub o s
  | .and o => Sys2Proof.Machine.execAnd o s
  | .or o => Sys2Proof.Machine.execOr o s
  | .xor o => Sys2Proof.Machine.execXor o s
  | .andn o => Sys2Proof.Machine.execAndn o s
  | .orn o => Sys2Proof.Machine.execOrn o s
  | .xnor o => Sys2Proof.Machine.execXnor o s
  | .sll o => Sys2Proof.Machine.execSll o s
  | .srl o => Sys2Proof.Machine.execSrl o s
  | .sra o => Sys2Proof.Machine.execSra o s
  | .rol o => Sys2Proof.Machine.execRol o s
  | .ror o => Sys2Proof.Machine.execRor o s
  | .min o => Sys2Proof.Machine.execMin o s
  | .max o => Sys2Proof.Machine.execMax o s
  | .minu o => Sys2Proof.Machine.execMinu o s
  | .maxu o => Sys2Proof.Machine.execMaxu o s
  | .slt o => Sys2Proof.Machine.execSlt o s
  | .sltu o => Sys2Proof.Machine.execSltu o s
  | .seq o => Sys2Proof.Machine.execSeq o s
  | .sne o => Sys2Proof.Machine.execSne o s
  | .mul o => Sys2Proof.Machine.execMul o s
  | .mulh o => Sys2Proof.Machine.execMulh o s
  | .mulhu o => Sys2Proof.Machine.execMulhu o s
  | .div o => Sys2Proof.Machine.execDiv o s
  | .divu o => Sys2Proof.Machine.execDivu o s
  | .rem o => Sys2Proof.Machine.execRem o s
  | .remu o => Sys2Proof.Machine.execRemu o s
  | .clz o => Sys2Proof.Machine.execClz o s
  | .ctz o => Sys2Proof.Machine.execCtz o s
  | .popc o => Sys2Proof.Machine.execPopc o s
  | .brev o => Sys2Proof.Machine.execBrev o s
  | .bswap o => Sys2Proof.Machine.execBswap o s
  | .sext o => Sys2Proof.Machine.execSext o s
  | .zext o => Sys2Proof.Machine.execZext o s
  | .selz o => Sys2Proof.Machine.execSelz o s
  | .lea o => Sys2Proof.Machine.execLea o s
  | .addi o => Sys2Proof.Machine.execAddi o s
  | .andi o => Sys2Proof.Machine.execAndi o s
  | .ori o => Sys2Proof.Machine.execOri o s
  | .xori o => Sys2Proof.Machine.execXori o s
  | .shi o => Sys2Proof.Machine.execShi o s
  | .slti o => Sys2Proof.Machine.execSlti o s
  | .sltiu o => Sys2Proof.Machine.execSltiu o s
  | .muli o => Sys2Proof.Machine.execMuli o s
  | .lui o => Sys2Proof.Machine.execLui o s
  | .lhi o => Sys2Proof.Machine.execLhi o s
  | .lpc o => Sys2Proof.Machine.execLpc o s
  | .leap o => Sys2Proof.Machine.execLeap o s
  | .fadd o => Sys2Proof.Machine.execFadd o s
  | .fsub o => Sys2Proof.Machine.execFsub o s
  | .fmul o => Sys2Proof.Machine.execFmul o s
  | .fdiv o => Sys2Proof.Machine.execFdiv o s
  | .fsqrt o => Sys2Proof.Machine.execFsqrt o s
  | .fma o => Sys2Proof.Machine.execFma o s
  | .fms o => Sys2Proof.Machine.execFms o s
  | .fmin o => Sys2Proof.Machine.execFmin o s
  | .fmax o => Sys2Proof.Machine.execFmax o s
  | .fabs o => Sys2Proof.Machine.execFabs o s
  | .fneg o => Sys2Proof.Machine.execFneg o s
  | .fcpys o => Sys2Proof.Machine.execFcpys o s
  | .feq o => Sys2Proof.Machine.execFeq o s
  | .flt o => Sys2Proof.Machine.execFlt o s
  | .fle o => Sys2Proof.Machine.execFle o s
  | .fclass o => Sys2Proof.Machine.execFclass o s
  | .fcvt o => Sys2Proof.Machine.execFcvt o s
  | .fcvti o => Sys2Proof.Machine.execFcvti o s
  | .icvtf o => Sys2Proof.Machine.execIcvtf o s
  | .fkey o => Sys2Proof.Machine.execFkey o s
  | .fex2 o => Sys2Proof.Machine.execFex2 o s
  | .flg2 o => Sys2Proof.Machine.execFlg2 o s
  | .frcp o => Sys2Proof.Machine.execFrcp o s
  | .frsq o => Sys2Proof.Machine.execFrsq o s
  | .fsin o => Sys2Proof.Machine.execFsin o s
  | .fcos o => Sys2Proof.Machine.execFcos o s
  | .ftanh o => Sys2Proof.Machine.execFtanh o s
  | .beq o => Sys2Proof.Machine.execBeq o s
  | .bne o => Sys2Proof.Machine.execBne o s
  | .blt o => Sys2Proof.Machine.execBlt o s
  | .bge o => Sys2Proof.Machine.execBge o s
  | .bltu o => Sys2Proof.Machine.execBltu o s
  | .bgeu o => Sys2Proof.Machine.execBgeu o s
  | .bbs o => Sys2Proof.Machine.execBbs o s
  | .bbc o => Sys2Proof.Machine.execBbc o s
  | .j o => Sys2Proof.Machine.execJ o s
  | .jal o => Sys2Proof.Machine.execJal o s
  | .nop o => Sys2Proof.Machine.execNop o s
  | .jr o => Sys2Proof.Machine.execJr o s
  | .jalr o => Sys2Proof.Machine.execJalr o s
  | .halt o => Sys2Proof.Machine.execHalt o s
  | .yield o => Sys2Proof.Machine.execYield o s
  | .ldb o => Sys2Proof.Machine.execLdb o s
  | .ldh o => Sys2Proof.Machine.execLdh o s
  | .ldw o => Sys2Proof.Machine.execLdw o s
  | .ldd o => Sys2Proof.Machine.execLdd o s
  | .ldbz o => Sys2Proof.Machine.execLdbz o s
  | .ldhz o => Sys2Proof.Machine.execLdhz o s
  | .ldwz o => Sys2Proof.Machine.execLdwz o s
  | .stb o => Sys2Proof.Machine.execStb o s
  | .sth o => Sys2Proof.Machine.execSth o s
  | .stw o => Sys2Proof.Machine.execStw o s
  | .std o => Sys2Proof.Machine.execStd o s
  | .ldk o => Sys2Proof.Machine.execLdk o s
  | .lda o => Sys2Proof.Machine.execLda o s
  | .stl o => Sys2Proof.Machine.execStl o s
  | .ldsc o => Sys2Proof.Machine.execLdsc o s
  | .stsc o => Sys2Proof.Machine.execStsc o s
  | .ldf o => Sys2Proof.Machine.execLdf o s
  | .ldfe o => Sys2Proof.Machine.execLdfe o s
  | .stf o => Sys2Proof.Machine.execStf o s
  | .stef o => Sys2Proof.Machine.execStef o s
  | .sete o => Sys2Proof.Machine.execSete o s
  | .fetst o => Sys2Proof.Machine.execFetst o s
  | .lres o => Sys2Proof.Machine.execLres o s
  | .scon o => Sys2Proof.Machine.execScon o s
  | .wrs o => Sys2Proof.Machine.execWrs o s
  | .fence o => Sys2Proof.Machine.execFence o s
  | .aadd o => Sys2Proof.Machine.execAadd o s
  | .aand o => Sys2Proof.Machine.execAand o s
  | .aor o => Sys2Proof.Machine.execAor o s
  | .axor o => Sys2Proof.Machine.execAxor o s
  | .amin o => Sys2Proof.Machine.execAmin o s
  | .amax o => Sys2Proof.Machine.execAmax o s
  | .aminu o => Sys2Proof.Machine.execAminu o s
  | .amaxu o => Sys2Proof.Machine.execAmaxu o s
  | .aswp o => Sys2Proof.Machine.execAswp o s
  | .acas o => Sys2Proof.Machine.execAcas o s
  | .aaddW o => Sys2Proof.Machine.execAaddW o s
  | .aandW o => Sys2Proof.Machine.execAandW o s
  | .aorW o => Sys2Proof.Machine.execAorW o s
  | .axorW o => Sys2Proof.Machine.execAxorW o s
  | .aminW o => Sys2Proof.Machine.execAminW o s
  | .amaxW o => Sys2Proof.Machine.execAmaxW o s
  | .aminuW o => Sys2Proof.Machine.execAminuW o s
  | .amaxuW o => Sys2Proof.Machine.execAmaxuW o s
  | .aswpW o => Sys2Proof.Machine.execAswpW o s
  | .acasW o => Sys2Proof.Machine.execAcasW o s
  | .aaddAgg o => Sys2Proof.Machine.execAaddAgg o s
  | .cflush o => Sys2Proof.Machine.execCflush o s
  | .cinv o => Sys2Proof.Machine.execCinv o s
  | .cclean o => Sys2Proof.Machine.execCclean o s
  | .pref o => Sys2Proof.Machine.execPref o s
  | .wswait o => Sys2Proof.Machine.execWswait o s
  | .sync o => Sys2Proof.Machine.execSync o s
  | .sret o => Sys2Proof.Machine.execSret o s
  | .work o => Sys2Proof.Machine.execWork o s
  | .wait o => Sys2Proof.Machine.execWait o s
  | .anch o => Sys2Proof.Machine.execAnch o s
  | .roam o => Sys2Proof.Machine.execRoam o s
  | .send o => Sys2Proof.Machine.execSend o s
  | .fork o => Sys2Proof.Machine.execFork o s
  | .qcfg o => Sys2Proof.Machine.execQcfg o s
  | .barcfg o => Sys2Proof.Machine.execBarcfg o s
  | .barw o => Sys2Proof.Machine.execBarw o s
  | .bart o => Sys2Proof.Machine.execBart o s
  | .barq o => Sys2Proof.Machine.execBarq o s
  | .tcallr o => Sys2Proof.Machine.execTcallr o s
  | .tret o => Sys2Proof.Machine.execTret o s
  | .tabort o => Sys2Proof.Machine.execTabort o s
  | .tlook o => Sys2Proof.Machine.execTlook o s
  | .bnd o => Sys2Proof.Machine.execBnd o s
  | .bchk o => Sys2Proof.Machine.execBchk o s
  | .incu o => Sys2Proof.Machine.execIncu o s
  | .incr o => Sys2Proof.Machine.execIncr o s
  | .launch o => Sys2Proof.Machine.execLaunch o s
  | .spawn o => Sys2Proof.Machine.execSpawn o s
  | .tcall o => Sys2Proof.Machine.execTcall o s
  | .sendi o => Sys2Proof.Machine.execSendi o s
  | .forki o => Sys2Proof.Machine.execForki o s
  | .ftest o => Sys2Proof.Machine.execFtest o s
  | .fcancel o => Sys2Proof.Machine.execFcancel o s
  | .movh o => Sys2Proof.Machine.execMovh o s
  | .fwait o => Sys2Proof.Machine.execFwait o s
  | .vadd o => Sys2Proof.Machine.execVadd o s
  | .vsub o => Sys2Proof.Machine.execVsub o s
  | .vmul o => Sys2Proof.Machine.execVmul o s
  | .vfma o => Sys2Proof.Machine.execVfma o s
  | .vmin o => Sys2Proof.Machine.execVmin o s
  | .vmax o => Sys2Proof.Machine.execVmax o s
  | .vabs o => Sys2Proof.Machine.execVabs o s
  | .vneg o => Sys2Proof.Machine.execVneg o s
  | .vcvt o => Sys2Proof.Machine.execVcvt o s
  | .vcmp o => Sys2Proof.Machine.execVcmp o s
  | .vsel o => Sys2Proof.Machine.execVsel o s
  | .vred o => Sys2Proof.Machine.execVred o s
  | .vex2 o => Sys2Proof.Machine.execVex2 o s
  | .vlg2 o => Sys2Proof.Machine.execVlg2 o s
  | .vrcp o => Sys2Proof.Machine.execVrcp o s
  | .vrsq o => Sys2Proof.Machine.execVrsq o s
  | .vscale o => Sys2Proof.Machine.execVscale o s
  | .vmov o => Sys2Proof.Machine.execVmov o s
  | .vbcast o => Sys2Proof.Machine.execVbcast o s
  | .vloop o => Sys2Proof.Machine.execVloop o s
  | .vfence o => Sys2Proof.Machine.execVfence o s
  | .cpy o => Sys2Proof.Machine.execCpy o s
  | .cpyx o => Sys2Proof.Machine.execCpyx o s
  | .cptr o => Sys2Proof.Machine.execCptr o s
  | .mma o => Sys2Proof.Machine.execMma o s
  | .mmaz o => Sys2Proof.Machine.execMmaz o s
  | .mst o => Sys2Proof.Machine.execMst o s
  | .mld o => Sys2Proof.Machine.execMld o s
  | .msync o => Sys2Proof.Machine.execMsync o s
  | .baddq o => Sys2Proof.Machine.execBaddq o s
  | .bqnext o => Sys2Proof.Machine.execBqnext o s
  | .trap o => Sys2Proof.Machine.execTrap o s
  | .eret o => Sys2Proof.Machine.execEret o s
  | .capr o => Sys2Proof.Machine.execCapr o s
  | .cntr o => Sys2Proof.Machine.execCntr o s
  | .tlbi o => Sys2Proof.Machine.execTlbi o s
  | .tflush o => Sys2Proof.Machine.execTflush o s
  | .incinit o => Sys2Proof.Machine.execIncinit o s
  | .idle o => Sys2Proof.Machine.execIdle o s
  | .brk o => Sys2Proof.Machine.execBrk o s
  | .spill o => Sys2Proof.Machine.execSpill o s
  | .eset o => Sys2Proof.Machine.execEset o s
  | .eget o => Sys2Proof.Machine.execEget o s
  | .mfs o => Sys2Proof.Machine.execMfs o s
  | .mts o => Sys2Proof.Machine.execMts o s
  | .illegalWord w => Sys2Proof.Machine.execIllegalWord w s
  | .mtsRotcfg v => Sys2Proof.Machine.execMtsRotcfg v s
  | .mtsHbmrmvAck v => Sys2Proof.Machine.execMtsHbmrmvAck v s
  | .mtsCorerstGo v => Sys2Proof.Machine.execMtsCorerstGo v s
  | .errinjArmResidFirst v => Sys2Proof.Machine.execErrinjArmResidFirst v s
  | .errinjArmResidBoth v => Sys2Proof.Machine.execErrinjArmResidBoth v s
  | .errinjArmScratchUce v => Sys2Proof.Machine.execErrinjArmScratchUce v s
  | .errinjArmScratchCe v => Sys2Proof.Machine.execErrinjArmScratchCe v s
  | .errinjArmRegDamage v => Sys2Proof.Machine.execErrinjArmRegDamage v s
  | .errinjCancel v => Sys2Proof.Machine.execErrinjCancel v s
  | .esetRtail n v => Sys2Proof.Machine.execEsetRtail n v s
  | .esetRingConfig n v => Sys2Proof.Machine.execEsetRingConfig n v s
  | .esetStreamReg n v => Sys2Proof.Machine.execEsetStreamReg n v s
  | .esetCopyReg n v => Sys2Proof.Machine.execEsetCopyReg n v s
  | .vrsmRetry => Sys2Proof.Machine.execVrsmRetry s
  | .vrsmAssistOne => Sys2Proof.Machine.execVrsmAssistOne s
  | .vrsmAssistRest => Sys2Proof.Machine.execVrsmAssistRest s
  | .vrsmDiscard => Sys2Proof.Machine.execVrsmDiscard s
  | .esetBqlim v => Sys2Proof.Machine.execEsetBqlim v s
  | .lwerrWrite seam v => Sys2Proof.Machine.execLwerrWrite seam v s
  | .launchSlotWordWrite seam slot k v => Sys2Proof.Machine.execLaunchSlotWordWrite seam slot k v s
  | .launchSlotFinalWord seam slot v => Sys2Proof.Machine.execLaunchSlotFinalWord seam slot v s
  | .launchWindowNarrowWrite seam => Sys2Proof.Machine.execLaunchWindowNarrowWrite seam s
  | .launchSlotFree seam slot => Sys2Proof.Machine.execLaunchSlotFree seam slot s
  | .launchRecordSubmit core frame => Sys2Proof.Machine.execLaunchRecordSubmit core frame s
  | .launchPlacement => Sys2Proof.Machine.execLaunchPlacement s
  | .removedThreadReturn core frame => Sys2Proof.Machine.execRemovedThreadReturn core frame s
  | .engineRelease core => Sys2Proof.Machine.execEngineRelease core s
  | .spillEngineRun core => Sys2Proof.Machine.execSpillEngineRun core s
  | .threadReload launch idx core => Sys2Proof.Machine.execThreadReload launch idx core s
  | .scratchpadSave core => Sys2Proof.Machine.execScratchpadSave core s
  | .scratchpadRestore core tenant => Sys2Proof.Machine.execScratchpadRestore core tenant s
  | .classifierWindowEnd launch => Sys2Proof.Machine.execClassifierWindowEnd launch s
  | .terminationSweep => Sys2Proof.Machine.execTerminationSweep s
  | .ctxlostThreadStart => Sys2Proof.Machine.execCtxlostThreadStart s
  | .supervisorThreadRestart k => Sys2Proof.Machine.execSupervisorThreadRestart k s
  | .fetchBlock cluster block => Sys2Proof.Machine.execFetchBlock cluster block s
  | .longResultLand core frame k => Sys2Proof.Machine.execLongResultLand core frame k s
  | .storeBufferApply core k => Sys2Proof.Machine.execStoreBufferApply core k s
  | .migrationDepart core frame => Sys2Proof.Machine.execMigrationDepart core frame s
  | .threadArrival k => Sys2Proof.Machine.execThreadArrival k s
  | .remoteWordRequest k => Sys2Proof.Machine.execRemoteWordRequest k s
  | .tlbWalkComplete core tenant sup va => Sys2Proof.Machine.execTlbWalkComplete core tenant sup va s
  | .stealRequest core frame victim => Sys2Proof.Machine.execStealRequest core frame victim s
  | .stealReply core frame => Sys2Proof.Machine.execStealReply core frame s
  | .qrxMessageArrival k => Sys2Proof.Machine.execQrxMessageArrival k s
  | .qdnPushArrival k => Sys2Proof.Machine.execQdnPushArrival k s
  | .barrierTimeout k => Sys2Proof.Machine.execBarrierTimeout k s
  | .reservationLapse core frame => Sys2Proof.Machine.execReservationLapse core frame s
  | .waitTimeout core frame => Sys2Proof.Machine.execWaitTimeout core frame s
  | .yieldExpiry core frame => Sys2Proof.Machine.execYieldExpiry core frame s
  | .syncRecheck core frame => Sys2Proof.Machine.execSyncRecheck core frame s
  | .fullEmptyApply core word => Sys2Proof.Machine.execFullEmptyApply core word s
  | .waitTableRetry core frame => Sys2Proof.Machine.execWaitTableRetry core frame s
  | .aggCombine k => Sys2Proof.Machine.execAggCombine k s
  | .hemWindowDelivery w => Sys2Proof.Machine.execHemWindowDelivery w s
  | .incumbentUpdateApply k => Sys2Proof.Machine.execIncumbentUpdateApply k s
  | .tableGroupClose group => Sys2Proof.Machine.execTableGroupClose group s
  | .seamRds agent line => Sys2Proof.Machine.execSeamRds agent line s
  | .seamRdx agent line => Sys2Proof.Machine.execSeamRdx agent line s
  | .seamUpg agent line => Sys2Proof.Machine.execSeamUpg agent line s
  | .seamWb agent line => Sys2Proof.Machine.execSeamWb agent line s
  | .seamEvc agent line => Sys2Proof.Machine.execSeamEvc agent line s
  | .seamTransactionEnd line => Sys2Proof.Machine.execSeamTransactionEnd line s
  | .snoopArrival die line inv => Sys2Proof.Machine.execSnoopArrival die line inv s
  | .directoryRecallComplete line => Sys2Proof.Machine.execDirectoryRecallComplete line s
  | .agentDead agent => Sys2Proof.Machine.execAgentDead agent s
  | .coreSnoopTimeout core => Sys2Proof.Machine.execCoreSnoopTimeout core s
  | .seamFailure seam => Sys2Proof.Machine.execSeamFailure seam s
  | .failoverComplete => Sys2Proof.Machine.execFailoverComplete s
  | .hostSnpdata line => Sys2Proof.Machine.execHostSnpdata line s
  | .hostSnpinv line => Sys2Proof.Machine.execHostSnpinv line s
  | .hostUnsupportedRequest seam => Sys2Proof.Machine.execHostUnsupportedRequest seam s
  | .combiningBufferDrain line => Sys2Proof.Machine.execCombiningBufferDrain line s
  | .dcdReleaseRequest port base size => Sys2Proof.Machine.execDcdReleaseRequest port base size s
  | .dcdReleaseComplete k => Sys2Proof.Machine.execDcdReleaseComplete k s
  | .dcdForcedRelease k => Sys2Proof.Machine.execDcdForcedRelease k s
  | .peerLinkFailure link => Sys2Proof.Machine.execPeerLinkFailure link s
  | .linkTrained l => Sys2Proof.Machine.execLinkTrained l s
  | .linkDown l => Sys2Proof.Machine.execLinkDown l s
  | .layerFailure stack layer => Sys2Proof.Machine.execLayerFailure stack layer s
  | .layerCopyComplete => Sys2Proof.Machine.execLayerCopyComplete s
  | .weightRefreshStart die group => Sys2Proof.Machine.execWeightRefreshStart die group s
  | .weightRefreshEnd die group => Sys2Proof.Machine.execWeightRefreshEnd die group s
  | .healthCeWindowEnd => Sys2Proof.Machine.execHealthCeWindowEnd s
  | .dziethCoreReset core mapout => Sys2Proof.Machine.execDziethCoreReset core mapout s
  | .coreResetRelease core => Sys2Proof.Machine.execCoreResetRelease core s
  | .matrixOpBegin core stream => Sys2Proof.Machine.execMatrixOpBegin core stream s
  | .matrixOpComplete core => Sys2Proof.Machine.execMatrixOpComplete core s
  | .mstComplete core => Sys2Proof.Machine.execMstComplete core s
  | .mldComplete core => Sys2Proof.Machine.execMldComplete core s
  | .baddqComplete core => Sys2Proof.Machine.execBaddqComplete core s
  | .vectorBodyStart core => Sys2Proof.Machine.execVectorBodyStart core s
  | .vectorChunk core => Sys2Proof.Machine.execVectorChunk core s
  | .vectorFaultDelivery core frame => Sys2Proof.Machine.execVectorFaultDelivery core frame s
  | .sfuEntryServe core => Sys2Proof.Machine.execSfuEntryServe core s
  | .copyBegin core ch => Sys2Proof.Machine.execCopyBegin core ch s
  | .copyElementWrite core ch => Sys2Proof.Machine.execCopyElementWrite core ch s
  | .copyComplete core ch => Sys2Proof.Machine.execCopyComplete core ch s
  | .packageReset => Sys2Proof.Machine.execPackageReset s
  | .mbAttest seam => Sys2Proof.Machine.execMbAttest seam s
  | .mbRecover seam => Sys2Proof.Machine.execMbRecover seam s
  | .mbGetevent seam => Sys2Proof.Machine.execMbGetevent seam s
  | .expanderBackInvalidate port snoop => Sys2Proof.Machine.execExpanderBackInvalidate port snoop s
  | .dynamicCapacityAdd port base size => Sys2Proof.Machine.execDynamicCapacityAdd port base size s
  | .cxlCacheMemEnable cache mem => Sys2Proof.Machine.execCxlCacheMemEnable cache mem s
  | .supervisorEndsLaunch launch => Sys2Proof.Machine.execSupervisorEndsLaunch launch s
  | .powerClockGating gated => Sys2Proof.Machine.execPowerClockGating gated s

end Sys2Proof.Machine
end

