-- ==== Sys2Proof/Machine/World.lean ====
section
/-! DEFINITION. What comes from outside the package's own steps: acts of the outside world for which the opcode table has no row
(log 60), and errors of the hardware (R106, R108, R213; log 61). -/

namespace Sys2Proof.Machine

/-! ## Acts of the outside world -/

/-- May an agent beyond the dies write bytes at a physical address (R146): within one line, to device memory, or to its own? While a
transaction is under way on the line, or its set is full, the write waits (R155, R158). -/
def State.mayWrite (s : State) (agent pa n : Nat) : Bool :=
  decide (0 < n) && decide (pa / 64 = (pa + n - 1) / 64) && 8 ≤ agent && s.agentUp agent && !s.agentLinkDown agent
    && !s.caps.fovr &&
    (if pa < 0x1000000000000 then decide (pa < s.caps.cap) && (agent != 8 || s.links.memen)
    else if pa < 0x8000000000000 then agent == 8
    else if pa < 0xF000000000000 then s.portOf pa == some (agent - 9) && s.links.ports.toList.any fun p => p.holds pa
    else false)

/-- A write of an agent beyond the dies (R146): it takes the line for ownership, is performed for every agent at once, and leaves the
line at its home; a port's own writes pass no combining buffer (R166). One of a whole line clears the line's poison (R107) and takes it off
its port's list (R167). -/
def State.agentWrite (s : State) (agent pa : Nat) (bytes : List Byte) : State :=
  let line := pa / 64
  let s1 := s.dirRequest agent line .rdx
  let v := bytes.foldr (fun b v => b.toNat + 256 * v) 0
  let s2 := s1.putBytes pa bytes.length v
  let s3 := (if pa < 0x1000000000000 then s2.mscWrite pa bytes.length 0 0 else s2).dirRequest agent line (.wb true)
  if bytes.length = 64 then s3.unlist line else s3

/-- Can a write of an agent beyond the dies be performed now: has its request no transaction before it, and a way (R155, R158)? -/
def State.writeFree (s : State) (agent pa : Nat) : Bool :=
  s.seamIdle (pa / 64) && !s.setFullFor (pa / 64) && !s.asked agent (pa / 64)

/-- A write of an agent beyond the dies arrives: performed at once, or its request joins the queue of the line and the write waits behind
the agent's earlier ones (R155, R158). -/
def State.takeWrite (s : State) (agent pa : Nat) (bytes : List Byte) : State :=
  if s.writeFree agent pa && s.links.writes.all fun w => w.1 != agent then s.agentWrite agent pa bytes
  else
    let s1 : State := { s with links := { s.links with writes := s.links.writes ++ [(agent, pa, bytes)] } }
    if s.asked agent (pa / 64) || s.writeFree agent pa then s1 else s1.seamRequest (pa / 64) agent .rdx

/-- The writes of agents beyond the dies that waited, each agent's in order, performed where their lines are free; one whose link is down is
lost with it. -/
def State.settleWrites (s : State) : State :=
  let step (x : State × List Nat) (w : Nat × Nat × List Byte) : State × List Nat :=
    let (t, held) := x
    if t.agentLinkDown w.1 then (t, held)
    else if held.contains w.1 || t.caps.fovr || !t.writeFree w.1 w.2.1 then
      let t1 := if held.contains w.1 || t.caps.fovr || t.asked w.1 (w.2.1 / 64) then t else t.seamRequest (w.2.1 / 64) w.1 .rdx
      ({ t1 with links := { t1.links with writes := t1.links.writes ++ [w] } }, w.1 :: held)
    else (t.agentWrite w.1 w.2.1 w.2.2, held)
  (s.links.writes.foldl step ({ s with links := { s.links with writes := [] } }, [])).1

/-- Lines copied from HBM into the weight store with their poison (R100, R107). -/
def State.fillWeight (s : State) (die off pa : Nat) : Nat → State
  | 0 => s
  | n + 1 =>
    let key := weightKey die off
    let bytes := readList s.mem.bytes pa 64
    let m1 : Memory := { s.mem with bytes := writeList s.mem.bytes key bytes }
    let m2 := (List.range 8).foldl (fun m i => m.setPoison (key + 8 * i) (s.mem.isPoisoned pa)) m1
    ({ s with mem := m2 } : State).fillWeight die (off + 64) (pa + 64) n

/-- An act of the outside world (log 60). -/
def State.hostAct (s : State) (a : HostAct) : Answer :=
  match a with
  | .write agent pa bytes => whenEnabled (s.mayWrite agent pa bytes.length) (s.takeWrite agent pa bytes)
  | .late agent line =>
    whenEnabled (decide (8 ≤ agent) && s.caps.incarn.toList.getD agent 0 != 0 && !s.caps.dead.getLsbD agent) (s.lateFrom line)
  | .takeMsix seam =>
    whenEnabled (decide (seam < 2) && s.links.msix.getLsbD seam)
      { s with links := { s.links with msix := s.links.msix &&& ~~~(BitVec.ofNat 2 (2 ^ seam)) } }
  | .mbData seam off bytes => whenEnabled (s.mailboxUp seam && decide (off + bytes.length ≤ 4096)) (s.writeData seam off bytes)
  | .mbCmd seam cmd => whenEnabled (s.mailboxUp seam) (s.writeCommand seam cmd)
  | .node n =>
    whenEnabled (decide (n < 8) && !(s.links.peers.toList.any fun l => l.trained))
      { s with links := { s.links with node := n }, caps := { s.caps with genPeer := bumpGen s.caps.genPeer } }
  | .weightTenant die tenant =>
    whenEnabled (decide (die < s.pkg.dies) && decide (tenant < 16) && !s.dieRuns die)
      { s with weight := (die, tenant) :: s.weight.filter fun x => x.1 != die }
  | .weightCopy die off pa n =>
    whenEnabled (decide (die < s.pkg.dies) && off % 64 = 0 && pa % 64 = 0 && decide (off + 64 * n ≤ 0x30000000)
      && decide (pa + 64 * n ≤ s.caps.cap) && !s.dieRuns die) (s.fillWeight die off pa n)

/-! ## Errors of the hardware -/

/-- An error counted: corrected, or not (R214). -/
def State.countError (s : State) (corrected : Bool) : State := if corrected then s.countCe else s.countUe

/-- A block of device HBM read with some bit errors (R106): up to 24 are corrected; with more all its lines are poisoned. -/
def State.dramError (s : State) (block errors : Nat) : State :=
  if errors ≤ 24 then s.countCe else s.poisonBlock block

/-- An entry of the answer table in error (R213): a COMPLETE one is invalidated, any other FAILED, charged as a fault. -/
def State.answerError (s : State) (e : TEntry) : State :=
  if e.state == .complete then s.modTable fun t => { t with entries := t.entries.filter fun x => x.key != e.key }
  else
    let s1 := (s.modEntry e.key fun x => { x with fault := true }).abandonEntry e.key true
    s1.modEntry e.key fun x => { x with state := .failed, fault := true }

/-- A key that errors can strike: a scratchpad word of an enabled core, or a weight-store word of a die. -/
def State.wordAt (s : State) (key : Nat) : Bool :=
  key % 8 == 0 && ((isScratchKey key && s.enabled ((key - scratchBase) / 0x100000) && decide ((key - scratchBase) % 0x100000 < 0x80000)) ||
    (isWeightKey key && decide ((key - weightBase) / 0x40000000 < s.pkg.dies) && decide ((key - weightBase) % 0x40000000 < 0x30000000)))

/-- An error of the hardware (R106, R108, R213; log 61). -/
def State.upset (s : State) (u : Upset) : Answer :=
  match u with
  | .dram block errors => whenEnabled (decide (0 < errors) && decide (block * 512 < s.pkg.hbm)) (s.dramError block errors)
  | .line line corrected =>
    let held := ((List.range 8).any fun d => s.dieHolds d line) || s.msc.any fun b => b.block == line / 8
    let s1 : State := if corrected then s else { s with mem := s.mem.setPoison (line * 64) true }
    whenEnabled held (s1.countError corrected)
  | .word key corrected =>
    let s1 : State := if corrected then s else { s with mem := s.mem.setPoison key true }
    whenEnabled (s.wordAt key) (s1.countError corrected)
  | .frame core frame word corrected =>
    let mark (t : Thread) : Thread := if t.damage.contains word then t else { t with damage := t.damage ++ [word] }
    let s1 := if corrected then s else s.modThread core frame mark
    whenEnabled ((s.threadAt core frame).isSome && (decide (word < 16) || (19 ≤ word && word ≤ 21))) (s1.countError corrected)
  | .store core k corrected =>
    let mark (e : SbEntry) : SbEntry := { e with bad := true }
    let s1 := if corrected then s else s.modCore core fun c => { c with sb := c.sb.modify k mark }
    whenEnabled (decide (k < (s.coreOf core).sb.length)) (s1.countError corrected)
  | .deque core k corrected =>
    match (s.coreOf core).deque[k]? with
    | none => .fault .notEnabled
    | some e =>
      let s1 := if corrected then s
        else (s.modCore core fun c => { c with deque := c.deque.eraseIdx k }).lose e.launch core 0 1
      .next (s1.countError corrected)
  | .answer k corrected =>
    match s.table.entries[k]? with
    | none => .fault .notEnabled
    | some e => .next ((if corrected then s else s.answerError e).countError corrected)
  | .incumbent k corrected => whenEnabled (decide (k < 8)) (s.countError corrected)
  | .context k =>
    match s.net.moves[k]? with
    | none => .fault .notEnabled
    | some t =>
      .next (({ s with net := { s.net with moves := s.net.moves.eraseIdx k } } : State).terminateMoving t)

end Sys2Proof.Machine
end

