-- ==== Sys2Proof/Machine/Barrel.lean ====
section
/-! DEFINITION. What comes next (R48-R51, log 1): which thread a core issues, the issue of one instruction word, the steps that
stand ready, and the order in which a package with no agenda takes them. -/

namespace Sys2Proof.Machine

/-! ## Waits that end (R58, R363) -/

/-- Does the condition of an internal wait hold: a place in a queue, a record, a free register, a bank out of refresh (R101), a core out
of reset? -/
def State.roomFor (s : State) (key : Nat) : Bool :=
  let e := s.core.eng
  let ch (i : Nat) : Channel := e.ch.toList.getD i Channel.reset
  if key = 1 then e.vq.length < 2
  else if 2 ≤ key && key < 6 then (ch (key - 2)).run.toList.length + (ch (key - 2)).queue.length < 4
  else if key = 6 then e.mq.length < 16
  else if key = 7 then e.sfu.length < 16
  else if key = 8 then e.bq.length < 4
  else if key = 9 then s.freeRecord.isSome
  else if 10 ≤ key && key < 18 then !e.vecNames (key - 10)
  else if 20 ≤ key && key < 24 then (ch (key - 20)).run.isNone && (ch (key - 20)).queue.isEmpty
  else if 30 ≤ key && key < 38 then !(e.mq.any fun m => m.names (key - 30))
  else if 100 ≤ key && key < 132 then !refreshing s.cc (key - 100)
  else (s.coreOf (key - 1000)).reset.isNone

/-- Has the wait of an SC operation ended (R135-R137): of a fence, by its window; of a store, as it can take its slot or has been
performed; of a load before its slot, by the accesses before it; of a load or an atomic in its slot, by the window, or, at a switch
marker, by its result? -/
def State.slotEnded (s : State) (t : Thread) (key : Nat) : Bool :=
  match key % 8 with
  | 0 => s.slotOver s.core.id (key / 8)
  | 1 => match s.core.sb.find? fun e => e.num == key / 8 with
    | none => true
    | some e => e.notBefore == never && s.ordered s.core.id t.frame e.num e.tok e.scope
  | 2 => s.ownBefore t (key / 8)
  | 3 => decide (8 * (key / 8) + 72 ≤ s.cc)
  | _ => t.pend.isEmpty

/-- May a parked thread of the core on hand issue its instruction again, or, at the end of a run, go on? Waits that a step
delivers to end no other way. -/
def State.wakeable (s : State) (t : Thread) (p : Park) : Bool :=
  let c := s.core
  match p.code with
  | 0 => if 2 ^ 32 ≤ p.key then !s.walking t p.key else s.roomFor p.key
  | 1 => if p.key = 1 then !s.behindAcquire t true else t.pend.isEmpty && !(t.entering && s.hasNarrow t.frame)
  | 7 => if p.arg = 16 then !c.qup.isEmpty else !c.qrx.isEmpty
  | 8 => if p.arg = 17 then s.qdnRoom else (s.coreOf p.key).reset.isNone && s.qrxRoom p.key
  | 10 => !t.holdsLine (p.key / 2) s.cc && (p.key % 2 = 0 || t.pend.isEmpty)
  | 11 => c.eng.owner.isNone
  | 12 => !s.sbFull
  | 14 => t.wake
  | 15 => s.bars.all fun b =>
      barKey b.scope b.group b.idx != p.key || !(b.holder.any fun h => h != t.launch && (s.launchOf h).any Launch.runs)
  | 16 =>
    if p.key = tlbiKey then (s.tlbiOf c.id t.frame).all s.tlbiDone
    else if flushKey ≤ p.key then decide (p.key - flushKey ≤ s.cc)
    else if 2 * incKey ≤ p.key then
      t.pend.isEmpty && decide (p.key - 2 * incKey ≤ s.performed c.id 6) && !s.writesOut c.id t.frame (p.key - 2 * incKey)
    else if incKey ≤ p.key then !(s.inc.pubs.any fun x => x.k == p.key - incKey)
    else if p.key < 64 then !s.spillDue c.id p.key
    else s.olderDone t 3 (p.key - 64) 6
  | 17 => !refreshing s.cc p.key
  | 18 => !(s.futureOf (t.g.toList.getD p.arg.toNat 0)).any fun f => f.status == .pending
  | 19 => !c.eng.busyFor t.frame
  | 20 => true
  | 21 => if p.key = 0 then s.slotFree else s.seamIdle p.key
  | 23 => !(c.eng.vq.any fun b => b.frame == t.frame)
  | 24 => !(c.eng.mq.any fun m => m.stream == p.key && m.frame == t.frame)
  | 25 => s.slotEnded t p.key
  | 26 => s.olderDone t p.arg.toNat (p.key / 16) (p.key % 16) && (p.arg != 15 || t.pend.isEmpty)
  | _ => false

/-! ## The rotation (R48-R50) -/

/-- Does a thread hold the instruction at its pc, or meet a trap as it fetches it (R48, R274 step 1)? -/
def State.fetched (s : State) (t : Thread) : Bool :=
  t.holdsPc || match s.fetch t with
    | .error _ => true
    | .ok _ => false

/-- Is a thread of the core on hand ready (R48)? One that has come to the core while a load has gone ahead of an acquire waits (R131). One with a held vector fault to take is ready where it takes it (R395). -/
def State.ready (s : State) (t : Thread) : Bool :=
  t.pos.isSome && t.migr.isNone && s.core.reset.isNone && t.yield.isNone && !s.overtaken t
    && ((s.faultOf t).isSome && (t.park.isNone || s.parkedOnHeld t)
      || (match t.park with
          | some p => s.wakeable t p
          | none => true) && s.fetched t)

/-- The thread of a position of the core on hand, where it is ready. -/
def State.readyAt (s : State) (p : Nat) : Option Thread := (s.onCore s.core.id).find? fun t => t.pos == some p && s.ready t

/-- The thread that the core on hand issues from: in packed mode the first ready one after the position that last issued; in
fixed mode that of the position to which the cc belongs (R49, R50). -/
def State.pick (s : State) : Option Thread :=
  if s.core.rot.getLsbD 0 then s.readyAt ((s.cc - s.core.rotFrom) % s.core.positions)
  else (List.range 32).findSome? fun i => s.readyAt ((s.core.last + 1 + i) % 32)

/-! ## Issue -/

/-- The issuing thread leaves its wait, its core notes the position, and threads that YIELDed to it are told (R49, R305). -/
def State.beginIssue (s : State) : State :=
  let t := s.thr
  let told (y : Nat × List Nat) : Option (Nat × List Nat) :=
    let l := y.2.filter fun f => f != t.frame
    if l.isEmpty then none else some (y.1, l)
  let s1 := if t.park.isNone then s.countCore s.core.id 0x001 t.launch else s
  let s2 : State := { s1 with core := { s1.core with last := t.pos.getD 31 } }
  let s3 : State := { s2 with threads := s2.threads.map fun u => if u.core = t.core then { u with yield := u.yield.bind told } else u }
  let idle := t.park.any fun p => p.code == 14
  s3.modThr fun t => { t with park := none, entering := false, wake := t.wake && !idle }

/-- The instruction word at the issuing thread's pc executed: as its fetch buffer holds it (R52), decoded, and its meaning (R274); a
word that is no instruction raises ILLEG. -/
def State.runWord (s : State) : Answer :=
  match s.fetch s.thr with
  | .error ti => withThread s (s.trap ti)
  | .ok (w, _) =>
    match decode (s.thr.wordAt w) with
    | .ok i => exec i s
    | .error _ => execIllegalWord (s.thr.wordAt w) s

/-- The thread that stands in `thr` issues, or takes a held vector fault, its wait over (R395). One that was placed as a parked ANCH is anchored first
(R71). -/
def State.issue (s : State) : Answer :=
  if (s.faultOf s.thr).isSome then execVectorFaultDelivery s.core.id s.thr.frame (s.modThr Thread.unpark)
  else if s.thr.park.any (fun p => p.code == 11) && s.core.eng.owner.isNone then .next (s.anchor s.core.id s.thr.frame)
  else s.beginIssue.runWord

/-- The core on hand issues, where a thread of it is ready. -/
def State.issueCore (s : State) : Option Answer := s.pick.map fun t => (s.focus t.core t.frame).issue

/-! ## Steps that stand ready -/

/-- A step that may stand ready: one meaning of an event row, its operands given. -/
abbrev Move := State → Answer

/-- Steps of one thread that may stand ready at a cc. With no agenda its results land where its run has ended (R54), and every 64
cc. -/
def Thread.steps (cc : Nat) (t : Thread) : List Move :=
  let c := t.core
  let f := t.frame
  (if t.park.isSome || t.pos.isNone || cc % 64 < 3 then (List.range t.pend.length).map fun k => execLongResultLand c f k else []) ++
    (if t.migr.isSome then [execMigrationDepart c f] else []) ++
    (match t.walk with
      | some ⟨v :: _, _⟩ => [execStealRequest c f v, execStealReply c f]
      | _ => []) ++
    (match t.park with
      | some p =>
        (if p.code = 9 then [execWaitTimeout c f] else []) ++ (if p.code = 3 then [execSyncRecheck c f] else []) ++
          if p.code = 13 then [execLaunchRecordSubmit c f] else []
      | none => []) ++
    (if t.yield.isSome then [execYieldExpiry c f] else []) ++ (if t.resv.isSome then [execReservationLapse c f] else []) ++
    (if t.pos.isNone && t.frame < 64 then [execRemovedThreadReturn c f] else []) ++
    if t.spilled then [execThreadReload t.launch t.idx c] else []

/-- Steps of one core that may stand ready. -/
def Core.steps (c : Core) : List Move :=
  let n := c.id
  let e := c.eng
  ((List.range c.sb.length).map fun k => execStoreBufferApply n k) ++
    (c.retries.map fun r => execWaitTableRetry n r.2.frame) ++
    (if e.sfu.isEmpty then [] else [execSfuEntryServe n]) ++
    (if e.vq.isEmpty then [] else [execVectorBodyStart n, execVectorChunk n]) ++
    ((List.range 4).flatMap fun i => [execCopyBegin n i, execCopyElementWrite n i, execCopyComplete n i]) ++
    (if e.mq.isEmpty then [] else
      [execMatrixOpComplete n, execMstComplete n, execMldComplete n] ++ (List.range 16).map fun i => execMatrixOpBegin n i) ++
    (if e.bq.isEmpty then [] else [execBaddqComplete n]) ++
    (if e.owner.isSome then [execEngineRelease n] else []) ++
    (c.saved.map fun x => execScratchpadRestore n x.2) ++
    (if c.reset.isSome then [execCoreResetRelease n] else []) ++ [execSpillEngineRun n, execScratchpadSave n]

/-- Fetch blocks that threads wait for. -/
def State.fetchSteps (s : State) : List Move :=
  s.all.filterMap fun t => (s.blockOf t).map fun b => execFetchBlock (clusterOf t.core) b.1

/-- The first enabled core of a cluster. -/
def State.coreIn (s : State) (cluster : Nat) : Nat :=
  ((List.range (s.pkg.dies * 256)).find? fun c => clusterOf c == cluster && s.enabled c).getD 0

/-- Page walks asked for, and those that fetches wait for. -/
def State.walkSteps (s : State) : List Move :=
  (s.walks.map fun w => execTlbWalkComplete (s.coreIn w.cluster) (w.ctx.getD 0) w.ctx.isNone (BitVec.ofNat 64 w.va)) ++
    (s.all.filter fun t => t.fetches && !s.mapped t.core (s.tableOf t) t.pc.toNat).map fun t =>
      execTlbWalkComplete t.core ((s.tableOf t).getD 0) (s.tableOf t).isNone t.pc

/-- Steps of the package's own units. -/
def State.unitSteps (s : State) : List Move :=
  let n := s.net
  ((List.range n.reqs.length).map fun k => execRemoteWordRequest k) ++
    (n.fe.map fun r => execFullEmptyApply r.e.core r.e.key) ++
    ((List.range n.sends.length).map fun k => execQrxMessageArrival k) ++
    ((List.range n.pushes.length).map fun k => execQdnPushArrival k) ++
    ((List.range n.moves.length).map fun k => execThreadArrival k) ++
    ((List.range n.aggs.length).map fun k => execAggCombine k) ++
    ((List.range s.inc.msgs.length).map fun k => execIncumbentUpdateApply k) ++
    (if s.inc.pubs.isEmpty then [] else s.allCores.map fun c s => s.takeInc c.id) ++
    (s.table.groups.map fun g => execTableGroupClose g.id) ++
    ((List.range s.bars.length).map fun k => execBarrierTimeout k) ++
    (s.seam.snoops.map fun x => execSnoopArrival x.1 x.2.1 x.2.2) ++
    ((s.seam.dir.filter fun e => e.busy).flatMap fun e => [execSeamTransactionEnd e.line, execDirectoryRecallComplete e.line]) ++
    (((s.hem.map fun x => x.2) ++ s.mgmt.tlbis.filterMap TlbiWait.win).filter fun w => decide (8 * w + 72 ≤ s.cc)).map execHemWindowDelivery ++
    ((s.seam.comb.filter fun c => decide (c.since + 12000 ≤ s.cc)).map fun c => execCombiningBufferDrain c.line) ++
    ((List.range s.links.releases.length).map fun k => execDcdReleaseComplete k) ++
    (if s.caps.fovr then [execFailoverComplete] else []) ++ (if s.caps.rmv then [execLayerCopyComplete] else []) ++
    ((s.mgmt.mbq.take 1).flatMap fun k => [execMbAttest k, execMbRecover k, execMbGetevent k]) ++
    if s.mgmt.gated then [execPowerClockGating false] else []

/-- Steps of the launcher. -/
def State.launcherSteps (s : State) : List Move :=
  ((s.launcher.slots.filter fun x => x.busy).map fun x => execLaunchSlotFree x.seam x.slot) ++
    (if s.launcher.fifo.isEmpty then [] else [execLaunchPlacement]) ++
    (if s.mgmt.ctxlost.isEmpty && s.mgmt.unsaved.isEmpty then [] else [execCtxlostThreadStart]) ++
    ((List.range s.mgmt.restarts.length).map fun k => execSupervisorThreadRestart k) ++
    ((s.launcher.list.filter fun l => l.runs && l.cls.isNone && decide (l.placed + 19200 ≤ s.cc)).map fun l =>
      execClassifierWindowEnd l.id) ++
    if s.launcher.list.any fun l => l.runs && s.idleFor l then [execTerminationSweep] else []

/-- Every step that may stand ready, in the order in which a package with no agenda tries them: one place further on every
third cc, so that none is always the last. -/
def State.steps (s : State) : List Move :=
  let l := s.fetchSteps ++ s.walkSteps ++ (s.all.flatMap (Thread.steps s.cc)) ++ s.unitSteps ++ (s.allCores.flatMap Core.steps) ++ s.launcherSteps
  let k := s.cc / 3 % max 1 l.length
  l.drop k ++ l.take k

/-- The state after the first step that can happen. -/
def State.firstStep (s : State) : List Move → Option State
  | [] => none
  | m :: r => match m s with
    | .next t => some t
    | _ => s.firstStep r

/-! ## Time -/

/-- The end of a refresh window of a group in which a cc lies (R101). -/
def refreshEnd (cc g : Nat) : Nat := (cc - 2400 * g) / 76800 * 76800 + 1920 + 2400 * g

/-- The cc at which something that waits for time comes due. -/
def State.dues (s : State) : List Nat :=
  (s.all.flatMap fun t =>
    (match t.park with
      | some p => p.until?.toList ++ (if p.code = 3 then [p.since + 4096] else []) ++
          (if p.code = 25 && (p.key % 8 = 0 || p.key % 8 = 3) then [8 * (p.key / 8) + 72] else []) ++
          (if p.code = 0 && 100 ≤ p.key && p.key < 132 then [refreshEnd s.cc (p.key - 100)] else []) ++
          if p.code = 17 then [refreshEnd s.cc p.key] else []
      | none => []) ++ (t.yield.map fun y => y.1).toList ++ (t.resv.map fun r => r.cc + 4096).toList) ++
    (s.bars.filter fun b => b.arrived != 0 && b.timeout != 0).map (fun b => b.first + b.timeout) ++
    (s.allCores.flatMap fun c => c.retries.map (fun r => r.1) ++ ((c.sb.map fun e => e.notBefore).filter fun n => decide (n < never)) ++
      c.sb.filterMap fun e => e.lane.map fun p => 8 * p.1 + 72) ++
    (if s.allCores.any fun c => !c.eng.mq.isEmpty || c.eng.ch.toList.any fun h => h.run.isSome then (List.range 32).map (refreshEnd s.cc) else []) ++
    (s.net.reqs.flatMap fun r => ((r.win.toList ++ (r.lane.map fun p => p.1).toList).map fun w => 8 * w + 72) ++ r.loc.bank.toList.map (refreshEnd s.cc)) ++
    s.net.aggs.map (fun a => a.first + 16) ++ s.hem.map (fun x => 8 * x.2 + 72) ++ (s.mgmt.tlbis.filterMap TlbiWait.win).map (fun w => 8 * w + 72) ++ s.inc.pubs.map (fun p => p.since + 71) ++ s.launcher.flushes.map (fun f => f.ends) ++ s.seam.comb.map fun c => c.since + 12000

/-- Time passes to the next cc at which something comes due, or by one cc. -/
def State.pass (s : State) : State :=
  let next := (s.dues.filter fun n => decide (s.cc < n)).foldl (fun b n => match b with
    | none => some n
    | some m => some (min m n)) none
  { s with cc := next.getD (s.cc + 1) }

/-! ## One step -/

/-- Is a step one that an agenda may name: no instruction word? -/
def isEvent (i : Instr) : Bool := (encode i).isNone

/-- Bring another core to the place of the one on hand. -/
def State.focusCore (s : State) (n : Nat) : State := s.focus n 64

/-- The other cores on which threads stand, after the one on hand in turn. -/
def State.otherCores (s : State) : List Nat :=
  let l := ((s.threads.filter fun t => t.pos.isSome && t.core != s.core.id).map fun t => t.core).eraseDups
  (l.filter fun c => decide (s.core.id < c)) ++ l.filter fun c => decide (c < s.core.id)

/-- The first of some cores that can issue, issues. -/
def State.issueOther (s : State) : List Nat → Option Answer
  | [] => none
  | n :: r => match (s.focusCore n).issueCore with
    | some a => some a
    | none => s.issueOther r

/-- The step of a package with no agenda: cc by cc the core on hand, a step that stands ready, or another core comes first,
so that none waits for ever; where nothing can happen time passes. -/
def State.freeRun (s : State) : Answer :=
  let here := s.issueCore
  let there := s.issueOther s.otherCores
  let unit := (s.firstStep s.steps).map Host.Outcome.next
  match s.cc % 3 with
  | 0 => ((here <|> unit) <|> there).getD (.next s.pass)
  | 1 => ((unit <|> here) <|> there).getD (.next s.pass)
  | _ => ((there <|> here) <|> unit).getD (.next s.pass)

/-- A step named in the agenda that the state does not let happen is passed over: only time goes by. -/
def State.orPass (s : State) : Answer → Answer
  | .fault .notEnabled => .next s
  | a => a

/-- The agent that the agenda names next. -/
def State.turn (s : State) (x : Turn) : Answer :=
  match x with
  | .event i => if isEvent i then s.orPass (exec i s) else .next s
  | .core n => ((s.focusCore n).issueCore).getD (.next s)
  | .copy n => s.orPass (s.takeInc n)
  | .host a => s.orPass (s.hostAct a)
  | .upset u => s.orPass (s.upset u)

/-- A fetch buffer that waits notes since when it does (R52). -/
def Thread.noteFetch (cc : Nat) (t : Thread) : Thread :=
  if t.fetches == t.fsince.isSome then t else { t with fsince := if t.fetches then some cc else none }

/-- What time does to a state that a step has led to: cycles are counted, records that were being changed settle (R34), requests that wait
outside a slice's queues try again, and writes of the outside are performed as their lines come free (R155, R158), changes of incumbents reach every
local copy (R377), lines that only the ECC space still holds read as it has them (R106), and a fetch buffer that begins to wait notes it. -/
def State.later (s0 s : State) : State :=
  let t : State := if s.seam.waits.isEmpty then s else s.retryWaits
  let s1 : State := if t.links.writes.isEmpty then t else t.settleWrites
  let s2 := (if s1.ecc.isEmpty then s1 else s1.settleEcc).countCycles (s1.cc + 1 - s0.cc)
  ({ s2 with
    cc := s1.cc + 1
    caps := Caps.settle s0.caps s1.caps
    thr := s2.thr.noteFetch s1.cc
    threads := s2.threads.map (Thread.noteFetch s1.cc) } : State).settleIncs

/-- One cc, and every cc that the step itself let pass, has gone by since `s0`. -/
def tick (s0 : State) : Answer → Answer
  | .next s => .next (s0.later s)
  | .fault f => .fault f
  | .refused r => .refused r

/-- One step of the package: the agenda says which agent moves, and with none the package runs on by itself. -/
def State.advance (s : State) : Answer :=
  match s.agenda with
  | x :: r => tick s (({ s with agenda := r }).turn x)
  | [] => tick s s.freeRun

/-! ## Placing one instruction -/

/-- Virtual address at which `placed` code stands, and the page tables that map it (log 12). -/
abbrev placedPc : Word := 0x10000

/-- A launch that stands for the loading of a program from outside: tenant 0, one core, one position. -/
def placedLaunch : Launch where
  id := 1
  info := LaunchRec.ofWords (fun n => if n = 0 then placedPc else 0) 0
  status := .running
  placed := 0
  incs := []
  counts := []
  spilled := []
  anyLost := false
  lostAt := []
  barred := []
  bySup := false
  sweep := none
  ops := 0
  dram := 0
  cls := none

/-- A thread to run a program where there is none: launch 1 on core 0, with tables that map the first GiB of its addresses. -/
def State.withProgram (s : State) : State :=
  if s.thr.live then s
  else
    let b1 := writeBytes s.mem.bytes 0 8 0x200001
    let b2 := writeBytes b1 0x200000 8 0x4000002F
    let t := { launchedThread placedLaunch 0 0 0 0 placedPc with fbuf := none }
    { s.focusCore 0 with
      thr := t
      mem := { s.mem with bytes := b2 }
      launcher := { s.launcher with list := placedLaunch :: s.launcher.list.filter (fun l => l.id != 1)
                                    nextId := max 2 s.launcher.nextId } }

/-- The word stored where the thread in `thr` fetches next, its fetch buffer filled, and its core named by the agenda. -/
def State.withWord (s : State) (w : Nat) : State :=
  let t := s.thr
  let pa := match s.translate t t.pc.toNat .fetch with
    | .ok (_, pa, _) => pa
    | .error _ => 0
  let bytes := writeBytes s.mem.bytes pa 4 w
  { s with
    agenda := [.core s.core.id]
    mem := { s.mem with bytes := bytes }
    thr := { t with fbuf := some (t.pc.toNat / 32, BitVec.ofNat 256 (readBytes bytes (pa / 32 * 32) 32)), park := none, migr := none, yield := none, pos := some (t.pos.getD 0) }
    core := { s.core with last := (t.pos.getD 0 + 31) % 32, rot := 62, reset := none } }

end Sys2Proof.Machine
end

