-- ==== Sys2Proof/Machine/Step.lean ====
section
/-! DEFINITION. One step of the package, and an instruction placed where the next step fetches. -/

namespace Sys2Proof.Machine

/-- One step. -/
def step (s : State) : Host.Outcome State Fault Refusal := s.advance

/-- The state with an instruction stored where the next step fetches it: its bits above `nbits` are zero. Where no thread
issues, a thread of one launch is there to run it (log 12). -/
def State.withFetchWord (s : State) (nbits w : Nat) : State := s.withProgram.withWord (w % 2 ^ nbits)

end Sys2Proof.Machine
end

