-- ==== Sys2Proof/Safety.lean ====
section
/-! DEFINITION. The terms in which the statements speak: what a safe run keeps, when the operands of a word can be read, what
a word of a shape computes (written from the instruction's rule, not from its meaning), and when a step of the machine may
happen. -/

namespace Sys2Proof.Machine

/-! ## What every run keeps -/

/-- Memory stands in its one canonical form. -/
abbrev State.Inv (s : State) : Prop := s.mem.wf = true

/-! ## Operands -/

/-- Steps 4 and 5 of R274 find nothing in the way of the sources and of the destination, which for a short word must have room: the
state with the queue words popped and resolved futures delivered, and the values; none where the word traps or waits. -/
def State.readsOf (s : State) (short : Bool) (srcs : List Src) (d : Dst) : Option (State × List Word) :=
  if (s.queueTrap srcs d).isSome || s.thr.damage.contains 19 || s.thr.damage.contains 20 then none
  else match s.check s srcs with
    | .error _ => none
    | .ok s1 =>
      if s.core.qup.length < needs srcs .qup || s.core.qrx.length < needs srcs .qrx || (short && d == .qdn && !s.qdnRoom) then none
      else some (s1.takeAll srcs)

/-- The operands of a short word, or of one with no result. -/
abbrev State.reads (s : State) (srcs : List Src) (d : Dst) : Option (State × List Word) := s.readsOf true srcs d

/-- The operands of a long word, whose result waits for room in qdn as it lands (R278). -/
abbrev State.readsLong (s : State) (srcs : List Src) (d : Dst) : Option (State × List Word) := s.readsOf false srcs d

/-- A register that holds a plain value: no handle, no damage, no poison mark, and no injection armed for it. -/
def State.plainReg (s : State) (n : Fin 16) : Prop :=
  s.thr.tagged n.1 = false ∧ s.thr.damage.contains n.1 = false ∧ (s.thr.marks.all fun m => m.1 != n.1) = true
    ∧ s.injectReg n.1 = none

/-- The value of a source that is no queue. -/
def State.srcVal (s : State) : Src → Word
  | .g n => s.thr.g[n]
  | _ => 0

/-- A source that is no queue and needs no wait and no trap. -/
def State.plainSrc (s : State) : Src → Prop
  | .g n => s.plainReg n
  | .gz => True
  | _ => False

/-! ## Accesses (R309) -/

/-- An access of the issuing thread passes every check, a TLB maps its page or the walk for it has ended, no watch and no core in reset
stands in its way: the state its translation leaves and the place; none where it traps or waits. -/
def State.accessed (s : State) (a : Word) (acc : Acc) (rd wr : Bool) : Option (State × Loc) :=
  if (acc.memory || acc.peers) && s.mustWalk s.thr a acc.width then none
  else match s.access s.thr a acc with
  | .error _ => none
  | .ok (l, x) =>
    let held : Bool := match l.place with
      | .scratch c _ => c != s.core.id && (s.coreOf c).reset.isSome
      | _ => false
    if s.watched a rd wr || s.behindAcquire s.thr (wr || !rd) || held then none
    else
      let s1 := s.modThr Thread.pass
      some (match x with
      | none => (s1, l)
      | some x => (s1.touch s1.core.id (s1.tableOf s1.thr) x acc.w s1.thr.launch, l))

/-- The table entries that the translation of an address reads or may mark (R118). -/
def State.entriesOf (s : State) (a : Word) : List Nat :=
  match s.lookup s.thr.core (s.tableOf s.thr) a.toNat with
  | .ok x => x.at_ :: x.walked
  | .error _ => []

/-- One byte of memory. -/
def State.byteAt (s : State) (a : Nat) : Byte := getByte s.mem.bytes a

/-- n bytes of memory, little-endian (R6). -/
def State.numAt (s : State) (a n : Nat) : Nat :=
  ((List.range n).map fun i => (s.byteAt (a + i)).toNat * 256 ^ i).foldr (· + ·) 0

/-- The bytes of a number stored at an address, every other byte as it was. -/
def State.storedAt (s t : State) (a n v : Nat) : Prop :=
  ∀ k, t.byteAt k = if a ≤ k ∧ k < a + n then BitVec.ofNat 8 (v / 256 ^ (k - a)) else s.byteAt k

/-- A load form: what it reads, how wide, whether sign-extended, and whether it is an acquire. -/
structure LoadForm where
  sw : Bool
  d : Dst
  b : Src
  disp : BitVec 13
  acc : Acc
  width : Nat
  sx : Bool
  /-- The scope of an acquire, 0 for none. -/
  acq : Nat

/-- The plain loads and LDA (R313, R316). -/
def loadForm : Instr → Option LoadForm
  | .ldb o => some ⟨o.sw, o.d, o.b, o.disp, accPlain 1 .load false, 1, true, 0⟩
  | .ldh o => some ⟨o.sw, o.d, o.b, o.disp, accPlain 2 .load false, 2, true, 0⟩
  | .ldw o => some ⟨o.sw, o.d, o.b, o.disp, accPlain 4 .load true, 4, true, 0⟩
  | .ldd o => some ⟨o.sw, o.d, o.b, o.disp, accPlain 8 .load false, 8, true, 0⟩
  | .ldbz o => some ⟨o.sw, o.d, o.b, o.disp, accPlain 1 .load false, 1, false, 0⟩
  | .ldhz o => some ⟨o.sw, o.d, o.b, o.disp, accPlain 2 .load false, 2, false, 0⟩
  | .ldwz o => some ⟨o.sw, o.d, o.b, o.disp, accPlain 4 .load true, 4, false, 0⟩
  | .lda o => some ⟨o.sw, o.d, o.b, 0, accOrdered .load, 8, true, if o.ord = 1 then o.scope.toNat else 0⟩
  | _ => none

/-- A store form: its sources in field order, which of them is the address and which the value (SETE has none), and how the
entry stands in the store buffer. -/
structure StoreForm where
  sw : Bool
  srcs : List Src
  addr : Nat
  val : Nat
  disp : BitVec 13
  acc : Acc
  kind : SbKind
  width : Nat
  rel : Bool
  scope : Nat
  /-- It may migrate (R43). -/
  roams : Bool

/-- A plain store (R314). -/
def storePlain (o : StOp) (width : Nat) (elements : Bool) : StoreForm :=
  ⟨o.sw, [o.b, o.v], 0, 1, o.disp, accPlain width .store elements, .store, width, false, 0, true⟩

/-- The stores that go into the store buffer and on to the next instruction (R314, R316, R319). -/
def storeForm : Instr → Option StoreForm
  | .stb o => some (storePlain o 1 false)
  | .sth o => some (storePlain o 2 false)
  | .stw o => some (storePlain o 4 true)
  | .std o => some (storePlain o 8 false)
  | .stl o => some ⟨o.sw, [o.a, o.b], 1, 0, 0, accOrdered .store, .store, 8, o.ord == 2 && o.scope != 0, o.scope.toNat, true⟩
  | .stf o => some ⟨o.sw, [o.a, o.b], 1, 0, 0, accFill, .stf, 8, o.scope != 0, o.scope.toNat, false⟩
  | .sete o => some ⟨o.sw, [o.b], 0, 1, 0, accFull .store, .sete, 8, false, o.scope.toNat, false⟩
  | _ => none

/-- A place whose bytes are read and written as they stand: no format window. -/
def Loc.raw (l : Loc) : Prop :=
  match l.place with
  | .scratch _ w => w < 2
  | _ => True

/-- No launch is held on a dependence word in memory (R75), so that a store to memory does nothing but store. -/
def State.noDeps (s : State) : Prop := ∀ l ∈ s.launcher.list, l.status = .held → l.info.depk ≠ 1

/-- Nothing older of the issuing thread is under way, and its instruction has not issued before: a release need not wait (R133). -/
def State.settled (s : State) : Prop :=
  s.thr.phase = 0 ∧ s.thr.pend = [] ∧ s.watermark s.core.id = s.core.sbNum ∧
    s.writesOut s.core.id s.thr.frame s.core.sbNum = false

/-- No core has an error injection armed (R349). -/
def State.calm (s : State) : Prop := ∀ n, (s.coreOf n).errinj.getLsbD 7 = false

/-- An atomic: its operands, its operation on the old value, the operand and the compare value (none writes nothing). -/
structure AtomForm where
  sw : Bool
  d : Dst
  srcs : List Src
  width : Nat
  ord : BitVec 2
  scope : BitVec 4
  code : Nat
  new : Nat → Nat → Nat → Option Nat

/-- An atomic with no compare value. -/
def atom (o : AtOp) (width code : Nat) (f : Nat → Nat → Nat) : AtomForm :=
  ⟨o.sw, o.d, [o.a, o.b], width, o.ord, o.scope, code, fun old x _ => some (f old x)⟩

/-- Compare and swap. -/
def casForm (o : CasOp) (width : Nat) : AtomForm :=
  ⟨o.sw, o.d.dst, [o.a, o.b, o.d.src], width, o.ord, o.scope, 9, fun old x c => if old = c then some x else none⟩

/-- The atomics of R323, over words of `width` bytes. -/
def atomForm : Instr → Option AtomForm
  | .aadd o => some (atom o 8 0 fun a x => (a + x) % 2 ^ 64)
  | .aand o => some (atom o 8 1 fun a x => a &&& x)
  | .aor o => some (atom o 8 2 fun a x => a ||| x)
  | .axor o => some (atom o 8 3 fun a x => a ^^^ x)
  | .amin o => some (atom o 8 4 fun a x => if intOf 64 a < intOf 64 x then a else x)
  | .amax o => some (atom o 8 5 fun a x => if intOf 64 a < intOf 64 x then x else a)
  | .aminu o => some (atom o 8 6 fun a x => min a x)
  | .amaxu o => some (atom o 8 7 fun a x => max a x)
  | .aswp o => some (atom o 8 8 fun _ x => x)
  | .acas o => some (casForm o 8)
  | .aaddW o => some (atom o 4 0 fun a x => (a + x) % 2 ^ 32)
  | .aandW o => some (atom o 4 1 fun a x => a &&& x)
  | .aorW o => some (atom o 4 2 fun a x => a ||| x)
  | .axorW o => some (atom o 4 3 fun a x => a ^^^ x)
  | .aminW o => some (atom o 4 4 fun a x => if intOf 32 a < intOf 32 x then a else x)
  | .amaxW o => some (atom o 4 5 fun a x => if intOf 32 a < intOf 32 x then x else a)
  | .aminuW o => some (atom o 4 6 fun a x => min a x)
  | .amaxuW o => some (atom o 4 7 fun a x => max a x)
  | .aswpW o => some (atom o 4 8 fun _ x => x)
  | .acasW o => some (casForm o 4)
  | _ => none

/-- A load, a store or an atomic as an access (R308, R309): its operands, which of them is the address, what it asks, and whether
it reads and writes. -/
structure AccForm where
  short : Bool
  srcs : List Src
  d : Dst
  addr : Nat
  disp : BitVec 13
  acc : Acc
  rd : Bool
  wr : Bool

/-- The plain and ordered loads and stores, STF, SETE and the atomics. -/
def accForm (i : Instr) : Option AccForm :=
  match loadForm i, storeForm i, atomForm i with
  | some f, _, _ => some ⟨false, [f.b], f.d, 0, f.disp, f.acc, true, false⟩
  | _, some f, _ => some ⟨true, f.srcs, .gz, f.addr, f.disp, f.acc, false, true⟩
  | _, _, some f => some ⟨false, f.srcs, f.d, 1, 0, accAtomic f.width .store, true, true⟩
  | _, _, _ => none

/-- The first window after the present one whose slot a core has free (R135). -/
def State.nextWindow (s : State) (core w : Nat) : Prop :=
  s.cc / 8 < w ∧ (core, w) ∉ s.hem ∧ ∀ v, s.cc / 8 < v → v < w → (core, v) ∈ s.hem

/-- A store that is to be applied, or a request that is to be performed, has its turn (R85, R148): on the lane where it misses in its core,
at its bank where it is served elsewhere. -/
def State.hasTurn (s : State) (core : Nat) (l : Loc) (lane : Option (Nat × Nat)) (misses here : Bool) : Prop :=
  (misses = true → ∃ p, lane = some p ∧ s.laneTurn core (l.key / 64) p = true) ∧ (here = false → s.bankTurn l core = true)

/-! ## Integer words (R277-R289) -/

/-- A result computed as an integer, written in w bits and sign-extended (R277). -/
def narrowed (w : Bool) (n : Int) : Word := if w then (BitVec.ofInt 32 n).signExtend 64 else BitVec.ofInt 64 n

/-- An operand as a signed number of w bits. -/
def sgn (w : Bool) (a : Word) : Int := if w then (a.setWidth 32).toInt else a.toInt

/-- An operand as an unsigned number of w bits. -/
def uns (w : Bool) (a : Word) : Nat := if w then a.toNat % 2 ^ 32 else a.toNat

/-- Width of an operation. -/
def wbits (w : Bool) : Nat := if w then 32 else 64

/-- What a short or long integer word does: its destination, its sources, and its result from pc and the sources' values. -/
structure IntForm where
  sw : Bool
  d : Dst
  srcs : List Src
  long : Bool
  val : Word → List Word → Word

/-- A form of two sources. -/
def form2 (sw : Bool) (d : Dst) (a b : Src) (long : Bool) (f : Word → Word → Word) : IntForm :=
  ⟨sw, d, [a, b], long, fun _ v => f (v.getD 0 0) (v.getD 1 0)⟩

/-- A form of one source. -/
def form1 (sw : Bool) (d : Dst) (a : Src) (long : Bool) (f : Word → Word) : IntForm :=
  ⟨sw, d, [a], long, fun _ v => f (v.getD 0 0)⟩

/-- A register form of two sources, computed on integers. -/
def intReg (o : R3w) (long : Bool) (f : Word → Word → Int) : IntForm :=
  form2 o.sw o.d o.a o.b long fun a b => narrowed o.w (f a b)

/-- A comparison or selection of two sources. -/
def intCmp (o : R3) (f : Word → Word → Word) : IntForm := form2 o.sw o.d o.a o.b false f

/-- An immediate form. -/
def intImm (o : I15) (long : Bool) (f : Word → Word → Word) : IntForm :=
  form1 o.sw o.d o.a long fun a => f a (o.imm.signExtend 64)

/-- The integer words and what R280 to R289 say each writes. -/
def intForm : Instr → Option IntForm
  | .add o => some (intReg o false fun a b => sgn o.w a + sgn o.w b)
  | .sub o => some (intReg o false fun a b => sgn o.w a - sgn o.w b)
  | .and o => some (intCmp o fun a b => a &&& b)
  | .or o => some (intCmp o fun a b => a ||| b)
  | .xor o => some (intCmp o fun a b => a ^^^ b)
  | .andn o => some (intCmp o fun a b => a &&& ~~~b)
  | .orn o => some (intCmp o fun a b => a ||| ~~~b)
  | .xnor o => some (intCmp o fun a b => ~~~(a ^^^ b))
  | .sll o => some (intReg o false fun a b => uns o.w a * 2 ^ (b.toNat % wbits o.w))
  | .srl o => some (intReg o false fun a b => (uns o.w a / 2 ^ (b.toNat % wbits o.w) : Nat))
  | .sra o => some (intReg o false fun a b => sgn o.w a / 2 ^ (b.toNat % wbits o.w))
  | .rol o => some (intReg o false fun a b =>
      uns o.w a * 2 ^ (b.toNat % wbits o.w) + (uns o.w a / 2 ^ (wbits o.w - b.toNat % wbits o.w) : Nat))
  | .ror o => some (intReg o false fun a b =>
      (uns o.w a / 2 ^ (b.toNat % wbits o.w) : Nat) + uns o.w a * 2 ^ (wbits o.w - b.toNat % wbits o.w))
  | .min o => some (intCmp o fun a b => if a.toInt ≤ b.toInt then a else b)
  | .max o => some (intCmp o fun a b => if a.toInt ≤ b.toInt then b else a)
  | .minu o => some (intCmp o fun a b => if a.toNat ≤ b.toNat then a else b)
  | .maxu o => some (intCmp o fun a b => if a.toNat ≤ b.toNat then b else a)
  | .slt o => some (intCmp o fun a b => if a.toInt < b.toInt then 1 else 0)
  | .sltu o => some (intCmp o fun a b => if a.toNat < b.toNat then 1 else 0)
  | .seq o => some (intCmp o fun a b => if a = b then 1 else 0)
  | .sne o => some (intCmp o fun a b => if a = b then 0 else 1)
  | .mul o => some (intReg o true fun a b => sgn o.w a * sgn o.w b)
  | .mulh o => some (intReg o true fun a b => sgn o.w a * sgn o.w b / 2 ^ wbits o.w)
  | .mulhu o => some (intReg o true fun a b => (uns o.w a * uns o.w b / 2 ^ wbits o.w : Nat))
  | .div o => some (intReg o true fun a b => if sgn o.w b = 0 then -1 else (sgn o.w a).tdiv (sgn o.w b))
  | .divu o => some (intReg o true fun a b => if uns o.w b = 0 then -1 else (uns o.w a / uns o.w b : Nat))
  | .rem o => some (intReg o true fun a b => if sgn o.w b = 0 then sgn o.w a else (sgn o.w a).tmod (sgn o.w b))
  | .remu o => some (intReg o true fun a b => (uns o.w a % uns o.w b : Nat))
  | .clz o => some (form1 o.sw o.d o.a false fun a =>
      narrowed o.w ((List.range (wbits o.w)).filter fun k => uns o.w a < 2 ^ k).length)
  | .ctz o => some (form1 o.sw o.d o.a false fun a =>
      narrowed o.w ((List.range (wbits o.w)).filter fun k => uns o.w a % 2 ^ (k + 1) = 0).length)
  | .popc o => some (form1 o.sw o.d o.a false fun a =>
      narrowed o.w ((List.range (wbits o.w)).filter fun k => a.getLsbD k).length)
  | .brev o => some (form1 o.sw o.d o.a false fun a =>
      narrowed o.w (((List.range (wbits o.w)).map fun k =>
        if a.getLsbD k then 2 ^ (wbits o.w - 1 - k) else 0).foldr (· + ·) 0 : Nat))
  | .bswap o => some (form1 o.sw o.d o.a false fun a =>
      narrowed o.w (((List.range (wbits o.w / 8)).map fun k =>
        a.toNat / 256 ^ k % 256 * 256 ^ (wbits o.w / 8 - 1 - k)).foldr (· + ·) 0 : Nat))
  | .sext o => some (form1 o.sw o.d o.a false fun a => match o.n with
      | .b8 => BitVec.ofInt 64 (a.setWidth 8).toInt
      | .b16 => BitVec.ofInt 64 (a.setWidth 16).toInt
      | .b32 => BitVec.ofInt 64 (a.setWidth 32).toInt)
  | .zext o => some (form1 o.sw o.d o.a false fun a => match o.n with
      | .b8 => BitVec.ofNat 64 (a.toNat % 2 ^ 8)
      | .b16 => BitVec.ofNat 64 (a.toNat % 2 ^ 16)
      | .b32 => BitVec.ofNat 64 (a.toNat % 2 ^ 32))
  | .selz o => some (intCmp o fun a b => if b = 0 then 0 else a)
  | .lea o => some (form2 o.sw o.d o.a o.b false fun a b => BitVec.ofNat 64 (a.toNat + b.toNat * 2 ^ o.sh.toNat))
  | .addi o => some (intImm o false fun a i => BitVec.ofInt 64 (a.toInt + i.toInt))
  | .andi o => some (intImm o false fun a i => a &&& i)
  | .ori o => some (intImm o false fun a i => a ||| i)
  | .xori o => some (intImm o false fun a i => a ^^^ i)
  | .shi o => some (form1 o.sw o.d o.a false fun a => match o.kind with
      | .sll => BitVec.ofNat 64 (a.toNat * 2 ^ o.n.toNat)
      | .srl => BitVec.ofNat 64 (a.toNat / 2 ^ o.n.toNat)
      | .sra => BitVec.ofInt 64 (a.toInt / 2 ^ o.n.toNat)
      | .ror => BitVec.ofNat 64 (a.toNat / 2 ^ o.n.toNat + a.toNat * 2 ^ (64 - o.n.toNat)))
  | .slti o => some (intImm o false fun a i => if a.toInt < i.toInt then 1 else 0)
  | .sltiu o => some (intImm o false fun a i => if a.toNat < i.toNat then 1 else 0)
  | .muli o => some (intImm o true fun a i => BitVec.ofInt 64 (a.toInt * i.toInt))
  | .lui o => some ⟨o.sw, o.d, [], false, fun _ _ => BitVec.ofInt 64 (o.imm.toInt * 2 ^ 12)⟩
  | .lhi o => some (form1 o.sw o.d.dst o.d.src false fun a => BitVec.ofInt 64 (a.toInt + o.imm.toInt * 2 ^ 32))
  | .lpc o => some ⟨o.sw, o.d, [], false, fun pc _ => BitVec.ofInt 64 (pc.toInt + o.imm.toInt * 2 ^ 12)⟩
  | _ => none

/-- The state after a word of a form has written a value. -/
def IntForm.after (f : IntForm) (s : State) (v : Word) : State :=
  if f.long then s.finishLong f.sw f.d (Pending.ofVal v 0) else s.finish f.sw f.d v

/-! ## Floating-point words (R291-R298) -/

/-- What a long FP word does: the format its operands are read in, whether a subnormal operand takes SUBN, and result and
flags from st and the operand bits. -/
structure FpForm where
  sw : Bool
  d : Dst
  srcs : List Src
  f : Nat
  sub : Bool
  op : Word → List Nat → Nat × BitVec 5

/-- An exact value rounded once into a format, flags joined (R182, R292). -/
def rounded (f mode : Nat) (r : FVal × BitVec 5) : Nat × BitVec 5 :=
  ((roundTo f mode r.1).1, r.2 ||| (roundTo f mode r.1).2)

/-- The operands of a word as values of its format. -/
def fpVal (f : Nat) (v : List Nat) (n : Nat) : FVal := decodeFloat f (v.getD n 0)

/-- A word of R292 with two operands and a rounding field. -/
def fpArith (o : F3r) (op : Nat → FVal → FVal → FVal × BitVec 5) : FpForm :=
  let f := fnum o.f
  ⟨o.sw, o.d, [o.a, o.b], f, true, fun st v => rounded f (rmode o.r st) (op (rmode o.r st) (fpVal f v 0) (fpVal f v 1))⟩

/-- FMA and FMS. -/
def fpFused (o : FmaOp) (op : Nat → FVal → FVal → FVal → FVal × BitVec 5) : FpForm :=
  let f := fnum o.f
  ⟨o.sw, o.d.dst, [o.a, o.b, o.d.src], f, true, fun st v =>
    rounded f (rmode o.r st) (op (rmode o.r st) (fpVal f v 2) (fpVal f v 0) (fpVal f v 1))⟩

/-- A comparison (R294, R185): `quiet` raises invalid for a signalling NaN alone. -/
def fpCmp (o : F3) (quiet : Bool) (holds : FVal → FVal → Bool) : FpForm :=
  let f := fnum o.f
  ⟨o.sw, o.d, [o.a, o.b], f, true, fun _ v =>
    let x := fpVal f v 0
    let y := fpVal f v 1
    (if x.isNan || y.isNan then 0 else if holds x y then 1 else 0,
      if (if quiet then x.isSig || y.isSig else x.isNan || y.isNan) then fInvalid else 0)⟩

/-- FMIN and FMAX (R185): the number of a number and a NaN, −0 below +0. -/
def fpPick (o : F3) (max : Bool) : FpForm :=
  let f := fnum o.f
  ⟨o.sw, o.d, [o.a, o.b], f, true, fun _ v =>
    let a := v.getD 0 0
    let b := v.getD 1 0
    let x := fpVal f v 0
    let y := fpVal f v 1
    let below := ltVal x y || (x.isZero && y.isZero && signBit f a && !signBit f b)
    (if x.isNan && y.isNan then encodeNan f false else if x.isNan then b else if y.isNan then a
      else if below then (if max then b else a) else (if max then a else b),
      if x.isSig || y.isSig then fInvalid else 0)⟩

/-- A word that acts on the bits alone and never takes SUBN. -/
def fpBits (sw : Bool) (d : Dst) (srcs : List Src) (f : Nat) (op : List Nat → Nat) : FpForm :=
  ⟨sw, d, srcs, f, false, fun _ v => (op v, 0)⟩

/-- The FP words whose operands are floats, and what R292 to R298 say each writes. -/
def fpForm : Instr → Option FpForm
  | .fadd o => some (fpArith o fun m x y => addVal m x y)
  | .fsub o => some (fpArith o fun m x y => addVal m x y.neg)
  | .fmul o => some (fpArith o fun _ x y => mulVal x y)
  | .fdiv o => some ⟨o.sw, o.d, [o.a, o.b], fnum o.f, true, fun st v =>
      fDiv (fnum o.f) (rmode o.r st) (v.getD 0 0) (v.getD 1 0)⟩
  | .fsqrt o => some ⟨o.sw, o.d, [o.a], fnum o.f, true, fun st v => fSqrt (fnum o.f) (rmode o.r st) (v.getD 0 0)⟩
  | .fma o => some (fpFused o fun m c x y => fmaVal m c x y)
  | .fms o => some (fpFused o fun m c x y => fmaVal m c x.neg y)
  | .fmin o => some (fpPick o false)
  | .fmax o => some (fpPick o true)
  | .fabs o => some (fpBits o.sw o.d [o.a] (fnum o.f) fun v => v.getD 0 0 % signVal (fnum o.f))
  | .fneg o => some (fpBits o.sw o.d [o.a] (fnum o.f) fun v =>
      if v.getD 0 0 < signVal (fnum o.f) then v.getD 0 0 + signVal (fnum o.f) else v.getD 0 0 - signVal (fnum o.f))
  | .fcpys o => some (fpBits o.sw o.d [o.a, o.b] (fnum o.f) fun v =>
      v.getD 0 0 % signVal (fnum o.f) + (if v.getD 1 0 < signVal (fnum o.f) then 0 else signVal (fnum o.f)))
  | .feq o => some (fpCmp o true fun x y => !ltVal x y && !ltVal y x)
  | .flt o => some (fpCmp o false fun x y => ltVal x y)
  | .fle o => some (fpCmp o false fun x y => !ltVal y x)
  | .fclass o => some (fpBits o.sw o.d [o.a] (fnum o.f) fun v => fClass (fnum o.f) (v.getD 0 0))
  | .fcvt o => some ⟨o.sw, o.d, [o.a], fnum o.f, true, fun st v =>
      convertFloat (fnum o.x) (rmode o.r st) (!o.nonsat) (fpVal (fnum o.f) v 0)⟩
  | .fcvti o => some ⟨o.sw, o.d, [o.a], fnum o.f, true, fun st v =>
      let r := convertInt 0 (rmode o.r st) (fpVal (fnum o.f) v 0)
      ((BitVec.ofInt 64 r.1).toNat, r.2)⟩
  | _ => none

/-- Operand bits of a form (R291). -/
def FpForm.bits (f : FpForm) (vs : List Word) : List Nat := vs.map fun a => a.toNat % 2 ^ elemBits f.f

/-- The mask SUBN reports: bit 0 for ga, 1 for gb, 2 for gd (R186, R298). -/
def FpForm.mask (f : FpForm) (b : List Nat) : Nat :=
  let bit (n : Nat) : Nat := if isSubnormal f.f (b.getD n 0) then 2 ^ n else 0
  bit 0 + bit 1 + bit 2

/-- The scalar SFU words with their function (R299). -/
def sfuForm : Instr → Option (SfuOp × SfuFn)
  | .fex2 o => some (o, .ex2)
  | .flg2 o => some (o, .lg2)
  | .frcp o => some (o, .rcp)
  | .frsq o => some (o, .rsq)
  | .fsin o => some (o, .sin)
  | .fcos o => some (o, .cos)
  | .ftanh o => some (o, .tanh)
  | _ => none

/-! ## Branches (R300) -/

/-- The conditional branches with their condition. -/
def branchForm : Instr → Option (BrOp × (Word → Word → Bool))
  | .beq o => some (o, fun a b => a == b)
  | .bne o => some (o, fun a b => a != b)
  | .blt o => some (o, fun a b => decide (a.toInt < b.toInt))
  | .bge o => some (o, fun a b => decide (b.toInt ≤ a.toInt))
  | .bltu o => some (o, fun a b => decide (a.toNat < b.toNat))
  | .bgeu o => some (o, fun a b => decide (b.toNat ≤ a.toNat))
  | .bbs o => some (o, fun a b => decide (a.toNat / 2 ^ (b.toNat % 64) % 2 = 1))
  | .bbc o => some (o, fun a b => decide (a.toNat / 2 ^ (b.toNat % 64) % 2 = 0))
  | _ => none

/-- pc plus 4 times a word offset (R241). -/
def State.target4 (s : State) (off : Int) : Word := BitVec.ofInt 64 (s.thr.pc.toInt + 4 * off)

/-- A jump or taken branch to a target is a kill point of a thread with KBB set (R303). -/
def State.killsAt (s : State) (target : Word) : Bool := s.thr.st.getLsbD 10 && decide (target.toNat ≤ s.thr.pc.toNat)

/-! ## Vector words (R392) -/

/-- The vector words that join a body with no handle, and the register a word reads. -/
def vecWord : Instr → Option (Bool × Src)
  | .vadd o => some (o.sw, .gz)
  | .vsub o => some (o.sw, .gz)
  | .vmul o => some (o.sw, .gz)
  | .vfma o => some (o.sw, .gz)
  | .vmin o => some (o.sw, .gz)
  | .vmax o => some (o.sw, .gz)
  | .vabs o => some (o.sw, .gz)
  | .vneg o => some (o.sw, .gz)
  | .vcvt o => some (o.sw, .gz)
  | .vcmp o => some (o.sw, .gz)
  | .vsel o => some (o.sw, .gz)
  | .vex2 o => some (o.sw, .gz)
  | .vlg2 o => some (o.sw, .gz)
  | .vrcp o => some (o.sw, .gz)
  | .vrsq o => some (o.sw, .gz)
  | .vscale o => some (o.sw, o.b.src)
  | .vmov o => some (o.sw, .gz)
  | .vbcast o => some (o.sw, o.a.src)
  | _ => none

/-- Lane l of a value register. -/
def vlane (f : Lane) (v : BitVec 512) (l : Nat) : Nat := v.toNat / 2 ^ (laneBits f * l) % 2 ^ laneBits f

/-- A body of one member, begun, with no iteration done. -/
def loneBody (b : Body) (m : VecIns) : Prop :=
  b.ins = [m] ∧ b.started = true ∧ b.dying = false ∧ b.chunk = 0 ∧ b.done = 0 ∧ b.cur = none ∧ b.wait = false

/-! ## Matrix words (R414) -/

/-- The matrix words that are queued, with their kind and operands. -/
def matForm : Instr → Option (MatKind × MatOp)
  | .mma o => some (.mma, o)
  | .mmaz o => some (.mmaz, o)
  | .mst o => some (.mst, o)
  | .mld o => some (.mld, o)
  | _ => none

/-- Element (r, c) of the product of two tiles added to a start value, for integer formats (R193). -/
def intProduct (a b : RingInfo) (m : Memory) (start r c : Nat) : Nat :=
  let row := (a.row m r).map fun x => decodeInt a.fmt x.1
  let col := (b.row m c).map fun x => decodeInt b.fmt x.1
  intBits 32 ((start : Int) + ((row.zip col).map fun x => x.1 * x.2).foldr (· + ·) 0)

/-! ## Requests at the seam (R153) -/

/-- The requests of an agent for a line; a WB says whether the copy is dirty. -/
def seamForm (s : State) : Instr → Option (Nat × Nat × CReq)
  | .seamRds a l => some (a, l, .rds)
  | .seamRdx a l => some (a, l, .rdx)
  | .seamUpg a l => some (a, l, .upg)
  | .seamWb a l => some (a, l, .wb (decide (8 ≤ a) || s.dieDirty a l))
  | .seamEvc a l => some (a, l, .evc)
  | _ => none

/-- The entry of a line is `x`, which R152 removes where no die holds a line of host or expander memory. -/
def State.hasEntry (t : State) (line : Nat) (x : DirEntry) : Prop :=
  t.dirOf line = if line < 0x40000000000 ∨ x.sharers.toNat % 256 ≠ 0 ∨ (x.st ≠ .s ∧ x.owner < 8) then some x else none

/-! ## System words -/

/-- The state of a thread as a trap to the EVEC handler leaves it (R200), where it has no outstanding result. -/
def Thread.enterE (t : Thread) (ti : TrapInfo) : Thread :=
  { t with
    tr := { t.tr with
      epc := t.pc, ecause := BitVec.ofNat 64 (ti.code + (if ti.w then 2 ^ 8 else 0) + (if ti.f then 2 ^ 9 else 0)), eval := ti.eval
      estat := t.st, inE := true }
    st := setBit t.st 11 true, pc := aligned t.tr.evec, resv := none, phase := 0, slot := none, skipWatch := none, walked := none, popped := []
    entering := false, park := none }

end Sys2Proof.Machine
end

