-- ==== Sys2Proof/Certificates/Slice0/Obligations.lean ====
section
/-! DEFINITION. The statements: what the rules of the spec say of the model, for the provers. -/

open Sys2Proof Sys2Proof.Machine

/-! ## Decoding, and one step -/

/-- Words written out from the tables of the formats chapter decode to the instructions they stand for. -/
def Obligations.WordsDecode : Prop :=
  decode 0x80510C00 = .ok (.add ⟨true, .g 5, .g 2, .g 3, false⟩) ∧
  decode 0x24246008 = .ok (.ldd ⟨false, .g 2, .g 8, 8⟩) ∧
  decode 0x2C00A631 = .ok (.stl ⟨false, .g 1, .g 9, 2, 3⟩) ∧
  decode 0x1A429809 = .ok (.fadd ⟨false, .g 4, .g 5, .g 6, .s, .rz⟩) ∧
  decode 0x18430FC1 = .ok (.leap ⟨false, .g 4, .g 6, 0xFC1⟩) ∧
  decode 0x4475B010 = .ok (.mmaz ⟨false, .g 7, .g 11, .g 12, 0⟩) ∧
  decode 0x1C22FFFE = .ok (.bne ⟨false, .g 2, .gz, 0x7FE⟩)

/-- Every well-formed instruction that has a word is read back from that word, with every operand. -/
def Obligations.DecodeOfEncode : Prop :=
  ∀ (i : Instr) (w : BitVec 32), i.wf = true → encode i = some w → decode w = .ok i

/-- Where the core that moves picks a thread whose word decodes, the step is the meaning of that instruction in the state in
which the thread has begun to issue, and time passes; where no request or write waits at a slice and the ECC space holds no line poisoned,
nothing else changes what the instruction has left in its thread and in memory. The word is the one that the fetch buffer holds at pc. A step that the
agenda names, and that is no instruction word, is the meaning of that step, and time passes; where the state does not let it
happen only time passes (log 1). -/
def Obligations.StepRuns : Prop :=
  (∀ (s u v : State) (t : Thread) (w : BitVec 32) (x : Xlate) (i : Instr),
    ((∃ n r, s.agenda = .core n :: r ∧ u = { s with agenda := r }.focusCore n) ∨
      (s.agenda = [] ∧ s.cc % 3 = 0 ∧ u = s)) →
    u.pick = some t → v = u.focus t.core t.frame → v.faultOf v.thr = none →
    (v.thr.park.any fun p => p.code == 11) = false →
    v.beginIssue.fetch v.beginIssue.thr = .ok (w, x) → decode (v.beginIssue.thr.wordAt w) = .ok i →
    step s = tick s (exec i v.beginIssue) ∧
      ∀ a, exec i v.beginIssue = .next a → a.seam.waits = [] → a.links.writes = [] → a.ecc = [] →
        ∃ b, step s = .next b ∧ b.cc = a.cc + 1 ∧ b.mem = a.mem ∧ b.thr.g = a.thr.g ∧
        b.thr.pc = a.thr.pc ∧ b.thr.st = a.thr.st ∧ b.thr.tr = a.thr.tr ∧ b.thr.pend = a.thr.pend ∧ b.thr.park = a.thr.park ∧ b.sys = a.sys) ∧
  (∀ (t : Thread) (w : BitVec 32), (t.fbuf = none → t.wordAt w = w) ∧
    ∀ d, t.fbuf = some (t.pc.toNat / 32, d) → t.wordAt w = BitVec.ofNat 32 (d.toNat / 256 ^ (t.pc.toNat % 32))) ∧
  (∀ (s : State) (i : Instr) (r : List Turn), s.agenda = .event i :: r →
    (encode i = none →
      (∀ t, exec i { s with agenda := r } = .next t → step s = .next (s.later t)) ∧
      (exec i { s with agenda := r } = .fault .notEnabled → step s = .next (s.later { s with agenda := r }))) ∧
    ((encode i).isSome = true → step s = .next (s.later { s with agenda := r })))

/-! ## Reset and the invariant -/

/-- What reset leaves. That memory lists nothing, and the value 0 of an engine register whose reset the spec does not give, are
the model's choices (logs 3 and 13). -/
def Obligations.ResetState : Prop :=
  State.reset.pkg = .t8s ∧ State.reset.thr.live = false ∧ State.reset.threads = [] ∧ State.reset.launcher.list = [] ∧
    State.reset.mem.bytes = [] ∧ State.reset.caps.disabled = [] ∧
    (∀ n, (State.reset.coreOf n).rot = 0x3E ∧ (State.reset.coreOf n).deque = [] ∧ (State.reset.coreOf n).qOwner = none ∧
      (State.reset.coreOf n).watch = 0 ∧ (State.reset.coreOf n).errinj = 0) ∧
    (∀ n r e, engReg n r = some e → State.reset.engGet n e = 0) ∧
    (∀ k : Fin 8, State.reset.inc.key[k] = 0x7FFFFFFFFFFFFFFF ∧ State.reset.inc.tag[k] = 0)

/-- The invariant holds after reset. -/
def Obligations.ResetInv : Prop := State.reset.Inv

/-- Every step keeps memory in its canonical form. -/
def Obligations.StepKeepsInv : Prop := ∀ s t : State, s.Inv → step s = .next t → t.Inv

/-! ## Sources -/

/-- Plain sources are read as they stand, gz as 0, and reading changes nothing. The owner pops its queues from the head, in
field order, and nothing while a word is missing. A future-tagged source: a resolved future delivers its value and drops the
tag; a pending one parks the thread with code 18; a failed one traps with its cause and the register keeps its handle. A
damaged source takes REGERR, as pc and st do where they are damaged, and a poison mark UCE with the address of the access that
returned the poison, before the word has any effect. -/
def Obligations.SourcesRead : Prop :=
  (∀ (s : State) (srcs : List Src) (d : Dst), (∀ x ∈ srcs, s.plainSrc x) → d ≠ .qdn → s.thr.damage.contains 19 = false →
    s.thr.damage.contains 20 = false → s.reads srcs d = some (s, srcs.map s.srcVal) ∧ s.readsLong srcs d = some (s, srcs.map s.srcVal)) ∧
  (∀ (s : State) (d : Dst), s.core.qOwner = some s.thr.frame → d ≠ .qdn → s.thr.damage.contains 19 = false →
    s.thr.damage.contains 20 = false →
    (∀ x r, s.core.qup = x :: r →
      s.reads [.qup] d = some ({ s with core := { s.core with qup := r }, thr := { s.thr with popped := [(true, x)] } }, [x])) ∧
    (∀ x r, s.core.qrx = x :: r →
      s.reads [.qrx] d = some ({ s with core := { s.core with qrx := r }, thr := { s.thr with popped := [(false, x)] } }, [x])) ∧
    (∀ x y r, s.core.qup = x :: y :: r →
      s.reads [.qup, .qup] d =
        some ({ s with core := { s.core with qup := r }, thr := { s.thr with popped := [(true, x), (true, y)] } }, [x, y])) ∧
    (∀ x, s.core.qup = [x] → s.reads [.qup, .qup] d = none ∧
      ∀ i f, intForm i = some f → f.srcs = [.qup, .qup] → f.d = d → s.thr.live = true →
        exec i s = .next (s.parkOn 7 16 0))) ∧
  (∀ (s : State) (n : Fin 16) (fu : Future), s.thr.live = true → s.thr.damage = [] → s.thr.marks = [] →
    s.thr.tagged n.1 = true → s.futureOf s.thr.g[n] = some fu →
    (fu.status = .done → s.injectReg n.1 = none →
      s.reads [.g n] .gz = some (s.modThr fun t => { t with g := t.g.set n fu.value, st := setBit t.st (19 + n.1) false }, [fu.value])) ∧
    ∀ i f, intForm i = some f → f.srcs = [.g n] → f.d = .gz →
      (fu.status = .pending → exec i s = .next (s.parkOn 18 (BitVec.ofNat 64 n.1) 0)) ∧
      (fu.status = .resid → exec i s = .next (s.trap (cause cRESID (BitVec.ofNat 64 n.1)))) ∧
      (fu.status = .engf → exec i s = .next (s.trap (cause cENGF fu.addr))) ∧
      (fu.status = .cancelled → exec i s = .next (s.trap (cause cFUTURE (BitVec.ofNat 64 n.1))))) ∧
  (∀ (s : State) (n : Fin 16) (i : Instr) (f : IntForm), s.thr.live = true → s.thr.tagged n.1 = false →
    s.thr.damage.contains 19 = false → s.thr.damage.contains 20 = false → intForm i = some f → f.srcs.head? = some (.g n) →
    (∀ x ∈ f.srcs, Src.queue x = none) → f.d ≠ .qdn →
    (s.thr.damage.contains n.1 = true → exec i s = .next (s.regerr n.1)) ∧
    (∀ va, s.thr.damage.contains n.1 = false → (s.thr.marks.find? fun m => m.1 == n.1) = some (n.1, va) →
      exec i s = .next (s.trap (cause cUCE va)))) ∧
  (∀ (s : State) (i : Instr) (f : IntForm), s.thr.live = true → intForm i = some f → (∀ x ∈ f.srcs, Src.queue x = none) → f.d ≠ .qdn →
    (s.thr.damage.contains 19 = true → exec i s = .next (s.regerr 19)) ∧
    (s.thr.damage.contains 19 = false → s.thr.damage.contains 20 = true → exec i s = .next (s.regerr 20)))

/-! ## Integer words -/

/-- Every integer word whose operands can be read completes with the result of its rule: a short one at once, a long one as an
outstanding result. LEAP writes the global scratchpad address of the core it resolves, and takes PLACE with its offset where
it resolves none. -/
def Obligations.IntegerWords : Prop :=
  (∀ (i : Instr) (f : IntForm) (s s1 : State) (vs : List Word), intForm i = some f → s.thr.live = true →
    s.readsOf (!f.long) f.srcs f.d = some (s1, vs) → exec i s = .next (f.after s1 (f.val s.thr.pc vs))) ∧
  (∀ (o : LeapOp) (s s1 : State) (vs : List Word), s.thr.live = true → s.reads [o.a] o.d = some (s1, vs) →
    (∀ c, s1.resolvePlace o.p.toNat = some c →
      exec (.leap o) s = .next (s1.finish o.sw o.d (BitVec.ofNat 64 (0xFFFFFE0000000000 + c * 0x100000 + (vs.headD 0).toNat)))) ∧
    (s1.resolvePlace o.p.toNat = none → exec (.leap o) s = .next (s.trap (cause cPLACE (o.p.setWidth 64)))))

/-- A short result: its register, pc and the register's tag, mark and damage change, an outstanding result for the same register is dropped,
and nothing else of the thread or of the machine changes; one for gz changes pc alone. A long result is outstanding at the end of the
list, has written no register, and takes the place of an earlier one for the same register; nothing else changes. A switch marker parks the
thread with code 1 exactly when a long result is outstanding. -/
def Obligations.ResultFrames : Prop :=
  (∀ (s : State) (n : Fin 16) (v : Word),
    (∃ u, s.finish false (.g n) v = { s with thr := u } ∧ u.g = s.thr.g.set n v ∧ u.pc = s.thr.pc + 4 ∧
      u.st = setBit s.thr.st (19 + n.1) false ∧ (∀ m va, (m, va) ∈ u.marks ↔ (m, va) ∈ s.thr.marks ∧ m ≠ n.1) ∧
      (∀ m, m ∈ u.damage ↔ m ∈ s.thr.damage ∧ m ≠ n.1) ∧ u.pend.length = s.thr.pend.length ∧
      (∀ (k : Nat) (p : Pending), s.thr.pend[k]? = some p → u.pend[k]? = some (if p.dst = .g n then { p with dropped := true } else p)) ∧
      { u with g := s.thr.g, pc := s.thr.pc, st := s.thr.st, marks := s.thr.marks, damage := s.thr.damage, pend := s.thr.pend } =
        { s.thr with phase := 0, skipWatch := none, walked := none, popped := [] }) ∧
    s.finish false .gz v = { s with thr := { s.thr with pc := s.thr.pc + 4, phase := 0, skipWatch := none, walked := none, popped := [] } } ∧
    ∀ d v' m, (s.finish false d v).mem = s.mem ∧ (m ≠ n → (s.finish false (.g n) v').thr.g[m] = s.thr.g[m])) ∧
  (∀ (s : State) (n : Fin 16) (v : Word) (fl : BitVec 5),
    ∃ u, s.finishLong false (.g n) (Pending.ofVal v fl) = { s with thr := u } ∧ u.pc = s.thr.pc + 4 ∧ u.seq = s.thr.seq + 1 ∧
      u.pend.length = s.thr.pend.length + 1 ∧
      u.pend.getLast? = some { Pending.ofVal v fl with tok := s.thr.seq, dst := .g n, pc := s.thr.pc } ∧
      (∀ (k : Nat) (p : Pending), s.thr.pend[k]? = some p → u.pend[k]? = some (if p.dst = .g n then { p with dropped := true } else p)) ∧
      { u with pc := s.thr.pc, seq := s.thr.seq, pend := s.thr.pend } =
        { s.thr with phase := 0, skipWatch := none, walked := none, popped := [] }) ∧
  (∀ s : State, (s.thr.pend = [] → s.endRun = s) ∧
    (s.thr.pend ≠ [] → s.endRun = { s with thr := { s.thr with park := some ⟨1, 0, 0, s.cc, none⟩ } }))

/-! ## Floating point -/

/-- Every FP word over floats completes with the once-rounded result of its rule and its flags, or takes SUBN with the mask of
its subnormal operands, before anything is written. ICVTF rounds the signed 64-bit integer once, and FKEY writes the ordered
key of the bits. -/
def Obligations.FloatWords : Prop :=
  (∀ (i : Instr) (f : FpForm) (s s1 : State) (vs : List Word), fpForm i = some f → s.thr.live = true →
    s.readsLong f.srcs f.d = some (s1, vs) →
    (f.sub = false ∨ (f.bits vs).all (fun b => !isSubnormal f.f b) = true →
      exec i s = .next (s1.finishLong f.sw f.d
        (Pending.ofVal (BitVec.ofNat 64 (f.op s1.thr.st (f.bits vs)).1) (f.op s1.thr.st (f.bits vs)).2))) ∧
    (f.sub = true → (f.bits vs).any (isSubnormal f.f) = true →
      exec i s = .next (s.subn (f.mask (f.bits vs))))) ∧
  ((∀ (o : F2r) (s s1 : State) (vs : List Word), s.thr.live = true → s.readsLong [o.a] o.d = some (s1, vs) →
    exec (.icvtf o) s = .next (s1.finishLong o.sw o.d
      (Pending.ofVal (BitVec.ofNat 64 (convertFloat (fnum o.f) (rmode o.r s1.thr.st) true (ofInt (vs.headD 0).toInt)).1)
        (convertFloat (fnum o.f) (rmode o.r s1.thr.st) true (ofInt (vs.headD 0).toInt)).2))) ∧
  (∀ (o : FkeyOp) (s s1 : State) (vs : List Word), s.thr.live = true → s.readsLong [o.a] o.d = some (s1, vs) →
    exec (.fkey o) s = .next (s1.finishLong o.sw o.d (Pending.ofVal
      (let b := vs.headD 0
       if o.single then
         (if b.toNat % 2 ^ 32 < 2 ^ 31 then b.setWidth 32 else b.setWidth 32 ^^^ 0x7FFFFFFF).signExtend 64
       else if b.toNat < 2 ^ 63 then b else b ^^^ 0x7FFFFFFFFFFFFFFF) 0))))

/-- The key of FKEY orders the numbers of FP64: a smaller value has a smaller key. A number of a scalar format rounds to
itself in that format, in every mode and with no flag. -/
def Obligations.NumberFacts : Prop :=
  (∀ a b : Word, (decodeFloat 1 a.toNat).isNan = false → (decodeFloat 1 b.toNat).isNan = false →
    ltVal (decodeFloat 1 a.toNat) (decodeFloat 1 b.toNat) = true → (fKey false a.toNat).toInt < (fKey false b.toNat).toInt) ∧
  (∀ f mode b : Nat, 1 ≤ f → f ≤ 4 → mode ≤ 4 → b < 2 ^ elemBits f →
    (∃ n m e, decodeFloat f b = .fin n m e) → roundTo f mode (decodeFloat f b) = (b, 0))

/-- A scalar SFU word takes the next entry of its core's queue of 16 and its result stays outstanding; with the queue full it
does not issue. An entry served gives its result to the thread, and the queue moves up. One of the vector unit has the lanes that it
captured computed and written, and the body goes on with its next member; one whose read met poison faults at its chunk. -/
def Obligations.SfuQueue : Prop :=
  (∀ (i : Instr) (o : SfuOp) (fn : SfuFn) (s s1 : State) (vs : List Word), sfuForm i = some (o, fn) → s.thr.live = true →
    s.readsLong [o.a] o.d = some (s1, vs) →
    (s1.core.eng.sfu.length < 16 → ∃ (t : State) (e : SfuEntry), exec i s = .next t ∧ t.core.eng.sfu = s1.core.eng.sfu ++ [e] ∧
      e.frame = s1.thr.frame ∧ e.tok = s1.thr.seq ∧ e.vec = false ∧ t.thr.pc = s1.thr.pc + 4 ∧ t.thr.g = s1.thr.g ∧ t.mem = s1.mem ∧
      t.thr.pend.length = s1.thr.pend.length + 1 ∧
      (e.val, e.flags) = (let r := if o.b16 then sfuFnB fn ((vs.headD 0).toNat % 2 ^ 16) else sfuFn fn ((vs.headD 0).toNat % 2 ^ 32)
        (BitVec.ofNat 64 r.1, r.2))) ∧
    (16 ≤ s1.core.eng.sfu.length → exec i s = .next (s.parkOn 0 0 7))) ∧
  (∀ (s : State) (e : SfuEntry) (r : List SfuEntry), s.core.eng.sfu = e :: r → e.vec = false → s.thr.live = true → s.thr.core = s.core.id →
    s.thr.frame = e.frame → ∃ t, exec (.sfuEntryServe s.core.id) s = .next t ∧ t.core.eng.sfu = r ∧ t.mem = s.mem ∧
      ∀ p ∈ s.thr.pend, p.tok = e.tok → { p with val := e.val, flags := e.flags, poison := none, ready := true } ∈ t.thr.pend) ∧
  (∀ (s : State) (e : SfuEntry) (r : List SfuEntry) (b : Body) (bs : List Body), s.core.eng.sfu = e :: r → e.vec = true →
    s.core.eng.vq = b :: bs →
    (∀ (m : VecIns) (v : VForm) (fn : SfuFn) (n : Option Nat) (d lanes : Nat) (h : d < 8), e.bad = none → b.ins[b.done]? = some m →
      vform m.instr = some v → v.kind = .sfu fn → v.dst = some (8 + d) → bodyCheck s.core.eng b = .ok (lanes, n) →
      ∃ t, exec (.sfuEntryServe s.core.id) s = .next t ∧ t.core.eng.sfu = r ∧
        t.core.eng.vq = { b with done := b.done + 1, wait := false } :: bs ∧ t.mem = s.mem ∧ t.core.eng.held = s.core.eng.held ∧
        (∀ k (hk : k < 8), k ≠ d → t.core.eng.f[k] = s.core.eng.f[k]) ∧
        ∀ l ∈ activeLanes v.lanes b.chunk n, vlane v.f t.core.eng.f[d] l =
          (if v.f = .bf16 then sfuFnB fn (e.ops.getD l 0) else sfuFn fn (e.ops.getD l 0)).1 % 2 ^ laneBits v.f) ∧
    (∀ a, e.bad = some a → b.dying = false → b.frame ≠ 64 →
      ∃ t, exec (.sfuEntryServe s.core.id) s = .next t ∧ t.core.eng.sfu = r ∧ t.mem = s.mem ∧
        t.core.eng.held = some ⟨(b.ins[b.done]?.map fun m => m.pc).getD 0, b.chunk, cENGF, a, false, b.frame, b.done⟩ ∧
        t.core.eng.vq = { b with cur := none, wait := false } :: bs))

/-! ## Branches and jumps -/

/-- A conditional branch goes to pc plus 4 times its offset where its condition holds and to pc + 4 where it does not, and
writes nothing else; a taken backward branch under KBB is no kill point while no kill is due. J, JAL, JR, JALR and NOP: the
target, and the link of JAL and JALR. JR and JALR to a target that is not a multiple of 4 take ALIGN with the target, and
write no link. -/
def Obligations.ControlFlow : Prop :=
  (∀ (i : Instr) (o : BrOp) (holds : Word → Word → Bool) (s s1 : State) (a b : Word), branchForm i = some (o, holds) →
    s.thr.live = true → s.thr.walk = none → s.reads [o.a, o.b] .gz = some (s1, [a, b]) →
    (holds a b = true → s.killsAt (s1.target4 o.off.toInt) = false ∨ s1.killDue = false ∧ s1.thr.damage.contains 21 = false →
      exec i s = .next (s1.jump o.sw (s1.target4 o.off.toInt))) ∧
    (holds a b = false → exec i s = .next (s1.jump o.sw (s1.thr.pc + 4)))) ∧
  ((∀ (o : JOp) (s s1 : State) (vs : List Word), s.thr.live = true → s.thr.walk = none → s.reads [] .gz = some (s1, vs) →
    s.killsAt (s1.target4 o.off.toInt) = false ∨ s1.killDue = false ∧ s1.thr.damage.contains 21 = false → exec (.j o) s = .next (s1.jump o.sw (s1.target4 o.off.toInt))) ∧
  (∀ (o : JalOp) (s s1 : State) (vs : List Word), s.thr.live = true → s.reads [] o.d = some (s1, vs) →
    exec (.jal o) s = .next ((s1.setG o.d (s1.thr.pc + 4)).jump o.sw (s1.target4 o.off.toInt))) ∧
  (∀ (o : S1) (s s1 : State) (a : Word), s.thr.live = true → s.reads [o.a] .gz = some (s1, [a]) → a.toNat % 4 = 0 →
    exec (.jr o) s = .next (s1.jump o.sw a)) ∧
  (∀ (o : R2) (s s1 : State) (a : Word), s.thr.live = true → s.reads [o.a] o.d = some (s1, [a]) → a.toNat % 4 = 0 →
    exec (.jalr o) s = .next ((s1.setG o.d (s1.thr.pc + 4)).jump o.sw a)) ∧
  (∀ (o : S0) (s s1 : State) (vs : List Word), s.thr.live = true → s.reads [] .gz = some (s1, vs) →
    exec (.nop o) s = .next (s1.jump o.sw (s1.thr.pc + 4)))) ∧
  ((∀ (o : S1) (s s1 : State) (a : Word), s.thr.live = true → s.reads [o.a] .gz = some (s1, [a]) → a.toNat % 4 ≠ 0 →
    exec (.jr o) s = .next (s.trap (cause cALIGN a))) ∧
  (∀ (o : R2) (s s1 : State) (a : Word), s.thr.live = true → s.reads [o.a] o.d = some (s1, [a]) → a.toNat % 4 ≠ 0 →
    exec (.jalr o) s = .next (s.trap (cause cALIGN a))))

/-! ## Loads and stores -/

/-- A load whose access passes its checks completes. Served in its core it is performed at once where it hits the L1, and where it misses
it becomes a request that waits for its place on the lane, holding a slot; its bytes come from the store buffer where one entry covers
them; served elsewhere it is sent as a remote word request. What a load that is performed returns: the bytes at its place, little-endian,
extended as the instruction says, and the virtual address as a poison mark exactly where it meets poison. With no injected error it leaves
the state as it was. Sign and zero extension of a loaded value. LDK reads its bytes from the constant cache of the cluster, filled from
memory where the line is not there, and from a peer's memory as a load does. That a load which hits is performed as it issues is the model's
choice (log 1). -/
def Obligations.Loads : Prop :=
  (∀ (i : Instr) (f : LoadForm) (s s1 s2 : State) (b : Word) (l : Loc), loadForm i = some f → s.thr.live = true →
    s.readsLong [f.b] f.d = some (s1, [b]) → s1.accessed (b + f.disp.signExtend 64) f.acc true false = some (s2, l) →
    (s2.look s2.core (l.ranges f.width) = .memory → s2.serve l false false = .here → s2.ownPending l (l.ranges f.width) = false →
      s2.refreshes l = false →
      (s2.missLine s2.core.id l false = none →
        exec i s = .next (((s2.fillLoc s2.core.id l false s2.thr.launch).loadNow l f.width f.sx).1.finishLong f.sw f.d
          ((s2.fillLoc s2.core.id l false s2.thr.launch).loadNow l f.width f.sx).2)) ∧
      ∀ line, s2.missLine s2.core.id l false = some line → s2.slotFor s2.core.id l false = true →
        exec i s = .next ((s2.request (.load f.width f.sx) l false 0 none).finishLong f.sw f.d
          { Pending.awaited true with line := some line, acq := f.acq })) ∧
    (∀ v, s2.look s2.core (l.ranges f.width) = .value v → s2.ownPending l (l.ranges f.width) = false →
      exec i s = .next ((s2.noteRead (l.ranges f.width)).finishLong f.sw f.d
        (Pending.ofLoad (extendTo f.width f.sx (l.forward v).1) (l.forward v).2 none))) ∧
    (s2.look s2.core (l.ranges f.width) = .memory → s2.serve l false false = .remote → s2.slotFree = true →
      exec i s = .next ((s2.request (.load f.width f.sx) l false 0 none).finishLong f.sw f.d { Pending.awaited true with acq := f.acq }))) ∧
  (∀ (l : Loc) (v : Nat), l.raw → l.forward v = (v, 0)) ∧
  (∀ (s : State) (l : Loc) (width : Nat) (sx : Bool),
    l.raw → s.calm →
    (s.loadNow l width sx).1 = s ∧
      (s.loadNow l width sx).2.val = extendTo width sx (s.numAt l.key width) ∧
      ((s.loadNow l width sx).2.poison = if s.mem.isPoisoned l.key || s.mem.isPoisoned (l.key + width - 1) then some l.va else none) ∧
      (s.loadNow l width sx).2.ready = true) ∧
  (∀ v : Nat, ∀ w ∈ [1, 2, 4, 8], v < 2 ^ (8 * w) →
    (extendTo w false v).toNat = v ∧ (extendTo w true v).toInt = intOf (8 * w) v) ∧
  (∀ (o : LdOp) (s s1 s2 : State) (b : Word) (l : Loc), s.thr.live = true → s.readsLong [o.b] o.d = some (s1, [b]) →
    s1.accessed (b + o.disp.signExtend 64) accConst true false = some (s2, l) →
    ((∀ n, l.place ≠ .peer n) → ∃ t v, exec (.ldk o) s = .next t ∧ t.thr.pc = s2.thr.pc + 4 ∧ t.thr.g = s2.thr.g ∧ t.mem = s2.mem ∧
      (t.thr.pend.getLast?.map fun p => p.val) = some v ∧
      (l.key % 8 = 0 → ((s2.clusterAt (clusterOf s2.core.id)).kc.any fun x => x.1 == l.key / 64) = false →
        v.toNat = s2.numAt l.key 8) ∧
      ∀ x, ((s2.clusterAt (clusterOf s2.core.id)).kc.find? fun x => x.1 == l.key / 64) = some x →
        v.toNat = x.2.toNat / 256 ^ (l.key % 64) % 2 ^ 64) ∧
    ∀ n, l.place = .peer n → s2.look s2.core [(l.key, 8)] = .memory → s2.slotFree = true →
      exec (.ldk o) s = .next ((s2.request (.load 8 true) l false 0 none).finishLong o.sw o.d (Pending.awaited true)))

/-- A store whose access passes its checks completes: one entry at the end of the store buffer, with the value, the address
and the next number, and the thread at the next instruction. No byte of memory changes but in the table entries of its
address. One that misses in the L1 of its core is announced on the lane, at a window to come and one of the 4 places of its core there,
and is not applied before cc 8w + 72 of it. A plain store that is applied, no launch waiting for a word of memory, writes exactly its bytes
at its place, and leaves the buffer. -/
def Obligations.Stores : Prop :=
  (∀ (i : Instr) (f : StoreForm) (s s1 s2 : State) (vs : List Word) (l : Loc), storeForm i = some f →
    s.Inv → s.thr.live = true → s.reads f.srcs .gz = some (s1, vs) →
    s1.accessed (vs.getD f.addr 0 + f.disp.signExtend 64) f.acc false true = some (s2, l) →
    (f.roams = true → ∀ n, s2.serve l true false ≠ .migrate n) → s2.sbFull = false →
    (f.rel = true → 7 ≤ f.scope → s2.thr.dropped = none) →
    ∃ (t : State) (e : SbEntry), exec i s = .next t ∧ t.core.sb = s2.core.sb ++ [e] ∧ t.core.sbNum = s2.core.sbNum + 1 ∧
      e.num = s2.core.sbNum ∧ e.frame = s2.thr.frame ∧ e.loc = l ∧ e.width = f.width ∧ e.data = vs.getD f.val 0 ∧ e.rel = f.rel ∧
      (l.narrows = false → e.kind = f.kind) ∧ t.thr.pc = s2.thr.pc + 4 ∧ t.thr.g = s2.thr.g ∧ t.thr.st = s2.thr.st ∧ t.mem = s2.mem ∧
      ∀ a, (∀ x ∈ s1.entriesOf (vs.getD f.addr 0 + f.disp.signExtend 64), a < x ∨ x + 8 ≤ a) → t.byteAt a = s.byteAt a) ∧
  (∀ (s : State) (core k : Nat) (e : SbEntry), (s.coreOf core).sb[k]? = some e → e.gathers = false → s.missesLine core e = true →
    s.canApply core ((s.coreOf core).sb.take k) e = true → s.mayLeave core ((s.coreOf core).sb.take k) e = true →
    (e.lane = none → ((s.tickets core).all fun x => x.2.1 != e.loc.key / 64) = true →
      ∃ (t : State) (p : Nat × Nat), exec (.storeBufferApply core k) s = .next t ∧ t.mem = s.mem ∧ s.cc / 8 < p.1 ∧ p.2 < 4 ∧
        ((s.tickets core).all fun x => x.1 != p) = true ∧ ∀ x ∈ (t.coreOf core).sb, x.num = e.num → x.lane = some p) ∧
    ∀ p, e.lane = some p → s.cc < 8 * p.1 + 72 → exec (.storeBufferApply core k) s = .fault .notEnabled) ∧
  (∀ (s : State) (core k : Nat) (e : SbEntry), s.Inv → s.noDeps → (s.coreOf core).sb[k]? = some e → e.kind = .store →
    e.loc.raw → e.gathers = false → s.canApply core ((s.coreOf core).sb.take k) e = true →
    s.mayLeave core ((s.coreOf core).sb.take k) e = true → s.reachable core e.loc true = true →
    s.hasTurn core e.loc e.lane (s.missesLine core e) (s.servedHere core e.loc true) →
    ∃ t, exec (.storeBufferApply core k) s = .next t ∧ s.storedAt t e.loc.key e.width e.data.toNat ∧
      (∀ x ∈ (t.coreOf core).sb, x.num ≠ e.num ∧ ∃ y ∈ (s.coreOf core).sb, x = { y with left := x.left }) ∧
      t.thr.g = s.thr.g ∧ t.thr.pc = s.thr.pc ∧ t.sys = s.sys)

/-- Where a load, a store or an atomic traps as it issues, in the order of R309: an address that is not canonical, or in launch mode
neither a user address nor in a device window, takes PROT; one that is not a multiple of the width takes ALIGN; a slot of a core that is not
enabled takes PLACE, and one past its 512 KiB PROT; a page takes what its translation gives, PAGE for an invalid entry and PROT for a store or
a launch-mode access that the page does not permit; a watched address in launch mode takes WATCH. Every such trap starts from the state before
the instruction, with W as the access stores. An access to memory of another quad that migrates ends the run: the thread is marked to depart
and its instruction has had no effect. Loads and stores as they issue write no byte of memory but in the entries that translate their
address. -/
def Obligations.AccessTraps : Prop :=
  (∀ (i : Instr) (f : AccForm) (s s1 : State) (vs : List Word) (a : Word), accForm i = some f → s.thr.live = true →
    s.readsOf f.short f.srcs f.d = some (s1, vs) → a = vs.getD f.addr 0 + f.disp.signExtend 64 →
    (canonical a.toNat = false ∨ s1.thr.sup = false ∧ 2 ^ 56 ≤ a.toNat ∧ inWindow a.toNat = false →
      exec i s = .next (s.trap ⟨cPROT, f.wr, false, a⟩)) ∧
    (canonical a.toNat = true → (s1.thr.sup = true ∨ a.toNat < 2 ^ 56 ∨ inWindow a.toNat = true) →
      (a.toNat % f.acc.width ≠ 0 → exec i s = .next (s.trap ⟨cALIGN, f.wr, false, a⟩)) ∧
      (a.toNat % f.acc.width = 0 →
        (∀ c off, c < 2048 → off < 0x100000 → a.toNat = scratchBase + c * 0x100000 + off →
          (s1.enabled c = false → exec i s = .next (s.trap ⟨cPLACE, f.wr, false, a⟩)) ∧
          (s1.enabled c = true → 0x80000 ≤ off → exec i s = .next (s.trap ⟨cPROT, f.wr, false, a⟩))) ∧
        (inWindow a.toNat = false → f.acc.memory = true → s1.mustWalk s1.thr a f.acc.width = false → ∀ c,
          s1.translate s1.thr a.toNat f.acc.kind = .error c → exec i s = .next (s.trap ⟨c, f.wr, false, a⟩)) ∧
        (inWindow a.toNat = false → f.acc.memory = false → f.acc.peers = false → exec i s = .next (s.trap ⟨cPROT, f.wr, false, a⟩)))) ∧
    (∀ p, ((f.acc.memory || f.acc.peers) && s1.mustWalk s1.thr a f.acc.width) = false → s1.access s1.thr a f.acc = .ok p → s1.thr.sup = false →
      s1.thr.skipWatch ≠ some s1.thr.pc → a.toNat / 64 = s1.core.watch.toNat / 64 →
      (f.rd = true ∧ s1.core.watch.getLsbD 0 = true) ∨ (f.wr = true ∧ s1.core.watch.getLsbD 1 = true) →
      exec i s = .next (s.trap ⟨cWATCH, f.wr, false, a⟩)) ∧
    (∀ s2 l n, s1.accessed a f.acc f.rd f.wr = some (s2, l) →
      (∀ g, loadForm i = some g → s2.look s2.core (l.ranges g.width) = .memory ∧ s2.serve l false false = .migrate n) →
      (∀ g, storeForm i = some g → g.roams = true ∧ s2.serve l true false = .migrate n) →
      (∀ g, atomForm i = some g → s2.ownBuffered l.key g.width = false ∧ s2.serve l true true = .migrate n) →
      exec i s = .next (s.migrate n)) ∧
    ((atomForm i).isNone = true → s.Inv → ∀ t b, exec i s = .next t → (∀ x ∈ s1.entriesOf a, b < x ∨ x + 8 ≤ b) → t.byteAt b = s.byteAt b)) ∧
  (∀ (s : State) (n : Nat), (s.migrate n).thr.migr = some n ∧ ((s.migrate n).thr.park.map fun p => p.code) = some 1 ∧
    (s.migrate n).thr.pc = s.thr.pc ∧ (s.migrate n).thr.g = s.thr.g ∧ (s.migrate n).thr.pend = s.thr.pend ∧ (s.migrate n).mem = s.mem ∧
    (s.migrate n).core = s.core) ∧
  (∀ (s : State) (t : Thread) (va : Nat) (kind : XKind),
    (∀ x, s.lookup t.core (s.tableOf t) va = .ok x →
      (kind = .store ∧ (x.leaf / 4 % 2 = 0 ∨ x.leaf / 16 % 2 = 1)) ∨ (t.sup = false ∧ x.leaf / 32 % 2 = 0) → s.translate t va kind = .error cPROT) ∧
    (∀ c, s.mapped t.core (s.tableOf t) va = false → s.walkOf t.core (s.tableOf t) va = .error c → s.translate t va kind = .error c)) ∧
  (∀ (bs : List Host.Cell) (va l table : Nat) (seen : List Nat), readBytes bs (table + 8 * levelIndex l va) 8 % 2 = 0 →
    walk bs va l table seen = .error cPAGE) ∧
  (∀ (i : Instr) (f : AccForm) (s t : State), accForm i = some f → (atomForm i).isNone = true → s.readsOf f.short f.srcs f.d = none →
    exec i s = .next t → t.mem.bytes = s.mem.bytes)

/-- LDSC and STSC. An LDSC, once the thread's accesses that precede it are performed, takes the next free window of its core and becomes a
request, and the thread goes on once it has its result; the request is performed neither before cc 8w + 72 nor before an SC store to its
bytes that comes before it in the order S. An STSC enters the buffer held as a release, takes the next free window once what it waits for has
come about, and is applied neither before cc 8w + 72 nor before what comes before it in S; once it has been applied the thread goes on. That
an LDSC takes its window only then is read from R129 (e) (log 71). -/
def Obligations.SequentialAccesses : Prop :=
  (∀ (o : SLd) (s s1 s2 : State) (a : Word) (l : Loc), s.thr.live = true → s.readsLong [o.b] o.d = some (s1, [a]) →
    s1.accessed a (accOrdered .load) true false = some (s2, l) → (∀ n, s2.serve l false false ≠ .migrate n) →
    (s2.ownBefore s2.thr o.scope.toNat = false → (exec (.ldsc o) s = .next (s.parkOn 25 0 (8 * o.scope.toNat + 2)))) ∧
    (s2.ownBefore s2.thr o.scope.toNat = true → s2.look s2.core [(l.key, 8)] ≠ .wait → s2.slotFree = true →
      (7 ≤ o.scope.toNat → s2.thr.dropped = none) →
      ∃ (t : State) (r : Req) (w : Nat), exec (.ldsc o) s = .next t ∧ t.net.reqs = s2.net.reqs ++ [r] ∧ r.kind = .load 8 true ∧ r.loc = l ∧
        r.tok = s2.thr.seq ∧ r.rel = true ∧ r.win = some w ∧ t.hem = s2.hem ++ [(s2.core.id, w)] ∧ s2.nextWindow s2.core.id w ∧
        t.thr.slot = none ∧ (t.thr.park.map fun p => p.code) = some 25 ∧ t.thr.pc = s2.thr.pc + 4 ∧
        t.thr.pend.length = s2.thr.pend.length + 1 ∧ t.thr.g = s2.thr.g ∧ t.mem = s2.mem)) ∧
  (∀ (s : State) (r : Req) (w : Nat), s.net.reqs = [r] → r.kind = .load 8 true → r.win = some w →
    s.cc < 8 * w + 72 ∨ s.scStoreBefore (w, r.core) (some [(r.loc.key, 8)]) = true → exec (.remoteWordRequest 0) s = .fault .notEnabled) ∧
  (∀ (o : SSt) (s s1 s2 : State) (v a : Word) (l : Loc), s.thr.live = true → s.thr.phase = 0 →
    s.reads [o.a, o.b] .gz = some (s1, [v, a]) → s1.accessed a (accOrdered .store) false true = some (s2, l) →
    (∀ n, s2.serve l true false ≠ .migrate n) → s2.sbFull = false → (7 ≤ o.scope.toNat → s2.thr.dropped = none) →
    (s2.core.sb.all fun e => e.num != s2.core.sbNum) = true →
    ∃ (t : State) (e : SbEntry), exec (.stsc o) s = .next t ∧ t.core.sb = s2.core.sb ++ [e] ∧ e.kind = .stsc ∧ e.loc = l ∧ e.data = v ∧
      e.width = 8 ∧ t.mem = s2.mem ∧ t.thr.pc = s2.thr.pc ∧ t.thr.g = s2.thr.g ∧ (t.thr.park.map fun p => p.code) = some 25 ∧
      ((e.rel = true ∧ t.hem = s2.hem ∧ e.notBefore = never) ∨
        (e.rel = false ∧ ∃ w, t.hem = s2.hem ++ [(s2.core.id, w)] ∧ e.notBefore = 8 * w + 72 ∧ s2.nextWindow s2.core.id w))) ∧
  (∀ (o : SSt) (s : State) (e : SbEntry), s.thr.live = true → s.thr.phase ≠ 0 →
    (s.core.sb.find? fun e => e.num == s.thr.phase - 1) = some e → e.notBefore = never →
    (s.ordered s.core.id s.thr.frame e.num e.tok e.scope = true → ∃ (t : State) (w : Nat), exec (.stsc o) s = .next t ∧
      t.hem = s.hem ++ [(s.core.id, w)] ∧ s.nextWindow s.core.id w ∧ (t.thr.park.map fun p => p.code) = some 25 ∧ t.thr.pc = s.thr.pc ∧
      t.thr.g = s.thr.g ∧ t.mem = s.mem ∧
      t.core.sb = s.core.sb.map fun x => if x.num = e.num then { x with rel := false, notBefore := 8 * w + 72 } else x) ∧
    (s.ordered s.core.id s.thr.frame e.num e.tok e.scope = false → exec (.stsc o) s = .next (s.parkOn 25 0 (8 * e.num + 1)))) ∧
  (∀ (s : State) (core k : Nat) (e : SbEntry), (s.coreOf core).sb[k]? = some e → e.kind = .stsc →
    s.cc < e.notBefore ∨ (∃ w, e.notBefore = 8 * w + 72 ∧ w < 2 ^ 76 ∧
      (s.scStoreBefore (w, core) (some [e.cover]) = true ∨ s.scLoadBefore (w, core) (some [e.cover]) = true)) →
    exec (.storeBufferApply core k) s = .fault .notEnabled) ∧
  (∀ (o : SSt) (s : State), s.thr.live = true → s.thr.phase ≠ 0 → (∀ e ∈ s.core.sb, e.num ≠ s.thr.phase - 1) →
    exec (.stsc o) s = .next (s.retire o.sw))

/-! ## Full/empty operations -/

/-- LDF, LDFE and STEF are sent to the scratchpad word and park their thread with code 2 until they are applied; a load's
result is outstanding, an STEF stands in the store buffer. FETST in the own scratchpad returns 1 and leaves the word empty
where it was full, and 0 where it was empty, and no byte of memory changes; in another core's it is a request. -/
def Obligations.FullEmptyWords : Prop :=
  ((∀ (o : SLd) (k : FeKind) (i : Instr) (s s1 s2 : State) (a : Word) (l : Loc),
    (i = .ldf o ∧ k = .ldf) ∨ (i = .ldfe o ∧ k = .ldfe) → s.thr.live = true → s.readsLong [o.b] o.d = some (s1, [a]) →
    s1.accessed a (accFull .load) true false = some (s2, l) → s2.ownBuffered l.key 8 = false →
    s2.ownPending l [(l.key, 8)] = false → (s2.away l = true → s2.slotFree = true) →
    ∃ (t : State) (r : FeReq), exec i s = .next t ∧ t.net.fe = s2.net.fe ++ [r] ∧ r.e.kind = k ∧ r.e.key = l.key ∧
      r.e.core = s2.core.id ∧ r.e.frame = s2.thr.frame ∧ r.e.tok = s2.thr.seq ∧ (t.thr.park.map fun p => p.code) = some 2 ∧
      t.thr.pc = s2.thr.pc ∧ t.thr.pend.length = s2.thr.pend.length + 1 ∧
      (t.thr.pend.getLast?.map fun p => (p.tok, p.dst, p.ready)) = some (s2.thr.seq, o.d, false) ∧ t.mem = s2.mem) ∧
  (∀ (o : SSt) (s s1 s2 : State) (v a : Word) (l : Loc), s.thr.live = true → s.reads [o.a, o.b] .gz = some (s1, [v, a]) →
    s1.accessed a accFill false true = some (s2, l) → s2.sbFull = false → (7 ≤ o.scope.toNat → s2.thr.dropped = none) →
    ∃ (t : State) (e : SbEntry), exec (.stef o) s = .next t ∧ t.core.sb = s2.core.sb ++ [e] ∧ e.kind = .stef ∧ e.loc = l ∧
      e.data = v ∧ (t.thr.park.map fun p => p.code) = some 2 ∧ t.thr.pc = s2.thr.pc ∧ t.mem = s2.mem)) ∧
  (∀ (o : SLd) (s s1 s2 : State) (a : Word) (l : Loc), s.thr.live = true → s.readsLong [o.b] o.d = some (s1, [a]) →
    s1.accessed a (accFull .load) true false = some (s2, l) → s2.ownBuffered l.key 8 = false →
    (s2.away l = false → s2.ownPending l [(l.key, 8)] = false → s2.calm → s2.noDeps →
      (s2.coreOf ((l.key - scratchBase) / 0x100000)).waits = [] →
      ∃ t, exec (.fetst o) s = .next t ∧ (t.thr.pend.getLast?.map fun p => p.val) = some (if s2.mem.isFull l.key then 1 else 0) ∧
        t.mem.isFull l.key = false ∧ t.mem.bytes = s2.mem.bytes ∧ t.thr.pc = s2.thr.pc + 4) ∧
    (s2.away l = true → s2.slotFree = true →
      exec (.fetst o) s = .next ((s2.request .fetst l false 0 none).finishLong o.sw o.d
        { Pending.awaited true with acq := o.scope.toNat })))

/-- A full/empty operation that arrives at its word: an LDF or LDFE of a full word delivers its value to the thread, which goes on, LDFE
leaving the word empty, and an STEF of an empty word writes it and leaves it full; where it cannot proceed it enters the wait table of up to
128 entries, and past that it is turned away for 256 cc. An operation turned away is tried again once 256 cc have passed, and not
before. -/
def Obligations.FullEmptyTable : Prop :=
  (∀ (s : State) (r : FeReq), s.Inv → s.noDeps → s.net.fe = [r] → (s.coreOf r.core).reset = none → s.tenantHolds r.e = true →
    isScratchKey r.e.key = true → r.e.key % 8 = 0 → (s.coreOf (homeOf r.e.key r.e.core)).waits.length ≤ 128 →
    (s.feReady r.e = true → (s.coreOf (homeOf r.e.key r.e.core)).waits = [] →
      ∃ t, exec (.fullEmptyApply r.e.core r.e.key) s = .next t ∧ t.net.fe = [] ∧
        (r.e.kind = .ldf → t.mem.isFull r.e.key = true ∧ t.mem.bytes = s.mem.bytes) ∧
        (r.e.kind = .ldfe → t.mem.isFull r.e.key = false ∧ t.mem.bytes = s.mem.bytes) ∧
        (r.e.kind = .stef → t.mem.isFull r.e.key = true ∧ s.storedAt t r.e.key 8 r.e.data.toNat) ∧
        (s.thr.live = true → s.thr.core = r.e.core → s.thr.frame = r.e.frame → t.thr.pc = s.thr.pc + 4 ∧ t.thr.g = s.thr.g ∧
          (r.e.kind ≠ .stef → ∀ p ∈ s.thr.pend, p.tok = r.e.tok →
            ∃ q ∈ t.thr.pend, q.tok = p.tok ∧ q.dst = p.dst ∧ q.ready = true ∧ q.val = BitVec.ofNat 64 (s.numAt r.e.key 8)))) ∧
    (s.feReady r.e = false → (s.coreOf (homeOf r.e.key r.e.core)).waits.length < 128 →
      ∃ t, exec (.fullEmptyApply r.e.core r.e.key) s = .next t ∧ t.net.fe = [] ∧ t.mem = s.mem ∧
        (t.coreOf (homeOf r.e.key r.e.core)).waits = (s.coreOf (homeOf r.e.key r.e.core)).waits ++ [r.e]) ∧
    (s.feReady r.e = false → (s.coreOf (homeOf r.e.key r.e.core)).waits.length = 128 →
      ∃ t, exec (.fullEmptyApply r.e.core r.e.key) s = .next t ∧ t.net.fe = [] ∧ t.mem = s.mem ∧
        (s.cc + 256, r.e) ∈ (t.coreOf r.e.core).retries)) ∧
  (∀ (s : State) (core frame due : Nat) (e : WaitEntry),
    ((s.coreOf core).retries.find? fun r => r.2.frame == frame) = some (due, e) →
    (s.coreOf (homeOf e.key e.core)).reset = none → s.tenantHolds e = true →
    (s.cc < due → exec (.waitTableRetry core frame) s = .fault .notEnabled) ∧
    (due ≤ s.cc → ∃ t, exec (.waitTableRetry core frame) s = .next t ∧
      t = (s.modCore core fun c => { c with retries := c.retries.erase (due, e) }).feArrive e))

/-! ## Atomics -/

/-- An atomic that hits in its core is performed at once: it returns the old value, sign-extended, and stores its new value in exactly its
bytes; where it met poison it stores nothing and its result is marked. One that another unit serves, one that misses, one that releases at
core scope or wider, and one to a word that a launch waits for is a request that its result waits for. A sequentially
consistent one, with nothing older of its thread outstanding, takes the next free window of its core and becomes a request. -/
def Obligations.Atomics : Prop :=
  (∀ (i : Instr) (f : AtomForm) (s s1 s2 : State) (vs : List Word) (l : Loc), atomForm i = some f → s.Inv → s.thr.live = true →
    s.readsLong f.srcs f.d = some (s1, vs) → s1.accessed (vs.getD 1 0) (accAtomic f.width .store) true true = some (s2, l) →
    s2.ownBuffered l.key f.width = false → s2.serve l true true = .here → s2.ownPending l [(l.key, f.width)] = false →
    s2.depWord l.key = false → s2.missLine s2.core.id l true = none → s2.calm → s2.noDeps →
    f.ord ≠ 3 → (f.ord = 2 → f.scope = 0) →
    ∃ t, exec i s = .next t ∧ t.thr.pc = s2.thr.pc + 4 ∧ t.thr.g = s2.thr.g ∧
      (t.thr.pend.getLast?.map fun p => p.val) = some (extendTo f.width true (s2.mem.read l.key f.width)) ∧
      (s2.mem.isPoisoned l.key = true → t.mem = s2.mem ∧ (t.thr.pend.getLast?.map fun p => p.poison) = some (some l.va)) ∧
      (s2.mem.isPoisoned l.key = false →
        match f.new (s2.mem.read l.key f.width) ((vs.getD 0 0).toNat % 256 ^ f.width) ((vs.getD 2 0).toNat % 256 ^ f.width) with
        | some v => s2.storedAt t l.key f.width v
        | none => t.mem = s2.mem)) ∧
  (∀ (i : Instr) (f : AtomForm) (s s1 s2 : State) (vs : List Word) (l : Loc), atomForm i = some f → s.thr.live = true →
    s.readsLong f.srcs f.d = some (s1, vs) → s1.accessed (vs.getD 1 0) (accAtomic f.width .store) true true = some (s2, l) →
    s2.ownBuffered l.key f.width = false → (∀ n, s2.serve l true true ≠ .migrate n) → s2.slotFree = true →
    (∀ miss, miss = (if s2.serve l true true = .remote then none else s2.missLine s2.core.id l true) → f.ord ≠ 3 →
      s2.serve l true true = .remote ∨ (f.ord = 2 ∧ f.scope ≠ 0) ∨ s2.depWord l.key = true ∨ miss.isSome = true →
      (f.ord = 2 → 7 ≤ f.scope.toNat → s2.thr.dropped = none) →
      exec i s = .next ((s2.request (.atomic f.code f.width (vs.getD 0 0) (vs.getD 2 0)) l (f.ord == 2 && f.scope != 0) f.scope.toNat none).finishLong
        f.sw f.d { Pending.awaited (s2.serve l true true == .remote || miss.isSome) with
          line := miss, acq := if f.ord = 1 then f.scope.toNat else 0 })) ∧
    (f.ord = 3 → s2.settled → (7 ≤ f.scope.toNat → s2.thr.dropped = none) → ∃ (t : State) (r : Req) (w : Nat), exec i s = .next t ∧ t.net.reqs = s2.net.reqs ++ [r] ∧
      r.kind = .atomic f.code f.width (vs.getD 0 0) (vs.getD 2 0) ∧ r.loc = l ∧ r.rel = true ∧ r.win = some w ∧
      t.hem = s2.hem ++ [(s2.core.id, w)] ∧ s2.nextWindow s2.core.id w ∧ (t.thr.park.map fun p => p.code) = some 25 ∧
      t.thr.pc = s2.thr.pc + 4 ∧ t.thr.g = s2.thr.g ∧ t.thr.pend.length = s2.thr.pend.length + 1 ∧ t.mem = s2.mem))

/-- A request that may be performed, and has its turn on the lane or at its bank, is: a load delivers the bytes of its place, with what its
core's buffer holds in theirs, an atomic its old value, and stores its new one, an LRES takes its reservation, a prefetch leaves its line in
the core; and the request is gone. AADD.agg joins the combination of its quad for the word, or begins one, and never migrates. 16 cc after its
first add, and not before, the combination is performed: the word takes the sum of all addends, and each participant receives the old value
with the addends of those before it added. -/
def Obligations.RequestsPerformed : Prop :=
  (∀ (s : State) (r : Req), s.Inv → s.noDeps → s.net.reqs = [r] → s.canServe [] r = true →
    s.reachableAs r.core r.loc r.kind.excl (s.hereReq r) = true → s.hasTurn r.core r.loc r.lane (s.missesReq r) (s.hereReq r) →
    s.thr.live = true → s.thr.core = r.core → s.thr.frame = r.frame → s.core.id = r.core → s.calm → r.loc.raw →
    ∃ t, exec (.remoteWordRequest 0) s = .next t ∧ t.net.reqs = [] ∧
      (∀ w sx, r.kind = .load w sx → t.mem = s.mem ∧ ∀ p ∈ s.thr.pend, p.tok = r.tok →
        ∃ q ∈ t.thr.pend, q.tok = r.tok ∧ q.ready = true ∧ q.val = extendTo w sx (s.overlaid r w (s.mem.read r.loc.key w))) ∧
      (∀ i f x c, atomForm i = some f → r.kind = .atomic f.code f.width x c → s.mem.isPoisoned r.loc.key = false →
        (match f.new (s.mem.read r.loc.key f.width) (x.toNat % 256 ^ f.width) (c.toNat % 256 ^ f.width) with
          | some v => s.storedAt t r.loc.key f.width v
          | none => t.mem = s.mem) ∧ ∀ p ∈ s.thr.pend, p.tok = r.tok →
        ∃ q ∈ t.thr.pend, q.tok = r.tok ∧ q.ready = true ∧ q.val = extendTo f.width true (s.mem.read r.loc.key f.width)) ∧
      (r.kind = .lres → t.mem = s.mem ∧ (t.thr.resv.map fun x => (x.line, x.cc)) = some (r.loc.key / 64, s.cc) ∧ ∀ p ∈ s.thr.pend, p.tok = r.tok →
        ∃ q ∈ t.thr.pend, q.tok = r.tok ∧ q.ready = true ∧ q.val = extendTo 8 false (s.overlaid r 8 (s.mem.read r.loc.key 8))) ∧
      (r.kind = .pref false → s.mayCache r.core r.loc = true → t.mem = s.mem ∧ (t.coreOf r.core).l1Find (r.loc.key / 64) ≠ none)) ∧
  (∀ (s : State) (r : Req) (n v : Nat), (s.coreOf r.core).sb = [] → s.overlaid r n v = v) ∧
  ((∀ (o : R3) (s s1 s2 : State) (x a : Word) (l : Loc), s.thr.live = true → s.readsLong [o.a, o.b] o.d = some (s1, [x, a]) →
    s1.accessed a (accAtomic 4 .store) true true = some (s2, l) → s2.ownBuffered l.key 4 = false → s2.ownOrdered l 4 = false →
    ({ s2 with net := { s2.net with aggs := s2.net.aggs.filter fun a => !a.open_ (quadOf s2.core.id) l.key s2.cc } } : State).ownPending l
      [(l.key, 4)] = false → s2.slotFree = true →
    ∃ t, exec (.aaddAgg o) s = .next t ∧ t.thr.pc = s2.thr.pc + 4 ∧ t.thr.g = s2.thr.g ∧ t.mem = s2.mem ∧
      (t.thr.pend.getLast?.map fun p => (p.tok, p.ready)) = some (s2.thr.seq, false) ∧
      ∃ a ∈ t.net.aggs, a.quad = quadOf s2.core.id ∧ a.loc.key = l.key ∧
        ∃ p ∈ a.parts, p.core = s2.core.id ∧ p.frame = s2.thr.frame ∧ p.tok = s2.thr.seq ∧ p.addend = x.setWidth 32) ∧
  (∀ (s : State) (a : Agg) (p : AggPart) (r : List AggPart), s.Inv → s.noDeps → s.net.aggs = [a] → a.parts = p :: r →
    s.reachable p.core a.loc true = true → s.calm → s.mem.isPoisoned a.loc.key = false →
    (s.cc < a.first + 16 → exec (.aggCombine 0) s = .fault .notEnabled) ∧
    (a.first + 16 ≤ s.cc → ∃ t, exec (.aggCombine 0) s = .next t ∧ t.net.aggs = [] ∧
      s.storedAt t a.loc.key 4 ((s.mem.read a.loc.key 4 + (a.parts.map fun q => q.addend.toNat).foldr (· + ·) 0) % 2 ^ 32) ∧
      ∀ k q, a.parts[k]? = some q → s.thr.live = true → q.core = s.thr.core → q.frame = s.thr.frame →
        (∀ j q', a.parts[j]? = some q' → q'.core = q.core → q'.frame = q.frame → q'.tok = q.tok → j = k) →
        ∀ x ∈ s.thr.pend, x.tok = q.tok → ∃ y ∈ t.thr.pend, y.tok = x.tok ∧ y.dst = x.dst ∧ y.ready = true ∧
          y.val = extendTo 4 true ((s.mem.read a.loc.key 4 + ((a.parts.take k).map fun z => z.addend.toNat).foldr (· + ·) 0) % 2 ^ 32))))

/-! ## Reservations, FENCE, cache operations -/

/-- LRES that hits in the core takes the reservation on its line at once and loads, and else is a request; SCON enters the store
buffer and its result waits; WRS returns 1 at once without the reservation and parks with it. No place of another package holds a reservation:
LRES and SCON there take PROT. A reservation lapses 4,096 cc after its LRES and not before. An SCON applied while its thread holds the
reservation on the line stores and delivers 0; without it, or where the word is poisoned, the SCON stores nothing and delivers 1. Either way the
reservation is gone. That it stores nothing on a poisoned word is read from R332 (log 71). -/
def Obligations.Reserved : Prop :=
  ((∀ (o : OLd) (s s1 s2 : State) (a : Word) (l : Loc), s.thr.live = true → s.readsLong [o.b] o.d = some (s1, [a]) →
    s1.accessed a (accAtomic 8 .load) true false = some (s2, l) →
    (l.isPeer = true → exec (.lres o) s = .next (s.trap (cause cPROT a))) ∧
    (s2.look s2.core [(l.key, 8)] ≠ .wait → s2.serve l false false = .here → s2.ownPending l [(l.key, 8)] = false →
      (s2.missLine s2.core.id l false = none → l.raw →
        ∃ t, exec (.lres o) s = .next t ∧ (t.thr.resv.map fun r => (r.line, r.cc)) = some (l.key / 64, s2.cc) ∧ t.thr.pc = s2.thr.pc + 4 ∧
          t.thr.g = s2.thr.g ∧ t.thr.pend.length = s2.thr.pend.length + 1 ∧
          (t.thr.pend.getLast?.map fun p => p.val) = some (match s2.look s2.core [(l.key, 8)] with
            | .value v => BitVec.ofNat 64 v
            | _ => BitVec.ofNat 64 (s2.numAt l.key 8))) ∧
      ∀ line, s2.missLine s2.core.id l false = some line → s2.slotFor s2.core.id l false = true →
        exec (.lres o) s = .next ((s2.request .lres l false 0 none).finishLong o.sw o.d
          { Pending.awaited true with line := some line, acq := if o.ord = 1 then o.scope.toNat else 0 })) ∧
    (l.isPeer = false → s2.look s2.core [(l.key, 8)] = .memory → s2.serve l false false = .remote → s2.slotFree = true →
      exec (.lres o) s = .next ((s2.request .lres l false 0 none).finishLong o.sw o.d
        { Pending.awaited true with acq := if o.ord = 1 then o.scope.toNat else 0 }))) ∧
  (∀ (o : AtOp) (s s1 s2 : State) (v a : Word) (l : Loc), s.thr.live = true → s.readsLong [o.a, o.b] o.d = some (s1, [v, a]) →
    s1.accessed a (accAtomic 8 .store) false true = some (s2, l) →
    (l.isPeer = true → exec (.scon o) s = .next (s.trap ⟨cPROT, true, false, a⟩)) ∧
    (l.isPeer = false → (∀ n, s2.serve l true false ≠ .migrate n) → s2.sbFull = false →
      (o.ord = 2 → 7 ≤ o.scope.toNat → s2.thr.dropped = none) →
      ∃ (t : State) (e : SbEntry), exec (.scon o) s = .next t ∧ t.core.sb = s2.core.sb ++ [e] ∧ e.kind = .scon s2.thr.seq ∧
        e.loc = l ∧ e.data = v ∧ t.thr.pc = s2.thr.pc + 4 ∧ t.mem = s2.mem ∧ t.thr.g = s2.thr.g ∧
        (t.thr.pend.getLast?.map fun p => (p.tok, p.dst, p.ready)) = some (s2.thr.seq, o.d, false))) ∧
  (∀ (o : WrsOp) (s s1 s2 : State) (a : Word) (l : Loc), s.thr.live = true → s.reads [o.b] o.d = some (s1, [a]) →
    s1.accessed a (accOrdered .load) false false = some (s2, l) →
    (s2.thr.holdsLine (l.key / 64) s2.cc = false → exec (.wrs o) s = .next (s2.finish o.sw o.d 1)) ∧
    (s2.thr.holdsLine (l.key / 64) s2.cc = true →
      ∃ t, exec (.wrs o) s = .next t ∧ (t.thr.park.map fun p => p.code) = some 10 ∧ t.thr.pc = s2.thr.pc + 4 ∧ t.mem = s2.mem)) ∧
  (∀ (s : State) (t : Thread) (r : Reservation), s.thr = t → t.live = true → t.resv = some r →
    (s.cc < r.cc + 4096 → exec (.reservationLapse t.core t.frame) s = .fault .notEnabled) ∧
    (r.cc + 4096 ≤ s.cc → ∃ u, exec (.reservationLapse t.core t.frame) s = .next u ∧ u.thr = { t with resv := none } ∧ u.mem = s.mem))) ∧
  (∀ (s : State) (e : SbEntry) (tok : Nat), s.Inv → s.noDeps → s.core.sb = [e] → e.kind = .scon tok → e.bad = false →
    e.loc.place = .scratch s.core.id 0 → s.canApply s.core.id [] e = true → s.thr.live = true → s.thr.core = s.core.id →
    s.thr.frame = e.frame → s.calm →
    ∃ t, exec (.storeBufferApply s.core.id 0) s = .next t ∧ t.core.sb = [] ∧ t.thr.resv = none ∧
      (s.thr.holdsLine (e.loc.key / 64) s.cc = true → s.mem.isPoisoned e.loc.key = false → s.storedAt t e.loc.key 8 e.data.toNat ∧
        ∀ p ∈ s.thr.pend, p.tok = tok → ∃ q ∈ t.thr.pend, q.tok = tok ∧ q.val = 0 ∧ q.ready = true) ∧
      (s.thr.holdsLine (e.loc.key / 64) s.cc = false ∨ s.mem.isPoisoned e.loc.key = true → t.mem = s.mem ∧
        ∀ p ∈ s.thr.pend, p.tok = tok → ∃ q ∈ t.thr.pend, q.tok = tok ∧ q.val = 1 ∧ q.ready = true))

/-- A fence whose thread has nothing older under way passes at once, and one that has, a load under LL or LS, a store under SL or SS, at node
scope or wider an access to another package under any mask, parks with code 26. A sequentially
consistent fence takes the next free window of its core and passes once the announcements of the window are delivered and the
SC operations before it are performed. At node scope or wider a fence takes UCE for a dropped store to a peer. That a fence at thread
scope waits for no store is read from R129 (a) (log 59). -/
def Obligations.FenceCompletes : Prop :=
  ∀ (o : FenceOp) (s : State) (vs : List Word), s.thr.live = true → s.thr.core = s.core.id → s.reads [] .gz = some (s, vs) →
    (s.settled → (7 ≤ o.scope.toNat → s.peersDone s.thr = true) →
      ((7 ≤ o.scope.toNat → s.thr.dropped = none) →
        (o.ord ≠ 3 → exec (.fence o) s = .next (s.retire o.sw)) ∧
        (o.ord = 3 → s.thr.slot = none → ∃ (t : State) (w : Nat), exec (.fence o) s = .next t ∧ t.thr.slot = some w ∧
          t.hem = s.hem ++ [(s.core.id, w)] ∧ s.nextWindow s.core.id w ∧ (t.thr.park.map fun p => p.code) = some 25 ∧
          t.thr.pc = s.thr.pc ∧ t.thr.g = s.thr.g ∧ t.mem = s.mem)) ∧
      (∀ va, 7 ≤ o.scope.toNat → s.thr.dropped = some va →
        exec (.fence o) s = .next ((s.modThr fun t => { t with dropped := none }).trap (cause cUCE va)))) ∧
    (o.scope = 0 → o.ord ≠ 3 → s.thr.phase = 0 → (s.thr.pend.all fun p => !p.load && !p.cache) = true →
      exec (.fence o) s = .next (s.retire o.sw)) ∧
    (∀ w, o.ord = 3 → s.thr.slot = some w → (7 ≤ o.scope.toNat → s.thr.dropped = none) → 8 * w + 72 ≤ s.cc →
      s.scStoreBefore (w, s.core.id) none = false → s.scLoadBefore (w, s.core.id) none = false →
      ∃ t, exec (.fence o) s = .next t ∧ t.thr.slot = none ∧ t.thr.pc = s.thr.pc + 4 ∧ t.thr.g = s.thr.g ∧ t.mem = s.mem ∧ t.core = s.core) ∧
    (s.thr.slot = none →
      (4 ≤ o.mask.toNat ∧ (s.thr.pend.any fun p => p.load) = true) ∨
        (o.mask.toNat % 4 ≠ 0 ∧ s.thr.phase = 0 ∧ ∃ e ∈ s.core.sb, e.num < s.core.sbNum ∧
          (2 ≤ o.scope.toNat ∨ o.scope.toNat = 1 ∧ e.forwards = false)) ∨
        (o.mask.toNat % 4 ≠ 0 ∧ (s.thr.pend.any fun p => p.cache) = true) ∨
        (7 ≤ o.scope.toNat ∧ s.peersDone s.thr = false) →
      ∃ t, exec (.fence o) s = .next t ∧ t.thr.pc = s.thr.pc ∧ t.mem = s.mem ∧ (t.thr.park.map fun p => p.code) = some 26)

/-- The cache operations complete, change no byte of memory but in the entries of their address, and stay outstanding until
they land: CFLUSH leaves no die holding the line, CCLEAN none holding it dirty, CINV not the die of the issuing core. PREF
completes with no result and no trap of translation, and where its line is to be fetched it is a request that holds a slot. WSWAIT passes at
once outside the refresh window of the bank group and parks with code 17 inside it. -/
def Obligations.LineOperations : Prop :=
  (∀ (o : CacheOp) (s s1 s2 : State) (b : Word) (l : Loc), s.thr.live = true → s.reads [o.b] .gz = some (s1, [b]) →
    s1.accessed (b + o.disp.signExtend 64) accLine false false = some (s2, l) → l.cached = true →
    s2.ownBuffered (l.key / 64 * 64) 64 = false → s2.ownPending l [(l.key / 64 * 64, 64)] = false →
    (s2.seamIdle (l.key / 64) = true → ∃ t, exec (.cflush o) s = .next t ∧ t.mem = s2.mem ∧ t.thr.pc = s2.thr.pc + 4 ∧
      t.dirOf (l.key / 64) = none ∧ (∀ d, d < 8 → t.dieHolds d (l.key / 64) = false) ∧
      t.thr.pend.length = s2.thr.pend.length + 1 ∧ (t.thr.pend.getLast?.map fun p => (p.tok, p.cache)) = some (s2.thr.seq, true)) ∧
    (s2.seamIdle (l.key / 64) = true → ∃ t, exec (.cclean o) s = .next t ∧ t.mem = s2.mem ∧ t.thr.pc = s2.thr.pc + 4 ∧
      (∀ d, d < 8 → t.dieDirty d (l.key / 64) = false) ∧
      t.thr.pend.length = s2.thr.pend.length + 1 ∧ (t.thr.pend.getLast?.map fun p => (p.tok, p.cache)) = some (s2.thr.seq, true)) ∧
    (∃ t, exec (.cinv o) s = .next t ∧ t.mem = s2.mem ∧ t.thr.pc = s2.thr.pc + 4 ∧ t.dieHolds (dieOf s2.core.id) (l.key / 64) = false ∧
      t.thr.pend.length = s2.thr.pend.length + 1 ∧ (t.thr.pend.getLast?.map fun p => (p.tok, p.cache)) = some (s2.thr.seq, true))) ∧
  ((∀ (o : PrefOp) (s s1 : State) (b : Word), s.thr.live = true → s.reads [o.b] .gz = some (s1, [b]) →
    s1.thr.sup = false → s1.mustWalk s1.thr (b + o.disp.signExtend 64) 1 = false →
    (∀ e, (b + o.disp.signExtend 64).toNat < 2 ^ 56 → s1.access s1.thr (b + o.disp.signExtend 64) accLine = .error e →
      exec (.pref o) s = .next (s1.finishLong o.sw .gz (Pending.ofVal 0 0))) ∧
    (∀ l, s1.access s1.thr (b + o.disp.signExtend 64) accLine = .ok (l, none) → l.cached = false →
      exec (.pref o) s = .next (s1.finishLong o.sw .gz (Pending.ofVal 0 0))) ∧
    (∀ l x s2, s1.access s1.thr (b + o.disp.signExtend 64) accLine = .ok (l, some x) →
      s2 = s1.touch s1.core.id (s1.tableOf s1.thr) x false s1.thr.launch →
      (l.cached = false ∨ s2.constPage (b + o.disp.signExtend 64).toNat = true ∨ s2.releasing l.key = true ∨
          s2.caps.dless = true ∧ (beyond (l.key / 64) || homeQuad s2.pkg l.key / 64 != dieOf s2.core.id) = true →
        exec (.pref o) s = .next (s2.finishLong o.sw .gz (Pending.ofVal 0 0))) ∧
      (l.cached = true → s2.constPage (b + o.disp.signExtend 64).toNat = false → s2.releasing l.key = false → s2.caps.dless = false →
        (o.hint = 2 → l.place = .hbm → s2.slotFree = true →
          ∃ t, exec (.pref o) s = .next t ∧ (t.msc.any fun m => m.block == l.key / 64 * 64 / 512) = true ∧ t.mem = s2.mem ∧
            t.thr.pc = s2.thr.pc + 4 ∧ (t.thr.pend.getLast?.map fun p => p.slot) = some true) ∧
        (o.hint ≠ 2 → (s2.coreOf s2.core.id).l1Find (l.key / 64) ≠ none →
          exec (.pref o) s = .next (s2.finishLong o.sw .gz (Pending.ofVal 0 0))) ∧
        (o.hint ≠ 2 → (s2.coreOf s2.core.id).l1Find (l.key / 64) = none → s2.slotFree = true →
          exec (.pref o) s = .next ((s2.request (.pref (o.hint = 1)) l false 0 none).finishLong o.sw .gz
            { Pending.awaited true with load := false, line := some (l.key / 64) }))))) ∧
  (∀ (o : CacheOp) (s s1 s2 : State) (b : Word) (l : Loc), s.thr.live = true → s.reads [o.b] .gz = some (s1, [b]) →
    s1.accessed (b + o.disp.signExtend 64) ⟨1, .load, fun _ => false, true, false, false, false⟩ false false = some (s2, l) →
    l.place = .weight (dieOf s2.core.id) →
    (refreshing s2.cc ((l.key - weightBase) % 0x40000000 / 0x1800000) = false → exec (.wswait o) s = .next (s2.retire o.sw)) ∧
    (refreshing s2.cc ((l.key - weightBase) % 0x40000000 / 0x1800000) = true →
      ∃ t, exec (.wswait o) s = .next t ∧ t.thr.pc = s.thr.pc ∧ (s.thr.wake = false → (t.thr.park.map fun p => p.code) = some 17))))

/-! ## Fork and join -/

/-- SPAWN pushes its continuation at the bottom of the deque and goes on at the child with the join frame in g13, and takes
QUEUE with 19 where no place can be made. SRET and WORK resume the newest own entry, and with no entry of the launch on the
core a steal walk begins. SYNC passes when the count of its join word is 0 and parks with code 3 while it is not; a thread
parked so reads its word again after 4,096 cc. A steal request takes the topmost entry of the thief's launch from its next
victim, or passes over one that is disabled, and its reply returns the thief with the entry, or leaves the victims after it. -/
def Obligations.TaskSteals : Prop :=
  ((∀ (o : JOp) (s s1 : State) (fr : Word), s.thr.live = true → s.thr.walk = none → s.reads [.g 14] .gz = some (s1, [fr]) →
    s1.thr.damage.contains 21 = false → s1.killDue = false →
    (s1.core.deque.length < 64 → ∃ (t : State) (e : DqEntry), exec (.spawn o) s = .next t ∧ t.core.deque = s1.core.deque ++ [e] ∧
      e.pc = s1.thr.pc + 4 ∧ e.g11 = s1.thr.g[11] ∧ e.g12 = s1.thr.g[12] ∧ e.g13 = s1.thr.g[13] ∧ e.g14 = fr ∧ e.tb = s1.thr.tb ∧
      e.launch = s1.thr.launch ∧ e.tag = some s1.thr.idx ∧ e.dead = false ∧ t.thr.g = s1.thr.g.set 13 fr ∧
      t.thr.pc = s1.target4 o.off.toInt ∧ t.mem = s1.mem ∧ t.thr.tb = s1.thr.tb) ∧
    (s1.pushDeque s1.core.id ⟨s1.thr.pc + 4, s1.thr.g[11], s1.thr.g[12], s1.thr.g[13], fr, s1.thr.tb, s1.thr.launch, some s1.thr.idx, false⟩ = none →
      exec (.spawn o) s = .next (s.trap (cause cQUEUE 19)))) ∧
  (∀ (i : Instr) (o : S0) (srcs : List Src) (s s1 : State) (vs : List Word) (l : List DqEntry) (e : DqEntry),
    (i = .sret o ∧ srcs = [.g 13]) ∨ (i = .work o ∧ srcs = []) → s.thr.live = true → s.thr.walk = none →
    s.reads srcs .gz = some (s1, vs) → s1.thr.core = s1.core.id → s1.core.deque = l ++ [e] → e.launch = s1.thr.launch →
    e.tag = some s1.thr.idx → e.dead = false → e.tb = maxKey → (∀ x, s1.launchOf s1.thr.launch = some x → x.ovf s1.core.id = 0) →
    ∃ t, exec i s = .next t ∧ t.core.deque = l ∧ t.thr.pc = e.pc ∧ t.thr.tb = e.tb ∧ t.mem = s1.mem ∧ t.net = s1.net ∧
      t.thr.g = (((s1.thr.g.set 11 e.g11).set 12 e.g12).set 13 e.g13).set 14 e.g14) ∧
  (∀ (i : Instr) (o : S0) (srcs : List Src) (s s1 : State) (vs : List Word),
    (i = .sret o ∧ srcs = [.g 13] ∧ vs = [0]) ∨ (i = .work o ∧ srcs = [] ∧ vs = []) → s.thr.live = true → s.thr.walk = none →
    s.reads srcs .gz = some (s1, vs) → s1.thr.core = s1.core.id → (s1.core.deque.all fun e => e.launch != s1.thr.launch) = true →
    (∀ x, s1.launchOf s1.thr.launch = some x → x.ovf s1.core.id = 0) →
    ∃ (t : State) (w : Walk), exec i s = .next t ∧ t.thr.walk = some w ∧ w.reply = none ∧ t.thr.pc = s1.thr.pc ∧ t.thr.g = s1.thr.g ∧
      t.mem = s1.mem ∧ t.core.deque = s1.core.deque ∧ (w.victims ≠ [] → (t.thr.park.map fun p => p.code) = some 22)) ∧
  (∀ (o : S0) (s s1 s2 : State) (fr : Word) (l : Loc), s.thr.live = true → s.thr.walk = none → s.thr.phase = 0 →
    s.reads [.g 14] .gz = some (s1, [fr]) → s1.thr.damage.contains 21 = false → s1.killDue = false → (s1.phase 1).accessed fr (accOrdered .load) true false = some (s2, l) →
    s2.look s2.core [(l.key, 8)] = .memory → (∀ n, s2.serve l false false ≠ .migrate n) → s2.ownOrdered l 8 = false →
    s2.ownPending l [(l.key, 8)] = false → (s2.serve l false false = .remote → s2.slotFree = true) → s2.refreshes l = false →
    s2.reachable s2.core.id l false = true → s2.calm → s2.mem.poisoned [(l.key, 8)] = false →
    (s2.mem.read l.key 8 % 2 ^ 32 = 0 → ∃ t, exec (.sync o) s = .next t ∧ t.thr.pc = s2.thr.pc + 4 ∧ t.mem = s2.mem ∧ t.thr.g = s2.thr.g) ∧
    (s2.mem.read l.key 8 % 2 ^ 32 ≠ 0 → s2.thr.wake = false →
      ∃ t, exec (.sync o) s = .next t ∧ (t.thr.park.map fun p => p.code) = some 3 ∧ t.thr.pc = s2.thr.pc ∧ t.mem = s2.mem)) ∧
  (∀ (s : State) (p : Park), s.thr.live = true → s.thr.park = some p → p.code = 3 →
    (s.cc < p.since + 4096 → exec (.syncRecheck s.thr.core s.thr.frame) s = .fault .notEnabled) ∧
    (p.since + 4096 ≤ s.cc → ∃ t, exec (.syncRecheck s.thr.core s.thr.frame) s = .next t ∧ t.thr = { s.thr with park := none } ∧ t.mem = s.mem))) ∧
  ((∀ (s : State) (v : Nat) (vs : List Nat), s.thr.live = true → s.thr.walk = some ⟨v :: vs, none⟩ → v ≠ s.core.id →
    s.enabled v = true → (s.coreOf v).reset = none → (∀ x, s.launchOf s.thr.launch = some x → x.ovf v = 0) → (s.launchOf s.thr.launch).isSome = true →
    s.thr.core = s.core.id →
    ∃ (t : State) (r : Option DqEntry), exec (.stealRequest s.core.id s.thr.frame v) s = .next t ∧ t.mem = s.mem ∧
      t.thr.walk = some ⟨v :: vs, some r⟩ ∧ r = ((s.coreOf v).deque.find? fun e => e.launch == s.thr.launch) ∧
      (∀ e, r = some e → (t.coreOf v).deque = (s.coreOf v).deque.erase e) ∧ (r = none → (t.coreOf v).deque = (s.coreOf v).deque)) ∧
  (∀ (s : State) (v : Nat) (vs : List Nat), s.thr.live = true → s.thr.walk = some ⟨v :: vs, none⟩ → s.enabled v = false →
    ∃ t, exec (.stealRequest s.thr.core s.thr.frame v) s = .next t ∧ t.thr.walk = some ⟨vs, none⟩ ∧ t.cores = s.cores ∧ t.core = s.core ∧
      t.net = s.net ∧ t.mem = s.mem) ∧
  (∀ (s : State) (v : Nat) (vs : List Nat) (r : Option DqEntry), s.thr.live = true → s.thr.walk = some ⟨v :: vs, some r⟩ →
    ∃ t, exec (.stealReply s.thr.core s.thr.frame) s = .next t ∧ t.mem = s.mem ∧ t.thr.g = s.thr.g ∧ t.thr.pc = s.thr.pc ∧
      (∀ e, r = some e → t.thr.walk = some ⟨[], some (some e)⟩ ∧ t.thr.park = none) ∧
      (r = none → t.thr.walk = some ⟨vs, none⟩ ∧ (vs = [] → t.thr.park = none) ∧ (vs ≠ [] → t.thr.park = s.thr.park))))

/-! ## Messages, queues, anchoring -/

/-- SEND and SENDI send their word to the qrx of the core their place names, within the launch's rectangle and with room there;
a place that names none takes PLACE. The word arrives at the end of that qrx, and a qdn word at the end of that qup. -/
def Obligations.Messages : Prop :=
  (∀ (i : Instr) (sw : Bool) (srcs : List Src) (s s1 : State) (vs : List Word) (v p : Word),
    (∃ o : S2, i = .send o ∧ sw = o.sw ∧ srcs = [o.a, o.b] ∧ vs = [v, p]) ∨
      (∃ o : SendiOp, i = .sendi o ∧ sw = o.sw ∧ srcs = [o.a] ∧ vs = [v] ∧ p = o.p.setWidth 64) →
    s.thr.live = true → s.reads srcs .gz = some (s1, vs) →
    (∀ c, s1.placeOf p = some c → (s1.coreOf c).reset = none → s1.qrxRoom c = true →
      ∃ (t : State) (m : Msg), exec i s = .next t ∧ t.net.sends = s1.net.sends ++ [m] ∧ m.target = c ∧ m.word = v ∧ m.core = s1.core.id ∧
        m.frame = s1.thr.frame ∧ t.thr.pc = s1.thr.pc + 4 ∧ t.thr.g = s1.thr.g ∧ t.mem = s1.mem ∧ t.core = s1.core) ∧
    (s1.placeOf p = none → exec i s = .next (s.trap (cause cPLACE (p &&& 0x3FFF))))) ∧
  (∀ (s : State) (m : Msg), s.net.sends = [m] → s.msgReady [] m = true →
    ∃ t, exec (.qrxMessageArrival 0) s = .next t ∧ t.net.sends = [] ∧ (t.coreOf m.target).qrx = (s.coreOf m.target).qrx ++ [m.word] ∧
      t.mem = s.mem ∧ ∀ n, n ≠ m.target → t.coreOf n = s.coreOf n) ∧
  (∀ (s : State) (m : Msg), s.net.pushes = [m] → s.msgReady [] m = true →
    ∃ t, exec (.qdnPushArrival 0) s = .next t ∧ t.net.pushes = [] ∧ (t.coreOf m.target).qup = (s.coreOf m.target).qup ++ [m.word] ∧
      t.mem = s.mem ∧ ∀ n, n ≠ m.target → t.coreOf n = s.coreOf n)

/-- QCFG gives and takes the queues of a core and binds qdn; WAIT passes with a word in qrx and parks with code 9 at the next
instruction without one, and goes on once its limit has passed, not before; ANCH and ROAM take and release the engines. -/
def Obligations.QueuesAndEngines : Prop :=
  (∀ (o : S2) (s s1 : State) (a b : Word), s.thr.live = true → s.reads [o.a, o.b] .gz = some (s1, [a, b]) →
    (a.getLsbD 0 = false → s1.core.qOwner = some s1.thr.frame →
      exec (.qcfg o) s = .next ({ s1 with core := { s1.core with qOwner := none, qdn := none } }.retire o.sw)) ∧
    (a.getLsbD 0 = true → s1.core.qOwner = none ∨ s1.core.qOwner = some s1.thr.frame →
      (a.getLsbD 1 = false →
        exec (.qcfg o) s = .next ({ s1 with core := { s1.core with qOwner := some s1.thr.frame, qdn := none } }.retire o.sw)) ∧
      (∀ c, a.getLsbD 1 = true → s1.placeOf b = some c →
        exec (.qcfg o) s = .next ({ s1 with core := { s1.core with qOwner := some s1.thr.frame, qdn := some c } }.retire o.sw))) ∧
    (∀ f, a.getLsbD 0 = true → s1.core.qOwner = some f → f ≠ s1.thr.frame → exec (.qcfg o) s = .next (s.trap (cause cQUEUE 20)))) ∧
  (∀ (o : S1) (s s1 : State) (a : Word), s.thr.live = true → s.core.qOwner = some s.thr.frame → s.reads [o.a] .gz = some (s1, [a]) →
    (s1.core.qrx ≠ [] → exec (.wait o) s = .next (s1.retire true)) ∧
    (s1.core.qrx = [] → ∃ (t : State) (p : Park), exec (.wait o) s = .next t ∧ t.thr.park = some p ∧ p.code = 9 ∧ p.since = s1.cc ∧
      p.until? = (if a = 0 then none else some (s1.cc + a.toNat)) ∧ t.thr.pc = s1.thr.pc + 4 ∧ t.thr.g = s1.thr.g ∧ t.mem = s1.mem)) ∧
  (∀ (o : S1) (s : State), s.thr.live = true → s.core.qOwner ≠ some s.thr.frame → exec (.wait o) s = .next (s.trap (cause cQUEUE 18))) ∧
  (∀ (s : State) (p : Park) (u : Nat), s.thr.live = true → s.thr.park = some p → p.code = 9 → p.until? = some u → s.thr.pend = [] →
    (s.cc < u → exec (.waitTimeout s.thr.core s.thr.frame) s = .fault .notEnabled) ∧
    (u ≤ s.cc → ∃ t, exec (.waitTimeout s.thr.core s.thr.frame) s = .next t ∧ t.thr = { s.thr with park := none } ∧ t.mem = s.mem)) ∧
  (∀ (o : S0) (s s1 : State) (vs : List Word), s.thr.live = true → s.thr.core = s.core.id → s.reads [] .gz = some (s1, vs) →
    (s1.thr.anchored = true → exec (.anch o) s = .next (s1.retire o.sw)) ∧
    (s1.thr.anchored = false → s1.core.eng.owner = none →
      ∃ t, exec (.anch o) s = .next t ∧ t.core.eng.owner = some s1.thr.frame ∧ t.thr.anchored = true ∧ t.thr.pc = s1.thr.pc + 4 ∧
        t.thr.g = s1.thr.g ∧ t.mem = s1.mem) ∧
    (s1.thr.anchored = false → s1.core.eng.owner ≠ none →
      ∃ t, exec (.anch o) s = .next t ∧ (t.thr.park.map fun p => p.code) = some 11 ∧ t.thr.pc = s1.thr.pc)) ∧
  (∀ (o : S0) (s s1 : State) (vs : List Word), s.thr.live = true → s.reads [] .gz = some (s1, vs) →
    (s1.thr.anchored = false → exec (.roam o) s = .next (s1.retire o.sw)) ∧
    (s1.thr.anchored = true → s1.core.eng.coll = none → s1.core.eng.busyFor s1.thr.frame = false →
      (s1.all.all fun t => (t.park.map fun p => p.code) != some 11) = true →
      ∃ t, exec (.roam o) s = .next t ∧ t.thr.anchored = false ∧ t.core.eng.owner = none ∧ t.thr.pc = s1.thr.pc + 4 ∧ t.thr.g = s1.thr.g ∧
        t.mem = s1.mem))

/-- FORK and FORKI, once released, start a thread at their entry in a free position of the core they name and return 1, or
return 0 with no place there, and so while the core is in reset; at position 0 of a launch with ANC the thread starts anchored, or as a
parked ANCH where the engines are held; their traps are those of the place, of the rectangle and of the entry's alignment. That a core in reset
has no place is the model's choice (log 45). -/
def Obligations.Forks : Prop :=
  ∀ (i : Instr) (sw : Bool) (d : Dst) (srcs : List Src) (s s1 : State) (vs : List Word) (pc p : Word) (l : Launch),
    (∃ o : R3, i = .fork o ∧ sw = o.sw ∧ d = o.d ∧ srcs = [o.a, o.b] ∧ vs = [pc, p]) ∨
      (∃ o : ForkiOp, i = .forki o ∧ sw = o.sw ∧ d = o.d ∧ srcs = [o.a] ∧ vs = [pc] ∧ p = o.p.setWidth 64) →
    s.thr.live = true → s.readsLong srcs d = some (s1, vs) → s1.thr.isSup = false → s1.launchOf s1.thr.launch = some l → l.id = s1.thr.launch →
    ((placeWord p).bind s1.resolvePlace = none → exec i s = .next (s.trap (cause cPLACE (p &&& 0x3FFF)))) ∧
    (∀ c, (placeWord p).bind s1.resolvePlace = some c →
      (l.info.holds s1.pkg c = false → exec i s = .next (s.trap (cause cPLACE (p &&& 0x3FFF)))) ∧
      (l.info.holds s1.pkg c = true → userPc pc.toNat = false → exec i s = .next (s.trap (cause cALIGN pc))) ∧
      (l.info.holds s1.pkg c = true → userPc pc.toNat = true → s1.thr.damage.contains 21 = false → s1.settled →
        (∀ q f r, (s1.coreOf c).reset = none → (s1.freePos c).find? (fun x => decide (x ≤ l.info.tpc)) = some q → s1.freeFrames c = f :: r →
          ∃ (t : State) (u : Thread), exec i s = .next t ∧ u ∈ t.threads ∧ u.core = c ∧ u.frame = f ∧ u.pos = some q ∧ u.pc = pc ∧
            u.launch = l.id ∧ u.g[1] = l.info.args ∧ u.g[2] = BitVec.ofNat 64 q ∧ u.tb = s1.thr.tb ∧ u.live = true ∧
            (l.info.anc = true → q = 0 → (s1.coreOf c).eng.owner = none → u.anchored = true ∧ (t.coreOf c).eng.owner = some f) ∧
            (l.info.anc = true → q = 0 → (s1.coreOf c).eng.owner ≠ none → (u.park.map fun p => p.code) = some 11) ∧
            (t.thr.pend.getLast?.map fun x => x.val) = some 1 ∧ t.thr.pc = s1.thr.pc + 4 ∧ t.mem = s1.mem) ∧
        ((s1.coreOf c).reset.isSome = true ∨ (s1.freePos c).find? (fun x => decide (x ≤ l.info.tpc)) = none ∨ s1.freeFrames c = [] →
          ∃ t, exec i s = .next t ∧ (t.thr.pend.getLast?.map fun x => x.val) = some 0 ∧ t.threads = s1.threads ∧
            t.thr.pc = s1.thr.pc + 4 ∧ t.mem = s1.mem)))

/-! ## Barriers -/

/-- BARCFG makes the launch the holder with the count and the limit given and no arrival, and refuses a count of 0 with PROT.
BARW and BART of the holder count an arrival: below the count BARW parks with code 6 and BART goes on; at the count the
generation goes up by one, its arrivals are 0 again and every thread parked on it goes on. BARQ returns the generation. A
generation whose limit has passed traps its waiters with BARTO and ends; an arrival that comes after the limit counts in the next one. -/
def Obligations.Barriers : Prop :=
  (∀ (o : S2) (s s1 : State) (a v : Word) (b : Barrier), s.thr.live = true → s.reads [o.a, o.b] .gz = some (s1, [a, v]) →
    s1.selBarrier a = some b →
    (fieldOf v 0 16 = 0 → exec (.barcfg o) s = .next (s.trap (cause cPROT a))) ∧
    (fieldOf v 0 16 ≠ 0 → b.holder = none →
      ∃ t, exec (.barcfg o) s = .next t ∧ t.thr.pc = s1.thr.pc + 4 ∧ t.mem = s1.mem ∧ t.thr.g = s1.thr.g ∧
        t.selBarrier a = some { b with holder := some s1.thr.launch, count := fieldOf v 0 16, timeout := fieldOf v 16 32, arrived := 0, first := 0 })) ∧
  (∀ (i : Instr) (o : S1) (s s1 : State) (a : Word) (b : Barrier), (i = .barw o ∨ i = .bart o) → s.thr.live = true →
    s.reads [o.a] .gz = some (s1, [a]) → s1.selBarrier a = some b → b.holder = some s1.thr.launch → s1.settled →
    (b.overdue s1.cc = false → b.arrived + 1 < b.count → ∃ t, exec i s = .next t ∧
      t.selBarrier a = some { b with arrived := b.arrived + 1, first := if b.arrived = 0 then s1.cc else b.first } ∧ t.mem = s1.mem ∧
      (i = .bart o → t.thr.pc = s1.thr.pc + 4) ∧
      (i = .barw o → t.thr.pc = s1.thr.pc ∧ (t.thr.park.map fun p => p.code) = some 6)) ∧
    (b.overdue s1.cc = true → 1 < b.count → s1.parkedOn b = [] → ∃ t, exec i s = .next t ∧
      t.selBarrier a = some { b with gen := b.gen + 1, arrived := 1, first := s1.cc } ∧ t.mem = s1.mem) ∧
    (b.overdue s1.cc = false → b.count ≤ b.arrived + 1 → s1.thr.park = none → ∃ t, exec i s = .next t ∧ t.selBarrier a = some { b with gen := b.gen + 1, arrived := 0, first := 0 } ∧
      t.thr.pc = s1.thr.pc + 4 ∧ t.mem = s1.mem ∧
      ∀ u ∈ s1.threads, u.park.any (fun p => p.code == 6 && p.key == barKey b.scope b.group b.idx) = true → u.pend = [] →
        { u with pc := u.pc + 4, phase := 0, skipWatch := none, walked := none, popped := [], park := none } ∈ t.threads)) ∧
  (∀ (o : R2) (s s1 : State) (a : Word) (b : Barrier), s.thr.live = true → s.readsLong [o.a] o.d = some (s1, [a]) → s1.selBarrier a = some b →
    b.holder = some s1.thr.launch → b.overdue s1.cc = false → exec (.barq o) s = .next (s1.finishLong o.sw o.d (Pending.ofVal (b.gen.setWidth 64) 0))) ∧
  (∀ (s : State) (b : Barrier), s.bars = [b] → b.arrived ≠ 0 → b.timeout ≠ 0 →
    (s.cc < b.first + b.timeout → exec (.barrierTimeout 0) s = .fault .notEnabled) ∧
    (b.first + b.timeout ≤ s.cc → ∃ t, exec (.barrierTimeout 0) s = .next t ∧ t.bars = [{ b with gen := b.gen + 1, arrived := 0, first := 0 }] ∧
      t.mem = s.mem ∧
      (s.thr.live = true → s.threads = [] → s.thr.park.any (fun p => p.code == 6 && p.key == barKey b.scope b.group b.idx) = true →
        t.thr = (s.trap (cause cBARTO (BitVec.ofNat 64 (b.idx + b.scope * 16 + b.gen.toNat * 2 ^ 32)))).thr)))

/-! ## The answer table -/

/-- The producer of an entry whose callee passes the checks of R365: a first TCALL or TCALLR of a key makes the thread its
producer and goes to the callee with the link in g15; a call of a complete key goes on with the answer in g1. A TRET of
its own entry completes it with g1 and leaves by g15; TABORT of a thread that waits for no entry abandons what it produces;
TLOOK returns the state of an entry and changes none. None writes a byte of memory but in the table entries that translate
the descriptor. That an address left by has its two low bits 0 is the model's choice (log 64). -/
def Obligations.TableCalls : Prop :=
  (∀ (i : Instr) (srcs : List Src) (s s1 : State) (vs : List Word) (c : Word) (d : TDesc),
    (∃ o : JOp, i = .tcall o ∧ srcs = [] ∧ c = s1.target4 o.off.toInt) ∨ (∃ o : S1, i = .tcallr o ∧ srcs = [o.a] ∧ vs = [c]) →
    s.thr.live = true → s.thr.walk = none → s.reads srcs .gz = some (s1, vs) → s1.mustWalk s1.thr (c - 16) 8 = false →
    s1.descOf i c = .ok d → (∀ n : Fin 16, 1 ≤ n.1 → n.1 ≤ d.argc → s1.plainReg n) → s1.thr.damage.contains 21 = false → s1.killDue = false →
    (∀ e, s1.entryOf (s1.keyOf d c) = some e → e.state = .complete →
      ∃ t, exec i s = .next t ∧ t.thr.g[1] = e.answer ∧ t.thr.g[15] = s1.thr.pc + 4 ∧ t.thr.pc = aligned (s1.thr.pc + 4) ∧
        ∀ a, (∀ x ∈ s1.entriesOf (c - 16), a < x ∨ x + 8 ≤ a) → t.byteAt a = s1.byteAt a) ∧
    (s1.entryOf (s1.keyOf d c) = none → s1.table.entries.length < 8 → s1.table.groups = [] →
      ∃ (t : State) (e : TEntry), exec i s = .next t ∧ t.entryOf (s1.keyOf d c) = some e ∧ e.state = .producing ∧
        e.producer = some s1.thr.tid ∧ e.join = d.join ∧ t.thr.pc = c ∧ t.thr.g[15] = s1.thr.pc + 4 ∧
        ∀ a, (∀ x ∈ s1.entriesOf (c - 16), a < x ∨ x + 8 ≤ a) → t.byteAt a = s1.byteAt a)) ∧
  (∀ (o : S0) (s : State) (link : Word) (k : TKey) (r : List (Option TKey)) (e : TEntry), s.thr.live = true → s.thr.walk = none →
    s.reads [.g 15] .gz = some (s, [link]) → s.stackOf s.thr.tid = some k :: r → s.plainReg 1 → s.settled →
    s.entryOf k = some e → e.producer = some s.thr.tid → e.group = none → e.consumers = [] →
    ∃ (t : State) (u : TEntry), exec (.tret o) s = .next t ∧ t.entryOf k = some u ∧ u.state = .complete ∧ u.answer = s.thr.g[1] ∧ u.producer = none ∧
      t.thr.pc = aligned link ∧ t.mem = s.mem ∧ t.stackOf s.thr.tid = r) ∧
  (∀ (o : S0) (s s1 : State) (vs : List Word), s.thr.live = true → s.reads [] .gz = some (s1, vs) →
    (∀ e ∈ s1.table.entries, s1.thr.tid ∉ e.consumers) →
    ∃ t, exec (.tabort o) s = .next t ∧ t.thr.pc = s1.thr.pc + 4 ∧ t.mem = s1.mem ∧ t.stackOf s1.thr.tid = [] ∧
      ∀ k e, s1.stackOf s1.thr.tid = [some k] → s1.entryOf k = some e → e.producer = some s1.thr.tid → e.group = none → e.consumers = [] →
        ∃ u, t.entryOf k = some u ∧ u.state = .abandoned ∧ u.producer = none ∧ u.fault = e.fault) ∧
  (∀ (o : R2) (s s1 : State) (c : Word) (d : TDesc), s.thr.live = true → s.readsLong [o.a] o.d = some (s1, [c]) →
    s1.mustWalk s1.thr (c - 16) 8 = false → s1.descOf (.tlook o) c = .ok d → (∀ n : Fin 16, 1 ≤ n.1 → n.1 ≤ d.argc → s1.plainReg n) →
    ∃ t, exec (.tlook o) s = .next t ∧ t.thr.pc = s1.thr.pc + 4 ∧ t.thr.g = s1.thr.g ∧
      (∀ a, (∀ x ∈ s1.entriesOf (c - 16), a < x ∨ x + 8 ≤ a) → t.byteAt a = s1.byteAt a) ∧
      (t.thr.pend.drop s1.thr.pend.length).head?.map (fun p => (p.dst, p.val)) =
        some (o.d, match s1.entryOf (s1.keyOf d c) with
          | none => 0
          | some e => BitVec.ofNat 64 e.state.code) ∧
      ∀ e, s1.entryOf (s1.keyOf d c) = some e → e.state = .complete →
        (t.thr.pend.getLast?.map fun p => (p.dst, p.val)) = some (.g 1, e.answer))

/-- TFLUSH removes every entry of a table id that no launch owns and frees the id; its thread waits for the slices, at most 65,536
cc, in which time a record naming the id waits at the launcher, and then goes on. A group closes once no member has a
producer: clean, its members are complete with their provisional answers and the leader goes on; dirty, the leader produces
its entry again in the next pass. -/
def Obligations.TableFlushAndGroups : Prop :=
  (∀ (o : S1) (s s1 : State) (a : Word), s.thr.live = true → s.thr.sup = true → s.reads [o.a] .gz = some (s1, [a]) →
    (s.thr.phase < flushKey → (s1.launcher.tables.any fun x => x.1 == a.toNat % 16 && (s1.launchOf x.2).any Launch.live) = true →
      exec (.tflush o) s = .next (s.trap (cause cPROT a))) ∧
    (s.thr.phase < flushKey → (s1.launcher.tables.any fun x => x.1 == a.toNat % 16 && (s1.launchOf x.2).any Launch.live) = false → s.table.groups = [] →
      (s.table.entries.all fun e => e.consumers == [] && e.group == none) = true →
      ∃ t, exec (.tflush o) s = .next t ∧ t.table.entries = s.table.entries.filter (fun e => e.key.table != a.toNat % 16) ∧
        t.mem = s.mem ∧ t.thr.pc = s.thr.pc ∧ (s.thr.wake = false → (t.thr.park.map fun p => p.code) = some 16) ∧ flushKey ≤ t.thr.phase ∧ s.cc < t.thr.phase - flushKey ∧
        t.thr.phase - flushKey ≤ s.cc + 65536 ∧ (∀ w : BitVec 16, w.getLsbD (a.toNat % 16) = true → t.flushing w = true) ∧
        (t.launcher.tables.all fun x => x.1 != a.toNat % 16) = true) ∧
    (flushKey ≤ s.thr.phase → s.thr.phase - flushKey ≤ s.cc →
      ∃ t, exec (.tflush o) s = .next t ∧ t.thr.pc = s1.thr.pc + 4 ∧ t.table = s1.table ∧ t.mem = s1.mem)) ∧
  (∀ (s : State) (g : TGroup) (e : TEntry) (p : Park), s.table.groups = [g] → s.table.entries = [e] → e.group = some g.id → e.producer = none →
    e.consumers = [] → g.tainted = [] → s.thr.live = true → s.threads = [] → s.thr.pend = [] → s.thr.park = some p → p.code = 5 → p.key = e.stamp →
    (g.dirty = false → ∃ (t : State) (u : TEntry), exec (.tableGroupClose g.id) s = .next t ∧ t.table.groups = [] ∧ t.table.entries = [u] ∧
      u.state = .complete ∧ u.answer = e.prov ∧ u.group = none ∧ t.thr.park = none ∧ t.thr.g[1] = e.prov ∧ t.mem = s.mem) ∧
    (g.dirty = true → g.pass + 1 < 65536 → ∃ (t : State) (u : TEntry), exec (.tableGroupClose g.id) s = .next t ∧ t.table.entries = [u] ∧
      u.pass = g.pass + 1 ∧ u.producer = some s.thr.tid ∧ u.state = e.state ∧ t.thr.pc = aligned e.key.callee ∧ t.mem = s.mem))

/-! ## Search -/

/-- BND binds the incumbent to the launch and sets the thread's bound and index; INCU sends its pair to the master and INCR
reads it, and both take PROT where the launch has not bound it; an update that arrives replaces key and tag exactly where its key is smaller, and the change is announced; a core's local
copy holds it 72 cc after the change, and before that only once it has taken it, the key it held until then being that of the last
change it holds. INCINIT sets master and mirror in supervisor mode while no live launch has bound the incumbent, and goes on once its
announcement has been delivered. BCHK passes while no kill is due. That INCU and INCR bind nothing is read from R376 (log 24). -/
def Obligations.Incumbents : Prop :=
  (∀ (o : KOp) (s s1 : State) (a : Word), s.thr.live = true → s.reads [o.a] .gz = some (s1, [a]) →
    (∀ s2, s1.bind o.k.1 = .ok s2 → ∃ t, exec (.bnd o) s = .next t ∧ t.thr.tb = a ∧ fieldOf t.thr.st 13 3 = o.k.1 ∧ t.thr.pc = s2.thr.pc + 4 ∧
      t.thr.g = s2.thr.g ∧ t.mem = s2.mem ∧ t.launcher = s2.launcher) ∧
    (∀ ti, s1.bind o.k.1 = .error ti → ti = cause cPROT (BitVec.ofNat 64 o.k.1) ∧ exec (.bnd o) s = .next (s.trap ti))) ∧
  (∀ (o : K2Op) (s s1 : State) (a b : Word), s.thr.live = true → s.reads [o.a, o.b] .gz = some (s1, [a, b]) →
    (s1.boundInc o.k.1 = true → ∃ (t : State) (m : IncMsg), exec (.incu o) s = .next t ∧ t.inc.msgs = s1.inc.msgs ++ [m] ∧ m.k = o.k.1 ∧
      m.key = a ∧ m.tag = b ∧ t.thr.pc = s1.thr.pc + 4 ∧ t.inc.key = s1.inc.key ∧ t.mem = s1.mem ∧ t.thr.g = s1.thr.g) ∧
    (s1.boundInc o.k.1 = false → exec (.incu o) s = .next (s.trap (cause cPROT (BitVec.ofNat 64 o.k.1))))) ∧
  (∀ (o : IncrOp) (s s1 : State) (vs : List Word), s.thr.live = true →
    s.readsLong [] (if o.d == .qdn then o.d else o.b) = some (s1, vs) →
    (s1.boundInc o.k.1 = true → ∃ t, exec (.incr o) s = .next t ∧ t.thr.pc = s1.thr.pc + 4 ∧ t.thr.g = s1.thr.g ∧ t.mem = s1.mem ∧ t.inc = s1.inc ∧
      ((t.thr.pend.drop s1.thr.pend.length).map fun p => (p.dst, p.val)) = [(o.d, s1.inc.key[o.k]), (o.b, s1.inc.tag[o.k])]) ∧
    (s1.boundInc o.k.1 = false → exec (.incr o) s = .next (s.trap (cause cPROT (BitVec.ofNat 64 o.k.1))))) ∧
  (∀ (s : State) (m : IncMsg) (k : Fin 8), s.inc.msgs = [m] → m.k = k.1 → s.ordered m.core m.frame m.num m.tok 6 = true →
    ∃ t, exec (.incumbentUpdateApply 0) s = .next t ∧ t.inc.msgs = [] ∧
      (m.key.toInt < s.inc.key[k].toInt → t.inc.key = s.inc.key.set k m.key ∧ t.inc.tag = s.inc.tag.set k m.tag ∧
        t.inc.mirrorKey[k] = m.key ∧ t.inc.pubs = s.inc.pubs ++ [⟨k.1, m.key, s.cc, []⟩] ∧ t.inc.local_ = s.inc.local_) ∧
      (s.inc.key[k].toInt ≤ m.key.toInt → t.inc.key = s.inc.key ∧ t.inc.tag = s.inc.tag ∧ t.inc.pubs = s.inc.pubs ∧ t.mem = s.mem)) ∧
  (∀ (s : State) (p : IncPub) (core : Nat) (k : Fin 8), s.inc.pubs = [p] → p.k = k.1 →
    (p.since + 72 ≤ s.cc → s.localInc core k = p.key ∧ s.settleIncs.inc.pubs = [] ∧ s.settleIncs.inc.local_ = s.inc.local_.set k p.key) ∧
    (s.cc < p.since + 72 → s.settleIncs = s ∧
      (p.got = [] → s.localInc core k = s.inc.local_[k] ∧ ∃ t, s.takeInc core = .next t ∧ t.localInc core k = p.key ∧
        (∀ n, n ≠ core → t.localInc n k = s.inc.local_[k]) ∧ t.inc.key = s.inc.key))) ∧
  (∀ (o : K2Op) (s s1 : State) (a b : Word), s.thr.live = true → s.thr.sup = true → s.reads [o.a, o.b] .gz = some (s1, [a, b]) → s1.settled →
    ((s1.launcher.list.any fun l => l.live && l.incs.contains o.k.1) = false → ∃ t, exec (.incinit o) s = .next t ∧
      t.inc.key = s.inc.key.set o.k a ∧ t.inc.tag = s.inc.tag.set o.k b ∧ t.inc.mirrorKey = s.inc.mirrorKey.set o.k a ∧
      t.inc.mirrorTag = s.inc.mirrorTag.set o.k b ∧ t.inc.pubs = s.inc.pubs ++ [⟨o.k.1, a, s.cc, []⟩] ∧ t.thr.phase = incKey ∧
      t.thr.g = s.thr.g ∧ t.mem = s.mem) ∧
    ((s1.launcher.list.any fun l => l.live && l.incs.contains o.k.1) = true →
      exec (.incinit o) s = .next (s.trap (cause cPROT (BitVec.ofNat 64 o.k.1))))) ∧
  (∀ (o : K2Op) (s s1 : State) (a b : Word), s.thr.live = true → s.thr.sup = true → s.reads [o.a, o.b] .gz = some (s1, [a, b]) →
    s.thr.phase = incKey → (s.inc.pubs.any fun p => p.k == o.k.1) = false → exec (.incinit o) s = .next (s1.retire o.sw)) ∧
  (∀ (o : S0) (s s1 : State) (vs : List Word), s.thr.live = true → s.thr.walk = none → s.reads [] .gz = some (s1, vs) →
    s1.thr.damage.contains 21 = false → s1.killDue = false → exec (.bchk o) s = .next (s1.retire o.sw))

/-! ## Futures -/

/-- FTEST returns the status of the future its register names; FWAIT parks with code 18 while the future is pending and passes
once it has resolved; MOVH copies the handle with its tag; FCANCEL resolves a pending future of the launch as cancelled, where
its operation does not still have to stop or to run to its end, and leaves a resolved one and one of another launch. None delivers the value. Of a register with no handle FTEST returns 5, FWAIT and FCANCEL pass, and MOVH copies the value. -/
def Obligations.FutureWords : Prop :=
  (∀ (s : State) (n m : Fin 16) (sw : Bool), s.thr.live = true → s.thr.damage = [] → s.plainReg n →
    exec (.ftest ⟨sw, .g m, .g n⟩) s = .next (s.finishLong sw (.g m) (Pending.ofVal 5 0)) ∧
    exec (.fwait ⟨sw, .g n⟩) s = .next (s.retire sw) ∧ exec (.fcancel ⟨sw, .g n⟩) s = .next (s.retire sw) ∧
    exec (.movh ⟨sw, .g m, .g n⟩) s = .next (s.finish sw (.g m) s.thr.g[n])) ∧
  ∀ (s : State) (n : Fin 16) (fu : Future), s.thr.live = true → s.thr.damage = [] → s.thr.tagged n.1 = true →
    s.futureOf s.thr.g[n] = some fu →
    (∀ (sw : Bool) (m : Fin 16), exec (.ftest ⟨sw, .g m, .g n⟩) s =
      .next (s.finishLong sw (.g m) (Pending.ofVal (match fu.status with
        | .pending => 0
        | .done => 1
        | .resid => 2
        | .engf => 3
        | .cancelled => 4) 0))) ∧
    (∀ sw, (fu.status ≠ .pending → exec (.fwait ⟨sw, .g n⟩) s = .next (s.retire sw)) ∧
      (fu.status = .pending → exec (.fwait ⟨sw, .g n⟩) s = .next (s.parkOn 18 (BitVec.ofNat 64 n.1) 0))) ∧
    (∀ (sw : Bool) (m : Fin 16), ∃ t, exec (.movh ⟨sw, .g m, .g n⟩) s = .next t ∧ t.thr.g = s.thr.g.set m s.thr.g[n] ∧ t.thr.tagged m.1 = true ∧
      t.thr.pc = s.thr.pc + 4 ∧ t.core = s.core ∧ t.mem = s.mem) ∧
    (∀ sw, fu.status ≠ .pending → exec (.fcancel ⟨sw, .g n⟩) s = .next (s.retire sw)) ∧
    (∀ sw, fu.status = .pending → s.ownsFuture fu = false → exec (.fcancel ⟨sw, .g n⟩) s = .next (s.retire sw)) ∧
    (∀ sw, fu.status = .pending → s.ownsFuture fu = true → s.thr.g[n].toNat / 64 = s.core.id →
      ∃ (t : State) (fv : Future), exec (.fcancel ⟨sw, .g n⟩) s = .next t ∧ t.futureOf s.thr.g[n] = some fv ∧
        fv.status = (if s.core.eng.keeps (s.thr.g[n].toNat % 64) then .pending else .cancelled) ∧ t.thr.g = s.thr.g ∧
        t.thr.pc = s.thr.pc + 4 ∧ t.mem = s.mem)

/-! ## The launcher -/

/-- A launch window takes 8-byte words into a slot that is not busy, word 15 making it busy; a word for a busy slot is discarded
and sets a bit of LWERR, as a narrow write sets another, and a bit written 1 is cleared. A busy slot frees, whatever has become
of the link, as its record reaches the launcher, once the supervisor threads of the boot have started. -/
def Obligations.LaunchWindows : Prop :=
  (∀ (s : State) (seam slot : Nat), s.windowUp seam = true → slot < 64 →
    (∀ (i : Nat) (h : i < 15) (v : Word), (s.winSlot seam slot).busy = false →
      ∃ t, exec (.launchSlotWordWrite seam slot i v) s = .next t ∧ t.mem = s.mem ∧ t.launcher.lwerr = s.launcher.lwerr ∧
        t.winSlot seam slot = { s.winSlot seam slot with words := (s.winSlot seam slot).words.set i v }) ∧
    (∀ v : Word, (s.winSlot seam slot).busy = false →
      ∃ t, exec (.launchSlotFinalWord seam slot v) s = .next t ∧ t.mem = s.mem ∧
        t.winSlot seam slot = { s.winSlot seam slot with words := (s.winSlot seam slot).words.set 15 v, busy := true }) ∧
    (∀ (i : Nat) (v : Word) (ins : Instr), (s.winSlot seam slot).busy = true →
      (ins = .launchSlotWordWrite seam slot i v ∧ i < 15) ∨ ins = .launchSlotFinalWord seam slot v →
      ∃ t, exec ins s = .next t ∧ t.mem = s.mem ∧ t.winSlot seam slot = s.winSlot seam slot ∧
        ∀ h : seam < 2, (t.launcher.lwerr[seam]).getLsbD 0 = true) ∧
    (∀ h : seam < 2, ∃ t, exec (.launchWindowNarrowWrite seam) s = .next t ∧ t.launcher.slots = s.launcher.slots ∧
      t.launcher.lwerr[seam] = s.launcher.lwerr[seam] ||| 2) ∧
    (∀ (h : seam < 2) (v : Word), ∃ t, exec (.lwerrWrite seam v) s = .next t ∧ t.launcher.slots = s.launcher.slots ∧
      t.launcher.lwerr[seam] = s.launcher.lwerr[seam] &&& ~~~(v.setWidth 2))) ∧
  ∀ (s : State) (seam slot : Nat), (s.winSlot seam slot).busy = true → s.bootDone = true →
    s.flushing (BitVec.ofNat 16 (fieldOf ((s.winSlot seam slot).words.toList.getD 4 0) 0 16)) = false →
    ∃ (t s1 : State), exec (.launchSlotFree seam slot) s = .next t ∧
      t = s1.submit (fun i => (s.winSlot seam slot).words.toList.getD i 0) 0 none ∧
      s1 = { s with launcher := { s.launcher with slots := s1.launcher.slots } } ∧ (t.winSlot seam slot).busy = false ∧
      ∀ x y, (x, y) ≠ (seam, slot) → t.winSlot x y = s.winSlot x y

/-- A record that reaches the launcher is refused by the first condition of R72 that it meets: reserved fields, DEPK 3, an ENTRY that is no
user multiple of 4, a tenant or priority that its issuer may not give, 0x10; an origin or a rectangle that is not there, 0x11; a table id that a
live launch owns, 0x12; too small an area, 0x13; a core in fixed mode with fewer positions than TPC + 1, 0x11; an incumbent that another tenant's
live launch has bound, 0x14. It is accepted under the next LAUNCHID where none refuses it, and starts
nothing where one does. LAUNCH of a record it may read parks with code 13 and its request stands at the launcher; once
released, the record is judged and the thread goes on. A pointer that is not a multiple of 128 takes ALIGN. -/
def Obligations.LaunchRecords : Prop :=
  (∀ (s : State) (w : Nat → Word) (from_ : Nat) (issuer : Option (Nat × Nat)) (origin : Option Nat),
    origin = (resolvePlace s.pkg from_ (fieldOf (w 1) 0 14)).filter s.enabled →
    (∀ (r : LaunchRec) (fields place tables area fixed bound : Prop), r = LaunchRec.ofWords w (origin.getD 0) →
      fields = ((∃ t p, issuer = some (t, p) ∧ (r.tenant ≠ t ∨ p < r.prio)) ∨ (w 1).toNat / 2 ^ 14 % 4 ≠ 0 ∨ (w 1).toNat / 2 ^ 46 ≠ 0 ∨
        (w 4).toNat / 2 ^ 16 ≠ 0 ∨ (w 8).toNat / 4 ≠ 0 ∨ (∃ i, 11 ≤ i ∧ i ≤ 15 ∧ w i ≠ 0) ∨ (w 8).toNat % 4 = 3 ∨
        2 ^ 56 ≤ (w 0).toNat ∨ (w 0).toNat % 4 ≠ 0) →
      place = (origin = none ∨ 15 < r.y + r.exty ∨ 15 < r.x + r.extx ∨ s.pkg.dies < r.extd + 1) →
      tables = (∃ t < 16, r.tables.getLsbD t = true ∧ ∃ x ∈ s.launcher.tables, x.1 = t ∧ (s.launchOf x.2).any Launch.live = true) →
      area = (r.spillsz.toNat < (s.rectCores r).length * ((r.tpc + 1) * 256 + (if r.anc then 16384 else 0))) →
      fixed = (∃ c ∈ s.rectCores r, (s.coreOf c).positions < r.tpc + 1) →
      bound = (r.incb = true ∧ ∃ l ∈ s.launcher.list, l.live = true ∧ l.info.tenant ≠ r.tenant ∧ r.incx ∈ l.incs) →
      (fields → s.recordCode w origin issuer = 0x10) ∧ (¬fields → place → s.recordCode w origin issuer = 0x11) ∧
      (¬fields → ¬place → tables → s.recordCode w origin issuer = 0x12) ∧
      (¬fields → ¬place → ¬tables → area → s.recordCode w origin issuer = 0x13) ∧
      (¬fields → ¬place → ¬tables → ¬area → fixed → s.recordCode w origin issuer = 0x11) ∧
      (¬fields → ¬place → ¬tables → ¬area → ¬fixed → bound → s.recordCode w origin issuer = 0x14) ∧
      (¬fields → ¬place → ¬tables → ¬area → ¬fixed → ¬bound → s.recordCode w origin issuer = 0)) ∧
    (s.recordCode w origin issuer = 0 → ∃ l ∈ (s.submit w from_ issuer).launcher.list, l.id = s.launcher.nextId ∧
      l.info = LaunchRec.ofWords w (origin.getD 0) ∧ (s.submit w from_ issuer).launcher.nextId = s.launcher.nextId + 1 ∧
      (l.info.depk = 0 → l.status = .queued) ∧ (s.noDeps → l.info.depk ≠ 1 → (s.submit w from_ issuer).mem = s.mem)) ∧
    (s.recordCode w origin issuer ≠ 0 → (s.submit w from_ issuer).launcher.nextId = s.launcher.nextId ∧
      (s.submit w from_ issuer).launcher.list.length = s.launcher.list.length ∧ (s.submit w from_ issuer).threads.length = s.threads.length)) ∧
  ((∀ (o : S1) (s s1 : State) (a : Word), s.thr.live = true → s.reads [o.a] .gz = some (s1, [a]) →
    (a.toNat % 128 ≠ 0 → exec (.launch o) s = .next (s.trap (cause cALIGN a))) ∧
    (∀ s0 s2 l l2 ls, a.toNat % 128 = 0 → s1.accessed a (accPlain 8 .load false) true false = some (s0, l) →
      s0.accessed (a + 64) (accPlain 8 .load false) true false = some (s2, l2) → s2.recordLocs a = .ok ls →
      (∀ x ∈ ls, ∀ n, s2.serve x false false ≠ .migrate n) →
      ∃ (t : State) (r : LaunchReq), exec (.launch o) s = .next t ∧ t.launcher.reqs = s2.launcher.reqs ++ [r] ∧ r.core = s2.core.id ∧
        r.frame = s2.thr.frame ∧ r.locs = ls ∧ (t.thr.park.map fun p => p.code) = some 13 ∧ t.thr.pc = s2.thr.pc ∧ t.mem = s2.mem)) ∧
  (∀ (s : State) (r : LaunchReq), s.launcher.reqs = [r] → s.thr.live = true → s.thr.core = r.core → s.thr.frame = r.frame →
    (s.thr.park.any fun p => p.code == 13) = true → (s.threads.all fun u => !u.is r.core r.frame) = true → s.bootDone = true →
    s.thr.pend = [] → s.ordered r.core r.frame (s.thr.phase - 1) s.thr.seq 6 = true → s.calm →
    (∀ l ∈ r.locs, s.reachable r.core l false = true ∧ s.refreshes l = false ∧ s.mem.isPoisoned l.key = false) →
    s.flushing (BitVec.ofNat 16 (fieldOf ((r.locs.map fun l => BitVec.ofNat 64 (s.mem.read l.key 8)).getD 4 0) 0 16)) = false →
    ∃ t, exec (.launchRecordSubmit r.core r.frame) s = .next t ∧ t.thr.pc = s.thr.pc + 4 ∧ t.thr.park = none ∧ t.launcher.reqs = [] ∧
      t.thr.g = s.thr.g ∧
      t = ((({ s with launcher := { s.launcher with reqs := [] } } : State).readRecord r s.thr.launch).modThread r.core r.frame fun u =>
        { u with pc := u.pc + 4, phase := 0, skipWatch := none, walked := none, popped := [], park := none }).submit
          (fun i => (r.locs.map fun l => BitVec.ofNat 64 (s.mem.read l.key 8)).getD i 0) r.core
          (if r.tenant < 16 then some (r.tenant, r.prio) else none)))

/-- The head launch of the highest FIFO is placed once its rectangle has room: it runs, and every core of the rectangle has
its threads 0 to TPC at the entry, with ARGS in g1 and the position in g2. Where threads of lower priority alone stand in its
way, the one of lowest priority leaves the rotation with its frame and its registers, and none of equal or higher priority does.
A launch found idle by two sweeps with the same sums ends, and the first of them only records the sums. A launch that
the supervisor ends has no thread left and no deque entry; one that runs ends at the sweeps after, and another at once. The
classifier classes a launch at the end of its window. -/
def Obligations.LaunchLife : Prop :=
  (∀ (s : State) (l : Launch), s.headLaunch = some l → s.launchOf l.id = some l →
    (((s.rectCores l.info).flatMap fun c => s.blockers l c) = [] → s.placeable l = true → (s.rectCores l.info).Nodup →
      ∃ t, exec .launchPlacement s = .next t ∧ (t.launchOf l.id).any Launch.runs = true ∧
        ∀ c ∈ s.rectCores l.info, ∀ p ≤ l.info.tpc, ∃ u ∈ t.all, u.core = c ∧ u.launch = l.id ∧ u.pc = l.info.entry ∧
          u.g[1] = l.info.args ∧ u.g[2] = BitVec.ofNat 64 p) ∧
    (∀ (c : Nat) (u : Thread), s.rectCores l.info = [c] → s.blockers l c ≠ [] → (s.blockers l c).all (s.removable l.info.prio) = true →
      (s.all.map fun t => (t.core, t.frame)).Nodup → u ∈ s.onCore c → u.pos.isSome = true → s.removable l.info.prio u = true →
      (∀ v ∈ s.onCore c, v ≠ u → v.pos.isSome = true → s.removable l.info.prio v = true → s.prioOf u < s.prioOf v) →
      ∃ t, exec .launchPlacement s = .next t ∧
        (∃ x ∈ t.all, x.core = c ∧ x.frame = u.frame ∧ x.pos = none ∧ x.launch = u.launch ∧ x.g = u.g ∧ x.pc = u.pc) ∧
        ∀ v ∈ s.all, s.removable l.info.prio v = false → ∃ x ∈ t.all, x.core = v.core ∧ x.frame = v.frame ∧ x.pos = v.pos ∧ x.g = v.g)) ∧
  ((∀ (s : State) (l : Launch), s.launcher.list = [l] → l.status = .running → s.idleFor l = true →
    (l.anyLost = true ∨ l.bySup = true ∨ (s.sums l).1 = (s.sums l).2) →
    (l.sweep = some (s.sums l) → ∃ t, exec .terminationSweep s = .next t ∧ (t.launchOf l.id).any (fun x => x.status == .ended) = true) ∧
    (l.sweep ≠ some (s.sums l) → ∃ t, exec .terminationSweep s = .next t ∧ t.launchOf l.id = some { l with sweep := some (s.sums l) } ∧
      t.cc = (s.cc / 1024 + 1) * 1024 ∧ t.mem = s.mem)) ∧
  (∀ (s : State) (l : Launch), s.launchOf l.id = some l → l.status ≠ .ended → l.bySup = false →
    ∃ t, exec (.supervisorEndsLaunch l.id) s = .next t ∧
      (t.launchOf l.id).any (fun x => x.bySup && x.status == (if l.status = .running then .running else .ended)) = true ∧
      (∀ u ∈ t.all, u.launch ≠ l.id) ∧ (∀ u ∈ t.net.moves, u.launch ≠ l.id) ∧ ∀ c ∈ t.allCores, ∀ e ∈ c.deque, e.launch ≠ l.id) ∧
  (∀ (s : State) (l : Launch), s.launchOf l.id = some l → l.status = .running → l.cls = none →
    ∃ t, exec (.classifierWindowEnd l.id) s = .next t ∧ t.launchOf l.id = some { l with cls := some (decide (8 * l.dram ≤ l.ops)) } ∧
      t.mem = s.mem ∧ l.placed + 19200 ≤ t.cc))

/-- After a loss, a launch with a TVEC receives a new thread there with cause CTXLOST and EVAL telling core, threads and
entries lost, and one without receives none. A supervisor thread of the image starts again at its entry pc in mode 1. That pc
has its two low bits 0 is the model's choice (log 64). -/
def Obligations.LostThreads : Prop :=
  (∀ (s : State) (id : Nat) (x : Lost) (l : Launch), s.mgmt.ctxlost = [(id, x)] → s.mgmt.unsaved = [] → s.launchOf id = some l →
    l.status ≠ .ended →
    (l.info.tvec = 0 → ∃ t, exec .ctxlostThreadStart s = .next t ∧ t.mgmt.ctxlost = [] ∧ t.threads.length = s.threads.length ∧ t.mem = s.mem) ∧
    (∀ c p f q r, l.info.tvec ≠ 0 → ((s.rectCores l.info).filter fun c => (s.coreOf c).reset.isNone && !l.barred.contains c) = [c] →
      s.freePos c = p :: q → s.freeFrames c = f :: r →
      ∃ (t : State) (u : Thread), exec .ctxlostThreadStart s = .next t ∧ t.mgmt.ctxlost = [] ∧ u ∈ t.all ∧ u.core = c ∧ u.pos = some p ∧
        u.frame = f ∧ u.pc = aligned l.info.tvec ∧ u.tr.epc = l.info.tvec ∧ u.tr.ecause = 0x16 ∧
        u.tr.eval = BitVec.ofNat 64 (x.core + x.threads % 2048 * 2 ^ 16 + x.entries % 2048 * 2 ^ 32) ∧ u.launch = l.id ∧
        u.g[1] = l.info.args ∧ u.tr.inE = false ∧ t.mem = s.mem)) ∧
  (∀ (s : State) (e : SupEntry) (p : Nat) (r : List Nat), s.mgmt.restarts = [e] → (s.coreOf e.core).reset = none → s.enabled e.core = true →
    ((s.onCore e.core).all fun t => t.frame != 62) = true → s.freePos e.core = p :: r →
    ∃ (t : State) (u : Thread), exec (.supervisorThreadRestart 0) s = .next t ∧ t.mgmt.restarts = [] ∧ u ∈ t.all ∧ u.core = e.core ∧
      u.frame = 62 ∧ u.pos = some p ∧ u.pc = aligned e.entry ∧ u.sup = true ∧ u.launch = 0 ∧ t.mem = s.mem)

/-! ## The vector unit -/

/-- A vector word makes a body of one in the vector queue, or joins the open body of its thread, which enters the queue with
its last member; with two bodies queued it waits unissued. VRED also takes a record and leaves its handle; VLOOP opens a body;
VFENCE passes with no body of the thread queued and parks with code 23 while one is. -/
def Obligations.VectorIssue : Prop :=
  (∀ (i : Instr) (sw : Bool) (src : Src) (s s1 : State) (x : Word), vecWord i = some (sw, src) → s.thr.live = true →
    s.thr.core = s.core.id → s.thr.anchored = true → s.reads [src] .gz = some (s1, [x]) →
    (s.core.eng.coll = none → s.core.eng.vq.length < 2 →
      ∃ (t : State) (b : Body) (m : VecIns), exec i s = .next t ∧ t.core.eng.vq = s.core.eng.vq ++ [b] ∧ b.frame = s.thr.frame ∧
        b.ins = [m] ∧ m.instr = i ∧ m.ga = x ∧ m.pc = s.thr.pc ∧ b.started = false ∧ t.core.eng.coll = none ∧
        t.thr.pc = s.thr.pc + 4 ∧ t.thr.g = s1.thr.g ∧ t.mem = s.mem ∧ t.core.eng.f = s.core.eng.f) ∧
    (s.core.eng.coll = none → 2 ≤ s.core.eng.vq.length → exec i s = .next (s.parkOn 0 0 1)) ∧
    (∀ b, s.core.eng.coll = some b → b.frame = s.thr.frame → s.thr.tr.inE = false → s.thr.tr.inS = false →
      (1 < b.awaited → ∃ (t : State) (m : VecIns), exec i s = .next t ∧ t.core.eng.vq = s.core.eng.vq ∧ m.instr = i ∧ m.ga = x ∧
        t.core.eng.coll = some { b with ins := b.ins ++ [m], awaited := b.awaited - 1, num := s.core.sbNum } ∧
        t.thr.pc = s.thr.pc + 4 ∧ t.mem = s.mem) ∧
      (b.awaited = 1 → s.core.eng.vq.length < 2 → ∃ (t : State) (m : VecIns), exec i s = .next t ∧ t.core.eng.coll = none ∧
        m.instr = i ∧ m.ga = x ∧ t.core.eng.vq = s.core.eng.vq ++ [{ b with ins := b.ins ++ [m], awaited := 0, num := s.core.sbNum }] ∧
        t.thr.pc = s.thr.pc + 4 ∧ t.mem = s.mem))) ∧
  (∀ (o : VredOp) (n : Fin 16) (s s1 : State) (vs : List Word) (id : Nat), s.thr.live = true → s.thr.core = s.core.id →
    s.thr.anchored = true → s.core.id < 2048 → o.d = .g n → s.reads [] .gz = some (s1, vs) → s.core.eng.coll = none →
    s.core.eng.vq.length < 2 → s.freeRecord = some id →
    ∃ (t : State) (b : Body) (m : VecIns) (fu : Future), exec (.vred o) s = .next t ∧ t.core.eng.vq = s.core.eng.vq ++ [b] ∧ b.ins = [m] ∧
      m.instr = .vred o ∧ m.fut = some id ∧ t.thr.g = s.thr.g.set n (handleOf s.core.id id) ∧ t.thr.tagged n.1 = true ∧
      t.futureOf t.thr.g[n] = some fu ∧ fu.status = .pending ∧ t.thr.pc = s.thr.pc + 4 ∧ t.mem = s.mem) ∧
  (∀ (o : VloopOp) (s s1 : State) (vs : List Word), s.thr.live = true → s.thr.core = s.core.id → s.thr.anchored = true →
    s.reads [] .gz = some (s1, vs) → s.core.eng.coll = none →
    ∃ (t : State) (b : Body), exec (.vloop o) s = .next t ∧ t.core.eng.coll = some b ∧ b.ins = [] ∧ b.awaited = o.n.toNat ∧
      b.frame = s.thr.frame ∧ t.core.eng.vq = s.core.eng.vq ∧ t.thr.pc = s.thr.pc + 4 ∧ t.thr.g = s.thr.g ∧ t.mem = s.mem) ∧
  (∀ (o : S0) (s s1 : State) (vs : List Word), s.thr.live = true → s.thr.anchored = true → s.reads [] .gz = some (s1, vs) →
    s.core.eng.coll = none →
    ((s.core.eng.vq.all fun b => b.frame != s.thr.frame) = true → exec (.vfence o) s = .next (s1.retire o.sw)) ∧
    ((s.core.eng.vq.any fun b => b.frame == s.thr.frame) = true → exec (.vfence o) s = .next (s.parkOn 23 0 0)))

/-- The first body begins once the earlier stores of its thread are performed. An iteration of a body of one VADD over value
registers writes in each lane the sum of the lanes, once rounded for floats and modulo 2^w for integers, and the body is gone;
where a float operand is subnormal nothing is written and SUBN is held with the chunk. A chunk of an SFU word captures its operands in an entry of
the core's SFU queue, of which the vector unit has at most 4, and waits for it; it ends once the entry has been served. A held fault is delivered to its thread as a trap with its cause and the chunk or the address; then RETRY, and ASSIST for one chunk or all the rest, let the body go
on, and DISCARD drops it with every later one. -/
def Obligations.VectorRuns : Prop :=
  ((∀ (s : State) (core : Nat) (b : Body) (r : List Body), (s.coreOf core).eng.vq = b :: r → b.started = false →
    s.storesBefore core b.frame b.num = true →
    ∃ t, exec (.vectorBodyStart core) s = .next t ∧ (t.coreOf core).eng.vq = { b with started := true } :: r ∧ t.mem = s.mem ∧
      (t.coreOf core).eng.f = (s.coreOf core).eng.f) ∧
  (∀ (s : State) (core : Nat) (b : Body) (r : List Body) (m : VecIns) (o : V3) (d x y : Fin 8),
    (s.coreOf core).eng.vq = b :: r → (s.coreOf core).eng.held = none → loneBody b m → m.instr = .vadd o → m.assist = 0 → m.fut = none →
    o.d.1 = 8 + d.1 → o.a.1 = 8 + x.1 → o.b.1 = 8 + y.1 →
    let f := (s.coreOf core).eng.f
    let sub := laneFloat o.f && (List.range (512 / laneBits o.f)).any fun l =>
      isSubnormal (laneFmt o.f) (vlane o.f f[x] l) || isSubnormal (laneFmt o.f) (vlane o.f f[y] l)
    (sub = false → ∃ t, exec (.vectorChunk core) s = .next t ∧ t.mem = s.mem ∧ (t.coreOf core).eng.vq = r ∧ (t.coreOf core).eng.held = none ∧
      (∀ n : Fin 8, n ≠ d → (t.coreOf core).eng.f[n] = f[n]) ∧
      ∀ l, l < 512 / laneBits o.f → vlane o.f ((t.coreOf core).eng.f[d]) l =
        if laneFloat o.f then
          (roundTo (laneFmt o.f) 0 (addVal 0 (decodeFloat (laneFmt o.f) (vlane o.f f[x] l)) (decodeFloat (laneFmt o.f) (vlane o.f f[y] l))).1).1
        else (vlane o.f f[x] l + vlane o.f f[y] l) % 2 ^ laneBits o.f) ∧
    (sub = true → b.frame ≠ 64 → ∃ (t : State) (h : VHeld), exec (.vectorChunk core) s = .next t ∧ t.mem = s.mem ∧ (t.coreOf core).eng.f = f ∧
      (t.coreOf core).eng.held = some h ∧ h.cause = cSUBN ∧ h.chunk = 0 ∧ h.pc = m.pc ∧ h.frame = b.frame ∧ h.delivered = false)) ∧
  (∀ (s : State) (core : Nat) (b : Body) (r : List Body) (m : VecIns) (o : VsfuOp), (s.coreOf core).eng.vq = b :: r →
    (s.coreOf core).eng.held = none → b.ins = [m] → b.started = true → b.dying = false → b.chunk = 0 →
    m.instr = .vex2 o ∨ m.instr = .vlg2 o ∨ m.instr = .vrcp o ∨ m.instr = .vrsq o → 8 ≤ o.d.1 →
    (∀ (y : Fin 8) (f : Lane), o.a.1 = 8 + y.1 → f = (if o.b16 then .bf16 else .f32) → b.done = 0 → b.wait = false → b.cur = none →
      ((s.coreOf core).eng.sfu.length < 16 → ((s.coreOf core).eng.sfu.filter fun x => x.vec).length < 4 →
        ∃ (t : State) (x : SfuEntry), exec (.vectorChunk core) s = .next t ∧
        (t.coreOf core).eng.sfu = (s.coreOf core).eng.sfu ++ [x] ∧ x.vec = true ∧ x.frame = b.frame ∧ x.bad = none ∧
        (∀ l, l < 512 / laneBits f → x.ops.getD l 0 = vlane f (s.coreOf core).eng.f[y] l) ∧
        (t.coreOf core).eng.vq = { b with cur := some [], wait := true } :: r ∧ (t.coreOf core).eng.f = (s.coreOf core).eng.f ∧ t.mem = s.mem) ∧
      (16 ≤ (s.coreOf core).eng.sfu.length ∨ 4 ≤ ((s.coreOf core).eng.sfu.filter fun x => x.vec).length →
        exec (.vectorChunk core) s = .fault .notEnabled)) ∧
    (b.wait = true → exec (.vectorChunk core) s = .fault .notEnabled) ∧
    (8 ≤ o.a.1 → b.done = 1 → b.wait = false → m.fut = none → ∃ t, exec (.vectorChunk core) s = .next t ∧ (t.coreOf core).eng.vq = r ∧
      (t.coreOf core).eng.f = (s.coreOf core).eng.f ∧ t.mem = s.mem))) ∧
  ((∀ (s : State) (h : VHeld), s.thr.live = true → s.thr.core = s.core.id → s.core.eng.held = some h → h.delivered = false →
    h.frame = s.thr.frame → s.thr.pos.isSome = true → s.thr.migr = none → s.thr.park = none → s.thr.pend = [] → s.thr.tr.inE = false →
    s.thr.tr.inS = false → s.thr.sup = false → s.thr.tr.evec ≠ 0 → h.cause = cENGF ∨ h.cause = cSUBN ∧ s.thr.st.getLsbD 16 = false →
    s.hasNarrow s.thr.frame = false →
    ∃ t, exec (.vectorFaultDelivery s.core.id s.thr.frame) s = .next t ∧ t.core.eng.held = some { h with delivered := true } ∧
      t.thr.pc = aligned s.thr.tr.evec ∧ t.thr.tr.epc = s.thr.pc ∧ t.thr.tr.ecause = BitVec.ofNat 64 h.cause ∧
      t.thr.tr.eval = (if h.cause = cSUBN then BitVec.ofNat 64 h.chunk else h.addr) ∧ t.thr.g = s.thr.g ∧ t.mem = s.mem) ∧
  (∀ (s : State) (h : VHeld) (b : Body) (r : List Body), s.thr.live = true → s.thr.anchored = true → s.thr.core = s.core.id →
    s.core.eng.held = some h → s.core.eng.vq = b :: r →
    (∀ i choice, (i = Instr.vrsmRetry ∧ choice = 0) ∨ (i = Instr.vrsmAssistOne ∧ choice = 1) ∨ (i = Instr.vrsmAssistRest ∧ choice = 2) →
      ∃ (t : State) (c : Body), exec i s = .next t ∧ t.core.eng.held = none ∧ t.core.eng.vq = c :: r ∧
        c.ins = b.ins.modify h.idx (fun m => { m with assist := if h.cause = cSUBN then choice else m.assist }) ∧ c.chunk = b.chunk ∧
        t.thr.pc = s.thr.pc + 4 ∧ t.mem = s.mem) ∧
    (stoppedWords s.core.eng s.core.id b = [] →
      ∃ t, exec .vrsmDiscard s = .next t ∧ t.core.eng.held = none ∧ t.core.eng.vq = [] ∧ t.mem = s.mem ∧ t.thr.pc = s.thr.pc + 4 ∧
        ∀ f ∈ s.core.eng.futs, f.status = .pending → (b.ins.any fun m => m.fut == some f.id) = true →
          { f with status := .cancelled } ∈ t.core.eng.futs)))

/-! ## The copy engine -/

/-- CPY and CPYX queue a copy on their channel and leave its handle; CPTR returns the write pointer. A queued copy begins with
the geometry of its channel; each element of a copy between places of one scratchpad arrives where its address says, every
other byte as it was, and elements of one 8-byte word come from one reading of it; the copy resolves to the address after its last
byte, and a cancelled one stops and resolves CANCELLED. -/
def Obligations.Copies : Prop :=
  ((∀ (i : Instr) (o : CpyOp) (cx8 : Bool) (n : Fin 16) (s s1 : State) (a b : Word) (id : Nat),
    (i = .cpy o ∧ cx8 = false) ∨ (i = .cpyx o ∧ cx8 = true) → s.thr.live = true → s.thr.anchored = true → o.d = .g n →
    s.reads [o.a, o.b] .gz = some (s1, [a, b]) →
    (s.core.eng.ch[o.ch].run.toList.length + s.core.eng.ch[o.ch].queue.length < 4 → s1.freeRecord = some id →
      ∃ (t : State) (c : CopyOp), exec i s = .next t ∧ t.core.eng.ch[o.ch].queue = s.core.eng.ch[o.ch].queue ++ [c] ∧ c.fut = id ∧
        c.frame = s.thr.frame ∧ c.src = a ∧ c.dst = b ∧ c.cx8 = cx8 ∧ t.thr.g = s1.thr.g.set n (handleOf s.core.id id) ∧
        t.thr.tagged n.1 = true ∧ t.thr.pc = s.thr.pc + 4 ∧ t.mem = s.mem) ∧
    (4 ≤ s.core.eng.ch[o.ch].run.toList.length + s.core.eng.ch[o.ch].queue.length → exec i s = .next (s.parkOn 0 0 (2 + o.ch.1)))) ∧
  (∀ (o : CptrOp) (s s1 : State) (vs : List Word), s.thr.live = true → s.thr.anchored = true → s.readsLong [] o.d = some (s1, vs) →
    exec (.cptr o) s = .next (s1.finishLong o.sw o.d (Pending.ofVal s.core.eng.ch[o.ch].cwp 0)))) ∧
  ((∀ (s : State) (core : Nat) (ch : Fin 4) (o : CopyOp) (r : List CopyOp), (s.chOf core ch).queue = o :: r → (s.chOf core ch).run = none →
    (s.chOf core ch).stopped = none → o.resume = false → s.storesBefore core o.frame o.num = true →
    fieldOf (s.chOf core ch).geo 0 32 ≠ 0 →
    ∃ (t : State) (c : CopyOp), exec (.copyBegin core ch.1) s = .next t ∧ (t.chOf core ch).run = some c ∧ (t.chOf core ch).queue = r ∧
      c.src = o.src ∧ c.dst = o.dst ∧ c.geo = (s.chOf core ch).geo ∧ c.str0 = (s.chOf core ch).str0 ∧ c.ctl = (s.chOf core ch).ctl ∧
      c.pos = 0 ∧ c.fut = o.fut ∧ c.buf = o.buf ∧ (t.chOf core ch).cwp = o.dst ∧ (t.chOf core ch).cpos = 0 ∧ t.mem = s.mem) ∧
  (∀ (s : State) (core : Nat) (ch : Fin 4) (o : CopyOp) (l m : Loc), s.Inv → (s.chOf core ch).run = some o → o.cancel = false → o.cx8 = false →
    o.pos < o.total → s.copyAccess core o (o.srcOf o.pos) (accPlain o.size .load (o.size == 4)) = .ok (l, none) →
    s.copyAccess core o (o.dstOf o.pos) ⟨o.size, .store, (· == 0), true, true, true, false⟩ = .ok (m, none) →
    core < 2048 → l.place = .scratch core 0 → m.place = .scratch core 0 → s.copyHeld core ch o [o.srcOf o.pos] = none → s.calm → s.noDeps →
    s.mem.poison = [] → (s.coreOf core).waits = [] → (∀ x ∈ o.buf, x.2.2 = false) →
    ∃ t, exec (.copyElementWrite core ch.1) s = .next t ∧
      s.storedAt t m.key o.size (match o.held l.key with
        | some (_, v, _) => v / 256 ^ (l.key % 8)
        | none => s.mem.read l.key o.size) ∧
      (t.chOf core ch).cpos = o.pos + 1 ∧ (t.chOf core ch).cwp = o.dstOf (o.pos + 1) ∧
      ∀ c, (t.chOf core ch).run = some c → (c.held l.key).map (fun x => x.2.1) =
        some (match o.held l.key with
          | some (_, v, _) => v
          | none => s.mem.read (l.key / 8 * 8) 8)) ∧
  (∀ (s : State) (core : Nat) (ch : Fin 4) (o : CopyOp) (fu : Future), (s.chOf core ch).run = some o →
    ((s.coreOf core).eng.futs.find? fun f => f.id == o.fut) = some fu → fu.status = .pending →
    (o.cancel = false → o.total ≤ o.pos →
      ∃ t, exec (.copyComplete core ch.1) s = .next t ∧ (t.chOf core ch).run = none ∧ t.mem = s.mem ∧
        ((t.coreOf core).eng.futs.find? fun f => f.id == o.fut) = some { fu with status := .done, value := o.dstOf o.total, addr := 0 }) ∧
    (o.cancel = true → ∀ i, i = Instr.copyElementWrite core ch.1 ∨ i = .copyComplete core ch.1 →
      ∃ t, exec i s = .next t ∧ (t.chOf core ch).run = none ∧
        ((t.coreOf core).eng.futs.find? fun f => f.id == o.fut) = some { fu with status := .cancelled, value := 0, addr := 0 })))

/-! ## The matrix unit -/

/-- MMA, MMAZ, MST and MLD are queued on their stream and leave a handle; with 16 queued they wait unissued. MSYNC returns 1,
or the first status of its thread's operations on the stream that is not DONE, and parks with code 24 while one is queued; it too waits
unissued while the queue is full. The head of a stream begins once its rings have a tile each, or ends then with ENGF and its cause in
MFST; that a ring that does not exist or has no tile is not waited for is the model's reading (log 41). -/
def Obligations.MatrixQueue : Prop :=
  ((∀ (i : Instr) (k : MatKind) (o : MatOp) (n : Fin 16) (s s1 : State) (a b : Word) (id : Nat), matForm i = some (k, o) →
    s.thr.live = true → s.thr.anchored = true → o.d = .g n → s.reads [o.a, o.b] .gz = some (s1, [a, b]) →
    (s.core.eng.mq.length < 16 → s1.freeRecord = some id →
      ∃ (t : State) (m : MatEntry), exec i s = .next t ∧ t.core.eng.mq = s.core.eng.mq ++ [m] ∧ m.kind = k ∧ m.stream = o.t.1 ∧ m.ga = a ∧
        m.gb = b ∧ m.fut = id ∧ m.frame = s.thr.frame ∧ m.begun = false ∧ t.thr.g = s1.thr.g.set n (handleOf s.core.id id) ∧
        t.thr.tagged n.1 = true ∧ t.thr.pc = s.thr.pc + 4 ∧ t.core.eng.acc = s.core.eng.acc ∧ t.mem = s.mem) ∧
    (16 ≤ s.core.eng.mq.length → exec i s = .next (s.parkOn 0 0 6))) ∧
  (∀ (o : MsyncOp) (s s1 : State) (vs : List Word), s.thr.live = true → s.thr.anchored = true → s.reads [] o.d = some (s1, vs) →
    (16 ≤ s.core.eng.mq.length → exec (.msync o) s = .next (s.parkOn 0 0 6)) ∧
    (s.core.eng.mq.length < 16 → (s.core.eng.mq.all fun m => !(m.stream == o.t.1 && m.frame == s.thr.frame)) = true →
      ∃ t v, exec (.msync o) s = .next t ∧ (∀ n, o.d = .g n → t.thr.g = s.thr.g.set n v) ∧
        (o.d = .qdn → s.core.qdn.isSome = true → ∃ p, t.net.pushes = s.net.pushes ++ [p] ∧ p.word = v) ∧ t.thr.pc = s.thr.pc + 4 ∧ t.mem = s.mem ∧
        v = match s.core.eng.mfail.find? fun r => r.stream == o.t.1 && r.frame == s.thr.frame with
          | none => 1
          | some r => BitVec.ofNat 64 r.status.code) ∧
    (s.core.eng.mq.length < 16 → (s.core.eng.mq.any fun m => m.stream == o.t.1 && m.frame == s.thr.frame) = true →
      exec (.msync o) s = .next (s.parkOn 24 (BitVec.ofNat 64 o.t.1) o.t.1)))) ∧
  (∀ (s : State) (core stream : Nat) (m : MatEntry), (s.coreOf core).eng.mq = [m] → m.stream = stream → m.begun = false →
    s.mgmt.gated = false → s.storesBefore core m.frame m.num = true →
    (∀ a b, m.kind = .mma ∨ m.kind = .mmaz → s.matCheck core m = .ok (a, b) → s.available core m.frame a.num = true →
      s.available core m.frame b.num = true → (s.coreOf core).errinj.getLsbD 7 = false →
      ((s.coreOf core).eng.kindCause m a.kind = 0 →
        ∃ t, exec (.matrixOpBegin core stream) s = .next t ∧ (t.coreOf core).eng.mq = [{ m with begun := true, inject := 0 }] ∧ t.mem = s.mem) ∧
      (∀ c, (s.coreOf core).eng.kindCause m a.kind = c → c ≠ 0 →
        ∃ t, exec (.matrixOpBegin core stream) s = .next t ∧ (t.coreOf core).eng.mq = [] ∧ t.mem = s.mem ∧
          (t.coreOf core).eng.mfst = BitVec.ofNat 64 (c + 256 * stream) ∧ (t.coreOf core).eng.acc = (s.coreOf core).eng.acc)) ∧
    (m.kind = .mma ∨ m.kind = .mmaz → s.ringsReady core m = false → exec (.matrixOpBegin core stream) s = .fault .notEnabled) ∧
    (∀ c x, m.kind = .mma ∨ m.kind = .mmaz → s.ringsReady core m = true → s.matCheck core m = .error (c, x) →
      ∃ t, exec (.matrixOpBegin core stream) s = .next t ∧ (t.coreOf core).eng.mq = [] ∧ t.mem = s.mem ∧
        (t.coreOf core).eng.mfst = BitVec.ofNat 64 (c + 256 * stream) ∧ (t.coreOf core).eng.acc = (s.coreOf core).eng.acc) ∧
    (m.kind = .mst → (s.coreOf core).eng.kindAt (fieldOf m.gb 0 3) = 0 → ∀ p, moveAt m.ga .fp32 = some p →
      ∃ (t : State) (u : MatEntry), exec (.matrixOpBegin core stream) s = .next t ∧ (t.coreOf core).eng.mq = [u] ∧ u.begun = true ∧
        u.kind0 = 0 ∧ (u.snap.extractLsb' 0 8192) = (s.coreOf core).eng.accAt (fieldOf m.gb 0 3) ∧ u.scale = (s.coreOf core).eng.mscale ∧ t.mem = s.mem) ∧
    (m.kind = .mld → fieldOf m.gb 4 2 = 0 → ∀ w x, moveAt m.ga .fp32 = some (w, x) → mldWindow .fp32 w = true →
      ∃ t, exec (.matrixOpBegin core stream) s = .next t ∧ (t.coreOf core).eng.mq = [{ m with begun := true }] ∧ t.mem = s.mem))

/-- The operation on the array ends: an integer MMA adds the exact products of the two tiles modulo 2^32, MMAZ from 0, and both
rings are popped. An MST to raw bytes stores the accumulator as it was when the MST began, row by row; an MLD from raw bytes
writes all 256 elements and their kind together. -/
def Obligations.MatrixResults : Prop :=
  (∀ (s : State) (core : Nat) (m : MatEntry) (a b : RingInfo), (s.coreOf core).eng.mq = [m] → m.begun = true → m.kind = .mma ∨ m.kind = .mmaz →
    m.inject = 0 → s.mgmt.gated = false → s.matCheck core m = .ok (a, b) → a.kind = .int32 → s.tileRefreshes b = false → s.mem.poison = [] → s.calm →
    ∃ t, exec (.matrixOpComplete core) s = .next t ∧ (t.coreOf core).eng.mq = [] ∧ t.mem = s.mem ∧
      (t.coreOf core).eng.kindAt (fieldOf m.gb 0 3) = 1 ∧
      (∀ r c, r < 16 → c < 16 → accElem ((t.coreOf core).eng.accAt (fieldOf m.gb 0 3)) (16 * r + c) =
        intProduct a b s.mem (if m.kind = .mmaz then 0 else accElem ((s.coreOf core).eng.accAt (fieldOf m.gb 0 3)) (16 * r + c)) r c) ∧
      (∀ n, n < 8 → n ≠ fieldOf m.gb 0 3 → (t.coreOf core).eng.accAt n = (s.coreOf core).eng.accAt n) ∧
      ∀ n : Fin 8, (t.coreOf core).eng.ring[n].head =
        if n.1 = a.num ∨ n.1 = b.num then (s.coreOf core).eng.ring[n].head + 1 else (s.coreOf core).eng.ring[n].head) ∧
  (∀ (s : State) (core x : Nat) (m : MatEntry), s.Inv → (s.coreOf core).eng.mq = [m] → m.begun = true → m.kind = .mst → m.dying = false → m.kind0 = 0 →
    s.mgmt.gated = false → moveAt m.ga .fp32 = some (0, x) → core < 2048 → s.calm → s.noDeps → (s.coreOf core).waits = [] →
    ∃ t, exec (.mstComplete core) s = .next t ∧ (t.coreOf core).eng.mq = [] ∧ (t.coreOf core).eng.acc = (s.coreOf core).eng.acc ∧
      s.storedAt t (scratchKey core x) 1024 (m.snap.toNat % 2 ^ 8192)) ∧
  (∀ (s : State) (core x : Nat) (m : MatEntry), (s.coreOf core).eng.mq = [m] → m.begun = true → m.kind = .mld → fieldOf m.gb 4 2 = 0 →
    s.mgmt.gated = false → moveAt m.ga .fp32 = some (0, x) → s.calm → s.mem.poison = [] →
    ∃ t, exec (.mldComplete core) s = .next t ∧ (t.coreOf core).eng.mq = [] ∧ t.mem = s.mem ∧
      (t.coreOf core).eng.kindAt (fieldOf m.gb 0 3) = 0 ∧
      ∀ i, i < 256 → accElem ((t.coreOf core).eng.accAt (fieldOf m.gb 0 3)) i = s.numAt (scratchKey core x + 4 * i) 4)

/-- On a gateway core BQNEXT hands out the indexes of the quad's queue in order and then all ones, and a write to BQLIM starts
it at 0. BADDQ queues a block add with a handle; one whose block count is not 1 to 64 ends with ENGF and 0 and writes nothing,
and one over FP32 elements adds each pair with one rounding; one that FCANCEL has named ends CANCELLED, which is the model's reading
(log 66). Elsewhere BQNEXT and BADDQ are illegal. -/
def Obligations.BlockAdds : Prop :=
  (∀ (o : D1) (s s1 : State) (vs : List Word), s.thr.live = true → isGateway s.core.id = true → s.readsLong [] o.d = some (s1, vs) →
    ∃ (t : State) (v : Word), exec (.bqnext o) s = .next t ∧ t.thr.pc = s.thr.pc + 4 ∧ t.thr.g = s.thr.g ∧ t.mem = s.mem ∧
      (t.thr.pend.getLast?.map fun p => (p.dst, p.val)) = some (o.d, v) ∧
      ((s.quadAt (quadOf s.core.id)).pos.toNat < (s.quadAt (quadOf s.core.id)).lim.toNat →
        v.toNat = (s.quadAt (quadOf s.core.id)).pos.toNat ∧ (t.quadAt (quadOf s.core.id)).pos = (s.quadAt (quadOf s.core.id)).pos + 1 ∧
        (t.quadAt (quadOf s.core.id)).lim = (s.quadAt (quadOf s.core.id)).lim) ∧
      ((s.quadAt (quadOf s.core.id)).lim.toNat ≤ (s.quadAt (quadOf s.core.id)).pos.toNat →
        v = BitVec.allOnes 64 ∧ t.quadAt (quadOf s.core.id) = s.quadAt (quadOf s.core.id))) ∧
  (∀ (s s1 : State) (v : Word) (vs : List Word), s.thr.live = true → isGateway s.core.id = true → s.thr.anchored = true →
    s.reads [.gz] .gz = some (s1, vs) →
    ∃ t, exec (.esetBqlim v) s = .next t ∧ t.quadAt (quadOf s.core.id) = ⟨quadOf s.core.id, v.setWidth 32, 0⟩ ∧ t.thr.pc = s.thr.pc + 4 ∧
      t.mem = s.mem) ∧
  (∀ (o : BaddOp) (n : Fin 16) (s s1 : State) (a b : Word) (id : Nat), s.thr.live = true → isGateway s.core.id = true → o.d = .g n →
    s.reads [o.a, o.b] .gz = some (s1, [a, b]) → s.core.eng.bq.length < 4 → s1.freeRecord = some id →
    ∃ (t : State) (x : BaddEntry), exec (.baddq o) s = .next t ∧ t.core.eng.bq = s.core.eng.bq ++ [x] ∧ x.ga = a ∧ x.gb = b ∧ x.fut = id ∧
      x.frame = s.thr.frame ∧ t.thr.g = s1.thr.g.set n (handleOf s.core.id id) ∧ t.thr.tagged n.1 = true ∧ t.thr.pc = s.thr.pc + 4 ∧
      t.mem = s.mem) ∧
  (∀ (o : BaddOp) (q : D1) (s : State), s.thr.live = true → isGateway s.core.id = false →
    exec (.baddq o) s = .next (s.illegal (.baddq o)) ∧ exec (.bqnext q) s = .next (s.illegal (.bqnext q))) ∧
  (∀ (s : State) (core : Nat) (x : BaddEntry) (r : List BaddEntry) (fu : Future), s.Inv → (s.coreOf core).eng.bq = x :: r →
    s.storesBefore core x.frame x.num = true → ((s.coreOf core).eng.futs.find? fun f => f.id == x.fut) = some fu → fu.status = .pending →
    ((s.coreOf core).eng.brlen.toNat = 0 ∨ 64 < (s.coreOf core).eng.brlen.toNat →
      ∃ t, exec (.baddqComplete core) s = .next t ∧ (t.coreOf core).eng.bq = r ∧ t.mem = s.mem ∧
        ((t.coreOf core).eng.futs.find? fun f => f.id == x.fut) = some { fu with status := if x.cancel then .cancelled else .engf, value := 0, addr := 0 }) ∧
    (∀ e d n, n = (s.coreOf core).eng.brlen.toNat → 0 < n → n ≤ 64 → baddAt n x.ga = some (2, e) → baddAt n x.gb = some (2, d) →
      core < 2048 → s.calm → s.noDeps → s.mem.poison = [] → (s.coreOf core).waits = [] →
      ∃ t, exec (.baddqComplete core) s = .next t ∧ (t.coreOf core).eng.bq = r ∧
        ((t.coreOf core).eng.futs.find? fun f => f.id == x.fut) = some { fu with status := if x.cancel then .cancelled else .done, value := 0, addr := 0 } ∧
        ∀ i, i < 32 * n → t.numAt (scratchKey core (4 * (d + i))) 4 =
          (roundTo 2 0 (addVal 0 (decodeFloat 2 (s.numAt (scratchKey core (4 * (e + i))) 4))
            (decodeFloat 2 (s.numAt (scratchKey core (4 * (d + i))) 4))).1).1))

/-! ## Traps -/

/-- Trap entry. In launch mode outside a handler, a cause that EVEC serves saves pc, cause, value and st and goes to EVEC with
NOKILL set and the reservation gone, the queue words that the instruction had popped stand in their queues again, and nothing else
changes; a cause of the supervisor, and any cause inside the EVEC handler, goes to SVEC in mode 1, the latter with NEST. While
results are outstanding the handler waits for them. Where the vector is 0, or a trap for SVEC comes inside the SVEC handler, the
thread terminates. That a vector which is no multiple of 4 is taken with its low bits 0 is the model's choice (log 64). -/
def Obligations.TrapEntry : Prop :=
  ∀ (s : State) (ti : TrapInfo), s.thr.live = true → s.hasNarrow s.thr.frame = false →
    let back : Core := { s.core with
      qup := wordsBack true s.thr.popped ++ s.core.qup, qrx := wordsBack false s.thr.popped ++ s.core.qrx }
    (s.thr.sup = false → causeSv ti.code (s.thr.st.getLsbD 16) = false → s.thr.tr.inE = false → s.thr.tr.evec ≠ 0 →
      (s.thr.pend = [] → s.trap ti = { s with core := back, thr := s.thr.enterE ti }) ∧
      (s.thr.pend ≠ [] → s.trap ti =
        { s with core := back, thr := { s.thr.enterE ti with entering := true, park := some ⟨1, 0, 0, s.cc, none⟩ } })) ∧
    (∀ nest : Bool, s.sys.svec ≠ 0 → s.thr.tr.inS = false →
      (nest = false ∧ (s.thr.sup = true ∨ causeSv ti.code (s.thr.st.getLsbD 16) = true)) ∨
        (nest = true ∧ s.thr.sup = false ∧ causeSv ti.code (s.thr.st.getLsbD 16) = false ∧ s.thr.tr.inE = true) →
      (s.trap ti).thr.pc = aligned s.sys.svec ∧ (s.trap ti).thr.tr.epc = s.thr.pc ∧ (s.trap ti).thr.tr.eval = ti.eval ∧
        (s.trap ti).thr.tr.estat = s.thr.st ∧ (s.trap ti).thr.tr.inS = true ∧ (s.trap ti).thr.tr.inE = s.thr.tr.inE ∧
        (s.trap ti).thr.tr.ecause = BitVec.ofNat 64 (ti.code + (if ti.w then 2 ^ 8 else 0) + (if ti.f then 2 ^ 9 else 0) + if nest then 2 ^ 10 else 0) ∧
        fieldOf (s.trap ti).thr.st 0 2 = 1 ∧ (s.trap ti).thr.st.getLsbD 11 = true ∧ (s.trap ti).thr.g = s.thr.g ∧
        (s.trap ti).thr.resv = none ∧ (s.trap ti).mem = s.mem ∧ (s.trap ti).core = back ∧ (s.trap ti).sys = s.sys) ∧
    ((s.thr.sup = false ∧ causeSv ti.code (s.thr.st.getLsbD 16) = false ∧ s.thr.tr.inE = false ∧ s.thr.tr.evec = 0) ∨
        ((s.thr.sup = true ∨ causeSv ti.code (s.thr.st.getLsbD 16) = true ∨ s.thr.tr.inE = true) ∧ (s.thr.tr.inS = true ∨ s.sys.svec = 0)) →
      (s.trap ti).thr.live = false ∧ (s.trap ti).mem = s.mem ∧ ∀ u ∈ (s.trap ti).all, u.is s.thr.core s.thr.frame = false)

/-- TRAP and BRK take their software causes with the operand; an illegal word takes ILLEG with the word. ERET returns from the
innermost handler: pc is EPC, the writable fields of st come from ESTAT, and the mode never rises. Outside a handler it is
illegal, and to a pc that is no multiple of 4 it takes ALIGN. -/
def Obligations.SoftwareTrapsAndReturn : Prop :=
  ((∀ (o : S1) (s s1 : State) (a : Word), s.thr.live = true → s.reads [o.a] .gz = some (s1, [a]) →
    exec (.trap o) s = .next (s.trap (cause 0x13 a)) ∧ exec (.brk o) s = .next (s.trap (cause 0x14 a))) ∧
  (∀ (w : BitVec 32) (e : DecodeError) (s : State), s.thr.live = true → decode w = .error e →
    exec (.illegalWord w) s = .next (s.trap (cause 0x01 (w.setWidth 64))))) ∧
  (∀ (o : S0) (s s1 : State) (vs : List Word), s.thr.live = true → s.reads [] .gz = some (s1, vs) → s.thr.pend = [] → s.core.eng.held = none →
    (s.thr.tr.inE = true ∨ s.thr.tr.inS = true → s.thr.tr.epc.toNat % 4 = 0 →
      ∃ t, exec (.eret o) s = .next t ∧ t.thr.pc = s.thr.tr.epc ∧ t.thr.tr.inS = false ∧
        t.thr.tr.inE = (if s.thr.tr.inS then s.thr.tr.inE else false) ∧
        fieldOf t.thr.st 2 3 = fieldOf s.thr.tr.estat 2 3 ∧ fieldOf t.thr.st 5 7 = fieldOf s.thr.tr.estat 5 7 ∧
        fieldOf t.thr.st 16 1 = fieldOf s.thr.tr.estat 16 1 ∧
        fieldOf t.thr.st 0 2 = (if s.thr.sup then (if fieldOf s.thr.tr.estat 0 2 = 0 then 0 else 1) else fieldOf s.thr.st 0 2) ∧
        fieldOf t.thr.st 12 4 = fieldOf s.thr.st 12 4 ∧ fieldOf t.thr.st 17 47 = fieldOf s.thr.st 17 47 ∧
        t.thr.g = s.thr.g ∧ t.thr.tb = s.thr.tb ∧ t.mem = s.mem ∧ t.core = s.core ∧ t.sys = s.sys) ∧
    (s.thr.tr.inE = false → s.thr.tr.inS = false → ∀ w, encode (.eret o) = some w → exec (.eret o) s = .next (s.trap (cause 0x01 (w.setWidth 64)))) ∧
    (s.thr.tr.inE = true ∨ s.thr.tr.inS = true → s.thr.tr.epc.toNat % 4 ≠ 0 → exec (.eret o) s = .next (s.trap (cause 0x03 s.thr.tr.epc))))

/-- A privileged word in launch mode takes PRIV with the word: the supervisor instructions, MFS and MTS of every register that R334
marks PRIV, MTS of a CLSEL register, and MTS of ERRINJ while LOPEN is 0. An access to an index that names no register takes ILLEG in
both modes. -/
def Obligations.Privilege : Prop :=
  ∀ (s : State) (i : Instr) (w : BitVec 32), s.thr.live = true → encode i = some w →
    let priv (n : Nat) : Prop := n = 0x006 ∨ (0x100 ≤ n ∧ n ≤ 0x102) ∨ (0x104 ≤ n ∧ n ≤ 0x106) ∨ (0x110 ≤ n ∧ n ≤ 0x11F) ∨ (0x4000 ≤ n ∧ n ≤ 0x41FF)
    let named (n : Nat) : Prop := n ≤ 0x007 ∨ (0x010 ≤ n ∧ n ≤ 0x018) ∨ (0x020 ≤ n ∧ n ≤ 0x027) ∨ (0x030 ≤ n ∧ n ≤ 0x037) ∨
      (0x100 ≤ n ∧ n ≤ 0x106) ∨ (0x110 ≤ n ∧ n ≤ 0x11F) ∨ (0x4000 ≤ n ∧ n ≤ 0x41FF)
    (s.thr.sup = false → (∃ o, i = .tlbi o) ∨ (∃ o, i = .idle o) ∨ (∃ o, i = .spill o) ∨ (∃ o, i = .tflush o) ∨ (∃ o, i = .incinit o) ∨
        (∃ o : MfsOp, i = .mfs o ∧ priv o.idx.toNat) ∨
        (∃ o : MtsOp, i = .mts o ∧ (priv o.idx.toNat ∨ (0x030 ≤ o.idx.toNat ∧ o.idx.toNat ≤ 0x037) ∨
          (o.idx.toNat = 0x103 ∧ s.core.errinj.getLsbD 63 = false))) →
      exec i s = .next (s.trap (cause 0x02 (w.setWidth 64)))) ∧
    ((∃ o : MfsOp, i = .mfs o ∧ ¬ named o.idx.toNat) ∨ (∃ o : MtsOp, i = .mts o ∧ ¬ named o.idx.toNat) →
      exec i s = .next (s.trap (cause 0x01 (w.setWidth 64))))

/-! ## System registers, counters, capabilities -/

/-- MFS of a named register in a mode that may read it returns its value as a long result; the values of the registers of the
thread, the core and the package (until a core writes them, its roots of translation and SPSAVE are those that firmware set). MTS of a named register in a mode that may write it writes the register's writable bits and
goes on: st, the trap registers, SVEC, WATCH and the roots of translation. A rounding mode above 4 is illegal and writes
nothing. -/
def Obligations.SystemRegisters : Prop :=
  (∀ (o : MfsOp) (s s1 : State) (vs : List Word), s.thr.live = true → sysNamed o.idx.toNat = true →
    (s.thr.sup = true ∨ sysPriv o.idx.toNat = false) → s.readsLong [] o.d = some (s1, vs) → (o.idx.toNat = 0 → s.hasNarrow s.thr.frame = false) →
    (o.idx.toNat = 7 → s.thr.damage.contains 21 = false) →
    exec (.mfs o) s = .next (s1.finishLong o.sw o.d (Pending.ofVal (s1.sysGet o.idx.toNat) 0)) ∧
    ∀ x ∈ [(0x000, s.thr.st), (0x001, s.thr.tr.epc), (0x002, s.thr.tr.ecause), (0x003, s.thr.tr.eval), (0x004, s.thr.tr.estat),
        (0x005, s.thr.tr.evec), (0x006, s.sys.svec), (0x007, s.thr.tb), (0x014, BitVec.ofNat 64 (s.core.id / 256)),
        (0x015, BitVec.ofNat 64 s.thr.launch), (0x016, BitVec.ofNat 64 s.cc), (0x100, s.core.rot), (0x104, s.core.watch),
        (0x105, s.coreReg s.core.id 0x105), (0x106, s.coreReg s.core.id 0x106), (0x110, s.coreReg s.core.id 0x110), (0x11F, s.coreReg s.core.id 0x11F)],
      o.idx.toNat = x.1 → s1.sysGet o.idx.toNat = x.2) ∧
  (∀ (o : MtsOp) (s s1 : State) (v : Word), s.thr.live = true → sysNamed o.idx.toNat = true →
    (s.thr.sup = true ∨ s.mtsPriv o.idx.toNat = false) → s.reads [o.a] .gz = some (s1, [v]) →
    (o.idx.toNat = 0 → 5 ≤ v.toNat / 4 % 8 → ∀ w, encode (.mts o) = some w → exec (.mts o) s = .next (s.trap (cause 0x01 (w.setWidth 64)))) ∧
    ((o.idx.toNat = 0 → v.toNat / 4 % 8 < 5) → (o.idx.toNat = 0x102 → v.getLsbD 11 = false) →
      exec (.mts o) s = .next ((s1.sysPut o.idx.toNat v).retire o.sw)) ∧
    (s1.sysPut 0 v).thr.st = (s1.thr.st &&& ~~~(0x10FFC : Word)) ||| (v &&& 0x10FFC) ∧ (s1.sysPut 0 v).thr.g = s1.thr.g ∧
    (s1.sysPut 1 v).thr = { s1.thr with tr := { s1.thr.tr with epc := v } } ∧
    (s1.sysPut 2 v).thr = { s1.thr with tr := { s1.thr.tr with ecause := v &&& 0x7FF } } ∧
    (s1.sysPut 3 v).thr = { s1.thr with tr := { s1.thr.tr with eval := v } } ∧
    (s1.sysPut 4 v).thr = { s1.thr with tr := { s1.thr.tr with estat := v } } ∧
    (s1.sysPut 5 v).thr = { s1.thr with tr := { s1.thr.tr with evec := v } } ∧
    s1.sysPut 6 v = { s1 with sys := { s1.sys with svec := v } } ∧
    (∀ n ∈ [0x007, 0x010, 0x011, 0x012, 0x013, 0x014, 0x015, 0x016, 0x017, 0x018], s1.sysPut n v = s1) ∧
    s1.sysPut 0x104 v = { s1 with core := { s1.core with watch := v &&& ~~~(0x3C : Word) } } ∧
    ∀ n, n = 0x105 ∨ n = 0x106 ∨ (0x110 ≤ n ∧ n ≤ 0x11F) →
      (s1.sysPut n v).coreReg s1.core.id n = (if n = 0x106 then v else v &&& 0xFFFFFFFFF0000) ∧
      (∀ k, k ≠ n → (s1.sysPut n v).coreReg s1.core.id k = s1.coreReg s1.core.id k) ∧
      (∀ c k, c ≠ s1.core.id → (s1.sysPut n v).coreReg c k = s1.coreReg c k) ∧ (s1.sysPut n v).thr = s1.thr ∧ (s1.sysPut n v).mem = s1.mem)

/-- The writes that set something off: ROTCFG changes the rotation and in fixed mode takes the threads past its last position
out of it; HBMRMV acknowledges the pending removal; CORERST puts the named core in reset, or takes PROT where it may not;
ERRINJ arms an injection of each kind, or cancels one. -/
def Obligations.SystemCommands : Prop :=
  ∀ (s s1 : State) (v : Word), s.thr.live = true → s.thr.sup = true → s.reads [.gz] .gz = some (s1, [0]) → s.thr.core = s.core.id →
    (∃ t, exec (.mtsRotcfg v) s = .next t ∧ t.core.rot = v &&& 0x3F ∧ t.thr.pc = s.thr.pc + 4 ∧ t.mem = s.mem ∧
      (v.getLsbD 0 = true → ∀ u ∈ t.all, u.core = s.core.id → u.isSup = false → ∀ p, u.pos = some p → p < v.toNat / 2 % 32 + 1)) ∧
    (v.getLsbD 0 = true → s.caps.rmv = true → ∀ r rs, s.mgmt.removals = r :: rs →
      ∃ t, exec (.mtsHbmrmvAck v) s = .next t ∧ t.mgmt.removals = { r with acked := true } :: rs ∧ t.thr.pc = s.thr.pc + 4 ∧ t.mem = s.mem) ∧
    (v.getLsbD 11 = true →
      (s.resetRefused v = false → ∃ t, exec (.mtsCorerstGo v) s = .next t ∧ (t.coreOf (v.toNat % 2048)).reset = some ⟨v.getLsbD 12⟩ ∧
        t.thr.pc = s.thr.pc + 4 ∧ t.mem = s.mem) ∧
      (s.resetRefused v = true → exec (.mtsCorerstGo v) s = .next (s.trap (cause 0x05 v)))) ∧
    (∀ i k, (i = Instr.errinjArmResidFirst v ∧ k = 1) ∨ (i = .errinjArmResidBoth v ∧ k = 2) ∨ (i = .errinjArmScratchUce v ∧ k = 3) ∨
        (i = .errinjArmScratchCe v ∧ k = 4) ∨ (i = .errinjArmRegDamage v ∧ k = 5 ∧ v.getLsbD 20 = false) → v.toNat % 8 = k →
      ∃ t, exec i s = .next t ∧ t.core.errinj.getLsbD 7 = true ∧ t.core.errinj.toNat % 8 = k ∧ t.core.injSkip = v.toNat / 256 % 256 ∧
        t.core.injTid = s.thr.tid ∧ t.thr.pc = s.thr.pc + 4 ∧ t.mem = s.mem) ∧
    (v.toNat % 8 = 0 → ∃ t, exec (.errinjCancel v) s = .next t ∧ t.core.errinj.getLsbD 7 = false ∧ t.thr.pc = s.thr.pc + 4 ∧ t.mem = s.mem)

/-- CNTR returns the counter of the issuing core that its operand names, and 0 for unit 3. CAPR returns a word as a long result,
which past the end of the capability list is 0, and at 24 the enabled cores of die 0; an offset that is no multiple of 8 takes
ALIGN. -/
def Obligations.CountersAndCapabilities : Prop :=
  (∀ (o : R2) (s s1 : State) (a : Word), s.thr.live = true → s.readsLong [o.a] o.d = some (s1, [a]) →
    ∃ t, exec (.cntr o) s = .next t ∧ t.thr.pc = s1.thr.pc + 4 ∧ t.thr.g = s1.thr.g ∧ t.mem = s1.mem ∧
      (a.toNat / 8 % 4 = 3 → (t.thr.pend.getLast?.map fun p => (p.dst, p.val)) = some (o.d, 0)) ∧
      ∀ n : Fin 8, n.1 = a.toNat % 8 → a.toNat / 8 % 4 = 0 → coreTimed (s1.core.cnt[n].sel.toNat % 1024) = false →
        (t.thr.pend.getLast?.map fun p => (p.dst, p.val)) = some (o.d, s1.core.cnt[n].cnt.setWidth 64)) ∧
  (∀ (o : R2) (s s1 : State) (a : Word), s.thr.live = true → s.readsLong [o.a] o.d = some (s1, [a]) →
    (a.toNat % 8 ≠ 0 → exec (.capr o) s = .next (s.trap (cause 0x03 a))) ∧
    (a.toNat % 8 = 0 → ∃ v, exec (.capr o) s = .next (s1.finishLong o.sw o.d (Pending.ofVal v 0)) ∧
      (0x1000 ≤ a.toNat → v = 0) ∧ (a = 0 → v.toNat % 2 ^ 16 = 1) ∧
      (a.toNat = 24 → v.toNat = (ofBits ((List.range 64).map fun n => s1.enabled n)))))

/-! ## Engine registers -/

/-- ESET writes an engine register of an anchored thread that is not in use, and EGET reads it: rings, streams, copy channels. A
write to RBASE or RCFG sets the head and tail of its ring to 0, and one to RTAIL never passes its head by more than the count. -/
def Obligations.EngineRegisters : Prop :=
  (∀ (o : EsetOp) (s s1 : State) (v : Word) (r : EReg), s.thr.live = true → s.thr.anchored = true → engReg s.core.id o.n.toNat = some r →
    s.reads [o.a] .gz = some (s1, [v]) → s.core.eng.inUse r = none → exec (.eset o) s = .next ((s1.engPut s1.core.id r v).retire o.sw)) ∧
  (∀ (o : EgetOp) (s s1 : State) (vs : List Word) (r : EReg), s.thr.live = true → s.thr.anchored = true → engReg s.core.id o.n.toNat = some r →
    s.readsLong [] o.d = some (s1, vs) → exec (.eget o) s = .next (s1.finishLong o.sw o.d (Pending.ofVal (s1.engGet s1.core.id r) 0))) ∧
  (∀ (s s1 : State) (vs : List Word) (n : BitVec 9) (v : Word), s.thr.live = true → s.thr.anchored = true → s.reads [.gz] .gz = some (s1, vs) →
    (∀ i : Fin 8, n.toNat = 0x103 + 8 * i.1 →
      ∃ t, exec (.esetRtail n v) s = .next t ∧ t.thr.pc = s.thr.pc + 4 ∧ t.mem = s.mem ∧
        t.core.eng.ring[i].head = s.core.eng.ring[i].head ∧ t.core.eng.ring[i].base = s.core.eng.ring[i].base ∧
        t.core.eng.ring[i].tail = (if (v.setWidth 32 - s.core.eng.ring[i].head).toNat ≤ s.core.eng.ring[i].count then v.setWidth 32
          else s.core.eng.ring[i].head + BitVec.ofNat 32 s.core.eng.ring[i].count)) ∧
    (∀ (i : Fin 8) (k : Fin 2), n.toNat = 0x100 + 8 * i.1 + k.1 → (s.core.eng.mq.any fun m => m.names i.1) = false →
      ∃ t, exec (.esetRingConfig n v) s = .next t ∧ t.thr.pc = s.thr.pc + 4 ∧ t.mem = s.mem ∧ t.core.eng.ring[i].head = 0 ∧
        t.core.eng.ring[i].tail = 0 ∧ (k = 0 → t.core.eng.ring[i].base = v) ∧ (k = 1 → t.core.eng.ring[i].base = s.core.eng.ring[i].base)) ∧
    (∀ (i : Fin 8) (k : Fin 3), n.toNat = 4 * i.1 + k.1 → s.core.eng.vq = [] →
      ∃ t, exec (.esetStreamReg n v) s = .next t ∧ t.thr.pc = s.thr.pc + 4 ∧ t.mem = s.mem ∧
        t.core.eng.stream = s.core.eng.stream.set! (3 * i.1 + k.1) (if k = 0 then v else if k = 1 then v &&& 0x1FFFFFFFFFFFF else v &&& 0x7FFFFFFFFFFFFFFF)) ∧
    (∀ (c : Fin 4) (k : Fin 7), n.toNat = 0x20 + 8 * c.1 + k.1 → s.core.eng.ch[c].run = none → s.core.eng.ch[c].queue = [] →
      ∃ t, exec (.esetCopyReg n v) s = .next t ∧ t.thr.pc = s.thr.pc + 4 ∧ t.mem = s.mem ∧
        t.core.eng.ch[c].cwp = s.core.eng.ch[c].cwp ∧ (k = 0 → t.core.eng.ch[c].geo = v) ∧ (k = 4 → t.core.eng.ch[c].ctl = v &&& 0xFF)))

/-! ## Threads between instructions -/

/-- HALT ends its thread once no long result is outstanding and its engines are at rest. YIELD ends the run and in fixed mode
does no more; its wait ends after 32 cc and not before. TLBI is announced in a later window of the Hem once the older
stores and cache operations are performed; the window's delivery takes the translations it names out of every TLB, and the TLBI goes on
once the accesses in flight that may have used them are done; IDLE parks with code 14, or passes where a wake is pending; SPILL removes the thread of its
frame and parks with code 16. -/
def Obligations.SupervisorStops : Prop :=
  ((∀ (o : S0) (s s1 : State) (vs : List Word), s.thr.live = true → s.reads [] .gz = some (s1, vs) → s.thr.dropped = none →
    (s.thr.pend = [] → s.core.eng.owner ≠ some s.thr.frame → ∃ t, exec (.halt o) s = .next t ∧ t.thr.live = false ∧ t.mem = s.mem ∧
      t.threads.length ≤ s.threads.length ∧ ∀ u ∈ t.all, u.is s.thr.core s.thr.frame = false) ∧
    (s.thr.pend ≠ [] → ∃ t, exec (.halt o) s = .next t ∧ (t.thr.park.map fun p => p.code) = some 1 ∧ t.thr.pc = s.thr.pc)) ∧
  (∀ (o : S0) (s s1 : State) (vs : List Word), s.thr.live = true → s.reads [] .gz = some (s1, vs) →
    ∃ t, exec (.yield o) s = .next t ∧ t.thr.pc = s.thr.pc + 4 ∧ t.thr.g = s.thr.g ∧ t.mem = s.mem ∧
      (s.core.rot.getLsbD 0 = true → t = s.retire true) ∧ ∀ y, s.core.rot.getLsbD 0 = false → t.thr.yield = some y → s.thr.yield = none → y.1 = s.cc + 32) ∧
  (∀ (s : State) (y : Nat × List Nat), s.thr.live = true → s.thr.yield = some y →
    (s.cc < y.1 → exec (.yieldExpiry s.thr.core s.thr.frame) s = .fault .notEnabled) ∧
    (y.1 ≤ s.cc → ∃ t, exec (.yieldExpiry s.thr.core s.thr.frame) s = .next t ∧ t.thr = { s.thr with yield := none } ∧ t.mem = s.mem))) ∧
  ((∀ (o : S2) (s s1 : State) (a b : Word), s.thr.live = true → s.thr.sup = true → s.reads [o.a, o.b] .gz = some (s1, [a, b]) → s.thr.wake = false →
    (s.thr.phase = 0 → s1.watermark s1.core.id = s1.core.sbNum → s1.writesOut s1.core.id s1.thr.frame s1.core.sbNum = false →
      s1.thr.core = s1.core.id → (∀ p ∈ s1.thr.pend, p.cache = false) →
      ∃ (t : State) (v : Nat), exec (.tlbi o) s = .next t ∧ s.cc / 8 < v ∧
        t.mgmt.tlbis = (s.mgmt.tlbis.filter fun x => !(x.core == s.core.id && x.frame == s.thr.frame)) ++
          [⟨s.core.id, s.thr.frame, a, b, some v, [], [], []⟩] ∧
        t.thr = { s.thr with phase := tlbiKey, park := some ⟨16, 0, tlbiKey, s.cc, none⟩ } ∧ t.core = s.core ∧ t.clusters = s.clusters ∧ t.mem = s.mem) ∧
    (s.thr.phase = tlbiKey → (s.tlbiOf s.core.id s.thr.frame).all s.tlbiDone = true →
      ∃ t, exec (.tlbi o) s = .next t ∧ t.thr.phase = 0 ∧ t.tlbiOf s.core.id s.thr.frame = none ∧ t.thr.pc = s1.thr.pc + 4 ∧
        t.thr.g = s1.thr.g ∧ t.mem = s1.mem) ∧
    (s.thr.phase = tlbiKey → (s.tlbiOf s.core.id s.thr.frame).all s.tlbiDone = false →
      exec (.tlbi o) s = .next { s with thr := { s.thr with park := some ⟨16, 0, tlbiKey, s.cc, none⟩ } })) ∧
  (∀ (s : State) (w : TlbiWait) (v : Nat), s.mgmt.tlbis = [w] → w.win = some v →
    ∃ (t : State) (x : TlbiWait), exec (.hemWindowDelivery v) s = .next t ∧ 8 * v + 72 ≤ t.cc ∧ t.mgmt.tlbis = [x] ∧ x.core = w.core ∧ x.frame = w.frame ∧
      x.win = none ∧ t.mem = s.mem ∧ (∀ c ∈ t.allCores, ∀ e ∈ c.tlb, tlbiNames w.what w.ctl e = false) ∧
      (∀ c ∈ t.clusters, ∀ e ∈ c.tlb, tlbiNames w.what w.ctl e = false) ∧
      ∀ c ∈ s.allCores, ∃ d ∈ t.allCores, d.id = c.id ∧ ∀ e ∈ c.tlb, tlbiNames w.what w.ctl e = false → e ∈ d.tlb) ∧
  (∀ (o : S0) (s s1 : State) (vs : List Word), s.thr.live = true → s.thr.sup = true → s.reads [] .gz = some (s1, vs) → s.thr.pend = [] →
    (s.thr.wake = true → ∃ t, exec (.idle o) s = .next t ∧ t.thr.wake = false ∧ t.thr.park = s.thr.park ∧ t.thr.pc = s.thr.pc + 4 ∧ t.mem = s.mem) ∧
    (s.thr.wake = false → ∃ t, exec (.idle o) s = .next t ∧ (t.thr.park.map fun p => p.code) = some 14 ∧ t.thr.pc = s.thr.pc + 4 ∧
      t.thr.pos = (if s.thr.isSup then none else s.thr.pos) ∧ t.thr.g = s.thr.g ∧ t.mem = s.mem)) ∧
  (∀ (o : S1) (s s1 : State) (a : Word), s.thr.live = true → s.thr.sup = true → s.reads [o.a] .gz = some (s1, [a]) → s.thr.phase = 0 →
    (s.thr.frame = a.toNat % 64 ∨ 62 ≤ a.toNat % 64 → exec (.spill o) s = .next (s.trap (cause 0x05 a))) ∧
    (s.thr.frame ≠ a.toNat % 64 → a.toNat % 64 < 62 → s1.threadAt s1.core.id (a.toNat % 64) = none → exec (.spill o) s = .next (s1.retire o.sw)) ∧
    (∀ u, s.thr.frame ≠ a.toNat % 64 → a.toNat % 64 < 62 → s1.threadAt s1.core.id (a.toNat % 64) = some u →
      s.thr.core = s.core.id →
      ∃ (t : State) (p : Park), exec (.spill o) s = .next t ∧ t.thr.park = some p ∧ p.code = 16 ∧ p.key = a.toNat % 64 ∧ t.thr.pc = s.thr.pc ∧
        t.mem = s.mem ∧ ∀ x, t.threadAt s.core.id (a.toNat % 64) = some x → x.pos = none)))

/-- A long result that lands writes its register and joins its flags to st.FLAGS, or, once another write has taken its place,
joins its flags alone; a poisoned one marks its register with the address of the access. One for qdn is pushed once there is room,
and, poisoned, takes UCE at its instruction, or PLACE there where the bound core has been disabled. A fetch block is brought into the instruction cache, and from there reaches the thread
that waits for it with the block's bytes; a page walk that ends fills the TLBs of the cores that wait for it, and one that fails
fills nothing. A migrating thread with nothing outstanding leaves its core with its context, and arrives at the lowest free position
of the core it is bound for. The Hem delivers a window 72 cc after its start. -/
def Obligations.ThreadArrivals : Prop :=
  (∀ (s : State) (k : Nat) (p : Pending), s.thr.live = true → s.thr.frame < 64 → s.thr.pend[k]? = some p → p.ready = true →
    (p.dropped = false → ∀ n : Fin 16, p.dst = .g n →
      ∃ t, exec (.longResultLand s.thr.core s.thr.frame k) s = .next t ∧ t.thr.g = s.thr.g.set n p.val ∧ t.mem = s.mem ∧ t.thr.pc = s.thr.pc ∧
        fieldOf t.thr.st 5 5 = fieldOf s.thr.st 5 5 ||| p.flags.toNat ∧ t.thr.tagged n.1 = false ∧ (∀ q ∈ t.thr.pend, q.tok ≠ p.tok) ∧
        (∀ va, p.poison = some va → (n.1, va) ∈ t.thr.marks) ∧ (p.poison = none → ∀ m ∈ t.thr.marks, m.1 ≠ n.1)) ∧
    (p.dropped = true → ∃ t, exec (.longResultLand s.thr.core s.thr.frame k) s = .next t ∧ t.thr.g = s.thr.g ∧ t.mem = s.mem ∧
      fieldOf t.thr.st 5 5 = fieldOf s.thr.st 5 5 ||| p.flags.toNat ∧ (∀ q ∈ t.thr.pend, q.tok ≠ p.tok)) ∧
    (p.dropped = false → p.dst = .qdn → s.thr.core = s.core.id → (∀ u ∈ s.threads, u.is s.thr.core s.thr.frame = false) →
      (p.poison = none → s.core.qdn.isSome = true → (∀ c, s.core.qdn = some c → s.enabled c = true) → s.qdnRoom = true → ∃ (t : State) (m : Msg),
        exec (.longResultLand s.thr.core s.thr.frame k) s = .next t ∧ t.net.pushes = s.net.pushes ++ [m] ∧ m.word = p.val ∧
        t.thr.g = s.thr.g ∧ t.thr.pc = s.thr.pc ∧ t.mem = s.mem ∧ (∀ q ∈ t.thr.pend, q.tok ≠ p.tok)) ∧
      (p.poison = none → (∀ c, s.core.qdn = some c → s.enabled c = true) → s.qdnRoom = false →
        exec (.longResultLand s.thr.core s.thr.frame k) s = .fault .notEnabled) ∧
      (∀ c, p.poison = none → s.core.qdn = some c → s.enabled c = false → p.recv = false → s.thr.pos.isSome = true →
        exec (.longResultLand s.thr.core s.thr.frame k) s =
          .next (({ s with thr := { s.thr.land p with pc := p.pc, park := none, popped := p.popped } } : State).trap (cause cPLACE 0))) ∧
      (∀ va, p.poison = some va → p.recv = false → s.thr.pos.isSome = true → exec (.longResultLand s.thr.core s.thr.frame k) s =
        .next (({ s with thr := { s.thr.land p with pc := p.pc, park := none, popped := p.popped } } : State).trap (cause cUCE va))))) ∧
  ((∀ (s : State) (b : Nat) (x : Xlate), s.thr.live = true → s.threads = [] → s.blockOf s.thr = some (b, x) → (s.coreOf s.thr.core).reset = none →
    (b ∉ (s.clusterAt (clusterOf s.thr.core)).ic →
      ∃ t, exec (.fetchBlock (clusterOf s.thr.core) b) s = .next t ∧ b ∈ (t.clusterAt (clusterOf s.thr.core)).ic ∧ t.thr = s.thr ∧ t.mem = s.mem) ∧
    (b ∈ (s.clusterAt (clusterOf s.thr.core)).ic →
      ∃ t, exec (.fetchBlock (clusterOf s.thr.core) b) s = .next t ∧ t.thr.pc = s.thr.pc ∧ t.thr.g = s.thr.g ∧
        t.thr.fbuf = some (s.thr.pc.toNat / 32, BitVec.ofNat 256 (readBytes s.mem.bytes (b * 32) 32)))) ∧
  (∀ (s : State) (core tenant : Nat) (va : Word) (w : WalkReq), s.Inv → s.enabled core = true →
    w = ⟨clusterOf core, some tenant, va.toNat / 0x10000 * 0x10000⟩ → w ∈ s.runningWalks (clusterOf core / 16) →
    (∀ e, s.lookup core (some tenant) va.toNat = .error e → ∃ t, exec (.tlbWalkComplete core tenant false va) s = .next t ∧ t.mem = s.mem ∧
      t.walks = s.walks.filter (fun v => v != w) ∧ (∀ n, (t.coreOf n).tlb = (s.coreOf n).tlb) ∧ ∀ n, (t.clusterAt n).tlb = (s.clusterAt n).tlb) ∧
    (∀ x, s.lookup core (some tenant) va.toNat = .ok x →
      ∃ t, exec (.tlbWalkComplete core tenant false va) s = .next t ∧ w ∉ t.walks ∧
        (∀ c, c = core ∧ s.walkWaiters (clusterOf core) (some tenant) (va.toNat / 0x10000) = [] ∧
              s.walkCopies (clusterOf core) (some tenant) (va.toNat / 0x10000) = [] ∨
            (∃ u ∈ s.walkWaiters (clusterOf core) (some tenant) (va.toNat / 0x10000), u.core = c) →
          (tlbFind (t.coreOf c).tlb (some tenant) va.toNat).isSome = true) ∧
        ∀ a, (∀ y ∈ x.walked, a < y ∨ y + 8 ≤ a) → t.byteAt a = s.byteAt a))) ∧
  ((∀ (s : State) (n : Nat), s.thr.live = true → s.thr.migr = some n → s.thr.pend = [] → s.drained s.thr = true →
    s.accepts n = true → (∀ l, s.launchOf s.thr.launch = some l → l.ovf s.thr.core = 0) →
    ∃ (t : State) (u : Thread), exec (.migrationDepart s.thr.core s.thr.frame) s = .next t ∧ t.thr.live = false ∧ t.net.moves = s.net.moves ++ [u] ∧
      u.g = s.thr.g ∧ u.pc = s.thr.pc ∧ u.st = s.thr.st ∧ u.tb = s.thr.tb ∧ u.tr = s.thr.tr ∧ u.migr = some n ∧ u.resv = none ∧ u.pos = none ∧
      u.phase = 0 ∧ t.mem = s.mem) ∧
  (∀ (s : State) (u : Thread) (n p f : Nat) (ps fs : List Nat), s.net.moves = [u] → u.migr = some n → s.thr.live = true →
    ({ s with net := { s.net with moves := [] } }).accepts n = true → s.freePos n = p :: ps → s.freeFrames n = f :: fs →
    ∃ t, exec (.threadArrival 0) s = .next t ∧ t.net.moves = [] ∧ t.mem = s.mem ∧
      { u with core := n, frame := f, pos := some p, migr := none, park := none } ∈ t.all) ∧
  (∀ (s : State) (core w : Nat), s.hem = [(core, w)] → s.mgmt.tlbis = [] → ∃ t, exec (.hemWindowDelivery w) s = .next t ∧ 8 * w + 72 ≤ t.cc ∧ t.hem = [] ∧ t.mem = s.mem))

/-! ## Removed threads, spilled state -/

/-- The engines of a removed owner pass on with its operations recorded; a removed thread that may come back takes the lowest
free position with its registers as they were, and an idle supervisor thread that is woken does too. A thread chosen for
spilling leaves its frame, with g0 to g15, pc, st and tb in the words of its record in that order; its reload takes the lowest
free frame and the words its record then holds (pc with its low bits 0: the model's choice, log 64). A scratchpad saved for a launch of another tenant stands byte for byte in its
save slot and reads 0 and full for the new tenant; restored, it holds the bytes of the slot again. -/
def Obligations.ThreadsRemoved : Prop :=
  ((∀ (s : State) (core f : Nat) (t : Thread), (s.coreOf core).eng.owner = some f → f ≠ 64 → s.threadAt core f = some t → t.pos = none →
    ((s.coreOf core).eng.mq.any fun m => m.frame == f && m.begun && !m.dying) = false →
    ((s.coreOf core).eng.vq.all fun b => b.frame != f || b.cur.isNone) = true → s.nextAnch core = none →
    ∃ u, exec (.engineRelease core) s = .next u ∧ (u.coreOf core).eng.owner = none ∧ u.mem = s.mem ∧
      (∀ m ∈ (u.coreOf core).eng.mq, m.frame = f → m.begun = true) ∧ (∀ b ∈ (u.coreOf core).eng.vq, b.frame = f → b.dying = true) ∧
      ∀ x, u.threadAt core f = some x → x = { t with recorded := (s.coreOf core).eng.records f }) ∧
  (∀ (s : State) (core f p : Nat) (ps : List Nat) (t : Thread), s.threadAt core f = some t → t.isSup = false → t.frame < 64 →
    s.mayReturn t = true → s.outranked t = false → s.freePos core = p :: ps →
    ∃ (u : State) (x : Thread), exec (.removedThreadReturn core f) s = .next u ∧ u.threadAt core f = some x ∧ x.pos = some p ∧ x.g = t.g ∧
      x.pc = t.pc ∧ x.tr = t.tr ∧ x.launch = t.launch ∧ u.mem = s.mem) ∧
  (∀ (s : State) (core f p : Nat) (ps : List Nat) (t : Thread), s.threadAt core f = some t → t.isSup = true → t.pos = none →
    s.enabled core = true → (s.coreOf core).reset = none → s.freePos core = p :: ps →
    (t.wake = true → ∃ (u : State) (x : Thread), exec (.removedThreadReturn core f) s = .next u ∧ u.threadAt core f = some x ∧
      x = { t with pos := some p, park := none, wake := false } ∧ u.mem = s.mem) ∧
    (t.wake = false → exec (.removedThreadReturn core f) s = .fault .notEnabled))) ∧
  ((∀ (s : State) (core : Nat) (t y : Thread) (l : Launch), s.spillNext core = some t → s.launchOf t.launch = some l → l.id = t.launch →
    s.spillReady t = true → s.spillMapped l t = true →
    s.threadAt t.core t.frame = some y →
    ∃ (u : State) (m : Launch) (x : Spilled), exec (.spillEngineRun core) s = .next u ∧ u.launchOf t.launch = some m ∧ x ∈ m.spilled ∧ x.idx = y.idx ∧
      ((∀ i : Fin 16, x.words.getD i.1 0 = y.g[i]) ∧ x.words.getD 16 0 = y.pc ∧
        x.words.getD 17 0 = y.st ∧ x.words.getD 18 0 = y.tb ∧ x.words.getD 22 0 = y.tr.epc ∧ x.words.getD 23 0 = y.tr.ecause ∧
        x.words.getD 24 0 = y.tr.eval ∧ x.words.getD 25 0 = y.tr.estat) ∧
      ∀ z ∈ u.all, z.is t.core t.frame = false) ∧
  (∀ (s : State) (launch idx core f : Nat) (fs : List Nat) (t : Thread) (l : Launch) (ws : List Word), s.threadOf ⟨launch, idx⟩ = some t →
    s.launchOf launch = some l → s.freeFrames core = f :: fs → t.core = core → s.mayReload t = true → s.outranked t = false →
    s.spillAsked core f = false → s.areaMapped core l.info.tenant (l.recordAt idx) 256 true = true →
    ws = s.recordNow l t → (s.ofRecord t fun i => ws.getD i 0).anchored = false → (ws.getD 20 0).toNat % 2 ^ 16 = 0 →
    ∃ (u : State) (x : Thread), exec (.threadReload launch idx core) s = .next u ∧ x ∈ u.all ∧ x.launch = t.launch ∧ x.idx = t.idx ∧ x.core = core ∧
      x.frame = f ∧ x.pos = none ∧ (∀ i : Fin 16, x.g[i] = ws.getD i.1 0) ∧ x.pc = aligned (ws.getD 16 0) ∧
      x.st = s.stOfRecord t (fun i => ws.getD i 0) ∧ x.tb = ws.getD 18 0 ∧ x.tr.evec = t.tr.evec)) ∧
  ((∀ (s : State) (core tenant k : Nat) (l : Launch), s.Inv → s.saveFor core = some (l, tenant, k) → s.slotAt core k + 0x84000 ≤ 2 ^ 48 →
    ((s.onCore core).all fun u => u.pos.isNone || s.tenantOf u.launch != some tenant) = true → (s.coreOf core).eng.owner = none →
    s.scratchQuiet core = true →
    ∃ t, exec (.scratchpadSave core) s = .next t ∧ (t.coreOf core).spOwner = some l.info.tenant ∧ (k, tenant) ∈ (t.coreOf core).saved ∧
      ∀ off, off < 0x80000 → t.byteAt (s.slotAt core k + off) = s.byteAt (scratchKey core off) ∧ t.byteAt (scratchKey core off) = 0 ∧
        t.mem.isFull (scratchKey core (off / 8 * 8)) = true) ∧
  (∀ (s : State) (core tenant k : Nat), s.Inv → ((s.coreOf core).saved.find? fun x => x.2 == tenant) = some (k, tenant) →
    s.slotAt core k + 0x84000 ≤ 2 ^ 48 → s.wanting core = none → s.scratchFree core tenant = true → s.scratchQuiet core = true →
    (s.coreOf core).waits = [] →
    ∃ t, exec (.scratchpadRestore core tenant) s = .next t ∧ (t.coreOf core).spOwner = some tenant ∧
      ∀ off, off < 0x80000 → t.byteAt (scratchKey core off) = s.byteAt (s.slotAt core k + off)))

/-! ## The seam -/

/-- A request reaches the slice of its line and is served as the table of R154 says. With no holder a read leaves its agent the exclusive
owner, a request for ownership the modified owner, and a write-back or an eviction nothing. At a shared line a read adds its agent, an
eviction takes it away, the last one the entry too, and a request for ownership takes the line, once the other sharers have been snooped.
At a line that another agent owns in E, M or O a read has the owner snooped for its data, a request for ownership has it and every sharer
invalidated; the line is busy until they have answered. The owner's write-back leaves the line to its sharers, or to no one; that of an
agent which does not own the line is discarded. At a busy line a request queues, and waits outside while the slice has no queue entry, or
its set no way, for which a recall starts. A request of a dead agent is discarded and counted. -/
def Obligations.SeamRequests : Prop :=
  (∀ (s : State) (i : Instr) (a line : Nat) (r : CReq), seamForm s i = some (a, line, r) → s.mayRequest a line = true →
    (s.dirOf line = none → s.setFullFor line = false →
      (r = .rds → ∃ (t : State) (e : DirEntry), exec i s = .next t ∧ t.hasEntry line e ∧ e.st = .e ∧ e.owner = a ∧ e.sharers = 0 ∧
        e.busy = false ∧ t.mem = s.mem) ∧
      (r = .rdx ∨ r = .upg → ∃ (t : State) (e : DirEntry), exec i s = .next t ∧ t.hasEntry line e ∧ e.st = .m ∧ e.owner = a ∧
        e.sharers = 0 ∧ e.busy = false ∧ t.mem = s.mem) ∧
      (r.asks = false → ∃ t, exec i s = .next t ∧ t.dirOf line = none ∧ t.mem = s.mem)) ∧
    (s.dirOf line = none → s.setFullFor line = true → r.asks = true →
      ∃ t, exec i s = .next t ∧ t.seam.waits = s.seam.waits ++ [(a, line, r)] ∧ t.dirOf line = none ∧ t.mem = s.mem ∧
        (s.recalling line = false → ∀ v, s.victimOf line = some v →
          ∃ x, t.dirOf v.line = some x ∧ x.busy = true ∧ x.evict = true ∧ x.st = v.st ∧ x.owner = v.owner ∧ x.sharers = v.sharers)) ∧
    (∀ e, s.dirOf line = some e → e.busy = false → r = .rds →
      (e.st = .s → e.sharers ≠ 0 → ∃ (t : State) (x : DirEntry), exec i s = .next t ∧ t.hasEntry line x ∧ x.st = .s ∧ x.owner = e.owner ∧
        x.sharers = e.sharers ||| BitVec.ofNat 13 (2 ^ a) ∧ x.busy = false ∧ t.mem = s.mem) ∧
      (e.st ≠ .s → e.owner ≠ a → ∃ (t : State) (x : DirEntry), exec i s = .next t ∧ t.dirOf line = some x ∧ x.busy = true ∧
        x.serving = some (a, r) ∧ x.st = e.st ∧ x.owner = e.owner ∧ x.sharers = e.sharers ∧
        t.seam.snoops = s.seam.snoops ++ [(e.owner, line, false)] ∧ t.mem = s.mem)) ∧
    (∀ e, s.dirOf line = some e → e.busy = false → r = .rdx ∨ r = .upg →
      let owned := e.st ≠ .s ∧ e.owner ≠ a
      let others := (List.range 13).filter fun b => b != a && e.sharers.getLsbD b && !(e.st != .s && e.owner != a && b == e.owner)
      (¬ owned → others = [] → ∃ (t : State) (x : DirEntry), exec i s = .next t ∧ t.hasEntry line x ∧ x.st = .m ∧ x.owner = a ∧
        x.sharers = 0 ∧ x.busy = false ∧ t.mem = s.mem) ∧
      (owned ∨ others ≠ [] → ∃ (t : State) (x : DirEntry), exec i s = .next t ∧ t.dirOf line = some x ∧ x.busy = true ∧
        x.serving = some (a, r) ∧ x.st = e.st ∧ x.owner = e.owner ∧ x.sharers = e.sharers ∧ t.mem = s.mem ∧
        t.seam.snoops = s.seam.snoops ++ ((if e.st != .s && e.owner != a then [(e.owner, line, true)] else []) ++ others.map fun b => (b, line, true)))) ∧
    (∀ e d, s.dirOf line = some e → e.busy = false → r = .wb d →
      (e.st ≠ .s → e.owner = a → e.sharers ≠ 0 → ∃ (t : State) (x : DirEntry), exec i s = .next t ∧ t.hasEntry line x ∧ x.st = .s ∧
        x.sharers = e.sharers ∧ x.busy = false ∧ (a < 8 → t.dieHolds a line = false) ∧ t.mem = s.mem) ∧
      (e.st ≠ .s → e.owner = a → e.sharers = 0 → ∃ t, exec i s = .next t ∧ t.dirOf line = none ∧ (a < 8 → t.dieHolds a line = false) ∧ t.mem = s.mem) ∧
      ((e.st ≠ .s ∧ e.owner ≠ a) ∨ (e.st = .s ∧ e.sharers ≠ 0) → ∃ (t : State) (x : DirEntry), exec i s = .next t ∧ t.hasEntry line x ∧ x.st = e.st ∧
        x.owner = e.owner ∧ x.sharers = e.sharers ∧ x.busy = false ∧ t.mem = s.mem)) ∧
    (∀ e, s.dirOf line = some e → e.busy = false → r = .evc → e.st = .s →
      let left := e.sharers &&& ~~~(BitVec.ofNat 13 (2 ^ a))
      (left = 0 → ∃ t, exec i s = .next t ∧ t.dirOf line = none ∧ t.mem = s.mem) ∧
      (left ≠ 0 → ∃ (t : State) (x : DirEntry), exec i s = .next t ∧ t.hasEntry line x ∧ x.st = .s ∧ x.sharers = left ∧ x.busy = false ∧ t.mem = s.mem)) ∧
    (∀ e, s.dirOf line = some e → e.busy = true →
      (s.queueFull line = false → ∃ (t : State) (x : DirEntry), exec i s = .next t ∧ t.dirOf line = some x ∧ x.queue = e.queue ++ [(a, r)] ∧
        x.busy = true ∧ x.st = e.st ∧ x.owner = e.owner ∧ x.sharers = e.sharers ∧ t.mem = s.mem) ∧
      (s.queueFull line = true → ∃ t, exec i s = .next t ∧ t.seam.waits = s.seam.waits ++ [(a, line, r)] ∧ t.dirOf line = some e ∧
        t.mem = s.mem))) ∧
  (∀ (s : State) (i : Instr) (a line : Nat) (r : CReq), seamForm s i = some (a, line, r) → s.caps.dead.getLsbD a = true →
    exec i s = .next (s.countSlice (dirSlice line) 0x208))

/-- A snoop that arrives leaves an invalidated die without the line and takes it out of the entry; the owner that a read has snooped keeps
the line in S where its copy was clean, and in O where it was dirty. A transaction ends when its snoops have been answered: the read's
agent is added, a request for ownership leaves its agent the modified owner. A recall that completes leaves no die with the line and no
entry for it. A snoop of the host for its own memory has the die that owns the line snooped; a request of the host that is not supported
changes no state but its count. -/
def Obligations.SeamTransactions : Prop :=
  (∀ (s : State) (die line : Nat) (inv : Bool), die < 8 → (die, line, inv) ∈ s.seam.snoops → s.caps.dead.getLsbD die = false →
    s.asked die line = true ∨ s.ahead die line = [] →
    ∃ t, exec (.snoopArrival die line inv) s = .next t ∧ t.seam.snoops = s.seam.snoops.erase (die, line, inv) ∧ t.mem = s.mem ∧
      (inv = true → t.dieHolds die line = false) ∧
      ∀ e, s.dirOf line = some e → ∃ x, t.dirOf line = some x ∧ x.busy = e.busy ∧
        (inv = true → x.sharers = e.sharers &&& ~~~(BitVec.ofNat 13 (2 ^ die)) ∧ x.st = (if e.owner = die then .s else e.st)) ∧
        (inv = false → e.st ≠ .s → e.owner = die →
          if e.st = .e ∧ s.dieDirty die line = false ∧ s.wbPending die line = false then
            x.st = .s ∧ x.sharers = e.sharers ||| BitVec.ofNat 13 (2 ^ die)
          else x.st = .o ∧ x.owner = die ∧ x.sharers = e.sharers)) ∧
  (∀ (s : State) (line : Nat) (e : DirEntry), s.dirOf line = some e → e.busy = true → s.caps.fovr = false →
    (e.evict = false → e.queue = [] → (s.seam.snoops.all fun x => x.2.1 != line) = true →
      (∀ a, a < 13 → e.serving = some (a, .rds) → e.st ≠ .s ∨ e.sharers ≠ 0 → ¬ (e.st ≠ .s ∧ e.owner = a) →
        ∃ (t : State) (x : DirEntry), exec (.seamTransactionEnd line) s = .next t ∧ t.hasEntry line x ∧ x.busy = false ∧ x.st = e.st ∧
          x.owner = e.owner ∧ x.sharers = e.sharers ||| BitVec.ofNat 13 (2 ^ a) ∧ t.mem = s.mem) ∧
      (∀ a, a < 13 → e.serving = some (a, .rdx) ∨ e.serving = some (a, .upg) →
        ∃ (t : State) (x : DirEntry), exec (.seamTransactionEnd line) s = .next t ∧ t.hasEntry line x ∧ x.busy = false ∧ x.st = .m ∧ x.owner = a ∧
          x.sharers = 0 ∧ t.mem = s.mem) ∧
      (e.serving = none → ∃ (t : State) (x : DirEntry), exec (.seamTransactionEnd line) s = .next t ∧ t.hasEntry line x ∧ x.busy = false ∧
        x.st = e.st ∧ x.owner = e.owner ∧ x.sharers = e.sharers ∧ t.mem = s.mem)) ∧
    ((s.seam.snoops.any fun x => x.2.1 == line) = true → exec (.seamTransactionEnd line) s = .fault .notEnabled) ∧
    (e.evict = true → e.queue = [] → s.seam.waits = [] →
      ∃ t, exec (.directoryRecallComplete line) s = .next t ∧ t.dirOf line = none ∧ t.mem = s.mem ∧ ∀ d, d < 8 → t.dieHolds d line = false)) ∧
  (∀ (s : State) (line d : Nat) (e : DirEntry), s.hostSnoops line = true → s.releasing (line * 64) = false → s.dirOf line = some e → e.busy = false →
    e.st ≠ .s → e.owner = d → d < 8 → e.sharers = 0 →
    ∀ i inv, (i = Instr.hostSnpdata line ∧ inv = false) ∨ (i = .hostSnpinv line ∧ inv = true) →
      ∃ (t : State) (x : DirEntry), exec i s = .next t ∧ t.dirOf line = some x ∧ x.busy = true ∧ t.seam.snoops = s.seam.snoops ++ [(d, line, inv)] ∧
        x.serving = some (8, if inv then .rdx else .rds) ∧ x.st = e.st ∧ x.owner = d ∧ t.mem = s.mem) ∧
  (∀ (s : State) (seam : Nat), s.windowUp seam = true → ∃ t, exec (.hostUnsupportedRequest seam) s = .next t ∧
    t = { s with seam := t.seam } ∧ t.seam.dir = s.seam.dir ∧ t.seam.snoops = s.seam.snoops)

/-- A compute die that has not answered for 120,000 cc is dead: its incarnation advances, the health record says so and no thread
is left in a frame of it; the host or a port is dead once its link is down; a core that has not answered is put in reset. The failure of a seam leaves the other to serve, and once the
failover is done the package runs without a directory for its dies. -/
def Obligations.DeadAgents : Prop :=
  (∀ (s : State) (a : Fin 13), a.1 < s.pkg.dies → a.1 < 8 → s.caps.dead.getLsbD a.1 = false → (s.seam.snoops.any fun x => x.1 == a.1) = true →
    ∃ t, exec (.agentDead a.1) s = .next t ∧ t.caps.dead.getLsbD a.1 = true ∧ t.caps.incarn[a] = s.caps.incarn[a] + 1 ∧
      s.cc + 120000 ≤ t.cc ∧ (∀ u ∈ t.all, dieOf u.core = a.1 → u.spilled = true) ∧ t.health.why.getLsbD 5 = true ∧ t.mem.bytes = s.mem.bytes) ∧
  (∀ (s : State) (a : Fin 13), 8 ≤ a.1 → s.caps.dead.getLsbD a.1 = false → s.agentLinkDown a.1 = true →
    ∃ t, exec (.agentDead a.1) s = .next t ∧ t.caps.dead.getLsbD a.1 = true ∧ t.caps.incarn[a] = s.caps.incarn[a] + 1 ∧ t.cc = s.cc ∧
      t.mem.bytes = s.mem.bytes) ∧
  (∀ (s : State) (core : Nat), s.enabled core = true → (s.coreOf core).reset = none → (s.seam.snoops.any fun x => x.1 == dieOf core) = true →
    ∃ t, exec (.coreSnoopTimeout core) s = .next t ∧ (t.coreOf core).reset = some ⟨false⟩ ∧ t.cc = s.cc + 120000 ∧ t.mem = s.mem) ∧
  (∀ (s : State) (seam : Nat), seam < 2 → s.caps.seamOk = 3 → s.caps.fovr = false →
    ∃ t, exec (.seamFailure seam) s = .next t ∧ t.caps.seamOk = (if seam = 0 then 2 else 1) ∧ t.caps.fovr = true ∧ t.caps.surv = 1 - seam ∧
      (∀ x ∈ t.launcher.slots, x.seam ≠ seam) ∧ t.mem = s.mem) ∧
  (∀ (s : State), s.caps.fovr = true → s.caps.dless = false →
    ∃ t, exec .failoverComplete s = .next t ∧ t.caps.dless = true ∧ t.caps.fovr = false ∧ t.health.why.getLsbD 1 = true ∧ t.mem.bytes = s.mem.bytes)

/-! ## Links -/

/-- Dynamic capacity: an extent added within the reach of a trained port is backed; a release takes effect once its lines are
recalled, or by force 1,200,000 cc after the request; a back-invalidate leaves no die with the line, or, for data, no die with a
dirty copy; a combining entry that is
drained is gone. A link that trains is shown in the records, one that goes down leaves them and posts its event, and a peer
link that fails while another reaches the node loses nothing. The host enables CXL.cache and CXL.mem. -/
def Obligations.Links : Prop :=
  ((∀ (s : State) (p : Fin 4) (base size : Nat), s.links.ports[p].up = true → s.links.ports[p].dcd = true → 0 < size → base % 64 = 0 → size % 64 = 0 →
    portReaches p.1 base size s.links.ports[p].fabric = true →
    ((s.links.ports.toList.all fun q => q.extents.all fun x => x.1 + x.2 ≤ base || base + size ≤ x.1) = true →
      ∃ t, exec (.dynamicCapacityAdd p.1 base size) s = .next t ∧ t.links.ports[p].extents = s.links.ports[p].extents ++ [(base, size)] ∧ t.mem = s.mem) ∧
    ((s.links.ports[p].extents.any fun x => x.1 ≤ base && base + size ≤ x.1 + x.2) = true → s.links.releases = [] →
      ∃ t, exec (.dcdReleaseRequest p.1 base size) s = .next t ∧ t.links.releases = [⟨p.1, base, size, s.cc⟩] ∧ t.mem = s.mem)) ∧
  (∀ (s : State) (r : Release), s.links.releases = [r] → r.port < 4 →
    ((s.seam.dir.all fun e => !(r.has e.line && e.busy)) = true →
      ∃ t, exec (.dcdReleaseComplete 0) s = .next t ∧ t.links.releases = [] ∧ t.mem = s.mem ∧ (∀ c ∈ t.seam.comb, r.has c.line = false) ∧
        ∀ x ∈ (t.port r.port).extents, x.1 + x.2 ≤ r.base ∨ r.base + r.size ≤ x.1) ∧
    ∃ t, exec (.dcdForcedRelease 0) s = .next t ∧ t.links.releases = [] ∧ r.since + 1200000 ≤ t.cc ∧ t.mem = s.mem) ∧
  (∀ (s : State) (p : Fin 4) (line : Nat) (inv : Bool), s.links.ports[p].up = true → s.agentUp (9 + p.1) = true → s.caps.fovr = false →
    portReaches p.1 (line * 64) 64 s.links.ports[p].fabric = true → (∀ e, s.dirOf line = some e → e.busy = false) →
    ∃ t, exec (.expanderBackInvalidate p.1 ⟨line, inv⟩) s = .next t ∧ t.mem = s.mem ∧
      (inv = true → t.dirOf line = none ∧ ∀ d, d < 8 → t.dieHolds d line = false) ∧
      (inv = false → (∀ e, t.dirOf line = some e → e.st = .s) ∧ ∀ d, d < 8 → t.dieDirty d line = false ∧ t.dieHolds d line = s.dieHolds d line)) ∧
  (∀ (s : State) (line : Nat), (s.seam.comb.any fun c => c.line == line && decide (c.since + 12000 ≤ s.cc)) = true →
    ∃ t, exec (.combiningBufferDrain line) s = .next t ∧ t.mem = s.mem ∧ ∀ c ∈ t.seam.comb, c.line ≠ line)) ∧
  ((∀ (s : State) (n : Nat), n < 2 → s.caps.seamOk.getLsbD n = true →
    (s.links.up.getLsbD n = false → ∃ t, exec (.linkTrained (.host n)) s = .next t ∧ t.links.up.getLsbD n = true ∧ t.mem = s.mem) ∧
    (s.links.up.getLsbD n = true → s.mgmt.events.length < 256 → ∃ t, exec (.linkDown (.host n)) s = .next t ∧ t.links.up.getLsbD n = false ∧
      t.mgmt.events = s.mgmt.events ++ [⟨5, 0, BitVec.ofNat 64 n⟩] ∧ t.mem = s.mem)) ∧
  (∀ (s : State) (p : Fin 4) (width rate : Nat) (dcd fabric : Bool), s.mgmt.booted = true → s.caps.seamOk.getLsbD (p.1 / 2) = true →
    (s.links.ports[p].up = false → width ≤ 16 → rate ≤ 64 →
      ∃ t, exec (.linkTrained (.cxl p.1 width rate dcd fabric)) s = .next t ∧ t.links.ports[p].up = true ∧ t.links.ports[p].width = width ∧
        t.links.ports[p].rate = rate ∧ t.links.ports[p].dcd = dcd ∧ t.links.ports[p].fabric = fabric ∧
        (dcd = true → t.links.ports[p].extents = []) ∧ t.mem = s.mem) ∧
    (s.links.ports[p].up = true → s.mgmt.events.length < 256 →
      ∃ t, exec (.linkDown (.cxl p.1 width rate dcd fabric)) s = .next t ∧ t.links.ports[p].up = false ∧ t.links.ports[p].extents = [] ∧
        t.mgmt.events = s.mgmt.events ++ [⟨5, 1, BitVec.ofNat 64 p.1⟩] ∧ t.mem = s.mem)) ∧
  (∀ (s : State) (l : Fin 16) (node remote : Nat), s.mgmt.booted = true → l.1 < 2 * s.pkg.dies → node < 8 → remote < 16 →
    (s.links.peers[l].trained = false → ∃ t, exec (.linkTrained (.peer l.1 node remote)) s = .next t ∧ t.links.peers[l] = ⟨true, node, remote⟩ ∧
      t.mem = s.mem) ∧
    (s.links.peers[l].trained = true → (∃ k : Fin 16, k ≠ l ∧ s.links.peers[k].trained = true ∧ s.links.peers[k].node = s.links.peers[l].node) →
      ∃ t, exec (.peerLinkFailure l.1) s = .next t ∧ t.links.peers[l].trained = false ∧ t.net = s.net ∧ t.threads = s.threads ∧ t.thr = s.thr ∧
        t.mem = s.mem ∧ t.mgmt = s.mgmt)) ∧
  (∀ (s : State) (cache mem : Bool), cache = true ∨ mem = true → s.links.up &&& s.caps.seamOk ≠ 0 →
    ∃ t, exec (.cxlCacheMemEnable cache mem) s = .next t ∧ t.links.cacheen = (s.links.cacheen || cache) ∧ t.links.memen = (s.links.memen || mem) ∧
      t.mem = s.mem))

/-! ## Management -/

/-- A failed layer starts a removal whose base is the capacity left, and once acknowledged its copy ends with that capacity.
More than 10,000 corrected errors in a window set CERATE. A refresh of a weight bank starts and ends with its window; the clock
of the matrix units is gated and freed. -/
def Obligations.LayersAndHealth : Prop :=
  (∀ (s : State) (stack layer : Nat), stack < s.pkg.stacks → layer < 16 → s.caps.layers = [] → s.mgmt.removals = [] → s.mgmt.events.length < 254 →
    ∃ t, exec (.layerFailure stack layer) s = .next t ∧ t.caps.rmv = true ∧ t.caps.rmvbase = s.pkg.hbm * 15 / 16 ∧ t.caps.cap = s.caps.cap ∧
      t.mgmt.removals = [⟨stack, layer, false⟩] ∧ t.health.why.getLsbD 3 = true ∧ t.mem = s.mem) ∧
  (∀ (s : State) (r : Removal), s.mgmt.removals = [r] → s.caps.rmv = true → s.caps.rmvbase ≠ s.caps.cap →
    (r.acked = true → ∃ t, exec .layerCopyComplete s = .next t ∧ t.caps.cap = s.caps.rmvbase ∧ t.caps.rmv = false ∧
      (r.stack, r.layer) ∈ t.caps.layers ∧ t.mgmt.removals = [] ∧ t.mem.bytes = s.mem.bytes) ∧
    (r.acked = false → exec .layerCopyComplete s = .fault .notEnabled)) ∧
  (∀ s : State, ∃ t, exec .healthCeWindowEnd s = .next t ∧ t.health.cewin = s.health.winCount ∧ t.health.winCount = 0 ∧
    t.health.winStart = s.health.winStart + 72000000000 ∧ (10000 < s.health.winCount → t.health.why.getLsbD 4 = true) ∧
    (s.health.winCount ≤ 10000 → t.health.why = s.health.why) ∧ t.mem = s.mem) ∧
  (∀ (s : State) (die g : Nat), die < s.pkg.dies → g < 32 →
    (refreshing s.cc g = false → ∃ t, exec (.weightRefreshStart die g) s = .next t ∧ refreshing t.cc g = true ∧ s.cc < t.cc ∧ t = { s with cc := t.cc }) ∧
    (refreshing s.cc g = true → ∃ t, exec (.weightRefreshEnd die g) s = .next t ∧ refreshing t.cc g = false ∧ s.cc < t.cc ∧ t = { s with cc := t.cc })) ∧
  (∀ (s : State) (g : Bool), s.mgmt.gated ≠ g → exec (.powerClockGating g) s = .next { s with mgmt := { s.mgmt with gated := g } })

/-- Dzieth may put an enabled core in reset; at its release no thread stands on it, its deque and L1 are empty and its scratchpad
is cleared, and one that held nothing stands as after reset, or, mapped out with no spare left on its die, is disabled. -/
def Obligations.CoreResets : Prop :=
  (∀ (s : State) (core : Nat) (m : Bool), s.enabled core = true → (s.coreOf core).reset = none →
    ∃ t, exec (.dziethCoreReset core m) s = .next t ∧ (t.coreOf core).reset = some ⟨m⟩ ∧ t.mem = s.mem) ∧
  (∀ (s : State) (core : Nat) (m : Bool), (s.coreOf core).reset = some ⟨m⟩ → s.caps.dead.getLsbD (dieOf core) = false →
    (s.onCore core = [] → (s.coreOf core).deque = [] → (s.coreOf core).sb = [] → (s.coreOf core).l1 = [] →
      (s.coreOf core).waits = [] → s.mgmt.unsaved = [] →
      ∃ t, exec (.coreResetRelease core) s = .next t ∧
        t.coreOf core = { Core.fresh core with saved := (s.coreOf core).saved, sbNum := (s.coreOf core).sbNum } ∧
        t.mem = s.mem.clearScratch core ∧ t.health.rstcnt = min (s.health.rstcnt + 1) (2 ^ 32 - 1) ∧
        (m = false → t.caps.disabled = s.caps.disabled) ∧
        (m = true → s.caps.spares.toList.getD (dieOf core) 0 = 0 → t.enabled core = false) ∧
        (m = true → 0 < s.caps.spares.toList.getD (dieOf core) 0 → t.caps.disabled = s.caps.disabled)) ∧
    (((s.coreOf core).sb.all fun e => s.heldBack core e || s.reachable core e.loc true) = true →
      ∃ t, exec (.coreResetRelease core) s = .next t ∧ (t.coreOf core).reset = none ∧ (t.coreOf core).deque = [] ∧ (t.coreOf core).l1 = [] ∧
        (∀ u ∈ t.all, u.core = core → u.spilled = true) ∧ ∀ off, off < 0x80000 → t.byteAt (scratchKey core off) = 0))

/-- A package reset leaves no thread and no launch, the system registers, the incumbents and every core at their reset values, and
keeps mapped-out cores and layers; memory of the package then reads 0, which is the model's choice (log 3). The command that
is due answers its mailbox: GETEVENT with the oldest event, ATTEST with status 2 until 2^20 reports have been made and with 3 after, and takes RECOVER only
while boot awaits an image. -/
def Obligations.ResetAndMailbox : Prop :=
  (∀ s : State, ∃ t, exec .packageReset s = .next t ∧ t.thr.live = false ∧ t.threads = [] ∧ t.launcher = Launcher.reset ∧ t.sys = Sys.reset ∧
    t.caps.disabled = s.caps.disabled ∧ t.caps.layers = s.caps.layers ∧ t.inc = Incumbents.reset ∧ (∀ n, t.coreOf n = Core.fresh n) ∧
    ∀ a, a < 0x1000000000000 ∨ 0x10000000000000 ≤ a → t.byteAt a = 0) ∧
  (∀ (s : State) (n : Fin 2), s.mgmt.mbq = [n.1] →
    (s.mgmt.booted = true →
      (s.commandDue n.1 3 = true →
        (∀ e r, s.mgmt.events = e :: r → cellsFrom 0 s.mgmt.mb[n].data = true → ∃ t, exec (.mbGetevent n.1) s = .next t ∧ t.mgmt.mbq = [] ∧
          t.mgmt.events = r ∧ t.mgmt.mb[n].stat = 2 ∧ t.mgmt.mb[n].outLen = 18 ∧
          readBytes t.mgmt.mb[n].data 0 2 = e.code % 2 ^ 16 ∧ readBytes t.mgmt.mb[n].data 2 8 = e.d0.toNat ∧
          readBytes t.mgmt.mb[n].data 10 8 = e.d1.toNat ∧ t.mem = s.mem) ∧
        (s.mgmt.events = [] → ∃ t, exec (.mbGetevent n.1) s = .next t ∧ t.mgmt.mbq = [] ∧ t.mgmt.mb[n].stat = 2 ∧ t.mgmt.mb[n].outLen = 0 ∧
          t.mem = s.mem)) ∧
      (s.commandDue n.1 1 = true →
        (s.mgmt.lms < 1048576 → ∃ t, exec (.mbAttest n.1) s = .next t ∧ t.mgmt.mbq = [] ∧ t.mgmt.mb[n].stat = 2 ∧ t.mgmt.lms = s.mgmt.lms + 1 ∧
          t.mem = s.mem) ∧
        (1048576 ≤ s.mgmt.lms → ∃ t, exec (.mbAttest n.1) s = .next t ∧ t.mgmt.mbq = [] ∧ t.mgmt.mb[n].stat = 3 ∧ t.mgmt.lms = s.mgmt.lms ∧
          t.mem = s.mem)) ∧
      (s.commandDue n.1 2 = true → ∃ t, exec (.mbRecover n.1) s = .next t ∧ t.mgmt.mbq = [] ∧ t.mgmt.mb[n].stat = 3 ∧ t.mgmt.image = s.mgmt.image ∧
        t.mem = s.mem)) ∧
    (s.mgmt.booted = false → s.commandDue n.1 2 = true → 0 < (s.mgmt.mb[n].cmd.toNat / 2 ^ 16 % 2 ^ 16) →
      ∃ t, exec (.mbRecover n.1) s = .next t ∧ t.mgmt.mbq = [] ∧ t.mgmt.mb[n].stat = 2 ∧ t.mgmt.image = s.mgmt.image ∧ t.mgmt.booted = false ∧
        t.mem = s.mem))
end

