-- ==== Sys2Proof/Laws/Decode.lean ====
section
/-! SUPPORT. Each field of a word is read back from its code, and a word read from its bytes is the word. -/

namespace Sys2Proof

@[simp] theorem srcOf_code (x : Src) : srcOf x.code = some x := by
  cases x with
  | g n => simp [srcOf, Src.code, n.2]
  | qup => rfl
  | qrx => rfl
  | gz => rfl

@[simp] theorem dstOf_code (x : Dst) : dstOf x.code = some x := by
  cases x with
  | g n => simp [dstOf, Dst.code, n.2]
  | qdn => rfl
  | gz => rfl

@[simp] theorem bothOf_code (x : Both) : bothOf x.code = some x := by
  cases x with
  | g n => simp [bothOf, Both.code, n.2]
  | gz => rfl

theorem Src.code_lt (x : Src) : x.code < 32 := by
  cases x with
  | g n => have := n.2; simp only [Src.code]; omega
  | _ => decide

theorem Dst.code_lt (x : Dst) : x.code < 32 := by
  cases x with
  | g n => have := n.2; simp only [Dst.code]; omega
  | _ => decide

theorem Both.code_lt (x : Both) : x.code < 32 := by
  cases x with
  | g n => have := n.2; simp only [Both.code]; omega
  | _ => decide

@[simp] theorem ffmtOf_code (x : FFmt) : ffmtOf x.code = x := by cases x <;> rfl
@[simp] theorem rmOf_code (x : Rm) : rmOf x.code = some x := by cases x <;> rfl
@[simp] theorem shiftOf_code (x : ShiftKind) : shiftOf x.code = x := by cases x <;> rfl
@[simp] theorem laneOf_code (x : Lane) : laneOf x.code = x := by cases x <;> rfl
@[simp] theorem vcondOf_code (x : VCond) : vcondOf x.code = some x := by cases x <;> rfl
@[simp] theorem redOf_code (x : RedKind) : redOf x.code = some x := by cases x <;> rfl
@[simp] theorem extOf_code (x : ExtWidth) : extOf x.code = some x := by cases x <;> rfl
@[simp] theorem flagOf_toNat (b : Bool) : flagOf b.toNat = b := by cases b <;> rfl

theorem FFmt.code_lt (x : FFmt) : x.code < 4 := by cases x <;> decide
theorem Rm.code_lt (x : Rm) : x.code < 8 := by cases x <;> decide
theorem ShiftKind.code_lt (x : ShiftKind) : x.code < 4 := by cases x <;> decide
theorem Lane.code_lt (x : Lane) : x.code < 8 := by cases x <;> decide
theorem VCond.code_lt (x : VCond) : x.code < 8 := by cases x <;> decide
theorem RedKind.code_lt (x : RedKind) : x.code < 4 := by cases x <;> decide
theorem ExtWidth.code_lt (x : ExtWidth) : x.code < 4 := by cases x <;> decide

/-- A field stands where it was put: n bits at lo, below it less than 2^lo, above it a multiple. -/
theorem bits_field {w lo n hi x low : Nat} (hx : x < 2 ^ n) (hl : low < 2 ^ lo) (hw : w = hi * 2 ^ (lo + n) + x * 2 ^ lo + low) :
    bits w lo n = x := by
  subst hw
  have h : hi * 2 ^ (lo + n) + x * 2 ^ lo + low = 2 ^ lo * (hi * 2 ^ n + x) + low := by rw [pow_add]; ring
  simp only [bits]
  rw [h, Nat.mul_add_div (Nat.two_pow_pos lo), Nat.div_eq_of_lt hl, Nat.add_zero, Nat.add_comm, Nat.add_mul_mod_self_right,
    Nat.mod_eq_of_lt hx]

/-- A row whose fixed fields and operands are read. -/
theorem row_ok {α : Type} {w : Nat} {l : List (Nat × Nat × Nat)} {dec : Nat → Option α} {mk : α → Instr} {o : α}
    (h : fixedIs w l = true) (hd : dec w = some o) : row w l dec mk = .ok (mk o) := by
  simp [row, h, hd]

/-- A decoded word is well-formed. -/
theorem decode_wf {w : BitVec 32} {i : Instr} (h : decode w = .ok i) : i.wf = true := by
  unfold decode at h
  split at h
  · split at h
    · simp only [Except.ok.injEq] at h; subst h; assumption
    · simp at h
  · simp at h

/-- A word is put together again from its bytes (R6, R255). -/
theorem wordOfBytes_bytesOfWord (w : BitVec 32) :
    wordOfBytes (w.extractLsb' 0 8) (w.extractLsb' 8 8) (w.extractLsb' 16 8) (w.extractLsb' 24 8) = w := by
  show (w.extractLsb' 24 8 ++ w.extractLsb' 16 8 ++ w.extractLsb' 8 8 ++ w.extractLsb' 0 8 : BitVec (8 + 8 + 8 + 8)) = w
  apply BitVec.eq_of_getLsbD_eq
  intro i hi
  simp only [BitVec.getLsbD_append, BitVec.getLsbD_extractLsb']
  rcases Nat.lt_or_ge i 8 with h | h
  · simp [h]
  · rcases Nat.lt_or_ge i 16 with h1 | h1
    · simp [Nat.not_lt.2 h, show i - 8 < 8 by omega, show 8 + (i - 8) = i by omega]
    · rcases Nat.lt_or_ge i 24 with h2 | h2
      · simp [Nat.not_lt.2 h, show ¬ i - 8 < 8 by omega, show i - 8 - 8 < 8 by omega, show 16 + (i - 8 - 8) = i by omega]
      · simp [Nat.not_lt.2 h, show ¬ i - 8 < 8 by omega, show ¬ i - 8 - 8 < 8 by omega, show i - 8 - 8 - 8 < 8 by omega,
          show 24 + (i - 8 - 8 - 8) = i by omega]

theorem decodeBytes_bytesOfWord (w : BitVec 32) : decodeBytes (bytesOfWord w) = decode w := by
  simp [decodeBytes, bytesOfWord, wordOfBytes_bytesOfWord]

end Sys2Proof
end

