-- ==== Sys2Proof/Laws/Memory.lean ====
section
/-! SUPPORT. Laws of memory: reading after writing, and that every operation on the bytes, the empty words and the poisoned units
keeps the one canonical form. -/

namespace Sys2Proof.Machine

/-! ## Lists of cells -/

theorem cellsFrom_mono {l : List Host.Cell} {lo lo' : Nat} (h : lo' ≤ lo) (w : cellsFrom lo l = true) : cellsFrom lo' l = true := by
  cases l with
  | nil => rfl
  | cons x r =>
    obtain ⟨k, v⟩ := x
    simp only [cellsFrom, Bool.and_eq_true, decide_eq_true_eq] at w ⊢
    exact ⟨⟨by omega, w.1.2⟩, w.2⟩

/-- An address below a canonical list reads as 0. -/
theorem getByte_below {l : List Host.Cell} {lo a : Nat} (w : cellsFrom lo l = true) (h : a < lo) : getByte l a = 0 := by
  cases l with
  | nil => rfl
  | cons x r =>
    obtain ⟨k, v⟩ := x
    simp only [cellsFrom, Bool.and_eq_true, decide_eq_true_eq] at w
    simp only [getByte]
    rw [if_neg (by omega), if_pos (by omega)]

/-- Storing a byte keeps the form. -/
theorem cellsFrom_putByte (l : List Host.Cell) : ∀ (lo a : Nat) (v : Byte), cellsFrom lo l = true → lo ≤ a →
    cellsFrom lo (putByte l a v) = true := by
  induction l with
  | nil =>
    intro lo a v _ h
    simp only [putByte]
    split
    · rfl
    · simp_all [cellsFrom]
  | cons x r ih =>
    obtain ⟨k, b⟩ := x
    intro lo a v w h
    simp only [cellsFrom, Bool.and_eq_true, decide_eq_true_eq] at w
    obtain ⟨⟨hk, hb⟩, hr⟩ := w
    simp only [putByte]
    split
    · split
      · simp_all [cellsFrom]
      · simp only [cellsFrom, Bool.and_eq_true, decide_eq_true_eq]
        exact ⟨⟨h, by simp_all⟩, ⟨by omega, hb⟩, hr⟩
    · split
      · split
        · exact cellsFrom_mono (by omega) hr
        · simp_all [cellsFrom]
      · simp only [cellsFrom, Bool.and_eq_true, decide_eq_true_eq]
        exact ⟨⟨hk, hb⟩, ih _ _ _ hr (by omega)⟩

/-- Reading after storing a byte. -/
theorem getByte_putByte (l : List Host.Cell) : ∀ (lo a b : Nat) (v : Byte), cellsFrom lo l = true →
    getByte (putByte l a v) b = if b = a then v else getByte l b := by
  induction l with
  | nil =>
    intro lo a b v _
    simp only [putByte]
    by_cases hv : v = 0
    · rw [if_pos hv]; split <;> simp_all [getByte]
    · rw [if_neg hv]; simp only [getByte]; split
      · rfl
      · split <;> rfl
  | cons x r ih =>
    obtain ⟨k, c⟩ := x
    intro lo a b v w
    have w0 := w
    simp only [cellsFrom, Bool.and_eq_true, decide_eq_true_eq] at w
    obtain ⟨⟨hk, _⟩, hr⟩ := w
    simp only [putByte]
    by_cases h1 : a < k
    · rw [if_pos h1]
      by_cases hv : v = 0
      · rw [if_pos hv]
        by_cases hb : b = a
        · subst hb; rw [if_pos rfl, hv]; simp only [getByte]; rw [if_neg (by omega), if_pos h1]
        · rw [if_neg hb]
      · rw [if_neg hv]
        by_cases hb : b = a
        · subst hb; simp [getByte]
        · rw [if_neg hb]
          by_cases hlt : b < a
          · simp only [getByte]; rw [if_neg hb, if_pos hlt, if_neg (by omega), if_pos (by omega)]
          · show getByte ((a, v) :: (k, c) :: r) b = _
            rw [getByte, if_neg hb, if_neg hlt]
    · rw [if_neg h1]
      by_cases h2 : a = k
      · rw [if_pos h2]; subst h2
        by_cases hv : v = 0
        · rw [if_pos hv]
          by_cases hb : b = a
          · subst hb; rw [if_pos rfl, hv]; exact getByte_below hr (by omega)
          · rw [if_neg hb, getByte, if_neg hb]
            by_cases hlt : b < a
            · rw [if_pos hlt]; exact getByte_below hr (by omega)
            · rw [if_neg hlt]
        · rw [if_neg hv]
          by_cases hb : b = a
          · simp [getByte, hb]
          · simp only [getByte, if_neg hb]
      · rw [if_neg h2]
        by_cases hb : b = k
        · subst hb; rw [if_neg (by omega)]; simp [getByte]
        · simp only [getByte, if_neg hb]
          by_cases hlt : b < k
          · rw [if_pos hlt, if_pos hlt, if_neg (by omega)]
          · rw [if_neg hlt, if_neg hlt]; exact ih _ _ _ _ hr

theorem cellsFrom_filter (p : Host.Cell → Bool) (l : List Host.Cell) : ∀ lo, cellsFrom lo l = true → cellsFrom lo (l.filter p) = true := by
  induction l with
  | nil => intro lo _; rfl
  | cons x r ih =>
    obtain ⟨k, v⟩ := x
    intro lo w
    simp only [cellsFrom, Bool.and_eq_true, decide_eq_true_eq] at w
    rw [List.filter_cons]
    split
    · simp only [cellsFrom, Bool.and_eq_true, decide_eq_true_eq]
      exact ⟨w.1, ih _ w.2⟩
    · exact ih _ (cellsFrom_mono (by omega) w.2)

/-- What is left of a canonical list by a test of addresses reads as before where the test holds, and as 0 elsewhere. -/
theorem getByte_filter (p : Nat → Bool) (l : List Host.Cell) : ∀ lo a, cellsFrom lo l = true →
    getByte (l.filter fun x => p x.1) a = if p a then getByte l a else 0 := by
  induction l with
  | nil => intro lo a _; simp [getByte]
  | cons x r ih =>
    obtain ⟨k, v⟩ := x
    intro lo a w
    simp only [cellsFrom, Bool.and_eq_true, decide_eq_true_eq] at w
    rw [List.filter_cons]
    by_cases ha : a = k
    · subst ha
      cases hp : p a
      · simp only [Bool.false_eq_true, if_false]
        rw [ih _ _ w.2]; simp [hp]
      · simp [getByte]
    · by_cases hlt : a < k
      · have hz : getByte (r.filter fun x => p x.1) a = 0 := getByte_below (cellsFrom_filter _ _ _ w.2) (by omega)
        split <;> simp [getByte, ha, hlt, hz]
      · split <;> simp only [getByte, if_neg ha, if_neg hlt] <;> exact ih _ _ w.2

/-- A canonical list is determined by what its addresses read as. -/
theorem cells_ext : ∀ (l m : List Host.Cell) (lo : Nat), cellsFrom lo l = true → cellsFrom lo m = true →
    (∀ a, getByte l a = getByte m a) → l = m := by
  intro l
  induction l with
  | nil =>
    intro m lo _ wm h
    cases m with
    | nil => rfl
    | cons y r =>
      obtain ⟨k, v⟩ := y
      simp only [cellsFrom, Bool.and_eq_true, decide_eq_true_eq] at wm
      have := h k
      simp only [getByte, if_true] at this
      simp [← this] at wm
  | cons x r ih =>
    obtain ⟨k, v⟩ := x
    intro m lo wl wm h
    have wl0 := wl
    simp only [cellsFrom, Bool.and_eq_true, decide_eq_true_eq] at wl
    cases m with
    | nil =>
      have := h k
      simp only [getByte, if_true] at this
      simp [this] at wl
    | cons y q =>
      obtain ⟨j, u⟩ := y
      have wm0 := wm
      simp only [cellsFrom, Bool.and_eq_true, decide_eq_true_eq] at wm
      have hkj : k = j := by
        rcases Nat.lt_trichotomy k j with hlt | he | hlt
        · have := h k
          simp only [getByte, if_true] at this
          rw [if_neg (by omega), if_pos hlt] at this
          simp [this] at wl
        · exact he
        · have := h j
          simp only [getByte, if_true] at this
          rw [if_neg (by omega), if_pos hlt] at this
          simp [← this] at wm
      subst hkj
      have hv : v = u := by simpa [getByte] using h k
      subst hv
      have : r = q := by
        refine ih q (k + 1) wl.2 wm.2 fun a => ?_
        by_cases ha : a ≤ k
        · rw [getByte_below wl.2 (by omega), getByte_below wm.2 (by omega)]
        · have := h a
          simp only [getByte] at this
          rwa [if_neg (by omega), if_neg (by omega), if_neg (by omega), if_neg (by omega)] at this
      rw [this]

/-! ## Ranges of bytes -/

theorem cellsFrom_writeBytes (n : Nat) : ∀ (l : List Host.Cell) (a v : Nat), cellsFrom 0 l = true →
    cellsFrom 0 (writeBytes l a n v) = true := by
  induction n with
  | zero => intro l a v w; exact w
  | succ n ih => intro l a v w; exact ih _ _ _ (cellsFrom_putByte l 0 a _ w (Nat.zero_le a))

/-- A range written: its bytes are those of the value, little-endian, and every other byte stands. -/
theorem getByte_writeBytes (n : Nat) : ∀ (l : List Host.Cell) (a v b : Nat), cellsFrom 0 l = true →
    getByte (writeBytes l a n v) b = if a ≤ b ∧ b < a + n then BitVec.ofNat 8 (v / 256 ^ (b - a)) else getByte l b := by
  induction n with
  | zero => intro l a v b _; simp only [writeBytes]; rw [if_neg (by omega)]
  | succ n ih =>
    intro l a v b w
    simp only [writeBytes]
    rw [ih _ _ _ _ (cellsFrom_putByte l 0 a _ w (Nat.zero_le a)), getByte_putByte l 0 a b _ w]
    by_cases h : b = a
    · subst h
      rw [if_neg (by omega), if_pos rfl, if_pos (by omega)]
      simp
    · by_cases h2 : a + 1 ≤ b ∧ b < a + 1 + n
      · rw [if_pos h2, if_pos (by omega)]
        obtain ⟨d, hd⟩ : ∃ d, b - a = d + 1 := ⟨b - a - 1, by omega⟩
        rw [show b - (a + 1) = d by omega, hd, Nat.pow_succ', ← Nat.div_div_eq_div_mul]
      · rw [if_neg h2, if_neg h, if_neg (by omega)]

theorem cellsFrom_writeList (bs : List Byte) : ∀ (l : List Host.Cell) (a : Nat), cellsFrom 0 l = true →
    cellsFrom 0 (writeList l a bs) = true := by
  induction bs with
  | nil => intro l a w; exact w
  | cons b r ih => intro l a w; exact ih _ _ (cellsFrom_putByte l 0 a _ w (Nat.zero_le a))

theorem cellsFrom_putCells (cs : List Host.Cell) : ∀ l : List Host.Cell, cellsFrom 0 l = true → cellsFrom 0 (putCells l cs) = true := by
  induction cs with
  | nil => intro l w; exact w
  | cons c r ih => intro l w; exact ih _ (cellsFrom_putByte l 0 _ _ w (Nat.zero_le _))

theorem cellsFrom_orEntry (l : List Host.Cell) (a bit : Nat) (w : cellsFrom 0 l = true) : cellsFrom 0 (orEntry l a bit) = true :=
  cellsFrom_writeBytes 8 l a _ w

/-- An entry marked: every byte outside it stands. -/
theorem getByte_orEntry (l : List Host.Cell) (a bit b : Nat) (w : cellsFrom 0 l = true) (h : b < a ∨ a + 8 ≤ b) :
    getByte (orEntry l a bit) b = getByte l b := by
  unfold orEntry
  rw [getByte_writeBytes 8 l a _ b w, if_neg (by omega)]

/-- A read depends on its own bytes alone. -/
theorem readBytes_congr (n : Nat) : ∀ (l m : List Host.Cell) (a : Nat), (∀ b, a ≤ b → b < a + n → getByte l b = getByte m b) →
    readBytes l a n = readBytes m a n := by
  induction n with
  | zero => intro l m a _; rfl
  | succ n ih =>
    intro l m a h
    simp only [readBytes]
    rw [h a (by omega) (by omega), ih l m (a + 1) fun b h1 h2 => h b (by omega) (by omega)]

theorem readBytes_lt (n : Nat) : ∀ (l : List Host.Cell) (a : Nat), readBytes l a n < 256 ^ n := by
  induction n with
  | zero => intro l a; simp [readBytes]
  | succ n ih =>
    intro l a
    simp only [readBytes]
    have h1 := (getByte l a).isLt
    have h2 := ih l (a + 1)
    rw [Nat.pow_succ']
    omega

/-- Reading a range just written gives the value, modulo its width. -/
theorem readBytes_writeBytes (n : Nat) : ∀ (l : List Host.Cell) (a v : Nat), cellsFrom 0 l = true →
    readBytes (writeBytes l a n v) a n = v % 256 ^ n := by
  induction n with
  | zero => intro l a v _; simp [readBytes, Nat.mod_one]
  | succ n ih =>
    intro l a v w
    have hw := cellsFrom_putByte l 0 a (BitVec.ofNat 8 v) w (Nat.zero_le a)
    simp only [readBytes, writeBytes]
    rw [ih _ _ _ hw, getByte_writeBytes n _ _ _ _ hw, if_neg (by omega), getByte_putByte l 0 a a _ w, if_pos rfl, Nat.pow_succ',
      Nat.mod_mul]
    simp

/-- A range written elsewhere does not change what a range reads as. -/
theorem readBytes_writeBytes_apart (l : List Host.Cell) (a n b k v : Nat) (w : cellsFrom 0 l = true) (h : a + n ≤ b ∨ b + k ≤ a) :
    readBytes (writeBytes l b k v) a n = readBytes l a n := by
  refine readBytes_congr n _ _ a fun c h1 h2 => ?_
  rw [getByte_writeBytes k l b v c w, if_neg (by omega)]

/-! ## Rising lists -/

theorem risingFrom_mono {l : List Nat} {lo lo' : Nat} (h : lo' ≤ lo) (w : risingFrom lo l = true) : risingFrom lo' l = true := by
  cases l with
  | nil => rfl
  | cons k r =>
    simp only [risingFrom, Bool.and_eq_true, decide_eq_true_eq] at w ⊢
    exact ⟨by omega, w.2⟩

theorem risingFrom_addKey (l : List Nat) : ∀ (lo a : Nat), risingFrom lo l = true → lo ≤ a → risingFrom lo (addKey l a) = true := by
  induction l with
  | nil => intro lo a _ h; simp [addKey, risingFrom, h]
  | cons k r ih =>
    intro lo a w h
    have w0 := w
    simp only [risingFrom, Bool.and_eq_true, decide_eq_true_eq] at w
    simp only [addKey]
    split
    · simp only [risingFrom, Bool.and_eq_true, decide_eq_true_eq]
      exact ⟨h, by omega, w.2⟩
    · split
      · exact w0
      · simp only [risingFrom, Bool.and_eq_true, decide_eq_true_eq]
        exact ⟨w.1, ih _ _ w.2 (by omega)⟩

theorem risingFrom_delKey (l : List Nat) : ∀ (lo a : Nat), risingFrom lo l = true → risingFrom lo (delKey l a) = true := by
  induction l with
  | nil => intro lo a _; rfl
  | cons k r ih =>
    intro lo a w
    have w0 := w
    simp only [risingFrom, Bool.and_eq_true, decide_eq_true_eq] at w
    simp only [delKey]
    split
    · exact risingFrom_mono (by omega) w.2
    · split
      · exact w0
      · simp only [risingFrom, Bool.and_eq_true, decide_eq_true_eq]
        exact ⟨w.1, ih _ _ w.2⟩

theorem risingFrom_filter (p : Nat → Bool) (l : List Nat) : ∀ lo, risingFrom lo l = true → risingFrom lo (l.filter p) = true := by
  induction l with
  | nil => intro lo _; rfl
  | cons k r ih =>
    intro lo w
    simp only [risingFrom, Bool.and_eq_true, decide_eq_true_eq] at w
    rw [List.filter_cons]
    split
    · simp only [risingFrom, Bool.and_eq_true, decide_eq_true_eq]
      exact ⟨w.1, ih _ w.2⟩
    · exact ih _ (risingFrom_mono (by omega) w.2)

theorem mem_addKey (l : List Nat) (a b : Nat) : b ∈ addKey l a ↔ b = a ∨ b ∈ l := by
  induction l with
  | nil => simp [addKey]
  | cons k r ih =>
    simp only [addKey]
    split
    · simp
    · split
      · rename_i _ h; subst h; simp
      · simp [ih]; tauto

theorem not_mem_below {l : List Nat} : ∀ {lo a : Nat}, risingFrom lo l = true → a < lo → a ∉ l := by
  induction l with
  | nil => intro lo a _ _; simp
  | cons k r ih =>
    intro lo a w h
    simp only [risingFrom, Bool.and_eq_true, decide_eq_true_eq] at w
    simp only [List.mem_cons, not_or]
    exact ⟨by omega, ih w.2 (by omega)⟩

theorem mem_delKey (l : List Nat) : ∀ (lo a b : Nat), risingFrom lo l = true → (b ∈ delKey l a ↔ b ≠ a ∧ b ∈ l) := by
  induction l with
  | nil => intro lo a b _; simp [delKey]
  | cons k r ih =>
    intro lo a b w
    simp only [risingFrom, Bool.and_eq_true, decide_eq_true_eq] at w
    simp only [delKey]
    split
    · rename_i h; subst h
      have := not_mem_below w.2 (Nat.lt_succ_self a)
      constructor
      · intro hb; exact ⟨fun e => this (e ▸ hb), List.mem_cons_of_mem _ hb⟩
      · rintro ⟨h1, h2⟩; simpa [h1] using h2
    · split
      · rename_i h1 h2
        constructor
        · intro hb
          refine ⟨?_, hb⟩
          rintro rfl
          rcases List.mem_cons.1 hb with e | e
          · exact h1 e
          · exact not_mem_below w.2 (by omega) e
        · exact fun h => h.2
      · simp only [List.mem_cons, ih _ _ _ w.2]
        constructor
        · rintro (rfl | ⟨h1, h2⟩)
          · exact ⟨fun e => by omega, .inl rfl⟩
          · exact ⟨h1, .inr h2⟩
        · rintro ⟨h1, rfl | h2⟩
          · exact .inl rfl
          · exact .inr ⟨h1, h2⟩

/-! ## Memory keeps its form -/

theorem Memory.wf_iff (m : Memory) :
    m.wf = true ↔ cellsFrom 0 m.bytes = true ∧ risingFrom 0 m.empty = true ∧ risingFrom 0 m.poison = true := by
  simp [Memory.wf, and_assoc]

theorem Memory.wf_reset : Memory.reset.wf = true := rfl

theorem Memory.wf_bytes {m : Memory} {bs : List Host.Cell} (w : m.wf = true) (h : cellsFrom 0 bs = true) :
    ({ m with bytes := bs } : Memory).wf = true := by
  rw [Memory.wf_iff] at w ⊢
  exact ⟨h, w.2⟩

theorem Memory.wf_setPoison {m : Memory} (w : m.wf = true) (a : Nat) (b : Bool) : (m.setPoison a b).wf = true := by
  rw [Memory.wf_iff] at w ⊢
  refine ⟨w.1, w.2.1, ?_⟩
  simp only [Memory.setPoison]
  split
  · exact risingFrom_addKey _ _ _ w.2.2 (Nat.zero_le _)
  · exact risingFrom_delKey _ _ _ w.2.2

theorem Memory.wf_setFull {m : Memory} (w : m.wf = true) (a : Nat) (b : Bool) : (m.setFull a b).wf = true := by
  rw [Memory.wf_iff] at w ⊢
  refine ⟨w.1, ?_, w.2.2⟩
  simp only [Memory.setFull]
  split
  · exact risingFrom_delKey _ _ _ w.2.1
  · exact risingFrom_addKey _ _ _ w.2.1 (Nat.zero_le _)

theorem Memory.wf_write {m : Memory} (w : m.wf = true) (a n v : Nat) : (m.write a n v).wf = true := by
  have h : ({ m with bytes := writeBytes m.bytes a n v } : Memory).wf = true :=
    Memory.wf_bytes w (cellsFrom_writeBytes n _ _ _ ((Memory.wf_iff m).1 w).1)
  simp only [Memory.write]
  split
  · exact Memory.wf_setPoison h _ _
  · exact h

/-- Parts of memory left out by a test of addresses, as a package reset and a cleared scratchpad leave them. -/
theorem Memory.wf_filter {m : Memory} (w : m.wf = true) (p : Nat → Bool) :
    ({ bytes := m.bytes.filter fun x => p x.1, empty := m.empty.filter p, poison := m.poison.filter p } : Memory).wf = true := by
  rw [Memory.wf_iff] at w ⊢
  exact ⟨cellsFrom_filter _ _ _ w.1, risingFrom_filter _ _ _ w.2.1, risingFrom_filter _ _ _ w.2.2⟩

theorem Memory.wf_clearScratch {m : Memory} (w : m.wf = true) (core : Nat) : (m.clearScratch core).wf = true := by
  unfold Memory.clearScratch
  exact Memory.wf_filter w (fun a => a < scratchKey core 0 || scratchKey core 0 + 0x80000 ≤ a)

theorem Memory.wf_put {m : Memory} (w : m.wf = true) (p : Host.Cell → Bool) (q : Nat → Bool) (a b c : List Host.Cell) :
    ({ m with bytes := putCells (putCells (putCells (m.bytes.filter p) a) b) c, poison := m.poison.filter q } : Memory).wf = true :=
  (Memory.wf_iff _).2 ⟨cellsFrom_putCells _ _ (cellsFrom_putCells _ _ (cellsFrom_putCells _ _
    (cellsFrom_filter _ _ _ ((Memory.wf_iff m).1 w).1))), ((Memory.wf_iff m).1 w).2.1,
    risingFrom_filter _ _ _ ((Memory.wf_iff m).1 w).2.2⟩

theorem Memory.wf_saveScratch {m : Memory} (w : m.wf = true) (core base : Nat) : (m.saveScratch core base).wf = true := by
  unfold Memory.saveScratch
  dsimp only
  generalize bitBytes _ _ = full
  generalize bitBytes _ _ = bad
  exact Memory.wf_put w _ _ _ _ _

theorem risingFrom_addKeys (f : Nat → Nat) (is : List Nat) : ∀ l : List Nat, risingFrom 0 l = true →
    risingFrom 0 (is.foldl (fun l i => addKey l (f i)) l) = true := by
  induction is with
  | nil => intro l w; exact w
  | cons i r ih => intro l w; exact ih _ (risingFrom_addKey _ _ _ w (Nat.zero_le _))

theorem Memory.wf_add {m : Memory} (w : m.wf = true) (a : List Host.Cell) (f : Nat → Nat) (b c : List Nat) :
    ({ bytes := putCells m.bytes a, empty := b.foldl (fun l i => addKey l (f i)) m.empty,
       poison := c.foldl (fun l i => addKey l (f i)) m.poison } : Memory).wf = true :=
  (Memory.wf_iff _).2 ⟨cellsFrom_putCells _ _ ((Memory.wf_iff m).1 w).1,
    risingFrom_addKeys f _ _ ((Memory.wf_iff m).1 w).2.1, risingFrom_addKeys f _ _ ((Memory.wf_iff m).1 w).2.2⟩

theorem Memory.wf_restoreScratch {m : Memory} (w : m.wf = true) (core base : Nat) : (m.restoreScratch core base).wf = true := by
  have h := Memory.wf_clearScratch w core
  unfold Memory.restoreScratch
  dsimp only
  generalize List.range 65536 = words
  exact Memory.wf_add h _ (fun i => scratchKey core 0 + 8 * i) _ _

/-! ## Reading and writing memory -/

@[simp] theorem Memory.setPoison_bytes (m : Memory) (a : Nat) (b : Bool) : (m.setPoison a b).bytes = m.bytes := rfl
@[simp] theorem Memory.setPoison_empty (m : Memory) (a : Nat) (b : Bool) : (m.setPoison a b).empty = m.empty := rfl
@[simp] theorem Memory.setFull_bytes (m : Memory) (a : Nat) (b : Bool) : (m.setFull a b).bytes = m.bytes := rfl
@[simp] theorem Memory.setFull_poison (m : Memory) (a : Nat) (b : Bool) : (m.setFull a b).poison = m.poison := rfl

@[simp] theorem Memory.write_bytes (m : Memory) (a n v : Nat) : (m.write a n v).bytes = writeBytes m.bytes a n v := by
  simp only [Memory.write]; split <;> rfl

@[simp] theorem Memory.write_empty (m : Memory) (a n v : Nat) : (m.write a n v).empty = m.empty := by
  simp only [Memory.write]; split <;> rfl

/-- What memory reads as after a write. -/
theorem Memory.read_write {m : Memory} (w : m.wf = true) (a n v : Nat) : (m.write a n v).read a n = v % 256 ^ n := by
  rw [Memory.read, Memory.write_bytes]
  exact readBytes_writeBytes n _ _ _ ((Memory.wf_iff m).1 w).1

/-- A write leaves every other range alone. -/
theorem Memory.read_write_apart {m : Memory} (w : m.wf = true) (a n b k v : Nat) (h : a + n ≤ b ∨ b + k ≤ a) :
    (m.write b k v).read a n = m.read a n := by
  rw [Memory.read, Memory.write_bytes]
  exact readBytes_writeBytes_apart _ _ _ _ _ _ ((Memory.wf_iff m).1 w).1 h

/-- A word set full or empty is so afterwards. -/
theorem Memory.isFull_setFull {m : Memory} (w : m.wf = true) (a c : Nat) (b : Bool) :
    (m.setFull a b).isFull c = if c / 8 * 8 = a / 8 * 8 then b else m.isFull c := by
  have w1 := ((Memory.wf_iff m).1 w).2.1
  cases b
  · simp only [Memory.isFull, Memory.setFull, Bool.false_eq_true, if_false]
    have := mem_addKey m.empty (a / 8 * 8) (c / 8 * 8)
    by_cases h : c / 8 * 8 = a / 8 * 8 <;> simp_all
  · simp only [Memory.isFull, Memory.setFull, if_true]
    have := mem_delKey m.empty 0 (a / 8 * 8) (c / 8 * 8) w1
    by_cases h : c / 8 * 8 = a / 8 * 8 <;> simp_all

/-- A unit marked poisoned or not is so afterwards. -/
theorem Memory.isPoisoned_setPoison {m : Memory} (w : m.wf = true) (a c : Nat) (b : Bool) :
    (m.setPoison a b).isPoisoned c = if poisonUnit c = poisonUnit a then b else m.isPoisoned c := by
  have w1 := ((Memory.wf_iff m).1 w).2.2
  cases b
  · simp only [Memory.isPoisoned, Memory.setPoison, Bool.false_eq_true, if_false]
    have := mem_delKey m.poison 0 (poisonUnit a) (poisonUnit c) w1
    by_cases h : poisonUnit c = poisonUnit a <;> simp_all
  · simp only [Memory.isPoisoned, Memory.setPoison, if_true]
    have := mem_addKey m.poison (poisonUnit a) (poisonUnit c)
    by_cases h : poisonUnit c = poisonUnit a <;> simp_all

end Sys2Proof.Machine
end

