-- ==== Sys2Proof/Laws/State.lean ====
section
/-! SUPPORT. What the accessors of State leave alone: one lemma per field per update. -/

namespace Sys2Proof.Machine


/-! ## modThr -/

@[simp] theorem State.modThr_pkg (s : State) (f : Thread → Thread) : (s.modThr f).pkg = s.pkg := rfl
@[simp] theorem State.modThr_cc (s : State) (f : Thread → Thread) : (s.modThr f).cc = s.cc := rfl
@[simp] theorem State.modThr_free (s : State) (f : Thread → Thread) : (s.modThr f).free = s.free := rfl
@[simp] theorem State.modThr_agenda (s : State) (f : Thread → Thread) : (s.modThr f).agenda = s.agenda := rfl
@[simp] theorem State.modThr_core (s : State) (f : Thread → Thread) : (s.modThr f).core = s.core := rfl
@[simp] theorem State.modThr_threads (s : State) (f : Thread → Thread) : (s.modThr f).threads = s.threads := rfl
@[simp] theorem State.modThr_cores (s : State) (f : Thread → Thread) : (s.modThr f).cores = s.cores := rfl
@[simp] theorem State.modThr_mem (s : State) (f : Thread → Thread) : (s.modThr f).mem = s.mem := rfl
@[simp] theorem State.modThr_sys (s : State) (f : Thread → Thread) : (s.modThr f).sys = s.sys := rfl
@[simp] theorem State.modThr_caps (s : State) (f : Thread → Thread) : (s.modThr f).caps = s.caps := rfl
@[simp] theorem State.modThr_health (s : State) (f : Thread → Thread) : (s.modThr f).health = s.health := rfl
@[simp] theorem State.modThr_launcher (s : State) (f : Thread → Thread) : (s.modThr f).launcher = s.launcher := rfl
@[simp] theorem State.modThr_bars (s : State) (f : Thread → Thread) : (s.modThr f).bars = s.bars := rfl
@[simp] theorem State.modThr_table (s : State) (f : Thread → Thread) : (s.modThr f).table = s.table := rfl
@[simp] theorem State.modThr_inc (s : State) (f : Thread → Thread) : (s.modThr f).inc = s.inc := rfl
@[simp] theorem State.modThr_net (s : State) (f : Thread → Thread) : (s.modThr f).net = s.net := rfl
@[simp] theorem State.modThr_hem (s : State) (f : Thread → Thread) : (s.modThr f).hem = s.hem := rfl
@[simp] theorem State.modThr_seam (s : State) (f : Thread → Thread) : (s.modThr f).seam = s.seam := rfl
@[simp] theorem State.modThr_links (s : State) (f : Thread → Thread) : (s.modThr f).links = s.links := rfl
@[simp] theorem State.modThr_clusters (s : State) (f : Thread → Thread) : (s.modThr f).clusters = s.clusters := rfl
@[simp] theorem State.modThr_walks (s : State) (f : Thread → Thread) : (s.modThr f).walks = s.walks := rfl
@[simp] theorem State.modThr_msc (s : State) (f : Thread → Thread) : (s.modThr f).msc = s.msc := rfl
@[simp] theorem State.modThr_ecc (s : State) (f : Thread → Thread) : (s.modThr f).ecc = s.ecc := rfl
@[simp] theorem State.modThr_quads (s : State) (f : Thread → Thread) : (s.modThr f).quads = s.quads := rfl
@[simp] theorem State.modThr_weight (s : State) (f : Thread → Thread) : (s.modThr f).weight = s.weight := rfl
@[simp] theorem State.modThr_mgmt (s : State) (f : Thread → Thread) : (s.modThr f).mgmt = s.mgmt := rfl

/-! ## modThreads -/

@[simp] theorem State.modThreads_pkg (s : State) (p : Thread → Bool) (f : Thread → Thread) : (s.modThreads p f).pkg = s.pkg := rfl
@[simp] theorem State.modThreads_cc (s : State) (p : Thread → Bool) (f : Thread → Thread) : (s.modThreads p f).cc = s.cc := rfl
@[simp] theorem State.modThreads_free (s : State) (p : Thread → Bool) (f : Thread → Thread) : (s.modThreads p f).free = s.free := rfl
@[simp] theorem State.modThreads_agenda (s : State) (p : Thread → Bool) (f : Thread → Thread) : (s.modThreads p f).agenda = s.agenda := rfl
@[simp] theorem State.modThreads_core (s : State) (p : Thread → Bool) (f : Thread → Thread) : (s.modThreads p f).core = s.core := rfl
@[simp] theorem State.modThreads_cores (s : State) (p : Thread → Bool) (f : Thread → Thread) : (s.modThreads p f).cores = s.cores := rfl
@[simp] theorem State.modThreads_mem (s : State) (p : Thread → Bool) (f : Thread → Thread) : (s.modThreads p f).mem = s.mem := rfl
@[simp] theorem State.modThreads_sys (s : State) (p : Thread → Bool) (f : Thread → Thread) : (s.modThreads p f).sys = s.sys := rfl
@[simp] theorem State.modThreads_caps (s : State) (p : Thread → Bool) (f : Thread → Thread) : (s.modThreads p f).caps = s.caps := rfl
@[simp] theorem State.modThreads_health (s : State) (p : Thread → Bool) (f : Thread → Thread) : (s.modThreads p f).health = s.health := rfl
@[simp] theorem State.modThreads_launcher (s : State) (p : Thread → Bool) (f : Thread → Thread) : (s.modThreads p f).launcher = s.launcher := rfl
@[simp] theorem State.modThreads_bars (s : State) (p : Thread → Bool) (f : Thread → Thread) : (s.modThreads p f).bars = s.bars := rfl
@[simp] theorem State.modThreads_table (s : State) (p : Thread → Bool) (f : Thread → Thread) : (s.modThreads p f).table = s.table := rfl
@[simp] theorem State.modThreads_inc (s : State) (p : Thread → Bool) (f : Thread → Thread) : (s.modThreads p f).inc = s.inc := rfl
@[simp] theorem State.modThreads_net (s : State) (p : Thread → Bool) (f : Thread → Thread) : (s.modThreads p f).net = s.net := rfl
@[simp] theorem State.modThreads_hem (s : State) (p : Thread → Bool) (f : Thread → Thread) : (s.modThreads p f).hem = s.hem := rfl
@[simp] theorem State.modThreads_seam (s : State) (p : Thread → Bool) (f : Thread → Thread) : (s.modThreads p f).seam = s.seam := rfl
@[simp] theorem State.modThreads_links (s : State) (p : Thread → Bool) (f : Thread → Thread) : (s.modThreads p f).links = s.links := rfl
@[simp] theorem State.modThreads_clusters (s : State) (p : Thread → Bool) (f : Thread → Thread) : (s.modThreads p f).clusters = s.clusters := rfl
@[simp] theorem State.modThreads_walks (s : State) (p : Thread → Bool) (f : Thread → Thread) : (s.modThreads p f).walks = s.walks := rfl
@[simp] theorem State.modThreads_msc (s : State) (p : Thread → Bool) (f : Thread → Thread) : (s.modThreads p f).msc = s.msc := rfl
@[simp] theorem State.modThreads_ecc (s : State) (p : Thread → Bool) (f : Thread → Thread) : (s.modThreads p f).ecc = s.ecc := rfl
@[simp] theorem State.modThreads_quads (s : State) (p : Thread → Bool) (f : Thread → Thread) : (s.modThreads p f).quads = s.quads := rfl
@[simp] theorem State.modThreads_weight (s : State) (p : Thread → Bool) (f : Thread → Thread) : (s.modThreads p f).weight = s.weight := rfl
@[simp] theorem State.modThreads_mgmt (s : State) (p : Thread → Bool) (f : Thread → Thread) : (s.modThreads p f).mgmt = s.mgmt := rfl

/-! ## modThread -/

@[simp] theorem State.modThread_pkg (s : State) (n k : Nat) (f : Thread → Thread) : (s.modThread n k f).pkg = s.pkg := rfl
@[simp] theorem State.modThread_cc (s : State) (n k : Nat) (f : Thread → Thread) : (s.modThread n k f).cc = s.cc := rfl
@[simp] theorem State.modThread_free (s : State) (n k : Nat) (f : Thread → Thread) : (s.modThread n k f).free = s.free := rfl
@[simp] theorem State.modThread_agenda (s : State) (n k : Nat) (f : Thread → Thread) : (s.modThread n k f).agenda = s.agenda := rfl
@[simp] theorem State.modThread_core (s : State) (n k : Nat) (f : Thread → Thread) : (s.modThread n k f).core = s.core := rfl
@[simp] theorem State.modThread_cores (s : State) (n k : Nat) (f : Thread → Thread) : (s.modThread n k f).cores = s.cores := rfl
@[simp] theorem State.modThread_mem (s : State) (n k : Nat) (f : Thread → Thread) : (s.modThread n k f).mem = s.mem := rfl
@[simp] theorem State.modThread_sys (s : State) (n k : Nat) (f : Thread → Thread) : (s.modThread n k f).sys = s.sys := rfl
@[simp] theorem State.modThread_caps (s : State) (n k : Nat) (f : Thread → Thread) : (s.modThread n k f).caps = s.caps := rfl
@[simp] theorem State.modThread_health (s : State) (n k : Nat) (f : Thread → Thread) : (s.modThread n k f).health = s.health := rfl
@[simp] theorem State.modThread_launcher (s : State) (n k : Nat) (f : Thread → Thread) : (s.modThread n k f).launcher = s.launcher := rfl
@[simp] theorem State.modThread_bars (s : State) (n k : Nat) (f : Thread → Thread) : (s.modThread n k f).bars = s.bars := rfl
@[simp] theorem State.modThread_table (s : State) (n k : Nat) (f : Thread → Thread) : (s.modThread n k f).table = s.table := rfl
@[simp] theorem State.modThread_inc (s : State) (n k : Nat) (f : Thread → Thread) : (s.modThread n k f).inc = s.inc := rfl
@[simp] theorem State.modThread_net (s : State) (n k : Nat) (f : Thread → Thread) : (s.modThread n k f).net = s.net := rfl
@[simp] theorem State.modThread_hem (s : State) (n k : Nat) (f : Thread → Thread) : (s.modThread n k f).hem = s.hem := rfl
@[simp] theorem State.modThread_seam (s : State) (n k : Nat) (f : Thread → Thread) : (s.modThread n k f).seam = s.seam := rfl
@[simp] theorem State.modThread_links (s : State) (n k : Nat) (f : Thread → Thread) : (s.modThread n k f).links = s.links := rfl
@[simp] theorem State.modThread_clusters (s : State) (n k : Nat) (f : Thread → Thread) : (s.modThread n k f).clusters = s.clusters := rfl
@[simp] theorem State.modThread_walks (s : State) (n k : Nat) (f : Thread → Thread) : (s.modThread n k f).walks = s.walks := rfl
@[simp] theorem State.modThread_msc (s : State) (n k : Nat) (f : Thread → Thread) : (s.modThread n k f).msc = s.msc := rfl
@[simp] theorem State.modThread_ecc (s : State) (n k : Nat) (f : Thread → Thread) : (s.modThread n k f).ecc = s.ecc := rfl
@[simp] theorem State.modThread_quads (s : State) (n k : Nat) (f : Thread → Thread) : (s.modThread n k f).quads = s.quads := rfl
@[simp] theorem State.modThread_weight (s : State) (n k : Nat) (f : Thread → Thread) : (s.modThread n k f).weight = s.weight := rfl
@[simp] theorem State.modThread_mgmt (s : State) (n k : Nat) (f : Thread → Thread) : (s.modThread n k f).mgmt = s.mgmt := rfl

/-! ## dropThread -/

@[simp] theorem State.dropThread_pkg (s : State) (n k : Nat) : (s.dropThread n k).pkg = s.pkg := rfl
@[simp] theorem State.dropThread_cc (s : State) (n k : Nat) : (s.dropThread n k).cc = s.cc := rfl
@[simp] theorem State.dropThread_free (s : State) (n k : Nat) : (s.dropThread n k).free = s.free := rfl
@[simp] theorem State.dropThread_agenda (s : State) (n k : Nat) : (s.dropThread n k).agenda = s.agenda := rfl
@[simp] theorem State.dropThread_core (s : State) (n k : Nat) : (s.dropThread n k).core = s.core := rfl
@[simp] theorem State.dropThread_cores (s : State) (n k : Nat) : (s.dropThread n k).cores = s.cores := rfl
@[simp] theorem State.dropThread_mem (s : State) (n k : Nat) : (s.dropThread n k).mem = s.mem := rfl
@[simp] theorem State.dropThread_sys (s : State) (n k : Nat) : (s.dropThread n k).sys = s.sys := rfl
@[simp] theorem State.dropThread_caps (s : State) (n k : Nat) : (s.dropThread n k).caps = s.caps := rfl
@[simp] theorem State.dropThread_health (s : State) (n k : Nat) : (s.dropThread n k).health = s.health := rfl
@[simp] theorem State.dropThread_launcher (s : State) (n k : Nat) : (s.dropThread n k).launcher = s.launcher := rfl
@[simp] theorem State.dropThread_bars (s : State) (n k : Nat) : (s.dropThread n k).bars = s.bars := rfl
@[simp] theorem State.dropThread_table (s : State) (n k : Nat) : (s.dropThread n k).table = s.table := rfl
@[simp] theorem State.dropThread_inc (s : State) (n k : Nat) : (s.dropThread n k).inc = s.inc := rfl
@[simp] theorem State.dropThread_net (s : State) (n k : Nat) : (s.dropThread n k).net = s.net := rfl
@[simp] theorem State.dropThread_hem (s : State) (n k : Nat) : (s.dropThread n k).hem = s.hem := rfl
@[simp] theorem State.dropThread_seam (s : State) (n k : Nat) : (s.dropThread n k).seam = s.seam := rfl
@[simp] theorem State.dropThread_links (s : State) (n k : Nat) : (s.dropThread n k).links = s.links := rfl
@[simp] theorem State.dropThread_clusters (s : State) (n k : Nat) : (s.dropThread n k).clusters = s.clusters := rfl
@[simp] theorem State.dropThread_walks (s : State) (n k : Nat) : (s.dropThread n k).walks = s.walks := rfl
@[simp] theorem State.dropThread_msc (s : State) (n k : Nat) : (s.dropThread n k).msc = s.msc := rfl
@[simp] theorem State.dropThread_ecc (s : State) (n k : Nat) : (s.dropThread n k).ecc = s.ecc := rfl
@[simp] theorem State.dropThread_quads (s : State) (n k : Nat) : (s.dropThread n k).quads = s.quads := rfl
@[simp] theorem State.dropThread_weight (s : State) (n k : Nat) : (s.dropThread n k).weight = s.weight := rfl
@[simp] theorem State.dropThread_mgmt (s : State) (n k : Nat) : (s.dropThread n k).mgmt = s.mgmt := rfl

/-! ## addThread -/

@[simp] theorem State.addThread_pkg (s : State) (t : Thread) : (s.addThread t).pkg = s.pkg := by simp only [State.addThread]; (repeat' split) <;> rfl
@[simp] theorem State.addThread_cc (s : State) (t : Thread) : (s.addThread t).cc = s.cc := by simp only [State.addThread]; (repeat' split) <;> rfl
@[simp] theorem State.addThread_free (s : State) (t : Thread) : (s.addThread t).free = s.free := by simp only [State.addThread]; (repeat' split) <;> rfl
@[simp] theorem State.addThread_agenda (s : State) (t : Thread) : (s.addThread t).agenda = s.agenda := by simp only [State.addThread]; (repeat' split) <;> rfl
@[simp] theorem State.addThread_core (s : State) (t : Thread) : (s.addThread t).core = s.core := by simp only [State.addThread]; (repeat' split) <;> rfl
@[simp] theorem State.addThread_cores (s : State) (t : Thread) : (s.addThread t).cores = s.cores := by simp only [State.addThread]; (repeat' split) <;> rfl
@[simp] theorem State.addThread_mem (s : State) (t : Thread) : (s.addThread t).mem = s.mem := by simp only [State.addThread]; (repeat' split) <;> rfl
@[simp] theorem State.addThread_sys (s : State) (t : Thread) : (s.addThread t).sys = s.sys := by simp only [State.addThread]; (repeat' split) <;> rfl
@[simp] theorem State.addThread_caps (s : State) (t : Thread) : (s.addThread t).caps = s.caps := by simp only [State.addThread]; (repeat' split) <;> rfl
@[simp] theorem State.addThread_health (s : State) (t : Thread) : (s.addThread t).health = s.health := by simp only [State.addThread]; (repeat' split) <;> rfl
@[simp] theorem State.addThread_launcher (s : State) (t : Thread) : (s.addThread t).launcher = s.launcher := by simp only [State.addThread]; (repeat' split) <;> rfl
@[simp] theorem State.addThread_bars (s : State) (t : Thread) : (s.addThread t).bars = s.bars := by simp only [State.addThread]; (repeat' split) <;> rfl
@[simp] theorem State.addThread_table (s : State) (t : Thread) : (s.addThread t).table = s.table := by simp only [State.addThread]; (repeat' split) <;> rfl
@[simp] theorem State.addThread_inc (s : State) (t : Thread) : (s.addThread t).inc = s.inc := by simp only [State.addThread]; (repeat' split) <;> rfl
@[simp] theorem State.addThread_net (s : State) (t : Thread) : (s.addThread t).net = s.net := by simp only [State.addThread]; (repeat' split) <;> rfl
@[simp] theorem State.addThread_hem (s : State) (t : Thread) : (s.addThread t).hem = s.hem := by simp only [State.addThread]; (repeat' split) <;> rfl
@[simp] theorem State.addThread_seam (s : State) (t : Thread) : (s.addThread t).seam = s.seam := by simp only [State.addThread]; (repeat' split) <;> rfl
@[simp] theorem State.addThread_links (s : State) (t : Thread) : (s.addThread t).links = s.links := by simp only [State.addThread]; (repeat' split) <;> rfl
@[simp] theorem State.addThread_clusters (s : State) (t : Thread) : (s.addThread t).clusters = s.clusters := by simp only [State.addThread]; (repeat' split) <;> rfl
@[simp] theorem State.addThread_walks (s : State) (t : Thread) : (s.addThread t).walks = s.walks := by simp only [State.addThread]; (repeat' split) <;> rfl
@[simp] theorem State.addThread_msc (s : State) (t : Thread) : (s.addThread t).msc = s.msc := by simp only [State.addThread]; (repeat' split) <;> rfl
@[simp] theorem State.addThread_ecc (s : State) (t : Thread) : (s.addThread t).ecc = s.ecc := by simp only [State.addThread]; (repeat' split) <;> rfl
@[simp] theorem State.addThread_quads (s : State) (t : Thread) : (s.addThread t).quads = s.quads := by simp only [State.addThread]; (repeat' split) <;> rfl
@[simp] theorem State.addThread_weight (s : State) (t : Thread) : (s.addThread t).weight = s.weight := by simp only [State.addThread]; (repeat' split) <;> rfl
@[simp] theorem State.addThread_mgmt (s : State) (t : Thread) : (s.addThread t).mgmt = s.mgmt := by simp only [State.addThread]; (repeat' split) <;> rfl

/-! ## setCore -/

@[simp] theorem State.setCore_pkg (s : State) (c : Core) : (s.setCore c).pkg = s.pkg := by simp only [State.setCore]; split <;> rfl
@[simp] theorem State.setCore_cc (s : State) (c : Core) : (s.setCore c).cc = s.cc := by simp only [State.setCore]; split <;> rfl
@[simp] theorem State.setCore_free (s : State) (c : Core) : (s.setCore c).free = s.free := by simp only [State.setCore]; split <;> rfl
@[simp] theorem State.setCore_agenda (s : State) (c : Core) : (s.setCore c).agenda = s.agenda := by simp only [State.setCore]; split <;> rfl
@[simp] theorem State.setCore_thr (s : State) (c : Core) : (s.setCore c).thr = s.thr := by simp only [State.setCore]; split <;> rfl
@[simp] theorem State.setCore_threads (s : State) (c : Core) : (s.setCore c).threads = s.threads := by simp only [State.setCore]; split <;> rfl
@[simp] theorem State.setCore_mem (s : State) (c : Core) : (s.setCore c).mem = s.mem := by simp only [State.setCore]; split <;> rfl
@[simp] theorem State.setCore_sys (s : State) (c : Core) : (s.setCore c).sys = s.sys := by simp only [State.setCore]; split <;> rfl
@[simp] theorem State.setCore_caps (s : State) (c : Core) : (s.setCore c).caps = s.caps := by simp only [State.setCore]; split <;> rfl
@[simp] theorem State.setCore_health (s : State) (c : Core) : (s.setCore c).health = s.health := by simp only [State.setCore]; split <;> rfl
@[simp] theorem State.setCore_launcher (s : State) (c : Core) : (s.setCore c).launcher = s.launcher := by simp only [State.setCore]; split <;> rfl
@[simp] theorem State.setCore_bars (s : State) (c : Core) : (s.setCore c).bars = s.bars := by simp only [State.setCore]; split <;> rfl
@[simp] theorem State.setCore_table (s : State) (c : Core) : (s.setCore c).table = s.table := by simp only [State.setCore]; split <;> rfl
@[simp] theorem State.setCore_inc (s : State) (c : Core) : (s.setCore c).inc = s.inc := by simp only [State.setCore]; split <;> rfl
@[simp] theorem State.setCore_net (s : State) (c : Core) : (s.setCore c).net = s.net := by simp only [State.setCore]; split <;> rfl
@[simp] theorem State.setCore_hem (s : State) (c : Core) : (s.setCore c).hem = s.hem := by simp only [State.setCore]; split <;> rfl
@[simp] theorem State.setCore_seam (s : State) (c : Core) : (s.setCore c).seam = s.seam := by simp only [State.setCore]; split <;> rfl
@[simp] theorem State.setCore_links (s : State) (c : Core) : (s.setCore c).links = s.links := by simp only [State.setCore]; split <;> rfl
@[simp] theorem State.setCore_clusters (s : State) (c : Core) : (s.setCore c).clusters = s.clusters := by simp only [State.setCore]; split <;> rfl
@[simp] theorem State.setCore_walks (s : State) (c : Core) : (s.setCore c).walks = s.walks := by simp only [State.setCore]; split <;> rfl
@[simp] theorem State.setCore_msc (s : State) (c : Core) : (s.setCore c).msc = s.msc := by simp only [State.setCore]; split <;> rfl
@[simp] theorem State.setCore_ecc (s : State) (c : Core) : (s.setCore c).ecc = s.ecc := by simp only [State.setCore]; split <;> rfl
@[simp] theorem State.setCore_quads (s : State) (c : Core) : (s.setCore c).quads = s.quads := by simp only [State.setCore]; split <;> rfl
@[simp] theorem State.setCore_weight (s : State) (c : Core) : (s.setCore c).weight = s.weight := by simp only [State.setCore]; split <;> rfl
@[simp] theorem State.setCore_mgmt (s : State) (c : Core) : (s.setCore c).mgmt = s.mgmt := by simp only [State.setCore]; split <;> rfl

/-! ## modCore -/

@[simp] theorem State.modCore_pkg (s : State) (n : Nat) (f : Core → Core) : (s.modCore n f).pkg = s.pkg := by simp [State.modCore]
@[simp] theorem State.modCore_cc (s : State) (n : Nat) (f : Core → Core) : (s.modCore n f).cc = s.cc := by simp [State.modCore]
@[simp] theorem State.modCore_free (s : State) (n : Nat) (f : Core → Core) : (s.modCore n f).free = s.free := by simp [State.modCore]
@[simp] theorem State.modCore_agenda (s : State) (n : Nat) (f : Core → Core) : (s.modCore n f).agenda = s.agenda := by simp [State.modCore]
@[simp] theorem State.modCore_thr (s : State) (n : Nat) (f : Core → Core) : (s.modCore n f).thr = s.thr := by simp [State.modCore]
@[simp] theorem State.modCore_threads (s : State) (n : Nat) (f : Core → Core) : (s.modCore n f).threads = s.threads := by simp [State.modCore]
@[simp] theorem State.modCore_mem (s : State) (n : Nat) (f : Core → Core) : (s.modCore n f).mem = s.mem := by simp [State.modCore]
@[simp] theorem State.modCore_sys (s : State) (n : Nat) (f : Core → Core) : (s.modCore n f).sys = s.sys := by simp [State.modCore]
@[simp] theorem State.modCore_caps (s : State) (n : Nat) (f : Core → Core) : (s.modCore n f).caps = s.caps := by simp [State.modCore]
@[simp] theorem State.modCore_health (s : State) (n : Nat) (f : Core → Core) : (s.modCore n f).health = s.health := by simp [State.modCore]
@[simp] theorem State.modCore_launcher (s : State) (n : Nat) (f : Core → Core) : (s.modCore n f).launcher = s.launcher := by simp [State.modCore]
@[simp] theorem State.modCore_bars (s : State) (n : Nat) (f : Core → Core) : (s.modCore n f).bars = s.bars := by simp [State.modCore]
@[simp] theorem State.modCore_table (s : State) (n : Nat) (f : Core → Core) : (s.modCore n f).table = s.table := by simp [State.modCore]
@[simp] theorem State.modCore_inc (s : State) (n : Nat) (f : Core → Core) : (s.modCore n f).inc = s.inc := by simp [State.modCore]
@[simp] theorem State.modCore_net (s : State) (n : Nat) (f : Core → Core) : (s.modCore n f).net = s.net := by simp [State.modCore]
@[simp] theorem State.modCore_hem (s : State) (n : Nat) (f : Core → Core) : (s.modCore n f).hem = s.hem := by simp [State.modCore]
@[simp] theorem State.modCore_seam (s : State) (n : Nat) (f : Core → Core) : (s.modCore n f).seam = s.seam := by simp [State.modCore]
@[simp] theorem State.modCore_links (s : State) (n : Nat) (f : Core → Core) : (s.modCore n f).links = s.links := by simp [State.modCore]
@[simp] theorem State.modCore_clusters (s : State) (n : Nat) (f : Core → Core) : (s.modCore n f).clusters = s.clusters := by simp [State.modCore]
@[simp] theorem State.modCore_walks (s : State) (n : Nat) (f : Core → Core) : (s.modCore n f).walks = s.walks := by simp [State.modCore]
@[simp] theorem State.modCore_msc (s : State) (n : Nat) (f : Core → Core) : (s.modCore n f).msc = s.msc := by simp [State.modCore]
@[simp] theorem State.modCore_ecc (s : State) (n : Nat) (f : Core → Core) : (s.modCore n f).ecc = s.ecc := by simp [State.modCore]
@[simp] theorem State.modCore_quads (s : State) (n : Nat) (f : Core → Core) : (s.modCore n f).quads = s.quads := by simp [State.modCore]
@[simp] theorem State.modCore_weight (s : State) (n : Nat) (f : Core → Core) : (s.modCore n f).weight = s.weight := by simp [State.modCore]
@[simp] theorem State.modCore_mgmt (s : State) (n : Nat) (f : Core → Core) : (s.modCore n f).mgmt = s.mgmt := by simp [State.modCore]

/-! ## modCores -/

@[simp] theorem State.modCores_pkg (s : State) (f : Core → Core) : (s.modCores f).pkg = s.pkg := rfl
@[simp] theorem State.modCores_cc (s : State) (f : Core → Core) : (s.modCores f).cc = s.cc := rfl
@[simp] theorem State.modCores_free (s : State) (f : Core → Core) : (s.modCores f).free = s.free := rfl
@[simp] theorem State.modCores_agenda (s : State) (f : Core → Core) : (s.modCores f).agenda = s.agenda := rfl
@[simp] theorem State.modCores_thr (s : State) (f : Core → Core) : (s.modCores f).thr = s.thr := rfl
@[simp] theorem State.modCores_threads (s : State) (f : Core → Core) : (s.modCores f).threads = s.threads := rfl
@[simp] theorem State.modCores_mem (s : State) (f : Core → Core) : (s.modCores f).mem = s.mem := rfl
@[simp] theorem State.modCores_sys (s : State) (f : Core → Core) : (s.modCores f).sys = s.sys := rfl
@[simp] theorem State.modCores_caps (s : State) (f : Core → Core) : (s.modCores f).caps = s.caps := rfl
@[simp] theorem State.modCores_health (s : State) (f : Core → Core) : (s.modCores f).health = s.health := rfl
@[simp] theorem State.modCores_launcher (s : State) (f : Core → Core) : (s.modCores f).launcher = s.launcher := rfl
@[simp] theorem State.modCores_bars (s : State) (f : Core → Core) : (s.modCores f).bars = s.bars := rfl
@[simp] theorem State.modCores_table (s : State) (f : Core → Core) : (s.modCores f).table = s.table := rfl
@[simp] theorem State.modCores_inc (s : State) (f : Core → Core) : (s.modCores f).inc = s.inc := rfl
@[simp] theorem State.modCores_net (s : State) (f : Core → Core) : (s.modCores f).net = s.net := rfl
@[simp] theorem State.modCores_hem (s : State) (f : Core → Core) : (s.modCores f).hem = s.hem := rfl
@[simp] theorem State.modCores_seam (s : State) (f : Core → Core) : (s.modCores f).seam = s.seam := rfl
@[simp] theorem State.modCores_links (s : State) (f : Core → Core) : (s.modCores f).links = s.links := rfl
@[simp] theorem State.modCores_clusters (s : State) (f : Core → Core) : (s.modCores f).clusters = s.clusters := rfl
@[simp] theorem State.modCores_walks (s : State) (f : Core → Core) : (s.modCores f).walks = s.walks := rfl
@[simp] theorem State.modCores_msc (s : State) (f : Core → Core) : (s.modCores f).msc = s.msc := rfl
@[simp] theorem State.modCores_ecc (s : State) (f : Core → Core) : (s.modCores f).ecc = s.ecc := rfl
@[simp] theorem State.modCores_quads (s : State) (f : Core → Core) : (s.modCores f).quads = s.quads := rfl
@[simp] theorem State.modCores_weight (s : State) (f : Core → Core) : (s.modCores f).weight = s.weight := rfl
@[simp] theorem State.modCores_mgmt (s : State) (f : Core → Core) : (s.modCores f).mgmt = s.mgmt := rfl

/-! ## modEng -/

@[simp] theorem State.modEng_pkg (s : State) (n : Nat) (f : Engines → Engines) : (s.modEng n f).pkg = s.pkg := by simp [State.modEng]
@[simp] theorem State.modEng_cc (s : State) (n : Nat) (f : Engines → Engines) : (s.modEng n f).cc = s.cc := by simp [State.modEng]
@[simp] theorem State.modEng_free (s : State) (n : Nat) (f : Engines → Engines) : (s.modEng n f).free = s.free := by simp [State.modEng]
@[simp] theorem State.modEng_agenda (s : State) (n : Nat) (f : Engines → Engines) : (s.modEng n f).agenda = s.agenda := by simp [State.modEng]
@[simp] theorem State.modEng_thr (s : State) (n : Nat) (f : Engines → Engines) : (s.modEng n f).thr = s.thr := by simp [State.modEng]
@[simp] theorem State.modEng_threads (s : State) (n : Nat) (f : Engines → Engines) : (s.modEng n f).threads = s.threads := by simp [State.modEng]
@[simp] theorem State.modEng_mem (s : State) (n : Nat) (f : Engines → Engines) : (s.modEng n f).mem = s.mem := by simp [State.modEng]
@[simp] theorem State.modEng_sys (s : State) (n : Nat) (f : Engines → Engines) : (s.modEng n f).sys = s.sys := by simp [State.modEng]
@[simp] theorem State.modEng_caps (s : State) (n : Nat) (f : Engines → Engines) : (s.modEng n f).caps = s.caps := by simp [State.modEng]
@[simp] theorem State.modEng_health (s : State) (n : Nat) (f : Engines → Engines) : (s.modEng n f).health = s.health := by simp [State.modEng]
@[simp] theorem State.modEng_launcher (s : State) (n : Nat) (f : Engines → Engines) : (s.modEng n f).launcher = s.launcher := by simp [State.modEng]
@[simp] theorem State.modEng_bars (s : State) (n : Nat) (f : Engines → Engines) : (s.modEng n f).bars = s.bars := by simp [State.modEng]
@[simp] theorem State.modEng_table (s : State) (n : Nat) (f : Engines → Engines) : (s.modEng n f).table = s.table := by simp [State.modEng]
@[simp] theorem State.modEng_inc (s : State) (n : Nat) (f : Engines → Engines) : (s.modEng n f).inc = s.inc := by simp [State.modEng]
@[simp] theorem State.modEng_net (s : State) (n : Nat) (f : Engines → Engines) : (s.modEng n f).net = s.net := by simp [State.modEng]
@[simp] theorem State.modEng_hem (s : State) (n : Nat) (f : Engines → Engines) : (s.modEng n f).hem = s.hem := by simp [State.modEng]
@[simp] theorem State.modEng_seam (s : State) (n : Nat) (f : Engines → Engines) : (s.modEng n f).seam = s.seam := by simp [State.modEng]
@[simp] theorem State.modEng_links (s : State) (n : Nat) (f : Engines → Engines) : (s.modEng n f).links = s.links := by simp [State.modEng]
@[simp] theorem State.modEng_clusters (s : State) (n : Nat) (f : Engines → Engines) : (s.modEng n f).clusters = s.clusters := by simp [State.modEng]
@[simp] theorem State.modEng_walks (s : State) (n : Nat) (f : Engines → Engines) : (s.modEng n f).walks = s.walks := by simp [State.modEng]
@[simp] theorem State.modEng_msc (s : State) (n : Nat) (f : Engines → Engines) : (s.modEng n f).msc = s.msc := by simp [State.modEng]
@[simp] theorem State.modEng_ecc (s : State) (n : Nat) (f : Engines → Engines) : (s.modEng n f).ecc = s.ecc := by simp [State.modEng]
@[simp] theorem State.modEng_quads (s : State) (n : Nat) (f : Engines → Engines) : (s.modEng n f).quads = s.quads := by simp [State.modEng]
@[simp] theorem State.modEng_weight (s : State) (n : Nat) (f : Engines → Engines) : (s.modEng n f).weight = s.weight := by simp [State.modEng]
@[simp] theorem State.modEng_mgmt (s : State) (n : Nat) (f : Engines → Engines) : (s.modEng n f).mgmt = s.mgmt := by simp [State.modEng]

/-! ## modFuture -/

@[simp] theorem State.modFuture_pkg (s : State) (n k : Nat) (f : Future → Future) : (s.modFuture n k f).pkg = s.pkg := by simp [State.modFuture]
@[simp] theorem State.modFuture_cc (s : State) (n k : Nat) (f : Future → Future) : (s.modFuture n k f).cc = s.cc := by simp [State.modFuture]
@[simp] theorem State.modFuture_free (s : State) (n k : Nat) (f : Future → Future) : (s.modFuture n k f).free = s.free := by simp [State.modFuture]
@[simp] theorem State.modFuture_agenda (s : State) (n k : Nat) (f : Future → Future) : (s.modFuture n k f).agenda = s.agenda := by simp [State.modFuture]
@[simp] theorem State.modFuture_thr (s : State) (n k : Nat) (f : Future → Future) : (s.modFuture n k f).thr = s.thr := by simp [State.modFuture]
@[simp] theorem State.modFuture_threads (s : State) (n k : Nat) (f : Future → Future) : (s.modFuture n k f).threads = s.threads := by simp [State.modFuture]
@[simp] theorem State.modFuture_mem (s : State) (n k : Nat) (f : Future → Future) : (s.modFuture n k f).mem = s.mem := by simp [State.modFuture]
@[simp] theorem State.modFuture_sys (s : State) (n k : Nat) (f : Future → Future) : (s.modFuture n k f).sys = s.sys := by simp [State.modFuture]
@[simp] theorem State.modFuture_caps (s : State) (n k : Nat) (f : Future → Future) : (s.modFuture n k f).caps = s.caps := by simp [State.modFuture]
@[simp] theorem State.modFuture_health (s : State) (n k : Nat) (f : Future → Future) : (s.modFuture n k f).health = s.health := by simp [State.modFuture]
@[simp] theorem State.modFuture_launcher (s : State) (n k : Nat) (f : Future → Future) : (s.modFuture n k f).launcher = s.launcher := by simp [State.modFuture]
@[simp] theorem State.modFuture_bars (s : State) (n k : Nat) (f : Future → Future) : (s.modFuture n k f).bars = s.bars := by simp [State.modFuture]
@[simp] theorem State.modFuture_table (s : State) (n k : Nat) (f : Future → Future) : (s.modFuture n k f).table = s.table := by simp [State.modFuture]
@[simp] theorem State.modFuture_inc (s : State) (n k : Nat) (f : Future → Future) : (s.modFuture n k f).inc = s.inc := by simp [State.modFuture]
@[simp] theorem State.modFuture_net (s : State) (n k : Nat) (f : Future → Future) : (s.modFuture n k f).net = s.net := by simp [State.modFuture]
@[simp] theorem State.modFuture_hem (s : State) (n k : Nat) (f : Future → Future) : (s.modFuture n k f).hem = s.hem := by simp [State.modFuture]
@[simp] theorem State.modFuture_seam (s : State) (n k : Nat) (f : Future → Future) : (s.modFuture n k f).seam = s.seam := by simp [State.modFuture]
@[simp] theorem State.modFuture_links (s : State) (n k : Nat) (f : Future → Future) : (s.modFuture n k f).links = s.links := by simp [State.modFuture]
@[simp] theorem State.modFuture_clusters (s : State) (n k : Nat) (f : Future → Future) : (s.modFuture n k f).clusters = s.clusters := by simp [State.modFuture]
@[simp] theorem State.modFuture_walks (s : State) (n k : Nat) (f : Future → Future) : (s.modFuture n k f).walks = s.walks := by simp [State.modFuture]
@[simp] theorem State.modFuture_msc (s : State) (n k : Nat) (f : Future → Future) : (s.modFuture n k f).msc = s.msc := by simp [State.modFuture]
@[simp] theorem State.modFuture_ecc (s : State) (n k : Nat) (f : Future → Future) : (s.modFuture n k f).ecc = s.ecc := by simp [State.modFuture]
@[simp] theorem State.modFuture_quads (s : State) (n k : Nat) (f : Future → Future) : (s.modFuture n k f).quads = s.quads := by simp [State.modFuture]
@[simp] theorem State.modFuture_weight (s : State) (n k : Nat) (f : Future → Future) : (s.modFuture n k f).weight = s.weight := by simp [State.modFuture]
@[simp] theorem State.modFuture_mgmt (s : State) (n k : Nat) (f : Future → Future) : (s.modFuture n k f).mgmt = s.mgmt := by simp [State.modFuture]

/-! ## resolve -/

@[simp] theorem State.resolve_pkg (s : State) (n k : Nat) (x : FutStatus) (v a : Word) : (s.resolve n k x v a).pkg = s.pkg := by simp [State.resolve]
@[simp] theorem State.resolve_cc (s : State) (n k : Nat) (x : FutStatus) (v a : Word) : (s.resolve n k x v a).cc = s.cc := by simp [State.resolve]
@[simp] theorem State.resolve_free (s : State) (n k : Nat) (x : FutStatus) (v a : Word) : (s.resolve n k x v a).free = s.free := by simp [State.resolve]
@[simp] theorem State.resolve_agenda (s : State) (n k : Nat) (x : FutStatus) (v a : Word) : (s.resolve n k x v a).agenda = s.agenda := by simp [State.resolve]
@[simp] theorem State.resolve_thr (s : State) (n k : Nat) (x : FutStatus) (v a : Word) : (s.resolve n k x v a).thr = s.thr := by simp [State.resolve]
@[simp] theorem State.resolve_threads (s : State) (n k : Nat) (x : FutStatus) (v a : Word) : (s.resolve n k x v a).threads = s.threads := by simp [State.resolve]
@[simp] theorem State.resolve_mem (s : State) (n k : Nat) (x : FutStatus) (v a : Word) : (s.resolve n k x v a).mem = s.mem := by simp [State.resolve]
@[simp] theorem State.resolve_sys (s : State) (n k : Nat) (x : FutStatus) (v a : Word) : (s.resolve n k x v a).sys = s.sys := by simp [State.resolve]
@[simp] theorem State.resolve_caps (s : State) (n k : Nat) (x : FutStatus) (v a : Word) : (s.resolve n k x v a).caps = s.caps := by simp [State.resolve]
@[simp] theorem State.resolve_health (s : State) (n k : Nat) (x : FutStatus) (v a : Word) : (s.resolve n k x v a).health = s.health := by simp [State.resolve]
@[simp] theorem State.resolve_launcher (s : State) (n k : Nat) (x : FutStatus) (v a : Word) : (s.resolve n k x v a).launcher = s.launcher := by simp [State.resolve]
@[simp] theorem State.resolve_bars (s : State) (n k : Nat) (x : FutStatus) (v a : Word) : (s.resolve n k x v a).bars = s.bars := by simp [State.resolve]
@[simp] theorem State.resolve_table (s : State) (n k : Nat) (x : FutStatus) (v a : Word) : (s.resolve n k x v a).table = s.table := by simp [State.resolve]
@[simp] theorem State.resolve_inc (s : State) (n k : Nat) (x : FutStatus) (v a : Word) : (s.resolve n k x v a).inc = s.inc := by simp [State.resolve]
@[simp] theorem State.resolve_net (s : State) (n k : Nat) (x : FutStatus) (v a : Word) : (s.resolve n k x v a).net = s.net := by simp [State.resolve]
@[simp] theorem State.resolve_hem (s : State) (n k : Nat) (x : FutStatus) (v a : Word) : (s.resolve n k x v a).hem = s.hem := by simp [State.resolve]
@[simp] theorem State.resolve_seam (s : State) (n k : Nat) (x : FutStatus) (v a : Word) : (s.resolve n k x v a).seam = s.seam := by simp [State.resolve]
@[simp] theorem State.resolve_links (s : State) (n k : Nat) (x : FutStatus) (v a : Word) : (s.resolve n k x v a).links = s.links := by simp [State.resolve]
@[simp] theorem State.resolve_clusters (s : State) (n k : Nat) (x : FutStatus) (v a : Word) : (s.resolve n k x v a).clusters = s.clusters := by simp [State.resolve]
@[simp] theorem State.resolve_walks (s : State) (n k : Nat) (x : FutStatus) (v a : Word) : (s.resolve n k x v a).walks = s.walks := by simp [State.resolve]
@[simp] theorem State.resolve_msc (s : State) (n k : Nat) (x : FutStatus) (v a : Word) : (s.resolve n k x v a).msc = s.msc := by simp [State.resolve]
@[simp] theorem State.resolve_ecc (s : State) (n k : Nat) (x : FutStatus) (v a : Word) : (s.resolve n k x v a).ecc = s.ecc := by simp [State.resolve]
@[simp] theorem State.resolve_quads (s : State) (n k : Nat) (x : FutStatus) (v a : Word) : (s.resolve n k x v a).quads = s.quads := by simp [State.resolve]
@[simp] theorem State.resolve_weight (s : State) (n k : Nat) (x : FutStatus) (v a : Word) : (s.resolve n k x v a).weight = s.weight := by simp [State.resolve]
@[simp] theorem State.resolve_mgmt (s : State) (n k : Nat) (x : FutStatus) (v a : Word) : (s.resolve n k x v a).mgmt = s.mgmt := by simp [State.resolve]

/-! ## modCluster -/

@[simp] theorem State.modCluster_pkg (s : State) (n : Nat) (f : Cluster → Cluster) : (s.modCluster n f).pkg = s.pkg := rfl
@[simp] theorem State.modCluster_cc (s : State) (n : Nat) (f : Cluster → Cluster) : (s.modCluster n f).cc = s.cc := rfl
@[simp] theorem State.modCluster_free (s : State) (n : Nat) (f : Cluster → Cluster) : (s.modCluster n f).free = s.free := rfl
@[simp] theorem State.modCluster_agenda (s : State) (n : Nat) (f : Cluster → Cluster) : (s.modCluster n f).agenda = s.agenda := rfl
@[simp] theorem State.modCluster_thr (s : State) (n : Nat) (f : Cluster → Cluster) : (s.modCluster n f).thr = s.thr := rfl
@[simp] theorem State.modCluster_core (s : State) (n : Nat) (f : Cluster → Cluster) : (s.modCluster n f).core = s.core := rfl
@[simp] theorem State.modCluster_threads (s : State) (n : Nat) (f : Cluster → Cluster) : (s.modCluster n f).threads = s.threads := rfl
@[simp] theorem State.modCluster_cores (s : State) (n : Nat) (f : Cluster → Cluster) : (s.modCluster n f).cores = s.cores := rfl
@[simp] theorem State.modCluster_mem (s : State) (n : Nat) (f : Cluster → Cluster) : (s.modCluster n f).mem = s.mem := rfl
@[simp] theorem State.modCluster_sys (s : State) (n : Nat) (f : Cluster → Cluster) : (s.modCluster n f).sys = s.sys := rfl
@[simp] theorem State.modCluster_caps (s : State) (n : Nat) (f : Cluster → Cluster) : (s.modCluster n f).caps = s.caps := rfl
@[simp] theorem State.modCluster_health (s : State) (n : Nat) (f : Cluster → Cluster) : (s.modCluster n f).health = s.health := rfl
@[simp] theorem State.modCluster_launcher (s : State) (n : Nat) (f : Cluster → Cluster) : (s.modCluster n f).launcher = s.launcher := rfl
@[simp] theorem State.modCluster_bars (s : State) (n : Nat) (f : Cluster → Cluster) : (s.modCluster n f).bars = s.bars := rfl
@[simp] theorem State.modCluster_table (s : State) (n : Nat) (f : Cluster → Cluster) : (s.modCluster n f).table = s.table := rfl
@[simp] theorem State.modCluster_inc (s : State) (n : Nat) (f : Cluster → Cluster) : (s.modCluster n f).inc = s.inc := rfl
@[simp] theorem State.modCluster_net (s : State) (n : Nat) (f : Cluster → Cluster) : (s.modCluster n f).net = s.net := rfl
@[simp] theorem State.modCluster_hem (s : State) (n : Nat) (f : Cluster → Cluster) : (s.modCluster n f).hem = s.hem := rfl
@[simp] theorem State.modCluster_seam (s : State) (n : Nat) (f : Cluster → Cluster) : (s.modCluster n f).seam = s.seam := rfl
@[simp] theorem State.modCluster_links (s : State) (n : Nat) (f : Cluster → Cluster) : (s.modCluster n f).links = s.links := rfl
@[simp] theorem State.modCluster_walks (s : State) (n : Nat) (f : Cluster → Cluster) : (s.modCluster n f).walks = s.walks := rfl
@[simp] theorem State.modCluster_msc (s : State) (n : Nat) (f : Cluster → Cluster) : (s.modCluster n f).msc = s.msc := rfl
@[simp] theorem State.modCluster_ecc (s : State) (n : Nat) (f : Cluster → Cluster) : (s.modCluster n f).ecc = s.ecc := rfl
@[simp] theorem State.modCluster_quads (s : State) (n : Nat) (f : Cluster → Cluster) : (s.modCluster n f).quads = s.quads := rfl
@[simp] theorem State.modCluster_weight (s : State) (n : Nat) (f : Cluster → Cluster) : (s.modCluster n f).weight = s.weight := rfl
@[simp] theorem State.modCluster_mgmt (s : State) (n : Nat) (f : Cluster → Cluster) : (s.modCluster n f).mgmt = s.mgmt := rfl

/-! ## modLaunch -/

@[simp] theorem State.modLaunch_pkg (s : State) (n : Nat) (f : Launch → Launch) : (s.modLaunch n f).pkg = s.pkg := rfl
@[simp] theorem State.modLaunch_cc (s : State) (n : Nat) (f : Launch → Launch) : (s.modLaunch n f).cc = s.cc := rfl
@[simp] theorem State.modLaunch_free (s : State) (n : Nat) (f : Launch → Launch) : (s.modLaunch n f).free = s.free := rfl
@[simp] theorem State.modLaunch_agenda (s : State) (n : Nat) (f : Launch → Launch) : (s.modLaunch n f).agenda = s.agenda := rfl
@[simp] theorem State.modLaunch_thr (s : State) (n : Nat) (f : Launch → Launch) : (s.modLaunch n f).thr = s.thr := rfl
@[simp] theorem State.modLaunch_core (s : State) (n : Nat) (f : Launch → Launch) : (s.modLaunch n f).core = s.core := rfl
@[simp] theorem State.modLaunch_threads (s : State) (n : Nat) (f : Launch → Launch) : (s.modLaunch n f).threads = s.threads := rfl
@[simp] theorem State.modLaunch_cores (s : State) (n : Nat) (f : Launch → Launch) : (s.modLaunch n f).cores = s.cores := rfl
@[simp] theorem State.modLaunch_mem (s : State) (n : Nat) (f : Launch → Launch) : (s.modLaunch n f).mem = s.mem := rfl
@[simp] theorem State.modLaunch_sys (s : State) (n : Nat) (f : Launch → Launch) : (s.modLaunch n f).sys = s.sys := rfl
@[simp] theorem State.modLaunch_caps (s : State) (n : Nat) (f : Launch → Launch) : (s.modLaunch n f).caps = s.caps := rfl
@[simp] theorem State.modLaunch_health (s : State) (n : Nat) (f : Launch → Launch) : (s.modLaunch n f).health = s.health := rfl
@[simp] theorem State.modLaunch_bars (s : State) (n : Nat) (f : Launch → Launch) : (s.modLaunch n f).bars = s.bars := rfl
@[simp] theorem State.modLaunch_table (s : State) (n : Nat) (f : Launch → Launch) : (s.modLaunch n f).table = s.table := rfl
@[simp] theorem State.modLaunch_inc (s : State) (n : Nat) (f : Launch → Launch) : (s.modLaunch n f).inc = s.inc := rfl
@[simp] theorem State.modLaunch_net (s : State) (n : Nat) (f : Launch → Launch) : (s.modLaunch n f).net = s.net := rfl
@[simp] theorem State.modLaunch_hem (s : State) (n : Nat) (f : Launch → Launch) : (s.modLaunch n f).hem = s.hem := rfl
@[simp] theorem State.modLaunch_seam (s : State) (n : Nat) (f : Launch → Launch) : (s.modLaunch n f).seam = s.seam := rfl
@[simp] theorem State.modLaunch_links (s : State) (n : Nat) (f : Launch → Launch) : (s.modLaunch n f).links = s.links := rfl
@[simp] theorem State.modLaunch_clusters (s : State) (n : Nat) (f : Launch → Launch) : (s.modLaunch n f).clusters = s.clusters := rfl
@[simp] theorem State.modLaunch_walks (s : State) (n : Nat) (f : Launch → Launch) : (s.modLaunch n f).walks = s.walks := rfl
@[simp] theorem State.modLaunch_msc (s : State) (n : Nat) (f : Launch → Launch) : (s.modLaunch n f).msc = s.msc := rfl
@[simp] theorem State.modLaunch_ecc (s : State) (n : Nat) (f : Launch → Launch) : (s.modLaunch n f).ecc = s.ecc := rfl
@[simp] theorem State.modLaunch_quads (s : State) (n : Nat) (f : Launch → Launch) : (s.modLaunch n f).quads = s.quads := rfl
@[simp] theorem State.modLaunch_weight (s : State) (n : Nat) (f : Launch → Launch) : (s.modLaunch n f).weight = s.weight := rfl
@[simp] theorem State.modLaunch_mgmt (s : State) (n : Nat) (f : Launch → Launch) : (s.modLaunch n f).mgmt = s.mgmt := rfl

/-! ## sent -/

@[simp] theorem State.sent_pkg (s : State) (n k : Nat) : (s.sent n k).pkg = s.pkg := rfl
@[simp] theorem State.sent_cc (s : State) (n k : Nat) : (s.sent n k).cc = s.cc := rfl
@[simp] theorem State.sent_free (s : State) (n k : Nat) : (s.sent n k).free = s.free := rfl
@[simp] theorem State.sent_agenda (s : State) (n k : Nat) : (s.sent n k).agenda = s.agenda := rfl
@[simp] theorem State.sent_thr (s : State) (n k : Nat) : (s.sent n k).thr = s.thr := rfl
@[simp] theorem State.sent_core (s : State) (n k : Nat) : (s.sent n k).core = s.core := rfl
@[simp] theorem State.sent_threads (s : State) (n k : Nat) : (s.sent n k).threads = s.threads := rfl
@[simp] theorem State.sent_cores (s : State) (n k : Nat) : (s.sent n k).cores = s.cores := rfl
@[simp] theorem State.sent_mem (s : State) (n k : Nat) : (s.sent n k).mem = s.mem := rfl
@[simp] theorem State.sent_sys (s : State) (n k : Nat) : (s.sent n k).sys = s.sys := rfl
@[simp] theorem State.sent_caps (s : State) (n k : Nat) : (s.sent n k).caps = s.caps := rfl
@[simp] theorem State.sent_health (s : State) (n k : Nat) : (s.sent n k).health = s.health := rfl
@[simp] theorem State.sent_bars (s : State) (n k : Nat) : (s.sent n k).bars = s.bars := rfl
@[simp] theorem State.sent_table (s : State) (n k : Nat) : (s.sent n k).table = s.table := rfl
@[simp] theorem State.sent_inc (s : State) (n k : Nat) : (s.sent n k).inc = s.inc := rfl
@[simp] theorem State.sent_net (s : State) (n k : Nat) : (s.sent n k).net = s.net := rfl
@[simp] theorem State.sent_hem (s : State) (n k : Nat) : (s.sent n k).hem = s.hem := rfl
@[simp] theorem State.sent_seam (s : State) (n k : Nat) : (s.sent n k).seam = s.seam := rfl
@[simp] theorem State.sent_links (s : State) (n k : Nat) : (s.sent n k).links = s.links := rfl
@[simp] theorem State.sent_clusters (s : State) (n k : Nat) : (s.sent n k).clusters = s.clusters := rfl
@[simp] theorem State.sent_walks (s : State) (n k : Nat) : (s.sent n k).walks = s.walks := rfl
@[simp] theorem State.sent_msc (s : State) (n k : Nat) : (s.sent n k).msc = s.msc := rfl
@[simp] theorem State.sent_ecc (s : State) (n k : Nat) : (s.sent n k).ecc = s.ecc := rfl
@[simp] theorem State.sent_quads (s : State) (n k : Nat) : (s.sent n k).quads = s.quads := rfl
@[simp] theorem State.sent_weight (s : State) (n k : Nat) : (s.sent n k).weight = s.weight := rfl
@[simp] theorem State.sent_mgmt (s : State) (n k : Nat) : (s.sent n k).mgmt = s.mgmt := rfl

/-! ## recvd -/

@[simp] theorem State.recvd_pkg (s : State) (n k : Nat) : (s.recvd n k).pkg = s.pkg := rfl
@[simp] theorem State.recvd_cc (s : State) (n k : Nat) : (s.recvd n k).cc = s.cc := rfl
@[simp] theorem State.recvd_free (s : State) (n k : Nat) : (s.recvd n k).free = s.free := rfl
@[simp] theorem State.recvd_agenda (s : State) (n k : Nat) : (s.recvd n k).agenda = s.agenda := rfl
@[simp] theorem State.recvd_thr (s : State) (n k : Nat) : (s.recvd n k).thr = s.thr := rfl
@[simp] theorem State.recvd_core (s : State) (n k : Nat) : (s.recvd n k).core = s.core := rfl
@[simp] theorem State.recvd_threads (s : State) (n k : Nat) : (s.recvd n k).threads = s.threads := rfl
@[simp] theorem State.recvd_cores (s : State) (n k : Nat) : (s.recvd n k).cores = s.cores := rfl
@[simp] theorem State.recvd_mem (s : State) (n k : Nat) : (s.recvd n k).mem = s.mem := rfl
@[simp] theorem State.recvd_sys (s : State) (n k : Nat) : (s.recvd n k).sys = s.sys := rfl
@[simp] theorem State.recvd_caps (s : State) (n k : Nat) : (s.recvd n k).caps = s.caps := rfl
@[simp] theorem State.recvd_health (s : State) (n k : Nat) : (s.recvd n k).health = s.health := rfl
@[simp] theorem State.recvd_bars (s : State) (n k : Nat) : (s.recvd n k).bars = s.bars := rfl
@[simp] theorem State.recvd_table (s : State) (n k : Nat) : (s.recvd n k).table = s.table := rfl
@[simp] theorem State.recvd_inc (s : State) (n k : Nat) : (s.recvd n k).inc = s.inc := rfl
@[simp] theorem State.recvd_net (s : State) (n k : Nat) : (s.recvd n k).net = s.net := rfl
@[simp] theorem State.recvd_hem (s : State) (n k : Nat) : (s.recvd n k).hem = s.hem := rfl
@[simp] theorem State.recvd_seam (s : State) (n k : Nat) : (s.recvd n k).seam = s.seam := rfl
@[simp] theorem State.recvd_links (s : State) (n k : Nat) : (s.recvd n k).links = s.links := rfl
@[simp] theorem State.recvd_clusters (s : State) (n k : Nat) : (s.recvd n k).clusters = s.clusters := rfl
@[simp] theorem State.recvd_walks (s : State) (n k : Nat) : (s.recvd n k).walks = s.walks := rfl
@[simp] theorem State.recvd_msc (s : State) (n k : Nat) : (s.recvd n k).msc = s.msc := rfl
@[simp] theorem State.recvd_ecc (s : State) (n k : Nat) : (s.recvd n k).ecc = s.ecc := rfl
@[simp] theorem State.recvd_quads (s : State) (n k : Nat) : (s.recvd n k).quads = s.quads := rfl
@[simp] theorem State.recvd_weight (s : State) (n k : Nat) : (s.recvd n k).weight = s.weight := rfl
@[simp] theorem State.recvd_mgmt (s : State) (n k : Nat) : (s.recvd n k).mgmt = s.mgmt := rfl

/-! ## modSeam -/

@[simp] theorem State.modSeam_pkg (s : State) (f : Seam → Seam) : (s.modSeam f).pkg = s.pkg := rfl
@[simp] theorem State.modSeam_cc (s : State) (f : Seam → Seam) : (s.modSeam f).cc = s.cc := rfl
@[simp] theorem State.modSeam_free (s : State) (f : Seam → Seam) : (s.modSeam f).free = s.free := rfl
@[simp] theorem State.modSeam_agenda (s : State) (f : Seam → Seam) : (s.modSeam f).agenda = s.agenda := rfl
@[simp] theorem State.modSeam_thr (s : State) (f : Seam → Seam) : (s.modSeam f).thr = s.thr := rfl
@[simp] theorem State.modSeam_core (s : State) (f : Seam → Seam) : (s.modSeam f).core = s.core := rfl
@[simp] theorem State.modSeam_threads (s : State) (f : Seam → Seam) : (s.modSeam f).threads = s.threads := rfl
@[simp] theorem State.modSeam_cores (s : State) (f : Seam → Seam) : (s.modSeam f).cores = s.cores := rfl
@[simp] theorem State.modSeam_mem (s : State) (f : Seam → Seam) : (s.modSeam f).mem = s.mem := rfl
@[simp] theorem State.modSeam_sys (s : State) (f : Seam → Seam) : (s.modSeam f).sys = s.sys := rfl
@[simp] theorem State.modSeam_caps (s : State) (f : Seam → Seam) : (s.modSeam f).caps = s.caps := rfl
@[simp] theorem State.modSeam_health (s : State) (f : Seam → Seam) : (s.modSeam f).health = s.health := rfl
@[simp] theorem State.modSeam_launcher (s : State) (f : Seam → Seam) : (s.modSeam f).launcher = s.launcher := rfl
@[simp] theorem State.modSeam_bars (s : State) (f : Seam → Seam) : (s.modSeam f).bars = s.bars := rfl
@[simp] theorem State.modSeam_table (s : State) (f : Seam → Seam) : (s.modSeam f).table = s.table := rfl
@[simp] theorem State.modSeam_inc (s : State) (f : Seam → Seam) : (s.modSeam f).inc = s.inc := rfl
@[simp] theorem State.modSeam_net (s : State) (f : Seam → Seam) : (s.modSeam f).net = s.net := rfl
@[simp] theorem State.modSeam_hem (s : State) (f : Seam → Seam) : (s.modSeam f).hem = s.hem := rfl
@[simp] theorem State.modSeam_links (s : State) (f : Seam → Seam) : (s.modSeam f).links = s.links := rfl
@[simp] theorem State.modSeam_clusters (s : State) (f : Seam → Seam) : (s.modSeam f).clusters = s.clusters := rfl
@[simp] theorem State.modSeam_walks (s : State) (f : Seam → Seam) : (s.modSeam f).walks = s.walks := rfl
@[simp] theorem State.modSeam_msc (s : State) (f : Seam → Seam) : (s.modSeam f).msc = s.msc := rfl
@[simp] theorem State.modSeam_ecc (s : State) (f : Seam → Seam) : (s.modSeam f).ecc = s.ecc := rfl
@[simp] theorem State.modSeam_quads (s : State) (f : Seam → Seam) : (s.modSeam f).quads = s.quads := rfl
@[simp] theorem State.modSeam_weight (s : State) (f : Seam → Seam) : (s.modSeam f).weight = s.weight := rfl
@[simp] theorem State.modSeam_mgmt (s : State) (f : Seam → Seam) : (s.modSeam f).mgmt = s.mgmt := rfl

/-! ## countCore -/

@[simp] theorem State.countCore_pkg (s : State) (n k l : Nat) : (s.countCore n k l).pkg = s.pkg := by simp [State.countCore]
@[simp] theorem State.countCore_cc (s : State) (n k l : Nat) : (s.countCore n k l).cc = s.cc := by simp [State.countCore]
@[simp] theorem State.countCore_free (s : State) (n k l : Nat) : (s.countCore n k l).free = s.free := by simp [State.countCore]
@[simp] theorem State.countCore_agenda (s : State) (n k l : Nat) : (s.countCore n k l).agenda = s.agenda := by simp [State.countCore]
@[simp] theorem State.countCore_thr (s : State) (n k l : Nat) : (s.countCore n k l).thr = s.thr := by simp [State.countCore]
@[simp] theorem State.countCore_threads (s : State) (n k l : Nat) : (s.countCore n k l).threads = s.threads := by simp [State.countCore]
@[simp] theorem State.countCore_mem (s : State) (n k l : Nat) : (s.countCore n k l).mem = s.mem := by simp [State.countCore]
@[simp] theorem State.countCore_sys (s : State) (n k l : Nat) : (s.countCore n k l).sys = s.sys := by simp [State.countCore]
@[simp] theorem State.countCore_caps (s : State) (n k l : Nat) : (s.countCore n k l).caps = s.caps := by simp [State.countCore]
@[simp] theorem State.countCore_health (s : State) (n k l : Nat) : (s.countCore n k l).health = s.health := by simp [State.countCore]
@[simp] theorem State.countCore_launcher (s : State) (n k l : Nat) : (s.countCore n k l).launcher = s.launcher := by simp [State.countCore]
@[simp] theorem State.countCore_bars (s : State) (n k l : Nat) : (s.countCore n k l).bars = s.bars := by simp [State.countCore]
@[simp] theorem State.countCore_table (s : State) (n k l : Nat) : (s.countCore n k l).table = s.table := by simp [State.countCore]
@[simp] theorem State.countCore_inc (s : State) (n k l : Nat) : (s.countCore n k l).inc = s.inc := by simp [State.countCore]
@[simp] theorem State.countCore_net (s : State) (n k l : Nat) : (s.countCore n k l).net = s.net := by simp [State.countCore]
@[simp] theorem State.countCore_hem (s : State) (n k l : Nat) : (s.countCore n k l).hem = s.hem := by simp [State.countCore]
@[simp] theorem State.countCore_seam (s : State) (n k l : Nat) : (s.countCore n k l).seam = s.seam := by simp [State.countCore]
@[simp] theorem State.countCore_links (s : State) (n k l : Nat) : (s.countCore n k l).links = s.links := by simp [State.countCore]
@[simp] theorem State.countCore_clusters (s : State) (n k l : Nat) : (s.countCore n k l).clusters = s.clusters := by simp [State.countCore]
@[simp] theorem State.countCore_walks (s : State) (n k l : Nat) : (s.countCore n k l).walks = s.walks := by simp [State.countCore]
@[simp] theorem State.countCore_msc (s : State) (n k l : Nat) : (s.countCore n k l).msc = s.msc := by simp [State.countCore]
@[simp] theorem State.countCore_ecc (s : State) (n k l : Nat) : (s.countCore n k l).ecc = s.ecc := by simp [State.countCore]
@[simp] theorem State.countCore_quads (s : State) (n k l : Nat) : (s.countCore n k l).quads = s.quads := by simp [State.countCore]
@[simp] theorem State.countCore_weight (s : State) (n k l : Nat) : (s.countCore n k l).weight = s.weight := by simp [State.countCore]
@[simp] theorem State.countCore_mgmt (s : State) (n k l : Nat) : (s.countCore n k l).mgmt = s.mgmt := by simp [State.countCore]

/-! ## countCycles -/

@[simp] theorem State.countCycles_pkg (s : State) (n : Nat) : (s.countCycles n).pkg = s.pkg := rfl
@[simp] theorem State.countCycles_cc (s : State) (n : Nat) : (s.countCycles n).cc = s.cc := rfl
@[simp] theorem State.countCycles_free (s : State) (n : Nat) : (s.countCycles n).free = s.free := rfl
@[simp] theorem State.countCycles_agenda (s : State) (n : Nat) : (s.countCycles n).agenda = s.agenda := rfl
@[simp] theorem State.countCycles_thr (s : State) (n : Nat) : (s.countCycles n).thr = s.thr := rfl
@[simp] theorem State.countCycles_threads (s : State) (n : Nat) : (s.countCycles n).threads = s.threads := rfl
@[simp] theorem State.countCycles_mem (s : State) (n : Nat) : (s.countCycles n).mem = s.mem := rfl
@[simp] theorem State.countCycles_sys (s : State) (n : Nat) : (s.countCycles n).sys = s.sys := rfl
@[simp] theorem State.countCycles_caps (s : State) (n : Nat) : (s.countCycles n).caps = s.caps := rfl
@[simp] theorem State.countCycles_health (s : State) (n : Nat) : (s.countCycles n).health = s.health := rfl
@[simp] theorem State.countCycles_launcher (s : State) (n : Nat) : (s.countCycles n).launcher = s.launcher := rfl
@[simp] theorem State.countCycles_bars (s : State) (n : Nat) : (s.countCycles n).bars = s.bars := rfl
@[simp] theorem State.countCycles_table (s : State) (n : Nat) : (s.countCycles n).table = s.table := rfl
@[simp] theorem State.countCycles_inc (s : State) (n : Nat) : (s.countCycles n).inc = s.inc := rfl
@[simp] theorem State.countCycles_net (s : State) (n : Nat) : (s.countCycles n).net = s.net := rfl
@[simp] theorem State.countCycles_hem (s : State) (n : Nat) : (s.countCycles n).hem = s.hem := rfl
@[simp] theorem State.countCycles_seam (s : State) (n : Nat) : (s.countCycles n).seam = s.seam := rfl
@[simp] theorem State.countCycles_links (s : State) (n : Nat) : (s.countCycles n).links = s.links := rfl
@[simp] theorem State.countCycles_clusters (s : State) (n : Nat) : (s.countCycles n).clusters = s.clusters := rfl
@[simp] theorem State.countCycles_walks (s : State) (n : Nat) : (s.countCycles n).walks = s.walks := rfl
@[simp] theorem State.countCycles_msc (s : State) (n : Nat) : (s.countCycles n).msc = s.msc := rfl
@[simp] theorem State.countCycles_ecc (s : State) (n : Nat) : (s.countCycles n).ecc = s.ecc := rfl
@[simp] theorem State.countCycles_quads (s : State) (n : Nat) : (s.countCycles n).quads = s.quads := rfl
@[simp] theorem State.countCycles_weight (s : State) (n : Nat) : (s.countCycles n).weight = s.weight := rfl
@[simp] theorem State.countCycles_mgmt (s : State) (n : Nat) : (s.countCycles n).mgmt = s.mgmt := rfl

/-! ## countCluster -/

@[simp] theorem State.countCluster_pkg (s : State) (n k l : Nat) : (s.countCluster n k l).pkg = s.pkg := by simp only [State.countCluster]; split <;> rfl
@[simp] theorem State.countCluster_cc (s : State) (n k l : Nat) : (s.countCluster n k l).cc = s.cc := by simp only [State.countCluster]; split <;> rfl
@[simp] theorem State.countCluster_free (s : State) (n k l : Nat) : (s.countCluster n k l).free = s.free := by simp only [State.countCluster]; split <;> rfl
@[simp] theorem State.countCluster_agenda (s : State) (n k l : Nat) : (s.countCluster n k l).agenda = s.agenda := by simp only [State.countCluster]; split <;> rfl
@[simp] theorem State.countCluster_thr (s : State) (n k l : Nat) : (s.countCluster n k l).thr = s.thr := by simp only [State.countCluster]; split <;> rfl
@[simp] theorem State.countCluster_core (s : State) (n k l : Nat) : (s.countCluster n k l).core = s.core := by simp only [State.countCluster]; split <;> rfl
@[simp] theorem State.countCluster_threads (s : State) (n k l : Nat) : (s.countCluster n k l).threads = s.threads := by simp only [State.countCluster]; split <;> rfl
@[simp] theorem State.countCluster_cores (s : State) (n k l : Nat) : (s.countCluster n k l).cores = s.cores := by simp only [State.countCluster]; split <;> rfl
@[simp] theorem State.countCluster_mem (s : State) (n k l : Nat) : (s.countCluster n k l).mem = s.mem := by simp only [State.countCluster]; split <;> rfl
@[simp] theorem State.countCluster_sys (s : State) (n k l : Nat) : (s.countCluster n k l).sys = s.sys := by simp only [State.countCluster]; split <;> rfl
@[simp] theorem State.countCluster_caps (s : State) (n k l : Nat) : (s.countCluster n k l).caps = s.caps := by simp only [State.countCluster]; split <;> rfl
@[simp] theorem State.countCluster_health (s : State) (n k l : Nat) : (s.countCluster n k l).health = s.health := by simp only [State.countCluster]; split <;> rfl
@[simp] theorem State.countCluster_launcher (s : State) (n k l : Nat) : (s.countCluster n k l).launcher = s.launcher := by simp only [State.countCluster]; split <;> rfl
@[simp] theorem State.countCluster_bars (s : State) (n k l : Nat) : (s.countCluster n k l).bars = s.bars := by simp only [State.countCluster]; split <;> rfl
@[simp] theorem State.countCluster_table (s : State) (n k l : Nat) : (s.countCluster n k l).table = s.table := by simp only [State.countCluster]; split <;> rfl
@[simp] theorem State.countCluster_inc (s : State) (n k l : Nat) : (s.countCluster n k l).inc = s.inc := by simp only [State.countCluster]; split <;> rfl
@[simp] theorem State.countCluster_net (s : State) (n k l : Nat) : (s.countCluster n k l).net = s.net := by simp only [State.countCluster]; split <;> rfl
@[simp] theorem State.countCluster_hem (s : State) (n k l : Nat) : (s.countCluster n k l).hem = s.hem := by simp only [State.countCluster]; split <;> rfl
@[simp] theorem State.countCluster_seam (s : State) (n k l : Nat) : (s.countCluster n k l).seam = s.seam := by simp only [State.countCluster]; split <;> rfl
@[simp] theorem State.countCluster_links (s : State) (n k l : Nat) : (s.countCluster n k l).links = s.links := by simp only [State.countCluster]; split <;> rfl
@[simp] theorem State.countCluster_walks (s : State) (n k l : Nat) : (s.countCluster n k l).walks = s.walks := by simp only [State.countCluster]; split <;> rfl
@[simp] theorem State.countCluster_msc (s : State) (n k l : Nat) : (s.countCluster n k l).msc = s.msc := by simp only [State.countCluster]; split <;> rfl
@[simp] theorem State.countCluster_ecc (s : State) (n k l : Nat) : (s.countCluster n k l).ecc = s.ecc := by simp only [State.countCluster]; split <;> rfl
@[simp] theorem State.countCluster_quads (s : State) (n k l : Nat) : (s.countCluster n k l).quads = s.quads := by simp only [State.countCluster]; split <;> rfl
@[simp] theorem State.countCluster_weight (s : State) (n k l : Nat) : (s.countCluster n k l).weight = s.weight := by simp only [State.countCluster]; split <;> rfl
@[simp] theorem State.countCluster_mgmt (s : State) (n k l : Nat) : (s.countCluster n k l).mgmt = s.mgmt := by simp only [State.countCluster]; split <;> rfl

/-! ## countSlice -/

@[simp] theorem State.countSlice_pkg (s : State) (n k : Nat) : (s.countSlice n k).pkg = s.pkg := rfl
@[simp] theorem State.countSlice_cc (s : State) (n k : Nat) : (s.countSlice n k).cc = s.cc := rfl
@[simp] theorem State.countSlice_free (s : State) (n k : Nat) : (s.countSlice n k).free = s.free := rfl
@[simp] theorem State.countSlice_agenda (s : State) (n k : Nat) : (s.countSlice n k).agenda = s.agenda := rfl
@[simp] theorem State.countSlice_thr (s : State) (n k : Nat) : (s.countSlice n k).thr = s.thr := rfl
@[simp] theorem State.countSlice_core (s : State) (n k : Nat) : (s.countSlice n k).core = s.core := rfl
@[simp] theorem State.countSlice_threads (s : State) (n k : Nat) : (s.countSlice n k).threads = s.threads := rfl
@[simp] theorem State.countSlice_cores (s : State) (n k : Nat) : (s.countSlice n k).cores = s.cores := rfl
@[simp] theorem State.countSlice_mem (s : State) (n k : Nat) : (s.countSlice n k).mem = s.mem := rfl
@[simp] theorem State.countSlice_sys (s : State) (n k : Nat) : (s.countSlice n k).sys = s.sys := rfl
@[simp] theorem State.countSlice_caps (s : State) (n k : Nat) : (s.countSlice n k).caps = s.caps := rfl
@[simp] theorem State.countSlice_health (s : State) (n k : Nat) : (s.countSlice n k).health = s.health := rfl
@[simp] theorem State.countSlice_launcher (s : State) (n k : Nat) : (s.countSlice n k).launcher = s.launcher := rfl
@[simp] theorem State.countSlice_bars (s : State) (n k : Nat) : (s.countSlice n k).bars = s.bars := rfl
@[simp] theorem State.countSlice_table (s : State) (n k : Nat) : (s.countSlice n k).table = s.table := rfl
@[simp] theorem State.countSlice_inc (s : State) (n k : Nat) : (s.countSlice n k).inc = s.inc := rfl
@[simp] theorem State.countSlice_net (s : State) (n k : Nat) : (s.countSlice n k).net = s.net := rfl
@[simp] theorem State.countSlice_hem (s : State) (n k : Nat) : (s.countSlice n k).hem = s.hem := rfl
@[simp] theorem State.countSlice_links (s : State) (n k : Nat) : (s.countSlice n k).links = s.links := rfl
@[simp] theorem State.countSlice_clusters (s : State) (n k : Nat) : (s.countSlice n k).clusters = s.clusters := rfl
@[simp] theorem State.countSlice_walks (s : State) (n k : Nat) : (s.countSlice n k).walks = s.walks := rfl
@[simp] theorem State.countSlice_msc (s : State) (n k : Nat) : (s.countSlice n k).msc = s.msc := rfl
@[simp] theorem State.countSlice_ecc (s : State) (n k : Nat) : (s.countSlice n k).ecc = s.ecc := rfl
@[simp] theorem State.countSlice_quads (s : State) (n k : Nat) : (s.countSlice n k).quads = s.quads := rfl
@[simp] theorem State.countSlice_weight (s : State) (n k : Nat) : (s.countSlice n k).weight = s.weight := rfl
@[simp] theorem State.countSlice_mgmt (s : State) (n k : Nat) : (s.countSlice n k).mgmt = s.mgmt := rfl

/-! ## countUe -/

@[simp] theorem State.countUe_pkg (s : State) : s.countUe.pkg = s.pkg := rfl
@[simp] theorem State.countUe_cc (s : State) : s.countUe.cc = s.cc := rfl
@[simp] theorem State.countUe_free (s : State) : s.countUe.free = s.free := rfl
@[simp] theorem State.countUe_agenda (s : State) : s.countUe.agenda = s.agenda := rfl
@[simp] theorem State.countUe_thr (s : State) : s.countUe.thr = s.thr := rfl
@[simp] theorem State.countUe_core (s : State) : s.countUe.core = s.core := rfl
@[simp] theorem State.countUe_threads (s : State) : s.countUe.threads = s.threads := rfl
@[simp] theorem State.countUe_cores (s : State) : s.countUe.cores = s.cores := rfl
@[simp] theorem State.countUe_mem (s : State) : s.countUe.mem = s.mem := rfl
@[simp] theorem State.countUe_sys (s : State) : s.countUe.sys = s.sys := rfl
@[simp] theorem State.countUe_launcher (s : State) : s.countUe.launcher = s.launcher := rfl
@[simp] theorem State.countUe_bars (s : State) : s.countUe.bars = s.bars := rfl
@[simp] theorem State.countUe_table (s : State) : s.countUe.table = s.table := rfl
@[simp] theorem State.countUe_inc (s : State) : s.countUe.inc = s.inc := rfl
@[simp] theorem State.countUe_net (s : State) : s.countUe.net = s.net := rfl
@[simp] theorem State.countUe_hem (s : State) : s.countUe.hem = s.hem := rfl
@[simp] theorem State.countUe_seam (s : State) : s.countUe.seam = s.seam := rfl
@[simp] theorem State.countUe_links (s : State) : s.countUe.links = s.links := rfl
@[simp] theorem State.countUe_clusters (s : State) : s.countUe.clusters = s.clusters := rfl
@[simp] theorem State.countUe_walks (s : State) : s.countUe.walks = s.walks := rfl
@[simp] theorem State.countUe_msc (s : State) : s.countUe.msc = s.msc := rfl
@[simp] theorem State.countUe_ecc (s : State) : s.countUe.ecc = s.ecc := rfl
@[simp] theorem State.countUe_quads (s : State) : s.countUe.quads = s.quads := rfl
@[simp] theorem State.countUe_weight (s : State) : s.countUe.weight = s.weight := rfl
@[simp] theorem State.countUe_mgmt (s : State) : s.countUe.mgmt = s.mgmt := rfl

/-! ## countCe -/

@[simp] theorem State.countCe_pkg (s : State) : s.countCe.pkg = s.pkg := rfl
@[simp] theorem State.countCe_cc (s : State) : s.countCe.cc = s.cc := rfl
@[simp] theorem State.countCe_free (s : State) : s.countCe.free = s.free := rfl
@[simp] theorem State.countCe_agenda (s : State) : s.countCe.agenda = s.agenda := rfl
@[simp] theorem State.countCe_thr (s : State) : s.countCe.thr = s.thr := rfl
@[simp] theorem State.countCe_core (s : State) : s.countCe.core = s.core := rfl
@[simp] theorem State.countCe_threads (s : State) : s.countCe.threads = s.threads := rfl
@[simp] theorem State.countCe_cores (s : State) : s.countCe.cores = s.cores := rfl
@[simp] theorem State.countCe_mem (s : State) : s.countCe.mem = s.mem := rfl
@[simp] theorem State.countCe_sys (s : State) : s.countCe.sys = s.sys := rfl
@[simp] theorem State.countCe_launcher (s : State) : s.countCe.launcher = s.launcher := rfl
@[simp] theorem State.countCe_bars (s : State) : s.countCe.bars = s.bars := rfl
@[simp] theorem State.countCe_table (s : State) : s.countCe.table = s.table := rfl
@[simp] theorem State.countCe_inc (s : State) : s.countCe.inc = s.inc := rfl
@[simp] theorem State.countCe_net (s : State) : s.countCe.net = s.net := rfl
@[simp] theorem State.countCe_hem (s : State) : s.countCe.hem = s.hem := rfl
@[simp] theorem State.countCe_seam (s : State) : s.countCe.seam = s.seam := rfl
@[simp] theorem State.countCe_links (s : State) : s.countCe.links = s.links := rfl
@[simp] theorem State.countCe_clusters (s : State) : s.countCe.clusters = s.clusters := rfl
@[simp] theorem State.countCe_walks (s : State) : s.countCe.walks = s.walks := rfl
@[simp] theorem State.countCe_msc (s : State) : s.countCe.msc = s.msc := rfl
@[simp] theorem State.countCe_ecc (s : State) : s.countCe.ecc = s.ecc := rfl
@[simp] theorem State.countCe_quads (s : State) : s.countCe.quads = s.quads := rfl
@[simp] theorem State.countCe_weight (s : State) : s.countCe.weight = s.weight := rfl
@[simp] theorem State.countCe_mgmt (s : State) : s.countCe.mgmt = s.mgmt := rfl

/-! ## post -/

@[simp] theorem State.post_pkg (s : State) (e : Event) : (s.post e).pkg = s.pkg := rfl
@[simp] theorem State.post_cc (s : State) (e : Event) : (s.post e).cc = s.cc := rfl
@[simp] theorem State.post_free (s : State) (e : Event) : (s.post e).free = s.free := rfl
@[simp] theorem State.post_agenda (s : State) (e : Event) : (s.post e).agenda = s.agenda := rfl
@[simp] theorem State.post_core (s : State) (e : Event) : (s.post e).core = s.core := rfl
@[simp] theorem State.post_cores (s : State) (e : Event) : (s.post e).cores = s.cores := rfl
@[simp] theorem State.post_mem (s : State) (e : Event) : (s.post e).mem = s.mem := rfl
@[simp] theorem State.post_sys (s : State) (e : Event) : (s.post e).sys = s.sys := rfl
@[simp] theorem State.post_caps (s : State) (e : Event) : (s.post e).caps = s.caps := rfl
@[simp] theorem State.post_health (s : State) (e : Event) : (s.post e).health = s.health := rfl
@[simp] theorem State.post_launcher (s : State) (e : Event) : (s.post e).launcher = s.launcher := rfl
@[simp] theorem State.post_bars (s : State) (e : Event) : (s.post e).bars = s.bars := rfl
@[simp] theorem State.post_table (s : State) (e : Event) : (s.post e).table = s.table := rfl
@[simp] theorem State.post_inc (s : State) (e : Event) : (s.post e).inc = s.inc := rfl
@[simp] theorem State.post_net (s : State) (e : Event) : (s.post e).net = s.net := rfl
@[simp] theorem State.post_hem (s : State) (e : Event) : (s.post e).hem = s.hem := rfl
@[simp] theorem State.post_seam (s : State) (e : Event) : (s.post e).seam = s.seam := rfl
@[simp] theorem State.post_clusters (s : State) (e : Event) : (s.post e).clusters = s.clusters := rfl
@[simp] theorem State.post_walks (s : State) (e : Event) : (s.post e).walks = s.walks := rfl
@[simp] theorem State.post_msc (s : State) (e : Event) : (s.post e).msc = s.msc := rfl
@[simp] theorem State.post_ecc (s : State) (e : Event) : (s.post e).ecc = s.ecc := rfl
@[simp] theorem State.post_quads (s : State) (e : Event) : (s.post e).quads = s.quads := rfl
@[simp] theorem State.post_weight (s : State) (e : Event) : (s.post e).weight = s.weight := rfl

/-! ## parkFor -/

@[simp] theorem State.parkFor_pkg (s : State) (n : Nat) (a : Word) (k : Nat) (d : Option Nat) : (s.parkFor n a k d).pkg = s.pkg := rfl
@[simp] theorem State.parkFor_cc (s : State) (n : Nat) (a : Word) (k : Nat) (d : Option Nat) : (s.parkFor n a k d).cc = s.cc := rfl
@[simp] theorem State.parkFor_free (s : State) (n : Nat) (a : Word) (k : Nat) (d : Option Nat) : (s.parkFor n a k d).free = s.free := rfl
@[simp] theorem State.parkFor_agenda (s : State) (n : Nat) (a : Word) (k : Nat) (d : Option Nat) : (s.parkFor n a k d).agenda = s.agenda := rfl
@[simp] theorem State.parkFor_core (s : State) (n : Nat) (a : Word) (k : Nat) (d : Option Nat) : (s.parkFor n a k d).core = s.core := rfl
@[simp] theorem State.parkFor_threads (s : State) (n : Nat) (a : Word) (k : Nat) (d : Option Nat) : (s.parkFor n a k d).threads = s.threads := rfl
@[simp] theorem State.parkFor_cores (s : State) (n : Nat) (a : Word) (k : Nat) (d : Option Nat) : (s.parkFor n a k d).cores = s.cores := rfl
@[simp] theorem State.parkFor_mem (s : State) (n : Nat) (a : Word) (k : Nat) (d : Option Nat) : (s.parkFor n a k d).mem = s.mem := rfl
@[simp] theorem State.parkFor_sys (s : State) (n : Nat) (a : Word) (k : Nat) (d : Option Nat) : (s.parkFor n a k d).sys = s.sys := rfl
@[simp] theorem State.parkFor_caps (s : State) (n : Nat) (a : Word) (k : Nat) (d : Option Nat) : (s.parkFor n a k d).caps = s.caps := rfl
@[simp] theorem State.parkFor_health (s : State) (n : Nat) (a : Word) (k : Nat) (d : Option Nat) : (s.parkFor n a k d).health = s.health := rfl
@[simp] theorem State.parkFor_launcher (s : State) (n : Nat) (a : Word) (k : Nat) (d : Option Nat) : (s.parkFor n a k d).launcher = s.launcher := rfl
@[simp] theorem State.parkFor_bars (s : State) (n : Nat) (a : Word) (k : Nat) (d : Option Nat) : (s.parkFor n a k d).bars = s.bars := rfl
@[simp] theorem State.parkFor_table (s : State) (n : Nat) (a : Word) (k : Nat) (d : Option Nat) : (s.parkFor n a k d).table = s.table := rfl
@[simp] theorem State.parkFor_inc (s : State) (n : Nat) (a : Word) (k : Nat) (d : Option Nat) : (s.parkFor n a k d).inc = s.inc := rfl
@[simp] theorem State.parkFor_net (s : State) (n : Nat) (a : Word) (k : Nat) (d : Option Nat) : (s.parkFor n a k d).net = s.net := rfl
@[simp] theorem State.parkFor_hem (s : State) (n : Nat) (a : Word) (k : Nat) (d : Option Nat) : (s.parkFor n a k d).hem = s.hem := rfl
@[simp] theorem State.parkFor_seam (s : State) (n : Nat) (a : Word) (k : Nat) (d : Option Nat) : (s.parkFor n a k d).seam = s.seam := rfl
@[simp] theorem State.parkFor_links (s : State) (n : Nat) (a : Word) (k : Nat) (d : Option Nat) : (s.parkFor n a k d).links = s.links := rfl
@[simp] theorem State.parkFor_clusters (s : State) (n : Nat) (a : Word) (k : Nat) (d : Option Nat) : (s.parkFor n a k d).clusters = s.clusters := rfl
@[simp] theorem State.parkFor_walks (s : State) (n : Nat) (a : Word) (k : Nat) (d : Option Nat) : (s.parkFor n a k d).walks = s.walks := rfl
@[simp] theorem State.parkFor_msc (s : State) (n : Nat) (a : Word) (k : Nat) (d : Option Nat) : (s.parkFor n a k d).msc = s.msc := rfl
@[simp] theorem State.parkFor_ecc (s : State) (n : Nat) (a : Word) (k : Nat) (d : Option Nat) : (s.parkFor n a k d).ecc = s.ecc := rfl
@[simp] theorem State.parkFor_quads (s : State) (n : Nat) (a : Word) (k : Nat) (d : Option Nat) : (s.parkFor n a k d).quads = s.quads := rfl
@[simp] theorem State.parkFor_weight (s : State) (n : Nat) (a : Word) (k : Nat) (d : Option Nat) : (s.parkFor n a k d).weight = s.weight := rfl
@[simp] theorem State.parkFor_mgmt (s : State) (n : Nat) (a : Word) (k : Nat) (d : Option Nat) : (s.parkFor n a k d).mgmt = s.mgmt := rfl

/-! ## parkOn -/

@[simp] theorem State.parkOn_pkg (s : State) (n : Nat) (a : Word) (k : Nat) : (s.parkOn n a k).pkg = s.pkg := by simp only [State.parkOn]; split <;> rfl
@[simp] theorem State.parkOn_cc (s : State) (n : Nat) (a : Word) (k : Nat) : (s.parkOn n a k).cc = s.cc := by simp only [State.parkOn]; split <;> rfl
@[simp] theorem State.parkOn_free (s : State) (n : Nat) (a : Word) (k : Nat) : (s.parkOn n a k).free = s.free := by simp only [State.parkOn]; split <;> rfl
@[simp] theorem State.parkOn_agenda (s : State) (n : Nat) (a : Word) (k : Nat) : (s.parkOn n a k).agenda = s.agenda := by simp only [State.parkOn]; split <;> rfl
@[simp] theorem State.parkOn_core (s : State) (n : Nat) (a : Word) (k : Nat) : (s.parkOn n a k).core = s.core := by simp only [State.parkOn]; split <;> rfl
@[simp] theorem State.parkOn_threads (s : State) (n : Nat) (a : Word) (k : Nat) : (s.parkOn n a k).threads = s.threads := by simp only [State.parkOn]; split <;> rfl
@[simp] theorem State.parkOn_cores (s : State) (n : Nat) (a : Word) (k : Nat) : (s.parkOn n a k).cores = s.cores := by simp only [State.parkOn]; split <;> rfl
@[simp] theorem State.parkOn_mem (s : State) (n : Nat) (a : Word) (k : Nat) : (s.parkOn n a k).mem = s.mem := by simp only [State.parkOn]; split <;> rfl
@[simp] theorem State.parkOn_sys (s : State) (n : Nat) (a : Word) (k : Nat) : (s.parkOn n a k).sys = s.sys := by simp only [State.parkOn]; split <;> rfl
@[simp] theorem State.parkOn_caps (s : State) (n : Nat) (a : Word) (k : Nat) : (s.parkOn n a k).caps = s.caps := by simp only [State.parkOn]; split <;> rfl
@[simp] theorem State.parkOn_health (s : State) (n : Nat) (a : Word) (k : Nat) : (s.parkOn n a k).health = s.health := by simp only [State.parkOn]; split <;> rfl
@[simp] theorem State.parkOn_launcher (s : State) (n : Nat) (a : Word) (k : Nat) : (s.parkOn n a k).launcher = s.launcher := by simp only [State.parkOn]; split <;> rfl
@[simp] theorem State.parkOn_bars (s : State) (n : Nat) (a : Word) (k : Nat) : (s.parkOn n a k).bars = s.bars := by simp only [State.parkOn]; split <;> rfl
@[simp] theorem State.parkOn_table (s : State) (n : Nat) (a : Word) (k : Nat) : (s.parkOn n a k).table = s.table := by simp only [State.parkOn]; split <;> rfl
@[simp] theorem State.parkOn_inc (s : State) (n : Nat) (a : Word) (k : Nat) : (s.parkOn n a k).inc = s.inc := by simp only [State.parkOn]; split <;> rfl
@[simp] theorem State.parkOn_net (s : State) (n : Nat) (a : Word) (k : Nat) : (s.parkOn n a k).net = s.net := by simp only [State.parkOn]; split <;> rfl
@[simp] theorem State.parkOn_hem (s : State) (n : Nat) (a : Word) (k : Nat) : (s.parkOn n a k).hem = s.hem := by simp only [State.parkOn]; split <;> rfl
@[simp] theorem State.parkOn_seam (s : State) (n : Nat) (a : Word) (k : Nat) : (s.parkOn n a k).seam = s.seam := by simp only [State.parkOn]; split <;> rfl
@[simp] theorem State.parkOn_links (s : State) (n : Nat) (a : Word) (k : Nat) : (s.parkOn n a k).links = s.links := by simp only [State.parkOn]; split <;> rfl
@[simp] theorem State.parkOn_clusters (s : State) (n : Nat) (a : Word) (k : Nat) : (s.parkOn n a k).clusters = s.clusters := by simp only [State.parkOn]; split <;> rfl
@[simp] theorem State.parkOn_walks (s : State) (n : Nat) (a : Word) (k : Nat) : (s.parkOn n a k).walks = s.walks := by simp only [State.parkOn]; split <;> rfl
@[simp] theorem State.parkOn_msc (s : State) (n : Nat) (a : Word) (k : Nat) : (s.parkOn n a k).msc = s.msc := by simp only [State.parkOn]; split <;> rfl
@[simp] theorem State.parkOn_ecc (s : State) (n : Nat) (a : Word) (k : Nat) : (s.parkOn n a k).ecc = s.ecc := by simp only [State.parkOn]; split <;> rfl
@[simp] theorem State.parkOn_quads (s : State) (n : Nat) (a : Word) (k : Nat) : (s.parkOn n a k).quads = s.quads := by simp only [State.parkOn]; split <;> rfl
@[simp] theorem State.parkOn_weight (s : State) (n : Nat) (a : Word) (k : Nat) : (s.parkOn n a k).weight = s.weight := by simp only [State.parkOn]; split <;> rfl
@[simp] theorem State.parkOn_mgmt (s : State) (n : Nat) (a : Word) (k : Nat) : (s.parkOn n a k).mgmt = s.mgmt := by simp only [State.parkOn]; split <;> rfl

/-! ## phase -/

@[simp] theorem State.phase_pkg (s : State) (n : Nat) : (s.phase n).pkg = s.pkg := rfl
@[simp] theorem State.phase_cc (s : State) (n : Nat) : (s.phase n).cc = s.cc := rfl
@[simp] theorem State.phase_free (s : State) (n : Nat) : (s.phase n).free = s.free := rfl
@[simp] theorem State.phase_agenda (s : State) (n : Nat) : (s.phase n).agenda = s.agenda := rfl
@[simp] theorem State.phase_core (s : State) (n : Nat) : (s.phase n).core = s.core := rfl
@[simp] theorem State.phase_threads (s : State) (n : Nat) : (s.phase n).threads = s.threads := rfl
@[simp] theorem State.phase_cores (s : State) (n : Nat) : (s.phase n).cores = s.cores := rfl
@[simp] theorem State.phase_mem (s : State) (n : Nat) : (s.phase n).mem = s.mem := rfl
@[simp] theorem State.phase_sys (s : State) (n : Nat) : (s.phase n).sys = s.sys := rfl
@[simp] theorem State.phase_caps (s : State) (n : Nat) : (s.phase n).caps = s.caps := rfl
@[simp] theorem State.phase_health (s : State) (n : Nat) : (s.phase n).health = s.health := rfl
@[simp] theorem State.phase_launcher (s : State) (n : Nat) : (s.phase n).launcher = s.launcher := rfl
@[simp] theorem State.phase_bars (s : State) (n : Nat) : (s.phase n).bars = s.bars := rfl
@[simp] theorem State.phase_table (s : State) (n : Nat) : (s.phase n).table = s.table := rfl
@[simp] theorem State.phase_inc (s : State) (n : Nat) : (s.phase n).inc = s.inc := rfl
@[simp] theorem State.phase_net (s : State) (n : Nat) : (s.phase n).net = s.net := rfl
@[simp] theorem State.phase_hem (s : State) (n : Nat) : (s.phase n).hem = s.hem := rfl
@[simp] theorem State.phase_seam (s : State) (n : Nat) : (s.phase n).seam = s.seam := rfl
@[simp] theorem State.phase_links (s : State) (n : Nat) : (s.phase n).links = s.links := rfl
@[simp] theorem State.phase_clusters (s : State) (n : Nat) : (s.phase n).clusters = s.clusters := rfl
@[simp] theorem State.phase_walks (s : State) (n : Nat) : (s.phase n).walks = s.walks := rfl
@[simp] theorem State.phase_msc (s : State) (n : Nat) : (s.phase n).msc = s.msc := rfl
@[simp] theorem State.phase_ecc (s : State) (n : Nat) : (s.phase n).ecc = s.ecc := rfl
@[simp] theorem State.phase_quads (s : State) (n : Nat) : (s.phase n).quads = s.quads := rfl
@[simp] theorem State.phase_weight (s : State) (n : Nat) : (s.phase n).weight = s.weight := rfl
@[simp] theorem State.phase_mgmt (s : State) (n : Nat) : (s.phase n).mgmt = s.mgmt := rfl

/-! ## long -/

@[simp] theorem State.long_pkg (s : State) (d : Dst) (p : Pending) : (s.long d p).pkg = s.pkg := rfl
@[simp] theorem State.long_cc (s : State) (d : Dst) (p : Pending) : (s.long d p).cc = s.cc := rfl
@[simp] theorem State.long_free (s : State) (d : Dst) (p : Pending) : (s.long d p).free = s.free := rfl
@[simp] theorem State.long_agenda (s : State) (d : Dst) (p : Pending) : (s.long d p).agenda = s.agenda := rfl
@[simp] theorem State.long_core (s : State) (d : Dst) (p : Pending) : (s.long d p).core = s.core := rfl
@[simp] theorem State.long_threads (s : State) (d : Dst) (p : Pending) : (s.long d p).threads = s.threads := rfl
@[simp] theorem State.long_cores (s : State) (d : Dst) (p : Pending) : (s.long d p).cores = s.cores := rfl
@[simp] theorem State.long_mem (s : State) (d : Dst) (p : Pending) : (s.long d p).mem = s.mem := rfl
@[simp] theorem State.long_sys (s : State) (d : Dst) (p : Pending) : (s.long d p).sys = s.sys := rfl
@[simp] theorem State.long_caps (s : State) (d : Dst) (p : Pending) : (s.long d p).caps = s.caps := rfl
@[simp] theorem State.long_health (s : State) (d : Dst) (p : Pending) : (s.long d p).health = s.health := rfl
@[simp] theorem State.long_launcher (s : State) (d : Dst) (p : Pending) : (s.long d p).launcher = s.launcher := rfl
@[simp] theorem State.long_bars (s : State) (d : Dst) (p : Pending) : (s.long d p).bars = s.bars := rfl
@[simp] theorem State.long_table (s : State) (d : Dst) (p : Pending) : (s.long d p).table = s.table := rfl
@[simp] theorem State.long_inc (s : State) (d : Dst) (p : Pending) : (s.long d p).inc = s.inc := rfl
@[simp] theorem State.long_net (s : State) (d : Dst) (p : Pending) : (s.long d p).net = s.net := rfl
@[simp] theorem State.long_hem (s : State) (d : Dst) (p : Pending) : (s.long d p).hem = s.hem := rfl
@[simp] theorem State.long_seam (s : State) (d : Dst) (p : Pending) : (s.long d p).seam = s.seam := rfl
@[simp] theorem State.long_links (s : State) (d : Dst) (p : Pending) : (s.long d p).links = s.links := rfl
@[simp] theorem State.long_clusters (s : State) (d : Dst) (p : Pending) : (s.long d p).clusters = s.clusters := rfl
@[simp] theorem State.long_walks (s : State) (d : Dst) (p : Pending) : (s.long d p).walks = s.walks := rfl
@[simp] theorem State.long_msc (s : State) (d : Dst) (p : Pending) : (s.long d p).msc = s.msc := rfl
@[simp] theorem State.long_ecc (s : State) (d : Dst) (p : Pending) : (s.long d p).ecc = s.ecc := rfl
@[simp] theorem State.long_quads (s : State) (d : Dst) (p : Pending) : (s.long d p).quads = s.quads := rfl
@[simp] theorem State.long_weight (s : State) (d : Dst) (p : Pending) : (s.long d p).weight = s.weight := rfl
@[simp] theorem State.long_mgmt (s : State) (d : Dst) (p : Pending) : (s.long d p).mgmt = s.mgmt := rfl

/-! ## endRun -/

@[simp] theorem State.endRun_pkg (s : State) : s.endRun.pkg = s.pkg := by simp only [State.endRun]; split <;> rfl
@[simp] theorem State.endRun_cc (s : State) : s.endRun.cc = s.cc := by simp only [State.endRun]; split <;> rfl
@[simp] theorem State.endRun_free (s : State) : s.endRun.free = s.free := by simp only [State.endRun]; split <;> rfl
@[simp] theorem State.endRun_agenda (s : State) : s.endRun.agenda = s.agenda := by simp only [State.endRun]; split <;> rfl
@[simp] theorem State.endRun_core (s : State) : s.endRun.core = s.core := by simp only [State.endRun]; split <;> rfl
@[simp] theorem State.endRun_threads (s : State) : s.endRun.threads = s.threads := by simp only [State.endRun]; split <;> rfl
@[simp] theorem State.endRun_cores (s : State) : s.endRun.cores = s.cores := by simp only [State.endRun]; split <;> rfl
@[simp] theorem State.endRun_mem (s : State) : s.endRun.mem = s.mem := by simp only [State.endRun]; split <;> rfl
@[simp] theorem State.endRun_sys (s : State) : s.endRun.sys = s.sys := by simp only [State.endRun]; split <;> rfl
@[simp] theorem State.endRun_caps (s : State) : s.endRun.caps = s.caps := by simp only [State.endRun]; split <;> rfl
@[simp] theorem State.endRun_health (s : State) : s.endRun.health = s.health := by simp only [State.endRun]; split <;> rfl
@[simp] theorem State.endRun_launcher (s : State) : s.endRun.launcher = s.launcher := by simp only [State.endRun]; split <;> rfl
@[simp] theorem State.endRun_bars (s : State) : s.endRun.bars = s.bars := by simp only [State.endRun]; split <;> rfl
@[simp] theorem State.endRun_table (s : State) : s.endRun.table = s.table := by simp only [State.endRun]; split <;> rfl
@[simp] theorem State.endRun_inc (s : State) : s.endRun.inc = s.inc := by simp only [State.endRun]; split <;> rfl
@[simp] theorem State.endRun_net (s : State) : s.endRun.net = s.net := by simp only [State.endRun]; split <;> rfl
@[simp] theorem State.endRun_hem (s : State) : s.endRun.hem = s.hem := by simp only [State.endRun]; split <;> rfl
@[simp] theorem State.endRun_seam (s : State) : s.endRun.seam = s.seam := by simp only [State.endRun]; split <;> rfl
@[simp] theorem State.endRun_links (s : State) : s.endRun.links = s.links := by simp only [State.endRun]; split <;> rfl
@[simp] theorem State.endRun_clusters (s : State) : s.endRun.clusters = s.clusters := by simp only [State.endRun]; split <;> rfl
@[simp] theorem State.endRun_walks (s : State) : s.endRun.walks = s.walks := by simp only [State.endRun]; split <;> rfl
@[simp] theorem State.endRun_msc (s : State) : s.endRun.msc = s.msc := by simp only [State.endRun]; split <;> rfl
@[simp] theorem State.endRun_ecc (s : State) : s.endRun.ecc = s.ecc := by simp only [State.endRun]; split <;> rfl
@[simp] theorem State.endRun_quads (s : State) : s.endRun.quads = s.quads := by simp only [State.endRun]; split <;> rfl
@[simp] theorem State.endRun_weight (s : State) : s.endRun.weight = s.weight := by simp only [State.endRun]; split <;> rfl
@[simp] theorem State.endRun_mgmt (s : State) : s.endRun.mgmt = s.mgmt := by simp only [State.endRun]; split <;> rfl

/-! ## jump -/

@[simp] theorem State.jump_pkg (s : State) (sw : Bool) (pc : Word) : (s.jump sw pc).pkg = s.pkg := by simp only [State.jump]; split <;> simp
@[simp] theorem State.jump_cc (s : State) (sw : Bool) (pc : Word) : (s.jump sw pc).cc = s.cc := by simp only [State.jump]; split <;> simp
@[simp] theorem State.jump_free (s : State) (sw : Bool) (pc : Word) : (s.jump sw pc).free = s.free := by simp only [State.jump]; split <;> simp
@[simp] theorem State.jump_agenda (s : State) (sw : Bool) (pc : Word) : (s.jump sw pc).agenda = s.agenda := by simp only [State.jump]; split <;> simp
@[simp] theorem State.jump_core (s : State) (sw : Bool) (pc : Word) : (s.jump sw pc).core = s.core := by simp only [State.jump]; split <;> simp
@[simp] theorem State.jump_threads (s : State) (sw : Bool) (pc : Word) : (s.jump sw pc).threads = s.threads := by simp only [State.jump]; split <;> simp
@[simp] theorem State.jump_cores (s : State) (sw : Bool) (pc : Word) : (s.jump sw pc).cores = s.cores := by simp only [State.jump]; split <;> simp
@[simp] theorem State.jump_mem (s : State) (sw : Bool) (pc : Word) : (s.jump sw pc).mem = s.mem := by simp only [State.jump]; split <;> simp
@[simp] theorem State.jump_sys (s : State) (sw : Bool) (pc : Word) : (s.jump sw pc).sys = s.sys := by simp only [State.jump]; split <;> simp
@[simp] theorem State.jump_caps (s : State) (sw : Bool) (pc : Word) : (s.jump sw pc).caps = s.caps := by simp only [State.jump]; split <;> simp
@[simp] theorem State.jump_health (s : State) (sw : Bool) (pc : Word) : (s.jump sw pc).health = s.health := by simp only [State.jump]; split <;> simp
@[simp] theorem State.jump_launcher (s : State) (sw : Bool) (pc : Word) : (s.jump sw pc).launcher = s.launcher := by simp only [State.jump]; split <;> simp
@[simp] theorem State.jump_bars (s : State) (sw : Bool) (pc : Word) : (s.jump sw pc).bars = s.bars := by simp only [State.jump]; split <;> simp
@[simp] theorem State.jump_table (s : State) (sw : Bool) (pc : Word) : (s.jump sw pc).table = s.table := by simp only [State.jump]; split <;> simp
@[simp] theorem State.jump_inc (s : State) (sw : Bool) (pc : Word) : (s.jump sw pc).inc = s.inc := by simp only [State.jump]; split <;> simp
@[simp] theorem State.jump_net (s : State) (sw : Bool) (pc : Word) : (s.jump sw pc).net = s.net := by simp only [State.jump]; split <;> simp
@[simp] theorem State.jump_hem (s : State) (sw : Bool) (pc : Word) : (s.jump sw pc).hem = s.hem := by simp only [State.jump]; split <;> simp
@[simp] theorem State.jump_seam (s : State) (sw : Bool) (pc : Word) : (s.jump sw pc).seam = s.seam := by simp only [State.jump]; split <;> simp
@[simp] theorem State.jump_links (s : State) (sw : Bool) (pc : Word) : (s.jump sw pc).links = s.links := by simp only [State.jump]; split <;> simp
@[simp] theorem State.jump_clusters (s : State) (sw : Bool) (pc : Word) : (s.jump sw pc).clusters = s.clusters := by simp only [State.jump]; split <;> simp
@[simp] theorem State.jump_walks (s : State) (sw : Bool) (pc : Word) : (s.jump sw pc).walks = s.walks := by simp only [State.jump]; split <;> simp
@[simp] theorem State.jump_msc (s : State) (sw : Bool) (pc : Word) : (s.jump sw pc).msc = s.msc := by simp only [State.jump]; split <;> simp
@[simp] theorem State.jump_ecc (s : State) (sw : Bool) (pc : Word) : (s.jump sw pc).ecc = s.ecc := by simp only [State.jump]; split <;> simp
@[simp] theorem State.jump_quads (s : State) (sw : Bool) (pc : Word) : (s.jump sw pc).quads = s.quads := by simp only [State.jump]; split <;> simp
@[simp] theorem State.jump_weight (s : State) (sw : Bool) (pc : Word) : (s.jump sw pc).weight = s.weight := by simp only [State.jump]; split <;> simp
@[simp] theorem State.jump_mgmt (s : State) (sw : Bool) (pc : Word) : (s.jump sw pc).mgmt = s.mgmt := by simp only [State.jump]; split <;> simp

/-! ## retire -/

@[simp] theorem State.retire_pkg (s : State) (sw : Bool) : (s.retire sw).pkg = s.pkg := by simp [State.retire]
@[simp] theorem State.retire_cc (s : State) (sw : Bool) : (s.retire sw).cc = s.cc := by simp [State.retire]
@[simp] theorem State.retire_free (s : State) (sw : Bool) : (s.retire sw).free = s.free := by simp [State.retire]
@[simp] theorem State.retire_agenda (s : State) (sw : Bool) : (s.retire sw).agenda = s.agenda := by simp [State.retire]
@[simp] theorem State.retire_core (s : State) (sw : Bool) : (s.retire sw).core = s.core := by simp [State.retire]
@[simp] theorem State.retire_threads (s : State) (sw : Bool) : (s.retire sw).threads = s.threads := by simp [State.retire]
@[simp] theorem State.retire_cores (s : State) (sw : Bool) : (s.retire sw).cores = s.cores := by simp [State.retire]
@[simp] theorem State.retire_mem (s : State) (sw : Bool) : (s.retire sw).mem = s.mem := by simp [State.retire]
@[simp] theorem State.retire_sys (s : State) (sw : Bool) : (s.retire sw).sys = s.sys := by simp [State.retire]
@[simp] theorem State.retire_caps (s : State) (sw : Bool) : (s.retire sw).caps = s.caps := by simp [State.retire]
@[simp] theorem State.retire_health (s : State) (sw : Bool) : (s.retire sw).health = s.health := by simp [State.retire]
@[simp] theorem State.retire_launcher (s : State) (sw : Bool) : (s.retire sw).launcher = s.launcher := by simp [State.retire]
@[simp] theorem State.retire_bars (s : State) (sw : Bool) : (s.retire sw).bars = s.bars := by simp [State.retire]
@[simp] theorem State.retire_table (s : State) (sw : Bool) : (s.retire sw).table = s.table := by simp [State.retire]
@[simp] theorem State.retire_inc (s : State) (sw : Bool) : (s.retire sw).inc = s.inc := by simp [State.retire]
@[simp] theorem State.retire_net (s : State) (sw : Bool) : (s.retire sw).net = s.net := by simp [State.retire]
@[simp] theorem State.retire_hem (s : State) (sw : Bool) : (s.retire sw).hem = s.hem := by simp [State.retire]
@[simp] theorem State.retire_seam (s : State) (sw : Bool) : (s.retire sw).seam = s.seam := by simp [State.retire]
@[simp] theorem State.retire_links (s : State) (sw : Bool) : (s.retire sw).links = s.links := by simp [State.retire]
@[simp] theorem State.retire_clusters (s : State) (sw : Bool) : (s.retire sw).clusters = s.clusters := by simp [State.retire]
@[simp] theorem State.retire_walks (s : State) (sw : Bool) : (s.retire sw).walks = s.walks := by simp [State.retire]
@[simp] theorem State.retire_msc (s : State) (sw : Bool) : (s.retire sw).msc = s.msc := by simp [State.retire]
@[simp] theorem State.retire_ecc (s : State) (sw : Bool) : (s.retire sw).ecc = s.ecc := by simp [State.retire]
@[simp] theorem State.retire_quads (s : State) (sw : Bool) : (s.retire sw).quads = s.quads := by simp [State.retire]
@[simp] theorem State.retire_weight (s : State) (sw : Bool) : (s.retire sw).weight = s.weight := by simp [State.retire]
@[simp] theorem State.retire_mgmt (s : State) (sw : Bool) : (s.retire sw).mgmt = s.mgmt := by simp [State.retire]

/-! ## finishLong -/

@[simp] theorem State.finishLong_pkg (s : State) (sw : Bool) (d : Dst) (p : Pending) : (s.finishLong sw d p).pkg = s.pkg := by simp [State.finishLong]
@[simp] theorem State.finishLong_cc (s : State) (sw : Bool) (d : Dst) (p : Pending) : (s.finishLong sw d p).cc = s.cc := by simp [State.finishLong]
@[simp] theorem State.finishLong_free (s : State) (sw : Bool) (d : Dst) (p : Pending) : (s.finishLong sw d p).free = s.free := by simp [State.finishLong]
@[simp] theorem State.finishLong_agenda (s : State) (sw : Bool) (d : Dst) (p : Pending) : (s.finishLong sw d p).agenda = s.agenda := by simp [State.finishLong]
@[simp] theorem State.finishLong_core (s : State) (sw : Bool) (d : Dst) (p : Pending) : (s.finishLong sw d p).core = s.core := by simp [State.finishLong]
@[simp] theorem State.finishLong_threads (s : State) (sw : Bool) (d : Dst) (p : Pending) : (s.finishLong sw d p).threads = s.threads := by simp [State.finishLong]
@[simp] theorem State.finishLong_cores (s : State) (sw : Bool) (d : Dst) (p : Pending) : (s.finishLong sw d p).cores = s.cores := by simp [State.finishLong]
@[simp] theorem State.finishLong_mem (s : State) (sw : Bool) (d : Dst) (p : Pending) : (s.finishLong sw d p).mem = s.mem := by simp [State.finishLong]
@[simp] theorem State.finishLong_sys (s : State) (sw : Bool) (d : Dst) (p : Pending) : (s.finishLong sw d p).sys = s.sys := by simp [State.finishLong]
@[simp] theorem State.finishLong_caps (s : State) (sw : Bool) (d : Dst) (p : Pending) : (s.finishLong sw d p).caps = s.caps := by simp [State.finishLong]
@[simp] theorem State.finishLong_health (s : State) (sw : Bool) (d : Dst) (p : Pending) : (s.finishLong sw d p).health = s.health := by simp [State.finishLong]
@[simp] theorem State.finishLong_launcher (s : State) (sw : Bool) (d : Dst) (p : Pending) : (s.finishLong sw d p).launcher = s.launcher := by simp [State.finishLong]
@[simp] theorem State.finishLong_bars (s : State) (sw : Bool) (d : Dst) (p : Pending) : (s.finishLong sw d p).bars = s.bars := by simp [State.finishLong]
@[simp] theorem State.finishLong_table (s : State) (sw : Bool) (d : Dst) (p : Pending) : (s.finishLong sw d p).table = s.table := by simp [State.finishLong]
@[simp] theorem State.finishLong_inc (s : State) (sw : Bool) (d : Dst) (p : Pending) : (s.finishLong sw d p).inc = s.inc := by simp [State.finishLong]
@[simp] theorem State.finishLong_net (s : State) (sw : Bool) (d : Dst) (p : Pending) : (s.finishLong sw d p).net = s.net := by simp [State.finishLong]
@[simp] theorem State.finishLong_hem (s : State) (sw : Bool) (d : Dst) (p : Pending) : (s.finishLong sw d p).hem = s.hem := by simp [State.finishLong]
@[simp] theorem State.finishLong_seam (s : State) (sw : Bool) (d : Dst) (p : Pending) : (s.finishLong sw d p).seam = s.seam := by simp [State.finishLong]
@[simp] theorem State.finishLong_links (s : State) (sw : Bool) (d : Dst) (p : Pending) : (s.finishLong sw d p).links = s.links := by simp [State.finishLong]
@[simp] theorem State.finishLong_clusters (s : State) (sw : Bool) (d : Dst) (p : Pending) : (s.finishLong sw d p).clusters = s.clusters := by simp [State.finishLong]
@[simp] theorem State.finishLong_walks (s : State) (sw : Bool) (d : Dst) (p : Pending) : (s.finishLong sw d p).walks = s.walks := by simp [State.finishLong]
@[simp] theorem State.finishLong_msc (s : State) (sw : Bool) (d : Dst) (p : Pending) : (s.finishLong sw d p).msc = s.msc := by simp [State.finishLong]
@[simp] theorem State.finishLong_ecc (s : State) (sw : Bool) (d : Dst) (p : Pending) : (s.finishLong sw d p).ecc = s.ecc := by simp [State.finishLong]
@[simp] theorem State.finishLong_quads (s : State) (sw : Bool) (d : Dst) (p : Pending) : (s.finishLong sw d p).quads = s.quads := by simp [State.finishLong]
@[simp] theorem State.finishLong_weight (s : State) (sw : Bool) (d : Dst) (p : Pending) : (s.finishLong sw d p).weight = s.weight := by simp [State.finishLong]
@[simp] theorem State.finishLong_mgmt (s : State) (sw : Bool) (d : Dst) (p : Pending) : (s.finishLong sw d p).mgmt = s.mgmt := by simp [State.finishLong]

/-! ## push -/

@[simp] theorem State.push_pkg (s : State) (v : Word) : (s.push v).pkg = s.pkg := by simp only [State.push]; split <;> rfl
@[simp] theorem State.push_cc (s : State) (v : Word) : (s.push v).cc = s.cc := by simp only [State.push]; split <;> rfl
@[simp] theorem State.push_free (s : State) (v : Word) : (s.push v).free = s.free := by simp only [State.push]; split <;> rfl
@[simp] theorem State.push_agenda (s : State) (v : Word) : (s.push v).agenda = s.agenda := by simp only [State.push]; split <;> rfl
@[simp] theorem State.push_thr (s : State) (v : Word) : (s.push v).thr = s.thr := by simp only [State.push]; split <;> rfl
@[simp] theorem State.push_core (s : State) (v : Word) : (s.push v).core = s.core := by simp only [State.push]; split <;> rfl
@[simp] theorem State.push_threads (s : State) (v : Word) : (s.push v).threads = s.threads := by simp only [State.push]; split <;> rfl
@[simp] theorem State.push_cores (s : State) (v : Word) : (s.push v).cores = s.cores := by simp only [State.push]; split <;> rfl
@[simp] theorem State.push_mem (s : State) (v : Word) : (s.push v).mem = s.mem := by simp only [State.push]; split <;> rfl
@[simp] theorem State.push_sys (s : State) (v : Word) : (s.push v).sys = s.sys := by simp only [State.push]; split <;> rfl
@[simp] theorem State.push_caps (s : State) (v : Word) : (s.push v).caps = s.caps := by simp only [State.push]; split <;> rfl
@[simp] theorem State.push_health (s : State) (v : Word) : (s.push v).health = s.health := by simp only [State.push]; split <;> rfl
@[simp] theorem State.push_bars (s : State) (v : Word) : (s.push v).bars = s.bars := by simp only [State.push]; split <;> rfl
@[simp] theorem State.push_table (s : State) (v : Word) : (s.push v).table = s.table := by simp only [State.push]; split <;> rfl
@[simp] theorem State.push_inc (s : State) (v : Word) : (s.push v).inc = s.inc := by simp only [State.push]; split <;> rfl
@[simp] theorem State.push_hem (s : State) (v : Word) : (s.push v).hem = s.hem := by simp only [State.push]; split <;> rfl
@[simp] theorem State.push_seam (s : State) (v : Word) : (s.push v).seam = s.seam := by simp only [State.push]; split <;> rfl
@[simp] theorem State.push_links (s : State) (v : Word) : (s.push v).links = s.links := by simp only [State.push]; split <;> rfl
@[simp] theorem State.push_clusters (s : State) (v : Word) : (s.push v).clusters = s.clusters := by simp only [State.push]; split <;> rfl
@[simp] theorem State.push_walks (s : State) (v : Word) : (s.push v).walks = s.walks := by simp only [State.push]; split <;> rfl
@[simp] theorem State.push_msc (s : State) (v : Word) : (s.push v).msc = s.msc := by simp only [State.push]; split <;> rfl
@[simp] theorem State.push_ecc (s : State) (v : Word) : (s.push v).ecc = s.ecc := by simp only [State.push]; split <;> rfl
@[simp] theorem State.push_quads (s : State) (v : Word) : (s.push v).quads = s.quads := by simp only [State.push]; split <;> rfl
@[simp] theorem State.push_weight (s : State) (v : Word) : (s.push v).weight = s.weight := by simp only [State.push]; split <;> rfl
@[simp] theorem State.push_mgmt (s : State) (v : Word) : (s.push v).mgmt = s.mgmt := by simp only [State.push]; split <;> rfl

/-! ## setG -/

@[simp] theorem State.setG_pkg (s : State) (d : Dst) (v : Word) : (s.setG d v).pkg = s.pkg := by cases d <;> simp [State.setG]
@[simp] theorem State.setG_cc (s : State) (d : Dst) (v : Word) : (s.setG d v).cc = s.cc := by cases d <;> simp [State.setG]
@[simp] theorem State.setG_free (s : State) (d : Dst) (v : Word) : (s.setG d v).free = s.free := by cases d <;> simp [State.setG]
@[simp] theorem State.setG_agenda (s : State) (d : Dst) (v : Word) : (s.setG d v).agenda = s.agenda := by cases d <;> simp [State.setG]
@[simp] theorem State.setG_core (s : State) (d : Dst) (v : Word) : (s.setG d v).core = s.core := by cases d <;> simp [State.setG]
@[simp] theorem State.setG_threads (s : State) (d : Dst) (v : Word) : (s.setG d v).threads = s.threads := by cases d <;> simp [State.setG]
@[simp] theorem State.setG_cores (s : State) (d : Dst) (v : Word) : (s.setG d v).cores = s.cores := by cases d <;> simp [State.setG]
@[simp] theorem State.setG_mem (s : State) (d : Dst) (v : Word) : (s.setG d v).mem = s.mem := by cases d <;> simp [State.setG]
@[simp] theorem State.setG_sys (s : State) (d : Dst) (v : Word) : (s.setG d v).sys = s.sys := by cases d <;> simp [State.setG]
@[simp] theorem State.setG_caps (s : State) (d : Dst) (v : Word) : (s.setG d v).caps = s.caps := by cases d <;> simp [State.setG]
@[simp] theorem State.setG_health (s : State) (d : Dst) (v : Word) : (s.setG d v).health = s.health := by cases d <;> simp [State.setG]
@[simp] theorem State.setG_bars (s : State) (d : Dst) (v : Word) : (s.setG d v).bars = s.bars := by cases d <;> simp [State.setG]
@[simp] theorem State.setG_table (s : State) (d : Dst) (v : Word) : (s.setG d v).table = s.table := by cases d <;> simp [State.setG]
@[simp] theorem State.setG_inc (s : State) (d : Dst) (v : Word) : (s.setG d v).inc = s.inc := by cases d <;> simp [State.setG]
@[simp] theorem State.setG_hem (s : State) (d : Dst) (v : Word) : (s.setG d v).hem = s.hem := by cases d <;> simp [State.setG]
@[simp] theorem State.setG_seam (s : State) (d : Dst) (v : Word) : (s.setG d v).seam = s.seam := by cases d <;> simp [State.setG]
@[simp] theorem State.setG_links (s : State) (d : Dst) (v : Word) : (s.setG d v).links = s.links := by cases d <;> simp [State.setG]
@[simp] theorem State.setG_clusters (s : State) (d : Dst) (v : Word) : (s.setG d v).clusters = s.clusters := by cases d <;> simp [State.setG]
@[simp] theorem State.setG_walks (s : State) (d : Dst) (v : Word) : (s.setG d v).walks = s.walks := by cases d <;> simp [State.setG]
@[simp] theorem State.setG_msc (s : State) (d : Dst) (v : Word) : (s.setG d v).msc = s.msc := by cases d <;> simp [State.setG]
@[simp] theorem State.setG_ecc (s : State) (d : Dst) (v : Word) : (s.setG d v).ecc = s.ecc := by cases d <;> simp [State.setG]
@[simp] theorem State.setG_quads (s : State) (d : Dst) (v : Word) : (s.setG d v).quads = s.quads := by cases d <;> simp [State.setG]
@[simp] theorem State.setG_weight (s : State) (d : Dst) (v : Word) : (s.setG d v).weight = s.weight := by cases d <;> simp [State.setG]
@[simp] theorem State.setG_mgmt (s : State) (d : Dst) (v : Word) : (s.setG d v).mgmt = s.mgmt := by cases d <;> simp [State.setG]

/-! ## finish -/

@[simp] theorem State.finish_pkg (s : State) (sw : Bool) (d : Dst) (v : Word) : (s.finish sw d v).pkg = s.pkg := by simp [State.finish]
@[simp] theorem State.finish_cc (s : State) (sw : Bool) (d : Dst) (v : Word) : (s.finish sw d v).cc = s.cc := by simp [State.finish]
@[simp] theorem State.finish_free (s : State) (sw : Bool) (d : Dst) (v : Word) : (s.finish sw d v).free = s.free := by simp [State.finish]
@[simp] theorem State.finish_agenda (s : State) (sw : Bool) (d : Dst) (v : Word) : (s.finish sw d v).agenda = s.agenda := by simp [State.finish]
@[simp] theorem State.finish_core (s : State) (sw : Bool) (d : Dst) (v : Word) : (s.finish sw d v).core = s.core := by simp [State.finish]
@[simp] theorem State.finish_threads (s : State) (sw : Bool) (d : Dst) (v : Word) : (s.finish sw d v).threads = s.threads := by simp [State.finish]
@[simp] theorem State.finish_cores (s : State) (sw : Bool) (d : Dst) (v : Word) : (s.finish sw d v).cores = s.cores := by simp [State.finish]
@[simp] theorem State.finish_mem (s : State) (sw : Bool) (d : Dst) (v : Word) : (s.finish sw d v).mem = s.mem := by simp [State.finish]
@[simp] theorem State.finish_sys (s : State) (sw : Bool) (d : Dst) (v : Word) : (s.finish sw d v).sys = s.sys := by simp [State.finish]
@[simp] theorem State.finish_caps (s : State) (sw : Bool) (d : Dst) (v : Word) : (s.finish sw d v).caps = s.caps := by simp [State.finish]
@[simp] theorem State.finish_health (s : State) (sw : Bool) (d : Dst) (v : Word) : (s.finish sw d v).health = s.health := by simp [State.finish]
@[simp] theorem State.finish_bars (s : State) (sw : Bool) (d : Dst) (v : Word) : (s.finish sw d v).bars = s.bars := by simp [State.finish]
@[simp] theorem State.finish_table (s : State) (sw : Bool) (d : Dst) (v : Word) : (s.finish sw d v).table = s.table := by simp [State.finish]
@[simp] theorem State.finish_inc (s : State) (sw : Bool) (d : Dst) (v : Word) : (s.finish sw d v).inc = s.inc := by simp [State.finish]
@[simp] theorem State.finish_hem (s : State) (sw : Bool) (d : Dst) (v : Word) : (s.finish sw d v).hem = s.hem := by simp [State.finish]
@[simp] theorem State.finish_seam (s : State) (sw : Bool) (d : Dst) (v : Word) : (s.finish sw d v).seam = s.seam := by simp [State.finish]
@[simp] theorem State.finish_links (s : State) (sw : Bool) (d : Dst) (v : Word) : (s.finish sw d v).links = s.links := by simp [State.finish]
@[simp] theorem State.finish_clusters (s : State) (sw : Bool) (d : Dst) (v : Word) : (s.finish sw d v).clusters = s.clusters := by simp [State.finish]
@[simp] theorem State.finish_walks (s : State) (sw : Bool) (d : Dst) (v : Word) : (s.finish sw d v).walks = s.walks := by simp [State.finish]
@[simp] theorem State.finish_msc (s : State) (sw : Bool) (d : Dst) (v : Word) : (s.finish sw d v).msc = s.msc := by simp [State.finish]
@[simp] theorem State.finish_ecc (s : State) (sw : Bool) (d : Dst) (v : Word) : (s.finish sw d v).ecc = s.ecc := by simp [State.finish]
@[simp] theorem State.finish_quads (s : State) (sw : Bool) (d : Dst) (v : Word) : (s.finish sw d v).quads = s.quads := by simp [State.finish]
@[simp] theorem State.finish_weight (s : State) (sw : Bool) (d : Dst) (v : Word) : (s.finish sw d v).weight = s.weight := by simp [State.finish]
@[simp] theorem State.finish_mgmt (s : State) (sw : Bool) (d : Dst) (v : Word) : (s.finish sw d v).mgmt = s.mgmt := by simp [State.finish]

/-! ## eret -/

@[simp] theorem State.eret_pkg (s : State) : s.eret.pkg = s.pkg := rfl
@[simp] theorem State.eret_cc (s : State) : s.eret.cc = s.cc := rfl
@[simp] theorem State.eret_free (s : State) : s.eret.free = s.free := rfl
@[simp] theorem State.eret_agenda (s : State) : s.eret.agenda = s.agenda := rfl
@[simp] theorem State.eret_core (s : State) : s.eret.core = s.core := rfl
@[simp] theorem State.eret_threads (s : State) : s.eret.threads = s.threads := rfl
@[simp] theorem State.eret_cores (s : State) : s.eret.cores = s.cores := rfl
@[simp] theorem State.eret_mem (s : State) : s.eret.mem = s.mem := rfl
@[simp] theorem State.eret_sys (s : State) : s.eret.sys = s.sys := rfl
@[simp] theorem State.eret_caps (s : State) : s.eret.caps = s.caps := rfl
@[simp] theorem State.eret_health (s : State) : s.eret.health = s.health := rfl
@[simp] theorem State.eret_launcher (s : State) : s.eret.launcher = s.launcher := rfl
@[simp] theorem State.eret_bars (s : State) : s.eret.bars = s.bars := rfl
@[simp] theorem State.eret_table (s : State) : s.eret.table = s.table := rfl
@[simp] theorem State.eret_inc (s : State) : s.eret.inc = s.inc := rfl
@[simp] theorem State.eret_net (s : State) : s.eret.net = s.net := rfl
@[simp] theorem State.eret_hem (s : State) : s.eret.hem = s.hem := rfl
@[simp] theorem State.eret_seam (s : State) : s.eret.seam = s.seam := rfl
@[simp] theorem State.eret_links (s : State) : s.eret.links = s.links := rfl
@[simp] theorem State.eret_clusters (s : State) : s.eret.clusters = s.clusters := rfl
@[simp] theorem State.eret_walks (s : State) : s.eret.walks = s.walks := rfl
@[simp] theorem State.eret_msc (s : State) : s.eret.msc = s.msc := rfl
@[simp] theorem State.eret_ecc (s : State) : s.eret.ecc = s.ecc := rfl
@[simp] theorem State.eret_quads (s : State) : s.eret.quads = s.quads := rfl
@[simp] theorem State.eret_weight (s : State) : s.eret.weight = s.weight := rfl
@[simp] theorem State.eret_mgmt (s : State) : s.eret.mgmt = s.mgmt := rfl

/-! ## askWalk -/

@[simp] theorem State.askWalk_pkg (s : State) (n : Nat) (c : Option Nat) (v : Nat) : (s.askWalk n c v).pkg = s.pkg := by simp only [State.askWalk]; split <;> rfl
@[simp] theorem State.askWalk_cc (s : State) (n : Nat) (c : Option Nat) (v : Nat) : (s.askWalk n c v).cc = s.cc := by simp only [State.askWalk]; split <;> rfl
@[simp] theorem State.askWalk_free (s : State) (n : Nat) (c : Option Nat) (v : Nat) : (s.askWalk n c v).free = s.free := by simp only [State.askWalk]; split <;> rfl
@[simp] theorem State.askWalk_agenda (s : State) (n : Nat) (c : Option Nat) (v : Nat) : (s.askWalk n c v).agenda = s.agenda := by simp only [State.askWalk]; split <;> rfl
@[simp] theorem State.askWalk_thr (s : State) (n : Nat) (c : Option Nat) (v : Nat) : (s.askWalk n c v).thr = s.thr := by simp only [State.askWalk]; split <;> rfl
@[simp] theorem State.askWalk_core (s : State) (n : Nat) (c : Option Nat) (v : Nat) : (s.askWalk n c v).core = s.core := by simp only [State.askWalk]; split <;> rfl
@[simp] theorem State.askWalk_threads (s : State) (n : Nat) (c : Option Nat) (v : Nat) : (s.askWalk n c v).threads = s.threads := by simp only [State.askWalk]; split <;> rfl
@[simp] theorem State.askWalk_cores (s : State) (n : Nat) (c : Option Nat) (v : Nat) : (s.askWalk n c v).cores = s.cores := by simp only [State.askWalk]; split <;> rfl
@[simp] theorem State.askWalk_mem (s : State) (n : Nat) (c : Option Nat) (v : Nat) : (s.askWalk n c v).mem = s.mem := by simp only [State.askWalk]; split <;> rfl
@[simp] theorem State.askWalk_sys (s : State) (n : Nat) (c : Option Nat) (v : Nat) : (s.askWalk n c v).sys = s.sys := by simp only [State.askWalk]; split <;> rfl
@[simp] theorem State.askWalk_caps (s : State) (n : Nat) (c : Option Nat) (v : Nat) : (s.askWalk n c v).caps = s.caps := by simp only [State.askWalk]; split <;> rfl
@[simp] theorem State.askWalk_health (s : State) (n : Nat) (c : Option Nat) (v : Nat) : (s.askWalk n c v).health = s.health := by simp only [State.askWalk]; split <;> rfl
@[simp] theorem State.askWalk_launcher (s : State) (n : Nat) (c : Option Nat) (v : Nat) : (s.askWalk n c v).launcher = s.launcher := by simp only [State.askWalk]; split <;> rfl
@[simp] theorem State.askWalk_bars (s : State) (n : Nat) (c : Option Nat) (v : Nat) : (s.askWalk n c v).bars = s.bars := by simp only [State.askWalk]; split <;> rfl
@[simp] theorem State.askWalk_table (s : State) (n : Nat) (c : Option Nat) (v : Nat) : (s.askWalk n c v).table = s.table := by simp only [State.askWalk]; split <;> rfl
@[simp] theorem State.askWalk_inc (s : State) (n : Nat) (c : Option Nat) (v : Nat) : (s.askWalk n c v).inc = s.inc := by simp only [State.askWalk]; split <;> rfl
@[simp] theorem State.askWalk_net (s : State) (n : Nat) (c : Option Nat) (v : Nat) : (s.askWalk n c v).net = s.net := by simp only [State.askWalk]; split <;> rfl
@[simp] theorem State.askWalk_hem (s : State) (n : Nat) (c : Option Nat) (v : Nat) : (s.askWalk n c v).hem = s.hem := by simp only [State.askWalk]; split <;> rfl
@[simp] theorem State.askWalk_seam (s : State) (n : Nat) (c : Option Nat) (v : Nat) : (s.askWalk n c v).seam = s.seam := by simp only [State.askWalk]; split <;> rfl
@[simp] theorem State.askWalk_links (s : State) (n : Nat) (c : Option Nat) (v : Nat) : (s.askWalk n c v).links = s.links := by simp only [State.askWalk]; split <;> rfl
@[simp] theorem State.askWalk_clusters (s : State) (n : Nat) (c : Option Nat) (v : Nat) : (s.askWalk n c v).clusters = s.clusters := by simp only [State.askWalk]; split <;> rfl
@[simp] theorem State.askWalk_msc (s : State) (n : Nat) (c : Option Nat) (v : Nat) : (s.askWalk n c v).msc = s.msc := by simp only [State.askWalk]; split <;> rfl
@[simp] theorem State.askWalk_ecc (s : State) (n : Nat) (c : Option Nat) (v : Nat) : (s.askWalk n c v).ecc = s.ecc := by simp only [State.askWalk]; split <;> rfl
@[simp] theorem State.askWalk_quads (s : State) (n : Nat) (c : Option Nat) (v : Nat) : (s.askWalk n c v).quads = s.quads := by simp only [State.askWalk]; split <;> rfl
@[simp] theorem State.askWalk_weight (s : State) (n : Nat) (c : Option Nat) (v : Nat) : (s.askWalk n c v).weight = s.weight := by simp only [State.askWalk]; split <;> rfl
@[simp] theorem State.askWalk_mgmt (s : State) (n : Nat) (c : Option Nat) (v : Nat) : (s.askWalk n c v).mgmt = s.mgmt := by simp only [State.askWalk]; split <;> rfl

/-! ## parkWalk -/

@[simp] theorem State.parkWalk_pkg (s : State) (a : Word) : (s.parkWalk a).pkg = s.pkg := by simp [State.parkWalk]
@[simp] theorem State.parkWalk_cc (s : State) (a : Word) : (s.parkWalk a).cc = s.cc := by simp [State.parkWalk]
@[simp] theorem State.parkWalk_free (s : State) (a : Word) : (s.parkWalk a).free = s.free := by simp [State.parkWalk]
@[simp] theorem State.parkWalk_agenda (s : State) (a : Word) : (s.parkWalk a).agenda = s.agenda := by simp [State.parkWalk]
@[simp] theorem State.parkWalk_core (s : State) (a : Word) : (s.parkWalk a).core = s.core := by simp [State.parkWalk]
@[simp] theorem State.parkWalk_threads (s : State) (a : Word) : (s.parkWalk a).threads = s.threads := by simp [State.parkWalk]
@[simp] theorem State.parkWalk_cores (s : State) (a : Word) : (s.parkWalk a).cores = s.cores := by simp [State.parkWalk]
@[simp] theorem State.parkWalk_mem (s : State) (a : Word) : (s.parkWalk a).mem = s.mem := by simp [State.parkWalk]
@[simp] theorem State.parkWalk_sys (s : State) (a : Word) : (s.parkWalk a).sys = s.sys := by simp [State.parkWalk]
@[simp] theorem State.parkWalk_caps (s : State) (a : Word) : (s.parkWalk a).caps = s.caps := by simp [State.parkWalk]
@[simp] theorem State.parkWalk_health (s : State) (a : Word) : (s.parkWalk a).health = s.health := by simp [State.parkWalk]
@[simp] theorem State.parkWalk_launcher (s : State) (a : Word) : (s.parkWalk a).launcher = s.launcher := by simp [State.parkWalk]
@[simp] theorem State.parkWalk_bars (s : State) (a : Word) : (s.parkWalk a).bars = s.bars := by simp [State.parkWalk]
@[simp] theorem State.parkWalk_table (s : State) (a : Word) : (s.parkWalk a).table = s.table := by simp [State.parkWalk]
@[simp] theorem State.parkWalk_inc (s : State) (a : Word) : (s.parkWalk a).inc = s.inc := by simp [State.parkWalk]
@[simp] theorem State.parkWalk_net (s : State) (a : Word) : (s.parkWalk a).net = s.net := by simp [State.parkWalk]
@[simp] theorem State.parkWalk_hem (s : State) (a : Word) : (s.parkWalk a).hem = s.hem := by simp [State.parkWalk]
@[simp] theorem State.parkWalk_seam (s : State) (a : Word) : (s.parkWalk a).seam = s.seam := by simp [State.parkWalk]
@[simp] theorem State.parkWalk_links (s : State) (a : Word) : (s.parkWalk a).links = s.links := by simp [State.parkWalk]
@[simp] theorem State.parkWalk_clusters (s : State) (a : Word) : (s.parkWalk a).clusters = s.clusters := by simp [State.parkWalk]
@[simp] theorem State.parkWalk_msc (s : State) (a : Word) : (s.parkWalk a).msc = s.msc := by simp [State.parkWalk]
@[simp] theorem State.parkWalk_ecc (s : State) (a : Word) : (s.parkWalk a).ecc = s.ecc := by simp [State.parkWalk]
@[simp] theorem State.parkWalk_quads (s : State) (a : Word) : (s.parkWalk a).quads = s.quads := by simp [State.parkWalk]
@[simp] theorem State.parkWalk_weight (s : State) (a : Word) : (s.parkWalk a).weight = s.weight := by simp [State.parkWalk]
@[simp] theorem State.parkWalk_mgmt (s : State) (a : Word) : (s.parkWalk a).mgmt = s.mgmt := by simp [State.parkWalk]

/-! ## parkSlot -/

@[simp] theorem State.parkSlot_pkg (s : State) (sw : Bool) (n : Nat) : (s.parkSlot sw n).pkg = s.pkg := rfl
@[simp] theorem State.parkSlot_cc (s : State) (sw : Bool) (n : Nat) : (s.parkSlot sw n).cc = s.cc := rfl
@[simp] theorem State.parkSlot_free (s : State) (sw : Bool) (n : Nat) : (s.parkSlot sw n).free = s.free := rfl
@[simp] theorem State.parkSlot_agenda (s : State) (sw : Bool) (n : Nat) : (s.parkSlot sw n).agenda = s.agenda := rfl
@[simp] theorem State.parkSlot_core (s : State) (sw : Bool) (n : Nat) : (s.parkSlot sw n).core = s.core := rfl
@[simp] theorem State.parkSlot_threads (s : State) (sw : Bool) (n : Nat) : (s.parkSlot sw n).threads = s.threads := rfl
@[simp] theorem State.parkSlot_cores (s : State) (sw : Bool) (n : Nat) : (s.parkSlot sw n).cores = s.cores := rfl
@[simp] theorem State.parkSlot_mem (s : State) (sw : Bool) (n : Nat) : (s.parkSlot sw n).mem = s.mem := rfl
@[simp] theorem State.parkSlot_sys (s : State) (sw : Bool) (n : Nat) : (s.parkSlot sw n).sys = s.sys := rfl
@[simp] theorem State.parkSlot_caps (s : State) (sw : Bool) (n : Nat) : (s.parkSlot sw n).caps = s.caps := rfl
@[simp] theorem State.parkSlot_health (s : State) (sw : Bool) (n : Nat) : (s.parkSlot sw n).health = s.health := rfl
@[simp] theorem State.parkSlot_launcher (s : State) (sw : Bool) (n : Nat) : (s.parkSlot sw n).launcher = s.launcher := rfl
@[simp] theorem State.parkSlot_bars (s : State) (sw : Bool) (n : Nat) : (s.parkSlot sw n).bars = s.bars := rfl
@[simp] theorem State.parkSlot_table (s : State) (sw : Bool) (n : Nat) : (s.parkSlot sw n).table = s.table := rfl
@[simp] theorem State.parkSlot_inc (s : State) (sw : Bool) (n : Nat) : (s.parkSlot sw n).inc = s.inc := rfl
@[simp] theorem State.parkSlot_net (s : State) (sw : Bool) (n : Nat) : (s.parkSlot sw n).net = s.net := rfl
@[simp] theorem State.parkSlot_hem (s : State) (sw : Bool) (n : Nat) : (s.parkSlot sw n).hem = s.hem := rfl
@[simp] theorem State.parkSlot_seam (s : State) (sw : Bool) (n : Nat) : (s.parkSlot sw n).seam = s.seam := rfl
@[simp] theorem State.parkSlot_links (s : State) (sw : Bool) (n : Nat) : (s.parkSlot sw n).links = s.links := rfl
@[simp] theorem State.parkSlot_clusters (s : State) (sw : Bool) (n : Nat) : (s.parkSlot sw n).clusters = s.clusters := rfl
@[simp] theorem State.parkSlot_walks (s : State) (sw : Bool) (n : Nat) : (s.parkSlot sw n).walks = s.walks := rfl
@[simp] theorem State.parkSlot_msc (s : State) (sw : Bool) (n : Nat) : (s.parkSlot sw n).msc = s.msc := rfl
@[simp] theorem State.parkSlot_ecc (s : State) (sw : Bool) (n : Nat) : (s.parkSlot sw n).ecc = s.ecc := rfl
@[simp] theorem State.parkSlot_quads (s : State) (sw : Bool) (n : Nat) : (s.parkSlot sw n).quads = s.quads := rfl
@[simp] theorem State.parkSlot_weight (s : State) (sw : Bool) (n : Nat) : (s.parkSlot sw n).weight = s.weight := rfl
@[simp] theorem State.parkSlot_mgmt (s : State) (sw : Bool) (n : Nat) : (s.parkSlot sw n).mgmt = s.mgmt := rfl

/-! ## migrate -/

@[simp] theorem State.migrate_pkg (s : State) (n : Nat) : (s.migrate n).pkg = s.pkg := rfl
@[simp] theorem State.migrate_cc (s : State) (n : Nat) : (s.migrate n).cc = s.cc := rfl
@[simp] theorem State.migrate_free (s : State) (n : Nat) : (s.migrate n).free = s.free := rfl
@[simp] theorem State.migrate_agenda (s : State) (n : Nat) : (s.migrate n).agenda = s.agenda := rfl
@[simp] theorem State.migrate_core (s : State) (n : Nat) : (s.migrate n).core = s.core := rfl
@[simp] theorem State.migrate_threads (s : State) (n : Nat) : (s.migrate n).threads = s.threads := rfl
@[simp] theorem State.migrate_cores (s : State) (n : Nat) : (s.migrate n).cores = s.cores := rfl
@[simp] theorem State.migrate_mem (s : State) (n : Nat) : (s.migrate n).mem = s.mem := rfl
@[simp] theorem State.migrate_sys (s : State) (n : Nat) : (s.migrate n).sys = s.sys := rfl
@[simp] theorem State.migrate_caps (s : State) (n : Nat) : (s.migrate n).caps = s.caps := rfl
@[simp] theorem State.migrate_health (s : State) (n : Nat) : (s.migrate n).health = s.health := rfl
@[simp] theorem State.migrate_launcher (s : State) (n : Nat) : (s.migrate n).launcher = s.launcher := rfl
@[simp] theorem State.migrate_bars (s : State) (n : Nat) : (s.migrate n).bars = s.bars := rfl
@[simp] theorem State.migrate_table (s : State) (n : Nat) : (s.migrate n).table = s.table := rfl
@[simp] theorem State.migrate_inc (s : State) (n : Nat) : (s.migrate n).inc = s.inc := rfl
@[simp] theorem State.migrate_net (s : State) (n : Nat) : (s.migrate n).net = s.net := rfl
@[simp] theorem State.migrate_hem (s : State) (n : Nat) : (s.migrate n).hem = s.hem := rfl
@[simp] theorem State.migrate_seam (s : State) (n : Nat) : (s.migrate n).seam = s.seam := rfl
@[simp] theorem State.migrate_links (s : State) (n : Nat) : (s.migrate n).links = s.links := rfl
@[simp] theorem State.migrate_clusters (s : State) (n : Nat) : (s.migrate n).clusters = s.clusters := rfl
@[simp] theorem State.migrate_walks (s : State) (n : Nat) : (s.migrate n).walks = s.walks := rfl
@[simp] theorem State.migrate_msc (s : State) (n : Nat) : (s.migrate n).msc = s.msc := rfl
@[simp] theorem State.migrate_ecc (s : State) (n : Nat) : (s.migrate n).ecc = s.ecc := rfl
@[simp] theorem State.migrate_quads (s : State) (n : Nat) : (s.migrate n).quads = s.quads := rfl
@[simp] theorem State.migrate_weight (s : State) (n : Nat) : (s.migrate n).weight = s.weight := rfl
@[simp] theorem State.migrate_mgmt (s : State) (n : Nat) : (s.migrate n).mgmt = s.mgmt := rfl

/-! ## enter -/

@[simp] theorem State.enter_pkg (s : State) (k : SbKind) (l : Loc) (w : Nat) (v : Word) (r : Bool) (c n : Nat) : (s.enter k l w v r c n).pkg = s.pkg := rfl
@[simp] theorem State.enter_cc (s : State) (k : SbKind) (l : Loc) (w : Nat) (v : Word) (r : Bool) (c n : Nat) : (s.enter k l w v r c n).cc = s.cc := rfl
@[simp] theorem State.enter_free (s : State) (k : SbKind) (l : Loc) (w : Nat) (v : Word) (r : Bool) (c n : Nat) : (s.enter k l w v r c n).free = s.free := rfl
@[simp] theorem State.enter_agenda (s : State) (k : SbKind) (l : Loc) (w : Nat) (v : Word) (r : Bool) (c n : Nat) : (s.enter k l w v r c n).agenda = s.agenda := rfl
@[simp] theorem State.enter_thr (s : State) (k : SbKind) (l : Loc) (w : Nat) (v : Word) (r : Bool) (c n : Nat) : (s.enter k l w v r c n).thr = s.thr := rfl
@[simp] theorem State.enter_threads (s : State) (k : SbKind) (l : Loc) (w : Nat) (v : Word) (r : Bool) (c n : Nat) : (s.enter k l w v r c n).threads = s.threads := rfl
@[simp] theorem State.enter_cores (s : State) (k : SbKind) (l : Loc) (w : Nat) (v : Word) (r : Bool) (c n : Nat) : (s.enter k l w v r c n).cores = s.cores := rfl
@[simp] theorem State.enter_mem (s : State) (k : SbKind) (l : Loc) (w : Nat) (v : Word) (r : Bool) (c n : Nat) : (s.enter k l w v r c n).mem = s.mem := rfl
@[simp] theorem State.enter_sys (s : State) (k : SbKind) (l : Loc) (w : Nat) (v : Word) (r : Bool) (c n : Nat) : (s.enter k l w v r c n).sys = s.sys := rfl
@[simp] theorem State.enter_caps (s : State) (k : SbKind) (l : Loc) (w : Nat) (v : Word) (r : Bool) (c n : Nat) : (s.enter k l w v r c n).caps = s.caps := rfl
@[simp] theorem State.enter_health (s : State) (k : SbKind) (l : Loc) (w : Nat) (v : Word) (r : Bool) (c n : Nat) : (s.enter k l w v r c n).health = s.health := rfl
@[simp] theorem State.enter_launcher (s : State) (k : SbKind) (l : Loc) (w : Nat) (v : Word) (r : Bool) (c n : Nat) : (s.enter k l w v r c n).launcher = s.launcher := rfl
@[simp] theorem State.enter_bars (s : State) (k : SbKind) (l : Loc) (w : Nat) (v : Word) (r : Bool) (c n : Nat) : (s.enter k l w v r c n).bars = s.bars := rfl
@[simp] theorem State.enter_table (s : State) (k : SbKind) (l : Loc) (w : Nat) (v : Word) (r : Bool) (c n : Nat) : (s.enter k l w v r c n).table = s.table := rfl
@[simp] theorem State.enter_inc (s : State) (k : SbKind) (l : Loc) (w : Nat) (v : Word) (r : Bool) (c n : Nat) : (s.enter k l w v r c n).inc = s.inc := rfl
@[simp] theorem State.enter_net (s : State) (k : SbKind) (l : Loc) (w : Nat) (v : Word) (r : Bool) (c n : Nat) : (s.enter k l w v r c n).net = s.net := rfl
@[simp] theorem State.enter_hem (s : State) (k : SbKind) (l : Loc) (w : Nat) (v : Word) (r : Bool) (c n : Nat) : (s.enter k l w v r c n).hem = s.hem := rfl
@[simp] theorem State.enter_seam (s : State) (k : SbKind) (l : Loc) (w : Nat) (v : Word) (r : Bool) (c n : Nat) : (s.enter k l w v r c n).seam = s.seam := rfl
@[simp] theorem State.enter_links (s : State) (k : SbKind) (l : Loc) (w : Nat) (v : Word) (r : Bool) (c n : Nat) : (s.enter k l w v r c n).links = s.links := rfl
@[simp] theorem State.enter_clusters (s : State) (k : SbKind) (l : Loc) (w : Nat) (v : Word) (r : Bool) (c n : Nat) : (s.enter k l w v r c n).clusters = s.clusters := rfl
@[simp] theorem State.enter_walks (s : State) (k : SbKind) (l : Loc) (w : Nat) (v : Word) (r : Bool) (c n : Nat) : (s.enter k l w v r c n).walks = s.walks := rfl
@[simp] theorem State.enter_msc (s : State) (k : SbKind) (l : Loc) (w : Nat) (v : Word) (r : Bool) (c n : Nat) : (s.enter k l w v r c n).msc = s.msc := rfl
@[simp] theorem State.enter_ecc (s : State) (k : SbKind) (l : Loc) (w : Nat) (v : Word) (r : Bool) (c n : Nat) : (s.enter k l w v r c n).ecc = s.ecc := rfl
@[simp] theorem State.enter_quads (s : State) (k : SbKind) (l : Loc) (w : Nat) (v : Word) (r : Bool) (c n : Nat) : (s.enter k l w v r c n).quads = s.quads := rfl
@[simp] theorem State.enter_weight (s : State) (k : SbKind) (l : Loc) (w : Nat) (v : Word) (r : Bool) (c n : Nat) : (s.enter k l w v r c n).weight = s.weight := rfl
@[simp] theorem State.enter_mgmt (s : State) (k : SbKind) (l : Loc) (w : Nat) (v : Word) (r : Bool) (c n : Nat) : (s.enter k l w v r c n).mgmt = s.mgmt := rfl

/-! ## anchor -/

@[simp] theorem State.anchor_pkg (s : State) (n k : Nat) : (s.anchor n k).pkg = s.pkg := by simp [State.anchor]
@[simp] theorem State.anchor_cc (s : State) (n k : Nat) : (s.anchor n k).cc = s.cc := by simp [State.anchor]
@[simp] theorem State.anchor_free (s : State) (n k : Nat) : (s.anchor n k).free = s.free := by simp [State.anchor]
@[simp] theorem State.anchor_agenda (s : State) (n k : Nat) : (s.anchor n k).agenda = s.agenda := by simp [State.anchor]
@[simp] theorem State.anchor_mem (s : State) (n k : Nat) : (s.anchor n k).mem = s.mem := by simp [State.anchor]
@[simp] theorem State.anchor_sys (s : State) (n k : Nat) : (s.anchor n k).sys = s.sys := by simp [State.anchor]
@[simp] theorem State.anchor_caps (s : State) (n k : Nat) : (s.anchor n k).caps = s.caps := by simp [State.anchor]
@[simp] theorem State.anchor_health (s : State) (n k : Nat) : (s.anchor n k).health = s.health := by simp [State.anchor]
@[simp] theorem State.anchor_launcher (s : State) (n k : Nat) : (s.anchor n k).launcher = s.launcher := by simp [State.anchor]
@[simp] theorem State.anchor_bars (s : State) (n k : Nat) : (s.anchor n k).bars = s.bars := by simp [State.anchor]
@[simp] theorem State.anchor_table (s : State) (n k : Nat) : (s.anchor n k).table = s.table := by simp [State.anchor]
@[simp] theorem State.anchor_inc (s : State) (n k : Nat) : (s.anchor n k).inc = s.inc := by simp [State.anchor]
@[simp] theorem State.anchor_net (s : State) (n k : Nat) : (s.anchor n k).net = s.net := by simp [State.anchor]
@[simp] theorem State.anchor_hem (s : State) (n k : Nat) : (s.anchor n k).hem = s.hem := by simp [State.anchor]
@[simp] theorem State.anchor_seam (s : State) (n k : Nat) : (s.anchor n k).seam = s.seam := by simp [State.anchor]
@[simp] theorem State.anchor_links (s : State) (n k : Nat) : (s.anchor n k).links = s.links := by simp [State.anchor]
@[simp] theorem State.anchor_clusters (s : State) (n k : Nat) : (s.anchor n k).clusters = s.clusters := by simp [State.anchor]
@[simp] theorem State.anchor_walks (s : State) (n k : Nat) : (s.anchor n k).walks = s.walks := by simp [State.anchor]
@[simp] theorem State.anchor_msc (s : State) (n k : Nat) : (s.anchor n k).msc = s.msc := by simp [State.anchor]
@[simp] theorem State.anchor_ecc (s : State) (n k : Nat) : (s.anchor n k).ecc = s.ecc := by simp [State.anchor]
@[simp] theorem State.anchor_quads (s : State) (n k : Nat) : (s.anchor n k).quads = s.quads := by simp [State.anchor]
@[simp] theorem State.anchor_weight (s : State) (n k : Nat) : (s.anchor n k).weight = s.weight := by simp [State.anchor]
@[simp] theorem State.anchor_mgmt (s : State) (n k : Nat) : (s.anchor n k).mgmt = s.mgmt := by simp [State.anchor]

/-! ## The changed fields -/

@[simp] theorem State.modThr_thr (s : State) (f : Thread → Thread) : (s.modThr f).thr = f s.thr := rfl
@[simp] theorem State.modThreads_threads (s : State) (p : Thread → Bool) (f : Thread → Thread) :
    (s.modThreads p f).threads = s.threads.map fun t => if p t then f t else t := rfl
theorem State.modThreads_thr (s : State) (p : Thread → Bool) (f : Thread → Thread) :
    (s.modThreads p f).thr = if s.thr.live && p s.thr then f s.thr else s.thr := rfl
theorem State.modThread_thr (s : State) (n k : Nat) (f : Thread → Thread) :
    (s.modThread n k f).thr = if s.thr.live && s.thr.is n k then f s.thr else s.thr := rfl
theorem State.modThread_threads (s : State) (n k : Nat) (f : Thread → Thread) :
    (s.modThread n k f).threads = s.threads.map fun t => if t.is n k then f t else t := rfl
@[simp] theorem State.modCores_core (s : State) (f : Core → Core) : (s.modCores f).core = f s.core := rfl
@[simp] theorem State.modCores_cores (s : State) (f : Core → Core) : (s.modCores f).cores = s.cores.map f := rfl
@[simp] theorem State.phase_thr (s : State) (n : Nat) : (s.phase n).thr = { s.thr with phase := n } := rfl
@[simp] theorem State.enter_core (s : State) (k : SbKind) (l : Loc) (w : Nat) (v : Word) (r : Bool) (c n : Nat) :
    (s.enter k l w v r c n).core = { s.core with
      sb := s.core.sb ++ [⟨s.core.sbNum, s.thr.frame, s.thr.tid, k, l, w, v, r, c, s.thr.seq, n, false, false, none⟩], sbNum := s.core.sbNum + 1 } := rfl

/-! ## Cores found and stored -/

@[simp] theorem State.coreOf_self (s : State) : s.coreOf s.core.id = s.core := by simp [State.coreOf]

/-- The core on hand changed. -/
theorem State.setCore_here (s : State) (c : Core) (h : s.core.id = c.id) : s.setCore c = { s with core := c } := by
  simp [State.setCore, h]

theorem State.modCore_here (s : State) (f : Core → Core) (h : (f s.core).id = s.core.id) :
    s.modCore s.core.id f = { s with core := f s.core } := by
  simp [State.modCore, State.setCore_here, h]

/-- What stands at a number once a core is stored. -/
theorem find_insertCore (l : List Core) (c : Core) (n : Nat) :
    (insertCore l c).find? (fun x => x.id == n) = if n = c.id then some c else l.find? fun x => x.id == n := by
  have hs : (c.id == n) = decide (n = c.id) := by simp [eq_comm (a := c.id), Bool.beq_eq_decide_eq]
  induction l with
  | nil => by_cases h : n = c.id <;> simp [insertCore, hs, h]
  | cons k r ih =>
    simp only [insertCore]
    split
    · by_cases h : n = c.id <;> simp [List.find?_cons, hs, h]
    · split
      · rename_i h1 h2
        have hk : (k.id == n) = decide (n = c.id) := by rw [← h2, hs]
        by_cases h : n = c.id <;> simp [hs, hk, h]
      · rename_i h1 h2
        rw [List.find?_cons, List.find?_cons, ih]
        by_cases h : n = c.id
        · have hk : (k.id == n) = false := by rw [h]; simpa using Ne.symm h2
          simp only [hk, if_pos h]
        · simp [h]

theorem State.coreOf_setCore (s : State) (c : Core) (n : Nat) :
    (s.setCore c).coreOf n = if n = c.id then c else s.coreOf n := by
  simp only [State.setCore]
  split
  · rename_i h
    by_cases hn : n = c.id
    · simp [State.coreOf, hn]
    · simp [State.coreOf, hn, Ne.symm hn, h]
  · rename_i h
    by_cases hn : n = c.id
    · subst hn; simp [State.coreOf, h, find_insertCore]
    · simp [State.coreOf, find_insertCore, hn]

/-- The number of a core, whether it has been touched or not. -/
theorem Core.fresh_id (n : Nat) : (Core.fresh n).id = n := rfl

@[simp] theorem State.coreOf_id (s : State) (n : Nat) : (s.coreOf n).id = n := by
  simp only [State.coreOf]
  split
  · assumption
  · cases h : s.cores.find? fun c => c.id == n with
    | none => rfl
    | some c => simpa using List.find?_some h

/-- A change of one core that keeps its number. -/
theorem State.coreOf_modCore (s : State) (n k : Nat) (f : Core → Core) (h : ∀ c, (f c).id = c.id) :
    (s.modCore n f).coreOf k = if k = n then f (s.coreOf n) else s.coreOf k := by
  simp [State.modCore, State.coreOf_setCore, h]

/-! ## Threads -/

theorem State.mem_all (s : State) (t : Thread) : t ∈ s.all ↔ (s.thr.live = true ∧ t = s.thr) ∨ t ∈ s.threads := by
  simp only [State.all]
  split <;> simp_all

/-! ## What an instruction leaves behind -/

@[simp] theorem State.jump_thr_pc (s : State) (sw : Bool) (pc : Word) : (s.jump sw pc).thr.pc = pc := by
  simp only [State.jump]; split
  · simp only [State.endRun]; split <;> rfl
  · rfl
@[simp] theorem State.jump_thr_g (s : State) (sw : Bool) (pc : Word) : (s.jump sw pc).thr.g = s.thr.g := by
  simp only [State.jump]; split
  · simp only [State.endRun]; split <;> rfl
  · rfl
@[simp] theorem State.jump_thr_pend (s : State) (sw : Bool) (pc : Word) : (s.jump sw pc).thr.pend = s.thr.pend := by
  simp only [State.jump]; split
  · simp only [State.endRun]; split <;> rfl
  · rfl
@[simp] theorem State.jump_thr_st (s : State) (sw : Bool) (pc : Word) : (s.jump sw pc).thr.st = s.thr.st := by
  simp only [State.jump]; split
  · simp only [State.endRun]; split <;> rfl
  · rfl
@[simp] theorem State.jump_thr_tr (s : State) (sw : Bool) (pc : Word) : (s.jump sw pc).thr.tr = s.thr.tr := by
  simp only [State.jump]; split
  · simp only [State.endRun]; split <;> rfl
  · rfl
@[simp] theorem State.jump_thr_tb (s : State) (sw : Bool) (pc : Word) : (s.jump sw pc).thr.tb = s.thr.tb := by
  simp only [State.jump]; split
  · simp only [State.endRun]; split <;> rfl
  · rfl

@[simp] theorem State.retire_thr_pc (s : State) (sw : Bool) : (s.retire sw).thr.pc = s.thr.pc + 4 := by simp [State.retire]
@[simp] theorem State.retire_thr_g (s : State) (sw : Bool) : (s.retire sw).thr.g = s.thr.g := by simp [State.retire]
@[simp] theorem State.retire_thr_pend (s : State) (sw : Bool) : (s.retire sw).thr.pend = s.thr.pend := by simp [State.retire]
@[simp] theorem State.retire_thr_st (s : State) (sw : Bool) : (s.retire sw).thr.st = s.thr.st := by simp [State.retire]
@[simp] theorem State.retire_thr_tr (s : State) (sw : Bool) : (s.retire sw).thr.tr = s.thr.tr := by simp [State.retire]

/-- Without a switch marker the next word follows at once. -/
theorem State.jump_plain (s : State) (pc : Word) :
    s.jump false pc = s.modThr fun t => { t with pc := pc, phase := 0, skipWatch := none, walked := none, popped := [] } := rfl

theorem State.long_g (s : State) (d : Dst) (p : Pending) : (s.long d p).thr.g = s.thr.g := rfl
theorem State.long_pend_length (s : State) (d : Dst) (p : Pending) : (s.long d p).thr.pend.length = s.thr.pend.length + 1 := by
  simp [State.long]

@[simp] theorem State.finishLong_thr_g (s : State) (sw : Bool) (d : Dst) (p : Pending) : (s.finishLong sw d p).thr.g = s.thr.g := by
  simp [State.finishLong, State.long_g]
@[simp] theorem State.finishLong_thr_pc (s : State) (sw : Bool) (d : Dst) (p : Pending) : (s.finishLong sw d p).thr.pc = s.thr.pc + 4 := by
  simp [State.finishLong, State.long]

/-- The result stands last among the outstanding ones. -/
theorem State.finishLong_last (s : State) (sw : Bool) (d : Dst) (p : Pending) :
    (s.finishLong sw d p).thr.pend.getLast? =
      some { p with tok := s.thr.seq, dst := d, pc := s.thr.pc, popped := if d == .qdn then s.thr.popped else [], dropped := p.dropped || d == .gz } := by
  simp [State.finishLong, State.long]

/-! ## The answers -/

@[simp] theorem withThread_live (s t : State) (h : s.thr.live = true) : withThread s t = .next t := by simp [withThread, h]
@[simp] theorem withThread_dead (s t : State) (h : s.thr.live = false) : withThread s t = .fault .noThread := by simp [withThread, h]
@[simp] theorem whenEnabled_true (t : State) : whenEnabled true t = .next t := rfl
@[simp] theorem whenEnabled_false (t : State) : whenEnabled false t = .fault .notEnabled := rfl

/-- The only state a word can answer with. -/
theorem withThread_next {s t u : State} (h : withThread s t = .next u) : s.thr.live = true ∧ u = t := by
  unfold withThread at h
  split at h
  · exact ⟨‹_›, by simpa using h.symm⟩
  · simp at h

theorem whenEnabled_next {c : Bool} {t u : State} (h : whenEnabled c t = .next u) : c = true ∧ u = t := by
  cases c
  · simp [whenEnabled] at h
  · exact ⟨rfl, by simpa using h.symm⟩

end Sys2Proof.Machine
end

