-- ==== Sys2Proof/Laws/Trap.lean ====
section
/-! SUPPORT. What taking an exception, the end of a thread and the answer table leave alone: no byte of memory, no register of
the package. -/

namespace Sys2Proof.Machine

/-! ## Folds -/

/-- A field that every step of a fold leaves alone. -/
theorem foldl_keeps {α β γ : Type} (g : α → γ) (f : α → β → α) (h : ∀ a b, g (f a b) = g a) (l : List β) (a : α) :
    g (l.foldl f a) = g a := by
  induction l generalizing a with
  | nil => rfl
  | cons b r ih => rw [List.foldl_cons, ih, h]

/-- A property that every step of a fold keeps. -/
theorem foldl_inv {α β : Type} (P : α → Prop) (f : α → β → α) (h : ∀ a b, P a → P (f a b)) (l : List β) (a : α) (ha : P a) :
    P (l.foldl f a) := by
  induction l generalizing a with
  | nil => exact ha
  | cons b r ih => exact ih _ (h _ _ ha)

/-! ## The answer table -/

@[simp] theorem State.modTable_mem (s : State) (f : Table → Table) : (s.modTable f).mem = s.mem := rfl
@[simp] theorem State.modTable_thr (s : State) (f : Table → Table) : (s.modTable f).thr = s.thr := rfl
@[simp] theorem State.modEntry_mem (s : State) (k : TKey) (f : TEntry → TEntry) : (s.modEntry k f).mem = s.mem := rfl
@[simp] theorem State.modEntry_thr (s : State) (k : TKey) (f : TEntry → TEntry) : (s.modEntry k f).thr = s.thr := rfl
@[simp] theorem State.setStack_mem (s : State) (i : Tid) (r : List (Option TKey)) : (s.setStack i r).mem = s.mem := rfl
@[simp] theorem State.setStack_thr (s : State) (i : Tid) (r : List (Option TKey)) : (s.setStack i r).thr = s.thr := rfl
@[simp] theorem State.modGroup_mem (s : State) (g : Nat) (f : TGroup → TGroup) : (s.modGroup g f).mem = s.mem := rfl
@[simp] theorem State.dropGroup_mem (s : State) (g : Nat) : (s.dropGroup g).mem = s.mem := rfl
@[simp] theorem State.untaint_mem (s : State) (is : List Tid) : (s.untaint is).mem = s.mem := rfl

@[simp] theorem State.replies_mem (s : State) (cs : List Tid) : (s.replies cs).mem = s.mem :=
  foldl_keeps State.mem _ (fun s i => by split <;> rfl) cs s

@[simp] theorem State.replies_thr (s : State) (cs : List Tid) : (s.replies cs).thr = s.thr :=
  foldl_keeps State.thr _ (fun s i => by split <;> rfl) cs s

@[simp] theorem State.answerAll_mem (s : State) (cs : List Tid) (v : Word) : (s.answerAll cs v).mem = s.mem := by
  simp [State.answerAll]

@[simp] theorem State.recall_mem (s : State) (i : Tid) : (s.recall i).mem = s.mem := by
  simp only [State.recall]
  split
  · rfl
  · rw [State.modThread_mem]; split <;> simp

@[simp] theorem State.recallAll_mem (s : State) (cs : List Tid) : (s.recallAll cs).mem = s.mem := by
  rw [State.recallAll, foldl_keeps State.mem _ (fun s i => State.recall_mem s i), State.replies_mem]

@[simp] theorem State.completeEntry_mem (s : State) (k : TKey) (v : Word) : (s.completeEntry k v).mem = s.mem := by
  simp only [State.completeEntry]; split <;> simp

@[simp] theorem State.freeLeader_mem (s : State) (e : TEntry) : (s.freeLeader e).mem = s.mem := by
  simp only [State.freeLeader]; split <;> simp

@[simp] theorem State.dissolve_mem (s : State) (g : Nat) : (s.dissolve g).mem = s.mem := by
  simp only [State.dissolve, State.dropGroup_mem, State.untaint_mem, State.recallAll_mem]
  rw [foldl_keeps State.mem _ (fun s e => State.freeLeader_mem s e), State.modTable_mem]

@[simp] theorem State.abandonEntry_mem (s : State) (k : TKey) (c : Bool) : (s.abandonEntry k c).mem = s.mem := by
  simp only [State.abandonEntry]
  split
  · rfl
  · split
    · simp
    · split
      · simp
      · split <;> simp

@[simp] theorem State.abandonStack_mem (s : State) (i : Tid) (c : Bool) : (s.abandonStack i c).mem = s.mem := by
  simp only [State.abandonStack, State.modThreads_mem, State.setStack_mem]
  exact foldl_keeps State.mem _ (fun s k => State.abandonEntry_mem s k c) _ s

@[simp] theorem State.dropConsumer_mem (s : State) (i : Tid) : (s.dropConsumer i).mem = s.mem := by
  simp only [State.dropConsumer, State.modTable_mem]; split <;> simp

/-! ## The end of a thread -/

@[simp] theorem State.releaseEngines_mem (s : State) (n : Nat) : (s.releaseEngines n).mem = s.mem := by
  simp only [State.releaseEngines]; split <;> simp

/-- Two states with one memory. -/
theorem ite_mem (c : Prop) [Decidable c] {a b : State} {m : Memory} (ha : a.mem = m) (hb : b.mem = m) :
    (if c then a else b).mem = m := by
  split
  · exact ha
  · exact hb

@[simp] theorem State.orphan_mem (s : State) (n k : Nat) : (s.orphan n k).mem = s.mem := rfl

@[simp] theorem State.leave_mem (s : State) (n k : Nat) : (s.leave n k).mem = s.mem := by
  unfold State.leave
  dsimp only
  generalize ((s.threadAt n k).map fun t => (t.launch, (t.pend.filter fun p => p.recv).length)).getD (0, 0) = owed
  have h0 : ((List.range owed.2).foldl (fun s _ => s.recvd owed.1 n) s).mem = s.mem := foldl_keeps State.mem (fun s _ => s.recvd owed.1 n) (fun _ _ => rfl) _ s
  revert h0
  generalize (List.range owed.2).foldl (fun s _ => s.recvd owed.1 n) s = t
  intro h0
  have h : (if (t.coreOf n).qOwner = some k then t.modCore n fun c => { c with qOwner := none, qdn := none } else t).mem = s.mem := by
    split <;> simp [h0]
  refine ite_mem _ (ite_mem _ ?_ ?_) ?_ <;> simp [h]

@[simp] theorem State.lose_mem (s : State) (l n t e : Nat) : (s.lose l n t e).mem = s.mem := by
  simp only [State.lose]
  split
  · rfl
  · split
    · simp
    · split <;> simp

@[simp] theorem State.loseThread_mem (s : State) (t : Thread) : (s.loseThread t).mem = s.mem := by simp [State.loseThread]

/-- Words given back to their queues (R258) leave memory and the thread's own state alone. -/
@[simp] theorem State.unpop_mem (s : State) : s.unpop.mem = s.mem := by simp only [State.unpop]; split <;> rfl

theorem State.unpop_thr (s : State) : s.unpop.thr = { s.thr with popped := [] } := by
  simp only [State.unpop]
  split
  · rename_i h
    have : s.thr.popped = [] := by simpa using h
    rw [← this]
  · rfl

@[simp] theorem State.unpop_sys (s : State) : s.unpop.sys = s.sys := by simp only [State.unpop]; split <;> rfl

@[simp] theorem State.terminate_mem (s : State) (t : Thread) : (s.terminate t).mem = s.mem := by
  simp only [State.terminate]; split <;> simp

/-! ## Exceptions -/

/-- Taking an exception writes no memory (R200). -/
@[simp] theorem State.trap_mem (s : State) (ti : TrapInfo) : (s.trap ti).mem = s.mem := by
  unfold State.trap
  exact ite_mem _ (by simp) (ite_mem _ (by simp) (by simp))

@[simp] theorem State.regerr_mem (s : State) (n : Nat) : (s.regerr n).mem = s.mem := by
  simp only [State.regerr, State.trap_mem]
  split
  · simp
  · split
    · simp
    · split <;> simp

@[simp] theorem State.illeg_mem (s : State) (w : BitVec 32) : (s.illeg w).mem = s.mem := by simp [State.illeg]

/-- Which vector a trap of the issuing thread takes, and that it can take it: to EVEC, outside every handler (R200, R203). -/
theorem State.trap_evec (s : State) (ti : TrapInfo) (h1 : s.thr.sup = false) (h2 : causeSv ti.code (s.thr.st.getLsbD 16) = false)
    (h3 : s.thr.tr.inE = false) (h4 : s.thr.tr.evec ≠ 0) :
    (s.trap ti).thr.pc = aligned s.thr.tr.evec ∧ (s.trap ti).thr.tr.epc = s.thr.pc ∧ (s.trap ti).thr.tr.eval = ti.eval ∧
      (s.trap ti).thr.tr.estat = s.thr.st ∧ (s.trap ti).thr.g = s.thr.g ∧ (s.trap ti).thr.tr.inE = true := by
  have hu := s.unpop_thr
  have h5 : (s.unpop.thr.tr.evec == 0) = false := by rw [hu]; simpa using h4
  have h6 : s.unpop.thr.sup = false := by rw [hu]; exact h1
  have h7 : causeSv ti.code (s.unpop.thr.st.getLsbD 16) = false := by rw [hu]; exact h2
  have h8 : s.unpop.thr.tr.inE = false := by rw [hu]; exact h3
  simp only [State.trap, h5, h6, h7, h8, Bool.or_false, Bool.not_false, Bool.and_false, Bool.false_and,
    Bool.false_eq_true, if_false]
  refine ⟨?_, ?_, rfl, ?_, ?_, by simp⟩ <;> simp [hu]

end Sys2Proof.Machine
end

