-- ==== Sys2Proof/Laws/Operands.lean ====
section
/-! SUPPORT. What reading operands and making an access can do, said once: the meanings are used through these. -/

namespace Sys2Proof.Machine

/-! ## Sources -/

/-- Where the operands can be read, an instruction goes on with them. -/
theorem State.gatherOf_reads {s s1 : State} {short : Bool} {srcs : List Src} {d : Dst} {vs : List Word}
    (k : State → List Word → State) (h : s.readsOf short srcs d = some (s1, vs)) : s.gatherOf short srcs d k = k s1 vs := by
  simp only [State.readsOf] at h
  simp only [State.gatherOf]
  split at h
  · simp at h
  · rename_i hq
    simp only [Bool.or_eq_true, not_or, Bool.not_eq_true, Option.isSome_eq_false_iff, Option.isNone_iff_eq_none] at hq
    rw [hq.1.1]
    simp only [hq.1.2, hq.2, Bool.false_eq_true, if_false]
    split at h
    · simp at h
    · rename_i u hu
      split at h
      · simp at h
      · rename_i hn
        simp only [Bool.or_eq_true, not_or, decide_eq_true_eq, Bool.and_eq_true] at hn
        obtain ⟨⟨ha, hb⟩, hc⟩ := hn
        simp only [hu, if_neg ha, if_neg hb]
        rw [if_neg (by simpa using hc)]
        simp only [Option.some.injEq] at h
        rw [h]

theorem State.gather_reads {s s1 : State} {srcs : List Src} {d : Dst} {vs : List Word} (k : State → List Word → State)
    (h : s.reads srcs d = some (s1, vs)) : s.gather srcs d k = k s1 vs := State.gatherOf_reads k h

theorem State.gatherLong_reads {s s1 : State} {srcs : List Src} {d : Dst} {vs : List Word} (k : State → List Word → State)
    (h : s.readsLong srcs d = some (s1, vs)) : s.gatherLong srcs d k = k s1 vs := State.gatherOf_reads k h

theorem State.long1_reads {s s1 : State} {a : Src} {d : Dst} {x : Word} (k : State → Word → State)
    (h : s.readsLong [a] d = some (s1, [x])) : s.long1 a d k = k s1 x := by
  simp [State.long1, State.gatherLong_reads _ h]

theorem State.long2_reads {s s1 : State} {a b : Src} {d : Dst} {x y : Word} (k : State → Word → Word → State)
    (h : s.readsLong [a, b] d = some (s1, [x, y])) : s.long2 a b d k = k s1 x y := by
  simp [State.long2, State.gatherLong_reads _ h]

theorem State.long3_reads {s s1 : State} {a b c : Src} {d : Dst} {x y z : Word} (k : State → Word → Word → Word → State)
    (h : s.readsLong [a, b, c] d = some (s1, [x, y, z])) : s.long3 a b c d k = k s1 x y z := by
  simp [State.long3, State.gatherLong_reads _ h]

theorem State.gather1_reads {s s1 : State} {a : Src} {d : Dst} {x : Word} (k : State → Word → State)
    (h : s.reads [a] d = some (s1, [x])) : s.gather1 a d k = k s1 x := by
  simp [State.gather1, State.gather_reads _ h]

theorem State.gather2_reads {s s1 : State} {a b : Src} {d : Dst} {x y : Word} (k : State → Word → Word → State)
    (h : s.reads [a, b] d = some (s1, [x, y])) : s.gather2 a b d k = k s1 x y := by
  simp [State.gather2, State.gather_reads _ h]

theorem State.gather3_reads {s s1 : State} {a b c : Src} {d : Dst} {x y z : Word} (k : State → Word → Word → Word → State)
    (h : s.reads [a, b, c] d = some (s1, [x, y, z])) : s.gather3 a b c d k = k s1 x y z := by
  simp [State.gather3, State.gather_reads _ h]

/-- As many values as sources. -/
theorem State.take_length (srcs : List Src) : ∀ s : State, (s.take srcs).2.length = srcs.length := by
  induction srcs with
  | nil => intro s; rfl
  | cons x r ih => intro s; cases x <;> simp [State.take, ih]

theorem State.takeAll_length (s : State) (srcs : List Src) : (s.takeAll srcs).2.length = srcs.length := by
  simp [State.takeAll, State.take_length]

theorem State.reads_length {s s1 : State} {short : Bool} {srcs : List Src} {d : Dst} {vs : List Word}
    (h : s.readsOf short srcs d = some (s1, vs)) : vs.length = srcs.length := by
  simp only [State.readsOf] at h
  split at h
  · simp at h
  · split at h
    · simp at h
    · split at h
      · simp at h
      · simp only [Option.some.injEq] at h
        rw [← State.takeAll_length, h]

/-- A source with a plain value passes every check. -/
theorem State.check_plain (s0 s : State) (srcs : List Src) (h : ∀ x ∈ srcs, s.plainSrc x) : s0.check s srcs = .ok s := by
  induction srcs with
  | nil => rfl
  | cons x r ih =>
    have hr := ih fun y hy => h y (List.mem_cons_of_mem _ hy)
    have hx := h x (List.mem_cons_self ..)
    cases x with
    | gz => exact hr
    | qup => exact absurd hx (by simp [State.plainSrc])
    | qrx => exact absurd hx (by simp [State.plainSrc])
    | g n =>
      obtain ⟨h1, h2, h3, h4⟩ := hx
      have h3' : s.thr.marks.find? (fun m => m.1 == n.1) = none := by
        rw [List.find?_eq_none]
        intro m hm
        have := List.all_eq_true.1 h3 m hm
        simpa using this
      simp only [State.check, h1, h2, h3', h4, Bool.false_eq_true, if_false, Option.map_none, Option.getD_none, Option.bind_none, State.settleFut, hr]

theorem State.take_plain (s : State) (srcs : List Src) (h : ∀ x ∈ srcs, s.plainSrc x) : s.take srcs = (s, srcs.map s.srcVal) := by
  induction srcs with
  | nil => rfl
  | cons x r ih =>
    have hr := ih fun y hy => h y (List.mem_cons_of_mem _ hy)
    have hx := h x (List.mem_cons_self ..)
    cases x with
    | gz => simp [State.take, hr, State.srcVal]
    | qup => exact absurd hx (by simp [State.plainSrc])
    | qrx => exact absurd hx (by simp [State.plainSrc])
    | g n => simp [State.take, hr, State.srcVal]

/-- Sources with plain values pop nothing. -/
theorem State.pops_plain (s : State) (srcs : List Src) (h : ∀ x ∈ srcs, s.plainSrc x) : s.pops srcs = [] := by
  induction srcs with
  | nil => rfl
  | cons x r ih =>
    have hr := ih fun y hy => h y (List.mem_cons_of_mem _ hy)
    have hx := h x (List.mem_cons_self ..)
    cases x with
    | gz => exact hr
    | qup => exact absurd hx (by simp [State.plainSrc])
    | qrx => exact absurd hx (by simp [State.plainSrc])
    | g n => exact hr

theorem State.takeAll_plain (s : State) (srcs : List Src) (h : ∀ x ∈ srcs, s.plainSrc x) :
    s.takeAll srcs = (s, srcs.map s.srcVal) := by
  simp [State.takeAll, State.take_plain s srcs h, State.pops_plain s srcs h]

/-- A plain source is no queue. -/
theorem State.plainSrc_queue {s : State} {x : Src} (h : s.plainSrc x) : Src.queue x = none := by
  cases x with
  | g n => rfl
  | gz => rfl
  | qup => exact absurd h (by simp [State.plainSrc])
  | qrx => exact absurd h (by simp [State.plainSrc])

/-- The state in which the checks of the sources end. -/
def endOf : Except State State → State
  | .ok t => t
  | .error t => t

/-- The trap of a failed future leaves memory alone. -/
theorem State.futTrap_mem {s t : State} {n : Nat} {f : Future} (h : s.futTrap n f = some t) : t.mem = s.mem := by
  unfold State.futTrap at h
  split at h
  · simp only [Option.some.injEq] at h; simp [← h]
  · simp only [Option.some.injEq] at h; simp [← h]
  · simp only [Option.some.injEq] at h; simp [← h]
  · exact absurd h (by simp)

/-- What the checks of the sources keep: every check that fails ends in a wait or a trap. -/
theorem State.check_mem (s0 : State) (srcs : List Src) : ∀ s : State, s.mem = s0.mem → (endOf (s0.check s srcs)).mem = s0.mem := by
  induction srcs with
  | nil => exact fun s h => h
  | cons x r ih =>
    intro s h
    cases x with
    | gz => exact ih s h
    | qup => exact ih s h
    | qrx => exact ih s h
    | g n =>
      simp only [State.check]
      generalize (if s.thr.tagged n.1 then s.futureOf s.thr.g[n] else none) = fut
      split
      · simp [endOf]
      · split
        · simp [endOf]
        · split
          · simp [endOf]
          · cases ht : fut.bind (s0.futTrap n.1) with
            | some e =>
              obtain ⟨f, -, hf⟩ := Option.bind_eq_some_iff.1 ht
              exact State.futTrap_mem hf
            | none =>
              have h1 : (s.settleFut n fut).mem = s0.mem := by cases fut <;> simpa [State.settleFut] using h
              dsimp only
              split
              · simp [endOf]
              · exact ih _ h1
              · exact ih _ h1

theorem State.take_mem (srcs : List Src) : ∀ s : State, (s.take srcs).1.mem = s.mem := by
  induction srcs with
  | nil => intro s; rfl
  | cons x r ih => intro s; cases x <;> simp [State.take, ih]

theorem State.takeAll_mem (s : State) (srcs : List Src) : (s.takeAll srcs).1.mem = s.mem := by
  simp only [State.takeAll]
  split <;> simp [State.take_mem]

/-- A property of memory that an instruction keeps from wherever its operands are read, it keeps. -/
theorem State.gather_keeps (P : Memory → Prop) (s : State) (short : Bool) (srcs : List Src) (d : Dst) (k : State → List Word → State)
    (h : P s.mem) (hk : ∀ t vs, t.mem = s.mem → P (k t vs).mem) : P (s.gatherOf short srcs d k).mem := by
  have hc := State.check_mem s srcs s rfl
  unfold State.gatherOf
  cases s.queueTrap srcs d with
  | some ti => simpa using h
  | none =>
    dsimp only
    split
    · simpa using h
    · split
      · simpa using h
      · cases ht : s.check s srcs with
        | error t => rw [ht] at hc; exact hc ▸ h
        | ok t =>
          dsimp only
          split
          · simpa using h
          · split
            · simpa using h
            · split
              · simpa using h
              · rw [ht] at hc
                exact hk _ _ ((State.takeAll_mem _ _).trans hc)

/-! ## Accesses -/

/-- Where the access passes its checks, the instruction goes on with its place (R309). -/
theorem State.withAccess_accessed {s0 s s1 : State} {a : Word} {acc : Acc} {rd wr : Bool} {l : Loc}
    (k : State → Loc → State) (h : s.accessed a acc rd wr = some (s1, l)) : s0.withAccess s a acc rd wr k = k s1 l := by
  unfold State.accessed at h
  unfold State.withAccess
  cases hm : (acc.memory || acc.peers) && s.mustWalk s.thr a acc.width
  case true => simp [hm] at h
  simp only [Bool.false_eq_true, if_false, hm] at h ⊢
  rcases hx : s.access s.thr a acc with ti | ⟨m, x⟩
  · simp [hx] at h
  · simp only [hx] at h ⊢
    cases hw : s.watched a rd wr
    · simp only [hw, Bool.false_or] at h
      simp only [Bool.false_eq_true, if_false]
      obtain ⟨key, pl, pol, va, elem, msch⟩ := m
      cases pl <;> dsimp only at h ⊢ <;> split at h <;> first
        | (rename_i hn
           simp only [Bool.or_eq_true, Bool.or_false, not_or] at hn
           first
             | rw [if_neg hn.1, if_neg hn.2]
             | (rw [if_neg hn]; simp only [Bool.false_eq_true, if_false])
           cases x <;> simp only [Option.some.injEq, Prod.mk.injEq] at h <;> simp only [h.1, h.2])
        | exact absurd h (by simp)
    · simp [hw] at h

/-- What an access can do to memory: nothing where it traps or waits, else what its translation marks and what `k` does. -/
theorem State.withAccess_keeps (P : Memory → Prop) (s0 s : State) (a : Word) (acc : Acc) (rd wr : Bool) (k : State → Loc → State)
    (h0 : P s0.mem) (hk : ∀ (t : State) l, t.mem = s.mem → P (k t l).mem) (ht : ∀ (t : State) x l, t.mem = s.mem → P (k (t.touch t.core.id (t.tableOf t.thr) x acc.w t.thr.launch) l).mem) :
    P (s0.withAccess s a acc rd wr k).mem := by
  unfold State.withAccess
  split
  · simpa using h0
  split
  · simpa using h0
  · rename_i m x hx
    dsimp only
    cases hw : s.watched a rd wr
    · simp only [Bool.false_eq_true, if_false]
      obtain ⟨key, pl, pol, va, elem, msch⟩ := m
      have hm : P (match x with
          | none => k (s.modThr Thread.pass) ⟨key, pl, pol, va, elem, msch⟩
          | some x => k ((s.modThr Thread.pass).touch (s.modThr Thread.pass).core.id ((s.modThr Thread.pass).tableOf (s.modThr Thread.pass).thr) x
              acc.w (s.modThr Thread.pass).thr.launch) ⟨key, pl, pol, va, elem, msch⟩).mem := by
        cases x with
        | none => exact hk _ _ rfl
        | some x => exact ht _ _ _ rfl
      cases pl <;> dsimp only <;> (repeat' split) <;> first
        | exact hm
        | simpa using h0
        | simpa [State.parkBehind] using h0
    · simpa using h0

/-- A release that waits for nothing goes on (R133). -/
theorem State.release_done {s0 s : State} {scope : Nat} (k : State → State) (h1 : s.thr.pend = [])
    (h2 : (if s.thr.phase = 0 then s.core.sbNum else s.thr.phase - 1) ≤ s.performed s.core.id scope)
    (h3 : s.writesOut s.core.id s.thr.frame (if s.thr.phase = 0 then s.core.sbNum else s.thr.phase - 1) = false) :
    s0.release s scope k = k s := by
  simp [State.release, h1, h2, h3]

theorem State.release_keeps (P : Memory → Prop) (s0 s : State) (scope : Nat) (k : State → State) (h0 : P s0.mem) (hk : P (k s).mem) :
    P (s0.release s scope k).mem := by
  unfold State.release
  dsimp only
  generalize (if s.thr.phase = 0 then s.core.sbNum else s.thr.phase - 1) = num
  split
  · exact hk
  · simpa using h0

end Sys2Proof.Machine
end

