-- ==== Sys2Proof/Laws/Writes.lean ====
section
/-! SUPPORT. The operations that write memory keep its canonical form, and the coherence of lines writes none of it. -/

namespace Sys2Proof.Machine

/-! ## Coherence writes no byte -/

@[simp] theorem State.loseResv_mem (s : State) (n : Nat) (p : Thread → Bool) : (s.loseResv n p).mem = s.mem := rfl
@[simp] theorem State.invalDie_mem (s : State) (d n : Nat) : (s.invalDie d n).mem = s.mem := rfl
@[simp] theorem State.downDie_mem (s : State) (d n : Nat) (k : Bool) : (s.downDie d n k).mem = s.mem := rfl
@[simp] theorem State.putDir_mem (s : State) (e : DirEntry) : (s.putDir e).mem = s.mem := rfl
@[simp] theorem State.delDir_mem (s : State) (n : Nat) : (s.delDir n).mem = s.mem := rfl

@[simp] theorem State.snoop_mem (s : State) (n b : Nat) (i : Bool) : (s.snoop n b i).mem = s.mem := by
  unfold State.snoop
  exact ite_mem _ rfl (ite_mem _ rfl rfl)

@[simp] theorem State.dlessRequest_mem (s : State) (n : Nat) (r : CReq) : (s.dlessRequest n r).mem = s.mem := by
  unfold State.dlessRequest
  split
  · split <;> rfl
  · rfl
  · rfl
  · rfl

@[simp] theorem State.pruneDir_mem (s : State) (n : Nat) : (s.pruneDir n).mem = s.mem := by
  unfold State.pruneDir; exact ite_mem _ rfl rfl

@[simp] theorem State.settleDir_mem (s : State) (n a : Nat) (r : CReq) : (s.settleDir n a r).mem = s.mem := by
  unfold State.settleDir
  split <;> simp

@[simp] theorem State.dirRequest_mem (s : State) (a n : Nat) (r : CReq) : (s.dirRequest a n r).mem = s.mem := by
  unfold State.dirRequest
  refine ite_mem _ (by simp) ?_
  dsimp only
  rw [State.countSlice_mem, State.settleDir_mem]
  exact foldl_keeps State.mem (fun s (x : Nat × Bool) => s.snoop n x.1 x.2) (fun s x => State.snoop_mem s n x.1 x.2) _ _

@[simp] theorem State.startRecall_mem (s : State) (n : Nat) : (s.startRecall n).mem = s.mem := by
  unfold State.startRecall
  split
  · split <;> rfl
  · rfl

@[simp] theorem State.countDram_mem (s : State) (n k : Nat) : (s.countDram n k).mem = s.mem := by simp [State.countDram]
@[simp] theorem State.mscPut_mem (s : State) (b : MscBlock) (n : Nat) : (s.mscPut b n).mem = s.mem := by simp [State.mscPut]

@[simp] theorem State.mscRead_mem (s : State) (n h l : Nat) : (s.mscRead n h l).mem = s.mem := by
  unfold State.mscRead
  dsimp only
  split
  · exact ite_mem _ (by simp) (by simp)
  · exact ite_mem _ (by simp) (by simp)

@[simp] theorem State.mscWrite_mem (s : State) (a n h k : Nat) : (s.mscWrite a n h k).mem = s.mem := by
  unfold State.mscWrite
  exact ite_mem _ (by simp) (by simp)

@[simp] theorem State.combine_mem (s : State) (a n : Nat) : (s.combine a n).mem = s.mem := by
  unfold State.combine
  exact ite_mem _ rfl rfl

/-- A write below the caches changes what the slices hold, and no byte. -/
@[simp] theorem State.writeBelow_mem (s : State) (a n p h k : Nat) : (s.writeBelow a n p h k).mem = s.mem := by
  unfold State.writeBelow
  exact ite_mem _ rfl (ite_mem _ (by simp) (by simp))

@[simp] theorem State.writeBack_mem (s : State) (n : Nat) : (s.writeBack n).mem = s.mem := by simp [State.writeBack]

@[simp] theorem State.passOwner_mem (s : State) (d n : Nat) : (s.passOwner d n).mem = s.mem := by
  unfold State.passOwner
  dsimp only
  split <;> simp

@[simp] theorem State.giveRequest_mem (s : State) (d n : Nat) (r : CReq) : (s.giveRequest d n r).mem = s.mem := by
  unfold State.giveRequest
  refine ite_mem _ (ite_mem _ rfl rfl) ?_
  dsimp only
  rw [State.dirRequest_mem]
  exact ite_mem _ (by simp) rfl

@[simp] theorem State.leaveL2_mem (s : State) (d : Nat) (x : L1Line) : (s.leaveL2 d x).mem = s.mem := by
  unfold State.leaveL2
  exact ite_mem _ (ite_mem _ (by simp) rfl) (ite_mem _ (ite_mem _ (by simp) rfl) (ite_mem _ (by simp) (ite_mem _ (by simp) (by simp))))

@[simp] theorem State.putL2_mem (s : State) (d n : Nat) (p : Perm) : (s.putL2 d n p).mem = s.mem := by
  unfold State.putL2
  dsimp only
  split <;> simp

@[simp] theorem State.putL1_mem (s : State) (c n : Nat) (p : Perm) : (s.putL1 c n p).mem = s.mem := by
  unfold State.putL1
  dsimp only
  split <;> simp

@[simp] theorem State.fillSeam_mem (s : State) (d n : Nat) (x h : Bool) : (s.fillSeam d n x h).mem = s.mem := by
  unfold State.fillSeam
  exact ite_mem _ rfl (by simp)

@[simp] theorem State.recordDie_mem (s : State) (d n : Nat) : (s.recordDie d n).mem = s.mem := by
  unfold State.recordDie
  exact ite_mem _ rfl rfl

@[simp] theorem State.fill_mem (s : State) (c : Nat) (l : Loc) (x : Bool) (k : Nat) : (s.fill c l x k).mem = s.mem := by
  unfold State.fill
  refine ite_mem _ (by simp) (ite_mem _ ?_ ?_)
  · rw [State.putL1_mem]
    dsimp only
    rw [State.modCores_mem, State.loseResv_mem]
    exact ite_mem _ (by simp) (by simp)
  · rw [State.recordDie_mem, State.putL1_mem, State.downDie_mem]
    exact ite_mem _ (by simp) (by simp)

@[simp] theorem State.fillLoc_mem (s : State) (c : Nat) (l : Loc) (x : Bool) (k : Nat) : (s.fillLoc c l x k).mem = s.mem := by
  unfold State.fillLoc
  split <;> try rfl
  split <;> simp

@[simp] theorem State.recallLine_mem (s : State) (n : Nat) : (s.recallLine n).mem = s.mem := by
  unfold State.recallLine
  rw [State.delDir_mem]
  exact (foldl_keeps State.mem _ (fun s d => State.invalDie_mem s d n) _ _).trans (ite_mem _ (by simp) rfl)

@[simp] theorem State.cleanLine_mem (s : State) (n : Nat) : (s.cleanLine n).mem = s.mem := by
  unfold State.cleanLine
  exact (foldl_keeps State.mem (fun s d => s.downDie d n false) (fun s d => State.downDie_mem s d n false) _ _).trans (ite_mem _ (by simp) rfl)

@[simp] theorem State.takeLine_mem (s : State) (n a : Nat) (x : Bool) : (s.takeLine n a x).mem = s.mem := by
  have h1 : ∀ (c : Bool) r, (if c then s.dirRequest a n r else s).mem = s.mem := fun c r => ite_mem _ (by simp) rfl
  have h2 : ∀ (c : Bool) (t : State), t.mem = s.mem → (if c then t.writeBack n else t).mem = s.mem := fun c t ht => ite_mem _ (by simp [ht]) ht
  have h3 : ∀ (c : Bool) (t : State), t.mem = s.mem → (if c then t.cleanLine n else t).mem = s.mem := fun c t ht => ite_mem _ (by simp [ht]) ht
  unfold State.takeLine
  dsimp only
  refine ite_mem _ (ite_mem _ ?_ ?_) (ite_mem _ ?_ ?_)
  · rw [State.dirRequest_mem, State.invalDie_mem, h2 _ _ (h1 _ _)]
  · rw [State.invalDie_mem, h2 _ _ (h1 _ _)]
  · rw [State.dirRequest_mem, h3 _ _ (h1 _ _)]
  · rw [h3 _ _ (h1 _ _)]

@[simp] theorem State.agentTake_mem (s : State) (l : Loc) (x : Bool) (k : Nat) : (s.agentTake l x k).mem = s.mem := by
  unfold State.agentTake
  dsimp only
  split
  · exact ite_mem _ (by simp) (by simp)
  · simp
  · simp
  · rfl

@[simp] theorem State.reach_mem (s : State) (c : Nat) (l : Loc) (x : Bool) (k : Nat) : (s.reach c l x k).mem = s.mem := by
  unfold State.reach
  exact ite_mem _ (by simp) (by simp)

@[simp] theorem State.request_mem (s : State) (k : ReqKind) (l : Loc) (r : Bool) (c : Nat) (w : Option Nat) :
    (s.request k l r c w).mem = s.mem := by
  unfold State.request State.requestAt
  dsimp only
  exact ite_mem _ (by simp) rfl

/-! ## Marks of translations (R118) -/

theorem State.markWalk_wf {s : State} (w : s.mem.wf = true) (x : Xlate) (st : Bool) : (s.markWalk x st).mem.wf = true := by
  have h1 : cellsFrom 0 (x.walked.foldl (fun b a => orEntry b a 1024) s.mem.bytes) = true :=
    foldl_inv (fun b => cellsFrom 0 b = true) _ (fun b a h => cellsFrom_orEntry b a 1024 h) _ _ ((Memory.wf_iff _).1 w).1
  exact Memory.wf_bytes w (by split; exacts [cellsFrom_orEntry _ x.at_ 2048 h1, h1])

theorem State.tenantMark_wf {s : State} (w : s.mem.wf = true) (c n : Nat) (va : Word) (st : Bool) : (s.tenantMark c n va st).mem.wf = true := by
  unfold State.tenantMark
  split
  · exact State.markWalk_wf w _ _
  · exact w

theorem State.depScan_wf {s : State} (w : s.mem.wf = true) : s.depScan.mem.wf = true := by
  unfold State.depScan
  dsimp only
  split
  · exact w
  · exact foldl_inv (fun t : State => t.mem.wf = true) _
      (fun t l h => by split; exacts [State.tenantMark_wf h _ _ _ _, h]) _ s w

theorem State.depScan_mem {s : State} (h : s.noDeps) : s.depScan.mem = s.mem := by
  unfold State.depScan
  dsimp only
  split
  · rfl
  · show (List.foldl _ s _).mem = s.mem
    have key : ∀ (ls : List Launch), (∀ l ∈ ls, l.info.depk ≠ 1) → ∀ t : State,
        (ls.foldl (fun s l => if l.info.depk = 1 then s.tenantMark (s.originOf l.info) l.info.tenant l.info.depv false else s) t).mem = t.mem := by
      intro ls
      induction ls with
      | nil => intro _ t; rfl
      | cons l r ih =>
        intro hl t
        rw [List.foldl_cons, if_neg (hl l (List.mem_cons_self ..))]
        exact ih (fun x hx => hl x (List.mem_cons_of_mem _ hx)) t
    refine key _ (fun l hl => ?_) s
    obtain ⟨h1, h2⟩ := List.mem_filter.1 hl
    rw [Bool.and_eq_true] at h2
    exact h l h1 (by simpa using h2.1)

/-! ## Writing -/

/-- What a store of bytes leaves in memory: the bytes written, and the marks of a dependence that it meets (R75, R118). -/
theorem State.putBytes_mem {s : State} (h : s.noDeps) (a n v : Nat) : (s.putBytes a n v).mem = s.mem.write a n v := by
  unfold State.putBytes
  rw [State.depScan_mem]
  · rfl
  · exact h

theorem State.putBytes_wf {s : State} (w : s.mem.wf = true) (a n v : Nat) : (s.putBytes a n v).mem.wf = true := by
  unfold State.putBytes
  exact State.depScan_wf (Memory.wf_write w _ _ _)

theorem State.engineWrite_wf {s : State} (w : s.mem.wf = true) (l : Loc) (n v k : Nat) : (s.engineWrite l n v k).mem.wf = true := by
  have h : ((s.agentTake l true k).putBytes l.key n v).mem.wf = true := State.putBytes_wf (by simpa using w) _ _ _
  unfold State.engineWrite
  dsimp only
  split
  · exact h
  · exact h
  · rw [State.writeBelow_mem]; exact h

/-- An injection changes memory only by a poison mark, and none is met where none is armed (R349). -/
theorem State.inject_wf {s : State} (w : s.mem.wf = true) (a : Nat) (b : Bool) : (s.inject a b).mem.wf = true := by
  unfold State.inject
  dsimp only
  split
  · split
    · split
      · split
        · show ((s.modCore _ Core.disarm).mem.setPoison a true).wf = true
          rw [State.modCore_mem]; exact Memory.wf_setPoison w _ _
        · simpa using w
      · simpa using w
    · exact w
  · exact w

theorem State.inject_calm {s : State} (h : ∀ n, (s.coreOf n).errinj.getLsbD 7 = false) (a : Nat) (b : Bool) : s.inject a b = s := by
  unfold State.inject
  dsimp only
  split
  · rw [h]; simp
  · rfl

theorem State.injectIn_wf {s : State} (w : s.mem.wf = true) (r : Nat × Nat) (b : Bool) : (s.injectIn r b).mem.wf = true := by
  unfold State.injectIn
  dsimp only
  split
  · exact State.inject_wf w _ _
  · exact w

theorem State.injectIn_calm {s : State} (h : ∀ n, (s.coreOf n).errinj.getLsbD 7 = false) (r : Nat × Nat) (b : Bool) : s.injectIn r b = s := by
  unfold State.injectIn
  dsimp only
  split
  · exact State.inject_calm h _ _
  · rfl

theorem State.injectAll_wf {s : State} (w : s.mem.wf = true) (rs : List (Nat × Nat)) (b : Bool) : (s.injectAll rs b).mem.wf = true :=
  foldl_inv (fun t : State => t.mem.wf = true) _ (fun _ r h => State.injectIn_wf h r b) rs s w

theorem State.injectAll_calm {s : State} (h : ∀ n, (s.coreOf n).errinj.getLsbD 7 = false) (rs : List (Nat × Nat)) (b : Bool) :
    s.injectAll rs b = s := by
  unfold State.injectAll
  induction rs with
  | nil => rfl
  | cons r rs ih => rw [List.foldl_cons, State.injectIn_calm h]; exact ih

theorem State.writeLoc_wf {s : State} (w : s.mem.wf = true) (l : Loc) (n v : Nat) : (s.writeLoc l n v).1.mem.wf = true := by
  unfold State.writeLoc
  split
  · split
    · exact State.putBytes_wf (State.inject_wf w _ _) _ _ _
    · exact State.putBytes_wf (State.injectAll_wf w _ _) _ _ _
  · exact State.putBytes_wf w _ _ _

theorem State.loadNow_wf {s : State} (w : s.mem.wf = true) (l : Loc) (n : Nat) (sx : Bool) : (s.loadNow l n sx).1.mem.wf = true := by
  unfold State.loadNow
  dsimp only
  split
  · rw [State.countCore_mem]; exact State.injectAll_wf w _ _
  · exact State.injectAll_wf w _ _

theorem ite_wf (c : Prop) [Decidable c] {a b : State} (ha : a.mem.wf = true) (hb : b.mem.wf = true) :
    (if c then a else b).mem.wf = true := by
  split
  · exact ha
  · exact hb

/-- A translation marks entries of its tables, in the same form (R118, R120). -/
theorem State.fillTlb_wf {s : State} (w : s.mem.wf = true) (c : Nat) (x : Option Nat) (y : Xlate) (st : Bool) :
    (s.fillTlb c x y st).mem.wf = true := by
  have h1 : cellsFrom 0 (y.walked.foldl (fun b a => orEntry b a 1024) s.mem.bytes) = true :=
    foldl_inv (fun b => cellsFrom 0 b = true) _ (fun b a h => cellsFrom_orEntry b a 1024 h) _ _ ((Memory.wf_iff _).1 w).1
  have h2 := cellsFrom_orEntry _ y.at_ 2048 h1
  unfold State.fillTlb
  dsimp only
  split
  · exact w
  · have h3 : ∀ bs : List Host.Cell, cellsFrom 0 bs = true → ({ s with mem := { s.mem with bytes := bs } } : State).mem.wf = true :=
      fun bs h => Memory.wf_bytes w h
    refine ite_wf _ ?_ ?_
    · rw [State.modCore_mem]; exact h3 _ (by split <;> assumption)
    · rw [State.modCluster_mem, State.modCore_mem]; exact h3 _ (by split <;> assumption)

theorem State.touch_wf {s : State} (w : s.mem.wf = true) (c : Nat) (x : Option Nat) (y : Xlate) (st : Bool) (l : Nat) :
    (s.touch c x y st l).mem.wf = true := by
  have h4 : (if y.l1 then s else s.countCore c 0x016 l).mem.wf = true := ite_wf _ w (by simpa using w)
  unfold State.touch
  exact State.fillTlb_wf (ite_wf _ h4 (by simpa using h4)) _ _ _ _

/-- Words stored by the spill engine (R205, R207). -/
theorem State.putWords_wf (core launch tenant : Nat) (ws : List Word) : ∀ (s : State) (va : Word), s.mem.wf = true →
    (s.putWords core launch tenant va ws).mem.wf = true := by
  induction ws with
  | nil => intro s va w; exact w
  | cons x r ih =>
    intro s va w
    simp only [State.putWords]
    split
    · exact w
    · refine ih _ _ ?_
      have h : ∀ t : State, t.mem.wf = true → (if va.toNat % 64 = 0 then t.tenantMark core tenant va true else t).mem.wf = true := by
        intro t ht
        split
        · exact State.tenantMark_wf ht _ _ _ _
        · exact ht
      exact h _ (by split <;> exact State.engineWrite_wf w _ _ _ _)

/-- Poison that the ECC space alone holds, once it is read so (R106). -/
theorem State.settleEcc_wf {s : State} (w : s.mem.wf = true) : s.settleEcc.mem.wf = true :=
  foldl_inv (fun m : Memory => m.wf = true) _ (fun _ _ h => Memory.wf_setPoison h _ _) _ _ w

/-! ## Fields that a store of bytes leaves alone -/

@[simp] theorem State.tenantMark_thr (s : State) (c n : Nat) (va : Word) (st : Bool) : (s.tenantMark c n va st).thr = s.thr := by
  unfold State.tenantMark; split <;> rfl
@[simp] theorem State.tenantMark_core (s : State) (c n : Nat) (va : Word) (st : Bool) : (s.tenantMark c n va st).core = s.core := by
  unfold State.tenantMark; split <;> rfl
@[simp] theorem State.tenantMark_threads (s : State) (c n : Nat) (va : Word) (st : Bool) : (s.tenantMark c n va st).threads = s.threads := by
  unfold State.tenantMark; split <;> rfl
@[simp] theorem State.tenantMark_cores (s : State) (c n : Nat) (va : Word) (st : Bool) : (s.tenantMark c n va st).cores = s.cores := by
  unfold State.tenantMark; split <;> rfl

/-- A field that marks leave alone, dependences met leave alone. -/
theorem State.depScan_keeps {γ : Type} (g : State → γ) (h1 : ∀ (s : State) c n va st, g (s.tenantMark c n va st) = g s)
    (h2 : ∀ (s : State) (l : Launcher), g { s with launcher := l } = g s) (s : State) : g s.depScan = g s := by
  unfold State.depScan
  dsimp only
  split
  · rfl
  · rw [h2]
    exact foldl_keeps g _ (fun t l => by split; exacts [h1 _ _ _ _ _, rfl]) _ s

@[simp] theorem State.depScan_thr (s : State) : s.depScan.thr = s.thr := State.depScan_keeps State.thr (by simp) (fun _ _ => rfl) s
@[simp] theorem State.depScan_core (s : State) : s.depScan.core = s.core := State.depScan_keeps State.core (by simp) (fun _ _ => rfl) s
@[simp] theorem State.depScan_threads (s : State) : s.depScan.threads = s.threads :=
  State.depScan_keeps State.threads (by simp) (fun _ _ => rfl) s
@[simp] theorem State.depScan_cores (s : State) : s.depScan.cores = s.cores := State.depScan_keeps State.cores (by simp) (fun _ _ => rfl) s
@[simp] theorem State.putBytes_core (s : State) (a n v : Nat) : (s.putBytes a n v).core = s.core := by
  simp [State.putBytes, State.loseResv]
@[simp] theorem State.putBytes_cores (s : State) (a n v : Nat) : (s.putBytes a n v).cores = s.cores := by
  simp [State.putBytes, State.loseResv]

end Sys2Proof.Machine
end

