-- ==== Sys2Proof/Tests/Slice0.lean ====
section
/-! SUPPORT. The model's own tests: words written out from the format tables, ill-formed terms, results worked by hand from the
rules, and for every statement with hypotheses a state that meets them, clause by clause, at the ends of the ranges. -/

open Sys2Proof Sys2Proof.Machine

/- One theorem after another: their kernel checks side by side need more memory than they save time. -/
set_option Elab.async false

namespace Sys2Proof.Tests

/-! ## Small states -/

/-- The state after reset with a thread of launch 1 on core 0, NOP next. -/
def base : State := { State.reset.withFetchWord 32 0x22000000 with agenda := [] }

/-- Registers written. -/
def withG (s : State) (l : List (Fin 16 × Word)) : State :=
  s.modThr fun t => { t with g := l.foldl (fun g x => g.set x.1 x.2) t.g }

/-- The answer is a next state of which something holds. -/
def ok (a : Answer) (f : State → Bool) : Bool := match a with
  | .next t => f t
  | _ => false

/-- The sources of a short word can be read, and something holds of the state and the values. -/
def rd (s : State) (srcs : List Src) (d : Dst) (f : State → List Word → Bool) : Bool := match s.reads srcs d with
  | some (s1, vs) => f s1 vs
  | none => false

/-- So can those of a long word. -/
def rdl (s : State) (srcs : List Src) (d : Dst) (f : State → List Word → Bool) : Bool := match s.readsLong srcs d with
  | some (s1, vs) => f s1 vs
  | none => false

/-- An access passes, and something holds of the state and the place. -/
def ac (s : State) (a : Word) (x : Acc) (r w : Bool) (f : State → Loc → Bool) : Bool := match s.accessed a x r w with
  | some (s1, l) => f s1 l
  | none => false

/-- A word of the own scratchpad, and of core 1's. -/
abbrev own (off : Nat) : Word := BitVec.ofNat 64 (0xFFFFFF0000000000 + off)
abbrev far (off : Nat) : Word := BitVec.ofNat 64 (0xFFFFFE0000100000 + off)


/-! ## Decoding and well-formedness -/

/-- The word decodes to the instruction. -/
def reads (w : BitVec 32) (i : Instr) : Bool := match decode w with
  | .ok j => j == i
  | .error _ => false

/-- Words of the tables of R262, field by field. -/
theorem test_decode_alu : ([
    reads 0x00510C09 (.sub ⟨false, .g 5, .g 2, .g 3, true⟩),
    reads 0x81184918 (.selz ⟨true, .qdn, .qup, .qrx⟩),
    reads 0x0011010A (.sext ⟨false, .g 1, .g 2, .b32⟩),
    reads 0x00110D23 (.lea ⟨false, .g 1, .g 2, .g 3, 3⟩),
    reads 0x001100E1 (.clz ⟨false, .g 1, .g 2, true⟩)] : List Bool).all id = true := by decide +kernel

/-- Words of the tables of R259, R261, field by field. -/
theorem test_decode_imm : ([
    reads 0x0243FFFD (.addi ⟨false, .g 4, .g 7, 0x7FFD⟩),
    reads 0x0A4380FF (.shi ⟨false, .g 4, .g 7, .ror, 63⟩),
    reads 0x128ABCDE (.lui ⟨false, .g 8, 0xABCDE⟩),
    reads 0x14800005 (.lhi ⟨false, .g 8, 5⟩),
    reads 0x17F00001 (.lpc ⟨false, .gz, 1⟩)] : List Bool).all id = true := by decide +kernel

/-- Words of the tables of R263, field by field. -/
theorem test_decode_fpu : ([
    reads 0x1A110CA7 (.fma ⟨false, .g 1, .g 2, .g 3, .d, .dyn⟩),
    reads 0x1A11026F (.fkey ⟨false, .g 1, .g 2, true⟩),
    reads 0x1A111A1A (.fcvt ⟨false, .g 1, .g 2, true, .h, .b, .rdn⟩),
    reads 0x1A11035F (.ftanh ⟨false, .g 1, .g 2, true⟩)] : List Bool).all id = true := by decide +kernel

/-- Words of the tables of R264, field by field. -/
theorem test_decode_ctl : ([
    reads 0x1CC32400 (.bbs ⟨false, .g 3, .g 4, 0x400⟩),
    reads 0x1E0FFFFF (.j ⟨false, 0xFFFFF⟩),
    reads 0x20F00002 (.jal ⟨false, .g 15, 2⟩),
    reads 0x22F18010 (.jalr ⟨false, .g 15, .g 3⟩),
    reads 0x22000000 (.nop ⟨false⟩),
    reads 0x22000020 (.yield ⟨false⟩)] : List Bool).all id = true := by decide +kernel

/-- Words of the tables of R265, R266, field by field. -/
theorem test_decode_mem : ([
    reads 0x24241FFF (.ldb ⟨false, .g 2, .g 8, 0x1FFF⟩),
    reads 0x26244004 (.ldwz ⟨false, .g 2, .g 8, 4⟩),
    reads 0x28247FF8 (.std ⟨false, .g 2, .g 8, 0x1FF8⟩),
    reads 0x2A246000 (.ldk ⟨false, .g 2, .g 8, 0⟩),
    reads 0x32344040 (.pref ⟨false, .g 8, 2, 64⟩),
    reads 0x32440000 (.wswait ⟨false, .g 8, 0⟩)] : List Bool).all id = true := by decide +kernel

/-- Words of the tables of R267, R268, field by field. -/
theorem test_decode_memo : ([
    reads 0x2C100D90 (.lda ⟨false, .g 1, .g 3, 1, 9⟩),
    reads 0x2C010F63 (.stsc ⟨false, .g 2, .g 3, 6⟩),
    reads 0x2CF0035D (.fence ⟨false, 15, 3, 5⟩),
    reads 0x2C100C09 (.fetst ⟨false, .g 1, .g 3, 0⟩),
    reads 0x2E110E49 (.acas ⟨false, .g 1, .g 2, .g 3, 2, 4⟩),
    reads 0x30110C0A (.aaddAgg ⟨false, .g 1, .g 2, .g 3⟩)] : List Bool).all id = true := by decide +kernel

/-- Words of the tables of R269, field by field. -/
theorem test_decode_task : ([
    reads 0x34110C38 (.fork ⟨false, .g 1, .g 2, .g 3⟩),
    reads 0x34010C9D (.incu ⟨false, .g 2, .g 3, 5⟩),
    reads 0x34100CA7 (.incr ⟨false, .g 1, .g 3, 7⟩),
    reads 0x340100A8 (.launch ⟨false, .g 2⟩),
    reads 0x36000003 (.spawn ⟨false, 3⟩),
    reads 0x380FFFFD (.tcall ⟨false, 0xFFFFD⟩),
    reads 0x3A013FFF (.sendi ⟨false, .g 2, 0x3FFF⟩)] : List Bool).all id = true := by decide +kernel

/-- Words of the tables of R270, field by field. -/
theorem test_decode_sys : ([
    reads 0x48010C34 (.incinit ⟨false, .g 2, .g 3, 4⟩),
    reads 0x48010040 (.brk ⟨false, .g 2⟩),
    reads 0x4A0101FF (.eset ⟨false, .g 2, 511⟩),
    reads 0x4C100003 (.eget ⟨false, .g 1, 3⟩),
    reads 0x4E1041FF (.mfs ⟨false, .g 1, 0x41FF⟩),
    reads 0x50017FFF (.mts ⟨false, .g 2, 0x7FFF⟩)] : List Bool).all id = true := by decide +kernel

/-- Words of the tables of R271, R272, field by field. -/
theorem test_decode_eng : ([
    reads 0x3E110020 (.movh ⟨false, .g 1, .g 2⟩),
    reads 0x43F10C13 (.cpyx ⟨false, .gz, .g 2, .g 3, 3⟩),
    reads 0x44110C3F (.mld ⟨false, .g 1, .g 2, .g 3, 15⟩),
    reads 0x46100010 (.bqnext ⟨false, .g 1⟩),
    reads 0x40F3A004 (.vadd ⟨false, 15, 7, 8, .i32⟩),
    reads 0x40000140 (.vfence ⟨false⟩)] : List Bool).all id = true := by decide +kernel

/-- One word of each instruction, its fixed bits and its fields as the opcode table places them (rules R280 to R283). -/
theorem test_decode_row_0 : ([
    reads 0x0054B001 (.add ⟨false, .g 5, .g 9, .g 12, true⟩),
    reads 0x8054B009 (.sub ⟨true, .g 5, .g 9, .g 12, true⟩),
    reads 0x0054B010 (.and ⟨false, .g 5, .g 9, .g 12⟩),
    reads 0x8054B018 (.or ⟨true, .g 5, .g 9, .g 12⟩),
    reads 0x0054B020 (.xor ⟨false, .g 5, .g 9, .g 12⟩),
    reads 0x8054B028 (.andn ⟨true, .g 5, .g 9, .g 12⟩),
    reads 0x0054B030 (.orn ⟨false, .g 5, .g 9, .g 12⟩),
    reads 0x8054B038 (.xnor ⟨true, .g 5, .g 9, .g 12⟩),
    reads 0x0054B041 (.sll ⟨false, .g 5, .g 9, .g 12, true⟩),
    reads 0x8054B049 (.srl ⟨true, .g 5, .g 9, .g 12, true⟩),
    reads 0x0054B051 (.sra ⟨false, .g 5, .g 9, .g 12, true⟩),
    reads 0x8054B059 (.rol ⟨true, .g 5, .g 9, .g 12, true⟩),
    reads 0x0054B061 (.ror ⟨false, .g 5, .g 9, .g 12, true⟩),
    reads 0x8054B068 (.min ⟨true, .g 5, .g 9, .g 12⟩),
    reads 0x0054B070 (.max ⟨false, .g 5, .g 9, .g 12⟩),
    reads 0x8054B078 (.minu ⟨true, .g 5, .g 9, .g 12⟩),
    reads 0x0054B080 (.maxu ⟨false, .g 5, .g 9, .g 12⟩),
    reads 0x8054B088 (.slt ⟨true, .g 5, .g 9, .g 12⟩),
    reads 0x0054B090 (.sltu ⟨false, .g 5, .g 9, .g 12⟩),
    reads 0x8054B098 (.seq ⟨true, .g 5, .g 9, .g 12⟩),
    reads 0x0054B0A0 (.sne ⟨false, .g 5, .g 9, .g 12⟩),
    reads 0x8054B0A9 (.mul ⟨true, .g 5, .g 9, .g 12, true⟩)] : List Bool).all id = true := by decide +kernel

/-- One word of each instruction, its fixed bits and its fields as the opcode table places them (rules R282 to R288). -/
theorem test_decode_row_1 : ([
    reads 0x0054B0B1 (.mulh ⟨false, .g 5, .g 9, .g 12, true⟩),
    reads 0x8054B0B9 (.mulhu ⟨true, .g 5, .g 9, .g 12, true⟩),
    reads 0x0054B0C1 (.div ⟨false, .g 5, .g 9, .g 12, true⟩),
    reads 0x8054B0C9 (.divu ⟨true, .g 5, .g 9, .g 12, true⟩),
    reads 0x0054B0D1 (.rem ⟨false, .g 5, .g 9, .g 12, true⟩),
    reads 0x8054B0D9 (.remu ⟨true, .g 5, .g 9, .g 12, true⟩),
    reads 0x005480E1 (.clz ⟨false, .g 5, .g 9, true⟩),
    reads 0x805480E9 (.ctz ⟨true, .g 5, .g 9, true⟩),
    reads 0x005480F1 (.popc ⟨false, .g 5, .g 9, true⟩),
    reads 0x805480F9 (.brev ⟨true, .g 5, .g 9, true⟩),
    reads 0x00548101 (.bswap ⟨false, .g 5, .g 9, true⟩),
    reads 0x80548109 (.sext ⟨true, .g 5, .g 9, .b16⟩),
    reads 0x00548111 (.zext ⟨false, .g 5, .g 9, .b16⟩),
    reads 0x8054B118 (.selz ⟨true, .g 5, .g 9, .g 12⟩),
    reads 0x0054B122 (.lea ⟨false, .g 5, .g 9, .g 12, 2⟩),
    reads 0x8254DABC (.addi ⟨true, .g 5, .g 9, 0x5ABC⟩),
    reads 0x0454DABC (.andi ⟨false, .g 5, .g 9, 0x5ABC⟩),
    reads 0x8654DABC (.ori ⟨true, .g 5, .g 9, 0x5ABC⟩),
    reads 0x0854DABC (.xori ⟨false, .g 5, .g 9, 0x5ABC⟩),
    reads 0x8A5480A5 (.shi ⟨true, .g 5, .g 9, .sra, 37⟩),
    reads 0x0C54DABC (.slti ⟨false, .g 5, .g 9, 0x5ABC⟩),
    reads 0x8E54DABC (.sltiu ⟨true, .g 5, .g 9, 0x5ABC⟩)] : List Bool).all id = true := by decide +kernel

/-- One word of each instruction, its fixed bits and its fields as the opcode table places them (rules R287 to R296). -/
theorem test_decode_row_2 : ([
    reads 0x1054DABC (.muli ⟨false, .g 5, .g 9, 0x5ABC⟩),
    reads 0x9259ABCD (.lui ⟨true, .g 5, 0x9ABCD⟩),
    reads 0x1459ABCD (.lhi ⟨false, .g 5, 0x9ABCD⟩),
    reads 0x9659ABCD (.lpc ⟨true, .g 5, 0x9ABCD⟩),
    reads 0x1854AABC (.leap ⟨false, .g 5, .g 9, 0x2ABC⟩),
    reads 0x9A54B013 (.fadd ⟨true, .g 5, .g 9, .g 12, .h, .rup⟩),
    reads 0x1A54B033 (.fsub ⟨false, .g 5, .g 9, .g 12, .h, .rup⟩),
    reads 0x9A54B053 (.fmul ⟨true, .g 5, .g 9, .g 12, .h, .rup⟩),
    reads 0x1A54B073 (.fdiv ⟨false, .g 5, .g 9, .g 12, .h, .rup⟩),
    reads 0x9A54808C (.fsqrt ⟨true, .g 5, .g 9, .s, .rna⟩),
    reads 0x1A54B0B9 (.fma ⟨false, .g 5, .g 9, .g 12, .b, .rz⟩),
    reads 0x9A54B0D9 (.fms ⟨true, .g 5, .g 9, .g 12, .b, .rz⟩),
    reads 0x1A54B0F7 (.fmin ⟨false, .g 5, .g 9, .g 12, .h⟩),
    reads 0x9A54B117 (.fmax ⟨true, .g 5, .g 9, .g 12, .h⟩),
    reads 0x1A54812F (.fabs ⟨false, .g 5, .g 9, .s⟩),
    reads 0x9A54814F (.fneg ⟨true, .g 5, .g 9, .s⟩),
    reads 0x1A54B177 (.fcpys ⟨false, .g 5, .g 9, .g 12, .h⟩),
    reads 0x9A54B197 (.feq ⟨true, .g 5, .g 9, .g 12, .h⟩),
    reads 0x1A54B1B7 (.flt ⟨false, .g 5, .g 9, .g 12, .h⟩),
    reads 0x9A54B1D7 (.fle ⟨true, .g 5, .g 9, .g 12, .h⟩),
    reads 0x1A5481EF (.fclass ⟨false, .g 5, .g 9, .s⟩),
    reads 0x9A549E0A (.fcvt ⟨true, .g 5, .g 9, true, .b, .s, .rdn⟩)] : List Bool).all id = true := by decide +kernel

/-- One word of each instruction, its fixed bits and its fields as the opcode table places them (rules R296 to R306). -/
theorem test_decode_row_3 : ([
    reads 0x1A54822C (.fcvti ⟨false, .g 5, .g 9, .s, .rna⟩),
    reads 0x9A54824C (.icvtf ⟨true, .g 5, .g 9, .s, .rna⟩),
    reads 0x1A54826F (.fkey ⟨false, .g 5, .g 9, true⟩),
    reads 0x9A54829F (.fex2 ⟨true, .g 5, .g 9, true⟩),
    reads 0x1A5482BF (.flg2 ⟨false, .g 5, .g 9, true⟩),
    reads 0x9A5482DF (.frcp ⟨true, .g 5, .g 9, true⟩),
    reads 0x1A5482FF (.frsq ⟨false, .g 5, .g 9, true⟩),
    reads 0x9A54831F (.fsin ⟨true, .g 5, .g 9, true⟩),
    reads 0x1A54833F (.fcos ⟨false, .g 5, .g 9, true⟩),
    reads 0x9A54835F (.ftanh ⟨true, .g 5, .g 9, true⟩),
    reads 0x1C0965A3 (.beq ⟨false, .g 9, .g 12, 0x5A3⟩),
    reads 0x9C2965A3 (.bne ⟨true, .g 9, .g 12, 0x5A3⟩),
    reads 0x1C4965A3 (.blt ⟨false, .g 9, .g 12, 0x5A3⟩),
    reads 0x9C6965A3 (.bge ⟨true, .g 9, .g 12, 0x5A3⟩),
    reads 0x1C8965A3 (.bltu ⟨false, .g 9, .g 12, 0x5A3⟩),
    reads 0x9CA965A3 (.bgeu ⟨true, .g 9, .g 12, 0x5A3⟩),
    reads 0x1CC965A3 (.bbs ⟨false, .g 9, .g 12, 0x5A3⟩),
    reads 0x9CE965A3 (.bbc ⟨true, .g 9, .g 12, 0x5A3⟩),
    reads 0x1E09ABCD (.j ⟨false, 0x9ABCD⟩),
    reads 0xA059ABCD (.jal ⟨true, .g 5, 0x9ABCD⟩),
    reads 0x22000000 (.nop ⟨false⟩),
    reads 0xA2048008 (.jr ⟨true, .g 9⟩)] : List Bool).all id = true := by decide +kernel

/-- One word of each instruction, its fixed bits and its fields as the opcode table places them (rules R301 to R318). -/
theorem test_decode_row_4 : ([
    reads 0x22548010 (.jalr ⟨false, .g 5, .g 9⟩),
    reads 0xA2000018 (.halt ⟨true⟩),
    reads 0x22000020 (.yield ⟨false⟩),
    reads 0xA4561A5C (.ldb ⟨true, .g 5, .g 12, 0x1A5C⟩),
    reads 0x24563A5C (.ldh ⟨false, .g 5, .g 12, 0x1A5C⟩),
    reads 0xA4565A5C (.ldw ⟨true, .g 5, .g 12, 0x1A5C⟩),
    reads 0x24567A5C (.ldd ⟨false, .g 5, .g 12, 0x1A5C⟩),
    reads 0xA6561A5C (.ldbz ⟨true, .g 5, .g 12, 0x1A5C⟩),
    reads 0x26563A5C (.ldhz ⟨false, .g 5, .g 12, 0x1A5C⟩),
    reads 0xA6565A5C (.ldwz ⟨true, .g 5, .g 12, 0x1A5C⟩),
    reads 0x28561A5C (.stb ⟨false, .g 5, .g 12, 0x1A5C⟩),
    reads 0xA8563A5C (.sth ⟨true, .g 5, .g 12, 0x1A5C⟩),
    reads 0x28565A5C (.stw ⟨false, .g 5, .g 12, 0x1A5C⟩),
    reads 0xA8567A5C (.std ⟨true, .g 5, .g 12, 0x1A5C⟩),
    reads 0x2A567A5C (.ldk ⟨false, .g 5, .g 12, 0x1A5C⟩),
    reads 0xAC503180 (.lda ⟨true, .g 5, .g 12, 1, 8⟩),
    reads 0x2C04B281 (.stl ⟨false, .g 9, .g 12, 2, 8⟩),
    reads 0xAC503352 (.ldsc ⟨true, .g 5, .g 12, 5⟩),
    reads 0x2C04B353 (.stsc ⟨false, .g 9, .g 12, 5⟩),
    reads 0xAC503054 (.ldf ⟨true, .g 5, .g 12, 5⟩),
    reads 0x2C503055 (.ldfe ⟨false, .g 5, .g 12, 5⟩),
    reads 0xAC04B056 (.stf ⟨true, .g 9, .g 12, 5⟩)] : List Bool).all id = true := by decide +kernel

/-- One word of each instruction, its fixed bits and its fields as the opcode table places them (rules R318 to R328). -/
theorem test_decode_row_5 : ([
    reads 0x2C04B057 (.stef ⟨false, .g 9, .g 12, 5⟩),
    reads 0xAC003058 (.sete ⟨true, .g 12, 5⟩),
    reads 0x2C503059 (.fetst ⟨false, .g 5, .g 12, 5⟩),
    reads 0xAC50318A (.lres ⟨true, .g 5, .g 12, 1, 8⟩),
    reads 0x2C54B28B (.scon ⟨false, .g 5, .g 9, .g 12, 2, 8⟩),
    reads 0xAC50300C (.wrs ⟨true, .g 5, .g 12⟩),
    reads 0x2C60005D (.fence ⟨false, 6, 0, 5⟩),
    reads 0xAE54B280 (.aadd ⟨true, .g 5, .g 9, .g 12, 2, 8⟩),
    reads 0x2E54B281 (.aand ⟨false, .g 5, .g 9, .g 12, 2, 8⟩),
    reads 0xAE54B282 (.aor ⟨true, .g 5, .g 9, .g 12, 2, 8⟩),
    reads 0x2E54B283 (.axor ⟨false, .g 5, .g 9, .g 12, 2, 8⟩),
    reads 0xAE54B284 (.amin ⟨true, .g 5, .g 9, .g 12, 2, 8⟩),
    reads 0x2E54B285 (.amax ⟨false, .g 5, .g 9, .g 12, 2, 8⟩),
    reads 0xAE54B286 (.aminu ⟨true, .g 5, .g 9, .g 12, 2, 8⟩),
    reads 0x2E54B287 (.amaxu ⟨false, .g 5, .g 9, .g 12, 2, 8⟩),
    reads 0xAE54B288 (.aswp ⟨true, .g 5, .g 9, .g 12, 2, 8⟩),
    reads 0x2E54B149 (.acas ⟨false, .g 5, .g 9, .g 12, 1, 4⟩),
    reads 0xB054B280 (.aaddW ⟨true, .g 5, .g 9, .g 12, 2, 8⟩),
    reads 0x3054B281 (.aandW ⟨false, .g 5, .g 9, .g 12, 2, 8⟩),
    reads 0xB054B282 (.aorW ⟨true, .g 5, .g 9, .g 12, 2, 8⟩),
    reads 0x3054B283 (.axorW ⟨false, .g 5, .g 9, .g 12, 2, 8⟩),
    reads 0xB054B284 (.aminW ⟨true, .g 5, .g 9, .g 12, 2, 8⟩)] : List Bool).all id = true := by decide +kernel

/-- One word of each instruction, its fixed bits and its fields as the opcode table places them (rules R67 to R361). -/
theorem test_decode_row_6 : ([
    reads 0x3054B285 (.amaxW ⟨false, .g 5, .g 9, .g 12, 2, 8⟩),
    reads 0xB054B286 (.aminuW ⟨true, .g 5, .g 9, .g 12, 2, 8⟩),
    reads 0x3054B287 (.amaxuW ⟨false, .g 5, .g 9, .g 12, 2, 8⟩),
    reads 0xB054B288 (.aswpW ⟨true, .g 5, .g 9, .g 12, 2, 8⟩),
    reads 0x3054B149 (.acasW ⟨false, .g 5, .g 9, .g 12, 1, 4⟩),
    reads 0xB054B00A (.aaddAgg ⟨true, .g 5, .g 9, .g 12⟩),
    reads 0x32061A5C (.cflush ⟨false, .g 12, 0x1A5C⟩),
    reads 0xB2161A5C (.cinv ⟨true, .g 12, 0x1A5C⟩),
    reads 0x32261A5C (.cclean ⟨false, .g 12, 0x1A5C⟩),
    reads 0xB2363A5C (.pref ⟨true, .g 12, 1, 0x1A5C⟩),
    reads 0x32461A5C (.wswait ⟨false, .g 12, 0x1A5C⟩),
    reads 0xB4000000 (.sync ⟨true⟩),
    reads 0x34000008 (.sret ⟨false⟩),
    reads 0xB4000010 (.work ⟨true⟩),
    reads 0x34048018 (.wait ⟨false, .g 9⟩),
    reads 0xB4000020 (.anch ⟨true⟩),
    reads 0x34000028 (.roam ⟨false⟩),
    reads 0xB404B030 (.send ⟨true, .g 9, .g 12⟩),
    reads 0x3454B038 (.fork ⟨false, .g 5, .g 9, .g 12⟩),
    reads 0xB404B040 (.qcfg ⟨true, .g 9, .g 12⟩),
    reads 0x3404B048 (.barcfg ⟨false, .g 9, .g 12⟩),
    reads 0xB4048050 (.barw ⟨true, .g 9⟩)] : List Bool).all id = true := by decide +kernel

/-- One word of each instruction, its fixed bits and its fields as the opcode table places them (rules R68 to R405). -/
theorem test_decode_row_7 : ([
    reads 0x34048058 (.bart ⟨false, .g 9⟩),
    reads 0xB4548060 (.barq ⟨true, .g 5, .g 9⟩),
    reads 0x34048068 (.tcallr ⟨false, .g 9⟩),
    reads 0xB4000070 (.tret ⟨true⟩),
    reads 0x34000078 (.tabort ⟨false⟩),
    reads 0xB4548080 (.tlook ⟨true, .g 5, .g 9⟩),
    reads 0x3404808D (.bnd ⟨false, .g 9, 5⟩),
    reads 0xB4000090 (.bchk ⟨true⟩),
    reads 0x3404B09D (.incu ⟨false, .g 9, .g 12, 5⟩),
    reads 0xB45030A5 (.incr ⟨true, .g 5, .g 12, 5⟩),
    reads 0x340480A8 (.launch ⟨false, .g 9⟩),
    reads 0xB609ABCD (.spawn ⟨true, 0x9ABCD⟩),
    reads 0x3809ABCD (.tcall ⟨false, 0x9ABCD⟩),
    reads 0xBA04AABC (.sendi ⟨true, .g 9, 0x2ABC⟩),
    reads 0x3C54AABC (.forki ⟨false, .g 5, .g 9, 0x2ABC⟩),
    reads 0xBE548000 (.ftest ⟨true, .g 5, .g 9⟩),
    reads 0x3E048010 (.fcancel ⟨false, .g 9⟩),
    reads 0xBE548020 (.movh ⟨true, .g 5, .g 9⟩),
    reads 0x3E048030 (.fwait ⟨false, .g 9⟩),
    reads 0xC0D4AC03 (.vadd ⟨true, 13, 9, 11, .bf16⟩),
    reads 0x40D4AC13 (.vsub ⟨false, 13, 9, 11, .bf16⟩),
    reads 0xC0D4AC23 (.vmul ⟨true, 13, 9, 11, .bf16⟩)] : List Bool).all id = true := by decide +kernel

/-- One word of each instruction, its fixed bits and its fields as the opcode table places them (rules R389 to R414). -/
theorem test_decode_row_8 : ([
    reads 0x40D4AC32 (.vfma ⟨false, 5, 9, 11, .f16⟩),
    reads 0xC0D4AC43 (.vmin ⟨true, 13, 9, 11, .bf16⟩),
    reads 0x40D4AC53 (.vmax ⟨false, 13, 9, 11, .bf16⟩),
    reads 0xC0D48060 (.vabs ⟨true, 13, 9, .f64⟩),
    reads 0x40D48070 (.vneg ⟨false, 13, 9, .f64⟩),
    reads 0xC0D4D881 (.vcvt ⟨true, 13, 9, true, false, .i8, .f32⟩),
    reads 0x40D49097 (.vcmp ⟨false, 5, 9, .gt, .u8⟩),
    reads 0xC0D4ACA2 (.vsel ⟨true, 5, 9, 11, .f16⟩),
    reads 0x405488B5 (.vred ⟨false, .g 5, 9, .max, .i16⟩),
    reads 0xC0D480C3 (.vex2 ⟨true, 13, 9, true⟩),
    reads 0x40D480D3 (.vlg2 ⟨false, 13, 9, true⟩),
    reads 0xC0D480E3 (.vrcp ⟨true, 13, 9, true⟩),
    reads 0x40D480F3 (.vrsq ⟨false, 13, 9, true⟩),
    reads 0xC0D4B102 (.vscale ⟨true, 13, 9, .g 12, 2⟩),
    reads 0x40D48110 (.vmov ⟨false, 13, 9, .f64⟩),
    reads 0xC0D48124 (.vbcast ⟨true, 13, .g 9, .i32⟩),
    reads 0x40001930 (.vloop ⟨false, 6⟩),
    reads 0xC0000140 (.vfence ⟨true⟩),
    reads 0x4254B002 (.cpy ⟨false, .g 5, .g 9, .g 12, 2⟩),
    reads 0xC254B012 (.cpyx ⟨true, .g 5, .g 9, .g 12, 2⟩),
    reads 0x42500022 (.cptr ⟨false, .g 5, 2⟩),
    reads 0xC454B00A (.mma ⟨true, .g 5, .g 9, .g 12, 10⟩)] : List Bool).all id = true := by decide +kernel

/-- One word of each instruction, its fixed bits and its fields as the opcode table places them (rules R335 to R421). -/
theorem test_decode_row_9 : ([
    reads 0x4454B01A (.mmaz ⟨false, .g 5, .g 9, .g 12, 10⟩),
    reads 0xC454B02A (.mst ⟨true, .g 5, .g 9, .g 12, 10⟩),
    reads 0x4454B03A (.mld ⟨false, .g 5, .g 9, .g 12, 10⟩),
    reads 0xC450004A (.msync ⟨true, .g 5, 10⟩),
    reads 0x4654B000 (.baddq ⟨false, .g 5, .g 9, .g 12⟩),
    reads 0xC6500010 (.bqnext ⟨true, .g 5⟩),
    reads 0x48048000 (.trap ⟨false, .g 9⟩),
    reads 0xC8000008 (.eret ⟨true⟩),
    reads 0x48548010 (.capr ⟨false, .g 5, .g 9⟩),
    reads 0xC8548018 (.cntr ⟨true, .g 5, .g 9⟩),
    reads 0x4804B020 (.tlbi ⟨false, .g 9, .g 12⟩),
    reads 0xC8048028 (.tflush ⟨true, .g 9⟩),
    reads 0x4804B035 (.incinit ⟨false, .g 9, .g 12, 5⟩),
    reads 0xC8000038 (.idle ⟨true⟩),
    reads 0x48048040 (.brk ⟨false, .g 9⟩),
    reads 0xC8048048 (.spill ⟨true, .g 9⟩),
    reads 0x4A0481A5 (.eset ⟨false, .g 9, 0x1A5⟩),
    reads 0xCC5001A5 (.eget ⟨true, .g 5, 0x1A5⟩),
    reads 0x4E505ABC (.mfs ⟨false, .g 5, 0x5ABC⟩),
    reads 0xD004DABC (.mts ⟨true, .g 9, 0x5ABC⟩)] : List Bool).all id = true := by decide +kernel

/-- Words that R273 refuses: reserved major, reserved fn, qup as a destination, qdn as a source, register code 19, LDZ of 8 bytes, rounding code 5, FCVT to its own format, LDA with release, scope 10, reserved lane format, VLOOP with a lane format, SHI with bit 8, reserved condition, reserved SYS fn. -/
theorem test_decode_refused : ([0xFFFFFFFF, 0x00110D28, 0x01010C00, 0x00188C00, 0x01310C00, 0x26246008, 0x1A110C0D, 0x1A110200, 0x2C100E00, 0x2C100CA0, 0x40110C08, 0x40000131, 0x0A438100, 0x1D011000, 0x48000050] : List (BitVec 32)).all (fun w => match decode w with
    | .ok _ => false
    | .error _ => true) = true := by decide +kernel

/-- An ill-formed word of each check: formats, hints, counts, orders and scopes. -/
theorem test_wf_words : ([
    .fcvt ⟨false, .g 1, .g 2, false, .h, .h, .rne⟩,
    .vcvt ⟨false, 8, 9, true, false, .f16, .f16⟩,
    .pref ⟨false, .g 8, 3, 0⟩,
    .vloop ⟨false, 0⟩,
    .vloop ⟨false, 9⟩,
    .lda ⟨false, .g 1, .g 2, 2, 0⟩,
    .lda ⟨false, .g 1, .g 2, 0, 10⟩,
    .lres ⟨false, .g 1, .g 2, 3, 0⟩,
    .lres ⟨false, .g 1, .g 2, 1, 10⟩,
    .stl ⟨false, .g 1, .g 2, 1, 0⟩,
    .stl ⟨false, .g 1, .g 2, 2, 10⟩,
    .scon ⟨false, .g 1, .g 2, .g 3, 1, 0⟩,
    .scon ⟨false, .g 1, .g 2, .g 3, 0, 10⟩,
    .ldsc ⟨false, .g 1, .g 2, 7⟩,
    .stsc ⟨false, .g 1, .g 2, 7⟩,
    .ldf ⟨false, .g 1, .g 2, 10⟩,
    .ldfe ⟨false, .g 1, .g 2, 10⟩,
    .fetst ⟨false, .g 1, .g 2, 10⟩,
    .stf ⟨false, .g 1, .g 2, 10⟩,
    .stef ⟨false, .g 1, .g 2, 10⟩,
    .sete ⟨false, .g 1, 10⟩,
    .fence ⟨false, 0, 0, 6⟩,
    .fence ⟨false, 15, 1, 6⟩,
    .fence ⟨false, 15, 0, 10⟩,
    .fence ⟨false, 7, 3, 6⟩,
    .fence ⟨false, 15, 3, 7⟩,
    .aadd ⟨false, .g 1, .g 2, .g 3, 3, 7⟩,
    .aadd ⟨false, .g 1, .g 2, .g 3, 0, 10⟩,
    .aand ⟨false, .g 1, .g 2, .g 3, 3, 7⟩,
    .aand ⟨false, .g 1, .g 2, .g 3, 0, 10⟩,
    .aor ⟨false, .g 1, .g 2, .g 3, 3, 7⟩,
    .aor ⟨false, .g 1, .g 2, .g 3, 0, 10⟩,
    .axor ⟨false, .g 1, .g 2, .g 3, 3, 7⟩,
    .axor ⟨false, .g 1, .g 2, .g 3, 0, 10⟩,
    .amin ⟨false, .g 1, .g 2, .g 3, 3, 7⟩,
    .amin ⟨false, .g 1, .g 2, .g 3, 0, 10⟩,
    .amax ⟨false, .g 1, .g 2, .g 3, 3, 7⟩,
    .amax ⟨false, .g 1, .g 2, .g 3, 0, 10⟩,
    .aminu ⟨false, .g 1, .g 2, .g 3, 3, 7⟩,
    .aminu ⟨false, .g 1, .g 2, .g 3, 0, 10⟩,
    .amaxu ⟨false, .g 1, .g 2, .g 3, 3, 7⟩,
    .amaxu ⟨false, .g 1, .g 2, .g 3, 0, 10⟩,
    .aswp ⟨false, .g 1, .g 2, .g 3, 3, 7⟩,
    .aswp ⟨false, .g 1, .g 2, .g 3, 0, 10⟩,
    .acas ⟨false, .g 1, .g 2, .g 3, 3, 7⟩,
    .acas ⟨false, .g 1, .g 2, .g 3, 0, 10⟩,
    .aaddW ⟨false, .g 1, .g 2, .g 3, 3, 7⟩,
    .aaddW ⟨false, .g 1, .g 2, .g 3, 0, 10⟩,
    .aandW ⟨false, .g 1, .g 2, .g 3, 3, 7⟩,
    .aandW ⟨false, .g 1, .g 2, .g 3, 0, 10⟩,
    .aorW ⟨false, .g 1, .g 2, .g 3, 3, 7⟩,
    .aorW ⟨false, .g 1, .g 2, .g 3, 0, 10⟩,
    .axorW ⟨false, .g 1, .g 2, .g 3, 3, 7⟩,
    .axorW ⟨false, .g 1, .g 2, .g 3, 0, 10⟩,
    .aminW ⟨false, .g 1, .g 2, .g 3, 3, 7⟩,
    .aminW ⟨false, .g 1, .g 2, .g 3, 0, 10⟩,
    .amaxW ⟨false, .g 1, .g 2, .g 3, 3, 7⟩,
    .amaxW ⟨false, .g 1, .g 2, .g 3, 0, 10⟩,
    .aminuW ⟨false, .g 1, .g 2, .g 3, 3, 7⟩,
    .aminuW ⟨false, .g 1, .g 2, .g 3, 0, 10⟩,
    .amaxuW ⟨false, .g 1, .g 2, .g 3, 3, 7⟩,
    .amaxuW ⟨false, .g 1, .g 2, .g 3, 0, 10⟩,
    .aswpW ⟨false, .g 1, .g 2, .g 3, 3, 7⟩,
    .aswpW ⟨false, .g 1, .g 2, .g 3, 0, 10⟩,
    .acasW ⟨false, .g 1, .g 2, .g 3, 3, 7⟩,
    .acasW ⟨false, .g 1, .g 2, .g 3, 0, 10⟩] : List Instr).all (fun i => !i.wf) = true := by decide +kernel

/-- An ill-formed step of each check: a seam, a slot, a word, an agent, a port, a stream, a channel that does not exist. -/
theorem test_wf_steps : ([
    .lwerrWrite 2 0,
    .launchSlotWordWrite 2 0 0 0,
    .launchSlotWordWrite 0 64 0 0,
    .launchSlotWordWrite 0 0 15 0,
    .launchSlotFinalWord 2 0 0,
    .launchSlotFinalWord 0 64 0,
    .launchWindowNarrowWrite 2,
    .launchSlotFree 2 0,
    .launchSlotFree 0 64,
    .seamRds 13 0,
    .seamRdx 13 0,
    .seamUpg 13 0,
    .seamWb 13 0,
    .seamEvc 13 0,
    .agentDead 13,
    .seamFailure 2,
    .hostUnsupportedRequest 2,
    .dcdReleaseRequest 4 0 64,
    .matrixOpBegin 0 16,
    .copyBegin 0 4,
    .copyElementWrite 0 4,
    .copyComplete 0 4,
    .mbAttest 2,
    .mbRecover 2,
    .mbGetevent 2,
    .expanderBackInvalidate 4 ⟨0, true⟩,
    .dynamicCapacityAdd 4 0 64] : List Instr).all (fun i => !i.wf) = true := by decide +kernel

/-- Well-formed ones at the ends of the ranges. -/
theorem test_wf_accepts : ([
    .fcvt ⟨false, .g 1, .g 2, false, .h, .d, .rne⟩,
    .vloop ⟨false, 8⟩,
    .lda ⟨false, .g 1, .g 2, 1, 9⟩,
    .stsc ⟨false, .g 1, .g 2, 6⟩,
    .fence ⟨false, 15, 3, 6⟩,
    .fence ⟨false, 1, 0, 9⟩,
    .aadd ⟨false, .g 1, .g 2, .g 3, 3, 6⟩,
    .aadd ⟨false, .g 1, .g 2, .g 3, 2, 9⟩,
    .launchSlotWordWrite 1 63 14 0,
    .seamRds 12 0,
    .matrixOpBegin 0 15,
    .copyBegin 0 3] : List Instr).all (fun i => i.wf) = true := by decide +kernel

/-! ## Results -/

/-- The value that a word with destination g1 writes, or leaves outstanding, with g2, g3 and g1 as given. -/
def result (i : Instr) (a b c : Word) : Option Word := match exec i (withG base [(2, a), (3, b), (1, c)]) with
  | .next t => match t.thr.pend with
    | [] => if t.thr.pc == 0x10004 then some t.thr.g[1] else none
    | p :: _ => some p.val
  | _ => none

/-- The flags that a long word leaves outstanding. -/
def raised (i : Instr) (a b : Word) : Option (BitVec 5) := match exec i (withG base [(2, a), (3, b)]) with
  | .next t => t.thr.pend.head?.map fun p => p.flags
  | _ => none

/-- A form of two registers. -/
abbrev rr (w : Bool) : R3w := ⟨false, .g 1, .g 2, .g 3, w⟩
abbrev ri (n : BitVec 15) : I15 := ⟨false, .g 1, .g 2, n⟩

/-- Corners worked from R277 and R280 to R289: a wrap, .W's sign extension, counts past the width, divisions by 0 and by -1, widths of 0. -/
theorem test_integer_corners : ([
  result (.add (rr true)) 0x7FFFFFFF 1 0 == some 0xFFFFFFFF80000000, result (.sub (rr false)) 0 1 0 == some 0xFFFFFFFFFFFFFFFF,
  result (.sll (rr true)) 1 63 0 == some 0xFFFFFFFF80000000, result (.sll (rr false)) 1 65 0 == some 2,
  result (.srl (rr true)) 0xFFFFFFFF80000000 4 0 == some 0x08000000, result (.sra (rr true)) 0x80000000 4 0 == some 0xFFFFFFFFF8000000,
  result (.rol (rr true)) 0x80000001 1 0 == some 3, result (.ror (rr false)) 1 1 0 == some 0x8000000000000000,
  result (.mulh (rr false)) 0xFFFFFFFFFFFFFFFF 1 0 == some 0xFFFFFFFFFFFFFFFF, result (.mulhu (rr false)) 0xFFFFFFFFFFFFFFFF 0xFFFFFFFFFFFFFFFF 0 == some 0xFFFFFFFFFFFFFFFE,
  result (.div (rr false)) 5 0 0 == some 0xFFFFFFFFFFFFFFFF, result (.div (rr true)) 0x80000000 0xFFFFFFFF 0 == some 0xFFFFFFFF80000000,
  result (.rem (rr false)) 0x8000000000000000 0xFFFFFFFFFFFFFFFF 0 == some 0, result (.rem (rr false)) 0xFFFFFFFFFFFFFFF9 2 0 == some 0xFFFFFFFFFFFFFFFF,
  result (.remu (rr true)) 0x80000005 0 0 == some 0xFFFFFFFF80000005, result (.divu (rr false)) 0xFFFFFFFFFFFFFFFE 2 0 == some 0x7FFFFFFFFFFFFFFF,
  result (.clz ⟨false, .g 1, .g 2, true⟩) 0xFF00000000 0 0 == some 32, result (.ctz ⟨false, .g 1, .g 2, false⟩) 0 0 0 == some 64,
  result (.popc ⟨false, .g 1, .g 2, true⟩) 0xF0000000F 0 0 == some 4, result (.brev ⟨false, .g 1, .g 2, true⟩) 1 0 0 == some 0xFFFFFFFF80000000,
  result (.bswap ⟨false, .g 1, .g 2, false⟩) 0x1122334455667788 0 0 == some 0x8877665544332211,
  result (.sext ⟨false, .g 1, .g 2, .b8⟩) 0x180 0 0 == some 0xFFFFFFFFFFFFFF80, result (.zext ⟨false, .g 1, .g 2, .b16⟩) 0xABCD1234 0 0 == some 0x1234,
  result (.min ⟨false, .g 1, .g 2, .g 3⟩) 0xFFFFFFFFFFFFFFFF 1 0 == some 0xFFFFFFFFFFFFFFFF, result (.minu ⟨false, .g 1, .g 2, .g 3⟩) 0xFFFFFFFFFFFFFFFF 1 0 == some 1,
  result (.selz ⟨false, .g 1, .g 2, .g 3⟩) 7 0 0 == some 0, result (.andn ⟨false, .g 1, .g 2, .g 3⟩) 0xF 5 0 == some 0xA,
  result (.lea ⟨false, .g 1, .g 2, .g 3, 3⟩) 1 2 0 == some 17, result (.addi (ri 0x7FFF)) 0 0 0 == some 0xFFFFFFFFFFFFFFFF, result (.sltiu (ri 0x7FFF)) 5 0 0 == some 1,
  result (.shi ⟨false, .g 1, .g 2, .sra, 63⟩) 0x8000000000000000 0 0 == some 0xFFFFFFFFFFFFFFFF,
  result (.lui ⟨false, .g 1, 0x80000⟩) 0 0 0 == some 0xFFFFFFFF80000000, result (.lhi ⟨false, .g 1, 0xFFFFF⟩) 0 0 0x100000001 == some 1, result (.lpc ⟨false, .g 1, 1⟩) 0 0 0 == some 0x11000] : List Bool).all id = true := by decide +kernel

/-- Results and flags worked from R182 to R190 and R292 to R297. -/
theorem test_float_corners : ([
  result (.fadd ⟨false, .g 1, .g 2, .g 3, .s, .rne⟩) 0x3F800000 0x40000000 0 == some 0x40400000, result (.fsub ⟨false, .g 1, .g 2, .g 3, .s, .rdn⟩) 0x3F800000 0x3F800000 0 == some 0x80000000,
  result (.fadd ⟨false, .g 1, .g 2, .g 3, .s, .rup⟩) 0x3F800000 0x33000000 0 == some 0x3F800001, result (.fadd ⟨false, .g 1, .g 2, .g 3, .s, .rne⟩) 0x3F800000 0x33000000 0 == some 0x3F800000,
  result (.fmul ⟨false, .g 1, .g 2, .g 3, .d, .rne⟩) 0x7FF0000000000000 0 0 == some 0x7FF8000000000000, result (.fdiv ⟨false, .g 1, .g 2, .g 3, .h, .rne⟩) 0x3C00 0x8000 0 == some 0xFC00,
  result (.fsqrt ⟨false, .g 1, .g 2, .d, .rne⟩) 0x4010000000000000 0 0 == some 0x4000000000000000, result (.fma ⟨false, .g 1, .g 2, .g 3, .s, .rne⟩) 0x40000000 0x40400000 0x3F800000 == some 0x40E00000,
  result (.fms ⟨false, .g 1, .g 2, .g 3, .s, .rne⟩) 0x40000000 0x40400000 0x3F800000 == some 0xC0A00000,
  result (.fmin ⟨false, .g 1, .g 2, .g 3, .s⟩) 0 0x80000000 0 == some 0x80000000, result (.fmax ⟨false, .g 1, .g 2, .g 3, .s⟩) 0x7FC00000 0x3F800000 0 == some 0x3F800000,
  result (.fcpys ⟨false, .g 1, .g 2, .g 3, .s⟩) 0x3F800000 0x80000000 0 == some 0xBF800000, result (.feq ⟨false, .g 1, .g 2, .g 3, .d⟩) 0 0x8000000000000000 0 == some 1,
  result (.flt ⟨false, .g 1, .g 2, .g 3, .s⟩) 0xFF800000 0x7F800000 0 == some 1, result (.fclass ⟨false, .g 1, .g 2, .s⟩) 0x7F800001 0 0 == some 0x100, result (.fclass ⟨false, .g 1, .g 2, .b⟩) 0x8001 0 0 == some 4,
  result (.fcvt ⟨false, .g 1, .g 2, false, .d, .s, .rne⟩) 0x3FC00000 0 0 == some 0x3FF8000000000000, result (.fcvti ⟨false, .g 1, .g 2, .s, .rz⟩) 0xBFC00000 0 0 == some 0xFFFFFFFFFFFFFFFF,
  result (.fcvti ⟨false, .g 1, .g 2, .d, .rne⟩) 0x43F0000000000000 0 0 == some 0x7FFFFFFFFFFFFFFF, result (.icvtf ⟨false, .g 1, .g 2, .s, .rz⟩) 0xFFFFFFFFFEFFFFFF 0 0 == some 0xCB800000,
  result (.fkey ⟨false, .g 1, .g 2, false⟩) 0x8000000000000000 0 0 == some 0xFFFFFFFFFFFFFFFF, raised (.fdiv ⟨false, .g 1, .g 2, .g 3, .s, .rne⟩) 0x3F800000 0 == some fDivZero,
  raised (.fsub ⟨false, .g 1, .g 2, .g 3, .s, .rne⟩) 0x7F800000 0x7F800000 == some fInvalid, raised (.fmul ⟨false, .g 1, .g 2, .g 3, .s, .rne⟩) 0x7F7FFFFF 0x7F7FFFFF == some (fOverflow ||| fInexact)] : List Bool).all id = true := by decide +kernel

/-! ## A state that meets the hypotheses of each clause of a statement, with the clause's answer where it is short -/

/-- An access of the own thread, of an atomic or not, leaves it where it is. -/
def stays (s : State) (l : Loc) (w atom : Bool) : Bool := match s.serve l w atom with
  | .migrate _ => false
  | _ => true

/-- No core has an injection armed. -/
def quiet (s : State) : Bool := !s.core.errinj.getLsbD 7 && s.cores.all fun c => !c.errinj.getLsbD 7

/-- No launch is held on a word of memory. -/
def free (s : State) : Bool := s.launcher.list.all fun l => l.status != .held || l.info.depk != 1

/-- Nothing older of the thread is under way. -/
def still (s : State) : Bool :=
  s.thr.phase == 0 && s.thr.pend == [] && s.watermark s.core.id == s.core.sbNum && !s.writesOut s.core.id s.thr.frame s.core.sbNum

/-- The bytes of a place stand as they are. -/
def plain (l : Loc) : Bool := match l.place with
  | .scratch _ w => decide (w < 2)
  | _ => true

theorem calm_of_quiet (s : State) (h : quiet s = true) : s.calm := by
  intro n
  simp only [quiet, Bool.and_eq_true, Bool.not_eq_true', List.all_eq_true] at h
  unfold State.coreOf
  split
  · exact h.1
  · cases hf : s.cores.find? (fun c => c.id == n) with
    | none => simp [Core.fresh]
    | some c => simpa using h.2 c (List.mem_of_find?_eq_some hf)

theorem stays_iff (s : State) (l : Loc) (w atom : Bool) : stays s l w atom = true ↔ ∀ n, s.serve l w atom ≠ .migrate n := by
  unfold stays
  cases s.serve l w atom <;> simp

theorem noDeps_of_free (s : State) (h : free s = true) : s.noDeps := by
  intro l hl hh
  have := List.all_eq_true.mp h l hl
  simpa [hh] using this

theorem settled_of_still (s : State) (h : still s = true) : s.settled := by
  simpa [still, State.settled, and_assoc] using h

theorem raw_of_plain (l : Loc) (h : plain l = true) : l.raw := by
  unfold plain at h
  unfold Loc.raw
  split <;> simp_all

/-- The digest of the three bytes "abc" in the published example of SHA-384, its first byte lowest. -/
theorem test_sha384 : sha384 [0x61, 0x62, 0x63] == BitVec.ofNat 384 0xa725c834a1ecba5823cce7a12b078680ed5bff435a608b1a63d1de0eab322c270750c69a693da0b58b5ea3453f7500cb := by decide +kernel

/-- A core that is named, and one that moves on by itself, picks a thread whose word decodes; an agenda names an event that can happen, one that cannot, and a word; a buffer of the block at pc. -/
theorem witness_StepRuns : ([
  (let u := { base with agenda := [] }.focusCore 0
   match u.pick with
   | some t =>
     let v := u.focus t.core t.frame
     (v.faultOf v.thr).isNone && !(v.thr.park.any fun p => p.code == 11) && match v.beginIssue.fetch v.beginIssue.thr with
       | .ok (w, _) => w == 0x22000000 && (match decode (v.beginIssue.thr.wordAt w) with
         | .ok i => i == .nop ⟨false⟩ && ok (exec i v.beginIssue) fun t => t.thr.pc == 0x10004
         | .error _ => false)
       | .error _ => false
   | none => false),
  base.agenda.isEmpty && base.cc % 3 == 0 && base.pick.isSome,
  base.thr.fbuf.any fun x => x.1 == base.thr.pc.toNat / 32,
  ok (step { base with agenda := [.event .healthCeWindowEnd] }) fun t => t.thr.pc == 0x10000,
  (match exec (.aggCombine 0) base with
    | .fault .notEnabled => true
    | _ => false) && ok (step { base with agenda := [.event (.aggCombine 0)] }) fun t => t == base.later base,
  (encode .healthCeWindowEnd).isNone && ok (step { base with agenda := [.event (.nop ⟨false⟩)] }) fun t => t == base.later base] : List Bool).all id = true := by decide +kernel

/-- A well-formed instruction with a word. -/
theorem witness_DecodeOfEncode : ([
  Instr.wf (.acas ⟨false, .g 1, .g 2, .g 3, 2, 4⟩) && (encode (.acas ⟨false, .g 1, .g 2, .g 3, 2, 4⟩)).isSome] : List Bool).all id = true := by decide +kernel

/-- A step from a state in the canonical form. -/
theorem witness_StepKeepsInv : ([
  base.mem.wf && ok (step base) fun t => t.mem.wf && t.thr.pc == 0x10004] : List Bool).all id = true := by decide +kernel

/-- A thread that owns the queues of its core, with words in them. -/
def queued : State := { base with core := { base.core with qOwner := some 0, qup := [5, 6], qrx := [7] } }

/-- A thread whose g2 holds the handle of record 3 in some status. -/
def holding (st : FutStatus) : State :=
  { (withG base [(2, handleOf 0 3)]).modThr (fun t => t.setTag 2 true) with
    core := { base.core with eng := { base.core.eng with futs := [⟨3, st, 42, 0x99, 0, none, 1⟩] } } }

/-- Plain sources; the owner of queues; futures in every status; a damaged and a poisoned source. -/
theorem witness_SourcesRead : ([
  base.injectReg 2 == none && base.injectReg 3 == none && rd (withG base [(2, 5), (3, 6)]) [.g 2, .gz, .g 3] .gz fun _ vs => vs == [5, 0, 6],
  !(base.thr.damage.contains 19) && !base.thr.tagged 2 && (base.thr.marks.all fun m => m.1 != 2),
  queued.core.qOwner == some queued.thr.frame && rd queued [.qup] .gz fun s vs => vs == [5] && s.core.qup == [6] && s.thr.popped == [(true, 5)],
  rd queued [.qrx] .gz fun s vs => vs == [7] && s.core.qrx == [],
  rd queued [.qup, .qup] .gz fun s vs => vs == [5, 6] && s.core.qup == [],
  (let s : State := { queued with core := { queued.core with qup := [5] } }
   (s.reads [.qup, .qup] .gz).isNone && ok (exec (.add ⟨false, .g 1, .qup, .qup, false⟩) s) fun t => t == s.parkOn 7 16 0),
  (intForm (.add ⟨false, .g 1, .qup, .qup, false⟩)).any fun f => f.srcs == [.qup, .qup] && f.d == .g 1,
  (intForm (.popc ⟨false, .gz, .g 2, false⟩)).any fun f => f.srcs == [.g 2] && f.d == .gz,
  rd (holding .done) [.g 2] .gz fun s vs => vs == [42] && s.thr.g[2] == 42 && !s.thr.tagged 2,
  [(FutStatus.pending)].all fun st => ok (exec (.popc ⟨false, .gz, .g 2, false⟩) (holding st)) fun t => t == (holding st).parkOn 18 2 0,
  ok (exec (.popc ⟨false, .gz, .g 2, false⟩) (holding .resid)) fun t => t == (holding .resid).trap (cause cRESID 2),
  ok (exec (.popc ⟨false, .gz, .g 2, false⟩) (holding .engf)) fun t => t == (holding .engf).trap (cause cENGF 0x99),
  ok (exec (.popc ⟨false, .gz, .g 2, false⟩) (holding .cancelled)) fun t => t == (holding .cancelled).trap (cause cFUTURE 2),
  (holding .done).thr.damage == [] && (holding .done).thr.marks == [] && (holding .done).thr.tagged 2,
  [19, 20].all fun n => let s := base.modThr fun t => { t with damage := [n] }
   ok (exec (.add ⟨false, .g 1, .g 2, .g 3, false⟩) s) fun t => t == s.regerr n,
  rdl (withG base [(2, 5)]) [.g 2] (.g 1) fun _ vs => vs == [5],
  (let s := base.modThr fun t => { t with damage := [2] }
   ok (exec (.add ⟨false, .g 1, .g 2, .g 3, false⟩) s) fun t => t == s.regerr 2),
  (let s := base.modThr fun t => { t with marks := [(2, 0x55)] }
   !s.thr.tagged 2 && ok (exec (.add ⟨false, .g 1, .g 2, .g 3, false⟩) s) fun t => t == s.trap (cause cUCE 0x55))] : List Bool).all id = true := by decide +kernel

/-- A word whose operands can be read; a LEAP that resolves a core and one that resolves none. -/
theorem witness_IntegerWords : ([
  (intForm (.sub ⟨false, .g 1, .g 2, .g 3, true⟩)).any fun f => !f.long && rd (withG base [(2, 5), (3, 7)]) f.srcs f.d fun s vs =>
    ok (exec (.sub ⟨false, .g 1, .g 2, .g 3, true⟩) (withG base [(2, 5), (3, 7)])) fun t => t == f.after s (f.val 0x10000 vs) && t.thr.g[1] == BitVec.ofInt 64 (-2),
  (intForm (.mul ⟨false, .g 1, .g 2, .g 3, false⟩)).any fun f => f.long && rdl (withG base [(2, 5), (3, 7)]) f.srcs f.d fun s vs =>
    ok (exec (.mul ⟨false, .g 1, .g 2, .g 3, false⟩) (withG base [(2, 5), (3, 7)])) fun t => t == f.after s (f.val 0x10000 vs) && (t.thr.pend.map fun p => p.val) == [35],
  rd (withG base [(6, 8)]) [.g 6] (.g 4) fun s _ => s.resolvePlace 1 == some 1 &&
    ok (exec (.leap ⟨false, .g 4, .g 6, 1⟩) (withG base [(6, 8)])) fun t => t.thr.g[4] == 0xFFFFFE0000100008,
  rd base [.g 6] (.g 4) fun s _ => s.resolvePlace 0x1F == none &&
    ok (exec (.leap ⟨false, .g 4, .g 6, 0x1F⟩) base) fun t => t == base.trap (cause cPLACE 0x1F)] : List Bool).all id = true := by decide +kernel

/-- A thread with nothing outstanding, and one with a result outstanding for g1. -/
theorem witness_ResultFrames : ([
  base.thr.pend == [] && base.endRun == base,
  (let s := base.modThr fun t => { t with pend := [{ Pending.awaited false with tok := 7, dst := .g 1 }] }
   s.thr.pend[0]?.isSome && s.endRun.thr.park == some ⟨1, 0, 0, s.cc, none⟩ && (s.finish false (.g 1) 5).thr.pend.map (fun p => p.dropped) == [true] &&
     (s.finishLong false (.g 1) (Pending.ofVal 5 0)).thr.pend.map (fun p => (p.tok, p.dropped)) == [(7, true), (s.thr.seq, false)])] : List Bool).all id = true := by decide +kernel

/-- The bits of 1.0, of 2.0 and of a subnormal in FP64. -/
abbrev one64 : Word := 0x3FF0000000000000
abbrev two64 : Word := 0x4000000000000000
abbrev tiny64 : Word := 1

/-- A sum of plain numbers, a subnormal operand, ICVTF and FKEY. -/
theorem witness_FloatWords : ([
  (fpForm (.fadd ⟨false, .g 4, .g 5, .g 6, .d, .rne⟩)).any fun f => rdl (withG base [(5, one64), (6, one64)]) f.srcs f.d fun s vs =>
    f.sub && (f.bits vs).all (fun b => !isSubnormal f.f b) &&
    ok (exec (.fadd ⟨false, .g 4, .g 5, .g 6, .d, .rne⟩) (withG base [(5, one64), (6, one64)])) fun t =>
      (t.thr.pend.map fun p => p.val) == [two64] && t.thr.pc == s.thr.pc + 4,
  (fpForm (.fadd ⟨false, .g 4, .g 5, .g 6, .d, .rne⟩)).any fun f => rdl (withG base [(5, one64), (6, tiny64)]) f.srcs f.d fun _ vs =>
    (f.bits vs).any (isSubnormal f.f) && f.mask (f.bits vs) == 2 &&
    ok (exec (.fadd ⟨false, .g 4, .g 5, .g 6, .d, .rne⟩) (withG base [(5, one64), (6, tiny64)])) fun t => t == (withG base [(5, one64), (6, tiny64)]).subn 2,
  (fpForm (.fneg ⟨false, .g 4, .g 5, .d⟩)).any fun f => !f.sub,
  rdl (withG base [(5, 2)]) [.g 5] (.g 4) fun _ _ => ok (exec (.icvtf ⟨false, .g 4, .g 5, .d, .rne⟩) (withG base [(5, 2)])) fun t =>
    (t.thr.pend.map fun p => p.val) == [two64],
  rdl (withG base [(5, one64)]) [.g 5] (.g 4) fun _ _ => ok (exec (.fkey ⟨false, .g 4, .g 5, false⟩) (withG base [(5, one64)])) fun t =>
    (t.thr.pend.map fun p => p.val) == [one64]] : List Bool).all id = true := by decide +kernel

/-- Two numbers in order, and a finite number of each scalar format. -/
theorem witness_NumberFacts : ([
  !(decodeFloat 1 one64.toNat).isNan && !(decodeFloat 1 two64.toNat).isNan && ltVal (decodeFloat 1 one64.toNat) (decodeFloat 1 two64.toNat) &&
    decide ((fKey false one64.toNat).toInt < (fKey false two64.toNat).toInt),
  [(1, 0x3FF8000000000001), (2, 0x3F800001), (3, 0x3C01), (4, 0x3F81), (1, 1), (2, 0x80000001), (3, 0x83FF), (4, 0x0001), (1, 0), (4, 0x8000)].all fun x =>
    (match decodeFloat x.1 x.2 with
      | .fin _ _ _ => true
      | _ => false) && decide (x.2 < 2 ^ elemBits x.1) && [0, 1, 2, 3, 4].all fun m => roundTo x.1 m (decodeFloat x.1 x.2) == (x.2, 0)] : List Bool).all id = true := by decide +kernel

/-- A core whose SFU queue holds n entries. -/
def sfuQueue (n : Nat) : State := { base with core := { base.core with eng := { base.core.eng with sfu := List.replicate n ⟨0, 7, 9, 1, false, [], none⟩ } } }

/-- Room in the queue, a full queue, and an entry of a thread and of the vector unit served. -/
theorem witness_SfuQueue : ([
  (sfuForm (.fex2 ⟨false, .g 1, .g 2, true⟩)).isSome && rdl (sfuQueue 0) [.g 2] (.g 1) fun s _ => decide (s.core.eng.sfu.length < 16),
  rdl (sfuQueue 15) [.g 2] (.g 1) fun s _ => decide (s.core.eng.sfu.length < 16) && ok (exec (.fex2 ⟨false, .g 1, .g 2, true⟩) (sfuQueue 15)) fun t => t.core.eng.sfu.length == 16,
  rdl (sfuQueue 16) [.g 2] (.g 1) fun s _ => decide (16 ≤ s.core.eng.sfu.length) && ok (exec (.fex2 ⟨false, .g 1, .g 2, true⟩) (sfuQueue 16)) fun t => t == (sfuQueue 16).parkOn 0 0 7,
  (let s := (sfuQueue 2).modThr fun t => { t with pend := [{ Pending.awaited false with tok := 7, dst := .g 1 }] }
   s.thr.live && s.thr.core == s.core.id && s.thr.frame == 0 && ok (exec (.sfuEntryServe 0) s) fun t => t.core.eng.sfu.length == 1 && t.thr.pend.all fun p => p.ready && p.val == 9),
  [none, some (own 0x40)].all fun bad =>
   let m : VecIns := ⟨.vex2 ⟨false, 9, 8, false⟩, 0, 0, 0x10000, none, [], 0⟩
   let b : Body := ⟨0, 1, 0, [m], 0, true, 0, 0, false, some [], true⟩
   let s : State := { base with core := { base.core with eng := { base.core.eng with sfu := [⟨0, 0, 0, 0, true, List.replicate 16 0, bad⟩], vq := [b] } } }
   (vform m.instr).any (fun v => v.dst == some 9 && v.lanes == 16 && v.f == .f32) && (match bodyCheck s.core.eng b with
     | .ok (_, n) => n == none
     | .error _ => false) && ok (exec (.sfuEntryServe 0) s) fun t => t.core.eng.sfu == [] && match bad with
       | none => t.core.eng.vq == [{ b with done := 1, wait := false }] && vlane .f32 t.core.eng.f[1] 15 == 0x3F800000
       | some a => t.core.eng.vq == [{ b with cur := none, wait := false }] && t.core.eng.held == some ⟨0x10000, 0, cENGF, a, false, 0, 0⟩] : List Bool).all id = true := by decide +kernel

/-- A virtual address whose page's home quad is that of core 0. -/
abbrev hbm (off : Nat) : Word := BitVec.ofNat 64 (0x220000 + off)

/-- A branch taken and one not taken, a jump, links, and targets that are no multiple of 4. -/
theorem witness_ControlFlow : ([
  (branchForm (.bne ⟨false, .g 2, .gz, 0x7FE⟩)).any fun x => base.thr.walk.isNone && rd (withG base [(2, 1)]) [.g 2, .gz] .gz fun s1 vs =>
    match vs with
    | [a, b] => x.2 a b && !base.killsAt (s1.target4 x.1.off.toInt) && !s1.killDue &&
        ok (exec (.bne ⟨false, .g 2, .gz, 0x7FE⟩) (withG base [(2, 1)])) fun t => t.thr.pc == 0xFFF8
    | _ => false,
  rd base [.g 2, .gz] .gz fun s1 _ => ok (exec (.bne ⟨false, .g 2, .gz, 0x7FE⟩) base) fun t => t == s1.jump false 0x10004,
  (let s := base.modThr fun t => { t with st := setBit t.st 10 true }
   s.killsAt (s.target4 (-2)) && !s.killDue),
  rd base [] .gz fun s1 _ => ok (exec (.j ⟨false, 4⟩) base) fun t => t == s1.jump false 0x10010,
  rd base [] (.g 15) fun s1 _ => ok (exec (.jal ⟨false, .g 15, 0xFFFFF⟩) base) fun t => t == (s1.setG (.g 15) 0x10004).jump false 0xFFFC,
  rd (withG base [(3, 0x20000)]) [.g 3] .gz fun s1 vs => vs == [0x20000] && ok (exec (.jr ⟨false, .g 3⟩) (withG base [(3, 0x20000)])) fun t => t == s1.jump false 0x20000,
  rd (withG base [(3, 0x20000)]) [.g 3] (.g 3) fun s1 _ => ok (exec (.jalr ⟨false, .g 3, .g 3⟩) (withG base [(3, 0x20000)])) fun t =>
    t == (s1.setG (.g 3) 0x10004).jump false 0x20000,
  rd base [] .gz fun s1 _ => ok (exec (.nop ⟨true⟩) base) fun t => t == s1.jump true 0x10004,
  rd (withG base [(3, 0x20002)]) [.g 3] .gz fun _ _ => ok (exec (.jr ⟨false, .g 3⟩) (withG base [(3, 0x20002)])) fun t =>
    t == (withG base [(3, 0x20002)]).trap (cause cALIGN 0x20002),
  rd (withG base [(3, 0x20002)]) [.g 3] (.g 1) fun _ _ => ok (exec (.jalr ⟨false, .g 1, .g 3⟩) (withG base [(3, 0x20002)])) fun t =>
    t == (withG base [(3, 0x20002)]).trap (cause cALIGN 0x20002)] : List Bool).all id = true := by decide +kernel

/-- Eight bytes of the own scratchpad with the given value. -/
def withWordAt (s : State) (key v : Nat) : State := { s with mem := { s.mem with bytes := writeBytes s.mem.bytes key 8 v } }

/-- g8 holds an address, whose page has been walked, g2 and g3 values. -/
def at_ (a : Word) : State :=
  (withG base [(8, a), (2, 0x8877665544332211), (3, 5)]).modThr fun t => { t with walked := some (a.toNat / 0x10000) }

/-- A store of the thread that stands in the buffer of core 0. -/
def stored (key : Nat) : State :=
  { at_ (own 0x40) with core := { base.core with sb := [⟨0, 0, ⟨1, 0⟩, .store, ⟨key, .scratch 0 0, 0, own 0x40, 0, 0⟩, 8, 0x99, false, 0, 0, 0, false, false, none⟩], sbNum := 1 } }

/-- What g8 addresses is memory of another package. -/
def peered (leaf : Nat) : State :=
  let s := at_ (hbm 8)
  { s with links := { s.links with peers := s.links.peers.set 3 ⟨true, 2, 5⟩ }, mem := { s.mem with bytes := writeBytes s.mem.bytes 0x200000 8 (0xFA00000000000 + leaf) } }

/-- A load performed from the scratchpad, one that misses in its L1, one forwarded, one sent as a request; a place as it stands; LDK from memory, from the constant cache and from another package. -/
theorem witness_Loads : ([
  (loadForm (.ldh ⟨false, .g 1, .g 8, 2⟩)).any fun f => rdl (withWordAt (at_ (own 0x40)) 0xFFFFFE0000000040 0x8081828384858687) [f.b] f.d fun s1 vs =>
    ac s1 (vs.headD 0 + f.disp.signExtend 64) f.acc true false fun s2 l =>
      s2.look s2.core (l.ranges f.width) == .memory && s2.serve l false false == .here && !s2.ownPending l (l.ranges f.width) && !s2.refreshes l &&
      (s2.missLine s2.core.id l false).isNone && plain l &&
      ok (exec (.ldh ⟨false, .g 1, .g 8, 2⟩) (withWordAt (at_ (own 0x40)) 0xFFFFFE0000000040 0x8081828384858687)) fun t =>
        (t.thr.pend.map fun p => p.val) == [0xFFFFFFFFFFFF8485],
  (loadForm (.ldd ⟨false, .g 1, .g 8, 0⟩)).any fun f => rdl (at_ (hbm 8)) [f.b] f.d fun s1 vs =>
    ac s1 (vs.headD 0 + f.disp.signExtend 64) f.acc true false fun s2 l =>
      l.place == .hbm && s2.look s2.core (l.ranges f.width) == .memory && s2.serve l false false == .here && !s2.ownPending l (l.ranges f.width) &&
      !s2.refreshes l && s2.slotFor s2.core.id l false && (s2.missLine s2.core.id l false) == some (l.key / 64) &&
      ok (exec (.ldd ⟨false, .g 1, .g 8, 0⟩) (at_ (hbm 8))) fun t => t.net.reqs.length == 1 && t.thr.pend.all fun p => !p.ready && p.line == some (l.key / 64),
  (loadForm (.ldb ⟨false, .g 1, .g 8, 1⟩)).any fun f => rdl (stored 0xFFFFFE0000000040) [f.b] f.d fun s1 vs =>
    ac s1 (vs.headD 0 + f.disp.signExtend 64) f.acc true false fun s2 l =>
      s2.look s2.core (l.ranges f.width) == .value 0 && !s2.ownPending l (l.ranges f.width),
  (loadForm (.ldd ⟨false, .g 1, .g 8, 0⟩)).any fun f => rdl (at_ (far 8)) [f.b] f.d fun s1 vs =>
    ac s1 (vs.headD 0 + f.disp.signExtend 64) f.acc true false fun s2 l =>
      s2.look s2.core (l.ranges f.width) == .memory && s2.serve l false false == .remote && s2.slotFree &&
      ok (exec (.ldd ⟨false, .g 1, .g 8, 0⟩) (at_ (far 8))) fun t => t.net.reqs.length == 1,
  quiet base,
  [false, true].all fun k =>
   let s := withWordAt (at_ (hbm 8)) 0 0x200001
   let s : State := { s with mem := { s.mem with bytes := writeBytes s.mem.bytes 0x200000 8 0x4000003F } }
   let s : State := if k then { s with clusters := [{ s.clusterAt 0 with kc := [(0x40220000 / 64, 0xABCD0000000000000000)] }] } else s
   rdl s [.g 8] (.g 1) fun s1 vs => ac s1 (vs.headD 0) accConst true false fun s2 l => l.key % 8 == 0 && !l.isPeer &&
     ((s2.clusterAt (clusterOf s2.core.id)).kc.any fun x => x.1 == l.key / 64) == k && ok (exec (.ldk ⟨false, .g 1, .g 8, 0⟩) s) fun t =>
       (t.thr.pend.map fun p => p.val) == [if k then 0xABCD else 0],
  rdl (peered 0x3F) [.g 8] (.g 1) fun s1 vs => ac s1 (vs.headD 0) accConst true false fun s2 l => l.place == .peer 2 && s2.slotFree &&
    s2.look s2.core [(l.key, 8)] == .memory && ok (exec (.ldk ⟨false, .g 1, .g 8, 0⟩) (peered 0x3F)) fun t => t.net.reqs.length == 1] : List Bool).all id = true := by decide +kernel

/-- A store of the thread to HBM that stands in the buffer of core 0, with a place on the lane or none. -/
def hbmStored (lane : Option (Nat × Nat)) (cc : Nat) : State :=
  { base with cc := cc, core := { base.core with sb := [⟨0, 0, ⟨1, 0⟩, .store, ⟨0x40220000, .hbm, 0, hbm 0, 0, 0⟩, 8, 0x99, false, 0, 0, 0, false, false, lane⟩], sbNum := 1 } }

/-- A store of each kind enters the buffer; one that misses is announced and waits; plain ones are applied. -/
theorem witness_Stores : ([
  [Instr.stb ⟨false, .g 2, .g 8, 1⟩, .std ⟨false, .g 2, .g 8, 0⟩, .stl ⟨false, .g 2, .g 8, 2, 3⟩, .stl ⟨false, .g 2, .g 8, 2, 9⟩, .stf ⟨false, .g 2, .g 8, 3⟩, .sete ⟨false, .g 8, 3⟩].all fun i =>
    (storeForm i).any fun f => base.mem.wf && [own 0x40, far 0x40].all fun a => rd (at_ a) f.srcs .gz fun s1 vs =>
      ac s1 (vs.getD f.addr 0 + f.disp.signExtend 64) f.acc false true fun s2 l =>
        (!f.roams || stays s2 l true false) && !s2.sbFull && s2.thr.dropped.isNone && !l.narrows && ok (exec i (at_ a)) fun t => t.core.sb.length == 1,
  [(none, 0), (some (1, 0), 79)].all fun x => let s := hbmStored x.1 x.2
   (match (s.coreOf 0).sb[0]? with
     | some e => e.lane == x.1 && !e.gathers && s.missesLine 0 e && s.canApply 0 [] e && s.mayLeave 0 [] e &&
         (x.1.isSome || (s.tickets 0).all fun y => y.2.1 != e.loc.key / 64)
     | none => false) && (match exec (.storeBufferApply 0 0) s with
       | .next t => x.1.isNone && (t.core.sb.map fun e => e.lane) == [some (1, 0)]
       | .fault .notEnabled => x.1.isSome
       | _ => false),
  [(stored 0xFFFFFE0000000040, 0xFFFFFE0000000040), (hbmStored (some (1, 0)) 80, 0x40220000)].all fun x => let s := x.1
   s.mem.wf && free s && (match (s.coreOf 0).sb[0]? with
     | some e => e.kind == .store && plain e.loc && !e.gathers && s.canApply 0 [] e && s.mayLeave 0 [] e && s.reachable 0 e.loc true &&
         (!s.missesLine 0 e || e.lane.any fun p => s.laneTurn 0 (e.loc.key / 64) p) && s.servedHere 0 e.loc true
     | none => false) && ok (exec (.storeBufferApply 0 0) s) fun t => t.numAt x.2 8 == 0x99 && t.core.sb.isEmpty] : List Bool).all id = true := by decide +kernel

/-- A load, a store and an atomic of eight bytes at g8. -/
abbrev three : List Instr := [.ldd ⟨false, .g 1, .g 8, 0⟩, .std ⟨false, .g 2, .g 8, 0⟩, .aadd ⟨false, .g 1, .g 2, .g 8, 1, 6⟩]

/-- The operands of an access can be read, its address is `a`, and something holds of the state and of its form. -/
def acc? (s : State) (i : Instr) (a : Word) (p : State → AccForm → Bool) : Bool := (accForm i).any fun f => match s.readsOf f.short f.srcs f.d with
  | some (s1, vs) => vs.getD f.addr 0 + f.disp.signExtend 64 == a && p s1 f
  | none => false

/-- It takes a trap with this cause and this address. -/
def traps (s : State) (i : Instr) (c : Nat) (wr : Bool) (a : Word) : Bool := ok (exec i s) fun t => t == s.trap ⟨c, wr, false, a⟩

/-- An address that is not canonical, one of the upper half, one out of line, slots of cores, a page with no entry, SETE to memory, a watched word, a line of another quad, a page without W, an access that completes, and a word that waits. -/
theorem witness_AccessTraps : ([
  three.all fun i => [0x0200000000000000, 0xFF00000000000000].all fun a => acc? (at_ a) i a fun s1 f =>
    (!canonical a.toNat || (!s1.thr.sup && !inWindow a.toNat)) && traps (at_ a) i cPROT f.wr a,
  three.all fun i => acc? (at_ (own 0x44)) i (own 0x44) fun _ f => canonical (own 0x44).toNat && inWindow (own 0x44).toNat && (own 0x44).toNat % f.acc.width != 0 &&
    traps (at_ (own 0x44)) i cALIGN f.wr (own 0x44),
  three.all fun i => let s := { at_ (far 8) with caps := { (at_ (far 8)).caps with disabled := [1] } }
   acc? s i (far 8) fun s1 f => !s1.enabled 1 && (far 8).toNat == scratchBase + 0x100000 + 8 && traps s i cPLACE f.wr (far 8),
  three.all fun i => acc? (at_ (far 0x80000)) i (far 0x80000) fun s1 f => s1.enabled 1 && traps (at_ (far 0x80000)) i cPROT f.wr (far 0x80000),
  three.all fun i => acc? (at_ 0x10000000000000) i 0x10000000000000 fun s1 f => !inWindow 0x10000000000000 && f.acc.memory && !s1.mustWalk s1.thr 0x10000000000000 f.acc.width &&
    (match s1.translate s1.thr 0x10000000000000 f.acc.kind with
      | .error c => c == cPAGE && traps (at_ 0x10000000000000) i c f.wr 0x10000000000000
      | .ok _ => false),
  acc? (at_ (hbm 8)) (.sete ⟨false, .g 8, 3⟩) (hbm 8) fun _ f => !f.acc.memory && !f.acc.peers && traps (at_ (hbm 8)) (.sete ⟨false, .g 8, 3⟩) cPROT true (hbm 8),
  three.all fun i => let s := { at_ (own 0x40) with core := { base.core with watch := own 0x43 } }
   acc? s i (own 0x40) fun s1 f => (match s1.access s1.thr (own 0x40) f.acc with
     | .ok _ => true
     | .error _ => false) && !s1.thr.sup && s1.thr.skipWatch.isNone && (own 0x40).toNat / 64 == s1.core.watch.toNat / 64 && (f.rd || f.wr) && traps s i cWATCH f.wr (own 0x40),
  three.all fun i => acc? (at_ (hbm 0x10000)) i (hbm 0x10000) fun s1 f => ac s1 (hbm 0x10000) f.acc f.rd f.wr fun s2 l =>
    match s2.serve l f.wr (f.rd && f.wr) with
      | .migrate n => s2.look s2.core [(l.key, 8)] == .memory && !s2.ownBuffered l.key 8 && ok (exec i (at_ (hbm 0x10000))) fun t => t == (at_ (hbm 0x10000)).migrate n
      | _ => false,
  (match base.lookup 0 (base.tableOf base.thr) 0x10000 with
    | .ok x => x.leaf / 4 % 2 == 1 && x.leaf / 32 % 2 == 1
    | .error _ => false),
  (let s := { base with mem := { base.mem with bytes := writeBytes base.mem.bytes 0x200000 8 0x4000003B } }
   match s.lookup 0 (s.tableOf s.thr) 0x10000 with
    | .ok x => x.leaf / 4 % 2 == 0 && match s.translate s.thr 0x10000 .store with
      | .error c => c == cPROT
      | .ok _ => false
    | .error _ => false),
  (let s := base
   !s.mapped 0 (s.tableOf s.thr) 0x10000000000000 && match s.walkOf 0 (s.tableOf s.thr) 0x10000000000000 with
    | .error c => c == cPAGE
    | .ok _ => false),
  readBytes [] 0 8 % 2 == 0,
  rdl (at_ (hbm 8)) [.g 8] (.g 1) (fun s1 vs => s1.entriesOf (vs.getD 0 0) == [0x200000, 0x200000, 0]) && ok (exec (.ldd ⟨false, .g 1, .g 8, 0⟩) (at_ (hbm 8))) fun t => t.mem.wf,
  (base.readsLong [.qup] (.g 1)).isNone && ok (exec (.ldd ⟨false, .g 1, .qup, 0⟩) base) fun t => t.mem.bytes == base.mem.bytes] : List Bool).all id = true := by decide +kernel

/-- The thread's LDSC of the word 0x40 of its scratchpad in window 1, and an STSC to it in the buffer of a core. -/
def scLoad : State :=
  let s := base.modThr fun t => { t with pend := [{ Pending.awaited true with tok := 0, dst := .g 1 }], seq := 1 }
  { s with hem := [(0, 1)], net := { s.net with reqs := [⟨0, 0, ⟨1, 0⟩, 0, .load 8 true, ⟨0xFFFFFE0000000040, .scratch 0 0, 0, own 0x40, 0, 0⟩, 0, true, 6, false, some 1, none⟩] } }
def scStore (core num notBefore : Nat) : SbEntry :=
  ⟨num, 0, ⟨1, core⟩, .stsc, ⟨0xFFFFFE0000000040, .scratch 0 0, 0, own 0x40, 0, 0⟩, 8, 0x99, false, 6, 0, notBefore, false, false, none⟩

/-- An LDSC that becomes a request; one before its cc and one behind an SC store; an STSC that is announced, and one that waits for an earlier store; one before its cc and one behind others in S; one that has been applied. -/
theorem witness_SequentialAccesses : ([
  rdl (at_ (own 0x40)) [.g 8] (.g 1) fun s1 vs => ac s1 (vs.headD 0) (accOrdered .load) true false fun s2 l =>
     stays s2 l false false && s2.ownBefore s2.thr 6 && s2.look s2.core [(l.key, 8)] == .memory && s2.slotFree && s2.thr.dropped.isNone && ok (exec (.ldsc ⟨false, .g 1, .g 8, 6⟩) (at_ (own 0x40))) fun t =>
       (t.net.reqs.map fun r => r.win) == [some 1] && t.hem == [(0, 1)] && (t.thr.park.map fun p => p.code) == some 25,
  rdl (stored 0xFFFFFE0000000040) [.g 8] (.g 1) fun s1 vs => ac s1 (vs.headD 0) (accOrdered .load) true false fun s2 l =>
     stays s2 l false false && !s2.ownBefore s2.thr 6 && ok (exec (.ldsc ⟨false, .g 1, .g 8, 6⟩) (stored 0xFFFFFE0000000040)) fun t =>
       t == (stored 0xFFFFFE0000000040).parkOn 25 0 50,
  [(79, true), (80, false)].all fun x =>
   let s : State := { scLoad with cc := x.1 }
   (s.net.reqs.all fun r => r.win == some 1 && !s.scStoreBefore (1, r.core) (some [(r.loc.key, 8)])) && ok (exec (.remoteWordRequest 0) s) (fun _ => true) != x.2,
  (let s : State := { scLoad with cc := 80, cores := [{ Core.fresh 1 with sb := [scStore 1 1 80] }] }
   (s.net.reqs.all fun r => s.scStoreBefore (2, r.core) (some [(r.loc.key, 8)]))),
  [at_ (own 0x40), stored 0xFFFFFE0000000080].all fun s => s.thr.phase == 0 && rd s [.g 2, .g 8] .gz fun s1 vs =>
    ac s1 (vs.getD 1 0) (accOrdered .store) false true fun s2 l => stays s2 l true false && !s2.sbFull && s2.thr.dropped.isNone &&
      (s2.core.sb.all fun e => e.num != s2.core.sbNum) && ok (exec (.stsc ⟨false, .g 2, .g 8, 6⟩) s) fun t =>
        (t.core.sb.getLast?.any fun e => e.kind == .stsc && e.rel == !s2.core.sb.isEmpty && t.thr.pc == 0x10000),
  [false, true].all fun held =>
   let e := scStore 0 0 never
   let s : State := { (at_ (own 0x40)).modThr (fun t => { t with phase := 2 }) with core := { base.core with sb := (if held then [{ e with kind := .store, loc := { e.loc with key := 0xFFFFFE0000000080 } }] else []) ++ [{ e with num := 1, rel := true }], sbNum := 2 } }
   (s.core.sb.find? fun e => e.num == s.thr.phase - 1).any (fun e => e.notBefore == never && s.ordered 0 0 e.num e.tok e.scope == !held) &&
     ok (exec (.stsc ⟨false, .g 2, .g 8, 6⟩) s) fun t => if held then t == s.parkOn 25 0 9 else t.hem == [(0, 1)] && (t.core.sb.map fun e => e.notBefore) == [80],
  [79, 80].all fun n => let s : State := { base with cc := n, core := { base.core with sb := [scStore 0 0 80], sbNum := 1 } }
   ok (exec (.storeBufferApply 0 0) s) (fun _ => true) == (n == 80),
  (let s : State := { base with cc := 100, core := { base.core with sb := [scStore 0 0 88], sbNum := 1 }, cores := [{ Core.fresh 1 with sb := [scStore 1 0 80], sbNum := 1 }] }
   s.scStoreBefore (2, 0) (some [(scStore 0 0 88).cover]) && !ok (exec (.storeBufferApply 0 0) s) (fun _ => true) && ok (exec (.storeBufferApply 1 0) s) fun _ => true),
  (let s : State := { scLoad with cc := 100, core := { base.core with sb := [scStore 0 0 88], sbNum := 1 } }
   s.scLoadBefore (2, 0) [(scStore 0 0 88).cover] && !ok (exec (.storeBufferApply 0 0) s) (fun _ => true)),
  (let s := base.modThr fun t => { t with phase := 5 }
   (s.core.sb.all fun e => e.num != s.thr.phase - 1) && ok (exec (.stsc ⟨false, .g 2, .g 8, 6⟩) s) fun t => t == s.retire false)] : List Bool).all id = true := by decide +kernel

/-- Each operation on a scratchpad word; FETST of an empty word, of a full one, and of one of another core. -/
theorem witness_FullEmptyWords : ([
  [Instr.ldf ⟨false, .g 1, .g 8, 3⟩, .ldfe ⟨false, .g 1, .g 8, 3⟩].all fun i => rdl (at_ (own 0x40)) [.g 8] (.g 1) fun s1 vs =>
    ac s1 (vs.headD 0) (accFull .load) true false fun s2 l => !s2.ownBuffered l.key 8 && !s2.ownPending l [(l.key, 8)] && s2.slotFree &&
      ok (exec i (at_ (own 0x40))) fun t => t.net.fe.length == 1 && (t.thr.park.map fun p => p.code) == some 2,
  [3, 9].all fun sc => rd (at_ (own 0x40)) [.g 2, .g 8] .gz fun s1 vs => ac s1 (vs.getD 1 0) accFill false true fun s2 _ =>
    !s2.sbFull && s2.thr.dropped.isNone && ok (exec (.stef ⟨false, .g 2, .g 8, sc⟩) (at_ (own 0x40))) fun t => (t.thr.park.map fun p => p.code) == some 2,
  [true, false].all fun full => let s : State := { at_ (own 0x40) with mem := base.mem.setFull 0xFFFFFE0000000040 full }
   rdl s [.g 8] (.g 1) fun s1 vs => ac s1 (vs.headD 0) (accFull .load) true false fun s2 l =>
    !s2.ownBuffered l.key 8 && !s2.away l && !s2.ownPending l [(l.key, 8)] && quiet s2 && free s2 && (s2.coreOf ((l.key - scratchBase) / 0x100000)).waits == [] &&
    ok (exec (.fetst ⟨false, .g 1, .g 8, 0⟩) s) fun t => !t.mem.isFull l.key && (t.thr.pend.map fun p => p.val) == [if full then 1 else 0],
  rdl (at_ (far 0x40)) [.g 8] (.g 1) fun s1 vs => ac s1 (vs.headD 0) (accFull .load) true false fun s2 l =>
    !s2.ownBuffered l.key 8 && s2.away l && s2.slotFree && ok (exec (.fetst ⟨false, .g 1, .g 8, 0⟩) (at_ (far 0x40))) fun t => t.net.reqs.length == 1] : List Bool).all id = true := by decide +kernel

/-- A full/empty operation that stands at the word 0x40 of core 0, the word full or empty, n operations waiting there. -/
def feState (k : FeKind) (full : Bool) (n : Nat) : State :=
  let e : WaitEntry := ⟨k, 0xFFFFFE0000000040, 0, 0, 0, 0x77, 1, false, false⟩
  let s : State := { base with net := { base.net with fe := [⟨0, 0xFFFFFE0000000040, e⟩] } }
  { s with mem := s.mem.setFull 0xFFFFFE0000000040 full, core := { s.core with waits := List.replicate n { e with frame := 9 } } }

/-- The request of a state that holds one. -/
def feOk (s : State) (f : WaitEntry → Bool) : Bool := match s.net.fe with
  | [r] => s.mem.wf && free s && (s.coreOf r.core).reset.isNone && s.tenantHolds r.e && isScratchKey r.e.key && r.e.key % 8 == 0 &&
      decide ((s.coreOf (homeOf r.e.key r.e.core)).waits.length ≤ 128) && f r.e
  | _ => false

/-- Each operation that can proceed; one that waits; one that a full table turns away; a retry. -/
theorem witness_FullEmptyTable : ([
  feOk (feState .ldf true 0) fun e => (feState .ldf true 0).feReady e && ok (exec (.fullEmptyApply 0 e.key) (feState .ldf true 0)) fun t => t.mem.isFull e.key && t.thr.pc == 0x10004,
  [FeKind.ldf, .ldfe].all fun k =>
   let s := withWordAt ((feState k true 0).modThr fun t => { t with pend := [{ Pending.awaited true with tok := 0, dst := .g 1 }] }) 0xFFFFFE0000000040 0x1234
   s.thr.live && ok (exec (.fullEmptyApply 0 0xFFFFFE0000000040) s) fun t => (t.thr.pend.map fun p => (p.tok, p.ready, p.val)) == [(0, true, 0x1234)],
  feOk (feState .ldfe true 0) fun e => (feState .ldfe true 0).feReady e && ok (exec (.fullEmptyApply 0 e.key) (feState .ldfe true 0)) fun t => !t.mem.isFull e.key,
  feOk (feState .stef false 0) fun e => (feState .stef false 0).feReady e && ok (exec (.fullEmptyApply 0 e.key) (feState .stef false 0)) fun t =>
    t.mem.isFull e.key && t.numAt e.key 8 == 0x77,
  feOk (feState .ldf false 127) fun e => !(feState .ldf false 127).feReady e && ok (exec (.fullEmptyApply 0 e.key) (feState .ldf false 127)) fun t => t.core.waits.length == 128,
  feOk (feState .stef true 128) fun e => !(feState .stef true 128).feReady e && ok (exec (.fullEmptyApply 0 e.key) (feState .stef true 128)) fun t => t.core.retries.length == 1,
  (let e : WaitEntry := ⟨.ldf, 0xFFFFFE0000000040, 0, 0, 0, 0, 1, false, false⟩
   let s : State := { base with core := { base.core with retries := [(256, e)] }, cc := 255 }
   ((s.coreOf 0).retries.find? fun r => r.2.frame == 0) == some (256, e) && s.tenantHolds e && (s.coreOf (homeOf e.key e.core)).reset.isNone &&
     !ok (exec (.waitTableRetry 0 0) s) (fun _ => true) && ok (exec (.waitTableRetry 0 0) { s with cc := 256 }) fun t => t.core.retries.isEmpty)] : List Bool).all id = true := by decide +kernel

/-- The word 0x40 of the own scratchpad holds 7. -/
def seven (a : Word) : State := withWordAt (at_ a) 0xFFFFFE0000000040 7

/-- A launch held on the word at 0x220008. -/
def depWaiter : Launch := { placedLaunch with id := 2, status := .held, info := { placedLaunch.info with depk := 1, depv := hbm 8 } }

/-- Each atomic performed in the core, with an order of each kind; one that meets poison; one at another core; a releasing one; sequentially consistent ones, with nothing older under way. -/
theorem witness_Atomics : ([
  [Instr.aadd ⟨false, .g 1, .g 3, .g 8, 0, 0⟩, .aand ⟨false, .g 1, .g 3, .g 8, 1, 3⟩, .aor ⟨false, .g 1, .g 3, .g 8, 2, 0⟩, .axor ⟨false, .g 1, .g 3, .g 8, 0, 0⟩,
    .amin ⟨false, .g 1, .g 3, .g 8, 0, 0⟩, .amax ⟨false, .g 1, .g 3, .g 8, 0, 0⟩, .aminu ⟨false, .g 1, .g 3, .g 8, 0, 0⟩, .amaxu ⟨false, .g 1, .g 3, .g 8, 0, 0⟩,
    .aswp ⟨false, .g 1, .g 3, .g 8, 0, 0⟩, .acas ⟨false, .g 1, .g 3, .g 8, 0, 0⟩, .aaddW ⟨false, .g 1, .g 3, .g 8, 0, 0⟩, .acasW ⟨false, .g 1, .g 3, .g 8, 0, 0⟩].all fun i =>
    (atomForm i).any fun f => rdl (seven (own 0x40)) f.srcs f.d fun s1 vs => ac s1 (vs.getD 1 0) (accAtomic f.width .store) true true fun s2 l =>
      s2.mem.wf && free s2 && !s2.ownBuffered l.key f.width && s2.serve l true true == .here && !s2.ownPending l [(l.key, f.width)] && !s2.depWord l.key &&
      (s2.missLine s2.core.id l true).isNone && quiet s2 && f.ord != 3 && (f.ord != 2 || f.scope == 0) && !s2.mem.isPoisoned l.key &&
      ok (exec i (seven (own 0x40))) fun t =>
        (t.thr.pend.map fun p => p.val) == [7] && (match f.new 7 5 ((vs.getD 2 0).toNat % 256 ^ f.width) with
          | some v => t.numAt l.key f.width == v
          | none => t.numAt l.key 8 == 7),
  (let s : State := { seven (own 0x40) with mem := (seven (own 0x40)).mem.setPoison 0xFFFFFE0000000040 true }
   s.mem.isPoisoned 0xFFFFFE0000000040 && ok (exec (.aadd ⟨false, .g 1, .g 3, .g 8, 0, 0⟩) s) fun t => t.mem == s.mem && (t.thr.pend.map fun p => p.poison) == [some (own 0x40)]),
  [(Instr.aadd ⟨false, .g 1, .g 3, .g 8, 0, 0⟩, seven (far 0x40)), (.aadd ⟨false, .g 1, .g 3, .g 8, 2, 3⟩, seven (own 0x40)), (.aadd ⟨false, .g 1, .g 3, .g 8, 2, 9⟩, seven (own 0x40)),
   (.aadd ⟨false, .g 1, .g 3, .g 8, 0, 0⟩, seven (hbm 8)), (.aadd ⟨false, .g 1, .g 3, .g 8, 1, 6⟩, seven (hbm 8)), (.aadd ⟨false, .g 1, .g 3, .g 8, 3, 6⟩, seven (own 0x40)), (.aadd ⟨false, .g 1, .g 3, .g 8, 3, 0⟩, seven (far 0x40))].all fun x =>
    (atomForm x.1).any fun f => rdl x.2 f.srcs f.d fun s1 vs => ac s1 (vs.getD 1 0) (accAtomic f.width .store) true true fun s2 l =>
      !s2.ownBuffered l.key f.width && stays s2 l true true && s2.slotFree && s2.thr.dropped.isNone &&
      (if f.ord == 3 then still s2 else s2.serve l true true == .remote || (f.ord == 2 && f.scope != 0) || (s2.missLine s2.core.id l true).isSome) &&
      ok (exec x.1 x.2) fun t => (t.net.reqs.map fun r => r.win) == [if f.ord == 3 then some 1 else none] && t.thr.pc == 0x10004,
  (let s : State := { seven (hbm 8) with launcher := { base.launcher with list := [placedLaunch, depWaiter] } }
   rdl s [.g 3, .g 8] (.g 1) fun s1 vs => ac s1 (vs.getD 1 0) (accAtomic 8 .store) true true fun s2 l =>
     s2.depWord l.key && stays s2 l true true && s2.slotFree && ok (exec (.aadd ⟨false, .g 1, .g 3, .g 8, 0, 0⟩) s) fun t => t.net.reqs.length == 1)] : List Bool).all id = true := by decide +kernel

/-- A request of the thread for the word 0x40 of core 1's scratchpad. -/
def asked (k : ReqKind) : State :=
  let s := base.modThr fun t => { t with pend := [{ Pending.awaited true with tok := 0, dst := .g 1 }], seq := 1 }
  { s with net := { s.net with reqs := [⟨0, 0, ⟨1, 0⟩, 0, k, ⟨0xFFFFFE0000100040, .scratch 1 0, 0, far 0x40, 0, 0⟩, 0, false, 0, true, none, none⟩] } }

/-- A prefetch of a line of HBM into the L1, on the lane at window 1, at the end of its wait. -/
def prefetching : State :=
  { base with cc := 80, net := { base.net with reqs := [⟨0, 0, ⟨1, 0⟩, 0, .pref false, ⟨0x40220000, .hbm, 0, hbm 0, 0, 0⟩, 0, false, 0, false, none, some (1, 0)⟩] } }

/-- A combination begun at cc 100 for that word. -/
def combining (cc : Nat) : State :=
  { base with cc := cc, net := { base.net with aggs := [⟨0, ⟨0xFFFFFE0000100040, .scratch 1 0, 0, far 0x40, 0, 0⟩, 100, [⟨1, 0, 0, 3, 6, 1, 0⟩, ⟨0, 0, 0, 3, 5, 1, 0⟩]⟩] } }

/-- A load, an exchange, an addition, an LRES and a prefetch performed; an empty buffer; AADD.agg issued; a combination before and after its 16 cc. -/
theorem witness_RequestsPerformed : ([
  ([ReqKind.load 8 false, .atomic 8 8 5 0, .atomic 0 8 5 0, .lres].map asked ++ [prefetching]).all fun s => match s.net.reqs with
    | [r] => s.mem.wf && free s && s.canServe [] r && s.reachableAs r.core r.loc r.kind.excl (s.hereReq r) && s.core.id == r.core && quiet s && plain r.loc &&
        (!s.missesReq r || r.lane.any fun p => s.laneTurn r.core (r.loc.key / 64) p) && (s.hereReq r || s.bankTurn r.loc r.core) && s.thr.live &&
        (r.kind != .pref false || s.mayCache r.core r.loc) && ok (exec (.remoteWordRequest 0) s) fun t => t.net.reqs.isEmpty && (t.thr.pend.all fun p => p.ready) &&
          (r.kind != .lres || t.thr.resv.isSome) && (r.kind != .pref false || ((t.coreOf 0).l1Find (r.loc.key / 64)).isSome)
    | _ => false,
  !(asked (.load 8 false)).mem.isPoisoned 0xFFFFFE0000100040 && ((asked .lres).coreOf 0).sb == [],
  rdl (at_ (far 0x40)) [.g 3, .g 8] (.g 1) fun s1 vs => ac s1 (vs.getD 1 0) (accAtomic 4 .store) true true fun s2 l =>
    !s2.ownBuffered l.key 4 && !s2.ownOrdered l 4 && !s2.ownPending l [(l.key, 4)] && s2.slotFree && ok (exec (.aaddAgg ⟨false, .g 1, .g 3, .g 8⟩) (at_ (far 0x40))) fun t => t.net.aggs.length == 1,
  let s := fun cc => (combining cc).modThr fun t => { t with pend := [{ Pending.awaited true with tok := 3, dst := .g 1 }] }
  match (s 115).net.aggs with
    | [a] => (s 115).mem.wf && free (s 115) && (a.parts.map fun p => (p.core, p.frame, p.tok)) == [(1, 0, 3), (0, 0, 3)] && (s 115).reachable 1 a.loc true && quiet (s 115) && !(s 115).mem.isPoisoned a.loc.key &&
        !ok (exec (.aggCombine 0) (s 115)) (fun _ => true) && ok (exec (.aggCombine 0) (s 116)) fun t => t.numAt a.loc.key 4 == 11 &&
          (t.thr.pend.map fun p => (p.ready, p.val)) == [(true, 6)]
    | _ => false] : List Bool).all id = true := by decide +kernel

/-- The thread holds a reservation taken at cc 0 on the line of the word 0x40 of its scratchpad; its SCON stands in the buffer. -/
def sconned (cc : Nat) : State :=
  let s := base.modThr fun t => { t with resv := some ⟨0xFFFFFE0000000040 / 64, 0⟩, pend := [{ Pending.awaited true with tok := 0, dst := .g 1 }], seq := 1 }
  { s with cc := cc, core := { s.core with sb := [⟨0, 0, ⟨1, 0⟩, .scon 0, ⟨0xFFFFFE0000000040, .scratch 0 0, 0, own 0x40, 0, 0⟩, 8, 0x99, false, 0, 0, 0, false, false, none⟩], sbNum := 1 } }

/-- LRES in the core and elsewhere, SCON, WRS with and without the reservation; the lapse before and at 4,096 cc; an SCON that succeeds and one that fails. -/
theorem witness_Reserved : ([
  (let s := { peered 0x2F with core := base.core }
   rdl s [.g 8] (.g 1) (fun s1 vs => ac s1 (vs.headD 0) (accAtomic 8 .load) true false fun _ l => l.isPeer && ok (exec (.lres ⟨false, .g 1, .g 8, 1, 0⟩) s) fun t => t == s.trap (cause cPROT (hbm 8))) &&
   rdl s [.g 3, .g 8] (.g 1) fun s1 vs => ac s1 (vs.getD 1 0) (accAtomic 8 .store) false true fun _ l => l.isPeer && ok (exec (.scon ⟨false, .g 1, .g 3, .g 8, 0, 0⟩) s) fun t =>
     t == s.trap ⟨cPROT, true, false, hbm 8⟩),
  [own 0x40, hbm 8].all fun a => let s := seven a
   rdl s [.g 8] (.g 1) fun s1 vs => ac s1 (vs.headD 0) (accAtomic 8 .load) true false fun s2 l =>
    s2.look s2.core [(l.key, 8)] == .memory && s2.serve l false false == .here && !s2.ownPending l [(l.key, 8)] && plain l && s2.slotFor s2.core.id l false &&
    (s2.missLine s2.core.id l false).isSome == (a == hbm 8) && ok (exec (.lres ⟨false, .g 1, .g 8, 1, 0⟩) s) fun t =>
      if a == hbm 8 then t.net.reqs.length == 1 else t.thr.resv.isSome && (t.thr.pend.map fun p => p.val) == [7],
  rdl (at_ (far 0x40)) [.g 8] (.g 1) fun s1 vs => ac s1 (vs.headD 0) (accAtomic 8 .load) true false fun s2 l =>
    s2.look s2.core [(l.key, 8)] == .memory && s2.serve l false false == .remote && s2.slotFree && ok (exec (.lres ⟨false, .g 1, .g 8, 1, 0⟩) (at_ (far 0x40))) fun t => t.net.reqs.length == 1,
  [0, 9].all fun sc => rdl (at_ (own 0x40)) [.g 3, .g 8] (.g 1) fun s1 vs => ac s1 (vs.getD 1 0) (accAtomic 8 .store) false true fun s2 l =>
    !l.isPeer && stays s2 l true false && !s2.sbFull && s2.slotFree && s2.thr.dropped.isNone && ok (exec (.scon ⟨false, .g 1, .g 3, .g 8, 2, sc⟩) (at_ (own 0x40))) fun t => t.core.sb.length == 1,
  rd (at_ (own 0x40)) [.g 8] (.g 1) fun s1 vs => ac s1 (vs.headD 0) (accOrdered .load) true false fun s2 l => !s2.thr.holdsLine (l.key / 64) s2.cc &&
    ok (exec (.wrs ⟨false, .g 1, .g 8⟩) (at_ (own 0x40))) fun t => t.thr.g[1] == 1,
  (let s := withG (sconned 100) [(8, own 0x40)]
   rd s [.g 8] (.g 1) fun s1 vs => ac s1 (vs.headD 0) (accOrdered .load) true false fun s2 l => s2.thr.holdsLine (l.key / 64) s2.cc &&
     ok (exec (.wrs ⟨false, .g 1, .g 8⟩) s) fun t => (t.thr.park.map fun p => p.code) == some 10),
  !ok (exec (.reservationLapse 0 0) (sconned 4095)) (fun _ => true) && ok (exec (.reservationLapse 0 0) (sconned 4096)) fun t => t.thr.resv.isNone,
  (let s : State := { sconned 100 with mem := (sconned 100).mem.setPoison 0xFFFFFE0000000040 true }
   s.mem.isPoisoned 0xFFFFFE0000000040 && s.core.sb.all (fun e => s.canApply s.core.id [] e) && ok (exec (.storeBufferApply 0 0) s) fun t =>
     (t.thr.pend.map fun p => p.val) == [1] && t.thr.resv.isNone),
  [sconned 100, sconned 4096].all fun s => s.mem.wf && free s && quiet s && match s.core.sb with
    | [e] => s.canApply s.core.id [] e && !e.bad && s.thr.holdsLine (e.loc.key / 64) s.cc == (s.cc == 100) && ok (exec (.storeBufferApply 0 0) s) fun t =>
        (t.thr.pend.map fun p => p.val) == [if s.cc == 100 then 0 else 1] && (t.numAt e.loc.key 8 == if s.cc == 100 then 0x99 else 0)
    | _ => false] : List Bool).all id = true := by decide +kernel

/-- A fence with nothing older, at node scope with a dropped store and without, at thread scope with a load under way; a sequentially consistent one, announced and in its window; one with a load under way. -/
theorem witness_FenceCompletes : ([
  (rd base [] .gz fun _ _ => true) && still base && ok (exec (.fence ⟨false, 15, 0, 6⟩) base) fun t => t == base.retire false,
  base.thr.dropped.isNone && ok (exec (.fence ⟨false, 15, 0, 9⟩) base) fun t => t == base.retire false,
  (let s := base.modThr fun t => { t with dropped := some 0x55 }
   still s && ok (exec (.fence ⟨false, 15, 0, 7⟩) s) fun t => t == (s.modThr fun t => { t with dropped := none }).trap (cause cUCE 0x55)),
  base.thr.slot.isNone && ok (exec (.fence ⟨false, 15, 3, 6⟩) base) fun t => t.thr.slot == some 1 && t.hem == [(0, 1)],
  (let s : State := { base.modThr (fun t => { t with slot := some 1 }) with cc := 80 }
   !s.scStoreBefore (1, 0) none && !s.scLoadBefore (1, 0) none && ok (exec (.fence ⟨false, 15, 3, 6⟩) s) fun t => t.thr.slot.isNone && t.thr.pc == 0x10004),
  (let s := base.modThr fun t => { t with pend := [{ Pending.awaited true with dst := .g 1 }] }
   (s.thr.pend.any fun p => p.load) && s.thr.slot.isNone && [0, 6].all fun sc => ok (exec (.fence ⟨false, 4, 0, sc⟩) s) fun t => (t.thr.park.map fun p => p.code) == some 26),
  [1, 2].all fun m => let s := stored 0xFFFFFE0000000040
   s.thr.slot.isNone && s.thr.phase == 0 && (s.core.sb.any fun e => e.num < s.core.sbNum) && ok (exec (.fence ⟨false, m, 0, 6⟩) s) (fun t => (t.thr.park.map fun p => p.code) == some 26) &&
     (s.thr.pend.all fun p => !p.load && !p.cache) && ok (exec (.fence ⟨false, m, 0, 0⟩) s) fun t => t == s.retire false,
  (let s : State := { base with core := { base.core with sb := [scStore 0 0 0], sbNum := 1 } }
   (s.core.sb.all fun e => !e.forwards) && ok (exec (.fence ⟨false, 1, 0, 1⟩) s) fun t => (t.thr.park.map fun p => p.code) == some 26),
  (let s := base.modThr fun t => { t with pend := [{ Pending.awaited true with dst := .gz, load := false, cache := true }] }
   (s.thr.pend.any fun p => p.cache) && ok (exec (.fence ⟨false, 3, 0, 6⟩) s) fun t => (t.thr.park.map fun p => p.code) == some 26),
  (let s : State := { base with core := { base.core with sb := [{ scStore 0 0 0 with kind := .store, loc := ⟨0xFA00000000000, .peer 2, 0, hbm 8, 0, 0⟩ }], sbNum := 1 } }
   !s.peersDone s.thr && ok (exec (.fence ⟨false, 4, 0, 9⟩) s) fun t => (t.thr.park.map fun p => p.code) == some 26)] : List Bool).all id = true := by decide +kernel

/-- Cache operations on a line of memory; PREF of a page that is not mapped, of an uncached one, of the scratchpad, into the MSC, the L2
and the L1; WSWAIT outside and inside a refresh window. -/
theorem witness_LineOperations : ([
  rd (at_ (hbm 0x40)) [.g 8] .gz fun s1 vs => ac s1 (vs.headD 0) accLine false false fun s2 l =>
    l.cached && !s2.ownBuffered (l.key / 64 * 64) 64 && !s2.ownPending l [(l.key / 64 * 64, 64)] && s2.seamIdle (l.key / 64) &&
    [Instr.cflush ⟨false, .g 8, 0⟩, .cclean ⟨false, .g 8, 0⟩, .cinv ⟨false, .g 8, 0⟩].all fun i => ok (exec i (at_ (hbm 0x40))) fun t => t.thr.pc == 0x10004 && (t.thr.pend.map fun p => p.cache) == [true],
  rd (at_ 0x80000000) [.g 8] .gz fun s1 vs => !s1.thr.sup && decide ((vs.headD 0).toNat < 2 ^ 56) && !s1.mustWalk s1.thr (vs.headD 0) 1 && (match s1.access s1.thr (vs.headD 0) accLine with
    | .error _ => true
    | .ok _ => false) && ok (exec (.pref ⟨false, .g 8, 0, 0⟩) (at_ 0x80000000)) fun t => t == s1.finishLong false .gz (Pending.ofVal 0 0),
  rd (at_ (hbm 0x40)) [.g 8] .gz fun s1 vs => !s1.mustWalk s1.thr (vs.headD 0) 1 && match s1.access s1.thr (vs.headD 0) accLine with
    | .ok (l, some x) => l.cached && l.place == .hbm && (let s2 := s1.touch s1.core.id (s1.tableOf s1.thr) x false s1.thr.launch
        !s2.constPage (vs.headD 0).toNat && !s2.releasing l.key && !s2.caps.dless && ((s2.coreOf 0).l1Find (l.key / 64)).isNone && s2.slotFree &&
        [0, 1].all (fun h => ok (exec (.pref ⟨false, .g 8, h, 0⟩) (at_ (hbm 0x40))) fun t => (t.net.reqs.map fun r => r.kind) == [.pref (h == 1)] && t.thr.pc == 0x10004 &&
          (t.thr.pend.map fun p => p.line) == [some (l.key / 64)]) &&
        ok (exec (.pref ⟨false, .g 8, 2, 0⟩) (at_ (hbm 0x40))) (fun t => t.msc.any fun m => m.block == l.key / 64 * 64 / 512))
    | _ => false,
  rd (at_ (own 0x40)) [.g 8] .gz fun s1 vs => !s1.mustWalk s1.thr (vs.headD 0) 1 && match s1.access s1.thr (vs.headD 0) accLine with
    | .ok (l, none) => !l.cached && ok (exec (.pref ⟨false, .g 8, 0, 0⟩) (at_ (own 0x40))) fun t => t.core.l1 == []
    | _ => false,
  (let s : State := { at_ (hbm 0x40) with mem := { base.mem with bytes := writeBytes base.mem.bytes 0x200000 8 0x4000006F } }
   rd s [.g 8] .gz fun s1 vs => match s1.access s1.thr (vs.headD 0) accLine with
     | .ok (l, some _) => !l.cached && ok (exec (.pref ⟨false, .g 8, 0, 0⟩) s) fun t => t.core.l1 == []
     | _ => false),
  (let s : State := { at_ (hbm 0x40) with core := { base.core with l1 := [⟨0x40220040 / 64, .s⟩] } }
   rd s [.g 8] .gz fun s1 vs => match s1.access s1.thr (vs.headD 0) accLine with
     | .ok (l, some _) => l.cached && (s1.core.l1Find (l.key / 64)).isSome && ok (exec (.pref ⟨false, .g 8, 0, 0⟩) s) fun t => t.net.reqs.isEmpty
     | _ => false),
  (let s : State := { at_ (hbm 0x40) with caps := { base.caps with dless := true }, mem := { base.mem with bytes := writeBytes base.mem.bytes 0x200000 8 0x100000000002F } }
   rd s [.g 8] .gz fun s1 vs => match s1.access s1.thr (vs.headD 0) accLine with
     | .ok (l, some _) => s1.caps.dless && l.cached && (beyond (l.key / 64) || homeQuad s1.pkg l.key / 64 != dieOf s1.core.id) && ok (exec (.pref ⟨false, .g 8, 0, 0⟩) s) fun t => t.thr.pc == 0x10004
     | _ => false),
  [(5000, 0x10004), (100, 0x10000)].all fun x =>
    let s : State := { at_ 0xFFFFFD0000000000 with cc := x.1 }
    rd s [.g 8] .gz fun s1 vs => ac s1 (vs.headD 0) ⟨1, .load, fun _ => false, true, false, false, false⟩ false false fun s2 l =>
      l.place == .weight (dieOf s2.core.id) && refreshing s2.cc ((l.key - weightBase) % 0x40000000 / 0x1800000) == (x.1 == 100) && !s.thr.wake &&
      ok (exec (.wswait ⟨false, .g 8, 0⟩) s) fun t => t.thr.pc == BitVec.ofNat 64 x.2] : List Bool).all id = true := by decide +kernel

/-- An entry of the own thread in its deque, and one of a thread of another launch. -/
def ownEntry (pc : Word) : DqEntry := ⟨pc, 1, 2, 3, 4, maxKey, 1, some 0, false⟩
def deq (l : List DqEntry) : State := { base with core := { base.core with deque := l } }

/-- The thread asks the core of an entry in the middle of a steal walk. -/
def walking (r : Option (Option DqEntry)) : State :=
  { base.modThr (fun t => { t with walk := some ⟨[1, 2], r⟩, park := some ⟨22, 0, 0, 0, none⟩ }) with
    cores := [{ Core.fresh 1 with deque := [ownEntry 0x20] }] }

/-- SPAWN with room and with none; SRET and WORK with an own entry and without; SYNC at 0 and above; the recheck; a steal and its reply. -/
theorem witness_TaskSteals : ([
  rd (withG base [(14, own 0x40)]) [.g 14] .gz fun s1 vs => vs == [own 0x40] && base.thr.walk.isNone && !s1.thr.damage.contains 21 && !s1.killDue && decide (s1.core.deque.length < 64) &&
    ok (exec (.spawn ⟨false, 8⟩) (withG base [(14, own 0x40)])) fun t => t.thr.pc == 0x10020 && t.core.deque.length == 1 && t.thr.g[13] == own 0x40,
  (let s := deq (List.replicate 64 { ownEntry 0x20 with launch := 9 })
   rd s [.g 14] .gz fun s1 vs =>
     (s1.pushDeque s1.core.id ⟨s1.thr.pc + 4, s1.thr.g[11], s1.thr.g[12], s1.thr.g[13], vs.headD 0, s1.thr.tb, s1.thr.launch, some s1.thr.idx, false⟩).isNone &&
     ok (exec (.spawn ⟨false, 8⟩) s) fun t => t == s.trap (cause cQUEUE 19)),
  [(Instr.sret ⟨false⟩, [Src.g 13]), (.work ⟨false⟩, [])].all fun x =>
    let s := deq [ownEntry 0x20, ownEntry 0x30]
    rd s x.2 .gz fun s1 _ => s1.thr.core == s1.core.id && s1.core.deque == [ownEntry 0x20] ++ [ownEntry 0x30] && (ownEntry 0x30).tag == some s1.thr.idx &&
      (ownEntry 0x30).launch == s1.thr.launch && (ownEntry 0x30).tb == maxKey && ((s1.launchOf s1.thr.launch).all fun l => l.ovf s1.core.id == 0) && ok (exec x.1 s) fun t => t.thr.pc == 0x30 && t.thr.g[14] == 4,
  [(Instr.sret ⟨false⟩, [Src.g 13]), (.work ⟨false⟩, [])].all fun x =>
    let s := deq [{ ownEntry 0x20 with launch := 9 }]
    rd s x.2 .gz fun s1 vs => vs == x.2.map (fun _ => 0) && (s1.core.deque.all fun e => e.launch != s1.thr.launch) && s1.thr.core == s1.core.id && ok (exec x.1 s) fun t => t.thr.walk.any fun w => w.reply.isNone,
  [0, 1].all fun n =>
    let s := withG (withWordAt base 0xFFFFFE0000000040 n) [(14, own 0x40)]
    s.thr.phase == 0 && rd s [.g 14] .gz fun s1 vs => !s1.killDue && ac (s1.phase 1) (vs.headD 0) (accOrdered .load) true false fun s2 l =>
      s2.look s2.core [(l.key, 8)] == .memory && stays s2 l false false && !s2.ownOrdered l 8 && !s2.mem.poisoned [(l.key, 8)] && !s2.ownPending l [(l.key, 8)] && !s2.refreshes l && s2.reachable s2.core.id l false &&
      s2.mem.read l.key 8 % 2 ^ 32 == n && !s2.thr.wake && ok (exec (.sync ⟨false⟩) s) fun t => if n == 0 then t.thr.pc == 0x10004 else (t.thr.park.map fun p => p.code) == some 3,
  (let s := base.modThr fun t => { t with park := some ⟨3, 0, 0, 10, none⟩ }
   !ok (exec (.syncRecheck 0 0) { s with cc := 4105 }) (fun _ => true) && ok (exec (.syncRecheck 0 0) { s with cc := 4106 }) fun t => t.thr.park.isNone),
  (let s := walking none
   s.thr.walk == some ⟨1 :: [2], none⟩ && s.enabled 1 && (s.coreOf 1).reset.isNone && ((s.launchOf 1).all fun l => l.ovf 1 == 0) && (s.launchOf s.thr.launch).isSome && s.thr.core == s.core.id &&
   ok (exec (.stealRequest 0 0 1) s) fun t => t.thr.walk == some ⟨[1, 2], some (some (ownEntry 0x20))⟩ && (t.coreOf 1).deque == []),
  (let s : State := { walking none with caps := { base.caps with disabled := [1] } }
   !s.enabled 1 && ok (exec (.stealRequest 0 0 1) s) fun t => t.thr.walk == some ⟨[2], none⟩),
  ok (exec (.stealReply 0 0) (walking (some (some (ownEntry 0x20))))) (fun t => t.thr.park.isNone) && ok (exec (.stealReply 0 0) (walking (some none))) fun t => t.thr.walk == some ⟨[2], none⟩] : List Bool).all id = true := by decide +kernel

/-- A launch whose rectangle is the first 2 by 2 cores. -/
def launch4 : Launch := { placedLaunch with info := { placedLaunch.info with extx := 1, exty := 1, tpc := 1, args := 0x77 } }
def inRect : State := { base with launcher := { base.launcher with list := [launch4] } }

/-- SEND and SENDI to a core of the rectangle and to none; arrivals at a qrx and a qup. -/
theorem witness_Messages : ([
  rd (withG inRect [(2, 5), (3, 1)]) [.g 2, .g 3] .gz fun s1 vs => vs == [5, 1] && s1.placeOf 1 == some 1 && (s1.coreOf 1).reset.isNone && s1.qrxRoom 1 &&
    ok (exec (.send ⟨false, .g 2, .g 3⟩) (withG inRect [(2, 5), (3, 1)])) fun t => t.net.sends.length == 1 && t.thr.pc == 0x10004,
  rd inRect [.g 2] .gz fun s1 _ => s1.placeOf 16 == none && ok (exec (.sendi ⟨false, .g 2, 16⟩) inRect) fun t => t == inRect.trap (cause cPLACE 16),
  rd inRect [.g 2] .gz fun s1 _ => s1.placeOf 32 == some 16 && ok (exec (.sendi ⟨false, .g 2, 32⟩) inRect) fun t => t.net.sends.length == 1,
  (let s : State := { inRect with net := { inRect.net with sends := [⟨0, 0, 1, 0, 1, 5, 0, 0⟩], pushes := [⟨0, 0, 1, 0, 1, 6, 0, 0⟩] } }
   (s.net.sends.all fun m => s.msgReady [] m) && (s.net.pushes.all fun m => s.msgReady [] m) &&
   ok (exec (.qrxMessageArrival 0) s) (fun t => (t.coreOf 1).qrx == [5]) && ok (exec (.qdnPushArrival 0) s) fun t => (t.coreOf 1).qup == [6])] : List Bool).all id = true := by decide +kernel

/-- QCFG in each form; WAIT with a word, without, and by a thread that owns no queues; its limit; ANCH and ROAM. -/
theorem witness_QueuesAndEngines : ([
  rd (withG queued [(2, 0)]) [.g 2, .g 3] .gz fun s1 vs => !(vs.getD 0 0).getLsbD 0 && s1.core.qOwner == some s1.thr.frame && ok (exec (.qcfg ⟨false, .g 2, .g 3⟩) (withG queued [(2, 0)])) fun t => t.core.qOwner.isNone,
  rd (withG base [(2, 1)]) [.g 2, .g 3] .gz fun s1 vs => (vs.getD 0 0).getLsbD 0 && !(vs.getD 0 0).getLsbD 1 && s1.core.qOwner.isNone && ok (exec (.qcfg ⟨false, .g 2, .g 3⟩) (withG base [(2, 1)])) fun t => t.core.qOwner == some 0,
  rd (withG inRect [(2, 3), (3, 1)]) [.g 2, .g 3] .gz fun s1 vs => s1.placeOf (vs.getD 1 0) == some 1 && ok (exec (.qcfg ⟨false, .g 2, .g 3⟩) (withG inRect [(2, 3), (3, 1)])) fun t => t.core.qdn == some 1,
  (let s : State := { withG base [(2, 1)] with core := { base.core with qOwner := some 4 } }
   ok (exec (.qcfg ⟨false, .g 2, .g 3⟩) s) fun t => t == s.trap (cause cQUEUE 20)),
  rd queued [.g 2] .gz fun s1 _ => s1.core.qrx != [] && ok (exec (.wait ⟨false, .g 2⟩) queued) fun t => t == s1.retire true,
  [0, 50].all fun n =>
    let s : State := { withG base [(2, n)] with core := { base.core with qOwner := some 0 } }
    rd s [.g 2] .gz fun s1 _ => s1.core.qrx == [] && ok (exec (.wait ⟨false, .g 2⟩) s) fun t => t.thr.pc == 0x10004 && t.thr.park.any fun p => p.code == 9 && p.since == 0 && p.until? == if n == 0 then none else some 50,
  base.core.qOwner != some base.thr.frame && ok (exec (.wait ⟨false, .g 2⟩) base) fun t => t == base.trap (cause cQUEUE 18),
  (let s := base.modThr fun t => { t with park := some ⟨9, 0, 0, 0, some 50⟩ }
   s.thr.pend == [] && !ok (exec (.waitTimeout 0 0) { s with cc := 49 }) (fun _ => true) && ok (exec (.waitTimeout 0 0) { s with cc := 50 }) fun t => t.thr.park.isNone),
  base.thr.core == base.core.id && !base.thr.anchored && base.core.eng.owner.isNone && ok (exec (.anch ⟨false⟩) base) fun t => t.thr.anchored && t.core.eng.owner == some 0,
  ok (exec (.anch ⟨false⟩) { base with core := { base.core with eng := { base.core.eng with owner := some 4 } } }) fun t => (t.thr.park.map fun p => p.code) == some 11,
  ok (exec (.anch ⟨false⟩) (base.anchor 0 0)) fun t => t.thr.anchored && t.thr.pc == 0x10004,
  ok (exec (.roam ⟨false⟩) base) fun t => t == base.retire false,
  (let s := base.anchor 0 0
   s.thr.anchored && s.core.eng.coll.isNone && !s.core.eng.busyFor s.thr.frame && (s.all.all fun t => (t.park.map fun p => p.code) != some 11) && ok (exec (.roam ⟨false⟩) s) fun t => !t.thr.anchored && t.core.eng.owner.isNone)] : List Bool).all id = true := by decide +kernel

/-- A parked thread at every position of core 0. -/
def fullCore : State := { inRect with threads := (List.range 32).map fun n => { base.thr with frame := n + 1, pos := some n, idx := n + 1 } }

/-- FORK and FORKI to a place outside the package and outside the rectangle, to an entry that is no multiple of 4, to a free position and with none. -/
theorem witness_Forks : ([
  rdl (withG inRect [(2, 0x20000), (3, 0x4000)]) [.g 2, .g 3] (.g 1) fun s1 vs => !s1.thr.isSup && (s1.launchOf s1.thr.launch).any (fun l => l.id == s1.thr.launch) &&
    ((placeWord (vs.getD 1 0)).bind s1.resolvePlace).isNone && ok (exec (.fork ⟨false, .g 1, .g 2, .g 3⟩) (withG inRect [(2, 0x20000), (3, 0x4000)])) fun t => t.thr.tr.ecause == 0x11 || !t.thr.live,
  rdl (withG inRect [(2, 0x20000)]) [.g 2] (.g 1) fun s1 _ => ((placeWord 2).bind s1.resolvePlace) == some 2 && !launch4.info.holds s1.pkg 2 && ok (exec (.forki ⟨false, .g 1, .g 2, 2⟩) (withG inRect [(2, 0x20000)])) fun t =>
    t == (withG inRect [(2, 0x20000)]).trap (cause cPLACE 2),
  rdl (withG inRect [(2, 0x20002)]) [.g 2] (.g 1) fun s1 vs => launch4.info.holds s1.pkg 1 && !userPc (vs.headD 0).toNat && ok (exec (.forki ⟨false, .g 1, .g 2, 1⟩) (withG inRect [(2, 0x20002)])) fun t =>
    t == (withG inRect [(2, 0x20002)]).trap (cause cALIGN 0x20002),
  rdl (withG inRect [(2, 0x20000)]) [.g 2] (.g 1) fun s1 vs => userPc (vs.headD 0).toNat && still s1 && !s1.thr.damage.contains 21 &&
    (s1.freePos 1).find? (fun x => decide (x ≤ launch4.info.tpc)) == some 0 && (s1.freeFrames 1).head? == some 0 && ok (exec (.forki ⟨false, .g 1, .g 2, 1⟩) (withG inRect [(2, 0x20000)])) fun t => t.threads.length == 1,
  [none, some 9].all fun o =>
    let l : Launch := { launch4 with info := { launch4.info with anc := true } }
    let s : State := { withG inRect [(2, 0x20000)] with launcher := { base.launcher with list := [l] }, cores := [{ Core.fresh 1 with eng := { (Core.fresh 1).eng with owner := o } }] }
    rdl s [.g 2] (.g 1) fun s1 _ => (s1.freePos 1).head? == some 0 && (s1.coreOf 1).eng.owner == o && ok (exec (.forki ⟨false, .g 1, .g 2, 1⟩) s) fun t =>
      t.threads.all fun u => u.anchored == o.isNone && (u.park.map fun p => p.code) == o.map fun _ => 11,
  (let s : State := { withG inRect [(2, 0x20000)] with cores := [{ Core.fresh 1 with reset := some ⟨false⟩ }] }
   rdl s [.g 2] (.g 1) fun s1 _ => (s1.coreOf 1).reset.isSome && ok (exec (.forki ⟨false, .g 1, .g 2, 1⟩) s) fun t => t.threads == [] && (t.thr.pend.map fun p => p.val) == [0]),
  rdl (withG fullCore [(2, 0x20000)]) [.g 2] (.g 1) fun s1 _ => (s1.freePos 0).find? (fun x => decide (x ≤ launch4.info.tpc)) == none && ok (exec (.forki ⟨false, .g 1, .g 2, 0⟩) (withG fullCore [(2, 0x20000)])) fun t =>
    t.threads.length == 32 && (t.thr.pend.map fun p => p.val) == [0]] : List Bool).all id = true := by decide +kernel

/-- A barrier of core 0 of the launch with a count of n, one of them arrived at cc 5. -/
def barState (n : Nat) : State := { withG base [(2, 0x11), (3, 3)] with bars := [⟨1, 0, 1, some 1, n, 100, 1, 5, 7⟩], cc := 10 }

/-- BARCFG with a count and with none; arrivals below and at the count; BARQ; a limit before and after it has passed. -/
theorem witness_Barriers : ([
  rd (withG base [(2, 0x11), (3, 3)]) [.g 2, .g 3] .gz fun s1 vs => ((s1.selBarrier (vs.getD 0 0)).any fun b => b.holder.isNone) && fieldOf (vs.getD 1 0) 0 16 != 0 &&
    ok (exec (.barcfg ⟨false, .g 2, .g 3⟩) (withG base [(2, 0x11), (3, 3)])) fun t => (t.selBarrier 0x11).any fun b => b.holder == some 1 && b.count == 3,
  rd (withG base [(2, 0x11)]) [.g 2, .g 3] .gz fun _ vs => fieldOf (vs.getD 1 0) 0 16 == 0 && ok (exec (.barcfg ⟨false, .g 2, .g 3⟩) (withG base [(2, 0x11)])) fun t => t == (withG base [(2, 0x11)]).trap (cause cPROT 0x11),
  [(Instr.barw ⟨false, .g 2⟩, 3), (.bart ⟨false, .g 2⟩, 3), (.barw ⟨false, .g 2⟩, 2), (.bart ⟨false, .g 2⟩, 2)].all fun x => rd (barState x.2) [.g 2] .gz fun s1 vs =>
    ((s1.selBarrier (vs.headD 0)).any fun b => b.holder == some s1.thr.launch && !b.overdue s1.cc && decide (b.count ≤ b.arrived + 1) == (x.2 == 2)) && still s1 && s1.thr.park.isNone && ok (exec x.1 (barState x.2)) fun t => (t.selBarrier 0x11).any fun b => if x.2 == 2 then b.gen == 8 && b.arrived == 0 else b.arrived == 2,
  [Instr.barw ⟨false, .g 2⟩, .bart ⟨false, .g 2⟩].all fun i => let s : State := { barState 3 with cc := 105 }
    rd s [.g 2] .gz fun s1 vs => ((s1.selBarrier (vs.headD 0)).any fun b => b.holder == some s1.thr.launch && b.overdue s1.cc && s1.parkedOn b == []) && still s1 && ok (exec i s) fun t =>
      (t.selBarrier 0x11).any fun b => b.gen == 8 && b.arrived == 1 && b.first == 105,
  rdl (barState 3) [.g 2] (.g 1) fun _ _ => ok (exec (.barq ⟨false, .g 1, .g 2⟩) (barState 3)) fun t => (t.thr.pend.map fun p => p.val) == [7],
  (let s := (barState 3).modThr fun t => { t with park := some ⟨6, 0x11, barKey 1 0 1, 5, none⟩ }
   s.threads == [] && s.thr.live && !ok (exec (.barrierTimeout 0) { s with cc := 104 }) (fun _ => true) && ok (exec (.barrierTimeout 0) { s with cc := 105 }) fun t => t.bars.length == 1)] : List Bool).all id = true := by decide +kernel

/-- A callee at 0x10020 with the descriptor of one argument, join FIRST, table 2 before it. -/
def callee : State :=
  let s := (withG base [(1, 5), (2, 0x10020)]).modThr fun t => { t with walked := some 1 }
  { s with mem := { s.mem with bytes := writeBytes s.mem.bytes 0x40010010 8 0x5D1A00000081 }, launcher := { s.launcher with tables := [(2, 1)] } }

/-- The entry of its key. -/
def answer (st : TState) (p : Option Tid) : TEntry :=
  ⟨⟨2, 0x10020, [5]⟩, .first, st, 0x99, 3, p, false, [], none, 0, false, 0, 0⟩
def withEntry (e : TEntry) : State := { callee with table := { callee.table with entries := [e], prods := e.producer.toList.map fun t => ⟨t, [some e.key]⟩ } }

/-- A first call and a call of a complete key, by both words; TRET of the own entry; TABORT; TLOOK with an entry and without. -/
theorem witness_TableCalls : ([
  [(Instr.tcall ⟨false, 8⟩, []), (.tcallr ⟨false, .g 2⟩, [Src.g 2])].all fun x => [callee, withEntry (answer .complete none)].all fun s => rd s x.2 .gz fun s1 _ =>
    s.thr.walk.isNone && s1.target4 8 == 0x10020 && !s1.mustWalk s1.thr (0x10020 - 16) 8 && !s1.thr.damage.contains 21 && !s1.killDue && (match s1.descOf x.1 0x10020 with
      | .ok d => d.argc == 1 && s1.injectReg 1 == none && s1.keyOf d 0x10020 == (answer .complete none).key
      | .error _ => false) && decide (s1.table.entries.length < 8) && s1.table.groups == [] && ok (exec x.1 s) fun t =>
        t.thr.g[15] == 0x10004 && (if s.table.entries == [] then t.thr.pc == 0x10020 && t.table.entries.length == 1 else t.thr.g[1] == 0x99),
  (let s := withG (withEntry (answer .producing (some ⟨1, 0⟩))) [(1, 42), (15, 0x10004)]
   still s && rd s [.g 15] .gz fun s1 vs => s1 == s && vs == [0x10004] && s.stackOf s.thr.tid == [some (answer .complete none).key] && s.injectReg 1 == none &&
     (s.entryOf (answer .complete none).key).any (fun e => e.producer == some s.thr.tid && e.group.isNone && e.consumers == []) &&
     ok (exec (.tret ⟨false⟩) s) fun t => (t.entryOf (answer .complete none).key).any fun e => e.state == .complete && e.answer == 42),
  (let s := withEntry (answer .producing (some ⟨1, 0⟩))
   rd s [] .gz fun s1 _ => (s1.table.entries.all fun e => !e.consumers.contains s1.thr.tid) && s1.stackOf s1.thr.tid == [some (answer .complete none).key] && ok (exec (.tabort ⟨false⟩) s) fun t => (t.entryOf (answer .complete none).key).any fun e => e.state == .abandoned),
  [callee, withEntry (answer .complete none), withEntry (answer .failed none)].all fun s => rdl s [.g 2] (.g 3) fun s1 _ => !s1.mustWalk s1.thr (0x10020 - 16) 8 && (match s1.descOf (.tlook ⟨false, .g 3, .g 2⟩) 0x10020 with
    | .ok d => d.argc == 1
    | .error _ => false) && ok (exec (.tlook ⟨false, .g 3, .g 2⟩) s) fun t => !t.thr.pend.isEmpty] : List Bool).all id = true := by decide +kernel

/-- A supervisor thread on core 0. -/
def sup : State := (base.modThr fun t => { t with st := 1, launch := 0, frame := 62 })

/-- A group of one entry whose consumer, the issuing thread, is parked on it. -/
def grouped (dirty : Bool) : State :=
  let s := (withEntry { answer .grouped none with group := some 1, prov := 0x55 }).modThr fun t => { t with park := some ⟨5, 0, 3, 0, none⟩ }
  { s with table := { s.table with groups := [⟨1, .first, 0, dirty, []⟩] } }

/-- TFLUSH of a table in use and of one that is not; a clean and a dirty group that close. -/
theorem witness_TableFlushAndGroups : ([
  (let s := { withG sup [(2, 2)] with table := (withEntry (answer .complete none)).table, launcher := callee.launcher }
   s.thr.sup && rd s [.g 2] .gz fun s1 vs => (s1.launcher.tables.any fun x => x.1 == (vs.headD 0).toNat % 16 && (s1.launchOf x.2).any Launch.live) && s.thr.phase < flushKey && ok (exec (.tflush ⟨false, .g 2⟩) s) fun t => t == s.trap (cause cPROT 2)),
  (let s := { withG sup [(2, 2)] with table := (withEntry (answer .complete none)).table }
   rd s [.g 2] .gz fun s1 vs => !(s1.launcher.tables.any fun x => x.1 == (vs.headD 0).toNat % 16 && (s1.launchOf x.2).any Launch.live) && s.table.groups == [] &&
     (s.table.entries.all fun e => e.consumers == [] && e.group == none) && ok (exec (.tflush ⟨false, .g 2⟩) s) fun t => t.table.entries == []),
  (let s := { (withG sup [(2, 2)]).phase (flushKey + 9) with cc := 9 }
   rd s [.g 2] .gz fun s1 _ => ok (exec (.tflush ⟨false, .g 2⟩) s) fun t => t.thr.pc == s1.thr.pc + 4),
  [false, true].all fun d => let s := grouped d
    s.threads == [] && s.thr.pend == [] && s.table.groups == [⟨1, .first, 0, d, []⟩] && (s.table.entries.map fun e => (e.group, e.producer, e.stamp)) == [(some 1, none, 3)] &&
    s.thr.park == some ⟨5, 0, 3, 0, none⟩ && ok (exec (.tableGroupClose 1) s) fun t => t.table.entries.length == 1 && (if d then t.thr.pc == 0x10020 else t.thr.g[1] == 0x55)] : List Bool).all id = true := by decide +kernel

/-- Each word, bound and turned away; an update with a smaller and with a greater key; BCHK. -/
theorem witness_Incumbents : ([
  rd (withG base [(2, 9), (3, 7)]) [.g 2] .gz fun s1 _ => (match s1.bind 4 with
    | .ok _ => true
    | .error _ => false) && ok (exec (.bnd ⟨false, .g 2, 4⟩) (withG base [(2, 9)])) (fun t => t.thr.tb == 9),
  [4, 5].all fun n => let s : State := { withG base [(2, 9), (3, 7)] with launcher := { base.launcher with list := [{ placedLaunch with incs := [n] }] } }
   rd s [.g 2, .g 3] .gz (fun s1 _ => s1.boundInc 4 == (n == 4)) && ok (exec (.incu ⟨false, .g 2, .g 3, 4⟩) s) (fun t => if n == 4 then t.inc.msgs.length == 1 else t == s.trap (cause cPROT 4)) &&
     rdl s [] (.g 3) fun s1 _ => s1.boundInc 4 == (n == 4) && ok (exec (.incr ⟨false, .g 1, .g 3, 4⟩) s) fun t => if n == 4 then (t.thr.pend.map fun p => p.val) == [maxKey, 0] else t == s.trap (cause cPROT 4),
  (let s : State := { base with launcher := { base.launcher with list := [{ placedLaunch with incs := [3] }] } }
   rd s [.g 2] .gz fun s1 _ => (match s1.bind 4 with
     | .ok _ => false
     | .error _ => true) && ok (exec (.bnd ⟨false, .g 2, 4⟩) s) fun t => t == s.trap (cause cPROT 4)),
  [(5 : Word), maxKey].all fun k => let s : State := { base with inc := { base.inc with msgs := [⟨0, 0, 1, 4, k, 0x77, 0, 0⟩] } }
    s.ordered 0 0 0 0 6 && ok (exec (.incumbentUpdateApply 0) s) fun t => t.inc.msgs == [] && t.inc.key[4] == k && t.inc.tag[4] == if k == 5 then 0x77 else 0,
  [(171, true), (172, false)].all fun x => let s : State := { base with cc := x.1, inc := { base.inc with pubs := [⟨4, 5, 100, []⟩] } }
    (s.localInc 7 4 == if x.2 then maxKey else 5) && (s.settleIncs == s) == x.2 && (x.2 || s.settleIncs.inc.pubs == []) &&
      (!x.2 || ok (s.takeInc 7) fun t => t.localInc 7 4 == 5 && t.localInc 8 4 == maxKey),
  (let s := withG sup [(2, 9)]
   s.thr.sup && rd s [.g 2, .g 3] .gz fun s1 _ => still s1 && !(s1.launcher.list.any fun l => l.live && l.incs.contains 4) &&
     ok (exec (.incinit ⟨false, .g 2, .g 3, 4⟩) s) fun t => t.inc.key[4] == 9 && t.thr.phase == incKey),
  (let s := (withG sup [(2, 9)]).phase incKey
   s.thr.sup && !(s.inc.pubs.any fun p => p.k == 4) && rd s [.g 2, .g 3] .gz fun s1 _ => ok (exec (.incinit ⟨false, .g 2, .g 3, 4⟩) s) fun t => t == s1.retire false),
  (let s := { sup with launcher := { sup.launcher with list := [{ placedLaunch with incs := [4] }] } }
   (s.launcher.list.any fun l => l.live && l.incs.contains 4) && ok (exec (.incinit ⟨false, .g 2, .g 3, 4⟩) s) fun t => t == s.trap (cause cPROT 4)),
  !base.thr.damage.contains 21 && !base.killDue && ok (exec (.bchk ⟨false⟩) base) fun t => t == base.retire false] : List Bool).all id = true := by decide +kernel

/-- A pending and a resolved future. -/
theorem witness_FutureWords : ([
  !(holding .done).thr.tagged 5 && (holding .done).thr.damage == [] && ((holding .done).thr.marks.all fun m => m.1 != 5) && ((holding .done).injectReg 5).isNone,
  ok (exec (.ftest ⟨false, .g 1, .g 5⟩) (holding .done)) fun t => (t.thr.pend.map fun p => p.val) == [5],
  ok (exec (.movh ⟨false, .g 1, .g 5⟩) (holding .done)) fun t => t == (holding .done).finish false (.g 1) (holding .done).thr.g[5],
  (holding .pending).thr.damage == [] && (holding .pending).thr.tagged 2 && ((holding .pending).futureOf ((holding .pending).thr.g[2])).any (fun f => f.status == .pending) && (holding .pending).thr.g[2].toNat / 64 == 0,
  ok (exec (.ftest ⟨false, .g 1, .g 2⟩) (holding .pending)) (fun t => (t.thr.pend.map fun p => p.val) == [0]) && ok (exec (.ftest ⟨false, .g 1, .g 2⟩) (holding .cancelled)) fun t => (t.thr.pend.map fun p => p.val) == [4],
  ok (exec (.fwait ⟨false, .g 2⟩) (holding .done)) (fun t => t == (holding .done).retire false) && ok (exec (.fwait ⟨false, .g 2⟩) (holding .pending)) fun t => t == (holding .pending).parkOn 18 2 0,
  ok (exec (.movh ⟨false, .g 5, .g 2⟩) (holding .pending)) fun t => t.thr.g[5] == handleOf 0 3 && t.thr.tagged 5,
  ok (exec (.fcancel ⟨false, .g 2⟩) (holding .done)) fun t => t == (holding .done).retire false,
  [0, 1].all fun l => (holding .pending).ownsFuture ⟨3, .pending, 42, 0x99, 0, none, l⟩ == (l == 1),
  (let s := (holding .pending).modThr fun t => { t with launch := 2 }
   ok (exec (.fcancel ⟨false, .g 2⟩) s) fun t => t == s.retire false),
  [false, true].all fun k => let s : State := if k then { holding .pending with core := { (holding .pending).core with eng := { (holding .pending).core.eng with bq := [⟨0, 0, 3, 0, ⟨1, 0⟩, 0, 1, false⟩] } } } else holding .pending
    s.core.eng.keeps 3 == k && ok (exec (.fcancel ⟨false, .g 2⟩) s) fun t => (t.futureOf (handleOf 0 3)).any fun f => f.status == if k then .pending else .cancelled] : List Bool).all id = true := by decide +kernel

/-- The host link of seam 0 is up; a slot of its launch window is busy or not. -/
def window (busy : Bool) : State :=
  { base with links := { base.links with up := 1 }, launcher := { base.launcher with slots := [⟨0, 3, (Vector.replicate 16 0).set 0 0x20000, busy⟩] } }

/-- A free slot and a busy one, narrow writes, LWERR. -/
theorem witness_LaunchWindows : ([
  [false, true].all fun b => (window b).windowUp 0 && ((window b).winSlot 0 3).busy == b && ok (exec (.launchSlotWordWrite 0 3 2 9) (window b)) fun t => (t.winSlot 0 3).words[2] == (if b then 0 else 9) && t.launcher.lwerr[0].getLsbD 0 == b,
  [false, true].all fun b => ok (exec (.launchSlotFinalWord 0 3 0) (window b)) fun t => (t.winSlot 0 3).busy && t.launcher.lwerr[0].getLsbD 0 == b,
  ok (exec (.launchWindowNarrowWrite 0) (window false)) fun t => t.launcher.lwerr[0] == 2,
  ok (exec (.lwerrWrite 0 1) { window false with launcher := { base.launcher with lwerr := (Vector.replicate 2 0).set 0 3 } }) fun t => t.launcher.lwerr[0] == 2,
  [1, 0].all fun u => let s : State := { window true with links := { base.links with up := u } }
    !(s.flushing (BitVec.ofNat 16 (fieldOf ((s.winSlot 0 3).words.toList.getD 4 0) 0 16))) && ok (exec (.launchSlotFree 0 3) s) fun t => !(t.winSlot 0 3).busy && t.launcher.slots.length == 1] : List Bool).all id = true := by decide +kernel

/-- The words of a record for one thread at 0x20000 with an area of 256 bytes, some replaced. -/
def recWords (l : List (Nat × Word)) (n : Nat) : Word := ((l.find? fun x => x.1 == n).map fun x => x.2).getD (if n = 0 then 0x20000 else if n = 6 then 256 else 0)

/-- The thread waits for the launcher, which has its record at 0xFFFFFE0000000100. -/
def launching : State :=
  let s := (withWordAt base 0xFFFFFE0000000100 0x20000).modThr fun t => { t with phase := 1, park := some ⟨13, own 0x100, 0, 0, none⟩ }
  { s with launcher := { s.launcher with reqs := [⟨0, 0, (List.range 16).map fun i => ⟨0xFFFFFE0000000100 + 8 * i, .scratch 0 0, 0, own (0x100 + 8 * i), 0, 0⟩, 0, 0⟩] } }

/-- A record accepted and one refused; LAUNCH of a misaligned pointer and of a record it may read; its submission. -/
theorem witness_LaunchRecords : ([
  (resolvePlace base.pkg 0 0).filter base.enabled == some 0 && (resolvePlace base.pkg 0 0x1F).isNone && free base,
  [[(1, 0x4000)], [(1, 0x8000)], [(1, 0x400000000000)], [(1, 0x8000000000000000)], [(4, 0x10000)], [(8, 4)], [(11, 1)], [(15, 1)], [(8, 3)], [(0, 0x100000000000000)], [(0, 0x20002)]].all fun w =>
    base.recordCode (recWords w) (some 0) none == 0x10,
  [((0, 31), 0), ((1, 31), 0x10), ((0, 4), 0), ((0, 3), 0x10)].all fun x => base.recordCode (recWords [(1, 0x800000000)]) (some 0) (some x.1) == x.2,
  base.recordCode (recWords []) none none == 0x11 && [(0x700000, 16, 0x13), (0x780000, 16, 0x11), (0x7000000, 1, 0x13), (0x7800000, 1, 0x11)].all fun x => base.recordCode (recWords [(1, x.1)]) (some x.2.1) none == x.2.2,
  [(0x10000, 0x13), (0x20000, 0x11)].all fun x => ({ base with pkg := .t2s } : State).recordCode (recWords [(1, x.1)]) (some 0) none == x.2,
  (let s : State := { base with launcher := { base.launcher with tables := [(15, 1)] } }
   (s.launchOf 1).any Launch.live && s.recordCode (recWords [(4, 0x8000)]) (some 0) none == 0x12 && s.recordCode (recWords [(4, 0x4000)]) (some 0) none == 0),
  [(0, 255), (0x8000000, 511), (0x100000000, 16639)].all fun x => base.recordCode (recWords [(1, x.1), (6, BitVec.ofNat 64 x.2)]) (some 0) none == 0x13 && base.recordCode (recWords [(1, x.1), (6, BitVec.ofNat 64 (x.2 + 1))]) (some 0) none == 0,
  [(5, 0x11), (7, 0)].all fun x => let s : State := { base with core := { base.core with rot := x.1 } }
    (s.coreOf 0).positions == (if x.1 == 5 then 3 else 4) && s.recordCode (recWords [(1, 0x18000000), (6, 1024)]) (some 0) none == x.2,
  [(1, 0x14), (0, 0)].all fun x => let s : State := { base with launcher := { base.launcher with list := [{ placedLaunch with incs := [3], info := { placedLaunch.info with tenant := x.1 } }] } }
    s.recordCode (recWords [(1, 0x2C0000000000)]) (some 0) none == x.2,
  rd (withG base [(2, own 0x101)]) [.g 2] .gz fun _ vs => (vs.headD 0).toNat % 128 != 0 && ok (exec (.launch ⟨false, .g 2⟩) (withG base [(2, own 0x101)])) fun t => t == (withG base [(2, own 0x101)]).trap (cause cALIGN (own 0x101)),
  rd (withG base [(2, own 0x100)]) [.g 2] .gz fun s1 vs => (vs.headD 0).toNat % 128 == 0 && ac s1 (vs.headD 0) (accPlain 8 .load false) true false fun s0 _ => ac s0 (vs.headD 0 + 64) (accPlain 8 .load false) true false fun s2 _ => (match s2.recordLocs (vs.headD 0) with
    | .ok ls => ls.length == 16 && ls.all fun x => stays s2 x false false
    | .error _ => false) && ok (exec (.launch ⟨false, .g 2⟩) (withG base [(2, own 0x100)])) fun t => t.launcher.reqs.length == 1,
  (launching.launcher.reqs.all fun r => r.locs.all fun l => launching.reachable r.core l false && !launching.refreshes l && !launching.mem.isPoisoned l.key) &&
    (launching.launcher.reqs.all fun r => !(launching.flushing (BitVec.ofNat 16 (fieldOf ((r.locs.map fun l => BitVec.ofNat 64 (launching.mem.read l.key 8)).getD 4 0) 0 16)))) && launching.ordered 0 0 (launching.thr.phase - 1) launching.thr.seq 6 && launching.bootDone && quiet launching && launching.thr.pend == [] && ok (exec (.launchRecordSubmit 0 0) launching) fun t => t.thr.pc == 0x10004 && t.launcher.reqs == []] : List Bool).all id = true := by decide +kernel

/-- A launch of higher priority that waits for cores 0 and 1, core 0 empty or with the thread on it. -/
def waitingLaunch : Launch := { placedLaunch with id := 2, status := .queued, info := { placedLaunch.info with extx := 1, tpc := 1, prio := 3, args := 0x77 } }
def placing (here : Bool) : State :=
  let s : State := if here then base else base.modThr fun t => { t with pos := some 5, frame := 5 }
  { s with launcher := { s.launcher with list := [placedLaunch, waitingLaunch], fifo := [2] }, cores := (if here then [{ Core.fresh 1 with reset := some ⟨false⟩ }] else []) }

/-- The launch has no thread left. -/
def idle1 (sweep : Option (Nat × Nat)) : State :=
  { base with thr := Thread.absent, launcher := { base.launcher with list := [{ placedLaunch with sweep := sweep }] } }

/-- A launch of priority 2 that waits for core 0, where threads of launches of priorities 0, 1 and 2 stand in positions 0 to 2. -/
def oneCore : Launch := { placedLaunch with id := 2, status := .queued, info := { placedLaunch.info with tpc := 1, prio := 2 } }
def blocking : State :=
  let l (n p : Nat) : Launch := { placedLaunch with id := n, info := { placedLaunch.info with prio := p } }
  { base with launcher := { base.launcher with list := [placedLaunch, oneCore, l 3 1, l 4 2], fifo := [2] }
              threads := [{ base.thr with frame := 1, pos := some 1, launch := 3 }, { base.thr with frame := 2, pos := some 2, launch := 4 }] }

/-- A launch placed, one whose way is cleared first, of its two lower ones the lowest; the first and the second sweep; a launch ended by the supervisor, running and not; the classifier. -/
theorem witness_LaunchLife : ([
  (let s := placing false
   (s.headLaunch).any (fun l => l == waitingLaunch) && s.launchOf 2 == some waitingLaunch && ((s.rectCores waitingLaunch.info).flatMap fun c => s.blockers waitingLaunch c) == [] && s.placeable waitingLaunch &&
   s.rectCores waitingLaunch.info == [0, 1] && ok (exec .launchPlacement s) fun t => t.threads.length == 4),
  (let s := blocking
   s.headLaunch == some oneCore && s.launchOf 2 == some oneCore && s.rectCores oneCore.info == [0] && s.blockers oneCore 0 != [] && (s.blockers oneCore 0).all (s.removable oneCore.info.prio) &&
   decide (s.all.map fun t => (t.core, t.frame)).Nodup && ((s.onCore 0).filter fun v => v.pos.isSome && s.removable oneCore.info.prio v).map (fun v => (v.frame, s.prioOf v)) == [(0, 0), (1, 1)] &&
   ((s.onCore 0).map fun v => s.removable oneCore.info.prio v) == [true, true, false] && ok (exec .launchPlacement s) fun t => (t.all.filter fun u => u.launch != 2).map (fun u => (u.frame, u.pos)) == [(0, none), (1, none), (2, some 2)]),
  [none, some (0, 0)].all fun w => (idle1 w).launcher.list == [{ placedLaunch with sweep := w }] && (idle1 w).idleFor { placedLaunch with sweep := w } &&
    (idle1 w).sums { placedLaunch with sweep := w } == (0, 0) && ok (exec .terminationSweep (idle1 w)) fun t => (t.launchOf 1).any fun l => (l.status == .ended) == w.isSome,
  [LStatus.running, .queued].all fun st => let s : State := { base with launcher := { base.launcher with list := [{ placedLaunch with status := st }] } }
   ok (exec (.supervisorEndsLaunch 1) s) fun t => t.all == [] && (t.launchOf 1).any fun l => l.bySup && l.status == if st == .running then .running else .ended,
  placedLaunch.cls.isNone && ok (exec (.classifierWindowEnd 1) base) fun t => (t.launchOf 1).any (fun l => l.cls == some true) && t.cc == 19200] : List Bool).all id = true := by decide +kernel

/-- A launch that has lost a thread, with a TVEC or without. -/
def losing (tvec : Word) : State :=
  { base with launcher := { base.launcher with list := [{ placedLaunch with info := { placedLaunch.info with tvec := tvec } }] }, mgmt := { base.mgmt with ctxlost := [(1, ⟨0, 1, 0⟩)] } }

/-- A loss reported with a TVEC and without; a supervisor thread that starts again. -/
theorem witness_LostThreads : ([
  ok (exec .ctxlostThreadStart (losing 0)) fun t => t.threads == [],
  (let s := losing 0x20000
   (s.launchOf 1).any (fun l => l.status == .running && !l.bySup && ((s.rectCores l.info).filter fun c => (s.coreOf c).reset.isNone && !l.barred.contains c) == [0]) && s.mgmt.unsaved == [] && (s.freePos 0).find? (fun q => decide (q < (s.coreOf 0).positions)) == some 1 &&
   (s.freeFrames 0).head? == some 1 && ok (exec .ctxlostThreadStart s) fun t => t.threads.any fun u => u.pc == 0x20000 && u.tr.ecause == 0x16),
  (let s : State := { base with mgmt := { base.mgmt with restarts := [⟨0, 0x30000⟩] } }
   (s.coreOf 0).reset.isNone && s.enabled 0 && ((s.onCore 0).all fun t => t.frame != 62) && (s.freePos 0).head? == some 1 && ok (exec (.supervisorThreadRestart 0) s) fun t => t.threads.any fun u => u.frame == 62 && u.sup)] : List Bool).all id = true := by decide +kernel

/-- The anchored thread, with its engines as they stand after `f`. -/
def eng (f : Engines → Engines) : State := let s := base.anchor 0 0; { s with core := { s.core with eng := f s.core.eng } }

/-- A body of one VADD over f8 and f9 into f10, of a lane format. -/
def vadd (l : Lane) : Instr := .vadd ⟨false, 10, 8, 9, l⟩
def vins (l : Lane) : VecIns := ⟨vadd l, 0, 0, 0x10000, none, [], 0⟩
def body (l : Lane) (started : Bool) : Body := ⟨0, 1, 0, [vins l], 0, started, 0, 0, false, none, false⟩
def opened (n : Nat) : Body := ⟨0, 1, 0, [], n, false, 0, 0, false, none, false⟩

/-- A word with room, with two bodies queued, with an open body that awaits two or one; VRED; VLOOP; VFENCE. -/
theorem witness_VectorIssue : ([
  [(vadd .f32, Src.gz), (.vbcast ⟨false, 10, .g 2, .f32⟩, .g 2)].all fun x => vecWord x.1 == some (false, x.2) && rd (eng id) [x.2] .gz fun _ _ => (eng id).thr.anchored && (eng id).core.eng.coll.isNone &&
    ok (exec x.1 (eng id)) fun t => t.core.eng.vq.length == 1 && t.thr.pc == 0x10004,
  (let s := eng fun e => { e with vq := [body .f32 true, body .f32 false] }
   ok (exec (vadd .f32) s) fun t => t == s.parkOn 0 0 1),
  [1, 2].all fun n => let s := eng fun e => { e with coll := some (opened n) }
    (opened n).frame == s.thr.frame && !s.thr.tr.inE && !s.thr.tr.inS && ok (exec (vadd .f32) s) fun t => t.core.eng.coll.isNone == (n == 1) && t.core.eng.vq.length == 2 - n,
  (eng id).freeRecord == some 0 && rd (eng id) [] .gz fun _ _ => ok (exec (.vred ⟨false, .g 1, 8, .sum, .f32⟩) (eng id)) fun t => t.thr.tagged 1 && t.core.eng.vq.length == 1,
  ok (exec (.vloop ⟨false, 3⟩) (eng id)) fun t => t.core.eng.coll.any fun b => b.awaited == 3,
  ok (exec (.vfence ⟨false⟩) (eng id)) fun t => t == (eng id).retire false,
  (let s := eng fun e => { e with vq := [body .f32 true] }
   ok (exec (.vfence ⟨false⟩) s) fun t => t == s.parkOn 23 0 0)] : List Bool).all id = true := by decide +kernel

/-- A held SUBN of the body. -/
def heldSubn : VHeld := ⟨0x10000, 0, cSUBN, 0, false, 0, 0⟩
def vstate (l : Lane) (v : BitVec 512) : State := eng fun e => { e with vq := [body l true], f := (e.f.set 0 v).set 1 v }

/-- A body of one VEX2 over f8, begun. -/
def sfuBody : Body := ⟨0, 1, 0, [⟨.vex2 ⟨false, 9, 8, false⟩, 0, 0, 0x10000, none, [], 0⟩], 0, true, 0, 0, false, none, false⟩

/-- A body that begins; an iteration over floats, over integers and with a subnormal lane; a fault delivered; the four answers to it. -/
theorem witness_VectorRuns : ([
  (let s := eng fun e => { e with vq := [body .f32 false] }
   s.storesBefore 0 0 0 && ok (exec (.vectorBodyStart 0) s) fun t => t.core.eng.vq == [body .f32 true]),
  [(Lane.f32, (0x3F800000 : BitVec 512), 0x40000000), (.i32, 0xC0000000, 0x80000000)].all fun x => let s := vstate x.1 x.2.1
    s.core.eng.held.isNone && (vins x.1).assist == 0 && ok (exec (.vectorChunk 0) s) fun t => t.core.eng.vq == [] && vlane x.1 t.core.eng.f[2] 0 == x.2.2,
  isSubnormal (laneFmt .f32) (vlane .f32 (vstate .f32 1).core.eng.f[0] 0) && ok (exec (.vectorChunk 0) (vstate .f32 1)) fun t => t.core.eng.held.any fun h => h.cause == cSUBN,
  [0, 15, 16].all fun n => let s := eng fun e => { e with sfu := List.replicate n ⟨0, 7, 9, 1, false, [], none⟩, vq := [sfuBody] }
    (s.core.eng.sfu.all fun x => !x.vec) && s.core.eng.held.isNone && match exec (.vectorChunk 0) s with
      | .next t => n != 16 && t.core.eng.sfu.length == n + 1 && (t.core.eng.sfu.getLast?.any fun x => x.vec)
      | .fault .notEnabled => n == 16
      | _ => false,
  (let s := eng fun e => { e with sfu := List.replicate 4 ⟨0, 0, 0, 0, true, [], none⟩, vq := [{ sfuBody with done := 0 }] }
   (s.core.eng.sfu.filter fun x => x.vec).length == 4 && match exec (.vectorChunk 0) s with
      | .fault .notEnabled => true
      | _ => false),
  [(0, true), (1, false)].all fun x => let s := eng fun e => { e with vq := [{ sfuBody with done := x.1, wait := x.2, cur := some [] }] }
    match exec (.vectorChunk 0) s with
      | .fault .notEnabled => x.2
      | .next t => !x.2 && t.core.eng.vq == [] && t.core.eng.f == s.core.eng.f
      | _ => false,
  [(heldSubn, 0), ({ heldSubn with cause := cENGF, addr := 0x44 }, 0x44)].all fun h => let s := (eng fun e => { e with held := some h.1 }).modThr fun t => { t with tr := { t.tr with evec := 0x30000 } }
    s.thr.pos.isSome && s.thr.migr.isNone && s.thr.park.isNone && s.thr.pend == [] && !s.thr.tr.inE && !s.thr.tr.inS && !s.thr.sup && !s.thr.st.getLsbD 16 && !s.hasNarrow 0 &&
    ok (exec (.vectorFaultDelivery 0 0) s) fun t => t.thr.pc == 0x30000 && t.thr.tr.eval == h.2 && t.core.eng.held.any fun h => h.delivered,
  (let s := eng fun e => { e with held := some { heldSubn with delivered := true }, vq := [body .f32 true, body .f32 false] }
   [(Instr.vrsmRetry, 0), (.vrsmAssistOne, 1), (.vrsmAssistRest, 2)].all (fun x => ok (exec x.1 s) fun t => t.core.eng.held.isNone && (t.core.eng.vq.head?.any fun b => (b.ins.map fun m => m.assist) == [x.2])) &&
   stoppedWords s.core.eng s.core.id (body .f32 true) == [] && ok (exec .vrsmDiscard s) fun t => t.core.eng.vq == [] && t.core.eng.held.isNone)] : List Bool).all id = true := by decide +kernel

/-- A copy of two 8-byte elements between places of the own scratchpad, on a channel, some elements done. -/
def cop (pos : Nat) : CopyOp := ⟨0, 0, 1, 0, false, false, own 0x40, own 0x100, false, 2, 8, 0, 0, 3, pos, 0, [], [], none, none, 0, 0, false⟩
def copying (c : Channel) : State :=
  withWordAt (eng fun e => { e with ch := e.ch.set 1 c, futs := [⟨0, .pending, 0, 0, 0, none, 1⟩] }) 0xFFFFFE0000000040 0x1234

/-- CPY and CPYX with room and with none; CPTR; a copy that begins, an element, and the end. -/
theorem witness_Copies : ([
  [Instr.cpy ⟨false, .g 1, .g 2, .g 3, 1⟩, .cpyx ⟨false, .g 1, .g 2, .g 3, 1⟩].all fun i => rd (eng id) [.g 2, .g 3] .gz fun s1 _ => s1.freeRecord == some 0 &&
    ok (exec i (eng id)) fun t => t.core.eng.ch[1].queue.length == 1 && t.thr.tagged 1,
  (let s := copying { Channel.reset with run := some (cop 0), queue := [cop 0, cop 0, cop 0] }
   ok (exec (.cpy ⟨false, .g 1, .g 2, .g 3, 1⟩) s) fun t => t == s.parkOn 0 0 3),
  rdl (eng id) [] (.g 1) fun _ _ => ok (exec (.cptr ⟨false, .g 1, 1⟩) (eng id)) fun t => t.thr.pend.length == 1,
  (let s := copying { Channel.reset with queue := [cop 0], geo := 2, str0 := 8, ctl := 3 }
   (s.chOf 0 1).run.isNone && (s.chOf 0 1).stopped.isNone && s.storesBefore 0 0 0 && fieldOf (s.chOf 0 1).geo 0 32 != 0 && ok (exec (.copyBegin 0 1) s) fun t => (t.chOf 0 1).run.any fun o => o.ctl == 3),
  (let s := copying { Channel.reset with run := some (cop 0) }
   let o := cop 0
   s.mem.wf && free s && !o.cancel && o.buf.isEmpty && decide (o.pos < o.total) && (s.copyHeld 0 1 o [o.srcOf o.pos]).isNone && s.mem.poison == [] && quiet s && (s.coreOf 0).waits == [] &&
   (match s.copyAccess 0 o (o.srcOf o.pos) (accPlain o.size .load (o.size == 4)), s.copyAccess 0 o (o.dstOf o.pos) ⟨o.size, .store, (· == 0), true, true, true, false⟩ with
     | .ok (l, none), .ok (m, none) => l.place == .scratch 0 0 && m.place == .scratch 0 0
     | _, _ => false) && ok (exec (.copyElementWrite 0 1) s) fun t => t.numAt 0xFFFFFE0000000100 8 == 0x1234 && (t.chOf 0 1).cpos == 1),
  (let s := copying { Channel.reset with run := some { cop 1 with buf := [(0xFFFFFE0000000048, 0x77, false)] } }
   ok (exec (.copyElementWrite 0 1) s) fun t => t.numAt 0xFFFFFE0000000108 8 == 0x77 && (t.chOf 0 1).cpos == 2),
  [Instr.copyElementWrite 0 1, .copyComplete 0 1].all fun i => let s := copying { Channel.reset with run := some { cop 1 with cancel := true } }
   ok (exec i s) fun t => (t.chOf 0 1).run.isNone && t.core.eng.futs.any fun f => f.status == .cancelled,
  (let s := copying { Channel.reset with run := some (cop 2) }
   decide ((cop 2).total ≤ (cop 2).pos) && ok (exec (.copyComplete 0 1) s) fun t => (t.chOf 0 1).run.isNone && t.core.eng.futs.any fun f => f.status == .done && f.value == own 0x110)] : List Bool).all id = true := by decide +kernel

/-- Two rings of one INT8 tile each, ring 0 over elements from byte 0 on, ring 1 from byte 1,024 on; a matrix operation on stream 2. -/
def rings : Vector Ring 8 :=
  let r (off : Nat) : Ring := ⟨BitVec.ofNat 64 (0xFFFFFF0000000000 + 11 * 0x80000 + off), 1, 0, 1, 0⟩
  ((Vector.replicate 8 Ring.reset).set 0 (r 0)).set 1 (r 4096)
def mat (k : MatKind) (ga gb : Word) (begun : Bool) : MatEntry := ⟨k, false, .g 1, (.g 2, .g 3), 2, ga, gb, 0, 0, 1, 0, begun, 0, 0, 0, 0, false⟩
def matrix (m : MatEntry) : State := eng fun e => { e with ring := rings, mq := [m], futs := [⟨0, .pending, 0, 0, 0, some 2, 1⟩], mkind := Vector.replicate 8 1 }

/-- The four words with room and with none; MSYNC at rest and behind an operation; an operation that begins, and one of each refusal. -/
theorem witness_MatrixQueue : ([
  [Instr.mma ⟨false, .g 1, .g 2, .g 3, 2⟩, .mmaz ⟨false, .g 1, .g 2, .g 3, 2⟩, .mst ⟨false, .g 1, .g 2, .g 3, 2⟩, .mld ⟨false, .g 1, .g 2, .g 3, 2⟩].all fun i => (matForm i).isSome && rd (eng id) [.g 2, .g 3] .gz fun s1 _ =>
    s1.freeRecord == some 0 && ok (exec i (eng id)) fun t => t.core.eng.mq.length == 1 && t.thr.tagged 1,
  (let s := eng fun e => { e with mq := List.replicate 16 (mat .mma 0 0 false) }
   ok (exec (.mma ⟨false, .g 1, .g 2, .g 3, 2⟩) s) (fun t => t == s.parkOn 0 0 6) && ok (exec (.msync ⟨false, .g 1, 2⟩) s) fun t => t == s.parkOn 0 0 6),
  rd (eng id) [] (.g 1) fun _ _ => ok (exec (.msync ⟨false, .g 1, 2⟩) (eng id)) fun t => t.thr.g[1] == 1,
  (let s : State := { eng id with core := { (eng id).core with qOwner := some 0, qdn := some 1 } }
   rd s [] .qdn fun _ _ => ok (exec (.msync ⟨false, .qdn, 2⟩) s) fun t => (t.net.pushes.map fun p => p.word) == [1]),
  (let s := eng fun e => { e with mfail := [⟨2, 0, 0, .engf⟩, ⟨2, 0, 0, .resid⟩] }
   ok (exec (.msync ⟨false, .g 1, 2⟩) s) fun t => t.thr.g[1] == 3),
  (let s := matrix (mat .mma 0x10 0 false)
   ok (exec (.msync ⟨false, .g 1, 2⟩) s) fun t => t == s.parkOn 24 2 2),
  [(1, 0), (0, 7)].all fun x => let m := mat .mma 0x10 0 false
    let s := eng fun e => { e with ring := rings, mq := [m], mkind := Vector.replicate 8 (BitVec.ofNat 2 x.1) }
    !s.mgmt.gated && s.storesBefore 0 0 0 && !s.core.errinj.getLsbD 7 && (match s.matCheck 0 m with
      | .ok (a, b) => s.available 0 0 a.num && s.available 0 0 b.num && s.core.eng.kindCause m a.kind == x.2
      | .error _ => false) && ok (exec (.matrixOpBegin 0 2) s) fun t => t.core.eng.mfst == if x.2 == 0 then 0 else 0x207,
  (let m := mat .mma 0x10 0 false
   let s := eng fun e => { e with ring := rings.set 1 { rings[1] with tail := rings[1].head }, mq := [m] }
   !s.ringsReady 0 m && match exec (.matrixOpBegin 0 2) s with
     | .fault .notEnabled => true
     | _ => false),
  (let m := mat .mmaz 0x32 0 false
   (matrix m).ringsReady 0 m && (match (matrix m).matCheck 0 m with
     | .error (c, _) => c == 3
     | .ok _ => false) && ok (exec (.matrixOpBegin 0 2) (matrix m)) fun t => t.core.eng.mq == [] && t.core.eng.mfst == 0x203),
  (let m := mat .mst (own 0x400) 2 false
   let s := eng fun e => { e with mq := [m] }
   s.core.eng.kindAt (fieldOf m.gb 0 3) == 0 && (moveAt m.ga .fp32).isSome && ok (exec (.matrixOpBegin 0 2) s) fun t => t.core.eng.mq.all fun u => u.begun),
  (let m := mat .mld (own 0x400) 2 false
   fieldOf m.gb 4 2 == 0 && (match moveAt m.ga .fp32 with
     | some (w, _) => mldWindow .fp32 w
     | none => false) && ok (exec (.matrixOpBegin 0 2) (matrix m)) fun t => t.core.eng.mq.all fun u => u.begun)] : List Bool).all id = true := by decide +kernel

/-- An integer operation on the array, an MST and an MLD of raw bytes, each begun. -/
theorem witness_MatrixResults : ([
  [MatKind.mma, .mmaz].all fun k => let m := mat k 0x10 0 true
    !(matrix m).mgmt.gated && m.inject == 0 && (matrix m).mem.poison == [] && quiet (matrix m) && match (matrix m).matCheck 0 m with
      | .ok (a, b) => a.kind == .int32 && !(matrix m).tileRefreshes b && a.num == 0 && b.num == 1
      | .error _ => false,
  (let m := { mat .mst (own 0x400) 2 true with snap := 0x1234 }
   let s := eng fun e => { e with mq := [m] }
   moveAt m.ga .fp32 == some (0, 0x400) && m.kind0 == 0 && !m.dying && quiet s && free s && (s.coreOf 0).waits == [] && s.mem.wf),
  (let m := mat .mld (own 0x40) 2 true
   moveAt m.ga .fp32 == some (0, 0x40) && fieldOf m.gb 4 2 == 0 && (withWordAt (matrix m) 0xFFFFFE0000000040 7).mem.poison == [])] : List Bool).all id = true := by decide +kernel

/-- Core 0 is a gateway; a block add of one block of FP32 elements. -/
def adding (len : BitVec 7) : State :=
  withWordAt (eng fun e => { e with brlen := len, bq := [⟨BitVec.ofNat 64 (0xFFFFFF0000000000 + 2 * 0x80000), BitVec.ofNat 64 (0xFFFFFF0000000000 + 2 * 0x80000 + 0x80), 0, 0, ⟨1, 0⟩, 0, 1, false⟩], futs := [⟨0, .pending, 0, 0, 0, none, 1⟩] })
    0xFFFFFE0000000000 0x3F800000

/-- BQNEXT within the limit and past it, a write to BQLIM, BADDQ, a core that is no gateway, a block count out of range at each end, and an addition. -/
theorem witness_BlockAdds : ([
  [(3, 2, 2), (3, 3, 0xFFFFFFFFFFFFFFFF)].all fun x => let s : State := { base with quads := [⟨0, BitVec.ofNat 32 x.1, BitVec.ofNat 32 x.2.1⟩] }
    isGateway s.core.id && rdl s [] (.g 1) fun _ _ => ok (exec (.bqnext ⟨false, .g 1⟩) s) fun t => (t.thr.pend.map fun p => p.val) == [BitVec.ofNat 64 x.2.2],
  rd (eng id) [.gz] .gz fun _ _ => ok (exec (.esetBqlim 9) (eng id)) fun t => (t.quadAt 0).lim == 9,
  rd base [.g 2, .g 3] .gz fun s1 _ => s1.freeRecord == some 0 && ok (exec (.baddq ⟨false, .g 1, .g 2, .g 3⟩) base) fun t => t.core.eng.bq.length == 1,
  (let s : State := { base.modThr (fun t => { t with core := 2 }) with core := Core.fresh 2 }
   !isGateway s.core.id && ok (exec (.bqnext ⟨false, .g 1⟩) s) fun t => t == s.illegal (.bqnext ⟨false, .g 1⟩)),
  [0, 65].all fun n => (adding n).storesBefore 0 0 0 && ok (exec (.baddqComplete 0) (adding n)) fun t => t.core.eng.bq == [] && t.core.eng.futs.all fun f => f.status == .engf,
  [1, 65].all fun n => let s := adding n
    let s : State := { s with core := { s.core with eng := { s.core.eng with bq := s.core.eng.bq.map fun x => { x with cancel := true } } } }
    ok (exec (.baddqComplete 0) s) fun t => t.core.eng.futs.all fun f => f.status == .cancelled,
  [1, 64].all fun n => (baddAt n (BitVec.ofNat 64 (0xFFFFFF0000000000 + 2 * 0x80000))) == some (2, 0),
  (adding 1).mem.wf && free (adding 1) && quiet (adding 1) && (adding 1).mem.poison == [] && (adding 1).core.waits == [] && baddAt 1 (BitVec.ofNat 64 (0xFFFFFF0000000000 + 2 * 0x80000 + 0x80)) == some (2, 32)] : List Bool).all id = true := by decide +kernel

/-- The places and registers that the clauses name. -/
theorem witness_ResetState : ([
  State.reset.mem.wf && State.reset.thr.pos.isNone,
  [(0, 0x000), (0, 0x01F), (0, 0x020), (0, 0x03E), (0, 0x040), (0, 0x043), (0, 0x100), (0, 0x101), (0, 0x13B), (0, 0x140)].all fun x => (engReg x.1 x.2).any fun e => State.reset.engGet x.1 e == 0] : List Bool).all id = true := by decide +kernel

/-- A thread with a vector of its own, in the handlers given, with a long result outstanding or not. -/
def trapping (evec : Word) (inE inS : Bool) (wait : Bool) : State :=
  base.modThr fun t => { t with tr := { t.tr with evec := evec, inE := inE, inS := inS }, pend := if wait then [{ Pending.awaited true with dst := .g 1 }] else [] }

/-- Entry at EVEC, at once and after the results; at SVEC for the cause, for the mode and as a nested trap; the four ways to end. -/
theorem witness_TrapEntry : ([
  base.hasNarrow 0 == false && causeSv cALIGN false == false && [false, true].all fun w => !(trapping 0x30000 false false w).thr.sup &&
    (let t := (trapping 0x30000 false false w).trap (cause cALIGN 5)
     t.thr.pc == 0x30000 && t.thr.entering == w && t.thr.tr.eval == 5),
  (let s := (trapping 0x30003 false false false).modThr fun t => { t with popped := [(true, 5), (false, 6), (true, 7)] }
   let t := s.trap (cause cALIGN 5)
   t.thr.pc == 0x30000 && t.core.qup == [5, 7] && t.core.qrx == [6]),
  base.sys.svec != 0 && [(base, cPAGE), (sup, cALIGN), (trapping 0x30000 true false false, cALIGN)].all fun x => !x.1.thr.tr.inS &&
    (let t := x.1.trap (cause x.2 5)
     t.thr.pc == base.sys.svec && t.thr.tr.inS && t.thr.tr.ecause.getLsbD 10 == x.1.thr.tr.inE),
  [(trapping 0 false false false, cALIGN), (trapping 0x30000 true true false, cALIGN), (trapping 0x30000 false true false, cPAGE), (sup.modThr fun t => { t with tr := { t.tr with inS := true } }, cALIGN),
   ({ base with sys := { base.sys with svec := 0 } }, cPAGE)].all fun x => !(x.1.trap (cause x.2 5)).thr.live] : List Bool).all id = true := by decide +kernel

/-- TRAP and BRK, an illegal word, ERET inside each handler, outside one, and to a pc that is no multiple of 4. -/
theorem witness_SoftwareTrapsAndReturn : ([
  rd (withG (trapping 0x30000 false false false) [(2, 9)]) [.g 2] .gz fun _ _ => ok (exec (.trap ⟨false, .g 2⟩) (withG (trapping 0x30000 false false false) [(2, 9)])) (fun t => t.thr.tr.ecause == 0x13 && t.thr.tr.eval == 9) &&
    ok (exec (.brk ⟨false, .g 2⟩) (withG (trapping 0x30000 false false false) [(2, 9)])) fun t => t.thr.tr.ecause == 0x14,
  (match decode 0xFFFFFFFF with
    | .error _ => true
    | .ok _ => false) && ok (exec (.illegalWord 0xFFFFFFFF) (trapping 0x30000 false false false)) fun t => t.thr.tr.ecause == 1 && t.thr.tr.eval == 0xFFFFFFFF,
  [(true, false), (false, true), (true, true)].all fun x => let s := (trapping 0x30000 x.1 x.2 false).modThr fun t => { t with tr := { t.tr with epc := 0x40, estat := 0x10FFC }, st := if x.2 then 0x801 else 0x800 }
    s.core.eng.held.isNone && s.thr.pend == [] && ok (exec (.eret ⟨false⟩) s) fun t => t.thr.pc == 0x40 && !t.thr.tr.inS && t.thr.tr.inE == (x.1 && x.2) && t.thr.st == 0x10FFC,
  (let s := trapping 0x30000 false false false
   ok (exec (.eret ⟨false⟩) s) fun t => t == s.trap (cause 1 (((encode (.eret ⟨false⟩)).getD 0).setWidth 64))),
  (let s := (trapping 0x30000 true false false).modThr fun t => { t with tr := { t.tr with epc := 0x42 } }
   ok (exec (.eret ⟨false⟩) s) fun t => t == s.trap (cause 3 0x42))] : List Bool).all id = true := by decide +kernel

/-- Each privileged word, and a reserved index, in launch mode. -/
theorem witness_Privilege : ([
  ([Instr.tlbi ⟨false, .g 2, .g 3⟩, .idle ⟨false⟩, .spill ⟨false, .g 2⟩, .tflush ⟨false, .g 2⟩, .incinit ⟨false, .g 2, .g 3, 4⟩, .mts ⟨false, .g 2, 0x30⟩, .mts ⟨false, .g 2, 0x33⟩, .mts ⟨false, .g 2, 0x37⟩, .mts ⟨false, .g 2, 0x103⟩] ++
   [(6 : BitVec 15), 0x100, 0x101, 0x102, 0x104, 0x105, 0x106, 0x110, 0x118, 0x11F, 0x4000, 0x40FF, 0x41FF].flatMap fun n => [Instr.mfs ⟨false, .g 1, n⟩, .mts ⟨false, .g 2, n⟩]).all fun i => !base.thr.sup && !base.core.errinj.getLsbD 63 && (encode i).any fun w => ok (exec i base) fun t => t == base.trap (cause 2 (w.setWidth 64)),
  ([(8 : BitVec 15), 0xF, 0x19, 0x1F, 0x28, 0x2F, 0x38, 0xFF, 0x107, 0x10F, 0x120, 0x3FFF, 0x4200].flatMap fun n => [Instr.mfs ⟨false, .g 1, n⟩, .mts ⟨false, .g 2, n⟩]).all fun i => (encode i).any fun w => ok (exec i base) fun t => t == base.trap (cause 1 (w.setWidth 64)),
  !sysNamed 8 && !sysNamed 0x3FFF && !sysNamed 0x4200 && sysNamed 0x41FF] : List Bool).all id = true := by decide +kernel

/-- MFS and MTS of registers of the thread, the core and the package, in each mode; a rounding mode that is illegal. -/
theorem witness_SystemRegisters : ([
  [0x000, 0x007, 0x016].all fun n => sysNamed n && !sysPriv n && rdl base [] (.g 1) fun s1 _ => !base.hasNarrow 0 && ok (exec (.mfs ⟨false, .g 1, BitVec.ofNat 15 n⟩) base) fun t => (t.thr.pend.map fun p => p.val) == [s1.sysGet n],
  [0x006, 0x100, 0x105, 0x11F].all fun n => sysNamed n && !sup.thr.damage.contains 21 && rdl sup [] (.g 1) fun s1 _ => ok (exec (.mfs ⟨false, .g 1, BitVec.ofNat 15 n⟩) sup) fun t => (t.thr.pend.map fun p => p.val) == [s1.sysGet n],
  [0, 1, 2, 3, 4, 5, 7].all fun n => !base.mtsPriv n && rd (withG base [(2, 0x10)]) [.g 2] .gz fun s1 vs => ok (exec (.mts ⟨false, .g 2, BitVec.ofNat 15 n⟩) (withG base [(2, 0x10)])) fun t => t == (s1.sysPut n (vs.headD 0)).retire false,
  [6, 0x104, 0x105, 0x110].all fun n => sup.thr.sup && rd (withG sup [(2, 0xFFFF0000)]) [.g 2] .gz fun s1 vs => ok (exec (.mts ⟨false, .g 2, BitVec.ofNat 15 n⟩) (withG sup [(2, 0xFFFF0000)])) fun t => t == (s1.sysPut n (vs.headD 0)).retire false,
  [0x14, 0x1C].all fun v => let s := withG base [(2, v)]
    decide (5 ≤ v.toNat / 4 % 8) && ok (exec (.mts ⟨false, .g 2, 0⟩) s) fun t => t == s.trap (cause 1 (((encode (.mts ⟨false, .g 2, 0⟩)).getD 0).setWidth 64))] : List Bool).all id = true := by decide +kernel

/-- Each write that sets something off. -/
theorem witness_SystemCommands : ([
  rd sup [.gz] .gz fun _ vs => vs == [0] && sup.thr.core == sup.core.id,
  [0x3E, 0x03].all fun v => ok (exec (.mtsRotcfg v) sup) fun t => t.core.rot == v,
  (let s : State := { sup with caps := { sup.caps with rmv := true }, mgmt := { sup.mgmt with removals := [⟨1, 2, false⟩] } }
   ok (exec (.mtsHbmrmvAck 1) s) fun t => t.mgmt.removals.all fun r => r.acked),
  [(0x801, true), (0x1801, true), (0x800, false)].all fun x => !sup.resetRefused x.1 == x.2 && ok (exec (.mtsCorerstGo x.1) sup) fun t => if x.2 then (t.coreOf 1).reset == some ⟨x.1 == 0x1801⟩ else t == sup.trap (cause 5 x.1),
  [(Instr.errinjArmResidFirst 0x301, 1), (.errinjArmResidBoth 2, 2), (.errinjArmScratchUce 3, 3), (.errinjArmScratchCe 4, 4), (.errinjArmRegDamage 5, 5)].all fun x => ok (exec x.1 sup) fun t =>
    t.core.injTid == sup.thr.tid && t.core.errinj.getLsbD 7 && t.core.errinj.toNat % 8 == x.2 && t.core.injSkip == if x.2 == 1 then 3 else 0,
  ok (exec (.errinjCancel 8) { sup with core := { sup.core with errinj := 0x81 } }) fun t => !t.core.errinj.getLsbD 7] : List Bool).all id = true := by decide +kernel

/-- CNTR of a bank of the core and of none; CAPR of a word, of a misaligned offset and past the end. -/
theorem witness_CountersAndCapabilities : ([
  (let s : State := { withG base [(2, 1)] with core := { base.core with cnt := (Vector.replicate 8 Counter.reset).set 1 ⟨0x40B, 77, 1⟩ } }
   rdl s [.g 2] (.g 1) fun _ vs => (vs.headD 0).toNat / 8 % 4 == 0 && !coreTimed (s.core.cnt[1].sel.toNat % 1024) && ok (exec (.cntr ⟨false, .g 1, .g 2⟩) s) fun t => (t.thr.pend.map fun p => p.val) == [77]),
  ok (exec (.cntr ⟨false, .g 1, .g 2⟩) (withG base [(2, 24)])) fun t => (t.thr.pend.map fun p => p.val) == [0],
  ok (exec (.capr ⟨false, .g 1, .g 2⟩) (withG base [(2, 4)])) fun t => t == (withG base [(2, 4)]).trap (cause 3 4),
  ok (exec (.capr ⟨false, .g 1, .g 2⟩) (withG base [(2, 0x1000)])) fun t => (t.thr.pend.map fun p => p.val) == [0],
  [0, 24].all fun n => rdl (withG base [(2, n)]) [.g 2] (.g 1) fun _ _ => ok (exec (.capr ⟨false, .g 1, .g 2⟩) (withG base [(2, n)])) fun t => t.thr.pend.all fun p => if n == 0 then p.val.toNat % 65536 == 1 else p.val == BitVec.allOnes 64] : List Bool).all id = true := by decide +kernel

/-- ESET and EGET of a register, RTAIL within the count and past it, RBASE and RCFG, a stream's and a channel's registers. -/
theorem witness_EngineRegisters : ([
  (engReg 0 0x140).any fun r => (eng id).core.eng.inUse r == none && rd (withG (eng id) [(2, 5)]) [.g 2] .gz fun s1 vs => ok (exec (.eset ⟨false, .g 2, 0x140⟩) (withG (eng id) [(2, 5)])) fun t => t == (s1.engPut 0 r (vs.headD 0)).retire false,
  (engReg 0 0x140).any fun r => rdl (eng id) [] (.g 1) fun s1 _ => ok (exec (.eget ⟨false, .g 1, 0x140⟩) (eng id)) fun t => t == s1.finishLong false (.g 1) (Pending.ofVal (s1.engGet 0 r) 0),
  [1, 2].all fun v => let s := eng fun e => { e with ring := rings }
    rd s [.gz] .gz fun _ _ => s.core.eng.ring[0].count == 1 && ok (exec (.esetRtail 0x103 v) s) fun t => t.core.eng.ring[0].tail == 1,
  [0x100, 0x101].all fun n => let s := eng fun e => { e with ring := rings }
    !(s.core.eng.mq.any fun m => m.names 0) && ok (exec (.esetRingConfig n 2) s) fun t => t.core.eng.ring[0].tail == 0 && (t.core.eng.ring[0].base == 2) == (n == 0x100),
  [0, 1, 2].all fun n => ok (exec (.esetStreamReg n (BitVec.allOnes 64)) (eng id)) fun t => (t.core.eng.stream.toList.getD n.toNat 0 == BitVec.allOnes 64) == (n == 0),
  [0x20, 0x24, 0x26].all fun n => (eng id).core.eng.ch[0].run.isNone && (eng id).core.eng.ch[0].queue == [] && ok (exec (.esetCopyReg n 0x1FF) (eng id)) fun t =>
    (t.core.eng.ch[0].geo == 0x1FF) == (n == 0x20) && (t.core.eng.ch[0].ctl == 0xFF) == (n == 0x24)] : List Bool).all id = true := by decide +kernel

/-- A supervisor thread over a TLB entry of tenant 0; core 1 has a store in its buffer that the entry translated, or has not. -/
def tlbing (store : Bool) : State :=
  let e : SbEntry := ⟨0, 0, ⟨1, 1⟩, .store, ⟨0x40000008, .hbm, 0, 8, 0, 0⟩, 8, 0x99, false, 0, 0, 0, false, false, none⟩
  { sup with core := { sup.core with tlb := [⟨some 0, 0, 0x40000000, 0x4000002F, 0x200000⟩] }, cores := if store then [{ Core.fresh 1 with sb := [e], sbNum := 1 }] else [] }

/-- HALT at rest and with a result outstanding; YIELD in each mode and its end; TLBI with nothing in flight, with a store that may have used the entry, and after it; IDLE with a wake and without; SPILL in each case. -/
theorem witness_SupervisorStops : ([
  base.thr.dropped.isNone && base.core.eng.owner != some 0 && ok (exec (.halt ⟨false⟩) base) fun t => !t.thr.live,
  ok (exec (.halt ⟨false⟩) (trapping 0 false false true)) fun t => (t.thr.park.map fun p => p.code) == some 1,
  [62, 63].all fun r => let s : State := { fullCore with core := { base.core with rot := r } }
    ok (exec (.yield ⟨false⟩) s) fun t => t.thr.pc == 0x10004 && t.thr.yield.isSome == (r == 62),
  (let s := base.modThr fun t => { t with yield := some (32, [1]) }
   !ok (exec (.yieldExpiry 0 0) { s with cc := 31 }) (fun _ => true) && ok (exec (.yieldExpiry 0 0) { s with cc := 32 }) fun t => t.thr.yield.isNone),
  (let s := tlbing false
   s.thr.sup && !s.thr.wake && s.thr.phase == 0 && s.watermark 0 == s.core.sbNum && !s.writesOut 0 62 s.core.sbNum && s.thr.core == s.core.id && (s.thr.pend.all fun p => !p.cache) && ok (exec (.tlbi ⟨false, .g 2, .g 3⟩) s) fun t =>
     t.core.tlb.length == 1 && t.thr.phase == tlbiKey && (t.thr.park.map fun p => p.code) == some 16 && t.mgmt.tlbis == [⟨0, 62, 0, 0, some 1, [], [], []⟩]),
  [([(1, 1)], true), ([(1, 0)], false)].all fun x => let w : TlbiWait := ⟨0, 62, 0, 0, none, x.1, [], []⟩
   let s : State := { (tlbing true).modThr (fun t => { t with phase := tlbiKey }) with mgmt := { sup.mgmt with tlbis := [w] } }
   !s.thr.wake && s.tlbiOf 0 62 == some w && s.tlbiDone w == !x.2 && ok (exec (.tlbi ⟨false, .g 2, .g 3⟩) s) fun t => if x.2 then (t.thr.park.map fun p => p.code) == some 16 && t.thr.pc == 0x10000 else t.mgmt.tlbis == [] && t.thr.pc == 0x10004,
  (let s : State := { tlbing true with mgmt := { sup.mgmt with tlbis := [⟨0, 62, 0, 0, some 1, [], [], []⟩] } }
   ok (exec (.hemWindowDelivery 1) s) fun t => t.cc == 80 && t.core.tlb == [] && t.mgmt.tlbis == [⟨0, 62, 0, 0, none, [(0, 0), (1, 1)], [], []⟩]),
  sup.thr.pend == [] && ok (exec (.idle ⟨false⟩) sup) fun t => (t.thr.park.map fun p => p.code) == some 14 && t.thr.pos.isNone,
  (let s := sup.modThr fun t => { t with wake := true }
   ok (exec (.idle ⟨false⟩) s) fun t => !t.thr.wake && t.thr.pc == 0x10004),
  [62, 63, 5, 3].all fun n => let s : State := { withG sup [(2, n)] with threads := [{ base.thr with frame := 3, pos := some 1, idx := 3 }] }
    rd s [.g 2] .gz fun s1 _ => ok (exec (.spill ⟨false, .g 2⟩) s) fun t => if n == 3 then (t.thr.park.map fun p => p.code) == some 16 else if n == 5 then t == s1.retire false else t == s.trap (cause 5 n)] : List Bool).all id = true := by decide +kernel

/-- A result for g1 that can land, poisoned, or replaced. -/
def landing (poison dropped : Bool) : State :=
  base.modThr fun t => { t with seq := 1, pend := [{ Pending.ofVal 42 3 with dst := .g 1, poison := if poison then some 0x55 else none, dropped := dropped }] }

/-- A result for qdn of the instruction at 0x10008 that can land, poisoned or not, with n words in the qup that it goes to. -/
def pushing (n : Nat) (poison : Bool) : State :=
  let s := base.modThr fun t => { t with seq := 1, pend := [{ Pending.ofVal 42 0 with dst := .qdn, poison := (if poison then some 0x55 else none), pc := 0x10008, popped := [(true, 9)] }] }
  { s with core := { s.core with qOwner := some 0, qdn := some 1 }, cores := [{ Core.fresh 1 with qup := List.replicate n 0 }] }

/-- A result that lands, poisoned, or replaced; one for qdn with room, without, and poisoned; a block that comes into the cache and from there to its thread; a walk that ends and one that fails; a thread that leaves and arrives; a window delivered. -/
theorem witness_ThreadArrivals : ([
  [false, true].all fun p => base.thr.frame < 64 && ok (exec (.longResultLand 0 0 0) (landing p false)) fun t => t.thr.g[1] == 42 && fieldOf t.thr.st 5 5 == 3 && (t.thr.marks == if p then [(1, 0x55)] else []),
  ok (exec (.longResultLand 0 0 0) (landing false true)) fun t => t.thr.g[1] == 0 && fieldOf t.thr.st 5 5 == 3,
  (let s : State := { pushing 0 false with caps := { base.caps with disabled := [1] } }
   !s.enabled 1 && (s.thr.pend.all fun p => !p.recv) && ok (exec (.longResultLand 0 0 0) s) fun t => t == ({ s with thr := { s.thr.land (s.thr.pend.headD (Pending.awaited false)) with pc := 0x10008, park := none, popped := [(true, 9)] } } : State).trap (cause cPLACE 0)),
  [(0, false), (16, false), (0, true)].all fun x => let s := pushing x.1 x.2
    s.enabled 1 && s.thr.core == s.core.id && (s.threads.all fun u => !u.is 0 0) && s.core.qdn.isSome && s.qdnRoom == (x.1 == 0) && s.thr.pos.isSome && match exec (.longResultLand 0 0 0) s with
      | .next t => if x.2 then t == ({ s with thr := { s.thr.land (s.thr.pend.headD (Pending.awaited false)) with pc := 0x10008, park := none, popped := [(true, 9)] } } : State).trap (cause cUCE 0x55)
          else x.1 == 0 && (t.net.pushes.map fun m => m.word) == [42]
      | .fault .notEnabled => x.1 == 16
      | _ => false,
  (let s : State := { base.modThr (fun t => { t with fbuf := none }) with core := { base.core with tlb := [⟨some 0, 0, 0x40000000, 0x4000002F, 0x200000⟩] } }
   let b := ((s.blockOf s.thr).map fun x => x.1).getD 0
   let c : State := { s with clusters := [{ s.clusterAt 0 with ic := [b] }] }
   s.threads == [] && (s.blockOf s.thr).isSome && (s.coreOf 0).reset.isNone && !(s.clusterAt 0).ic.contains b && ok (exec (.fetchBlock 0 b) s) (fun t => (t.clusterAt 0).ic == [b] && t.thr.fbuf.isNone) &&
   (c.blockOf c.thr).any (fun x => x.1 == b) && ok (exec (.fetchBlock 0 b) c) fun t => t.thr.fbuf.any fun x => x.1 == 2048 && x.2.toNat % 2 ^ 32 == 0x22000000),
  [(0x220000, true), (0x80000000, false)].all fun x => let w : WalkReq := ⟨0, some 0, x.1⟩
   let s : State := { base.modThr (fun t => { t with park := some ⟨0, 0, walkKey x.1, 0, none⟩ }) with walks := [w] }
   s.mem.wf && s.enabled 0 && (s.runningWalks 0).contains w && (s.walkWaiters 0 (some 0) (x.1 / 0x10000)).length == 1 && (match s.lookup 0 (some 0) x.1 with
     | .ok _ => x.2
     | .error _ => !x.2) && ok (exec (.tlbWalkComplete 0 0 false (BitVec.ofNat 64 x.1)) s) fun t => t.walks == [] && (tlbFind t.core.tlb (some 0) x.1).isSome == x.2,
  (let w : WalkReq := ⟨0, some 0, 0x220000⟩
   let s : State := { base with walks := [w] }
   s.walkWaiters 0 (some 0) 0x22 == [] && (s.runningWalks 0).contains w && ok (exec (.tlbWalkComplete 0 0 false 0x220008) s) fun t => (tlbFind t.core.tlb (some 0) 0x220008).isSome),
  (let s := base.modThr fun t => { t with migr := some 1, park := some ⟨1, 0, 0, 0, none⟩ }
   s.drained s.thr && s.thr.pend == [] && s.accepts 1 && (s.launchOf 1).all (fun l => l.ovf 0 == 0) && ok (exec (.migrationDepart 0 0) s) fun t => t.net.moves.length == 1 && !t.thr.live),
  (let s : State := { base with net := { base.net with moves := [{ base.thr with migr := some 1, pos := none, idx := 4 }] } }
   ({ s with net := { s.net with moves := [] } }).accepts 1 && (s.freePos 1).head? == some 0 && (s.freeFrames 1).head? == some 0 && ok (exec (.threadArrival 0) s) fun t => t.threads.length == 1),
  base.mgmt.tlbis.isEmpty && ok (exec (.hemWindowDelivery 2) { base with hem := [(0, 2)] }) fun t => t.cc == 88 && t.hem == []] : List Bool).all id = true := by decide +kernel

/-- A thread removed from core 0. -/
def out : Thread := { base.thr with frame := 3, pos := none, idx := 3, pc := 0x20000 }
def removed (t : Thread) : State := { base with threads := [t] }

/-- A launch with a spill area mapped at 0x1000000 on that wants core 0, whose frames are full; and the thread spilled. -/
def spillLaunch : Launch := { placedLaunch with info := { placedLaunch.info with spill := 0x1000000, spillsz := 0x10000 } }
def frameless : State :=
  let others := (List.range 61).map fun n => { base.thr with frame := n + 1, pos := if n < 30 then some (n + 1) else none, idx := n + 1 }
  { base with threads := others, launcher := { base.launcher with list := [spillLaunch, { waitingLaunch with info := { waitingLaunch.info with extx := 0, tpc := 0 } }], fifo := [2] } }
def spilledOne : State :=
  let x : Thread := { out with frame := ghostFrame ⟨1, 3⟩ }
  { base with threads := [x], launcher := { base.launcher with list := [{ spillLaunch with spilled := [⟨3, x.record 0⟩] }] }, mem := { base.mem with bytes := writeBytes base.mem.bytes (0x41000300 + 128) 8 0x20000 } }

/-- Another tenant's launch wants core 0, whose scratchpad tenant 0 holds; and the scratchpad saved in slot 0. -/
def saving : State :=
  let s := withWordAt base 0xFFFFFE0000000040 0x1234
  { s.modThr (fun t => { t with pos := none }) with
    core := { s.core with spOwner := some 0 }
    launcher := { s.launcher with list := [placedLaunch, { waitingLaunch with info := { waitingLaunch.info with extx := 0, tenant := 1 } }], fifo := [2] }
    sys := { s.sys with spsave := 0x80000000 } }

/-- Engines that pass on; a removed and an idle thread that return; a spill and a reload; a save and a restore. -/
theorem witness_ThreadsRemoved : ([
  (let s : State := { removed { out with st := 0x20000 } with core := { base.core with eng := { base.core.eng with owner := some 3 } } }
   (s.threadAt 0 3).any (fun t => t.pos.isNone) && !((s.coreOf 0).eng.mq.any fun m => m.frame == 3 && m.begun && !m.dying) && ((s.coreOf 0).eng.vq.all fun b => b.frame != 3 || b.cur.isNone) && (s.nextAnch 0).isNone && ok (exec (.engineRelease 0) s) fun t => t.core.eng.owner.isNone),
  (let s := removed out
   !out.isSup && decide (out.frame < 64) && s.mayReturn out && !s.outranked out && (s.freePos 0).head? == some 1 && ok (exec (.removedThreadReturn 0 3) s) fun t => t.threads.any fun u => u.pos == some 1),
  [true, false].all fun w => let t : Thread := { out with launch := 0, st := 1, frame := 62, wake := w, park := some ⟨14, 0, 0, 0, none⟩ }
    t.isSup && (removed t).enabled 0 && ok (exec (.removedThreadReturn 0 62) (removed t)) (fun t => t.threads.any fun u => u.pos == some 1) == w,
  (let s := frameless
   (s.spillNext 0).any fun t => (s.launchOf t.launch).any (fun l => l.id == t.launch && s.spillMapped l t) && s.spillReady t && (s.threadAt t.core t.frame).isSome &&
     ok (exec (.spillEngineRun 0) s) fun u => (u.launchOf 1).any fun l => l.spilled.length == 1),
  (let s := spilledOne
   (s.threadOf ⟨1, 3⟩).any fun t => t.core == 0 && !t.anchored && s.mayReload t && !s.outranked t && !s.spillAsked 0 1 && (s.freeFrames 0).head? == some 1 && (s.launchOf 1).any fun l => s.areaMapped 0 l.info.tenant (l.recordAt 3) 256 true &&
     !(s.ofRecord t fun i => (s.recordNow l t).getD i 0).anchored && ((s.recordNow l t).getD 20 0).toNat % 2 ^ 16 == 0 && ok (exec (.threadReload 1 3 0) s) fun u => u.threads.any fun x => x.frame == 1 && x.pc == 0x20000),
  saving.mem.wf && saving.saveFor 0 == some ({ waitingLaunch with info := { waitingLaunch.info with extx := 0, tenant := 1 } }, 0, 0) && decide (saving.slotAt 0 0 + 0x84000 ≤ 2 ^ 48) && saving.scratchQuiet 0 && saving.core.eng.owner.isNone &&
    ((saving.onCore 0).all fun u => u.pos.isNone || saving.tenantOf u.launch != some 0),
  (let s : State := { base with core := { base.core with saved := [(0, 0)], spOwner := some 1 }, sys := { base.sys with spsave := 0x80000000 } }
   s.mem.wf && ((s.coreOf 0).saved.find? fun x => x.2 == 0) == some (0, 0) && (s.wanting 0).isNone && s.scratchFree 0 0 && s.scratchQuiet 0 && (s.coreOf 0).waits == [])] : List Bool).all id = true := by decide +kernel

/-- A directory entry of a line. -/
def dirE (line : Nat) (st : DState) (owner : Nat) (sh : BitVec 13) (busy evict : Bool) : DirEntry := ⟨line, st, owner, sh, busy, evict, [], 0, none⟩
def withDir (l : List DirEntry) : State := { base with seam := { base.seam with dir := l } }
/-- A line of the HBM of die 0's quads. -/
abbrev aLine : Nat := 0x1008800

/-- A trained CXL port 0 with dynamic capacity and an extent. -/
def ported (ex : List (Nat × Nat)) : State :=
  { base with links := { base.links with ports := base.links.ports.set 0 { Port.reset with up := true, dcd := true, extents := ex } } }
abbrev cxlBase : Nat := 0x8000000000000

/-- A request of each kind by a die that is not at home at no entry, at a full set, at a shared line, at one that another die owns in each state, at one of its own, and at a busy one, with room in the queue and with none; a dead agent; a port and its own memory. -/
theorem witness_SeamRequests : ([
  base.mayRequest 1 aLine && (base.dirOf aLine).isNone && !base.setFullFor aLine && [(Instr.seamRds 1 aLine, some DState.e), (.seamRdx 1 aLine, some .m), (.seamUpg 1 aLine, some .m), (.seamWb 1 aLine, none), (.seamEvc 1 aLine, none)].all fun x =>
    (seamForm base x.1).any (fun f => f.1 == 1 && f.2.1 == aLine) && ok (exec x.1 base) fun t => ((t.dirOf aLine).map fun e => e.st) == x.2,
  (let s := withDir ((List.range 16).map fun k => dirE (aLine + (k + 1) * 2 ^ 32) .s 0 4 false false)
   s.mayRequest 1 aLine && (s.dirOf aLine).isNone && s.setFullFor aLine && !s.recalling aLine && (s.victimOf aLine).any fun v => ok (exec (.seamRds 1 aLine) s) fun t => t.seam.waits == [(1, aLine, .rds)] &&
     (t.dirOf v.line).any fun x => x.busy && x.evict),
  (let s := withDir [dirE aLine .s 0 4 false false]
   s.mayRequest 1 aLine && ok (exec (.seamRds 1 aLine) s) (fun t => (t.dirOf aLine).any fun e => e.sharers == 6) && ok (exec (.seamRdx 1 aLine) s) fun t => t.seam.snoops == [(2, aLine, true)]),
  [DState.e, .m, .o].all fun st => let s := withDir [dirE aLine st 2 (if st == .o then 8 else 0) false false]
   s.mayRequest 1 aLine && ok (exec (.seamRds 1 aLine) s) (fun t => t.seam.snoops == [(2, aLine, false)] && (t.dirOf aLine).any fun e => e.busy && e.st == st && e.serving == some (1, .rds)) &&
     ok (exec (.seamRdx 1 aLine) s) (fun t => t.seam.snoops == (2, aLine, true) :: (if st == .o then [(3, aLine, true)] else []) && (t.dirOf aLine).any fun e => e.busy && e.owner == 2) &&
     ok (exec (.seamWb 1 aLine) s) fun t => t.seam.dir == s.seam.dir,
  [(0 : BitVec 13), 8].all fun sh => let s := withDir [dirE aLine .o 1 sh false false]
   s.mayRequest 1 aLine && ok (exec (.seamUpg 1 aLine) s) (fun t => (t.dirOf aLine).any fun e => if sh == 0 then e.st == .m && !e.busy else e.busy && e.serving == some (1, .upg)) &&
     ok (exec (.seamWb 1 aLine) s) fun t => if sh == 0 then (t.dirOf aLine).isNone else (t.dirOf aLine).any fun e => e.st == .s && e.sharers == 8,
  [(2 : BitVec 13), 6].all fun sh => let s := withDir [dirE aLine .s 0 sh false false]
   s.mayRequest 1 aLine && ok (exec (.seamEvc 1 aLine) s) (fun t => if sh == 2 then (t.dirOf aLine).isNone else (t.dirOf aLine).any fun e => e.sharers == 4) &&
     ok (exec (.seamWb 1 aLine) s) fun t => (t.dirOf aLine).any fun e => e.sharers == sh,
  [1, 4096].all fun n => let s := withDir [{ dirE aLine .m 2 0 true false with queue := List.replicate n (3, .rds) }]
   s.mayRequest 1 aLine && s.queueFull aLine == (n == 4096) && (seamForm s (.seamWb 1 aLine)).any (fun f => f.2.2 == .wb false) && ok (exec (.seamWb 1 aLine) s) fun t => ((t.dirOf aLine).any fun e => e.queue.length == 2) == (n == 1) && t.seam.waits == if n == 1 then [] else [(1, aLine, .wb false)],
  (let s : State := { base with caps := { base.caps with dead := 2 } }
   s.caps.dead.getLsbD 1 && ok (exec (.seamWb 1 aLine) s) fun t => t == s.countSlice (dirSlice aLine) 0x208),
  (let s := ported [(cxlBase, 128)]
   s.mayRequest 9 (cxlBase / 64) && (s.dirOf (cxlBase / 64)).isNone && !s.setFullFor (cxlBase / 64) && ok (exec (.seamRds 9 (cxlBase / 64)) s) fun t => (t.dirOf (cxlBase / 64)).isNone)] : List Bool).all id = true := by decide +kernel

/-- A line of host memory, owned by die 2. -/
abbrev hostLine : Nat := 0x40000000001
def hostOwned : State := { withDir [dirE hostLine .m 2 0 false false] with links := { base.links with up := 1, cacheen := true } }

/-- A snoop that invalidates and one that reads, of a clean and of a dirty owner; the end of a transaction of each request, and one whose snoops are under way; a recall; the host's snoops. -/
theorem witness_SeamTransactions : ([
  [true, false].all fun inv => [true, false].all fun dirty => [DState.e, .m, .o].all fun st =>
    let s : State := { withDir [{ dirE aLine st 2 (if st == .o then 8 else 0) true false with serving := some (1, if inv then .rdx else .rds) }] with cores := if dirty then [{ Core.fresh 512 with l1 := [⟨aLine, .m⟩] }] else [] }
    let s : State := { s with seam := { s.seam with snoops := [(2, aLine, inv)] } }
    !s.asked 2 aLine && (s.ahead 2 aLine).isEmpty && s.dieDirty 2 aLine == dirty && !s.wbPending 2 aLine && ok (exec (.snoopArrival 2 aLine inv) s) fun t => t.seam.snoops == [] && (t.dirOf aLine).any fun x => x.busy &&
      if inv then x.st == .s && !t.dieHolds 2 aLine else if st == .e && !dirty then x.st == .s && x.sharers == 4 else x.st == .o && x.owner == 2,
  [(dirE aLine .m 2 0 true false, none), (dirE aLine .s 0 4 true false, some (1, CReq.rds)), (dirE aLine .o 2 0 true false, some (1, .rds)), (dirE aLine .s 0 2 true false, some (1, .upg)), (dirE aLine .s 0 0 true false, some (1, .rdx))].all fun x =>
    let s := withDir [{ x.1 with serving := x.2 }]
    !s.caps.fovr && s.seam.snoops == [] && ok (exec (.seamTransactionEnd aLine) s) (fun t => (t.dirOf aLine).any fun e => !e.busy && match x.2 with
      | none => e.st == .m && e.owner == 2
      | some (_, .rds) => e.st == x.1.st && e.sharers == (x.1.sharers ||| 2#13)
      | _ => e.st == .m && e.owner == 1 && e.sharers == 0#13) && match exec (.seamTransactionEnd aLine) { s with seam := { s.seam with snoops := [(1, aLine, true)] } } with
        | .fault .notEnabled => true
        | _ => false,
  (let s := withDir [dirE aLine .m 2 0 true true]
   s.seam.waits == [] && !s.caps.fovr && ok (exec (.directoryRecallComplete aLine) s) fun t => (t.dirOf aLine).isNone && !t.dieHolds 2 aLine),
  hostOwned.hostSnoops hostLine && !hostOwned.releasing (hostLine * 64) && ok (exec (.hostSnpdata hostLine) hostOwned) (fun t => t.seam.snoops == [(2, hostLine, false)]) && ok (exec (.hostSnpinv hostLine) hostOwned) fun t => t.seam.snoops == [(2, hostLine, true)] &&
     (t.dirOf hostLine).any fun e => e.serving == some (8, .rdx),
  hostOwned.windowUp 0 && ok (exec (.hostUnsupportedRequest 0) hostOwned) fun t => t.seam.dir == hostOwned.seam.dir] : List Bool).all id = true := by decide +kernel

/-- A die and a core that do not answer; the host and a port whose links are down; a seam that fails, each of the two; the failover. -/
theorem witness_DeadAgents : ([
  (let s := { base with seam := { base.seam with snoops := [(2, aLine, true)] } }
   !s.caps.dead.getLsbD 2 && ok (exec (.agentDead 2) s) (fun t => t.caps.dead.getLsbD 2) && s.enabled 512 && (s.coreOf 512).reset.isNone && ok (exec (.coreSnoopTimeout 512) s) fun t => (t.coreOf 512).reset.isSome),
  [8, 9, 12].all fun a => !base.caps.dead.getLsbD a && base.agentLinkDown a && ok (exec (.agentDead a) base) fun t => t.caps.dead.getLsbD a && t.cc == base.cc,
  base.caps.seamOk == 3 && !base.caps.fovr && ok (exec (.seamFailure 0) base) (fun t => t.caps.seamOk == 2 && t.caps.surv == 1) && ok (exec (.seamFailure 1) base) fun t => t.caps.seamOk == 1,
  (let s : State := { base with caps := { base.caps with fovr := true } }
   !s.caps.dless && ok (exec .failoverComplete s) fun t => t.caps.dless)] : List Bool).all id = true := by decide +kernel

/-- An extent added and released, at once and by force; a back-invalidate; a drain; links that train, go down and fail; CXL enabled. -/
theorem witness_Links : ([
  portReaches 0 cxlBase 64 false && ok (exec (.dynamicCapacityAdd 0 cxlBase 64) (ported [])) (fun t => t.links.ports[0].extents == [(cxlBase, 64)]) &&
    ok (exec (.dcdReleaseRequest 0 cxlBase 64) (ported [(cxlBase, 128)])) fun t => t.links.releases.length == 1,
  (let s := { ported [(cxlBase, 128)] with links := { (ported [(cxlBase, 128)]).links with releases := [⟨0, cxlBase, 64, 0⟩] } }
   ok (exec (.dcdReleaseComplete 0) s) (fun t => t.links.ports[0].extents == [(cxlBase + 64, 64)]) && ok (exec (.dcdForcedRelease 0) s) fun t => t.cc == 1200000),
  (let s := ported [(cxlBase, 128)]
   s.agentUp 9 && !s.caps.fovr && portReaches 0 cxlBase 64 false && [true, false].all fun inv => ok (exec (.expanderBackInvalidate 0 ⟨cxlBase / 64, inv⟩) s) fun t => (t.dirOf (cxlBase / 64)).all fun e => !inv && e.st == .s),
  ok (exec (.combiningBufferDrain 5) { base with cc := 12000, seam := { base.seam with comb := [⟨5, 0, 1⟩] } }) fun t => t.seam.comb == [],
  ok (exec (.linkTrained (.host 1)) base) (fun t => t.links.up == 2) && ok (exec (.linkDown (.host 1)) { base with links := { base.links with up := 2 } }) fun t => t.links.up == 0 && t.mgmt.events == [⟨5, 0, 1⟩],
  base.caps.seamOk.getLsbD 0 && base.caps.seamOk.getLsbD 1 && [0, 3].all fun p => ok (exec (.linkTrained (.cxl p 16 64 true false)) base) fun t => (t.port p).up && (t.port p).dcd && (t.port p).rate == 64,
  ok (exec (.linkDown (.cxl 0 8 32 true false)) (ported [(cxlBase, 64)])) fun t => !(t.port 0).up && (t.port 0).extents == [] && t.mgmt.events == [⟨5, 1, 0⟩],
  base.mgmt.booted && ok (exec (.linkTrained (.peer 3 2 5)) base) fun t => t.links.peers[3] == ⟨true, 2, 5⟩,
  (let s := { base with links := { base.links with peers := (base.links.peers.set 3 ⟨true, 2, 5⟩).set 4 ⟨true, 2, 6⟩ } }
   ok (exec (.peerLinkFailure 3) s) fun t => !t.links.peers[3].trained && t.links.peers[4].trained),
  ok (exec (.cxlCacheMemEnable true false) { base with links := { base.links with up := 1 } }) fun t => t.links.cacheen && !t.links.memen] : List Bool).all id = true := by decide +kernel

/-- A layer that fails, its copy before and after the acknowledgement; windows of corrected errors at the limit and above it; refresh; gating. -/
theorem witness_LayersAndHealth : ([
  base.caps.layers == [] && base.mgmt.removals == [] && ok (exec (.layerFailure 1 2) base) fun t => t.caps.rmv && t.mgmt.removals == [⟨1, 2, false⟩],
  [true, false].all fun a => let s : State := { base with caps := { base.caps with rmv := true, rmvbase := 0xF000000000 }, mgmt := { base.mgmt with removals := [⟨1, 2, a⟩] } }
    s.caps.rmv && s.caps.rmvbase != s.caps.cap && s.mgmt.removals.length == 1,
  [10000, 10001].all fun n => ok (exec .healthCeWindowEnd { base with health := { base.health with winCount := n } }) fun t => t.health.why.getLsbD 4 == (n == 10001),
  !refreshing 0 3 && ok (exec (.weightRefreshStart 0 3) base) (fun t => refreshing t.cc 3) && refreshing 7200 3 && ok (exec (.weightRefreshEnd 0 3) { base with cc := 7200 }) fun t => !refreshing t.cc 3,
  ok (exec (.powerClockGating true) base) fun t => t.mgmt.gated] : List Bool).all id = true := by decide +kernel

/-- A core put in reset; its release with nothing held, mapped out and not, with a spare and without; and with a thread, an entry, a store and a line. -/
theorem witness_CoreResets : ([
  base.enabled 5 && ok (exec (.dziethCoreReset 5 true) base) fun t => (t.coreOf 5).reset == some ⟨true⟩,
  [(false, 4), (true, 4), (true, 0)].all fun x => let s : State := { base with cores := [{ Core.fresh 5 with reset := some ⟨x.1⟩ }], caps := { base.caps with spares := base.caps.spares.set 0 x.2 } }
    s.onCore 5 == [] && (s.coreOf 5).deque == [] && (s.coreOf 5).sb == [] && (s.coreOf 5).l1 == [] && (s.coreOf 5).waits == [] && s.mgmt.unsaved == [] && !s.caps.dead.getLsbD 0 &&
    ok (exec (.coreResetRelease 5) s) fun t => (t.coreOf 5).reset.isNone && t.enabled 5 == !(x.1 && x.2 == 0),
  (let s : State := { withWordAt base 0xFFFFFE0000000080 7 with core := { base.core with reset := some ⟨false⟩, deque := [ownEntry 0x20], sb := (stored 0xFFFFFE0000000040).core.sb, sbNum := 1, l1 := [⟨aLine, .e⟩] } }
   !s.caps.dead.getLsbD 0 && ((s.coreOf 0).sb.all fun e => s.heldBack 0 e || s.reachable 0 e.loc true) && ok (exec (.coreResetRelease 0) s) fun t =>
     (t.coreOf 0).reset.isNone && (t.coreOf 0).deque == [] && (t.coreOf 0).l1 == [] && (t.onCore 0).isEmpty && t.numAt 0xFFFFFE0000000080 8 == 0)] : List Bool).all id = true := by decide +kernel

/-- A command of the given code, with 4 bytes of input, waits in the mailbox of seam 0 beside some events. -/
def mailed (code : Nat) (ev : List Event) : State :=
  { base with links := { base.links with up := 1 }
              mgmt := { base.mgmt with events := ev, mbq := [0], mb := base.mgmt.mb.set 0 { Mailbox.reset with cmd := BitVec.ofNat 64 (0x40000 + code), stat := 1 } } }

/-- A command of each kind that is due: an event and none, a report below and at the limit, RECOVER while the firmware runs and while boot awaits an image. -/
theorem witness_ResetAndMailbox : ([
  (let s := mailed 3 [⟨0x0105, 7, 9⟩]
   s.mgmt.booted && s.commandDue 0 3 && cellsFrom 0 s.mgmt.mb[0].data && ok (exec (.mbGetevent 0) s) fun t => t.mgmt.mbq == [] && t.mgmt.events == [] && readBytes t.mgmt.mb[0].data 0 2 == 0x105 && readBytes t.mgmt.mb[0].data 2 8 == 7),
  ok (exec (.mbGetevent 0) (mailed 3 [])) fun t => t.mgmt.mb[0].stat == 2 && t.mgmt.mb[0].outLen == 0,
  (let s : State := { mailed 1 [] with mgmt := { (mailed 1 []).mgmt with lms := 1048576 } }
   s.commandDue 0 1 && decide ((mailed 1 []).mgmt.lms < 1048576) && ok (exec (.mbAttest 0) s) fun t => t.mgmt.mb[0].stat == 3),
  (mailed 2 []).commandDue 0 2 && ok (exec (.mbRecover 0) (mailed 2 [])) fun t => t.mgmt.mb[0].stat == 3,
  (let s := { mailed 2 [] with mgmt := { (mailed 2 []).mgmt with booted := false } }
   s.commandDue 0 2 && decide (0 < s.mgmt.mb[0].cmd.toNat / 2 ^ 16 % 2 ^ 16) && ok (exec (.mbRecover 0) s) fun t => t.mgmt.mb[0].stat == 2 && !t.mgmt.booted)] : List Bool).all id = true := by decide +kernel

end Sys2Proof.Tests
end

section
/-! Functions of the model that leave memory as it is. -/

namespace Sys2Proof.Machine

theorem foldl_mem {β : Type} {f : State → β → State} (h : ∀ s b, (f s b).mem = s.mem) (l : List β) (s : State) :
    (l.foldl f s).mem = s.mem := foldl_keeps State.mem f h l s
@[simp] theorem foldl_modThread_mem {β : Type} (core frame : β → Nat) (f : β → Thread → Thread) (l : List β) (s : State) :
    (l.foldl (fun s b => s.modThread (core b) (frame b) (f b)) s).mem = s.mem :=
  foldl_keeps State.mem (fun s b => s.modThread (core b) (frame b) (f b)) (fun _ _ => rfl) l s
@[simp] theorem foldl_recvd_mem {β : Type} (launch core : β → Nat) (l : List β) (s : State) :
    (l.foldl (fun s b => s.recvd (launch b) (core b)) s).mem = s.mem :=
  foldl_keeps State.mem (fun s b => s.recvd (launch b) (core b)) (fun _ _ => rfl) l s

@[simp] theorem State.replace_mem (s : State) (bit : Nat) : (s.replace bit).mem = s.mem := by
  simp [State.replace, apply_ite State.mem]
@[simp] theorem State.setCoreReg_mem (s : State) (i : Nat) (v : Word) : (s.setCoreReg i v).mem = s.mem := rfl
@[simp] theorem State.setBusy_mem (s : State) (core : Nat) : (s.setBusy core).mem = s.mem := rfl
@[simp] theorem State.parkBehind_mem (s : State) : s.parkBehind.mem = s.mem := by simp [State.parkBehind]
@[simp] theorem State.focus_mem (s : State) (core frame : Nat) : (s.focus core frame).mem = s.mem := by
  unfold State.focus
  dsimp only
  generalize hs1 : (if s.thr.live then ({ s with thr := Thread.absent, threads := s.threads ++ [s.thr] } : State) else s) = s1
  have h1 : s1.mem = s.mem := by rw [← hs1]; split <;> rfl
  split <;> simp [apply_ite State.mem, h1]
theorem State.asThread_mem {s : State} {core frame : Nat} {f : State → State} (h : ∀ t : State, (f t).mem = t.mem) :
    (s.asThread core frame f).mem = s.mem := by
  unfold State.asThread
  split
  · exact h s
  · simp [apply_ite State.mem, h]
@[simp] theorem State.newFuture_mem (s : State) (d : Both) (id : Nat) (stream : Option Nat) : (s.newFuture d id stream).mem = s.mem := by
  unfold State.newFuture; split <;> rfl
@[simp] theorem State.settleFut_mem (s : State) (n : Fin 16) (f : Option Future) : (s.settleFut n f).mem = s.mem := by
  cases f <;> rfl
@[simp] theorem State.modPort_mem (s : State) (p : Nat) (f : Port → Port) : (s.modPort p f).mem = s.mem := rfl
@[simp] theorem State.unlist_mem (s : State) (line : Nat) : (s.unlist line).mem = s.mem := by
  unfold State.unlist; split <;> rfl
@[simp] theorem State.dieTakes_mem (s : State) (a line : Nat) (r : CReq) : (s.dieTakes a line r).mem = s.mem := by
  unfold State.dieTakes; split <;> simp [apply_ite State.mem]
@[simp] theorem State.seamFinish_mem (s : State) (line a : Nat) (r : CReq) : (s.seamFinish line a r).mem = s.mem := by
  unfold State.seamFinish; split <;> simp
@[simp] theorem State.seamApply_mem (s : State) (line a : Nat) (r : CReq) : (s.seamApply line a r).mem = s.mem := by
  unfold State.seamApply; (repeat' split) <;> simp [apply_ite State.mem]
@[simp] theorem State.seamRequest_mem (s : State) (line a : Nat) (r : CReq) : (s.seamRequest line a r).mem = s.mem := by
  unfold State.seamRequest; (repeat' split) <;> simp
@[simp] theorem State.retryWaits_mem (s : State) : s.retryWaits.mem = s.mem := by
  simp [State.retryWaits, apply_ite State.mem, foldl_mem]
@[simp] theorem State.askLine_mem (s : State) (die line : Nat) (excl : Bool) : (s.askLine die line excl).mem = s.mem := by
  unfold State.askLine; split <;> simp
@[simp] theorem State.waitSeam_mem (s : State) (a line : Nat) (excl : Bool) : (s.waitSeam a line excl).mem = s.mem := by
  unfold State.waitSeam; split <;> simp
@[simp] theorem State.requestAt_mem (s : State) (kind : ReqKind) (l : Loc) (num : Nat) (rel : Bool) (scope : Nat) (win : Option Nat) :
    (s.requestAt kind l num rel scope win).mem = s.mem := by
  simp [State.requestAt, apply_ite State.mem]
@[simp] theorem State.wakeJoin_mem (s : State) (key : Nat) : (s.wakeJoin key).mem = s.mem := by
  unfold State.wakeJoin; split <;> rfl
@[simp] theorem State.bankServed_mem (s : State) (bank core : Nat) : (s.bankServed bank core).mem = s.mem := rfl
@[simp] theorem State.announceEntry_mem (s : State) (core : Nat) (e : SbEntry) : (s.announceEntry core e).mem = s.mem := by
  simp [State.announceEntry]
@[simp] theorem State.sawBuffered_mem (s : State) (r : Req) : (s.sawBuffered r).mem = s.mem := by
  unfold State.sawBuffered; split <;> rfl
@[simp] theorem State.prefetch_mem (s : State) (core : Nat) (l : Loc) (l2 : Bool) (launch : Nat) :
    (s.prefetch core l l2 launch).mem = s.mem := by
  unfold State.prefetch; (repeat' split) <;> simp
@[simp] theorem State.announceReq_mem (s : State) (k : Nat) (r : Req) : (s.announceReq k r).mem = s.mem := rfl
@[simp] theorem State.replied_mem (s : State) (r : Req) : (s.replied r).mem = s.mem := by
  unfold State.replied; split <;> simp [apply_ite State.mem]
@[simp] theorem State.aggResults_mem (first bad : Nat) (va : Word) (ps : List AggPart) :
    ∀ (s : State) (v : Nat), (s.aggResults first bad va ps v).mem = s.mem := by
  induction ps with
  | nil => exact fun _ _ => rfl
  | cons p r ih => intro s v; simp [State.aggResults, ih, apply_ite State.mem]
@[simp] theorem State.announce_mem (s : State) : s.announce.mem = s.mem := rfl
@[simp] theorem State.scRequest_mem (s : State) (sw : Bool) (d : Dst) (kind : ReqKind) (l : Loc) (scope : Nat) :
    (s.scRequest sw d kind l scope).mem = s.mem := by
  simp [State.scRequest]
@[simp] theorem State.parkLine_mem (s : State) (l : Loc) (excl : Bool) : (s.parkLine l excl).mem = s.mem := by simp [State.parkLine]
@[simp] theorem State.noteRead_mem (s : State) (rs : List (Nat × Nat)) : (s.noteRead rs).mem = s.mem := by
  unfold State.noteRead; (repeat' split) <;> rfl
@[simp] theorem State.fillConst_mem (s : State) (cl line : Nat) : (s.fillConst cl line).mem = s.mem := by
  unfold State.fillConst; split <;> rfl
@[simp] theorem State.stscSlot_mem (s : State) (sw : Bool) : (s.stscSlot sw).mem = s.mem := by
  unfold State.stscSlot; dsimp only; split <;> simp [apply_ite State.mem]
@[simp] theorem State.dropLine_mem (s : State) (die line : Nat) : (s.dropLine die line).mem = s.mem := by
  unfold State.dropLine; dsimp only; split <;> simp [apply_ite State.mem]
@[simp] theorem State.resume_mem (s : State) (e : DqEntry) : (s.resume e).mem = s.mem := by simp [State.resume]
@[simp] theorem State.countWork_mem (s : State) : s.countWork.mem = s.mem := rfl
@[simp] theorem State.startWalk_mem (s : State) : s.startWalk.mem = s.mem := by
  simp [State.startWalk, apply_ite State.mem]
@[simp] theorem State.halt_mem (s : State) : s.halt.mem = s.mem := by
  unfold State.halt; split <;> simp [apply_ite State.mem]
@[simp] theorem State.subn_mem (s : State) (m : Nat) : (s.subn m).mem = s.mem := by simp [State.subn]
@[simp] theorem State.illegal_mem (s : State) (i : Instr) : (s.illegal i).mem = s.mem := by simp [State.illegal]
@[simp] theorem State.startThread_mem (s : State) (l : Launch) (p : Nat) (t : Thread) : (s.startThread l p t).mem = s.mem := by
  simp [State.startThread, apply_ite State.mem]
@[simp] theorem State.setBarrier_mem (s : State) (b : Barrier) : (s.setBarrier b).mem = s.mem := rfl
@[simp] theorem State.expireBarrier_mem (s : State) (b : Barrier) : (s.expireBarrier b).mem = s.mem := by
  simp [State.expireBarrier, foldl_mem, State.asThread_mem]
@[simp] theorem State.lapse_mem (s : State) (b : Barrier) : (s.lapse b).1.mem = s.mem := by
  unfold State.lapse; split <;> simp
@[simp] theorem State.arriveAt_mem (s : State) (b : Barrier) : (s.arriveAt b).mem = s.mem := by
  unfold State.arriveAt; split <;> rfl
@[simp] theorem State.stamp_mem (s : State) : s.stamp.mem = s.mem := rfl
@[simp] theorem State.touchEntry_mem (s : State) (k : TKey) : (s.touchEntry k).mem = s.mem := rfl
theorem State.allocEntry_mem {s t : State} {k : TKey} {j : Join} {launch : Nat} (h : s.allocEntry k j launch = some t) :
    t.mem = s.mem := by
  unfold State.allocEntry at h
  dsimp only at h
  split at h
  · simp only [Option.some.injEq] at h
    simp [← h]
  · obtain ⟨o, -, rfl⟩ := Option.map_eq_some_iff.1 h
    simp
@[simp] theorem State.settle_mem (s : State) (g : Nat) : (s.settle g).mem = s.mem := by
  simp [State.settle, foldl_mem, apply_ite State.mem]
@[simp] theorem State.mergeGroup_mem (s : State) (g h : Nat) : (s.mergeGroup g h).mem = s.mem := by
  unfold State.mergeGroup; (repeat' split) <;> rfl
@[simp] theorem State.addMember_mem (s : State) (g : Nat) (k : TKey) : (s.addMember g k).mem = s.mem := by
  unfold State.addMember; (repeat' split) <;> simp
@[simp] theorem State.joinGroup_mem (s : State) (g : Nat) (i : Tid) : (s.joinGroup g i).mem = s.mem := by
  simp [State.joinGroup, foldl_mem]
theorem State.formGroup_mem {s t : State} {me : Tid} {chain : List (TKey × Option Tid)} {g : Nat}
    (h : s.formGroup me chain = some (t, g)) : t.mem = s.mem := by
  unfold State.formGroup at h
  dsimp only at h
  split at h
  · simp at h
  · split at h
    · simp at h
    · simp only [Option.some.injEq, Prod.mk.injEq] at h
      obtain ⟨rfl, rfl⟩ := h
      rw [foldl_mem]
      · simp [foldl_mem]
      · intro s b
        repeat' split
        all_goals simp
@[simp] theorem State.produce_mem (s : State) (k : TKey) : (s.produce k).mem = s.mem := rfl
@[simp] theorem State.suspend_mem (s : State) (k : TKey) : (s.suspend k).mem = s.mem := rfl
@[simp] theorem State.tableAsk_mem (s : State) : s.tableAsk.mem = s.mem := by simp [State.tableAsk]
@[simp] theorem State.tableTrip_mem (s : State) : s.tableTrip.mem = s.mem := by simp [State.tableTrip]
@[simp] theorem State.callGrouped_mem (s : State) (e : TEntry) (g : Nat) : (s.callGrouped e g).mem = s.mem := by
  simp [State.callGrouped, apply_ite State.mem]
@[simp] theorem State.tretEntry_mem (s : State) (k : TKey) (e : TEntry) : (s.tretEntry k e).mem = s.mem := by
  unfold State.tretEntry; split <;> simp [apply_ite State.mem]
@[simp] theorem State.undoTret_mem (s : State) (c : Word) : (s.undoTret c).mem = s.mem := rfl
@[simp] theorem State.clearTable_mem (s : State) (t : Nat) : (s.clearTable t).mem = s.mem := by
  simp [State.clearTable, foldl_mem]
@[simp] theorem State.endGroup_mem (s : State) (g : Nat) (st : TState) : (s.endGroup g st).mem = s.mem := rfl
@[simp] theorem State.closeClean_mem (s : State) (g : Nat) (lead : TEntry) (leader : Thread) :
    (s.closeClean g lead leader).mem = s.mem := by
  simp [State.closeClean, foldl_mem]
@[simp] theorem State.closeDirty_mem (s : State) (g : Nat) (lead : TEntry) (leader : Thread) (pass : Nat) :
    (s.closeDirty g lead leader pass).mem = s.mem := by
  simp [State.closeDirty, apply_ite State.mem, State.asThread_mem]
theorem State.bind_mem {s t : State} {k : Nat} (h : s.bind k = .ok t) : t.mem = s.mem := by
  unfold State.bind at h
  dsimp only at h
  repeat' split at h
  all_goals simp_all
  all_goals simp [← h]
@[simp] theorem State.publish_mem (s : State) (k : Fin 8) (key tag : Word) : (s.publish k key tag).mem = s.mem := rfl
@[simp] theorem State.setSlot_mem (s : State) (x : WinSlot) : (s.setSlot x).mem = s.mem := rfl
@[simp] theorem State.lwSet_mem (s : State) (seam : Nat) (v : BitVec 2) : (s.lwSet seam v).mem = s.mem := by
  unfold State.lwSet; split <;> rfl
@[simp] theorem State.slotWrite_mem (s : State) (seam slot i : Nat) (v : Word) : (s.slotWrite seam slot i v).mem = s.mem := by
  unfold State.slotWrite; split <;> simp [apply_ite State.mem]
@[simp] theorem State.removeAll_mem (s : State) (ts : List Thread) : (s.removeAll ts).mem = s.mem := by
  simp [State.removeAll]
@[simp] theorem State.clearCore_mem (l : Launch) (core n : Nat) : ∀ s : State, (s.clearCore l core n).mem = s.mem := by
  induction n with
  | zero => exact fun _ => rfl
  | succ n ih =>
    intro s
    unfold State.clearCore
    split
    · rfl
    · split <;> simp [ih]
@[simp] theorem State.placeThread_mem (s : State) (l : Launch) (core c p : Nat) : (s.placeThread l core c p).mem = s.mem := by
  unfold State.placeThread; split <;> simp
@[simp] theorem State.clearConst_mem (s : State) (l : Launch) : (s.clearConst l).mem = s.mem := rfl
@[simp] theorem State.terminateMoving_mem (s : State) (t : Thread) : (s.terminateMoving t).mem = s.mem := by simp [State.terminateMoving]
theorem State.startLost_mem {s t : State} {y : Nat × Lost} (h : s.startLost y = some t) : t.mem = s.mem := by
  unfold State.startLost at h
  dsimp only at h
  repeat' split at h
  all_goals simp_all
  all_goals simp [← h]
@[simp] theorem State.supPosition_mem (s : State) (core : Nat) : (s.supPosition core).1.mem = s.mem := by
  unfold State.supPosition; split <;> simp
@[simp] theorem State.holdFault_mem (s : State) (core : Nat) (b : Body) (idx cause : Nat) (a : Word) :
    (s.holdFault core b idx cause a).mem = s.mem := by
  simp [State.holdFault]
@[simp] theorem State.setHead_mem (s : State) (core : Nat) (b : Option Body) : (s.setHead core b).mem = s.mem := by simp [State.setHead]
@[simp] theorem State.resolveReds_mem (s : State) (core : Nat) (ms : List VecIns) : (s.resolveReds core ms).mem = s.mem := by
  refine foldl_mem (fun s m => ?_) ms s
  split <;> simp
@[simp] theorem State.setSpos_mem (s : State) (core j : Nat) (b : Body) : (s.setSpos core j b).mem = s.mem := by simp [State.setSpos]
@[simp] theorem State.idleSpos_mem (s : State) (core : Nat) (b : Body) : (s.idleSpos core b).mem = s.mem := by
  simp [State.idleSpos, State.fresh]
@[simp] theorem State.countOp_mem (s : State) (launch : Nat) : (s.countOp launch).mem = s.mem := rfl
@[simp] theorem State.deliverFault_mem (s : State) (h : VHeld) : (s.deliverFault h).mem = s.mem := by
  unfold State.deliverFault; split <;> simp
@[simp] theorem State.resumeHeld_mem (s : State) (core choice : Nat) : (s.resumeHeld core choice).mem = s.mem := by
  unfold State.resumeHeld; split <;> simp
@[simp] theorem State.eretHeld_mem (s : State) : s.eretHeld.mem = s.mem := by
  unfold State.eretHeld; (repeat' split) <;> simp
@[simp] theorem State.vecEnter_mem (s : State) (m : VecIns) : (s.vecEnter m).mem = s.mem := rfl
@[simp] theorem State.modCh_mem (s : State) (core : Nat) (ch : Fin 4) (f : Channel → Channel) : (s.modCh core ch f).mem = s.mem := by
  simp [State.modCh]
@[simp] theorem State.copyReach_mem (s : State) (core : Nat) (o : CopyOp) (l : Loc) (excl : Bool) :
    (s.copyReach core o l excl).mem = s.mem := by
  simp [State.copyReach]
@[simp] theorem State.copyKeep_mem (s : State) (core : Nat) (o : CopyOp) (l : Loc) : (s.copyKeep core o l).mem = s.mem := by
  unfold State.copyKeep; dsimp only; split <;> simp [apply_ite State.mem]
@[simp] theorem State.copyFault_mem (s : State) (core : Nat) (ch : Fin 4) (o : CopyOp) (a : Word) :
    (s.copyFault core ch o a).mem = s.mem := by
  simp [State.copyFault]
@[simp] theorem State.matResolve_mem (s : State) (core : Nat) (m : MatEntry) (st : FutStatus) (addr : Word) :
    (s.matResolve core m st addr).mem = s.mem := by
  unfold State.matResolve; (repeat' split) <;> simp
@[simp] theorem State.matFault_mem (s : State) (core : Nat) (m : MatEntry) (c : Nat) (addr : Word) :
    (s.matFault core m c addr).mem = s.mem := by
  simp [State.matFault]
@[simp] theorem State.setMat_mem (s : State) (core : Nat) (m : MatEntry) : (s.setMat core m).mem = s.mem := by simp [State.setMat]
@[simp] theorem State.injectMat_mem (s : State) (core stream : Nat) : (s.injectMat core stream).1.mem = s.mem := by
  unfold State.injectMat; dsimp only; (repeat' split) <;> simp
@[simp] theorem State.countMany_mem (s : State) (core src launch n : Nat) : (s.countMany core src launch n).mem = s.mem := by
  simp [State.countMany]
@[simp] theorem State.countRes_mem (s : State) : s.countRes.mem = s.mem := rfl
@[simp] theorem State.matRetire_mem (s : State) (core : Nat) (m : MatEntry) (a b : RingInfo) : (s.matRetire core m a b).mem = s.mem := by
  simp [State.matRetire]
@[simp] theorem State.matResid_mem (s : State) (core : Nat) (m : MatEntry) : (s.matResid core m).mem = s.mem := by
  simp [State.matResid, foldl_mem]
@[simp] theorem State.setQuad_mem (s : State) (b : BlockQueue) : (s.setQuad b).mem = s.mem := rfl
@[simp] theorem State.setBqlim_mem (s : State) (core : Nat) (v : Word) : (s.setBqlim core v).mem = s.mem := rfl
@[simp] theorem State.baddEnd_mem (s : State) (core : Nat) (b : BaddEntry) (st : FutStatus) (a : Word) :
    (s.baddEnd core b st a).mem = s.mem := by
  simp [State.baddEnd]
@[simp] theorem State.baddFault_mem (s : State) (core : Nat) (b : BaddEntry) (a : Word) : (s.baddFault core b a).mem = s.mem := by
  simp [State.baddFault]
@[simp] theorem State.cancelFuture_mem (s : State) (core id : Nat) : (s.cancelFuture core id).mem = s.mem := by
  unfold State.cancelFuture; split <;> simp
@[simp] theorem State.privTrap_mem (s : State) (i : Instr) : (s.privTrap i).mem = s.mem := by simp [State.privTrap]
@[simp] theorem State.setRot_mem (s : State) (v : Word) : (s.setRot v).mem = s.mem := by simp [State.setRot]
@[simp] theorem State.ackRemoval_mem (s : State) (v : Word) : (s.ackRemoval v).mem = s.mem := by
  unfold State.ackRemoval; split <;> rfl
@[simp] theorem State.startReset_mem (s : State) (n : Nat) (mapout : Bool) : (s.startReset n mapout).mem = s.mem := by
  simp [State.startReset]
@[simp] theorem State.setErrinj_mem (s : State) (v : Word) : (s.setErrinj v).mem = s.mem := rfl
@[simp] theorem State.sysPut_mem (s : State) (i : Nat) (v : Word) : (s.sysPut i v).mem = s.mem := by
  simp [State.sysPut, apply_ite State.mem]
@[simp] theorem State.tlbi_mem (s : State) (a b : Word) : (s.tlbi a b).mem = s.mem := rfl
@[simp] theorem State.tlbiLands_mem (s : State) (w : TlbiWait) : (s.tlbiLands w).mem = s.mem := rfl
@[simp] theorem State.regain_mem (s : State) (t : Thread) : (s.regain t).mem = s.mem := by simp [State.regain]
@[simp] theorem State.rename_mem (s : State) (core f g : Nat) : (s.rename core f g).mem = s.mem := by simp [State.rename]
@[simp] theorem State.withdraw_mem (s : State) (t : Thread) : (s.withdraw t).mem = s.mem := by
  simp [State.withdraw, foldl_mem, apply_ite State.mem]
@[simp] theorem State.withdrawn_mem (s : State) (old new : Thread) : (s.withdrawn old new).mem = s.mem := by
  simp [State.withdrawn, apply_ite State.mem]
@[simp] theorem State.countServed_mem (s : State) (cluster src : Nat) (launches : List Nat) :
    (s.countServed cluster src launches).mem = s.mem := rfl
@[simp] theorem State.walkedCopies_mem (s : State) (cluster : Nat) (ctx : Option Nat) (page : Nat) :
    (s.walkedCopies cluster ctx page).mem = s.mem := rfl
@[simp] theorem State.lateFrom_mem (s : State) (line : Nat) : (s.lateFrom line).mem = s.mem := rfl
@[simp] theorem State.loseDie_mem (s : State) (d : Nat) : (s.loseDie d).mem = s.mem := by
  simp [State.loseDie, foldl_mem]
@[simp] theorem State.dropForeign_mem (s : State) : s.dropForeign.mem = s.mem := by
  simp [State.dropForeign, foldl_mem]
@[simp] theorem State.recallCounted_mem (s : State) (line : Nat) : (s.recallCounted line).mem = s.mem := by
  unfold State.recallCounted; split <;> simp
@[simp] theorem State.giveUp_mem (s : State) (r : Release) : (s.giveUp r).mem = s.mem := by
  simp [State.giveUp, foldl_mem]
@[simp] theorem State.dropStore_mem (s : State) (core frame launch : Nat) (va : Word) :
    (s.dropStore core frame launch va).mem = s.mem := rfl
@[simp] theorem State.loseNode_mem (s : State) (n : Nat) : (s.loseNode n).mem = s.mem := by
  unfold State.loseNode
  dsimp only
  rw [foldl_mem]
  · simp [foldl_mem, apply_ite State.mem]
  · intro s x
    split <;> simp
@[simp] theorem State.rejoin_mem (s : State) (a : Nat) : (s.rejoin a).mem = s.mem := by
  unfold State.rejoin; split <;> rfl
@[simp] theorem State.startRemoval_mem (s : State) : s.startRemoval.mem = s.mem := by
  unfold State.startRemoval; split <;> simp
@[simp] theorem State.dropL1_mem (s : State) (core : Nat) : (s.dropL1 core).mem = s.mem := by
  simp [State.dropL1, foldl_mem, apply_ite State.mem]
@[simp] theorem State.reissue_mem (s : State) (core : Nat) (es : List WaitEntry) : (s.reissue core es).mem = s.mem := by
  simp [State.reissue, foldl_mem, apply_ite State.mem]
@[simp] theorem State.withdrawTable_mem (s : State) (core : Nat) : (s.withdrawTable core).mem = s.mem := by simp [State.withdrawTable]
@[simp] theorem State.loseMessages_mem (s : State) (core : Nat) : (s.loseMessages core).mem = s.mem := by
  simp [State.loseMessages]
@[simp] theorem State.refuseAccesses_mem (s : State) (core : Nat) : (s.refuseAccesses core).mem = s.mem := by
  unfold State.refuseAccesses
  dsimp only
  rw [State.reissue_mem, foldl_mem, State.modCores_mem, foldl_mem, foldl_mem]
  · exact fun _ _ => rfl
  · simp
  · intro s x
    split <;> simp
@[simp] theorem State.disableCore_mem (s : State) (core : Nat) : (s.disableCore core).mem = s.mem := by
  simp [State.disableCore, foldl_mem]
@[simp] theorem State.useSpare_mem (s : State) (core : Nat) : (s.useSpare core).mem = s.mem := rfl
@[simp] theorem State.boot_mem (s : State) (image : List Byte) : (s.boot image).mem = s.mem := by
  unfold State.boot; split <;> rfl
@[simp] theorem State.modMailbox_mem (s : State) (seam : Nat) (f : Mailbox → Mailbox) : (s.modMailbox seam f).mem = s.mem := rfl
@[simp] theorem State.answer_mem (s : State) (seam stat len : Nat) (data : List Host.Cell) :
    (s.answer seam stat len data).mem = s.mem := rfl
@[simp] theorem State.refuseUnknown_mem (ks : List Nat) : ∀ s : State, (s.refuseUnknown ks).mem = s.mem := by
  induction ks with
  | nil => exact fun _ => rfl
  | cons k r ih => intro s; unfold State.refuseUnknown; dsimp only; split <;> simp [ih]
@[simp] theorem State.writeCommand_mem (s : State) (seam : Nat) (cmd : Word) : (s.writeCommand seam cmd).mem = s.mem := by
  simp [State.writeCommand, apply_ite State.mem]
@[simp] theorem State.writeData_mem (s : State) (seam off : Nat) (bytes : List Byte) : (s.writeData seam off bytes).mem = s.mem := rfl
@[simp] theorem State.countError_mem (s : State) (corrected : Bool) : (s.countError corrected).mem = s.mem := by
  unfold State.countError; split <;> rfl
@[simp] theorem State.answerError_mem (s : State) (e : TEntry) : (s.answerError e).mem = s.mem := by
  unfold State.answerError; split <;> simp
@[simp] theorem State.beginIssue_mem (s : State) : s.beginIssue.mem = s.mem := by
  simp [State.beginIssue, apply_ite State.mem]
@[simp] theorem State.pass_mem (s : State) : s.pass.mem = s.mem := by simp [State.pass]
@[simp] theorem State.focusCore_mem (s : State) (n : Nat) : (s.focusCore n).mem = s.mem := by simp [State.focusCore]

end Sys2Proof.Machine
end

section
/-! Answers with memory in canonical form: what gathers operands, waits, checks addresses and writes memory keeps it so. -/

namespace Sys2Proof.Machine

/-! ## Answers -/

/-- An answer leaves memory in canonical form: where it has a next state, that state's memory is in it. -/
def AnswerWf : Answer → Prop
  | .next t => t.mem.wf = true
  | _ => True

theorem AnswerWf.of_next {a : Answer} (h : ∀ t, a = .next t → t.mem.wf = true) : AnswerWf a := by
  cases a with
  | next t => exact h t rfl
  | _ => trivial

theorem withThread_wf {s t : State} (h : t.mem.wf = true) : AnswerWf (withThread s t) :=
  .of_next fun _ e => (withThread_next e).2 ▸ h

theorem whenEnabled_wf {c : Bool} {t : State} (h : t.mem.wf = true) : AnswerWf (whenEnabled c t) :=
  .of_next fun _ e => (whenEnabled_next e).2 ▸ h

theorem AnswerWf.ite {c : Prop} [Decidable c] {a b : Answer} (ha : AnswerWf a) (hb : AnswerWf b) : AnswerWf (if c then a else b) := by
  split
  · exact ha
  · exact hb

/-- The form carries over to a state that has the memory of another. -/
theorem wf_of_mem {s t : State} (w : s.mem.wf = true) (h : t.mem = s.mem) : t.mem.wf = true := h ▸ w

theorem foldl_wf {β : Type} {f : State → β → State} (h : ∀ s b, s.mem.wf = true → (f s b).mem.wf = true) (l : List β) {s : State}
    (w : s.mem.wf = true) : (l.foldl f s).mem.wf = true := foldl_inv (fun s => s.mem.wf = true) f h l s w

section
variable {s : State} (w : s.mem.wf = true)
include w

/-! ## Operands and accesses -/

theorem State.gatherOf_wf {short : Bool} {srcs : List Src} {d : Dst} {k : State → List Word → State}
    (hk : ∀ t vs, t.mem.wf = true → (k t vs).mem.wf = true) : (s.gatherOf short srcs d k).mem.wf = true :=
  State.gather_keeps (fun m => m.wf = true) s short srcs d k w fun t vs h => hk t vs (wf_of_mem w h)

theorem State.gather_wf {srcs : List Src} {d : Dst} {k : State → List Word → State}
    (hk : ∀ t vs, t.mem.wf = true → (k t vs).mem.wf = true) : (s.gather srcs d k).mem.wf = true := State.gatherOf_wf w hk

theorem State.gatherLong_wf {srcs : List Src} {d : Dst} {k : State → List Word → State}
    (hk : ∀ t vs, t.mem.wf = true → (k t vs).mem.wf = true) : (s.gatherLong srcs d k).mem.wf = true := State.gatherOf_wf w hk

theorem State.gather1_wf {a : Src} {d : Dst} {k : State → Word → State} (hk : ∀ t x, t.mem.wf = true → (k t x).mem.wf = true) :
    (s.gather1 a d k).mem.wf = true := State.gatherOf_wf w fun t _ h => hk t _ h

theorem State.gather2_wf {a b : Src} {d : Dst} {k : State → Word → Word → State}
    (hk : ∀ t x y, t.mem.wf = true → (k t x y).mem.wf = true) : (s.gather2 a b d k).mem.wf = true :=
  State.gatherOf_wf w fun t _ h => hk t _ _ h

theorem State.long1_wf {a : Src} {d : Dst} {k : State → Word → State} (hk : ∀ t x, t.mem.wf = true → (k t x).mem.wf = true) :
    (s.long1 a d k).mem.wf = true := State.gatherOf_wf w fun t _ h => hk t _ h

theorem State.long2_wf {a b : Src} {d : Dst} {k : State → Word → Word → State}
    (hk : ∀ t x y, t.mem.wf = true → (k t x y).mem.wf = true) : (s.long2 a b d k).mem.wf = true :=
  State.gatherOf_wf w fun t _ h => hk t _ _ h

theorem State.long3_wf {a b c : Src} {d : Dst} {k : State → Word → Word → Word → State}
    (hk : ∀ t x y z, t.mem.wf = true → (k t x y z).mem.wf = true) : (s.long3 a b c d k).mem.wf = true :=
  State.gatherOf_wf w fun t _ h => hk t _ _ _ h

omit w in
/-- The checks of the sources end in the state they began in, with futures settled, or in a wait or trap of the first one. -/
theorem State.check_wf {s0 : State} (w0 : s0.mem.wf = true) {srcs : List Src} :
    ∀ {s : State}, s.mem.wf = true → (endOf (s0.check s srcs)).mem.wf = true := by
  induction srcs with
  | nil => exact fun w => w
  | cons x r ih =>
    intro s w
    cases x with
    | g n =>
      simp only [State.check]
      generalize (if s.thr.tagged n.1 then s.futureOf s.thr.g[n] else none) = fut
      have settled : (s.settleFut n fut).mem.wf = true := by simpa using w
      split
      · simpa [endOf] using w0
      · split
        · simpa [endOf] using w0
        · split
          · simpa [endOf] using w0
          · split
            · rename_i e he
              obtain ⟨f, -, hf⟩ := Option.bind_eq_some_iff.1 he
              exact wf_of_mem w0 (State.futTrap_mem hf)
            · split
              · simpa [endOf] using w0
              · exact ih settled
              · exact ih settled
    | _ => exact ih w

theorem State.withAccess_wf {s0 : State} {a : Word} {acc : Acc} {rd wr : Bool} {k : State → Loc → State} (w0 : s0.mem.wf = true)
    (hk : ∀ t l, t.mem.wf = true → (k t l).mem.wf = true) : (s0.withAccess s a acc rd wr k).mem.wf = true :=
  State.withAccess_keeps (fun m => m.wf = true) s0 s a acc rd wr k w0 (fun t l h => hk t l (wf_of_mem w h))
    fun _ _ l h => hk _ l (State.touch_wf (wf_of_mem w h) _ _ _ _ _)

theorem State.release_wf {s0 : State} {scope : Nat} {k : State → State} (w0 : s0.mem.wf = true)
    (hk : ∀ t, t.mem.wf = true → (k t).mem.wf = true) : (s0.release s scope k).mem.wf = true :=
  State.release_keeps (fun m => m.wf = true) s0 s scope k w0 (hk s w)

theorem State.unlessDropped_wf {s0 : State} {rel : Bool} {scope : Nat} {k : State → State} (w0 : s0.mem.wf = true)
    (hk : ∀ t, t.mem.wf = true → (k t).mem.wf = true) : (s0.unlessDropped s rel scope k).mem.wf = true := by
  unfold State.unlessDropped
  split
  · simpa using w0
  · exact hk s w

theorem State.scGate_wf {s0 : State} {k : State → State} (w0 : s0.mem.wf = true)
    (hk : ∀ t, t.mem.wf = true → (k t).mem.wf = true) : (s0.scGate s k).mem.wf = true := by
  unfold State.scGate
  split
  · simpa using w0
  · exact ite_wf _ (hk _ w) (by simpa using w0)

theorem State.asThread_wf {core frame : Nat} {f : State → State} (hf : ∀ t, t.mem.wf = true → (f t).mem.wf = true) :
    (s.asThread core frame f).mem.wf = true := by
  unfold State.asThread
  split
  · exact hf s w
  · have h := hf (s.focus core frame) (by simpa using w)
    exact ite_wf _ (by simpa using h) (by simpa using h)

theorem State.privileged_wf {i : Instr} {t : State} (ht : t.mem.wf = true) : (s.privileged i t).mem.wf = true :=
  ite_wf _ ht (by simpa using w)

theorem State.gatherHandle_wf {a : Src} {d : Dst} {k : State → Option Word → Word → State}
    (hk : ∀ t h v, t.mem.wf = true → (k t h v).mem.wf = true) : (s.gatherHandle a d k).mem.wf = true := by
  unfold State.gatherHandle
  split
  · exact State.gatherLong_wf w fun t _ h => hk t _ _ h
  · exact State.long1_wf w fun t _ h => hk t _ _ h

theorem State.withDesc_wf {s0 : State} {i : Instr} {c : Word} {k : State → TDesc → State} (w0 : s0.mem.wf = true)
    (hk : ∀ t d, t.mem.wf = true → (k t d).mem.wf = true) : (s0.withDesc s i c k).mem.wf = true := by
  unfold State.withDesc
  refine ite_wf _ (by simpa using w0) ?_
  split
  · simpa using w0
  · split
    · exact hk _ _ (State.touch_wf w _ _ _ _ _)
    · exact hk _ _ w

theorem State.vecGate_wf {i : Instr} {t : State} (ht : t.mem.wf = true) : (s.vecGate i t).mem.wf = true :=
  ite_wf _ (by simpa using w) ht

/-! ## Full/empty words and the wait tables -/

theorem State.setPoison_wf (a : Nat) (b : Bool) : ({ s with mem := s.mem.setPoison a b } : State).mem.wf = true := Memory.wf_setPoison w a b

theorem State.poisonBlock_wf {block : Nat} : (s.poisonBlock block).mem.wf = true := by
  unfold State.poisonBlock
  rw [State.countUe_mem]
  exact State.settleEcc_wf w

theorem State.feDo_wf {e : WaitEntry} : (s.feDo e).mem.wf = true := by
  unfold State.feDo
  dsimp only
  have w1 (b : Bool) : ((if e.remote then s.recvd e.launch (homeOf e.key e.core) else s).inject e.key b).mem.wf = true :=
    State.inject_wf (by simpa [apply_ite State.mem] using w) _ _
  split
  · have w2 := State.putBytes_wf (w1 (e.kind == .stef)) e.key 8 e.data.toNat
    rw [State.modThread_mem]
    refine State.depScan_wf (Memory.wf_setFull ?_ _ _)
    split
    · exact Memory.wf_setPoison w2 _ _
    · exact w2
  · rw [State.modThread_mem]
    exact ite_wf _ (Memory.wf_setFull (w1 _) _ _) (w1 _)

omit w in
theorem State.fePass_wf (home key n : Nat) : ∀ {s : State}, s.mem.wf = true → (s.fePass home key n).mem.wf = true := by
  induction n with
  | zero => exact fun w => w
  | succ n ih =>
    intro s w
    unfold State.fePass
    split
    · exact w
    · exact ih (State.feDo_wf (by simpa using w))

theorem State.wakeWord_wf {key : Nat} : (s.wakeWord key).mem.wf = true :=
  ite_wf _ (State.fePass_wf _ _ _ w) (foldl_wf (fun _ _ h => State.fePass_wf _ _ _ h) _ w)

theorem State.setWord_wf {key : Nat} {full : Bool} : (s.setWord key full).mem.wf = true :=
  State.wakeWord_wf (State.depScan_wf (Memory.wf_setFull w _ _))

theorem State.feArrive_wf {e : WaitEntry} : (s.feArrive e).mem.wf = true :=
  ite_wf _ (State.wakeWord_wf (State.feDo_wf w)) (ite_wf _ (by simpa using w) (by simpa using w))

theorem execFullEmptyApply_wf {core word : Nat} : AnswerWf (execFullEmptyApply core word s) := by
  unfold execFullEmptyApply
  split
  · trivial
  · exact whenEnabled_wf (State.feArrive_wf (by simpa using w))

theorem execWaitTableRetry_wf {core frame : Nat} : AnswerWf (execWaitTableRetry core frame s) := by
  unfold execWaitTableRetry
  split
  · trivial
  · exact whenEnabled_wf (State.feArrive_wf (by simpa using w))

/-! ## Atomics, the store buffer and remote requests -/

theorem State.atomicAt_wf {l : Loc} {op width x cmp : Nat} : (s.atomicAt l op width x cmp).1.mem.wf = true := by
  have w1 := State.inject_wf w (l.key / 8 * 8) false
  unfold State.atomicAt
  dsimp only
  split
  · exact w1
  · split
    · exact State.putBytes_wf w1 _ _ _
    · exact w1

theorem State.spoil_wf {e : SbEntry} : (s.spoil e).mem.wf = true := ite_wf _ (State.setPoison_wf w _ _) w

theorem State.writeEntry_wf {core : Nat} {e : SbEntry} : (s.writeEntry core e).mem.wf = true := by
  unfold State.writeEntry
  split
  · rw [State.modThread_mem]
    exact ite_wf _ (State.writeLoc_wf w _ _ _) w
  · exact State.setWord_wf (State.spoil_wf (State.writeLoc_wf w _ _ _))
  · exact State.setWord_wf (State.inject_wf w _ _)
  · exact w
  · exact State.writeLoc_wf w e.loc e.width e.data.toNat
  · exact State.writeLoc_wf w _ _ _

theorem State.applyEntry_wf {core : Nat} {e : SbEntry} : (s.applyEntry core e).mem.wf = true := by
  unfold State.applyEntry
  dsimp only
  split
  · simpa [apply_ite State.mem] using w
  · have w4 (t : State) (ht : t.mem = s.mem) : ((t.writeEntry core e).spoil e).mem.wf = true :=
      State.spoil_wf (State.writeEntry_wf (wf_of_mem w ht))
    simp [apply_ite State.mem, w4]

theorem State.applyGather_wf {core : Nat} {g : List SbEntry} : (s.applyGather core g).mem.wf = true := by
  cases g with
  | nil => exact w
  | cons e r =>
    simp only [State.applyGather, State.recvd_mem]
    generalize e :: r = g
    have w3 (t : State) (ht : t.mem.wf = true) :
        (List.foldl (fun (s : State) (x : SbEntry) => s.putBytes x.loc.key x.width x.data.toNat) t g).mem.wf = true :=
      foldl_wf (fun _ _ h => State.putBytes_wf h _ _ _) _ ht
    split
    · rw [State.unlist_mem, State.writeBelow_mem]
      exact State.setPoison_wf (w3 _ (by simpa using w)) _ _
    · exact foldl_wf (fun _ _ h => by simpa using h) _ (w3 _ (by simpa using w))
end

end Sys2Proof.Machine
end

section
/-! Loads, stores, atomics, fences and cache operations keep memory in canonical form. -/

namespace Sys2Proof.Machine

section
variable {s : State} (w : s.mem.wf = true)
include w

theorem State.serveReq_wf {r : Req} : (s.serveReq r).1.mem.wf = true := by
  unfold State.serveReq
  split
  · rw [State.sawBuffered_mem]
    exact State.injectAll_wf w _ _
  · have w1 (op a b c : Nat) := State.atomicAt_wf w (l := r.loc) (op := op) (width := a) (x := b) (cmp := c)
    dsimp only
    exact ite_wf _ (by simpa using w1 _ _ _ _) (w1 _ _ _ _)
  · exact ite_wf _ (State.setWord_wf (State.inject_wf w _ _)) (State.inject_wf w _ _)
  · rw [State.sawBuffered_mem, State.modThread_mem]
    exact State.injectAll_wf w _ _
  · exact w

theorem State.waitLineAs_wf {core : Nat} {l : Loc} {excl here : Bool} : AnswerWf (s.waitLineAs core l excl here) :=
  .ite (whenEnabled_wf (by simpa using w)) (whenEnabled_wf (by simpa using w))

theorem State.waitLine_wf {core : Nat} {l : Loc} {excl : Bool} : AnswerWf (s.waitLine core l excl) := State.waitLineAs_wf w

theorem execStoreBufferApply_wf {core k : Nat} : AnswerWf (execStoreBufferApply core k s) := by
  unfold execStoreBufferApply
  dsimp only
  split
  · trivial
  · rename_i e _
    have wa : (s.applyEntry core e).mem.wf = true := State.applyEntry_wf w
    exact .ite (whenEnabled_wf (State.applyGather_wf (by simpa using w))) (.ite trivial (.ite (wf_of_mem w (by simp)) (.ite trivial
      (.ite wa (.ite (State.waitLine_wf w) (.ite (whenEnabled_wf (State.applyEntry_wf (by simpa using w))) wa))))))

theorem execRemoteWordRequest_wf {k : Nat} : AnswerWf (execRemoteWordRequest k s) := by
  unfold execRemoteWordRequest
  split
  · trivial
  · rename_i r _
    refine .ite trivial (.ite (wf_of_mem w (by simp)) (.ite trivial (.ite (State.waitLineAs_wf w) (.ite trivial ?_))))
    extract_lets launch s0 _ s1 s2
    have w1 : s1.mem.wf = true := by simpa [s1, s0, apply_ite State.mem] using w
    have w2 : s2.mem.wf = true := by
      simp only [s2]
      split
      · simpa using w1
      · simpa [apply_ite State.mem] using w1
    have w3 := State.serveReq_wf w2 (r := r)
    generalize s2.serveReq r = q at w3 ⊢
    obtain ⟨s3, v, fl, bad⟩ := q
    dsimp -zeta only at w3 ⊢
    extract_lets s4 s5
    have w5 : s5.mem.wf = true := by
      simp only [s5]
      split <;> simpa [s4, apply_ite State.mem] using w3
    exact ite_wf _ (by simpa using w5) w5

theorem execAggCombine_wf {k : Nat} : AnswerWf (execAggCombine k s) := by
  unfold execAggCombine
  split
  · trivial
  · split
    · trivial
    · refine .ite trivial ?_
      have w3 (t : State) (ht : t.mem = s.mem) (l : Loc) (n : Nat) : (t.atomicAt l 0 4 n 0).1.mem.wf = true :=
        State.atomicAt_wf (wf_of_mem w ht)
      simp [AnswerWf, apply_ite State.mem, w3]

/-! ## Loads and stores -/

theorem State.loadAt_wf {s0 : State} {sw : Bool} {d : Dst} {l : Loc} {width : Nat} {sx : Bool} {acq : Nat} (w0 : s0.mem.wf = true) :
    (s0.loadAt s sw d l width sx acq).mem.wf = true := by
  unfold State.loadAt
  split
  · simpa using w0
  · exact ite_wf _ (by simpa using w0) (by simpa using w)
  · split
    · refine ite_wf _ (by simpa using w0) (ite_wf _ (by simpa using w0) ?_)
      split
      · rw [State.finishLong_mem]
        exact State.loadNow_wf (by simpa using w) _ _ _
      · exact ite_wf _ (by simpa using w0) (by simpa using w)
    · simpa using w0
    · exact ite_wf _ (by simpa using w0) (by simpa using w)

theorem plainLoad_wf {o : LdOp} {width : Nat} {sx el : Bool} : AnswerWf (plainLoad o width sx el s) :=
  withThread_wf (State.long1_wf w fun _ _ w1 => State.withAccess_wf w1 w fun _ _ w2 => State.loadAt_wf w2 w)

theorem State.storeAt_wf {s0 : State} {sw : Bool} {kind : SbKind} {l : Loc} {width : Nat} {v : Word} {rel : Bool} {scope : Nat}
    (w0 : s0.mem.wf = true) : (s0.storeAt s sw kind l width v rel scope).mem.wf = true := by
  unfold State.storeAt
  split
  · simpa using w0
  · exact ite_wf _ (by simpa using w0) (State.unlessDropped_wf w w0 fun _ h => by simpa using h)

theorem plainStore_wf {o : StOp} {width : Nat} {el : Bool} : AnswerWf (plainStore o width el s) :=
  withThread_wf (State.gather2_wf w fun _ _ _ w1 => State.withAccess_wf w1 w fun _ _ w2 => State.storeAt_wf w2 w)

theorem execLdk_wf {o : LdOp} : AnswerWf (execLdk o s) := by
  refine withThread_wf (State.long1_wf w fun _ _ w1 => State.withAccess_wf w1 w fun t l w2 => ?_)
  split
  · exact State.loadAt_wf w2 w
  · simpa using w2

theorem execLda_wf {o : OLd} : AnswerWf (execLda o s) :=
  withThread_wf (State.long1_wf w fun _ _ w1 => State.withAccess_wf w1 w fun _ _ w2 => State.loadAt_wf w2 w)

theorem execStl_wf {o : OSt} : AnswerWf (execStl o s) :=
  withThread_wf (State.gather2_wf w fun _ _ _ w1 => State.withAccess_wf w1 w fun _ _ w2 => State.storeAt_wf w2 w)

theorem execLdsc_wf {o : SLd} : AnswerWf (execLdsc o s) := by
  refine withThread_wf (State.long1_wf w fun _ _ w1 => State.withAccess_wf w1 w fun t l w2 => ?_)
  split
  · simpa using w
  · exact ite_wf _ (by simpa using w) (ite_wf _ (by simpa using w) (ite_wf _ (by simpa using w)
      (State.unlessDropped_wf w2 w fun _ h => by simpa using h)))

theorem execStsc_wf {o : SSt} : AnswerWf (execStsc o s) := by
  refine withThread_wf (ite_wf _ (by simpa using w) (State.gather2_wf w fun _ _ _ w1 => State.withAccess_wf w1 w fun t l w2 => ?_))
  split
  · simpa using w
  · exact ite_wf _ (by simpa using w) (State.unlessDropped_wf w2 w fun _ h => by simpa using h)

theorem waitLoad_wf {kind : FeKind} {o : SLd} : AnswerWf (waitLoad kind o s) := by
  refine withThread_wf (State.long1_wf w fun _ _ w1 => State.withAccess_wf w1 w fun t l w2 => ?_)
  exact ite_wf _ (by simpa using w) (ite_wf _ (by simpa using w) (by simpa [apply_ite State.mem] using w2))

theorem execStf_wf {o : SSt} : AnswerWf (execStf o s) :=
  withThread_wf (State.gather2_wf w fun _ _ _ w1 => State.withAccess_wf w1 w fun _ _ w2 =>
    ite_wf _ (by simpa using w) (State.unlessDropped_wf w2 w fun _ h => by simpa using h))

theorem execStef_wf {o : SSt} : AnswerWf (execStef o s) :=
  withThread_wf (State.gather2_wf w fun _ _ _ w1 => State.withAccess_wf w1 w fun _ _ w2 =>
    ite_wf _ (by simpa using w) (State.unlessDropped_wf w2 w fun _ h => by simpa using h))

theorem execSete_wf {o : SeteOp} : AnswerWf (execSete o s) :=
  withThread_wf (State.gather1_wf w fun _ _ w1 => State.withAccess_wf w1 w fun _ _ w2 =>
    ite_wf _ (by simpa using w) (by simpa using w2))

theorem execFetst_wf {o : SLd} : AnswerWf (execFetst o s) := by
  refine withThread_wf (State.long1_wf w fun _ _ w1 => State.withAccess_wf w1 w fun t l w2 => ?_)
  have w3 := State.inject_wf w2 l.key false
  refine ite_wf _ (by simpa using w) (ite_wf _ (ite_wf _ (by simpa using w) (by simpa using w2)) (ite_wf _ (by simpa using w) ?_))
  rw [State.finishLong_mem]
  exact ite_wf _ (State.setWord_wf w3) w3

/-! ## Atomics, reservations, fences, cache operations -/

theorem State.atomicOp_wf {s0 : State} {sw : Bool} {d : Dst} {l : Loc} {op width : Nat} {x cmp : Word} {ord scope : Nat}
    (w0 : s0.mem.wf = true) : (s0.atomicOp s sw d l op width x cmp ord scope).mem.wf = true := by
  unfold State.atomicOp
  refine ite_wf _ (by simpa using w0) ?_
  dsimp only
  split
  · simpa using w0
  · refine ite_wf _ (State.release_wf w w0 fun t h => ite_wf _ (by simpa using w0) (State.unlessDropped_wf h w0 fun _ h => by simpa using h))
      (State.unlessDropped_wf w w0 fun t h => ite_wf _ (ite_wf _ (by simpa using w0) (by simpa using h)) (ite_wf _ (by simpa using w0) ?_))
    rw [State.finishLong_mem]
    exact State.atomicAt_wf (by simpa using h)

theorem atomic_wf {op width : Nat} {o : AtOp} : AnswerWf (atomic op width o s) :=
  withThread_wf (State.long2_wf w fun _ _ _ w1 => State.withAccess_wf w1 w fun _ _ w2 => State.atomicOp_wf w2 w)

theorem atomicCas_wf {width : Nat} {o : CasOp} : AnswerWf (atomicCas width o s) :=
  withThread_wf (State.long3_wf w fun _ _ _ _ w1 => State.withAccess_wf w1 w fun _ _ w2 => State.atomicOp_wf w2 w)

theorem execAaddAgg_wf {o : R3} : AnswerWf (execAaddAgg o s) :=
  withThread_wf (State.long2_wf w fun _ _ _ w1 => State.withAccess_wf w1 w fun _ _ w2 =>
    ite_wf _ (by simpa using w) (ite_wf _ (by simpa using w) (by simpa using w2)))

theorem execLres_wf {o : OLd} : AnswerWf (execLres o s) := by
  refine withThread_wf (State.long1_wf w fun _ _ w1 => State.withAccess_wf w1 w fun t l w2 => ite_wf _ (by simpa using w) ?_)
  split
  · simpa using w
  · split
    · refine ite_wf _ (by simpa using w) ?_
      split
      · dsimp only
        rw [State.finishLong_mem, State.modThr_mem]
        exact State.loadNow_wf (by simpa using w2) _ _ _
      · exact ite_wf _ (by simpa using w) (by simpa using w2)
    · simpa using w
    · exact ite_wf _ (by simpa using w) (ite_wf _ (by simpa using w) (by simpa using w2))

theorem execScon_wf {o : AtOp} : AnswerWf (execScon o s) := by
  refine withThread_wf (State.long2_wf w fun _ _ _ w1 => State.withAccess_wf w1 w fun t l w2 => ite_wf _ (by simpa using w) ?_)
  split
  · simpa using w
  · exact ite_wf _ (by simpa using w) (State.unlessDropped_wf w2 w fun _ h => by simpa using h)

theorem execWrs_wf {o : WrsOp} : AnswerWf (execWrs o s) :=
  withThread_wf (State.gather1_wf w fun _ _ w1 => State.withAccess_wf w1 w fun _ _ w2 =>
    ite_wf _ (by simpa using w2) (by simpa using w2))

theorem execReservationLapse_wf {core frame : Nat} : AnswerWf (execReservationLapse core frame s) :=
  whenEnabled_wf (by simpa using w)

theorem execFence_wf {o : FenceOp} : AnswerWf (execFence o s) :=
  withThread_wf (State.gather_wf w fun t _ w1 => ite_wf _ (by simpa using w1) (State.unlessDropped_wf w1 w1 fun t h =>
    ite_wf _ (State.scGate_wf (by simpa using h) (by simpa using h) fun _ h => by simpa using h) (by simpa using h)))

theorem cacheOp_wf {o : CacheOp} {ask : Option Bool} {act : State → Nat → Bool → State}
    (ha : ∀ t line wb, t.mem.wf = true → (act t line wb).mem.wf = true) : AnswerWf (cacheOp o s ask act) := by
  refine withThread_wf (State.gather1_wf w fun _ _ w1 => State.withAccess_wf w1 w fun t l w2 => ?_)
  refine ite_wf _ (by simpa using w) (ite_wf _ (by simpa using w) ?_)
  rw [State.finishLong_mem]
  exact ite_wf _ (ha _ _ _ w2) w2

theorem execCflush_wf {o : CacheOp} : AnswerWf (execCflush o s) := cacheOp_wf w fun _ _ _ h => ite_wf _ (by simpa using h) h

theorem execCclean_wf {o : CacheOp} : AnswerWf (execCclean o s) := cacheOp_wf w fun _ _ _ h => ite_wf _ (by simpa using h) h

theorem execCinv_wf {o : CacheOp} : AnswerWf (execCinv o s) :=
  cacheOp_wf w fun _ _ _ h => by simpa [apply_ite State.mem] using h

theorem execPref_wf {o : PrefOp} : AnswerWf (execPref o s) := by
  refine withThread_wf (State.gather1_wf w fun t b w1 => ite_wf _ (by simpa using w) ?_)
  split
  · exact ite_wf _ (by simpa using w1) (by simpa using w)
  · rename_i l x _
    extract_lets t2
    have w2 : t2.mem.wf = true := by
      cases x with
      | none => exact w1
      | some x => exact State.touch_wf w1 _ _ _ _ _
    refine ite_wf _ (by simpa using w2) (ite_wf _ (ite_wf _ (by simpa using w) (by simpa [apply_ite State.mem] using w2)) ?_)
    exact ite_wf _ (by simpa using w2) (ite_wf _ (by simpa using w) (by simpa using w2))

theorem execWswait_wf {o : CacheOp} : AnswerWf (execWswait o s) := by
  refine withThread_wf (State.gather1_wf w fun t b w1 => State.withAccess_wf w1 w fun t l w2 => ?_)
  dsimp only
  generalize (l.key - weightBase) % 0x40000000 / 0x1800000 = group
  split
  · simpa using w
  · split
    · simpa using w
    · simpa using w2

theorem execWeightRefreshStart_wf {die group : Nat} : AnswerWf (execWeightRefreshStart die group s) :=
  whenEnabled_wf (by simpa using w)

theorem execWeightRefreshEnd_wf {die group : Nat} : AnswerWf (execWeightRefreshEnd die group s) :=
  whenEnabled_wf (by simpa using w)
end

end Sys2Proof.Machine
end

section
/-! Deques, branches and the scalar instructions keep memory in canonical form. -/

namespace Sys2Proof.Machine

/-! ## Deques and their overflow regions -/

/-- Where a computation ends without a trap, it ends with memory in canonical form. -/
def EndsWf (r : Except TrapInfo State) : Prop := ∀ t, r = .ok t → t.mem.wf = true

theorem EndsWf.ok {s : State} (w : s.mem.wf = true) : EndsWf (.ok s) := by
  rintro t ⟨⟩
  exact w

theorem EndsWf.error {ti : TrapInfo} : EndsWf (.error ti) := by
  rintro t ⟨⟩

theorem EndsWf.ite {c : Prop} [Decidable c] {a b : Except TrapInfo State} (ha : EndsWf a) (hb : EndsWf b) :
    EndsWf (if c then a else b) := by
  split
  · exact ha
  · exact hb

section
variable {s : State} (w : s.mem.wf = true)
include w

theorem State.ovfWrite_wf {l : Launch} {core i : Nat} {e : DqEntry} : (s.ovfWrite l core i e).mem.wf = true := by
  unfold State.ovfWrite
  split
  · exact w
  · split
    · exact w
    · exact foldl_wf (fun _ _ h => State.engineWrite_wf h _ _ _ _) _ (State.tenantMark_wf w _ _ _ _)

theorem State.ovfMark_wf {l : Launch} {core : Nat} : (s.ovfMark l core).mem.wf = true := by
  refine foldl_wf (fun _ _ h => ?_) _ w
  split
  · exact State.tenantMark_wf h _ _ _ _
  · exact h

theorem State.ovfPut_wf {l : Launch} {core : Nat} {es : List DqEntry} : (s.ovfPut l core es).mem.wf = true := by
  unfold State.ovfPut
  rw [State.modLaunch_mem]
  exact foldl_wf (fun _ _ h => State.ovfWrite_wf h) _ w

omit w in
theorem State.moveOut_wf (core n : Nat) (es kept : List DqEntry) {s : State} (w : s.mem.wf = true) :
    (s.moveOut core n es kept).1.mem.wf = true := by
  fun_induction State.moveOut s core n es kept with
  | case1 => exact w
  | case2 => exact w
  | case3 _ _ _ _ _ _ ih => exact ih w
  | case4 _ _ _ _ _ _ _ _ _ _ ih => exact ih (wf_of_mem (State.ovfWrite_wf w) (State.modLaunch_mem _ _ _))
  | case5 _ _ _ _ _ _ _ _ _ ih => exact ih w

theorem State.pushDeque_wf {core : Nat} {e : DqEntry} {t : State} (h : s.pushDeque core e = some t) : t.mem.wf = true := by
  have w1 := State.moveOut_wf core 16 (s.coreOf core).deque [] w
  unfold State.pushDeque at h
  dsimp only at h
  split at h
  · cases h; simpa using w
  · split at h
    · cases h; simpa using w1
    · cases h

theorem State.moveBack_wf {core launch : Nat} : (s.moveBack core launch).mem.wf = true := by
  unfold State.moveBack
  split
  · exact w
  · exact ite_wf _ w (by simpa using State.ovfPut_wf (State.ovfMark_wf w))

theorem State.popOwn_wf {t : Thread} {x : DqEntry × State} (h : s.popOwn t = some x) : x.2.mem.wf = true := by
  unfold State.popOwn at h
  dsimp only at h
  split at h
  · cases h
    exact State.moveBack_wf (by simpa using w)
  · split at h
    · cases h
    · split at h
      · cases h
      · obtain ⟨_, -, rfl⟩ := Option.map_eq_some_iff.1 h
        exact State.moveBack_wf (State.ovfPut_wf (State.ovfMark_wf w))

theorem State.popTop_wf {core launch : Nat} {x : DqEntry × State} (h : s.popTop core launch = some x) : x.2.mem.wf = true := by
  unfold State.popTop at h
  split at h
  · cases h
  · split at h
    · split at h
      · cases h
        exact State.moveBack_wf (State.ovfPut_wf (State.ovfMark_wf w))
      · cases h
    · dsimp only at h
      split at h
      · cases h
      · cases h
        exact State.moveBack_wf (by simpa using w)

/-! ## Tasks (R355) -/

theorem State.joinUpdate_wf {op : Nat} {frame n : Word} : EndsWf (s.joinUpdate op frame n) := by
  unfold State.joinUpdate
  refine .ite (.ok w) ?_
  split
  · exact .error
  · refine .ite .error (.ite .error (.ok ?_))
    rw [State.request_mem]
    split
    · exact State.touch_wf w _ _ _ _ _
    · exact w

omit w in
/-- The search for a task keeps memory in its form, whether it starts from the end of one or from the top of the deque. -/
theorem State.finishTask_workTop_wf (n : Nat) :
    (∀ {s : State} (p : Word) (pr : Bool), s.mem.wf = true → EndsWf (s.finishTask p pr n)) ∧
      ∀ {s : State}, s.mem.wf = true → EndsWf (s.workTop n) := by
  induction n with
  | zero => exact ⟨fun _ _ w => by simpa [State.finishTask] using .ok w, fun w => by simpa [State.workTop] using .ok (by simpa using w)⟩
  | succ n ih =>
    obtain ⟨ihf, ihw⟩ := ih
    constructor
    · intro s p pr w
      have h1 : EndsWf (if pr then s.joinUpdate 11 p 0 else .ok s) := .ite (State.joinUpdate_wf w) (.ok w)
      rw [State.finishTask]
      split
      · exact .error
      · rename_i s1 e1
        have w1 := h1 s1 e1
        split
        · rename_i e s2 e2
          have w2 : s2.mem.wf = true := State.popOwn_wf w1 e2
          exact .ite (ihf _ _ w2) (.ok (by simpa using w2))
        · split
          · exact .error
          · rename_i s2 e2
            exact ihw (by simpa using State.joinUpdate_wf w1 s2 e2)
    · intro s w
      rw [State.workTop]
      split
      · exact .ok (by simpa using w)
      · rename_i e s1 e1
        have w1 : s1.mem.wf = true := State.popTop_wf w e1
        split
        · exact .error
        · rename_i s2 e2
          have w2 := State.joinUpdate_wf w1 s2 e2
          exact .ite (ihf _ _ w2) (.ok (by simpa using w2))

theorem State.finishTask_wf {p : Word} {pr : Bool} {n : Nat} : EndsWf (s.finishTask p pr n) := (State.finishTask_workTop_wf n).1 p pr w

theorem State.workTask_wf : EndsWf s.workTask := by
  have w0 : s.countWork.mem.wf = true := by simpa using w
  unfold State.workTask
  dsimp only
  split
  · rename_i e s1 e1
    have w1 : s1.mem.wf = true := State.popOwn_wf w0 e1
    exact .ite (State.finishTask_wf w1) (.ok (by simpa using w1))
  · exact (State.finishTask_workTop_wf _).2 w0

theorem State.orTrap_wf {r : Except TrapInfo State} (h : EndsWf r) : (s.orTrap r).mem.wf = true := by
  unfold State.orTrap
  split
  · exact h _ rfl
  · exact ite_wf _ (by simpa using w) (by simpa using w)

theorem State.resumeWalk_wf : s.resumeWalk.mem.wf = true := by
  unfold State.resumeWalk
  split
  · rename_i e _
    have w1 : (s.modThr fun t => { t with walk := none }).mem.wf = true := w
    refine State.orTrap_wf w ?_
    split
    · exact .error
    · rename_i s2 e2
      have w2 := State.joinUpdate_wf w1 s2 e2
      exact .ite (State.finishTask_wf w2) (.ok (by simpa using w2))
  · simpa using w
  · simpa using w

theorem State.unlessWalking_wf {t : State} (ht : t.mem.wf = true) : (s.unlessWalking t).mem.wf = true :=
  ite_wf _ (State.resumeWalk_wf w) ht

theorem State.killPoint_wf {s0 : State} {k : State → State} (w0 : s0.mem.wf = true) (hk : ∀ t, t.mem.wf = true → (k t).mem.wf = true) :
    (s0.killPoint s k).mem.wf = true := by
  unfold State.killPoint
  refine ite_wf _ (by simpa using w0) (ite_wf _ ?_ (hk s w))
  have wc := State.check_wf w0 w (srcs := [.g 13])
  split
  · rename_i t e
    simpa [e, endOf] using wc
  · rename_i t e
    have wt : t.mem.wf = true := by simpa [e, endOf] using wc
    exact State.orTrap_wf w0 (State.finishTask_wf (by simpa using wt))

theorem execStealRequest_wf {core frame victim : Nat} : AnswerWf (execStealRequest core frame victim s) := by
  unfold execStealRequest
  split
  · trivial
  · rename_i t _
    split
    · refine .ite trivial (.ite (wf_of_mem w (by simp)) ?_)
      extract_lets s1 r s2
      have w1 : s1.mem.wf = true := w
      have wr : ∀ x, r = some x → x.2.mem.wf = true := by
        intro x hx
        simp only [r] at hx
        split at hx
        · cases hx
        · exact State.popTop_wf w1 hx
      clear_value r
      have w2 : s2.mem.wf = true := by
        cases r with
        | none => exact w1
        | some x => exact wr x rfl
      exact w2
    · trivial

theorem execStealReply_wf {core frame : Nat} : AnswerWf (execStealReply core frame s) := by
  unfold execStealReply
  split
  · trivial
  · split
    · exact wf_of_mem w (by simp)
    · trivial

/-! ## Branches -/

theorem State.jumpBack_wf {s0 : State} {sw : Bool} {target : Word} (w0 : s0.mem.wf = true) : (s0.jumpBack s sw target).mem.wf = true :=
  ite_wf _ (State.killPoint_wf w w0 fun _ h => by simpa using h) (by simpa using w)

theorem branch_wf {o : BrOp} {taken : Word → Word → Bool} : AnswerWf (branch o s taken) :=
  withThread_wf (State.unlessWalking_wf w (State.gather2_wf w fun _ _ _ w1 =>
    ite_wf _ (State.jumpBack_wf w1 w) (by simpa using w1)))

theorem execJ_wf {o : JOp} : AnswerWf (execJ o s) :=
  withThread_wf (State.unlessWalking_wf w (State.gather_wf w fun _ _ w1 => State.jumpBack_wf w1 w))

theorem execJal_wf {o : JalOp} : AnswerWf (execJal o s) := withThread_wf (State.gather_wf w fun _ _ w1 => by simpa using w1)

theorem execJr_wf {o : S1} : AnswerWf (execJr o s) :=
  withThread_wf (State.gather1_wf w fun _ _ w1 => ite_wf _ (by simpa using w) (by simpa using w1))

theorem execJalr_wf {o : R2} : AnswerWf (execJalr o s) :=
  withThread_wf (State.gather1_wf w fun _ _ w1 => ite_wf _ (by simpa using w) (by simpa using w1))

theorem execNop_wf {o : S0} : AnswerWf (execNop o s) := withThread_wf (State.gather_wf w fun _ _ w1 => by simpa using w1)

theorem execHalt_wf {o : S0} : AnswerWf (execHalt o s) := withThread_wf (State.gather_wf w fun _ _ _ => by simpa using w)

theorem execYield_wf {o : S0} : AnswerWf (execYield o s) :=
  withThread_wf (State.gather_wf w fun _ _ w1 => ite_wf _ (by simpa using w1) (by simpa using w1))

theorem execYieldExpiry_wf {core frame : Nat} : AnswerWf (execYieldExpiry core frame s) := whenEnabled_wf (by simpa using w)

/-! ## Short, long and floating-point words -/

theorem short2_wf {sw : Bool} {d : Dst} {a b : Src} {f : Word → Word → Word} : AnswerWf (short2 s sw d a b f) :=
  withThread_wf (State.gather2_wf w fun _ _ _ w1 => by simpa using w1)

theorem short1_wf {sw : Bool} {d : Dst} {a : Src} {f : Word → Word} : AnswerWf (short1 s sw d a f) :=
  withThread_wf (State.gather1_wf w fun _ _ w1 => by simpa using w1)

theorem long2_wf {sw : Bool} {d : Dst} {a b : Src} {f : Word → Word → Word} : AnswerWf (long2 s sw d a b f) :=
  withThread_wf (State.long2_wf w fun _ _ _ w1 => by simpa using w1)

theorem long1_wf {sw : Bool} {d : Dst} {a : Src} {f : Word → Word} : AnswerWf (long1 s sw d a f) :=
  withThread_wf (State.long1_wf w fun _ _ w1 => by simpa using w1)

theorem execLui_wf {o : U20} : AnswerWf (execLui o s) := withThread_wf (State.gather_wf w fun _ _ w1 => by simpa using w1)

theorem execLpc_wf {o : U20} : AnswerWf (execLpc o s) := withThread_wf (State.gather_wf w fun _ _ w1 => by simpa using w1)

theorem execLeap_wf {o : LeapOp} : AnswerWf (execLeap o s) := by
  refine withThread_wf (State.gather1_wf w fun _ _ w1 => ?_)
  split
  · simpa using w
  · simpa using w1

theorem fpOp_wf {sw : Bool} {d : Dst} {srcs : List Src} {f : Nat} {tr : Bool} {op : Word → List Nat → Word × BitVec 5} :
    AnswerWf (fpOp s sw d srcs f tr op) :=
  withThread_wf (State.gatherLong_wf w fun _ _ w1 => ite_wf _ (by simpa using w) (by simpa using w1))

theorem execIcvtf_wf {o : F2r} : AnswerWf (execIcvtf o s) := withThread_wf (State.long1_wf w fun _ _ w1 => by simpa using w1)

theorem execFkey_wf {o : FkeyOp} : AnswerWf (execFkey o s) := withThread_wf (State.long1_wf w fun _ _ w1 => by simpa using w1)

theorem sfuOp_wf {o : SfuOp} {fn : SfuFn} : AnswerWf (sfuOp s o fn) :=
  withThread_wf (State.long1_wf w fun _ _ w1 => ite_wf _ (by simpa using w) (by simpa using w1))
end

end Sys2Proof.Machine
end

section
/-! Tasks, messages, barriers, the answer table, incumbents and launches keep memory in canonical form. -/

namespace Sys2Proof.Machine

/-! ## Tasks, queues, forks, barriers -/

section
variable {s : State} (w : s.mem.wf = true)
include w

theorem execSpawn_wf {o : JOp} : AnswerWf (execSpawn o s) := by
  refine withThread_wf (State.unlessWalking_wf w (State.gather1_wf w fun _ _ w1 => State.killPoint_wf w1 w fun t h => ?_))
  dsimp only
  split
  · simpa using w
  · rename_i t2 e
    have w2 : t2.mem.wf = true := State.pushDeque_wf h e
    simpa using w2

theorem execSret_wf {o : S0} : AnswerWf (execSret o s) :=
  withThread_wf (State.unlessWalking_wf w (State.gather1_wf w fun _ _ w1 => State.orTrap_wf w (State.finishTask_wf w1)))

theorem execWork_wf {o : S0} : AnswerWf (execWork o s) :=
  withThread_wf (State.unlessWalking_wf w (State.gather_wf w fun _ _ w1 => State.orTrap_wf w (State.workTask_wf w1)))

theorem State.syncRead_wf {s0 : State} {g14 : Word} (w0 : s0.mem.wf = true) : (s0.syncRead s g14).mem.wf = true := by
  refine State.withAccess_wf w w0 fun t l h => ?_
  split
  · simpa using w0
  · split
    · simpa using w0
    · extract_lets away s2 s3 v bad
      have w2 : s2.mem.wf = true := by simpa [s2, apply_ite State.mem] using h
      have w3 : s3.mem.wf = true := by
        simp only [s3]
        split
        · exact w2
        · exact State.injectAll_wf w2 _ _
      exact ite_wf _ (by simpa using w0) (ite_wf _ (by simpa using w0) (ite_wf _ (by simpa using w0)
        (ite_wf _ (by simpa using w0) (ite_wf _ (by simpa using w3) (ite_wf _ (by simpa using w3) (by simpa using w3))))))

theorem execSync_wf {o : S0} : AnswerWf (execSync o s) :=
  withThread_wf (State.unlessWalking_wf w (State.gather1_wf w fun _ _ w1 => ite_wf _ (State.syncRead_wf w1 w)
    (State.killPoint_wf w1 w fun _ h => State.syncRead_wf (by simpa using h) (by simpa using w))))

theorem execSyncRecheck_wf {core frame : Nat} : AnswerWf (execSyncRecheck core frame s) := whenEnabled_wf (by simpa using w)

theorem execWait_wf {o : S1} : AnswerWf (execWait o s) :=
  withThread_wf (ite_wf _ (by simpa using w) (State.gather1_wf w fun _ _ w1 => ite_wf _ (by simpa using w1) (by simpa using w1)))

theorem execWaitTimeout_wf {core frame : Nat} : AnswerWf (execWaitTimeout core frame s) := whenEnabled_wf (by simpa using w)

theorem execAnch_wf {o : S0} : AnswerWf (execAnch o s) :=
  withThread_wf (State.gather_wf w fun _ _ w1 => ite_wf _ (by simpa using w1) (ite_wf _ (by simpa using w1) (by simpa using w1)))

theorem execRoam_wf {o : S0} : AnswerWf (execRoam o s) :=
  withThread_wf (State.gather_wf w fun _ _ w1 => ite_wf _ (by simpa using w1) (ite_wf _ (by simpa using w)
    (ite_wf _ (by simpa using w1) (by simpa using w1))))

theorem State.sendTo_wf {s0 : State} {sw : Bool} {v place : Word} (w0 : s0.mem.wf = true) : (s0.sendTo s sw v place).mem.wf = true := by
  unfold State.sendTo
  split
  · simpa using w0
  · exact ite_wf _ (by simpa using w0) (by simpa using w)

theorem execSend_wf {o : S2} : AnswerWf (execSend o s) := withThread_wf (State.gather2_wf w fun _ _ _ w1 => State.sendTo_wf w1 w)

theorem execSendi_wf {o : SendiOp} : AnswerWf (execSendi o s) := withThread_wf (State.gather1_wf w fun _ _ w1 => State.sendTo_wf w1 w)

theorem execQrxMessageArrival_wf {k : Nat} : AnswerWf (execQrxMessageArrival k s) := by
  unfold execQrxMessageArrival
  split
  · trivial
  · refine .ite trivial ?_
    dsimp only
    split
    · exact wf_of_mem w (by simp)
    · exact wf_of_mem w (by simp)

theorem execQdnPushArrival_wf {k : Nat} : AnswerWf (execQdnPushArrival k s) := by
  unfold execQdnPushArrival
  split
  · trivial
  · refine .ite trivial ?_
    dsimp only
    split
    · exact wf_of_mem w (by simp)
    · exact wf_of_mem w (by simp)

theorem execQcfg_wf {o : S2} : AnswerWf (execQcfg o s) := by
  refine withThread_wf (State.gather2_wf w fun _ _ _ w1 => ite_wf _ (ite_wf _ (by simpa using w1) (by simpa using w1))
    (ite_wf _ (by simpa using w) (ite_wf _ ?_ (by simpa using w1))))
  split
  · simpa using w
  · simpa using w1

theorem State.forkTo_wf {s0 : State} {sw : Bool} {d : Dst} {pc place : Word} (w0 : s0.mem.wf = true) :
    (s0.forkTo s sw d pc place).mem.wf = true := by
  unfold State.forkTo
  split
  · simpa using w0
  · refine ite_wf _ (by simpa using w0) ?_
    split
    · simpa using w0
    · refine ite_wf _ (by simpa using w0) (ite_wf _ (by simpa using w0) (ite_wf _ (by simpa using w0)
        (State.release_wf w w0 fun t h => ?_)))
      dsimp only
      split <;> simpa using h

theorem execFork_wf {o : R3} : AnswerWf (execFork o s) := withThread_wf (State.long2_wf w fun _ _ _ w1 => State.forkTo_wf w1 w)

theorem execForki_wf {o : ForkiOp} : AnswerWf (execForki o s) := withThread_wf (State.long1_wf w fun _ _ w1 => State.forkTo_wf w1 w)

theorem execBarcfg_wf {o : S2} : AnswerWf (execBarcfg o s) := by
  refine withThread_wf (State.gather2_wf w fun _ _ _ w1 => ?_)
  split
  · simpa using w
  · exact ite_wf _ (by simpa using w) (ite_wf _ (by simpa using w) (by simpa [apply_ite State.mem] using w1))

theorem execBarw_wf {o : S1} : AnswerWf (execBarw o s) := by
  refine withThread_wf (State.gather1_wf w fun _ _ w1 => ?_)
  split
  · simpa using w
  · rename_i b _
    refine ite_wf _ (by simpa using w) (State.release_wf w1 w fun t h => ?_)
    have h1 : (t.lapse b).1.mem.wf = true := by simpa using h
    generalize t.lapse b = q at h1 ⊢
    obtain ⟨t2, b2⟩ := q
    exact ite_wf _ (by simpa using h1) (by simpa using h1)

theorem execBart_wf {o : S1} : AnswerWf (execBart o s) := by
  refine withThread_wf (State.gather1_wf w fun _ _ w1 => ?_)
  split
  · simpa using w
  · rename_i b _
    refine ite_wf _ (by simpa using w) (State.release_wf w1 w fun t h => ?_)
    have h1 : (t.lapse b).1.mem.wf = true := by simpa using h
    generalize t.lapse b = q at h1 ⊢
    obtain ⟨t2, b2⟩ := q
    simpa using h1

theorem execBarq_wf {o : R2} : AnswerWf (execBarq o s) := by
  refine withThread_wf (State.long1_wf w fun t _ w1 => ?_)
  split
  · simpa using w
  · rename_i b _
    refine ite_wf _ (by simpa using w) ?_
    have h1 : (t.lapse b).1.mem.wf = true := by simpa using w1
    generalize t.lapse b = q at h1 ⊢
    obtain ⟨t2, b2⟩ := q
    simpa using h1

theorem execBarrierTimeout_wf {k : Nat} : AnswerWf (execBarrierTimeout k s) := by
  unfold execBarrierTimeout
  split
  · trivial
  · exact whenEnabled_wf (by simpa using w)

theorem State.clearTags_wf {t : Thread} : (s.clearTags t).mem.wf = true := by
  have w1 (f : Core → Core) : (s.modCore t.core f).mem.wf = true := by simpa using w
  unfold State.clearTags
  dsimp only
  split
  · exact w1 _
  · exact ite_wf _ (w1 _) (State.ovfPut_wf (State.ovfMark_wf (w1 _)))

theorem execMigrationDepart_wf {core frame : Nat} : AnswerWf (execMigrationDepart core frame s) := by
  unfold execMigrationDepart
  split
  · trivial
  · rename_i t _
    split
    · trivial
    · have w1 : (s.clearTags t).mem.wf = true := State.clearTags_wf w
      exact .ite trivial (.ite (wf_of_mem w (by simp)) (wf_of_mem w1 (by simp)))

theorem execThreadArrival_wf {k : Nat} : AnswerWf (execThreadArrival k s) := by
  unfold execThreadArrival
  split
  · trivial
  · dsimp only
    split
    · trivial
    · split
      · exact wf_of_mem w (by simp)
      · trivial

/-! ## The answer table and incumbents -/

theorem State.callKey_wf {s0 : State} {k : TKey} {j : Join} (w0 : s0.mem.wf = true) : (s0.callKey s k j).mem.wf = true := by
  unfold State.callKey
  dsimp only
  split
  · split
    · exact ite_wf _ (by simpa using w) (by simpa using w0)
    · rename_i s1 e
      have w1 : s1.mem.wf = true := wf_of_mem w (State.allocEntry_mem e)
      rw [State.produce_mem]
      split
      · exact ite_wf _ (by simpa using w1) (by simpa using w1)
      · simpa using w1
  · split
    · simpa using w
    · exact ite_wf _ (by simpa using w) (by simpa using w)
    · split
      · simpa using w
      · refine ite_wf _ (by simpa using w0) ?_
        split
        · simpa using w0
        · rename_i s1 g e
          have w1 : s1.mem.wf = true := wf_of_mem w (by simpa using State.formGroup_mem e)
          split
          · simpa using w1
          · exact w1
    · split
      · simpa using w
      · simpa using w
    · simpa using w0

theorem State.tcall_wf {s0 : State} {i : Instr} {c : Word} (w0 : s0.mem.wf = true) : (s0.tcall s i c).mem.wf = true := by
  refine State.withDesc_wf w w0 fun t d h => ?_
  have hc := State.check_wf w0 h (srcs := argSrcs d.argc)
  split
  · rename_i e
    simpa [e, endOf] using hc
  · rename_i u e
    have hu : u.mem.wf = true := by simpa [e, endOf] using hc
    exact State.killPoint_wf (by simpa using hu) w0 fun _ _ => State.callKey_wf (by simpa using hu) w0

theorem execTcall_wf {o : JOp} : AnswerWf (execTcall o s) :=
  withThread_wf (State.unlessWalking_wf w (State.gather_wf w fun _ _ w1 => State.tcall_wf w1 w))

theorem execTcallr_wf {o : S1} : AnswerWf (execTcallr o s) :=
  withThread_wf (State.unlessWalking_wf w (State.gather1_wf w fun _ _ w1 => State.tcall_wf w1 w))

theorem State.tretAnew_wf {s0 : State} {i : Instr} {c : Word} (w0 : s0.mem.wf = true) : (s0.tretAnew s i c).mem.wf = true :=
  State.withDesc_wf w w0 fun _ _ h => State.killPoint_wf h w0 fun _ h1 => State.callKey_wf (by simpa using h1) w0

theorem State.tretGone_wf {s0 : State} {i : Instr} {k : TKey} (w0 : s0.mem.wf = true) : (s0.tretGone s i k).mem.wf = true :=
  State.tretAnew_wf (by simpa using w) w0

theorem State.tretTop_wf {s0 : State} {i : Instr} {k : TKey} (w0 : s0.mem.wf = true) : (s0.tretTop s i k).mem.wf = true := by
  unfold State.tretTop
  dsimp only
  split
  · simpa using w
  · exact State.tretGone_wf (by simpa using w) w0

omit w in
/-- TRET that starts anew. The phase is a variable here: the kernel would count its number out in unary. -/
theorem State.tretAgain_wf {s0 : State} (w0 : s0.mem.wf = true) {i : Instr} {n : Nat} (w : s.mem.wf = true) :
    (let c := BitVec.ofNat 64 n; (s0.undoTret c).tretAnew s i c).mem.wf = true :=
  State.tretAnew_wf w (by simpa using w0)

theorem execTret_wf {o : S0} : AnswerWf (execTret o s) := by
  refine withThread_wf (State.unlessWalking_wf w (State.gather1_wf w fun t _ w1 => ite_wf _ (State.tretAgain_wf w w1) ?_))
  split
  · simpa using w
  · simpa using w1
  · refine ite_wf _ (State.tretGone_wf w1 w) ?_
    have hc := State.check_wf w w1 (srcs := [.g 1])
    split
    · rename_i e
      simpa [e, endOf] using hc
    · rename_i u e
      have hu : u.mem.wf = true := by simpa [e, endOf] using hc
      exact State.release_wf hu w fun _ h => State.tretTop_wf h w

theorem execTabort_wf {o : S0} : AnswerWf (execTabort o s) := withThread_wf (State.gather_wf w fun _ _ w1 => by simpa using w1)

theorem execTlook_wf {o : R2} : AnswerWf (execTlook o s) := by
  refine withThread_wf (State.long1_wf w fun _ _ w1 => State.withDesc_wf w1 w fun t d h => ?_)
  have hc := State.check_wf w h (srcs := argSrcs d.argc)
  split
  · rename_i e
    simpa [e, endOf] using hc
  · rename_i u e
    have hu : u.mem.wf = true := by simpa [e, endOf] using hc
    dsimp only
    split
    · simpa using hu
    · exact ite_wf _ (by simpa using hu) (by simpa using hu)

theorem execTflush_wf {o : S1} : AnswerWf (execTflush o s) :=
  withThread_wf (State.privileged_wf w (State.gather1_wf w fun _ _ w1 => ite_wf _ (ite_wf _ (by simpa using w) (by simpa using w1))
    (ite_wf _ (by simpa using w) (wf_of_mem w (by simp [State.fresh])))))

theorem execTableGroupClose_wf {group : Nat} : AnswerWf (execTableGroupClose group s) := by
  unfold execTableGroupClose
  split
  · split
    · trivial
    · exact .ite trivial (.ite (wf_of_mem w (by simp)) (wf_of_mem w (by simp)))
  · trivial

theorem State.sweepDead_wf {on : Nat → Bool} {k : Nat} : (s.sweepDead on k).mem.wf = true := by
  unfold State.sweepDead
  extract_lets hit mark s1
  have w1 : s1.mem.wf = true := by simpa [s1] using w
  clear_value s1
  refine foldl_wf (fun t l h => ?_) _ w1
  split
  · refine foldl_wf (fun t c h => ?_) _ h
    dsimp only
    split
    · exact h
    · exact State.ovfPut_wf (State.ovfMark_wf h)
  · exact h

theorem State.takeInc_wf {core : Nat} : AnswerWf (s.takeInc core) := by
  unfold State.takeInc
  split
  · trivial
  · exact State.sweepDead_wf (by simpa using w)

theorem State.settleIncs_wf : s.settleIncs.mem.wf = true :=
  ite_wf _ w (foldl_wf (fun _ _ h => State.sweepDead_wf h) _ (by simpa using w))

theorem execIncumbentUpdateApply_wf {n : Nat} : AnswerWf (execIncumbentUpdateApply n s) := by
  unfold execIncumbentUpdateApply
  split
  · trivial
  · exact .ite trivial (ite_wf _ (wf_of_mem w (by simp)) (wf_of_mem w (by simp)))

theorem execBnd_wf {o : KOp} : AnswerWf (execBnd o s) := by
  refine withThread_wf (State.gather1_wf w fun _ _ w1 => ?_)
  split
  · simpa using w
  · rename_i t e
    have wt : t.mem.wf = true := wf_of_mem w1 (State.bind_mem e)
    simpa using wt

theorem execIncu_wf {o : K2Op} : AnswerWf (execIncu o s) :=
  withThread_wf (State.gather2_wf w fun _ _ _ w1 => ite_wf _ (by simpa using w) (by simpa using w1))

theorem execIncr_wf {o : IncrOp} : AnswerWf (execIncr o s) :=
  withThread_wf (State.gatherLong_wf w fun _ _ w1 => ite_wf _ (by simpa using w) (by simpa using w1))

theorem execIncinit_wf {o : K2Op} : AnswerWf (execIncinit o s) :=
  withThread_wf (State.privileged_wf w (State.gather2_wf w fun _ _ _ w1 => ite_wf _ (ite_wf _ (by simpa using w) (by simpa using w1))
    (ite_wf _ (by simpa using w) (ite_wf _ (by simpa using w) (by simpa using w)))))

theorem execBchk_wf {o : S0} : AnswerWf (execBchk o s) :=
  withThread_wf (State.unlessWalking_wf w (State.gather_wf w fun _ _ w1 => State.killPoint_wf w1 w fun _ h => by simpa using h))

/-! ## Launches -/

theorem State.markWords_wf {core tenant : Nat} {va : Word} {n : Nat} : (s.markWords core tenant va n).mem.wf = true :=
  foldl_wf (fun _ _ h => State.tenantMark_wf h _ _ _ _) _ w

theorem State.writeLost_wf : s.writeLost.mem.wf = true := by
  refine foldl_wf (fun t x h => ?_) s.mgmt.unsaved w
  split
  · exact ite_wf _ (State.tenantMark_wf (State.putWords_wf _ _ _ _ _ _ h) _ _ _ _) (State.putWords_wf _ _ _ _ _ _ h)
  · exact h

theorem State.writeDone_wf {core tenant : Nat} {done : Word} {id code : Nat} : (s.writeDone core tenant done id code).mem.wf = true := by
  refine ite_wf _ w ?_
  dsimp only
  split
  · exact State.engineWrite_wf (State.tenantMark_wf w _ _ _ _) _ _ _ _
  · simpa using w

theorem State.accept_wf {r : LaunchRec} : (s.accept r).mem.wf = true := by
  refine State.depScan_wf (ite_wf _ (State.tenantMark_wf ?_ _ _ _ _) ?_) <;> simpa using w

theorem State.submit_wf {words : Nat → Word} {from_ : Nat} {issuer : Option (Nat × Nat)} : (s.submit words from_ issuer).mem.wf = true := by
  unfold State.submit
  dsimp only
  split
  · exact State.accept_wf w
  · exact State.writeDone_wf w

theorem execLwerrWrite_wf {seam : Nat} {v : Word} : AnswerWf (execLwerrWrite seam v s) := by
  refine whenEnabled_wf ?_
  split
  · simpa using w
  · exact w

theorem execLaunchSlotWordWrite_wf {seam slot i : Nat} {v : Word} : AnswerWf (execLaunchSlotWordWrite seam slot i v s) :=
  whenEnabled_wf (by simpa using w)

theorem execLaunchSlotFinalWord_wf {seam slot : Nat} {v : Word} : AnswerWf (execLaunchSlotFinalWord seam slot v s) :=
  whenEnabled_wf (by simpa using w)

theorem execLaunchWindowNarrowWrite_wf {seam : Nat} : AnswerWf (execLaunchWindowNarrowWrite seam s) := whenEnabled_wf (by simpa using w)

theorem execLaunchSlotFree_wf {seam slot : Nat} : AnswerWf (execLaunchSlotFree seam slot s) :=
  whenEnabled_wf (State.submit_wf (by simpa using w))

theorem execLaunch_wf {o : S1} : AnswerWf (execLaunch o s) := by
  refine withThread_wf (State.gather1_wf w fun _ _ w1 => ite_wf _ (by simpa using w) (State.withAccess_wf w1 w fun _ _ w2 =>
    State.withAccess_wf w2 w fun _ _ w3 => ?_))
  split
  · simpa using w
  · dsimp only
    split
    · simpa using w
    · simpa using w3

theorem State.readRecord_wf {r : LaunchReq} {launch : Nat} : (s.readRecord r launch).mem.wf = true :=
  State.injectAll_wf (foldl_wf (fun _ _ h => by simpa using h) _ w) _ _

theorem execLaunchRecordSubmit_wf {core frame : Nat} : AnswerWf (execLaunchRecordSubmit core frame s) := by
  unfold execLaunchRecordSubmit
  split
  · refine .ite trivial ?_
    split
    · exact State.waitLine_wf w
    · rename_i r t _ _ _ _
      extract_lets _ s0 s1

      have w1 : s1.mem.wf = true := State.readRecord_wf (by simpa [s0] using w)
      split
      · exact State.asThread_wf w1 fun _ h => by simpa using h
      · exact .ite trivial (State.submit_wf (by simpa using w1))
  · trivial

theorem State.giveScratch_wf {core tenant : Nat} : (s.giveScratch core tenant).mem.wf = true := by
  unfold State.giveScratch
  rw [State.modCore_mem]
  exact ite_wf _ (Memory.wf_clearScratch w _) w

theorem State.place_wf {l : Launch} : (s.place l).mem.wf = true := by
  unfold State.place
  dsimp only
  rw [State.clearConst_mem, State.modLaunch_mem]
  exact foldl_wf (fun _ _ h => foldl_wf (fun _ _ h => by simpa using h) _ h) _ (foldl_wf (fun _ _ h => State.giveScratch_wf h) _ w)

theorem execLaunchPlacement_wf : AnswerWf (execLaunchPlacement s) := by
  unfold execLaunchPlacement
  split
  · trivial
  · have w1 (l : Launch) : ((s.rectCores l.info).foldl (fun s c => s.clearCore l c 32) s).mem.wf = true :=
      foldl_wf (fun _ _ h => by simpa using h) _ w
    exact .ite trivial (.ite (State.depScan_wf (State.place_wf (w1 _))) (whenEnabled_wf (w1 _)))

theorem execClassifierWindowEnd_wf {launch : Nat} : AnswerWf (execClassifierWindowEnd launch s) := by
  unfold execClassifierWindowEnd
  split
  · trivial
  · exact whenEnabled_wf (by simpa using w)

theorem State.endLaunch_wf {l : Launch} {code : Nat} : (s.endLaunch l code).mem.wf = true := by
  unfold State.endLaunch
  dsimp only
  refine State.depScan_wf ?_
  rw [State.modCores_mem]
  exact State.writeDone_wf (by simpa using w)

theorem State.sweepOne_wf {id : Nat} : (s.sweepOne id).mem.wf = true := by
  unfold State.sweepOne
  split
  · exact w
  · exact ite_wf _ (State.endLaunch_wf w) (by simpa using w)

theorem execTerminationSweep_wf : AnswerWf (execTerminationSweep s) :=
  whenEnabled_wf (foldl_wf (fun _ _ h => State.sweepOne_wf h) _ (by simpa using w))

theorem execSupervisorEndsLaunch_wf {launch : Nat} : AnswerWf (execSupervisorEndsLaunch launch s) := by
  unfold execSupervisorEndsLaunch
  split
  · trivial
  · refine .ite trivial ?_
    extract_lets s1 moving _ s2 s3 none_ s4
    have w1 : s1.mem.wf = true := foldl_wf (fun _ _ h => by simpa using h) _ w
    have w2 : s2.mem.wf = true := foldl_wf (fun _ _ h => by simpa using h) _ (by simpa using w1)
    have w4 : s4.mem.wf = true := by simpa [s4, s3] using w2
    exact ite_wf _ w4 (State.endLaunch_wf w4)

theorem execCtxlostThreadStart_wf : AnswerWf (execCtxlostThreadStart s) := by
  have w0 : s.writeLost.mem.wf = true := State.writeLost_wf w
  unfold execCtxlostThreadStart
  dsimp only
  split
  · rename_i t e
    obtain ⟨y, -, h⟩ := List.exists_of_findSome?_eq_some e
    exact wf_of_mem w0 (State.startLost_mem h)
  · exact whenEnabled_wf w0

theorem execSupervisorThreadRestart_wf {k : Nat} : AnswerWf (execSupervisorThreadRestart k s) := by
  unfold execSupervisorThreadRestart
  split
  · trivial
  · rename_i e _
    have w1 : (s.supPosition e.core).1.mem.wf = true := by simpa using w
    dsimp only
    split
    · rename_i h
      rw [h] at w1
      exact .ite trivial (wf_of_mem w1 (by simp))
    · trivial
end

end Sys2Proof.Machine
end

section
/-! Vector units and copy engine keep memory in canonical form. -/

namespace Sys2Proof.Machine

/-! ## Reads that may fail -/

/-- What holds of the error or of the value of an outcome. -/
def ExceptAll {ε α : Type} (q : ε → Prop) (p : α → Prop) : Except ε α → Prop
  | .error e => q e
  | .ok a => p a

/-- The state that a read leaves, in its error or beside its value, has memory in canonical form. -/
abbrev ReadWf {α β : Type} : Except (State × α) (State × β) → Prop :=
  ExceptAll (fun x => x.1.mem.wf = true) fun x => x.1.mem.wf = true

theorem ExceptAll.of_error {ε α : Type} {q : ε → Prop} {p : α → Prop} {x : Except ε α} {e : ε} (h : ExceptAll q p x) (he : x = .error e) :
    q e := by
  rw [he] at h
  exact h

theorem ExceptAll.of_ok {ε α : Type} {q : ε → Prop} {p : α → Prop} {x : Except ε α} {a : α} (h : ExceptAll q p x) (he : x = .ok a) : p a := by
  rw [he] at h
  exact h

theorem ExceptAll.ite {ε α : Type} {q : ε → Prop} {p : α → Prop} {c : Prop} [Decidable c] {a b : Except ε α} (ha : ExceptAll q p a)
    (hb : ExceptAll q p b) : ExceptAll q p (if c then a else b) := by
  split
  · exact ha
  · exact hb

theorem ExceptAll.map {ε α β : Type} {q : ε → Prop} {p : α → Prop} {r : β → Prop} {f : α → β} (h : ∀ a, p a → r (f a)) :
    ∀ {x : Except ε α}, ExceptAll q p x → ExceptAll q r (x.map f)
  | .error _, hx => hx
  | .ok a, hx => h a hx

theorem ExceptAll.foldlM {ε α β : Type} {q : ε → Prop} {p : β → Prop} {f : β → α → Except ε β}
    (h : ∀ b a, p b → ExceptAll q p (f b a)) : ∀ (l : List α) {b : β}, p b → ExceptAll q p (l.foldlM f b)
  | [], _, hb => hb
  | a :: l, b, hb => by
    have h1 := h b a hb
    rw [List.foldlM_cons]
    cases e : f b a with
    | error x => exact h1.of_error e
    | ok b1 => exact ExceptAll.foldlM h l (h1.of_ok e)

/-! ## Vector units -/

section
variable {s : State} (w : s.mem.wf = true)
include w

theorem State.readElem_wf {core : Nat} {g : SGeo} {f : Lane} {i : Nat} : ReadWf (s.readElem core g f i) := by
  unfold State.readElem
  dsimp only
  have w1 : (s.injectAll (g.ranges core i) false).mem.wf = true := State.injectAll_wf w _ _
  generalize s.injectAll (g.ranges core i) false = s1 at w1 ⊢
  exact .ite w1 (.ite w1 (ite_wf _ (by simpa using w1) w1))

theorem State.writeElem_wf {core : Nat} {g : SGeo} {f : Lane} {i v : Nat} : (s.writeElem core g f i v).1.mem.wf = true := by
  unfold State.writeElem
  extract_lets r s1
  have w1 : s1.mem.wf = true := State.injectAll_wf w _ _
  split
  · exact State.putBytes_wf w1 _ _ _
  · exact State.putBytes_wf w1 _ _ _

theorem State.modEng_wf {core : Nat} {f : Engines → Engines} : (s.modEng core f).mem.wf = true := by simpa using w

theorem State.readLanes_wf {core lanes j : Nat} {n : Option Nat} {f : Lane} {cache : ChunkCache} {r : Nat} :
    ReadWf (s.readLanes core lanes j n f cache r) := by
  unfold State.readLanes
  extract_lets e v
  refine .ite w ?_
  split
  · exact w
  · split
    · exact w
    · rename_i g _
      extract_lets step
      have hstep (acc : State × List Nat × BitVec 5) (l : Nat) (h : acc.1.mem.wf = true) :
          ExceptAll (fun x => x.1.mem.wf = true) (fun x => x.1.mem.wf = true) (step acc l) := by
        refine .ite ?_ h
        split
        · exact h
        · exact ExceptAll.map (p := fun x => x.1.mem.wf = true) (fun _ hx => hx) (State.readElem_wf h)
      have hall := ExceptAll.foldlM hstep (List.range lanes) (b := (s, [], 0)) w
      split
      · rename_i e1
        exact hall.of_error e1
      · rename_i e1
        exact State.modEng_wf (hall.of_ok e1)

omit w in
theorem State.readAll_wf {core lanes j : Nat} {n : Option Nat} {f : Lane} (l : List Nat) :
    ∀ {s : State} {cache : ChunkCache}, s.mem.wf = true → ReadWf (s.readAll core lanes j n f cache l) := by
  induction l with
  | nil => exact fun w => w
  | cons r rs ih =>
    intro s cache w
    unfold State.readAll
    split
    · rename_i e
      exact (State.readLanes_wf w).of_error e
    · rename_i e
      exact ExceptAll.map (p := fun x => x.1.mem.wf = true) (fun _ hx => hx) (ih ((State.readLanes_wf w).of_ok e))

theorem State.writeLanes_wf {core lanes j r : Nat} {f : Lane} {out : List (Nat × Nat)} :
    ExceptAll (fun _ => True) (fun t => t.mem.wf = true) (s.writeLanes core lanes j r f out) := by
  unfold State.writeLanes
  refine .ite (State.modEng_wf w) ?_
  split
  · trivial
  · split
    · trivial
    · rename_i g _ _ l _
      extract_lets step
      have hstep (t : State × BitVec 5) (x : Nat × Nat) (h : t.1.mem.wf = true) : (step t x).1.mem.wf = true := State.writeElem_wf h
      have h := foldl_inv (fun t : State × BitVec 5 => t.1.mem.wf = true) step hstep l (s, 0) w
      exact State.modEng_wf h

theorem State.vecWrite_wf {core j : Nat} {n : Option Nat} {v : VForm} {m : VecIns} {ops : List (List Nat)} :
    ExceptAll (fun _ => True) (fun t => t.mem.wf = true) (s.vecWrite core j n v m ops) :=
  ExceptAll.map (p := fun t : State => t.mem.wf = true) (fun _ h => State.modEng_wf h) (State.writeLanes_wf w)

theorem State.vecMember_wf {core j : Nat} {n : Option Nat} {cache : ChunkCache} {m : VecIns} : ReadWf (s.vecMember core j n cache m) := by
  unfold State.vecMember
  split
  · exact w
  · rename_i v _
    extract_lets faults lanes act
    have hf (t : State) (c : Nat) (a : Word) (h : t.mem.wf = true) : ReadWf (faults t c a) := State.modEng_wf h
    split
    · rename_i e
      exact hf _ _ _ ((State.readAll_wf v.srcs w).of_error e)
    · rename_i s1 _ _ e
      have h : s1.mem.wf = true := (State.readAll_wf v.srcs w).of_ok e
      extract_lets _
      refine .ite (hf _ _ _ h) ?_
      split
      · exact State.modEng_wf h
      · split
        · exact hf _ _ _ h
        · rename_i e2
          exact (State.vecWrite_wf h).of_ok e2

omit w in
theorem State.vecLoop_wf {core j : Nat} {n : Option Nat} (ms : List VecIns) :
    ∀ {s : State} {c : ChunkCache} {acc : List VecIns}, s.mem.wf = true → (State.vecLoop core j n ms s c acc).1.mem.wf = true := by
  induction ms with
  | nil => exact fun w => w
  | cons m r ih =>
    intro s c acc w
    unfold State.vecLoop
    split
    · exact w
    · split
      · rename_i e
        exact (State.vecMember_wf w).of_error e
      · rename_i e
        exact ih ((State.vecMember_wf w).of_ok e)

theorem State.fillWords_wf {ks : List Nat} : (s.fillWords ks).mem.wf = true :=
  foldl_wf (fun _ _ h => ite_wf _ h (State.setWord_wf h)) _ w

theorem execVectorBodyStart_wf {core : Nat} : AnswerWf (execVectorBodyStart core s) := by
  unfold execVectorBodyStart
  split
  · trivial
  · exact whenEnabled_wf (by simpa using w)

theorem State.stopBody_wf {core : Nat} {b : Body} : (s.stopBody core b).mem.wf = true := by
  unfold State.stopBody
  extract_lets red s1
  have w1 : s1.mem.wf = true := State.fillWords_wf w
  split <;> simpa using w1

theorem State.bodyFault_wf {core : Nat} {b : Body} {idx cause : Nat} {a : Word} : (s.bodyFault core b idx cause a).mem.wf = true := by
  unfold State.bodyFault
  extract_lets b1 s1
  have w1 : s1.mem.wf = true := by simpa [s1] using w
  exact ite_wf _ (State.stopBody_wf w1) (ite_wf _ (by simpa using w1) (by simpa using w1))

theorem State.sfuEnter_wf {core lanes : Nat} {n : Option Nat} {b : Body} {v : VForm} : AnswerWf (s.sfuEnter core lanes n b v) := by
  unfold State.sfuEnter
  extract_lets q enter c
  have he (t : State) (c : ChunkCache) (ops : List Nat) (bad : Option Word) (h : t.mem.wf = true) : (enter t c ops bad).mem.wf = true :=
    State.modEng_wf (by simpa using h)
  refine whenEnabled_wf ?_
  split
  · rename_i e
    exact he _ _ _ _ ((State.readAll_wf v.srcs w).of_error e)
  · rename_i e
    exact he _ _ _ _ ((State.readAll_wf v.srcs w).of_ok e)

theorem State.sfuChunk_wf {core : Nat} {x : SfuEntry} : (s.sfuChunk core x).mem.wf = true := by
  unfold State.sfuChunk
  dsimp only
  split
  · exact w
  · rename_i b _ _
    split
    · split
      · rename_i t e
        obtain ⟨v, -, hv⟩ := Option.map_eq_some_iff.1 e
        have h : t.mem.wf = true := (State.vecWrite_wf w).of_ok hv
        simpa using h
      · exact State.bodyFault_wf w
      · exact w
    · exact State.bodyFault_wf w

theorem execVectorChunk_wf {core : Nat} : AnswerWf (execVectorChunk core s) := by
  unfold execVectorChunk
  extract_lets e
  split
  · rename_i b _ _ _
    refine .ite trivial (.ite (State.stopBody_wf w) ?_)
    split
    · exact State.bodyFault_wf w
    · rename_i lanes n _
      extract_lets r b1 last later now s1
      have wr : r.1.mem.wf = true := State.vecLoop_wf _ w
      clear_value r
      have w1 : s1.mem.wf = true := wf_of_mem (State.fillWords_wf wr (ks := now)) (by simp [s1])
      clear_value s1
      split
      · exact State.bodyFault_wf wr
      · exact .ite (State.sfuEnter_wf w) (wf_of_mem wr (by simp))
      · exact .ite (wf_of_mem w1 (by simp)) (wf_of_mem w1 (by simp))
  · trivial

theorem execVectorFaultDelivery_wf {core frame : Nat} : AnswerWf (execVectorFaultDelivery core frame s) := by
  unfold execVectorFaultDelivery
  split
  · trivial
  · split
    · trivial
    · exact whenEnabled_wf (State.asThread_wf w fun _ h => by simpa using h)

theorem State.discardHeld_wf {core : Nat} : (s.discardHeld core).mem.wf = true := by
  unfold State.discardHeld
  dsimp only
  split
  · rw [State.idleSpos_mem, State.setBusy_mem]
    exact State.fillWords_wf (State.modEng_wf w)
  · exact w

theorem State.vrsm_wf {core choice : Nat} : (s.vrsm core choice).mem.wf = true := ite_wf _ (State.discardHeld_wf w) (by simpa using w)

theorem vrsmStep_wf {choice : Nat} : AnswerWf (vrsmStep choice s) :=
  withThread_wf (ite_wf _ (by simpa using w) (by simpa using State.vrsm_wf w))

theorem vecOp_wf {i : Instr} {sw : Bool} {src : Src} : AnswerWf (vecOp i sw src s) :=
  withThread_wf (State.vecGate_wf w (State.gather1_wf w fun _ _ w1 => ite_wf _ (by simpa using w) (by simpa using w1)))

theorem execVred_wf {o : VredOp} : AnswerWf (execVred o s) := by
  refine withThread_wf (State.vecGate_wf w (State.gather_wf w fun _ _ w1 => ite_wf _ (by simpa using w) ?_))
  split
  · simpa using w
  · simpa using w1

theorem execVloop_wf {o : VloopOp} : AnswerWf (execVloop o s) :=
  withThread_wf (State.vecGate_wf w (State.gather_wf w fun _ _ w1 => ite_wf _ (by simpa using w) (by simpa using w1)))

theorem execVfence_wf {o : S0} : AnswerWf (execVfence o s) :=
  withThread_wf (State.vecGate_wf w (State.gather_wf w fun _ _ w1 =>
    ite_wf _ (by simpa using w) (ite_wf _ (by simpa using w) (by simpa using w1))))

/-! ## Copy engine -/

theorem State.copyTouch_wf {core : Nat} {o : CopyOp} {x : Option Xlate} {store : Bool} : (s.copyTouch core o x store).mem.wf = true := by
  unfold State.copyTouch
  dsimp only
  split
  · exact State.touch_wf w _ _ _ _ _
  · exact w

theorem State.copyRead_wf {core : Nat} {o : CopyOp} {l : Loc} {width : Nat} : (s.copyRead core o l width).1.mem.wf = true := by
  have w1 (rs : List (Nat × Nat)) : ((s.copyReach core o l false).injectAll rs false).mem.wf = true :=
    State.injectAll_wf (by simpa using w) _ _
  exact ite_wf _ (by simpa using w1 _) (by simpa using w1 _)

theorem State.copyRecord_wf {core : Nat} {o : CopyOp} : ReadWf (s.copyRecord core o) := by
  unfold State.copyRecord
  extract_lets acc step len
  have hstep (t : (State × CopyOp) × Bool) (i : Nat) (h : t.1.1.mem.wf = true) :
      ExceptAll (fun x => x.1.mem.wf = true) (fun x : (State × CopyOp) × Bool => x.1.1.mem.wf = true) (step t i) := by
    simp only [step]
    split
    · exact h
    · exact State.copyRead_wf (State.copyTouch_wf h)
  split
  · split
    · exact w
    · exact w
  · have hall := ExceptAll.foldlM hstep (List.range len) (b := ((s, o), false)) w
    split
    · rename_i e
      exact hall.of_error e
    · rename_i e
      have h := hall.of_ok e
      exact .ite h h

theorem State.copyEnd_wf {core : Nat} {o : CopyOp} : (s.copyEnd core o).mem.wf = true := by
  refine ite_wf _ ?_ w
  split
  · exact State.fillWords_wf w
  · exact w

theorem State.copyBegin_wf {core : Nat} {ch : Fin 4} {o : CopyOp} : (s.copyBegin core ch o).mem.wf = true := by
  unfold State.copyBegin
  extract_lets c s1 s2 _ s3
  have w1 : s1.mem.wf = true := by simpa [s1] using w
  have w2 : s2.mem.wf = true := by
    simp only [s2]
    split
    · exact State.copyEnd_wf w1
    · exact w1
  clear_value s1
  refine ite_wf _ ?_ (ite_wf _ ?_ ?_)
  · split
    · simpa using w1
    · simpa using w1
  · simpa [s3] using w2
  · simpa [s3] using w2

theorem execCopyBegin_wf {core ch : Nat} : AnswerWf (execCopyBegin core ch s) := by
  unfold execCopyBegin
  split
  · trivial
  · split
    · trivial
    · exact whenEnabled_wf (State.copyBegin_wf w)

theorem State.copyStop_wf {core : Nat} {ch : Fin 4} {o : CopyOp} : (s.copyStop core ch o).mem.wf = true := by
  unfold State.copyStop
  rw [State.resolve_mem]
  exact State.copyEnd_wf (by simpa using w)

theorem State.copyWrite_wf {core : Nat} {o : CopyOp} {l : Loc} {v : Nat} {bad : Bool} : (s.copyWrite core o l v bad).1.mem.wf = true := by
  unfold State.copyWrite
  extract_lets n s1 s2 s3 last sa line old now s4 s5
  have w2 : s2.mem.wf = true := State.putBytes_wf (State.inject_wf (by simpa using w) _ _) _ _ _
  have w3 : s3.mem.wf = true := ite_wf _ (State.setPoison_wf w2 _ _) w2
  clear_value s3
  split
  · exact ite_wf _ (State.fillWords_wf w3) w3
  · exact w3
  · have w4 : s4.mem.wf = true := ite_wf _ (State.setPoison_wf w3 _ _) w3
    have w5 : s5.mem.wf = true := ite_wf _ w4 (by simpa using w4)
    simpa using w5

theorem State.copyWait_wf {core : Nat} {ch : Fin 4} {o : CopyOp} {a : Word} : AnswerWf (s.copyWait core ch o a) :=
  whenEnabled_wf (by simpa using w)

theorem State.copyStep_wf {core : Nat} {ch : Fin 4} {o0 o : CopyOp} {v : Nat} {bad : Bool} : AnswerWf (s.copyStep core ch o0 o v bad) := by
  unfold State.copyStep
  dsimp only
  split
  · exact wf_of_mem w (by simp)
  · rename_i l x _
    have w1 : ((s.copyTouch core o x true).copyWrite core o l v bad).1.mem.wf = true := State.copyWrite_wf (State.copyTouch_wf w)
    exact wf_of_mem w1 (by simp)

theorem State.copyHeld_wf {core : Nat} {ch : Fin 4} {o : CopyOp} {src : List Word} {r : Answer} (h : s.copyHeld core ch o src = some r) :
    AnswerWf r := by
  unfold State.copyHeld at h
  dsimp only at h
  have ht : AnswerWf (.fault .notEnabled) := trivial
  have hw (a : Word) : AnswerWf (s.copyWait core ch o a) := State.copyWait_wf w
  have hl (l : Loc) (excl : Bool) : AnswerWf (s.waitLine core l excl) := State.waitLine_wf w
  generalize s.copyWait core ch o = cw at h hw
  generalize s.waitLine core = wl at h hl
  grind

theorem execCopyElementWrite_wf {core ch : Nat} : AnswerWf (execCopyElementWrite core ch s) := by
  unfold execCopyElementWrite
  split
  · trivial
  · rename_i ch _
    split
    · trivial
    · rename_i o _
      refine .ite (State.copyStop_wf w) (.ite trivial ?_)
      extract_lets src
      split
      · rename_i e
        exact State.copyHeld_wf w e
      · split
        · split
          · exact State.copyStep_wf w
          · split
            · rename_i x e
              have h : x.1.mem.wf = true := (State.copyRecord_wf w).of_error e
              exact wf_of_mem h (by simp)
            · rename_i e
              exact State.copyStep_wf ((State.copyRecord_wf w).of_ok e)
        · split
          · exact wf_of_mem w (by simp)
          · exact State.copyStep_wf (State.copyRead_wf (State.copyTouch_wf w))

theorem execCopyComplete_wf {core ch : Nat} : AnswerWf (execCopyComplete core ch s) := by
  unfold execCopyComplete
  split
  · trivial
  · split
    · trivial
    · exact .ite (State.copyStop_wf w) (whenEnabled_wf (by simpa using w))

theorem copyOp_wf {i : Instr} {o : CpyOp} {cx8 : Bool} : AnswerWf (copyOp i o cx8 s) := by
  refine withThread_wf (ite_wf _ (by simpa using w) (State.gather2_wf w fun _ _ _ w1 => ite_wf _ (by simpa using w) ?_))
  split
  · simpa using w
  · simpa using w1

theorem execCptr_wf {o : CptrOp} : AnswerWf (execCptr o s) :=
  withThread_wf (ite_wf _ (by simpa using w) (State.gatherLong_wf w fun _ _ w1 => by simpa using w1))
end

end Sys2Proof.Machine
end

section
/-! Matrix units, block queues, futures, engine registers and system instructions keep memory in canonical form. -/

namespace Sys2Proof.Machine

/-! ## Matrix units -/

section
variable {s : State} (w : s.mem.wf = true)
include w

theorem State.matFault_wf {core : Nat} {m : MatEntry} {c : Nat} {addr : Word} : AnswerWf (.next (s.matFault core m c addr)) :=
  wf_of_mem w (by simp)

theorem execMatrixOpBegin_wf {core stream : Nat} : AnswerWf (execMatrixOpBegin core stream s) := by
  have hf (m : MatEntry) (c : Nat) (addr : Word) : AnswerWf (.next (s.matFault core m c addr)) := State.matFault_wf w
  have hs (m : MatEntry) : AnswerWf (.next (s.setMat core m)) := wf_of_mem w (by simp)
  unfold execMatrixOpBegin
  dsimp only
  split
  · trivial
  · refine .ite trivial ?_
    split
    · refine .ite (hf _ _ _) ?_
      split
      · exact hf _ _ _
      · exact hs _
    · split
      · exact hf _ _ _
      · refine .ite (hf _ _ _) ?_
        split
        · exact hf _ _ _
        · exact .ite (hs _) (hf _ _ _)
    · refine .ite trivial ?_
      split
      · exact hf _ _ _
      · exact .ite (hf _ _ _) (wf_of_mem w (by simp))

theorem execMatrixOpComplete_wf {core : Nat} : AnswerWf (execMatrixOpComplete core s) := by
  unfold execMatrixOpComplete
  split
  · trivial
  · refine .ite trivial ?_
    split
    · exact State.matFault_wf w
    · rename_i a b _
      refine .ite trivial ?_
      extract_lets s1 s2
      have w1 : s1.mem.wf = true := State.injectAll_wf w _ _
      clear_value s1
      split
      · exact State.matFault_wf w1
      · exact State.matFault_wf w1
      · exact .ite (wf_of_mem w1 (by simp)) (.ite (wf_of_mem w1 (by simp [s2])) (wf_of_mem w1 (by simp [s2])))

omit w in
theorem State.putPieces_wf (n : Nat) : ∀ {s : State} {key v : Nat}, s.mem.wf = true → (s.putPieces key n v).mem.wf = true := by
  induction n with
  | zero => exact fun w => w
  | succ n ih => exact fun w => ih (State.putBytes_wf (State.inject_wf w _ _) _ _ _)

theorem State.putBlock_wf {core width e : Nat} {vs : List FVal} : (s.putBlock core width e vs).1.mem.wf = true :=
  State.putPieces_wf _ (ite_wf _ (by simpa using w) w)

theorem State.putNumber_wf {a n v : Nat} : ((s.inject (a / 8 * 8) true).putBytes a n v).mem.wf = true :=
  State.putBytes_wf (State.inject_wf w _ _) _ _ _

/-- Numbers put one after the other. Where and what they are is variable: the kernel would count the powers of two in unary. -/
theorem State.putNumbers_wf {size : Nat} {key num : Nat → Nat} {l : List Nat} :
    (l.foldl (fun s j => (s.inject (key j / 8 * 8) true).putBytes (key j) size (num j)) s).mem.wf = true :=
  foldl_wf (fun _ _ h => State.putNumber_wf h) _ w

theorem State.mstRun_wf {core width x : Nat} {m : MatEntry} {k : AccKind} {i n : Nat} : (s.mstRun core width x m k i n).1.mem.wf = true := by
  unfold State.mstRun
  split
  · extract_lets size raw put
    exact State.putNumbers_wf w (key := fun j => scratchKey core (x + size * (i + j))) (num := fun j => raw (i + j))
  · split
    · exact State.putBlock_wf w
    · extract_lets put
      have hput (t : State × BitVec 5) (j : Nat) (h : t.1.mem.wf = true) : (put t j).1.mem.wf = true :=
        State.putBytes_wf (State.injectAll_wf h _ _) _ _ _
      exact foldl_inv (fun t : State × BitVec 5 => t.1.mem.wf = true) put hput _ (s, 0) w

theorem State.mstStore_wf {core : Nat} {m : MatEntry} {rows : Nat} : (s.mstStore core m rows).mem.wf = true := by
  unfold State.mstStore
  extract_lets k
  split
  · exact w
  · rename_i width x _
    extract_lets u n t ws
    have wt : t.1.mem.wf = true := foldl_inv (fun t : State × BitVec 5 => t.1.mem.wf = true)
      (fun t j => ((t.1.mstRun core width x m k (u * j) u).1, t.2 ||| (t.1.mstRun core width x m k (u * j) u).2))
      (fun _ _ h => State.mstRun_wf h) _ (s, 0) w
    clear_value t
    exact State.fillWords_wf (State.modEng_wf wt)

theorem execMstComplete_wf {core : Nat} : AnswerWf (execMstComplete core s) := by
  unfold execMstComplete
  split
  · trivial
  · refine .ite trivial (.ite ?_ ?_)
    · exact wf_of_mem (State.mstStore_wf (by simpa [State.fresh] using w)) (State.matResolve_mem _ _ _ _ _)
    · exact wf_of_mem (State.mstStore_wf w) (State.matResolve_mem _ _ _ _ _)

theorem execMldComplete_wf {core : Nat} : AnswerWf (execMldComplete core s) := by
  unfold execMldComplete
  split
  · trivial
  · split
    · trivial
    · split
      · trivial
      · refine .ite trivial ?_
        extract_lets r s1 l fl resv s2
        have w1 : s1.mem.wf = true := State.injectAll_wf w _ _
        clear_value s1
        split
        · exact State.matFault_wf w1
        · exact wf_of_mem w1 (by simp [s2])

theorem matOp_wf {i : Instr} {kind : MatKind} {o : MatOp} : AnswerWf (matOp i kind o s) := by
  refine withThread_wf (ite_wf _ (by simpa using w) (State.gather2_wf w fun _ _ _ w1 => ite_wf _ (by simpa using w) ?_))
  split
  · simpa using w
  · simpa using w1

theorem execMsync_wf {o : MsyncOp} : AnswerWf (execMsync o s) :=
  withThread_wf (ite_wf _ (by simpa using w) (State.gather_wf w fun _ _ w1 => ite_wf _ (by simpa using w)
    (ite_wf _ (by simpa using w) (by simpa using w1))))

/-! ## Block queues -/

theorem execBqnext_wf {o : D1} : AnswerWf (execBqnext o s) :=
  withThread_wf (ite_wf _ (by simpa using w) (State.gatherLong_wf w fun _ _ w1 => ite_wf _ (by simpa using w1) (by simpa using w1)))

theorem State.putSums_wf {core width e : Nat} {vs : List Nat} : (s.putSums core width e vs).1.mem.wf = true := by
  unfold State.putSums
  split
  · exact State.putBlock_wf w
  · extract_lets put
    have hput (t : State × BitVec 5) (x : Nat × Nat) (h : t.1.mem.wf = true) : (put t x).1.mem.wf = true :=
      State.putBytes_wf (State.injectAll_wf h _ _) _ _ _
    exact foldl_inv (fun t : State × BitVec 5 => t.1.mem.wf = true) put hput _ (s, 0) w

theorem State.baddFault_wf {core : Nat} {b : BaddEntry} {a : Word} : AnswerWf (.next (s.baddFault core b a)) := wf_of_mem w (by simp)

theorem State.putRows_wf {core width : Nat} {d : Nat → Nat} {vs : Nat → List Nat} {fl : BitVec 5} {l : List Nat} :
    (l.foldl (fun t j =>
      let q := t.1.putSums core width (d j) (vs j)
      (q.1, t.2 ||| q.2)) (s, fl)).1.mem.wf = true := by
  refine foldl_inv (fun t : State × BitVec 5 => t.1.mem.wf = true) _ (fun t j h => ?_) l (s, fl) w
  exact State.putSums_wf h

theorem execBaddqComplete_wf {core : Nat} : AnswerWf (execBaddqComplete core s) := by
  have hi (rs : List (Nat × Nat)) : (s.injectAll rs false).mem.wf = true := State.injectAll_wf w _ _
  unfold execBaddqComplete
  split
  · trivial
  · dsimp only
    refine .ite trivial (.ite (State.baddFault_wf w) ?_)
    split
    · exact State.baddFault_wf w
    · exact State.baddFault_wf w
    · refine .ite (State.baddFault_wf w) ?_
      split
      · exact State.baddFault_wf (hi _)
      · exact State.baddFault_wf (hi _)
      · refine wf_of_mem (State.fillWords_wf (State.modEng_wf ?_)) (State.baddEnd_mem _ _ _ _ _)
        exact State.putRows_wf (wf_of_mem (hi _) (State.countMany_mem _ _ _ _ _))

theorem execBaddq_wf {o : BaddOp} : AnswerWf (execBaddq o s) := by
  refine withThread_wf (ite_wf _ (by simpa using w) (State.gather2_wf w fun _ _ _ w1 => ite_wf _ (by simpa using w) ?_))
  split
  · simpa using w
  · simpa using w1

/-! ## Futures -/

theorem execFtest_wf {o : R2} : AnswerWf (execFtest o s) := withThread_wf (State.gatherHandle_wf w fun _ _ _ w1 => by simpa using w1)

theorem execFwait_wf {o : S1} : AnswerWf (execFwait o s) :=
  withThread_wf (State.gatherHandle_wf w fun _ _ _ w1 => ite_wf _ (by simpa using w) (by simpa using w1))

theorem execMovh_wf {o : MovhOp} : AnswerWf (execMovh o s) := by
  refine withThread_wf (State.gatherHandle_wf w fun _ _ _ w1 => ?_)
  split
  · simpa using w1
  · simpa using w1

theorem execFcancel_wf {o : S1} : AnswerWf (execFcancel o s) := by
  refine withThread_wf (State.gatherHandle_wf w fun _ _ _ w1 => ?_)
  split
  · exact ite_wf _ (by simpa using w1) (by simpa using w1)
  · simpa using w1

/-! ## Engine registers -/

theorem State.engPut_wf {core : Nat} {r : EReg} {v : Word} : (s.engPut core r v).mem.wf = true := by
  unfold State.engPut
  split
  case h_4 => exact State.vrsm_wf w
  all_goals simpa using w

theorem State.eset_wf {i : Instr} {sw : Bool} {a : Src} {n : Nat} {v : Option Word} : (s.eset i sw a n v).mem.wf = true := by
  unfold State.eset
  split
  · simpa using w
  · refine ite_wf _ (by simpa using w) (State.gather1_wf w fun _ _ w1 => ?_)
    split
    · simpa using w
    · rw [State.retire_mem]
      exact State.engPut_wf w1

theorem execEset_wf {o : EsetOp} : AnswerWf (execEset o s) := withThread_wf (State.eset_wf w)

theorem execEget_wf {o : EgetOp} : AnswerWf (execEget o s) := by
  refine withThread_wf ?_
  split
  · simpa using w
  · exact ite_wf _ (by simpa using w) (State.gatherLong_wf w fun _ _ w1 => by simpa using w1)

theorem esetStep_wf {ok : EReg → Bool} {n : BitVec 9} {v : Word} : AnswerWf (esetStep ok n v s) :=
  .ite (withThread_wf (State.eset_wf w)) trivial

theorem execEsetBqlim_wf {v : Word} : AnswerWf (execEsetBqlim v s) := withThread_wf (State.eset_wf w)

/-! ## System instructions -/

theorem execCapr_wf {o : R2} : AnswerWf (execCapr o s) :=
  withThread_wf (State.long1_wf w fun _ _ w1 => ite_wf _ (by simpa using w) (by simpa using w1))

theorem execMfs_wf {o : MfsOp} : AnswerWf (execMfs o s) :=
  withThread_wf (ite_wf _ (by simpa using w) (ite_wf _ (by simpa using w) (State.gatherLong_wf w fun _ _ w1 =>
    ite_wf _ (by simpa using w) (ite_wf _ (by simpa using w) (by simpa using w1)))))

theorem State.mts_wf {i : Instr} {sw : Bool} {a : Src} {n : Nat} {v : Option Word} : (s.mts i sw a n v).mem.wf = true :=
  ite_wf _ (by simpa using w) (ite_wf _ (by simpa using w) (State.gather1_wf w fun _ _ w1 =>
    ite_wf _ (by simpa using w) (ite_wf _ (by simpa using w) (by simpa using w1))))

theorem execMts_wf {o : MtsOp} : AnswerWf (execMts o s) := withThread_wf (State.mts_wf w)

theorem mtsStep_wf {idx : BitVec 15} {ok : Bool} {v : Word} : AnswerWf (mtsStep idx ok v s) :=
  .ite (withThread_wf (State.mts_wf w)) trivial

theorem execCntr_wf {o : R2} : AnswerWf (execCntr o s) := by
  refine withThread_wf (State.long1_wf w fun t a w1 => ?_)
  have w2 : t.fresh.2.mem.wf = true := by simpa [State.fresh] using w1
  dsimp only
  split
  · simpa using w2
  · simpa using w2
  · exact ite_wf _ (by simpa using w2) (by simpa using w2)
  · simpa using w1

theorem execTlbi_wf {o : S2} : AnswerWf (execTlbi o s) :=
  withThread_wf (State.privileged_wf w (State.gather2_wf w fun _ _ _ w1 => ite_wf _ (ite_wf _ (by simpa using w1) (by simpa using w))
    (ite_wf _ (by simpa using w) (by simpa using w))))

theorem execHemWindowDelivery_wf {n : Nat} : AnswerWf (execHemWindowDelivery n s) :=
  whenEnabled_wf (foldl_wf (fun _ _ h => by simpa using h) _ (by simpa using w))

theorem execIdle_wf {o : S0} : AnswerWf (execIdle o s) :=
  withThread_wf (State.privileged_wf w (State.gather_wf w fun _ _ w1 => ite_wf _ (by simpa using w)
    (ite_wf _ (by simpa using w1) (by simpa using w1))))

theorem execSpill_wf {o : S1} : AnswerWf (execSpill o s) := by
  refine withThread_wf (State.privileged_wf w (State.gather1_wf w fun _ _ w1 => ite_wf _ (ite_wf _ (by simpa using w) (by simpa using w1))
    (ite_wf _ (by simpa using w) ?_)))
  split
  · simpa using w1
  · simpa [apply_ite State.mem] using w

theorem execTrap_wf {o : S1} : AnswerWf (execTrap o s) := withThread_wf (State.gather1_wf w fun _ _ _ => by simpa using w)

theorem execBrk_wf {o : S1} : AnswerWf (execBrk o s) := withThread_wf (State.gather1_wf w fun _ _ _ => by simpa using w)

theorem execEret_wf {o : S0} : AnswerWf (execEret o s) :=
  withThread_wf (State.gather_wf w fun _ _ w1 => ite_wf _ (by simpa using w) (ite_wf _ (by simpa using w)
    (ite_wf _ (by simpa using w) (by simpa using w1))))
end

end Sys2Proof.Machine
end

section
/-! Removal, spill, reload and the results that arrive keep memory in canonical form. -/

namespace Sys2Proof.Machine

/-! ## Removal, spill and reload -/

section
variable {s : State} (w : s.mem.wf = true)
include w

theorem execEngineRelease_wf {core : Nat} : AnswerWf (execEngineRelease core s) := by
  refine .ite (whenEnabled_wf (by simpa using w)) ?_
  split
  · trivial
  · exact whenEnabled_wf (by simpa using w)

theorem State.engRestore_wf {core : Nat} {r : EReg} {v : Word} : (s.engRestore core r v).mem.wf = true := by
  have hp : (s.engPut core r v).mem.wf = true := State.engPut_wf w
  have he (f : Engines → Engines) : (s.modEng core f).mem.wf = true := State.modEng_wf w
  unfold State.engRestore
  split
  · exact he _
  · split
    · simpa using w
    · simpa using w
    · exact hp
  · split
    · exact he _
    · exact he _
    · exact hp
  · exact he _
  · exact he _
  · exact w
  · exact w
  · exact w
  · exact w
  · exact w
  · exact hp

theorem State.loadArea_wf {core : Nat} {ws : List Word} : (s.loadArea core ws).mem.wf = true := by
  refine foldl_wf (fun t n h => ?_) _ (State.modEng_wf w)
  split
  · exact State.engRestore_wf h
  · exact h

theorem State.spill_wf {l : Launch} {t : Thread} : (s.spill l t).mem.wf = true := by
  unfold State.spill
  extract_lets s1
  have w1 : s1.mem.wf = true := by simpa [s1] using w
  split
  · exact w
  · extract_lets ws s2 s3 s4 s5
    have w2 : s2.mem.wf = true := State.putWords_wf _ _ _ _ _ _ w1
    have w3 : s3.mem.wf = true := ite_wf _ (State.putWords_wf _ _ _ _ _ _ w2) w2
    have w4 : s4.mem.wf = true := ite_wf _ (State.modEng_wf w3) w3
    simpa [s5] using w4

theorem State.syncRecord_wf {t : Thread} : (s.syncRecord t).mem.wf = true := by
  unfold State.syncRecord
  split
  · exact w
  · refine ite_wf _ ?_ w
    rw [State.modLaunch_mem]
    exact State.putWords_wf _ _ _ _ _ _ w

theorem execSpillEngineRun_wf {core : Nat} : AnswerWf (execSpillEngineRun core s) := by
  unfold execSpillEngineRun
  split
  · trivial
  · split
    · trivial
    · exact whenEnabled_wf (State.spill_wf w)

theorem execRemovedThreadReturn_wf {core frame : Nat} : AnswerWf (execRemovedThreadReturn core frame s) := by
  unfold execRemovedThreadReturn
  split
  · trivial
  · rename_i t _
    refine AnswerWf.ite ?_ (.ite trivial ?_)
    · have h : (s.supPosition core).1.mem.wf = true := by simpa using w
      split
      · rename_i e
        rw [e] at h
        exact whenEnabled_wf (by simpa using h)
      · trivial
    · split
      · trivial
      · extract_lets s0 s1
        have w0 : s0.mem.wf = true := by
          simp only [s0]
          split
          · exact State.giveScratch_wf w
          · exact w
        have w1 : s1.mem.wf = true := by simpa [s1] using w0
        exact ite_wf _ (by simpa using w1) w1

theorem State.withdrawn_wf {old new : Thread} : (s.withdrawn old new).mem.wf = true := by simpa using w

theorem execThreadReload_wf {launch idx core : Nat} : AnswerWf (execThreadReload launch idx core s) := by
  unfold execThreadReload
  split
  · refine AnswerWf.ite trivial (.ite trivial (.ite trivial ?_))
    extract_lets s1 s2 s3 s4 s5
    have w1 : s1.mem.wf = true := State.markWords_wf w
    have w2 : s2.mem.wf = true := ite_wf _ (State.loadArea_wf (State.markWords_wf w1)) w1
    have w3 : s3.mem.wf = true := by simpa [s3] using w2
    have w4 : s4.mem.wf = true := State.putWords_wf _ _ _ _ _ _ (State.withdrawn_wf w3)
    exact wf_of_mem w4 (by simp [s5])
  · trivial

theorem execScratchpadSave_wf {core : Nat} : AnswerWf (execScratchpadSave core s) := by
  unfold execScratchpadSave
  split
  · trivial
  · refine AnswerWf.ite trivial (.ite (wf_of_mem w (by simp)) (.ite trivial ?_))
    refine State.depScan_wf ?_
    rw [State.modCore_mem]
    exact Memory.wf_clearScratch (Memory.wf_saveScratch w _ _) _

theorem execScratchpadRestore_wf {core tenant : Nat} : AnswerWf (execScratchpadRestore core tenant s) := by
  unfold execScratchpadRestore
  dsimp only
  split
  · trivial
  · refine .ite trivial (foldl_wf (fun _ _ h => State.wakeWord_wf h) _ (State.depScan_wf ?_))
    rw [State.modCore_mem]
    exact Memory.wf_restoreScratch w _ _

/-! ## Results that arrive -/

theorem execLongResultLand_wf {core frame k : Nat} : AnswerWf (execLongResultLand core frame k s) := by
  unfold execLongResultLand
  split
  · trivial
  · rename_i t _
    split
    · trivial
    · rename_i p _
      refine .ite trivial ?_
      extract_lets s0 s1 redo
      have w1 : s1.mem.wf = true := by simpa [s1, s0, apply_ite State.mem] using w
      clear_value s1
      have hp (f : State → State) (h : ∀ t, t.mem.wf = true → (f t).mem.wf = true) : AnswerWf (.next (s1.asThread core frame f)) :=
        State.asThread_wf w1 h
      refine .ite ?_ ?_
      · split
        · exact .ite trivial (hp _ fun _ h => by simpa [redo] using h)
        · exact .ite (.ite trivial (hp _ fun _ h => by simpa [redo] using h)) (.ite trivial (hp _ fun _ h => by simpa using h))
      · split
        · exact ite_wf _ (State.syncRecord_wf w1) w1
        · exact w1

theorem execSfuEntryServe_wf {core : Nat} : AnswerWf (execSfuEntryServe core s) := by
  unfold execSfuEntryServe
  split
  · trivial
  · exact .ite (State.sfuChunk_wf (State.modEng_wf w)) (wf_of_mem w (by simp))

theorem execFetchBlock_wf {cluster block : Nat} : AnswerWf (execFetchBlock cluster block s) := by
  unfold execFetchBlock
  extract_lets waiting ic data give s1 s2
  have hg (t : State) (y : Thread × Nat × Xlate) (h : t.mem.wf = true) : (give t y).mem.wf = true := by
    simp only [give]
    rw [State.modThread_mem]
    exact State.touch_wf h _ _ _ _ _
  have w1 : s1.mem.wf = true := by
    simp only [s1]
    rw [State.modCluster_mem]
    exact foldl_wf hg _ w
  have w2 : s2.mem.wf = true := by simpa [s2] using w1
  exact .ite trivial (.ite (wf_of_mem w (by simp)) (.ite trivial (ite_wf _ (foldl_wf (fun _ _ h => by simpa using h) _ w2) w2)))

theorem execTlbWalkComplete_wf {core tenant : Nat} {sup : Bool} {va : Word} : AnswerWf (execTlbWalkComplete core tenant sup va s) := by
  unfold execTlbWalkComplete
  extract_lets ctx cl page r waiting copies s1 s2 on on1 s3 s4
  have w2 : s2.mem.wf = true := foldl_wf (fun _ _ h => by simpa using h) _ (by simpa [s1] using w)
  have w3 : s3.mem.wf = true := foldl_wf (fun _ _ h => by simpa using h) _ (by simpa using w2)
  have w4 : s4.mem.wf = true := by simpa [s4] using w3
  clear_value s4
  refine .ite trivial ?_
  split
  · exact w4
  · exact foldl_wf (fun _ _ h => State.fillTlb_wf h _ _ _ _) _ w4

theorem execIllegalWord_wf {word : BitVec 32} : AnswerWf (execIllegalWord word s) := by
  unfold execIllegalWord
  split
  · trivial
  · exact withThread_wf (by simpa using w)
end

end Sys2Proof.Machine
end

section
/-! Seam, links and management keep memory in canonical form. -/

namespace Sys2Proof.Machine

/-! ## The seam -/

section
variable {s : State} (w : s.mem.wf = true)
include w

theorem seamStep_wf {agent line : Nat} {r : CReq} : AnswerWf (seamStep agent line r s) :=
  .ite (wf_of_mem w (by simp)) (whenEnabled_wf (by simpa using w))

/-- Queued requests go on to the seam. -/
theorem State.seamRequests_wf {β : Type} {line agent : β → Nat} {r : β → CReq} (l : List β) :
    (l.foldl (fun s x => s.seamRequest (line x) (agent x) (r x)) s).mem.wf = true :=
  foldl_wf (fun _ _ h => by simpa using h) l w

theorem execSeamTransactionEnd_wf {line : Nat} : AnswerWf (execSeamTransactionEnd line s) := by
  unfold execSeamTransactionEnd
  split
  · trivial
  · extract_lets s1 s2
    have w1 : s1.mem.wf = true := by simpa [s1] using w
    have w2 : s2.mem.wf = true := by
      simp only [s2]
      split
      · simpa using w1
      · simpa using w1
    exact whenEnabled_wf (State.seamRequests_wf w2 _)

theorem execSnoopArrival_wf {die line : Nat} {inv : Bool} : AnswerWf (execSnoopArrival die line inv s) :=
  .ite (wf_of_mem w (by simp)) (whenEnabled_wf (by simpa using w))

theorem execDirectoryRecallComplete_wf {line : Nat} : AnswerWf (execDirectoryRecallComplete line s) := by
  unfold execDirectoryRecallComplete
  split
  · trivial
  · exact whenEnabled_wf (State.seamRequests_wf (by simpa using w) _)

/-- Lines lost are poisoned, and counted. -/
theorem State.poisonLine_wf {slice line k : Nat} :
    (({ s with mem := s.mem.setPoison (line * 64) true } : State).countSlice slice k).mem.wf = true := by
  rw [State.countSlice_mem]
  exact State.setPoison_wf w _ _

theorem State.scrub_wf {a : Nat} : (s.scrub a).mem.wf = true := by
  unfold State.scrub
  extract_lets lost orphans late s0 _ s1 s2 s3 s4
  have w1 : s1.mem.wf = true := by simpa [s1, s0] using w
  have w2 : s2.mem.wf = true := foldl_wf (fun t l h => State.poisonLine_wf (ite_wf _ (by simpa using h) h)) _ w1
  have w3 : s3.mem.wf = true := foldl_wf (fun _ _ h => by simpa using h) _ w2
  have w4 : s4.mem.wf = true := foldl_wf (fun _ _ h => by simpa using h) _ w3
  exact State.seamRequests_wf w4 _

theorem State.declareDead_wf {a : Nat} : (s.declareDead a).mem.wf = true := by
  unfold State.declareDead
  extract_lets c inc s1 s2
  have w2 : s2.mem.wf = true := State.scrub_wf (by simpa [s1] using w)
  exact ite_wf _ (by simpa using w2) w2

theorem execAgentDead_wf {agent : Nat} : AnswerWf (execAgentDead agent s) :=
  .ite trivial (.ite (State.declareDead_wf w) (whenEnabled_wf (State.declareDead_wf (by simpa using w))))

theorem execCoreSnoopTimeout_wf {core : Nat} : AnswerWf (execCoreSnoopTimeout core s) := whenEnabled_wf (by simpa using w)

theorem execSeamFailure_wf {seam : Nat} : AnswerWf (execSeamFailure seam s) := whenEnabled_wf (by simpa using w)

theorem execFailoverComplete_wf : AnswerWf (execFailoverComplete s) := by
  unfold execFailoverComplete
  extract_lets failed half again written gone s1 s2 s3 down _ _ _ s4 s5
  have w2 : s2.mem.wf = true := by simpa [s2, s1] using w
  have w3 : s3.mem.wf = true := foldl_wf (fun _ _ h => State.poisonLine_wf h) _ w2
  have w5 : s5.mem.wf = true := by simpa [s5, s4] using w3
  exact whenEnabled_wf (State.seamRequests_wf w5 _)

/-! ## Host, expanders and links -/

theorem execHostSnpdata_wf {line : Nat} : AnswerWf (execHostSnpdata line s) := whenEnabled_wf (by simpa using w)

theorem execHostSnpinv_wf {line : Nat} : AnswerWf (execHostSnpinv line s) := whenEnabled_wf (by simpa using w)

theorem execHostUnsupportedRequest_wf {seam : Nat} : AnswerWf (execHostUnsupportedRequest seam s) := whenEnabled_wf (by simpa using w)

theorem execCxlCacheMemEnable_wf {cache mem : Bool} : AnswerWf (execCxlCacheMemEnable cache mem s) := whenEnabled_wf (by simpa using w)

theorem execCombiningBufferDrain_wf {line : Nat} : AnswerWf (execCombiningBufferDrain line s) := whenEnabled_wf (by simpa using w)

theorem execDynamicCapacityAdd_wf {port base size : Nat} : AnswerWf (execDynamicCapacityAdd port base size s) :=
  whenEnabled_wf (by simpa using w)

theorem execDcdReleaseRequest_wf {port base size : Nat} : AnswerWf (execDcdReleaseRequest port base size s) :=
  whenEnabled_wf (by simpa using w)

theorem execDcdReleaseComplete_wf {k : Nat} : AnswerWf (execDcdReleaseComplete k s) := by
  unfold execDcdReleaseComplete
  split
  · trivial
  · exact whenEnabled_wf (by simpa using w)

theorem execDcdForcedRelease_wf {k : Nat} : AnswerWf (execDcdForcedRelease k s) := by
  unfold execDcdForcedRelease
  split
  · trivial
  · exact foldl_wf (fun _ _ h => by simpa using h) _ (by simpa using w)

theorem execExpanderBackInvalidate_wf {port : Nat} {snoop : BackSnoop} : AnswerWf (execExpanderBackInvalidate port snoop s) :=
  whenEnabled_wf (ite_wf _ (by simpa using w) (by simpa using w))

theorem execPeerLinkFailure_wf {link : Nat} : AnswerWf (execPeerLinkFailure link s) := by
  unfold execPeerLinkFailure
  split
  · extract_lets l _ _ s1 left
    have w1 : s1.mem.wf = true := w
    exact whenEnabled_wf (ite_wf _ (foldl_wf (fun _ _ h => by simpa using h) _ w1) (by simpa using w1))
  · trivial

theorem execLinkTrained_wf {l : Link} : AnswerWf (execLinkTrained l s) := by
  cases l with
  | host seam => exact whenEnabled_wf (by simpa using w)
  | cxl p width rate dcd fabric => exact whenEnabled_wf (by simpa using w)
  | peer link node remote =>
    unfold execLinkTrained
    dsimp only
    split
    · exact whenEnabled_wf (by simpa using w)
    · trivial

theorem execLinkDown_wf {l : Link} : AnswerWf (execLinkDown l s) := by
  cases l with
  | host seam => exact whenEnabled_wf (by simpa using w)
  | cxl p width rate dcd fabric => exact whenEnabled_wf (by simpa using w)
  | peer link node remote => trivial

/-! ## Management -/

theorem execLayerFailure_wf {stack layer : Nat} : AnswerWf (execLayerFailure stack layer s) :=
  whenEnabled_wf (ite_wf _ (by simpa using w) (by simpa using w))

theorem State.loseBlocks_wf {stack : Nat} : (s.loseBlocks stack).mem.wf = true :=
  foldl_wf (fun _ _ h => State.poisonBlock_wf h) _ (by simpa [State.fresh] using w)

theorem execLayerCopyComplete_wf : AnswerWf (execLayerCopyComplete s) := by
  unfold execLayerCopyComplete
  split
  · trivial
  · rename_i r rest _
    extract_lets t falls _ _ s1 s2
    have wt : t.mem.wf = true := State.loseBlocks_wf w
    have w2 : s2.mem.wf = true := ite_wf _ (by simpa [s1] using wt) wt
    exact whenEnabled_wf (by simpa using w2)

theorem execHealthCeWindowEnd_wf : AnswerWf (execHealthCeWindowEnd s) := ite_wf _ (by simpa using w) w

theorem execDziethCoreReset_wf {core : Nat} {mapout : Bool} : AnswerWf (execDziethCoreReset core mapout s) :=
  whenEnabled_wf (by simpa using w)

theorem State.saveDeque_wf {core : Nat} : (s.saveDeque core).mem.wf = true := by
  unfold State.saveDeque
  dsimp only
  rw [State.modCore_mem]
  refine foldl_wf (fun t e h => ?_) _ w
  split
  · exact h
  · refine ite_wf _ ?_ (by simpa using h)
    rw [State.modLaunch_mem]
    exact State.ovfWrite_wf h

theorem State.drain_wf {core : Nat} : (s.drain core).mem.wf = true := foldl_wf (fun _ _ h => State.applyEntry_wf h) _ w

theorem execCoreResetRelease_wf {core : Nat} : AnswerWf (execCoreResetRelease core s) := by
  unfold execCoreResetRelease
  split
  · trivial
  · refine .ite trivial ?_
    split
    · exact State.waitLine_wf w
    · extract_lets mine s1 s2 spare s3 bar _ _ _ _ s4
      have w1 : s1.mem.wf = true := wf_of_mem (State.drain_wf (State.saveDeque_wf w)) (State.dropL1_mem _ _)
      have w2 : s2.mem.wf = true :=
        wf_of_mem (State.writeLost_wf (foldl_wf (fun _ _ h => by simpa using h) mine w1)) (State.withdrawTable_mem _ _)
      have w3 : s3.mem.wf = true := ite_wf _ w2 (ite_wf _ (by simpa using w2) (by simpa using w2))
      have w4 : s4.mem.wf = true := Memory.wf_clearScratch w3 _
      exact State.depScan_wf (by simpa using w4)

theorem State.packageReset_wf : s.packageReset.mem.wf = true := by
  unfold State.packageReset
  extract_lets r far
  exact Memory.wf_filter w far

theorem execPackageReset_wf : AnswerWf (execPackageReset s) := wf_of_mem (State.packageReset_wf w) (State.boot_mem _ _)

theorem execMbAttest_wf {seam : Nat} : AnswerWf (execMbAttest seam s) := by
  refine whenEnabled_wf ?_
  rw [State.refuseUnknown_mem]
  exact ite_wf _ (by simpa using w) (by simpa using w)

theorem execMbRecover_wf {seam : Nat} : AnswerWf (execMbRecover seam s) :=
  .ite trivial (.ite (wf_of_mem w (by simp)) (.ite (wf_of_mem w (by simp)) (wf_of_mem w (by simp))))

theorem execMbGetevent_wf {seam : Nat} : AnswerWf (execMbGetevent seam s) := by
  refine whenEnabled_wf ?_
  rw [State.refuseUnknown_mem]
  split
  · simpa using w
  · simpa using w

theorem execPowerClockGating_wf {gated : Bool} : AnswerWf (execPowerClockGating gated s) := whenEnabled_wf (by simpa using w)
end

end Sys2Proof.Machine
end

section
/-! Every instruction and every act of the world keeps memory in canonical form. -/

namespace Sys2Proof.Machine

/-! ## The instructions -/

theorem exec_wf {s : State} (w : s.mem.wf = true) (i : Instr) : AnswerWf (exec i s) := by
  match i with
  | .add _ | .sub _ | .and _ | .or _ | .xor _ | .andn _ | .orn _ | .xnor _ | .sll _ | .srl _ | .sra _ | .rol _ | .ror _ | .min _ | .max _
    | .minu _ | .maxu _ | .slt _ | .sltu _ | .seq _ | .sne _ | .selz _ | .lea _ => exact short2_wf w
  | .mul _ | .mulh _ | .mulhu _ | .div _ | .divu _ | .rem _ | .remu _ => exact long2_wf w
  | .clz _ | .ctz _ | .popc _ | .brev _ | .bswap _ | .sext _ | .zext _ | .addi _ | .andi _ | .ori _ | .xori _ | .shi _ | .slti _
    | .sltiu _ | .lhi _ => exact short1_wf w
  | .muli _ => exact long1_wf w
  | .lui _ => exact execLui_wf w
  | .lpc _ => exact execLpc_wf w
  | .leap _ => exact execLeap_wf w
  | .fadd o => exact (show AnswerWf (execFadd o s) from fpOp_wf w)
  | .fsub o => exact (show AnswerWf (execFsub o s) from fpOp_wf w)
  | .fmul o => exact (show AnswerWf (execFmul o s) from fpOp_wf w)
  | .fdiv o => exact (show AnswerWf (execFdiv o s) from fpOp_wf w)
  | .fsqrt o => exact (show AnswerWf (execFsqrt o s) from fpOp_wf w)
  | .fma o => exact (show AnswerWf (execFma o s) from fpOp_wf w)
  | .fms o => exact (show AnswerWf (execFms o s) from fpOp_wf w)
  | .fmin o => exact (show AnswerWf (execFmin o s) from fpOp_wf w)
  | .fmax o => exact (show AnswerWf (execFmax o s) from fpOp_wf w)
  | .fabs o => exact (show AnswerWf (execFabs o s) from fpOp_wf w)
  | .fneg o => exact (show AnswerWf (execFneg o s) from fpOp_wf w)
  | .fcpys o => exact (show AnswerWf (execFcpys o s) from fpOp_wf w)
  | .feq o => exact (show AnswerWf (execFeq o s) from fpOp_wf w)
  | .flt o => exact (show AnswerWf (execFlt o s) from fpOp_wf w)
  | .fle o => exact (show AnswerWf (execFle o s) from fpOp_wf w)
  | .fclass o => exact (show AnswerWf (execFclass o s) from fpOp_wf w)
  | .fcvt o => exact (show AnswerWf (execFcvt o s) from fpOp_wf w)
  | .fcvti o => exact (show AnswerWf (execFcvti o s) from fpOp_wf w)
  | .icvtf _ => exact execIcvtf_wf w
  | .fkey _ => exact execFkey_wf w
  | .fex2 _ | .flg2 _ | .frcp _ | .frsq _ | .fsin _ | .fcos _ | .ftanh _ => exact sfuOp_wf w
  | .beq _ | .bne _ | .blt _ | .bge _ | .bltu _ | .bgeu _ | .bbs _ | .bbc _ => exact branch_wf w
  | .j _ => exact execJ_wf w
  | .jal _ => exact execJal_wf w
  | .nop _ => exact execNop_wf w
  | .jr _ => exact execJr_wf w
  | .jalr _ => exact execJalr_wf w
  | .halt o => exact (show AnswerWf (execHalt o s) from execHalt_wf w)
  | .yield o => exact (show AnswerWf (execYield o s) from execYield_wf w)
  | .ldb _ | .ldh _ | .ldw _ | .ldd _ | .ldbz _ | .ldhz _ | .ldwz _ => exact plainLoad_wf w
  | .stb _ | .sth _ | .stw _ | .std _ => exact plainStore_wf w
  | .ldk _ => exact execLdk_wf w
  | .lda _ => exact execLda_wf w
  | .stl _ => exact execStl_wf w
  | .ldsc _ => exact execLdsc_wf w
  | .stsc _ => exact execStsc_wf w
  | .ldf _ | .ldfe _ => exact waitLoad_wf w
  | .stf _ => exact execStf_wf w
  | .stef _ => exact execStef_wf w
  | .sete _ => exact execSete_wf w
  | .fetst _ => exact execFetst_wf w
  | .lres _ => exact execLres_wf w
  | .scon _ => exact execScon_wf w
  | .wrs _ => exact execWrs_wf w
  | .fence _ => exact execFence_wf w
  | .aadd _ | .aand _ | .aor _ | .axor _ | .amin _ | .amax _ | .aminu _ | .amaxu _ | .aswp _ | .aaddW _ | .aandW _ | .aorW _ | .axorW _
    | .aminW _ | .amaxW _ | .aminuW _ | .amaxuW _ | .aswpW _ => exact atomic_wf w
  | .acas _ | .acasW _ => exact atomicCas_wf w
  | .aaddAgg _ => exact execAaddAgg_wf w
  | .cflush _ => exact execCflush_wf w
  | .cinv _ => exact execCinv_wf w
  | .cclean _ => exact execCclean_wf w
  | .pref _ => exact execPref_wf w
  | .wswait _ => exact execWswait_wf w
  | .sync o => exact (show AnswerWf (execSync o s) from execSync_wf w)
  | .sret o => exact (show AnswerWf (execSret o s) from execSret_wf w)
  | .work o => exact (show AnswerWf (execWork o s) from execWork_wf w)
  | .wait _ => exact execWait_wf w
  | .anch _ => exact execAnch_wf w
  | .roam _ => exact execRoam_wf w
  | .send _ => exact execSend_wf w
  | .fork _ => exact execFork_wf w
  | .qcfg _ => exact execQcfg_wf w
  | .barcfg _ => exact execBarcfg_wf w
  | .barw _ => exact execBarw_wf w
  | .bart _ => exact execBart_wf w
  | .barq _ => exact execBarq_wf w
  | .tcallr _ => exact execTcallr_wf w
  | .tret _ => exact execTret_wf w
  | .tabort _ => exact execTabort_wf w
  | .tlook _ => exact execTlook_wf w
  | .bnd _ => exact execBnd_wf w
  | .bchk _ => exact execBchk_wf w
  | .incu _ => exact execIncu_wf w
  | .incr _ => exact execIncr_wf w
  | .launch _ => exact execLaunch_wf w
  | .spawn _ => exact execSpawn_wf w
  | .tcall _ => exact execTcall_wf w
  | .sendi _ => exact execSendi_wf w
  | .forki _ => exact execForki_wf w
  | .ftest _ => exact execFtest_wf w
  | .fcancel _ => exact execFcancel_wf w
  | .movh _ => exact execMovh_wf w
  | .fwait _ => exact execFwait_wf w
  | .vadd _ | .vsub _ | .vmul _ | .vfma _ | .vmin _ | .vmax _ | .vabs _ | .vneg _ | .vcvt _ | .vcmp _ | .vsel _ | .vex2 _ | .vlg2 _
    | .vrcp _ | .vrsq _ | .vscale _ | .vmov _ | .vbcast _ => exact vecOp_wf w
  | .vred _ => exact execVred_wf w
  | .vloop _ => exact execVloop_wf w
  | .vfence _ => exact execVfence_wf w
  | .cpy _ | .cpyx _ => exact copyOp_wf w
  | .cptr _ => exact execCptr_wf w
  | .mma _ | .mmaz _ | .mst _ | .mld _ => exact matOp_wf w
  | .msync _ => exact execMsync_wf w
  | .baddq _ => exact execBaddq_wf w
  | .bqnext _ => exact execBqnext_wf w
  | .trap _ => exact execTrap_wf w
  | .eret _ => exact execEret_wf w
  | .capr _ => exact execCapr_wf w
  | .cntr _ => exact execCntr_wf w
  | .tlbi _ => exact execTlbi_wf w
  | .tflush _ => exact execTflush_wf w
  | .incinit _ => exact execIncinit_wf w
  | .idle _ => exact execIdle_wf w
  | .brk _ => exact execBrk_wf w
  | .spill _ => exact execSpill_wf w
  | .eset _ => exact execEset_wf w
  | .eget _ => exact execEget_wf w
  | .mfs _ => exact execMfs_wf w
  | .mts _ => exact execMts_wf w
  | .illegalWord _ => exact execIllegalWord_wf w
  | .mtsRotcfg o => exact (show AnswerWf (execMtsRotcfg o s) from mtsStep_wf w)
  | .mtsHbmrmvAck _ | .mtsCorerstGo _ | .errinjArmResidFirst _ | .errinjArmResidBoth _ | .errinjArmScratchUce _ | .errinjArmScratchCe _
    | .errinjArmRegDamage _ | .errinjCancel _ => exact mtsStep_wf w
  | .esetRtail _ _ | .esetRingConfig _ _ | .esetStreamReg _ _ | .esetCopyReg _ _ => exact esetStep_wf w
  | .vrsmRetry | .vrsmAssistOne | .vrsmAssistRest | .vrsmDiscard => exact vrsmStep_wf w
  | .esetBqlim _ => exact execEsetBqlim_wf w
  | .lwerrWrite _ _ => exact execLwerrWrite_wf w
  | .launchSlotWordWrite _ _ _ _ => exact execLaunchSlotWordWrite_wf w
  | .launchSlotFinalWord _ _ _ => exact execLaunchSlotFinalWord_wf w
  | .launchWindowNarrowWrite _ => exact execLaunchWindowNarrowWrite_wf w
  | .launchSlotFree _ _ => exact execLaunchSlotFree_wf w
  | .launchRecordSubmit _ _ => exact execLaunchRecordSubmit_wf w
  | .launchPlacement => exact execLaunchPlacement_wf w
  | .removedThreadReturn _ _ => exact execRemovedThreadReturn_wf w
  | .engineRelease _ => exact execEngineRelease_wf w
  | .spillEngineRun _ => exact execSpillEngineRun_wf w
  | .threadReload _ _ _ => exact execThreadReload_wf w
  | .scratchpadSave _ => exact execScratchpadSave_wf w
  | .scratchpadRestore _ _ => exact execScratchpadRestore_wf w
  | .classifierWindowEnd _ => exact execClassifierWindowEnd_wf w
  | .terminationSweep => exact execTerminationSweep_wf w
  | .ctxlostThreadStart => exact execCtxlostThreadStart_wf w
  | .supervisorThreadRestart _ => exact execSupervisorThreadRestart_wf w
  | .fetchBlock _ _ => exact execFetchBlock_wf w
  | .longResultLand _ _ _ => exact execLongResultLand_wf w
  | .storeBufferApply _ _ => exact execStoreBufferApply_wf w
  | .migrationDepart _ _ => exact execMigrationDepart_wf w
  | .threadArrival _ => exact execThreadArrival_wf w
  | .remoteWordRequest _ => exact execRemoteWordRequest_wf w
  | .tlbWalkComplete _ _ _ _ => exact execTlbWalkComplete_wf w
  | .stealRequest _ _ _ => exact execStealRequest_wf w
  | .stealReply _ _ => exact execStealReply_wf w
  | .qrxMessageArrival _ => exact execQrxMessageArrival_wf w
  | .qdnPushArrival _ => exact execQdnPushArrival_wf w
  | .barrierTimeout _ => exact execBarrierTimeout_wf w
  | .reservationLapse _ _ => exact execReservationLapse_wf w
  | .waitTimeout _ _ => exact execWaitTimeout_wf w
  | .yieldExpiry _ _ => exact execYieldExpiry_wf w
  | .syncRecheck _ _ => exact execSyncRecheck_wf w
  | .fullEmptyApply _ _ => exact execFullEmptyApply_wf w
  | .waitTableRetry _ _ => exact execWaitTableRetry_wf w
  | .aggCombine _ => exact execAggCombine_wf w
  | .hemWindowDelivery _ => exact execHemWindowDelivery_wf w
  | .incumbentUpdateApply _ => exact execIncumbentUpdateApply_wf w
  | .tableGroupClose _ => exact execTableGroupClose_wf w
  | .seamRds _ _ | .seamRdx _ _ | .seamUpg _ _ | .seamWb _ _ | .seamEvc _ _ => exact seamStep_wf w
  | .seamTransactionEnd _ => exact execSeamTransactionEnd_wf w
  | .snoopArrival _ _ _ => exact execSnoopArrival_wf w
  | .directoryRecallComplete _ => exact execDirectoryRecallComplete_wf w
  | .agentDead _ => exact execAgentDead_wf w
  | .coreSnoopTimeout _ => exact execCoreSnoopTimeout_wf w
  | .seamFailure _ => exact execSeamFailure_wf w
  | .failoverComplete => exact execFailoverComplete_wf w
  | .hostSnpdata _ => exact execHostSnpdata_wf w
  | .hostSnpinv _ => exact execHostSnpinv_wf w
  | .hostUnsupportedRequest _ => exact execHostUnsupportedRequest_wf w
  | .combiningBufferDrain _ => exact execCombiningBufferDrain_wf w
  | .dcdReleaseRequest _ _ _ => exact execDcdReleaseRequest_wf w
  | .dcdReleaseComplete _ => exact execDcdReleaseComplete_wf w
  | .dcdForcedRelease _ => exact execDcdForcedRelease_wf w
  | .peerLinkFailure _ => exact execPeerLinkFailure_wf w
  | .linkTrained _ => exact execLinkTrained_wf w
  | .linkDown _ => exact execLinkDown_wf w
  | .layerFailure _ _ => exact execLayerFailure_wf w
  | .layerCopyComplete => exact execLayerCopyComplete_wf w
  | .weightRefreshStart _ _ => exact execWeightRefreshStart_wf w
  | .weightRefreshEnd _ _ => exact execWeightRefreshEnd_wf w
  | .healthCeWindowEnd => exact execHealthCeWindowEnd_wf w
  | .dziethCoreReset _ _ => exact execDziethCoreReset_wf w
  | .coreResetRelease _ => exact execCoreResetRelease_wf w
  | .matrixOpBegin _ _ => exact execMatrixOpBegin_wf w
  | .matrixOpComplete _ => exact execMatrixOpComplete_wf w
  | .mstComplete _ => exact execMstComplete_wf w
  | .mldComplete _ => exact execMldComplete_wf w
  | .baddqComplete _ => exact execBaddqComplete_wf w
  | .vectorBodyStart _ => exact execVectorBodyStart_wf w
  | .vectorChunk _ => exact execVectorChunk_wf w
  | .vectorFaultDelivery _ _ => exact execVectorFaultDelivery_wf w
  | .sfuEntryServe _ => exact execSfuEntryServe_wf w
  | .copyBegin _ _ => exact execCopyBegin_wf w
  | .copyElementWrite _ _ => exact execCopyElementWrite_wf w
  | .copyComplete _ _ => exact execCopyComplete_wf w
  | .packageReset => exact execPackageReset_wf w
  | .mbAttest _ => exact execMbAttest_wf w
  | .mbRecover _ => exact execMbRecover_wf w
  | .mbGetevent _ => exact execMbGetevent_wf w
  | .expanderBackInvalidate _ _ => exact execExpanderBackInvalidate_wf w
  | .dynamicCapacityAdd _ _ _ => exact execDynamicCapacityAdd_wf w
  | .cxlCacheMemEnable _ _ => exact execCxlCacheMemEnable_wf w
  | .supervisorEndsLaunch _ => exact execSupervisorEndsLaunch_wf w
  | .powerClockGating _ => exact execPowerClockGating_wf w

/-! ## The world around the package -/

section
variable {s : State} (w : s.mem.wf = true)
include w

theorem State.agentWrite_wf {agent pa : Nat} {bytes : List Byte} : (s.agentWrite agent pa bytes).mem.wf = true := by
  unfold State.agentWrite
  extract_lets line s1 v s2 s3
  have w2 : s2.mem.wf = true := State.putBytes_wf (by simpa [s1] using w) _ _ _
  have w3 : s3.mem.wf = true := by simpa [s3, apply_ite State.mem] using w2
  exact ite_wf _ (by simpa using w3) w3

theorem State.takeWrite_wf {agent pa : Nat} {bytes : List Byte} : (s.takeWrite agent pa bytes).mem.wf = true :=
  ite_wf _ (State.agentWrite_wf w) (ite_wf _ w (by simpa using w))

theorem State.settleWrites_wf : s.settleWrites.mem.wf = true := by
  unfold State.settleWrites
  extract_lets step
  have hstep (x : State × List Nat) (y : Nat × Nat × List Byte) (h : x.1.mem.wf = true) : (step x y).1.mem.wf = true := by
    obtain ⟨t, held⟩ := x
    simp only [step]
    split
    · exact h
    · split
      · split
        · exact h
        · rw [State.seamRequest_mem]
          exact h
      · exact State.agentWrite_wf h
  exact foldl_inv (fun x : State × List Nat => x.1.mem.wf = true) step hstep _ (_, []) w

omit w in
theorem State.fillWeight_wf {die : Nat} (n : Nat) :
    ∀ {s : State} {off pa : Nat}, s.mem.wf = true → (s.fillWeight die off pa n).mem.wf = true := by
  induction n with
  | zero => exact fun w => w
  | succ n ih =>
    intro s off pa w
    unfold State.fillWeight
    extract_lets key bytes _ m1 m2
    have h1 : m1.wf = true := Memory.wf_bytes w (cellsFrom_writeList _ _ _ ((Memory.wf_iff _).1 w).1)
    have h2 : m2.wf = true := foldl_inv (fun m : Memory => m.wf = true) _ (fun _ _ h => Memory.wf_setPoison h _ _) _ _ h1
    exact ih h2

theorem State.hostAct_wf {a : HostAct} : AnswerWf (s.hostAct a) := by
  cases a with
  | write agent pa bytes => exact whenEnabled_wf (State.takeWrite_wf w)
  | late agent line => exact whenEnabled_wf (by simpa using w)
  | takeMsix seam => exact whenEnabled_wf (by simpa using w)
  | mbData seam off bytes => exact whenEnabled_wf (by simpa using w)
  | mbCmd seam cmd => exact whenEnabled_wf (by simpa using w)
  | node n => exact whenEnabled_wf (by simpa using w)
  | weightTenant die tenant => exact whenEnabled_wf (by simpa using w)
  | weightCopy die off pa n => exact whenEnabled_wf (State.fillWeight_wf n w)

theorem State.dramError_wf {block errors : Nat} : (s.dramError block errors).mem.wf = true :=
  ite_wf _ (by simpa using w) (State.poisonBlock_wf w)

/-- A word upset: corrected, or poisoned. -/
theorem State.upsetWord_wf {a : Nat} {c : Bool} :
    ((if c then s else { s with mem := s.mem.setPoison a true } : State).countError c).mem.wf = true := by
  rw [State.countError_mem]
  exact ite_wf _ w (State.setPoison_wf w _ _)

theorem State.upset_wf {u : Upset} : AnswerWf (s.upset u) := by
  cases u with
  | dram block errors => exact whenEnabled_wf (State.dramError_wf w)
  | line line corrected => exact whenEnabled_wf (State.upsetWord_wf w)
  | word key corrected => exact whenEnabled_wf (State.upsetWord_wf w)
  | frame core frame word corrected => exact whenEnabled_wf (by simpa [apply_ite State.mem] using w)
  | store core k corrected => exact whenEnabled_wf (by simpa [apply_ite State.mem] using w)
  | deque core k corrected =>
    unfold State.upset
    dsimp only
    split
    · trivial
    · exact wf_of_mem w (by simp [apply_ite State.mem])
  | answer k corrected =>
    unfold State.upset
    dsimp only
    split
    · trivial
    · exact wf_of_mem w (by simp [apply_ite State.mem])
  | incumbent k corrected => exact whenEnabled_wf (by simpa using w)
  | context k =>
    unfold State.upset
    dsimp only
    split
    · trivial
    · exact wf_of_mem w (by simp)

/-! ## The step -/

theorem State.runWord_wf : AnswerWf s.runWord := by
  unfold State.runWord
  split
  · exact withThread_wf (by simpa using w)
  · split
    · exact exec_wf w _
    · exact execIllegalWord_wf w

theorem State.issue_wf : AnswerWf s.issue :=
  .ite (execVectorFaultDelivery_wf (by simpa using w)) (.ite (wf_of_mem w (by simp)) (State.runWord_wf (by simpa using w)))

theorem State.issueCore_wf : ∀ a ∈ s.issueCore, AnswerWf a := by
  intro a ha
  obtain ⟨t, -, rfl⟩ := Option.map_eq_some_iff.1 ha
  exact State.issue_wf (by simpa using w)

theorem State.issueOther_wf (l : List Nat) : ∀ a ∈ s.issueOther l, AnswerWf a := by
  induction l with
  | nil => simp [State.issueOther]
  | cons n r ih =>
    intro a ha
    have h : ∀ a ∈ (s.focusCore n).issueCore, AnswerWf a := State.issueCore_wf (by simpa using w)
    unfold State.issueOther at ha
    split at ha
    · rename_i b e
      obtain rfl := Option.some.inj ha
      exact h _ e
    · exact ih a ha

omit w in
theorem State.firstStep_wf (l : List Move) (hl : ∀ m ∈ l, AnswerWf (m s)) : ∀ t ∈ s.firstStep l, t.mem.wf = true := by
  induction l with
  | nil => simp [State.firstStep]
  | cons m r ih =>
    intro t ht
    have hm := hl m (List.mem_cons_self ..)
    unfold State.firstStep at ht
    split at ht
    · rename_i e
      obtain rfl := Option.some.inj ht
      rw [e] at hm
      exact hm
    · exact ih (fun x hx => hl x (List.mem_cons_of_mem _ hx)) t ht
end

end Sys2Proof.Machine
end

section
/-! A step keeps memory in canonical form (O6). -/

namespace Sys2Proof.Machine

/-! ## What may stand ready, and time -/

/-- A step that keeps memory in canonical form wherever it is taken. -/
def Keeps (m : Move) : Prop := ∀ s : State, s.mem.wf = true → AnswerWf (m s)

theorem Keeps.ite {c : Prop} [Decidable c] {l : List Move} (h : ∀ m ∈ l, Keeps m) : ∀ m ∈ (if c then l else []), Keeps m := by
  split
  · exact h
  · simp

theorem Keeps.unless {c : Prop} [Decidable c] {l : List Move} (h : ∀ m ∈ l, Keeps m) : ∀ m ∈ (if c then [] else l), Keeps m := by
  split
  · simp
  · exact h

theorem Keeps.nil : ∀ m ∈ ([] : List Move), Keeps m := List.forall_mem_nil _

theorem Keeps.cons {m : Move} {l : List Move} (h : Keeps m) (hl : ∀ m ∈ l, Keeps m) : ∀ x ∈ m :: l, Keeps x :=
  List.forall_mem_cons.2 ⟨h, hl⟩

theorem Keeps.one {m : Move} (h : Keeps m) : ∀ x ∈ [m], Keeps x := Keeps.cons h Keeps.nil

theorem Keeps.append {l r : List Move} (hl : ∀ m ∈ l, Keeps m) (hr : ∀ m ∈ r, Keeps m) : ∀ m ∈ l ++ r, Keeps m :=
  List.forall_mem_append.2 ⟨hl, hr⟩

theorem Keeps.map {β : Type} {f : β → Move} {l : List β} (h : ∀ x, Keeps (f x)) : ∀ m ∈ l.map f, Keeps m :=
  List.forall_mem_map.2 fun x _ => h x

theorem Keeps.flatMap {β : Type} {f : β → List Move} {l : List β} (h : ∀ x, ∀ m ∈ f x, Keeps m) : ∀ m ∈ l.flatMap f, Keeps m := by
  intro m hm
  obtain ⟨x, -, hx⟩ := List.mem_flatMap.1 hm
  exact h x m hx

theorem Thread.steps_keep (cc : Nat) (t : Thread) : ∀ m ∈ t.steps cc, Keeps m := by
  refine .append (.append (.append (.append (.append (.append (.append ?_ ?_) ?_) ?_) ?_) ?_) ?_) ?_
  · exact .ite (.map fun _ _ w => execLongResultLand_wf w)
  · exact .ite (.one fun _ w => execMigrationDepart_wf w)
  · split
    · exact .cons (fun _ w => execStealRequest_wf w) (.one fun _ w => execStealReply_wf w)
    · exact .nil
  · split
    · exact .append (.append (.ite (.one fun _ w => execWaitTimeout_wf w)) (.ite (.one fun _ w => execSyncRecheck_wf w)))
        (.ite (.one fun _ w => execLaunchRecordSubmit_wf w))
    · exact .nil
  · exact .ite (.one fun _ w => execYieldExpiry_wf w)
  · exact .ite (.one fun _ w => execReservationLapse_wf w)
  · exact .ite (.one fun _ w => execRemovedThreadReturn_wf w)
  · exact .ite (.one fun _ w => execThreadReload_wf w)

theorem Core.steps_keep (c : Core) : ∀ m ∈ c.steps, Keeps m := by
  refine .append (.append (.append (.append (.append (.append (.append (.append (.append (.append ?_ ?_) ?_) ?_) ?_) ?_) ?_) ?_) ?_) ?_) ?_
  · exact .map fun _ _ w => execStoreBufferApply_wf w
  · exact .map fun _ _ w => execWaitTableRetry_wf w
  · exact .unless (.one fun _ w => execSfuEntryServe_wf w)
  · exact .unless (.cons (fun _ w => execVectorBodyStart_wf w) (.one fun _ w => execVectorChunk_wf w))
  · exact .flatMap fun _ => .cons (fun _ w => execCopyBegin_wf w) (.cons (fun _ w => execCopyElementWrite_wf w)
      (.one fun _ w => execCopyComplete_wf w))
  · exact .unless (.append (.cons (fun _ w => execMatrixOpComplete_wf w) (.cons (fun _ w => execMstComplete_wf w)
      (.one fun _ w => execMldComplete_wf w))) (.map fun _ _ w => execMatrixOpBegin_wf w))
  · exact .unless (.one fun _ w => execBaddqComplete_wf w)
  · exact .ite (.one fun _ w => execEngineRelease_wf w)
  · exact .map fun _ _ w => execScratchpadRestore_wf w
  · exact .ite (.one fun _ w => execCoreResetRelease_wf w)
  · exact .cons (fun _ w => execSpillEngineRun_wf w) (.one fun _ w => execScratchpadSave_wf w)

theorem State.fetchSteps_keep (s : State) : ∀ m ∈ s.fetchSteps, Keeps m := by
  intro m hm
  obtain ⟨t, -, h⟩ := List.mem_filterMap.1 hm
  obtain ⟨b, -, rfl⟩ := Option.map_eq_some_iff.1 h
  exact fun _ w => execFetchBlock_wf w

theorem State.walkSteps_keep (s : State) : ∀ m ∈ s.walkSteps, Keeps m :=
  .append (.map fun _ _ w => execTlbWalkComplete_wf w) (.map fun _ _ w => execTlbWalkComplete_wf w)

theorem State.unitSteps_keep (s : State) : ∀ m ∈ s.unitSteps, Keeps m := by
  refine .append (.append (.append (.append (.append (.append (.append (.append (.append (.append (.append (.append (.append (.append
    (.append (.append (.append (.append ?_ ?_) ?_) ?_) ?_) ?_) ?_) ?_) ?_) ?_) ?_) ?_) ?_) ?_) ?_) ?_) ?_) ?_) ?_
  · exact .map fun _ _ w => execRemoteWordRequest_wf w
  · exact .map fun _ _ w => execFullEmptyApply_wf w
  · exact .map fun _ _ w => execQrxMessageArrival_wf w
  · exact .map fun _ _ w => execQdnPushArrival_wf w
  · exact .map fun _ _ w => execThreadArrival_wf w
  · exact .map fun _ _ w => execAggCombine_wf w
  · exact .map fun _ _ w => execIncumbentUpdateApply_wf w
  · exact .unless (.map fun _ _ w => State.takeInc_wf w)
  · exact .map fun _ _ w => execTableGroupClose_wf w
  · exact .map fun _ _ w => execBarrierTimeout_wf w
  · exact .map fun _ _ w => execSnoopArrival_wf w
  · exact .flatMap fun _ => .cons (fun _ w => execSeamTransactionEnd_wf w) (.one fun _ w => execDirectoryRecallComplete_wf w)
  · exact .map fun _ _ w => execHemWindowDelivery_wf w
  · exact .map fun _ _ w => execCombiningBufferDrain_wf w
  · exact .map fun _ _ w => execDcdReleaseComplete_wf w
  · exact .ite (.one fun _ w => execFailoverComplete_wf w)
  · exact .ite (.one fun _ w => execLayerCopyComplete_wf w)
  · exact .flatMap fun _ => .cons (fun _ w => execMbAttest_wf w) (.cons (fun _ w => execMbRecover_wf w) (.one fun _ w => execMbGetevent_wf w))
  · exact .ite (.one fun _ w => execPowerClockGating_wf w)

theorem State.launcherSteps_keep (s : State) : ∀ m ∈ s.launcherSteps, Keeps m := by
  refine .append (.append (.append (.append (.append ?_ ?_) ?_) ?_) ?_) ?_
  · exact .map fun _ _ w => execLaunchSlotFree_wf w
  · exact .unless (.one fun _ w => execLaunchPlacement_wf w)
  · exact .unless (.one fun _ w => execCtxlostThreadStart_wf w)
  · exact .map fun _ _ w => execSupervisorThreadRestart_wf w
  · exact .map fun _ _ w => execClassifierWindowEnd_wf w
  · exact .ite (.one fun _ w => execTerminationSweep_wf w)

theorem State.steps_keep (s : State) : ∀ m ∈ s.steps, Keeps m := by
  unfold State.steps
  extract_lets l k
  have h : ∀ m ∈ l, Keeps m :=
    .append (.append (.append (.append (.append s.fetchSteps_keep s.walkSteps_keep) (.flatMap (Thread.steps_keep s.cc))) s.unitSteps_keep)
      (.flatMap Core.steps_keep)) s.launcherSteps_keep
  exact .append (fun m hm => h m (List.mem_of_mem_drop hm)) fun m hm => h m (List.mem_of_mem_take hm)

section
variable {s : State} (w : s.mem.wf = true)
include w

theorem State.freeRun_wf : AnswerWf s.freeRun := by
  have hp : AnswerWf (.next s.pass) := wf_of_mem w (State.pass_mem s)
  have here := State.issueCore_wf w
  have there := State.issueOther_wf w s.otherCores
  have unit : ∀ a ∈ (s.firstStep s.steps).map Host.Outcome.next, AnswerWf a := by
    intro a ha
    obtain ⟨t, ht, rfl⟩ := Option.map_eq_some_iff.1 ha
    exact State.firstStep_wf s.steps (fun m hm => s.steps_keep m hm s w) t ht
  have hget (a : Option Answer) (h : ∀ x ∈ a, AnswerWf x) : AnswerWf (a.getD (.next s.pass)) := by
    cases a with
    | none => exact hp
    | some x => exact h x rfl
  have hor (a b : Option Answer) (ha : ∀ x ∈ a, AnswerWf x) (hb : ∀ x ∈ b, AnswerWf x) : ∀ x ∈ (a <|> b), AnswerWf x := by
    cases a with
    | none => simpa using hb
    | some x => simpa using ha
  unfold State.freeRun
  dsimp only
  split
  · exact hget _ (hor _ _ (hor _ _ here unit) there)
  · exact hget _ (hor _ _ (hor _ _ unit here) there)
  · exact hget _ (hor _ _ (hor _ _ there here) unit)

theorem State.orPass_wf {a : Answer} (h : AnswerWf a) : AnswerWf (s.orPass a) := by
  unfold State.orPass
  split
  · exact w
  · exact h

theorem State.turn_wf {x : Turn} : AnswerWf (s.turn x) := by
  cases x with
  | event i => exact .ite (State.orPass_wf w (exec_wf w i)) w
  | core n =>
    unfold State.turn
    dsimp only
    have h : ∀ a ∈ (s.focusCore n).issueCore, AnswerWf a := State.issueCore_wf (by simpa using w)
    cases e : (s.focusCore n).issueCore with
    | none => exact w
    | some a => exact h a e
  | copy n => exact State.orPass_wf w (State.takeInc_wf w)
  | host a => exact State.orPass_wf w (State.hostAct_wf w)
  | upset u => exact State.orPass_wf w (State.upset_wf w)

theorem State.later_wf {s0 : State} : (s0.later s).mem.wf = true := by
  unfold State.later
  extract_lets t s1 s2
  have wt : t.mem.wf = true := ite_wf _ w (by simpa using w)
  have w1 : s1.mem.wf = true := ite_wf _ wt (State.settleWrites_wf wt)
  have w2 : s2.mem.wf = true := by
    simp only [s2]
    rw [State.countCycles_mem]
    exact ite_wf _ w1 (State.settleEcc_wf w1)
  exact State.settleIncs_wf w2

omit w in
theorem tick_wf {s0 : State} {a : Answer} (h : AnswerWf a) : AnswerWf (tick s0 a) := by
  cases a with
  | next t => exact State.later_wf h
  | fault f => trivial
  | refused r => trivial

theorem State.advance_wf : AnswerWf s.advance := by
  unfold State.advance
  split
  · exact tick_wf (State.turn_wf (by simpa using w))
  · exact tick_wf (State.freeRun_wf w)
end

/-- Settles O6: every part of a step keeps memory in its canonical form, so the step does. -/
theorem stepKeepsInv : Obligations.StepKeepsInv := by
  intro s t w h
  have hs : AnswerWf (step s) := State.advance_wf w
  rw [h] at hs
  exact hs

end Sys2Proof.Machine
end

section
/-! What reset leaves (O4, O5). -/

namespace Sys2Proof.Machine

/-- A package whose cores have all been reset lists none and keeps the first as the running one. -/
theorem State.coreOf_of_fresh {s : State} (hcore : s.core = Core.fresh 0) (hcores : s.cores = []) (n : Nat) : s.coreOf n = Core.fresh n := by
  unfold State.coreOf
  split
  · rename_i h
    rw [hcore] at h
    rw [hcore, ← h, Core.fresh_id]
  · rw [hcores]
    rfl

theorem State.coreOf_reset (n : Nat) : State.reset.coreOf n = Core.fresh n := State.coreOf_of_fresh rfl rfl n

/-- Every engine register holds 0 after reset, those the spec gives a value and those it does not. -/
theorem State.engGet_reset (n : Nat) (r : EReg) : State.reset.engGet n r = 0 := by
  unfold State.engGet
  rw [State.coreOf_reset]
  cases r with
  | stream i k =>
    change (Vector.replicate 24 (0 : Word)).toList.getD (3 * i.1 + k.1) 0 = 0
    rw [Vector.toList_replicate]
    exact List.getD_replicate _ (by omega)
  | spos i =>
    have h : (Core.fresh n).eng.spos[i] = 0 := Vector.getElem_replicate i.2
    dsimp only
    rw [h]
    rfl
  | copy c k =>
    have h : (Core.fresh n).eng.ch[c] = Channel.reset := Vector.getElem_replicate c.2
    dsimp only
    rw [h]
    fin_cases k <;> rfl
  | ring i k =>
    have h : (Core.fresh n).eng.ring[i] = Ring.reset := Vector.getElem_replicate i.2
    dsimp only
    rw [h]
    fin_cases k <;> rfl
  | _ => rfl

/-- Settles O4: each field of the reset state stands in its definition; every core is a fresh one, whose engine registers are 0. -/
theorem resetState : Obligations.ResetState := by
  refine ⟨rfl, rfl, rfl, rfl, rfl, rfl, fun n => ?_, fun n r e _ => State.engGet_reset n e, fun k => ⟨?_, ?_⟩⟩
  · rw [State.coreOf_reset]
    exact ⟨rfl, rfl, rfl, rfl, rfl⟩
  · exact Vector.getElem_replicate k.2
  · exact Vector.getElem_replicate k.2

/-- Settles O5: memory lists nothing after reset. -/
theorem resetInv : Obligations.ResetInv := Memory.wf_reset

end Sys2Proof.Machine
end

section
/-! Package reset and the mailbox (O60). -/

namespace Sys2Proof.Machine

/-! ## Package reset -/

/-- Memory kept by a test of addresses reads 0 where the test fails, whatever form it had. -/
theorem getByte_filter_of_not {p : Nat → Bool} {a : Nat} (h : p a = false) (l : List Host.Cell) : getByte (l.filter fun x => p x.1) a = 0 := by
  induction l with
  | nil => rfl
  | cons x r ih =>
    obtain ⟨k, b⟩ := x
    rw [List.filter_cons]
    split
    · rename_i hk
      have hne : a ≠ k := by
        rintro rfl
        simp [h] at hk
      simp only [getByte, if_neg hne, ih, ite_self]
    · exact ih

/-- A boot changes nothing but the management's own state. -/
theorem State.boot_eq (s : State) (image : List Byte) : ∃ m, s.boot image = { s with mgmt := m } := by
  unfold State.boot
  split
  · exact ⟨_, rfl⟩
  · exact ⟨_, rfl⟩

theorem State.packageReset_byteAt (s : State) {a : Nat} (h : a < 0x1000000000000 ∨ 0x10000000000000 ≤ a) : s.packageReset.byteAt a = 0 := by
  refine getByte_filter_of_not (p := fun a => decide (0x1000000000000 ≤ a) && decide (a < 0x10000000000000)) ?_ s.mem.bytes
  rw [Bool.and_eq_false_iff, decide_eq_false_iff_not, decide_eq_false_iff_not]
  omega

theorem execPackageReset_next (s : State) : ∃ t, exec .packageReset s = .next t ∧ t.thr.live = false ∧ t.threads = [] ∧
    t.launcher = Launcher.reset ∧ t.sys = Sys.reset ∧ t.caps.disabled = s.caps.disabled ∧ t.caps.layers = s.caps.layers ∧
    t.inc = Incumbents.reset ∧ (∀ n, t.coreOf n = Core.fresh n) ∧
    ∀ a, a < 0x1000000000000 ∨ 0x10000000000000 ≤ a → t.byteAt a = 0 := by
  obtain ⟨m, hm⟩ := s.packageReset.boot_eq s.mgmt.image
  exact ⟨{ s.packageReset with mgmt := m }, congrArg Host.Outcome.next hm, rfl, rfl, rfl, rfl, rfl, rfl, rfl,
    State.coreOf_of_fresh rfl rfl, fun a ha => s.packageReset_byteAt ha⟩

/-! ## Bytes of a number in a mailbox -/

@[simp] theorem length_bytesOf (n v : Nat) : (bytesOf n v).length = n := by
  induction n generalizing v with
  | zero => rfl
  | succ n ih => simp [bytesOf, ih]

/-- A number's bytes stored one by one are the number stored. -/
theorem writeList_bytesOf (n : Nat) : ∀ (l : List Host.Cell) (a v : Nat), writeList l a (bytesOf n v) = writeBytes l a n v := by
  induction n with
  | zero => exact fun _ _ _ => rfl
  | succ n ih => exact fun _ _ _ => ih _ _ _

theorem writeList_append (x y : List Byte) : ∀ (l : List Host.Cell) (a : Nat),
    writeList l a (x ++ y) = writeList (writeList l a x) (a + x.length) y := by
  induction x with
  | nil => exact fun _ _ => rfl
  | cons b r ih =>
    intro l a
    rw [List.length_cons, show a + (r.length + 1) = a + 1 + r.length by omega]
    exact ih _ _

/-- An event as a mailbox holds it: its code and its two words, one after the other. -/
theorem writeList_event (l : List Host.Cell) (e : Event) :
    writeList l 0 (bytesOf 2 e.code ++ bytesOf 8 e.d0.toNat ++ bytesOf 8 e.d1.toNat) =
      writeBytes (writeBytes (writeBytes l 0 2 e.code) 2 8 e.d0.toNat) 10 8 e.d1.toNat := by
  simp only [writeList_append, writeList_bytesOf, List.length_append, length_bytesOf, Nat.zero_add, Nat.reduceAdd]

theorem readBytes_event {l : List Host.Cell} (w : cellsFrom 0 l = true) (e : Event) :
    let d := writeList l 0 (bytesOf 2 e.code ++ bytesOf 8 e.d0.toNat ++ bytesOf 8 e.d1.toNat)
    readBytes d 0 2 = e.code % 2 ^ 16 ∧ readBytes d 2 8 = e.d0.toNat ∧ readBytes d 10 8 = e.d1.toNat := by
  have w1 := cellsFrom_writeBytes 2 l 0 e.code w
  have w2 := cellsFrom_writeBytes 8 _ 2 e.d0.toNat w1
  have word (x : Word) : x.toNat % 256 ^ 8 = x.toNat := Nat.mod_eq_of_lt x.isLt
  dsimp only
  rw [writeList_event]
  refine ⟨?_, ?_, ?_⟩
  · rw [readBytes_writeBytes_apart _ 0 2 10 8 _ w2 (by omega), readBytes_writeBytes_apart _ 0 2 2 8 _ w1 (by omega),
      readBytes_writeBytes 2 l 0 _ w]
    norm_num
  · rw [readBytes_writeBytes_apart _ 2 8 10 8 _ w2 (by omega), readBytes_writeBytes 8 _ 2 _ w1, word]
  · rw [readBytes_writeBytes 8 _ 10 _ w2, word]

/-! ## Mailbox commands -/

theorem State.mailbox_fin (s : State) (n : Fin 2) : s.mailbox n.1 = s.mgmt.mb[n] := by
  unfold State.mailbox
  rw [List.getD_eq_getElem _ _ (by simpa using n.2)]
  simp

/-- An answer sets the status, the length and the data of its mailbox. -/
theorem State.answer_mb (s : State) (n : Fin 2) (stat len : Nat) (data : List Host.Cell) :
    (s.answer n.1 stat len data).mgmt.mb[n] = { s.mgmt.mb[n] with stat := stat, outLen := len, data := data } := by
  have h : n.1 < 2 := n.2
  simp only [State.answer, State.modMailbox, dif_pos h]
  exact Vector.getElem_set_self h

/-- The only command in the queue leaves it with its answer. -/
theorem State.answer_mbq {s : State} {n stat len : Nat} {data : List Host.Cell} (h : s.mgmt.mbq = [n]) :
    (s.answer n stat len data).mgmt.mbq = [] := by
  simp [State.answer, State.modMailbox, h]

section
variable {s : State} {n : Fin 2} (hq : s.mgmt.mbq = [n.1])
include hq

theorem execMbGetevent_event {e : Event} {r : List Event} (hb : s.mgmt.booted = true) (hc : s.commandDue n.1 3 = true)
    (he : s.mgmt.events = e :: r) (w : cellsFrom 0 s.mgmt.mb[n].data = true) :
    ∃ t, exec (.mbGetevent n.1) s = .next t ∧ t.mgmt.mbq = [] ∧ t.mgmt.events = r ∧ t.mgmt.mb[n].stat = 2 ∧ t.mgmt.mb[n].outLen = 18 ∧
      readBytes t.mgmt.mb[n].data 0 2 = e.code % 2 ^ 16 ∧ readBytes t.mgmt.mb[n].data 2 8 = e.d0.toNat ∧
      readBytes t.mgmt.mb[n].data 10 8 = e.d1.toNat ∧ t.mem = s.mem := by
  let s1 : State := { s with mgmt := { s.mgmt with events := r } }
  obtain ⟨h0, h1, h2⟩ := readBytes_event w e
  generalize hd : writeList s.mgmt.mb[n].data 0 (bytesOf 2 e.code ++ bytesOf 8 e.d0.toNat ++ bytesOf 8 e.d1.toNat) = d at h0 h1 h2
  have ha := s1.answer_mb n 2 18 d
  have hx : exec (.mbGetevent n.1) s = .next (s1.answer n.1 2 18 d) := by
    change execMbGetevent n.1 s = _
    simp [execMbGetevent, whenEnabled, hc, hb, he, hq, State.refuseUnknown, State.mailbox_fin, s1, ← hd]
  have hm : (s1.answer n.1 2 18 d).mgmt.mb[n].data = d := congrArg Mailbox.data ha
  rw [← hm] at h0 h1 h2
  exact ⟨_, hx, State.answer_mbq (s := s1) hq, rfl, congrArg Mailbox.stat ha, congrArg Mailbox.outLen ha, h0, h1, h2, rfl⟩

theorem execMbGetevent_empty (hb : s.mgmt.booted = true) (hc : s.commandDue n.1 3 = true) (he : s.mgmt.events = []) :
    ∃ t, exec (.mbGetevent n.1) s = .next t ∧ t.mgmt.mbq = [] ∧ t.mgmt.mb[n].stat = 2 ∧ t.mgmt.mb[n].outLen = 0 ∧ t.mem = s.mem := by
  have ha := s.answer_mb n 2 0 s.mgmt.mb[n].data
  refine ⟨_, ?_, State.answer_mbq hq, congrArg Mailbox.stat ha, congrArg Mailbox.outLen ha, rfl⟩
  change execMbGetevent n.1 s = _
  simp [execMbGetevent, whenEnabled, hc, hb, he, hq, State.refuseUnknown, State.mailbox_fin]

theorem execMbAttest_below (hb : s.mgmt.booted = true) (hc : s.commandDue n.1 1 = true) (hl : s.mgmt.lms < 1048576) :
    ∃ t, exec (.mbAttest n.1) s = .next t ∧ t.mgmt.mbq = [] ∧ t.mgmt.mb[n].stat = 2 ∧ t.mgmt.lms = s.mgmt.lms + 1 ∧ t.mem = s.mem := by
  let s1 : State := { s with mgmt := { s.mgmt with lms := s.mgmt.lms + 1 } }
  let report := s.report (readList s.mgmt.mb[n].data 0 32)
  have ha := s1.answer_mb n 2 (report.length % 65536) (writeList s.mgmt.mb[n].data 0 (report.take 4096))
  refine ⟨_, ?_, State.answer_mbq (s := s1) hq, congrArg Mailbox.stat ha, rfl, rfl⟩
  change execMbAttest n.1 s = _
  simp [execMbAttest, whenEnabled, hc, hb, hl, hq, State.refuseUnknown, State.mailbox_fin, s1, report]

theorem execMbAttest_spent (hb : s.mgmt.booted = true) (hc : s.commandDue n.1 1 = true) (hl : 1048576 ≤ s.mgmt.lms) :
    ∃ t, exec (.mbAttest n.1) s = .next t ∧ t.mgmt.mbq = [] ∧ t.mgmt.mb[n].stat = 3 ∧ t.mgmt.lms = s.mgmt.lms ∧ t.mem = s.mem := by
  have ha := s.answer_mb n 3 0 s.mgmt.mb[n].data
  refine ⟨_, ?_, State.answer_mbq hq, congrArg Mailbox.stat ha, rfl, rfl⟩
  change execMbAttest n.1 s = _
  simp [execMbAttest, whenEnabled, hc, hb, hl, hq, State.refuseUnknown, State.mailbox_fin]

theorem execMbRecover_booted (hb : s.mgmt.booted = true) (hc : s.commandDue n.1 2 = true) :
    ∃ t, exec (.mbRecover n.1) s = .next t ∧ t.mgmt.mbq = [] ∧ t.mgmt.mb[n].stat = 3 ∧ t.mgmt.image = s.mgmt.image ∧ t.mem = s.mem := by
  have ha := s.answer_mb n 3 0 s.mgmt.mb[n].data
  refine ⟨_, ?_, State.answer_mbq hq, congrArg Mailbox.stat ha, rfl, rfl⟩
  change execMbRecover n.1 s = _
  simp [execMbRecover, hc, hb, hq, State.refuseUnknown, State.mailbox_fin]

/-- A piece of an image is taken in, and its command answered with status 2. -/
theorem execMbRecover_takes (hb : s.mgmt.booted = false) (hc : s.commandDue n.1 2 = true)
    (hn : 0 < s.mgmt.mb[n].cmd.toNat / 2 ^ 16 % 2 ^ 16) :
    ∃ taken, execMbRecover n.1 s =
      .next (({ s with mgmt := { s.mgmt with recover := taken } } : State).answer n.1 2 0 s.mgmt.mb[n].data) := by
  have hq' : s.mgmt.mbq.drop 1 = [] := by rw [hq, List.drop_one, List.tail_cons]
  have hlen : min (fieldOf s.mgmt.mb[n].cmd 16 16) 4096 ≠ 0 := by
    have : 0 < fieldOf s.mgmt.mb[n].cmd 16 16 := hn
    omega
  unfold execMbRecover
  rw [State.mailbox_fin]
  extract_lets m k off next
  rw [if_neg (by simp [hc]), if_neg (by simp [hb]), if_neg hlen]
  simp only [next, hq', State.refuseUnknown]
  exact ⟨_, rfl⟩

theorem execMbRecover_piece (hb : s.mgmt.booted = false) (hc : s.commandDue n.1 2 = true)
    (hn : 0 < s.mgmt.mb[n].cmd.toNat / 2 ^ 16 % 2 ^ 16) :
    ∃ t, exec (.mbRecover n.1) s = .next t ∧ t.mgmt.mbq = [] ∧ t.mgmt.mb[n].stat = 2 ∧ t.mgmt.image = s.mgmt.image ∧
      t.mgmt.booted = false ∧ t.mem = s.mem := by
  obtain ⟨taken, hx⟩ := execMbRecover_takes hq hb hc hn
  let s1 : State := { s with mgmt := { s.mgmt with recover := taken } }
  have ha := s1.answer_mb n 2 0 s.mgmt.mb[n].data
  exact ⟨_, hx, State.answer_mbq (s := s1) hq, congrArg Mailbox.stat ha, rfl, hb, rfl⟩
end

/-- Settles O60: the package reset from the reset state it copies, each command from its answer. -/
theorem resetAndMailbox : Obligations.ResetAndMailbox :=
  ⟨execPackageReset_next, fun _ _ hq =>
    ⟨fun hb =>
      ⟨fun hc => ⟨fun _ _ he w => execMbGetevent_event hq hb hc he w, execMbGetevent_empty hq hb hc⟩,
        fun hc => ⟨execMbAttest_below hq hb hc, execMbAttest_spent hq hb hc⟩,
        execMbRecover_booted hq hb⟩,
      execMbRecover_piece hq⟩⟩

end Sys2Proof.Machine
end

section
/-! SEND, SENDI and the arrival of words (O26). -/

namespace Sys2Proof.Machine

/-- SEND refuses a place that resolves to no core of the launch (R359). -/
theorem State.sendTo_noPlace (s0 s : State) (sw : Bool) (v p : Word) (h : s.placeOf p = none) :
    s0.sendTo s sw v p = s0.trap (placeTrap p) := by
  simp [State.sendTo, h]

/-- The message of a SEND of the issuing thread. -/
def State.sendMsg (s : State) (c : Nat) (v : Word) : Msg :=
  ⟨s.core.id, s.thr.frame, s.thr.launch, s.thr.idx, c, v, s.core.sbNum, s.thr.seq⟩

/-- SEND to a core that takes words: one message more under way, and the next instruction (R65, R359). -/
theorem State.sendTo_room (s0 s : State) (sw : Bool) (v p : Word) {c : Nat} (h : s.placeOf p = some c)
    (hr : (s.coreOf c).reset = none) (hq : s.qrxRoom c = true) :
    (s0.sendTo s sw v p).net.sends = s.net.sends ++ [s.sendMsg c v] ∧ (s0.sendTo s sw v p).thr.pc = s.thr.pc + 4 ∧
      (s0.sendTo s sw v p).thr.g = s.thr.g ∧ (s0.sendTo s sw v p).mem = s.mem ∧ (s0.sendTo s sw v p).core = s.core := by
  simp [State.sendTo, h, hr, hq, State.sendMsg]

/-- SEND and SENDI come to one thing once their operands are read. -/
theorem exec_send_reads {i : Instr} {sw : Bool} {srcs : List Src} {s s1 : State} {vs : List Word} {v p : Word}
    (h : (∃ o : S2, i = .send o ∧ sw = o.sw ∧ srcs = [o.a, o.b] ∧ vs = [v, p]) ∨
      (∃ o : SendiOp, i = .sendi o ∧ sw = o.sw ∧ srcs = [o.a] ∧ vs = [v] ∧ p = o.p.setWidth 64))
    (hl : s.thr.live = true) (hr : s.reads srcs .gz = some (s1, vs)) : exec i s = .next (s.sendTo s1 sw v p) := by
  obtain ⟨o, rfl, rfl, rfl, rfl⟩ | ⟨o, rfl, rfl, rfl, rfl, rfl⟩ := h
  · change execSend o s = _
    rw [execSend, withThread_live _ _ hl, State.gather2_reads _ hr]
  · change execSendi o s = _
    rw [execSendi, withThread_live _ _ hl, State.gather1_reads _ hr]

/-- A thread changed leaves every core as it is. -/
@[simp] theorem State.coreOf_modThread (s : State) (n k c : Nat) (f : Thread → Thread) : (s.modThread n k f).coreOf c = s.coreOf c := rfl

/-- A core changed by a word that enters it, and its owner with it. -/
def State.enterQueue (s : State) (n : Nat) (f : Core → Core) (g : Thread → Thread) : State :=
  match ((s.modCore n f).coreOf n).qOwner with
  | none => s.modCore n f
  | some k => (s.modCore n f).modThread n k g

@[simp] theorem State.enterQueue_net (s : State) (n : Nat) (f : Core → Core) (g : Thread → Thread) : (s.enterQueue n f g).net = s.net := by
  unfold State.enterQueue; split <;> simp

@[simp] theorem State.enterQueue_mem (s : State) (n : Nat) (f : Core → Core) (g : Thread → Thread) : (s.enterQueue n f g).mem = s.mem := by
  unfold State.enterQueue; split <;> simp

theorem State.coreOf_enterQueue (s : State) (n k : Nat) (f : Core → Core) (g : Thread → Thread) (h : ∀ c, (f c).id = c.id) :
    (s.enterQueue n f g).coreOf k = if k = n then f (s.coreOf n) else s.coreOf k := by
  unfold State.enterQueue; split <;> simp [State.coreOf_modCore _ _ _ _ h]

/-- The only word under way to a qrx arrives there (R65). -/
theorem execQrxMessageArrival_one (s : State) (m : Msg) (h : s.net.sends = [m]) (hr : s.msgReady [] m = true) :
    execQrxMessageArrival 0 s = .next (({ s with net := { s.net with sends := [] } }.recvd m.launch m.target).enterQueue m.target
      (fun c => { c with qrx := c.qrx ++ [m.word] })
      fun t => if t.park.any (fun p : Park => p.code == 9) then t.endWait s.cc else t.wakeQueue 18) := by
  simp only [execQrxMessageArrival, State.enterQueue, h, List.getElem?_cons_zero, List.take_zero, hr, Bool.not_true, Bool.false_eq_true,
    if_false, List.eraseIdx_cons_zero]
  split <;> simp only [*]

/-- The only word under way to a qup arrives there (R64). -/
theorem execQdnPushArrival_one (s : State) (m : Msg) (h : s.net.pushes = [m]) (hr : s.msgReady [] m = true) :
    execQdnPushArrival 0 s = .next (({ s with net := { s.net with pushes := [] } }.recvd m.launch m.target).enterQueue m.target
      (fun c => { c with qup := c.qup ++ [m.word] }) fun t => t.wakeQueue 16) := by
  simp only [execQdnPushArrival, State.enterQueue, h, List.getElem?_cons_zero, List.take_zero, hr, Bool.not_true, Bool.false_eq_true,
    if_false, List.eraseIdx_cons_zero]
  split <;> simp only [*]

/-- A message counted received, and the words under way, are no part of a core. -/
theorem State.coreOf_recvd_net (s : State) (x : Net) (l n k : Nat) : (({ s with net := x } : State).recvd l n).coreOf k = s.coreOf k := rfl

/-- Settles O26: SEND and SENDI by the place they name, and each arrival by what enters its queue. -/
theorem messages : Obligations.Messages := by
  refine ⟨fun i sw srcs s s1 vs v p h hl hr => ?_, fun s m h hr => ?_, fun s m h hr => ?_⟩
  · rw [exec_send_reads h hl hr]
    refine ⟨fun c hp h0 hq => ?_, fun hp => by rw [State.sendTo_noPlace _ _ _ _ _ hp]; rfl⟩
    obtain ⟨hs, hpc, hg, hm, hc⟩ := State.sendTo_room s s1 sw v p hp h0 hq
    exact ⟨_, _, rfl, hs, rfl, rfl, rfl, rfl, hpc, hg, hm, hc⟩
  · refine ⟨_, execQrxMessageArrival_one s m h hr, by simp, ?_, by simp, fun n hn => ?_⟩
    · rw [State.coreOf_enterQueue, if_pos rfl, State.coreOf_recvd_net]; exact fun _ => rfl
    · rw [State.coreOf_enterQueue, if_neg hn, State.coreOf_recvd_net]; exact fun _ => rfl
  · refine ⟨_, execQdnPushArrival_one s m h hr, by simp, ?_, by simp, fun n hn => ?_⟩
    · rw [State.coreOf_enterQueue, if_pos rfl, State.coreOf_recvd_net]; exact fun _ => rfl
    · rw [State.coreOf_enterQueue, if_neg hn, State.coreOf_recvd_net]; exact fun _ => rfl

end Sys2Proof.Machine
end

section
/-! CNTR and CAPR (O49). -/

namespace Sys2Proof.Machine

/-! ## Counters (R341) -/

/-- A counter whose source counts no time the model leaves out is read as it stands. -/
theorem Counter.read_untimed {timed : Nat → Bool} {c : Counter} (free : Nat) (h : timed (c.sel.toNat % 1024) = false) :
    c.read timed free = c := by
  have h' : timed (fieldOf c.sel 0 10) = false := by simpa [fieldOf, bits] using h
  simp [Counter.read, h']

/-- Counter n of a bank, once it has been read, where its source counts no such time. -/
theorem getD_set_read {timed : Nat → Bool} (v : Vector Counter 8) (n : Fin 8) (free : Nat)
    (h : timed (v[n].sel.toNat % 1024) = false) :
    ((v.set! n.1 ((v.toList.getD n.1 Counter.reset).read timed free)).toList.getD n.1 Counter.reset) = v[n] := by
  have hv : v.toList.getD n.1 Counter.reset = v[n] := by simp [List.getD_eq_getElem?_getD]
  rw [hv, Counter.read_untimed free h]
  simp [List.getD_eq_getElem?_getD]

/-- What CNTR answers: a result at the thread's next word, whose value is 0 for unit 3 and the counter for unit 0 (R341). -/
theorem execCntr_finishes {o : R2} {s s1 : State} {a : Word} (hl : s.thr.live = true) (hr : s.readsLong [o.a] o.d = some (s1, [a])) :
    ∃ (u : State) (v : Word), exec (.cntr o) s = .next (u.finishLong o.sw o.d (Pending.ofVal v 0)) ∧ u.thr = s1.thr ∧ u.mem = s1.mem ∧
      (a.toNat / 8 % 4 = 3 → v = 0) ∧
      ∀ n : Fin 8, n.1 = a.toNat % 8 → a.toNat / 8 % 4 = 0 → coreTimed (s1.core.cnt[n].sel.toNat % 1024) = false →
        v = s1.core.cnt[n].cnt.setWidth 64 := by
  change ∃ u v, execCntr o s = _ ∧ _
  rw [execCntr, withThread_live _ _ hl, State.long1_reads _ hr]
  dsimp only [State.fresh]
  have hu : fieldOf a 3 2 = a.toNat / 8 % 4 := rfl
  rw [hu]
  split
  case h_1 h0 =>
    refine ⟨_, _, rfl, rfl, rfl, fun h3 => by omega, fun n hn _ ht => ?_⟩
    rw [← hn, getD_set_read _ _ _ ht]
  case h_2 h1 => exact ⟨_, _, rfl, rfl, rfl, fun h3 => by omega, fun n _ h0 => by omega⟩
  case h_3 h2 =>
    split
    · exact ⟨_, _, rfl, rfl, rfl, fun h3 => by omega, fun n _ h0 => by omega⟩
    · exact ⟨_, _, rfl, rfl, rfl, fun h3 => by omega, fun n _ h0 => by omega⟩
  case h_4 h0 _ _ => exact ⟨_, _, rfl, rfl, rfl, fun _ => rfl, fun n _ h => absurd h h0⟩

/-! ## The capability list (R32-R35, R340) -/

/-- The list begins with the header of record 1 (R32, R33; log 4). -/
theorem State.capFrom_zero (s : State) : (s.capFrom 0 0 capRecords).toNat % 2 ^ 16 = 1 := by
  simp [State.capFrom, capRecords]

/-- The word at 24 is word 3 of record 1: the enabled cores of die 0 (R35; log 4). -/
theorem State.capFrom_cores (s : State) : s.capFrom 24 0 capRecords = BitVec.ofNat 64 (ofBits ((List.range 64).map fun n => s.enabled n)) := by
  simp [State.capFrom, capRecords, State.capField, State.capCores]

/-- A number from n bits has n bits. -/
theorem ofBits_lt (l : List Bool) : ofBits l < 2 ^ l.length := by
  induction l with
  | nil => simp [ofBits]
  | cons b r ih =>
    have h : ofBits (b :: r) = 2 * ofBits r + (if b then 1 else 0) := rfl
    rw [h, List.length_cons, Nat.pow_succ]
    split <;> omega

/-- CAPR of a misaligned offset, and of a word (R340). -/
theorem execCapr_reads {o : R2} {s s1 : State} {a : Word} (hl : s.thr.live = true) (hr : s.readsLong [o.a] o.d = some (s1, [a])) :
    exec (.capr o) s = .next (if a.toNat % 8 ≠ 0 then s.trap (cause cALIGN a)
      else s1.finishLong o.sw o.d (Pending.ofVal (if 0x1000 ≤ a.toNat then 0 else s1.capFrom a.toNat 0 capRecords) 0)) := by
  change execCapr o s = _
  rw [execCapr, withThread_live _ _ hl, State.long1_reads _ hr]

/-- Settles O49: CNTR by the unit its operand names, CAPR by the offset. -/
theorem countersAndCapabilities : Obligations.CountersAndCapabilities := by
  refine ⟨fun o s s1 a hl hr => ?_, fun o s s1 a hl hr => ⟨fun ha => ?_, fun ha => ?_⟩⟩
  · obtain ⟨u, v, hx, ht, hm, h3, h0⟩ := execCntr_finishes hl hr
    refine ⟨_, hx, by simp [ht], by simp [ht], by simp [hm], fun h => ?_, fun n hn hu hc => ?_⟩
    · rw [State.finishLong_last, h3 h]; rfl
    · rw [State.finishLong_last, h0 n hn hu hc]; rfl
  · rw [execCapr_reads hl hr, if_pos ha]
  · rw [execCapr_reads hl hr, if_neg (not_not.2 ha)]
    refine ⟨_, rfl, fun h => if_pos h, fun h => ?_, fun h => ?_⟩
    · subst h; exact s1.capFrom_zero
    · have hlt := ofBits_lt ((List.range 64).map fun n => s1.enabled n)
      rw [List.length_map, List.length_range] at hlt
      rw [if_neg (by omega), h, State.capFrom_cores, BitVec.toNat_ofNat, Nat.mod_eq_of_lt hlt]

end Sys2Proof.Machine
end

section
/-! Reading operands and making an access, where either stops the instruction, and what a translation marks in memory. -/

namespace Sys2Proof.Machine

/-! ## Operands -/

/-- Operands that can be read leave memory as it is. -/
theorem State.readsOf_mem {s s1 : State} {short : Bool} {srcs : List Src} {d : Dst} {vs : List Word}
    (h : s.readsOf short srcs d = some (s1, vs)) : s1.mem = s.mem := by
  have hg := State.gather_keeps (fun m => m = s.mem) s short srcs d (fun t _ => t) rfl fun _ _ ht => ht
  rwa [State.gatherOf_reads _ h] at hg

/-- Where an operand traps or waits, no later part of the instruction shows in memory. -/
theorem State.gatherOf_stops {s : State} {short : Bool} {srcs : List Src} {d : Dst} (k : State → List Word → State)
    (h : s.readsOf short srcs d = none) : (s.gatherOf short srcs d k).mem = s.mem := by
  have hc := State.check_mem s srcs s rfl
  unfold State.readsOf at h
  unfold State.gatherOf
  cases hq : s.queueTrap srcs d with
  | some ti => simp
  | none =>
    cases h19 : s.thr.damage.contains 19
    case true => simp
    cases h20 : s.thr.damage.contains 20
    case true => simp
    simp only [hq, h19, h20, Option.isSome_none, Bool.or_false, Bool.false_eq_true, if_false] at h ⊢
    cases ht : s.check s srcs with
    | error t => rw [ht] at hc; exact hc
    | ok t =>
      simp only [ht] at h ⊢
      split at h
      · rename_i hn
        split
        · simp
        · split
          · simp
          · rw [if_pos (by simp_all)]; simp
      · simp at h

/-! ## Accesses (R309) -/

/-- A trap of the access is taken from the state before it, where no walk must come first. -/
theorem State.withAccess_error {s0 s : State} {a : Word} {acc : Acc} {rd wr : Bool} {ti : TrapInfo} (k : State → Loc → State)
    (hm : ((acc.memory || acc.peers) && s.mustWalk s.thr a acc.width) = false) (h : s.access s.thr a acc = .error ti) :
    s0.withAccess s a acc rd wr k = s0.trap ti := by
  simp [State.withAccess, hm, h]

/-- A watched address of an access that has passed its checks (R337). -/
theorem State.withAccess_watched {s0 s : State} {a : Word} {acc : Acc} {rd wr : Bool} {p : Loc × Option Xlate} (k : State → Loc → State)
    (hm : ((acc.memory || acc.peers) && s.mustWalk s.thr a acc.width) = false) (h : s.access s.thr a acc = .ok p)
    (hw : s.watched a rd wr = true) : s0.withAccess s a acc rd wr k = s0.trap ⟨cWATCH, wr, false, a⟩ := by
  simp [State.withAccess, hm, h, hw]

/-- Where the access traps or waits, no later part of the instruction shows in memory. -/
theorem State.withAccess_stops {s0 s : State} {a : Word} {acc : Acc} {rd wr : Bool} (k : State → Loc → State)
    (h : s.accessed a acc rd wr = none) : (s0.withAccess s a acc rd wr k).mem = s0.mem := by
  unfold State.accessed at h
  unfold State.withAccess
  cases hm : (acc.memory || acc.peers) && s.mustWalk s.thr a acc.width
  case true => simp
  simp only [hm, Bool.false_eq_true, if_false] at h ⊢
  rcases hx : s.access s.thr a acc with ti | ⟨l, x⟩
  · simp
  simp only [hx, ite_eq_left_iff, reduceCtorEq, imp_false, not_not] at h
  dsimp only
  cases hw : s.watched a rd wr
  case true => simp
  cases hb : s.behindAcquire s.thr (wr || !rd)
  case true => simp
  simp only [hw, hb, Bool.false_or] at h
  exact (congrArg State.mem (if_pos h)).trans (by simp)

/-! ## Marks of a translation (R118) -/

/-- Entries marked one after another: every byte outside them stands. -/
theorem getByte_foldl_orEntry (bit b : Nat) (as : List Nat) : ∀ l : List Host.Cell, cellsFrom 0 l = true → (∀ x ∈ as, b < x ∨ x + 8 ≤ b) →
    getByte (as.foldl (fun l a => orEntry l a bit) l) b = getByte l b := by
  induction as with
  | nil => exact fun _ _ _ => rfl
  | cons a r ih =>
    intro l w h
    rw [List.foldl_cons, ih _ (cellsFrom_orEntry l a bit w) fun x hx => h x (List.mem_cons_of_mem _ hx),
      getByte_orEntry l a bit b w (h a (List.mem_cons_self ..))]

/-- A translation writes no byte but in the entry it uses and those it has walked. -/
theorem State.touch_byteAt {s : State} (w : s.Inv) (core : Nat) (ctx : Option Nat) (x : Xlate) (store : Bool) (launch b : Nat)
    (h : ∀ y ∈ x.at_ :: x.walked, b < y ∨ y + 8 ≤ b) : (s.touch core ctx x store launch).byteAt b = s.byteAt b := by
  have hc : cellsFrom 0 s.mem.bytes = true := ((Memory.wf_iff _).1 w).1
  obtain ⟨hat, hwalked⟩ := List.forall_mem_cons.1 h
  have h1 := getByte_foldl_orEntry 1024 b x.walked s.mem.bytes hc hwalked
  have hc1 : cellsFrom 0 (x.walked.foldl (fun l a => orEntry l a 1024) s.mem.bytes) = true :=
    foldl_inv (fun l => cellsFrom 0 l = true) _ (fun l a h => cellsFrom_orEntry l a 1024 h) _ _ hc
  have h2 := getByte_orEntry _ x.at_ 2048 b hc1 hat
  have hm : (if x.walked.isEmpty then (if x.l1 then s else s.countCore core 0x016 launch)
      else (if x.l1 then s else s.countCore core 0x016 launch).countCluster (clusterOf core) 0x108 launch).mem = s.mem := by
    split <;> split <;> simp
  unfold State.touch State.fillTlb State.byteAt
  dsimp only
  rw [hm]
  split
  · rw [hm]
  · split <;> simp only [State.modCluster_mem, State.modCore_mem] <;> split
    exacts [h2.trans h1, h1, h2.trans h1, h1]

/-- A translation is what the TLBs or the walk give. -/
theorem State.translate_lookup {s : State} {t : Thread} {va pa : Nat} {kind : XKind} {x : Xlate} {p : Place}
    (h : s.translate t va kind = .ok (x, pa, p)) : s.lookup t.core (s.tableOf t) va = .ok x := by
  unfold State.translate at h
  cases hx : s.lookup t.core (s.tableOf t) va with
  | error c => simp [hx] at h
  | ok y =>
    simp only [hx] at h
    split at h
    · simp at h
    · split at h
      · simp at h
      · cases h; rfl

/-- What is not refused passes. -/
theorem ok_of_ite_error {ε α : Type} {c : Prop} [Decidable c] {e : ε} {r : Except ε α} {v : α}
    (h : (if c then .error e else r) = .ok v) : r = .ok v := by
  split at h
  · cases h
  · exact h

/-- The translation of an access that passes its checks is that of its page. -/
theorem State.access_lookup {s : State} {t : Thread} {a : Word} {acc : Acc} {l : Loc} {x : Xlate}
    (h : s.access t a acc = .ok (l, some x)) : s.lookup t.core (s.tableOf t) a.toNat = .ok x := by
  unfold State.access at h
  dsimp only at h
  replace h := ok_of_ite_error h
  replace h := ok_of_ite_error h
  obtain ⟨-, h⟩ | ⟨-, h⟩ := ite_eq_iff.1 h
  · cases ok_of_ite_error h
  obtain ⟨-, h⟩ | ⟨-, h⟩ := ite_eq_iff.1 h
  · cases ok_of_ite_error (ok_of_ite_error h)
  obtain ⟨-, h⟩ | ⟨-, h⟩ := ite_eq_iff.1 h
  · cases ok_of_ite_error (ok_of_ite_error (ok_of_ite_error (ok_of_ite_error h)))
  obtain ⟨-, h⟩ | ⟨-, h⟩ := ite_eq_iff.1 h
  · split at h
    · rename_i ht
      obtain ⟨-, h⟩ | ⟨-, h⟩ := ite_eq_iff.1 h
      · cases h; exact State.translate_lookup ht
      · cases h
    · cases h
  · split at h
    · cases h
    · rename_i ht
      cases h; exact State.translate_lookup ht

/-- The two ways an access passes its checks (R309): with no page, or with the marks of its translation. -/
theorem State.accessed_cases {s t : State} {a : Word} {acc : Acc} {rd wr : Bool} {l : Loc} (h : s.accessed a acc rd wr = some (t, l)) :
    (s.access s.thr a acc = .ok (l, none) ∧ t = s.modThr Thread.pass) ∨
      ∃ x, s.access s.thr a acc = .ok (l, some x) ∧ t = (s.modThr Thread.pass).touch (s.modThr Thread.pass).core.id
        ((s.modThr Thread.pass).tableOf (s.modThr Thread.pass).thr) x acc.w (s.modThr Thread.pass).thr.launch := by
  unfold State.accessed at h
  rw [Option.ite_none_left_eq_some] at h
  obtain ⟨-, h⟩ := h
  rcases hx : s.access s.thr a acc with ti | ⟨m, x⟩
  · simp [hx] at h
  simp only [hx, Option.ite_none_left_eq_some, Option.some.injEq] at h
  obtain ⟨-, h⟩ := h
  cases x with
  | none =>
    obtain ⟨rfl, rfl⟩ := Prod.mk.inj h
    exact .inl ⟨rfl, rfl⟩
  | some x =>
    obtain ⟨rfl, rfl⟩ := Prod.mk.inj h
    exact .inr ⟨x, rfl, rfl⟩

/-- An access that passes its checks writes no byte but in the entries that translate its address (R118). -/
theorem State.accessed_byteAt {s t : State} {a : Word} {acc : Acc} {rd wr : Bool} {l : Loc} (w : s.Inv)
    (h : s.accessed a acc rd wr = some (t, l)) (b : Nat) (hb : ∀ x ∈ s.entriesOf a, b < x ∨ x + 8 ≤ b) : t.byteAt b = s.byteAt b := by
  obtain ⟨-, rfl⟩ | ⟨x, hx, rfl⟩ := State.accessed_cases h
  · rfl
  · have he : s.entriesOf a = x.at_ :: x.walked := by simp [State.entriesOf, State.access_lookup hx]
    exact State.touch_byteAt (s := s.modThr Thread.pass) w _ _ x _ _ b (he ▸ hb)

end Sys2Proof.Machine
end

section
/-! Where an access is refused, check by check in the order of R309, and where a translation is (R117-R119). -/

namespace Sys2Proof.Machine

/-! ## The checks of the address -/

/-- An access asks for a walk only at an address that the first checks let pass and that lies in no device window. -/
theorem State.mustWalk_passes {s : State} {t : Thread} {a : Word} {width : Nat} (h : s.mustWalk t a width = true) :
    canonical a.toNat = true ∧ (t.sup = true ∨ a.toNat < 2 ^ 56) ∧ inWindow a.toNat = false ∧ a.toNat % width = 0 := by
  simp only [State.mustWalk, Bool.and_eq_true, Bool.or_eq_true, decide_eq_true_eq, Bool.not_eq_true', beq_iff_eq] at h
  obtain ⟨⟨⟨⟨⟨hc, hs⟩, hw⟩, ha⟩, -⟩, -⟩ := h
  exact ⟨hc, hs, hw, ha⟩

/-- An access that asks for no walk, whatever it reaches. -/
theorem State.and_mustWalk_eq_false {s : State} {t : Thread} {a : Word} {width : Nat} (m : Bool) (h : ¬s.mustWalk t a width = true) :
    (m && s.mustWalk t a width) = false := by
  rw [Bool.not_eq_true] at h
  rw [h, Bool.and_false]

/-- The mode and the address of an access stand (R309 step 1): it is canonical, and in launch mode in the user half or a window. -/
def addressOk (sup : Bool) (va : Nat) : Prop := canonical va = true ∧ (sup = true ∨ va < 2 ^ 56 ∨ inWindow va = true)

theorem addressOk_iff (sup : Bool) (va : Nat) :
    addressOk sup va ↔ (!canonical va || (!sup && decide (2 ^ 56 ≤ va) && !inWindow va)) = false := by
  cases h1 : canonical va <;> cases sup <;> cases h3 : inWindow va <;> simp [addressOk, h1, h3]

theorem not_addressOk {sup : Bool} {va : Nat} (h : canonical va = false ∨ sup = false ∧ 2 ^ 56 ≤ va ∧ inWindow va = false) :
    ¬addressOk sup va := by
  rintro ⟨hc, hm⟩
  obtain h | ⟨h1, h2, h3⟩ := h
  · simp [hc] at h
  · obtain h | h | h := hm
    · simp [h1] at h
    · omega
    · simp [h3] at h

/-- The device windows, one by one (R26). -/
theorem inWindow_eq_false {va : Nat} (h : inWindow va = false) :
    ¬(localBase ≤ va && va < localBase + 32 * 0x80000) = true ∧ ¬(scratchBase ≤ va && va < scratchBase + 2048 * 0x100000) = true ∧
      ¬(weightBase ≤ va && va < weightBase + 8 * 0x40000000) = true := by
  simp only [inWindow, Bool.or_eq_false_iff] at h
  obtain ⟨⟨h1, h2⟩, h3⟩ := h
  exact ⟨by rw [h1]; simp, by rw [h2]; simp, by rw [h3]; simp⟩

section
variable {s : State} {t : Thread} {a : Word} {acc : Acc}

/-- Step 1 of R309. -/
theorem State.access_badAddress (h : ¬addressOk t.sup a.toNat) : s.access t a acc = .error ⟨cPROT, acc.w, false, a⟩ := by
  rw [addressOk_iff, Bool.not_eq_false] at h
  exact if_pos h

/-- Step 2 of R309. -/
theorem State.access_misaligned (h : addressOk t.sup a.toNat) (hw : a.toNat % acc.width ≠ 0) :
    s.access t a acc = .error ⟨cALIGN, acc.w, false, a⟩ := by
  rw [addressOk_iff, ← Bool.not_eq_true] at h
  exact (if_neg h).trans (if_pos hw)

/-- Step 4 of R309 in a scratchpad slot: of a core not enabled, and past its 512 KiB (R26, R309). -/
theorem State.access_slot {c off : Nat} (h : addressOk t.sup a.toNat) (hw : a.toNat % acc.width = 0) (hc : c < 2048) (ho : off < 0x100000)
    (ha : a.toNat = scratchBase + c * 0x100000 + off) :
    (s.enabled c = false → s.access t a acc = .error ⟨cPLACE, acc.w, false, a⟩) ∧
      (s.enabled c = true → 0x80000 ≤ off → s.access t a acc = .error ⟨cPROT, acc.w, false, a⟩) := by
  rw [addressOk_iff, ← Bool.not_eq_true] at h
  have hl : ¬(localBase ≤ a.toNat && a.toNat < localBase + 32 * 0x80000) = true := by
    simp only [scratchBase, localBase, Bool.and_eq_true, decide_eq_true_eq, not_and, not_lt] at ha ⊢; omega
  have hs : (scratchBase ≤ a.toNat && a.toNat < scratchBase + 2048 * 0x100000) = true := by simp; omega
  have hd : (a.toNat - scratchBase) / 0x100000 = c := by omega
  have hm : (a.toNat - scratchBase) % 0x100000 = off := by omega
  have hx : s.access t a acc = _ := (if_neg h).trans ((if_neg (not_not.2 hw)).trans ((if_neg hl).trans (if_pos hs)))
  rw [hx, hd, hm]
  exact ⟨fun he => by simp [he], fun he hp => by simp [he, hp]⟩

/-- Outside the device windows the last step of R309 is the page's. -/
theorem State.access_page (h : addressOk t.sup a.toNat) (hw : a.toNat % acc.width = 0) (hi : inWindow a.toNat = false) :
    (acc.memory = true → ∀ c, s.translate t a.toNat acc.kind = .error c → s.access t a acc = .error ⟨c, acc.w, false, a⟩) ∧
      (acc.memory = false → acc.peers = false → s.access t a acc = .error ⟨cPROT, acc.w, false, a⟩) := by
  rw [addressOk_iff, ← Bool.not_eq_true] at h
  obtain ⟨h1, h2, h3⟩ := inWindow_eq_false hi
  have hx : s.access t a acc = _ :=
    (if_neg h).trans ((if_neg (not_not.2 hw)).trans ((if_neg h1).trans ((if_neg h2).trans (if_neg h3))))
  rw [hx]
  refine ⟨fun hm c hc => by simp [hm, hc], fun hm hp => ?_⟩
  simp only [hm, hp, Bool.not_false, if_true, Bool.false_and, Bool.false_eq_true, if_false]
  split <;> rfl

end

/-! ## Translation -/

/-- A page that does not permit the access (R119). -/
theorem State.translate_notPermitted {s : State} {t : Thread} {va : Nat} {kind : XKind} {x : Xlate}
    (h : s.lookup t.core (s.tableOf t) va = .ok x)
    (hp : (kind = .store ∧ (x.leaf / 4 % 2 = 0 ∨ x.leaf / 16 % 2 = 1)) ∨ (t.sup = false ∧ x.leaf / 32 % 2 = 0)) :
    s.translate t va kind = .error cPROT := by
  have hk : pageOk x.leaf kind (!t.sup) = false := by
    obtain ⟨rfl, hw | hk⟩ | ⟨hs, hu⟩ := hp
    · simp [pageOk, hw]
    · simp [pageOk, hk]
    · simp [pageOk, hs, hu]
  simp [State.translate, h, hk]

/-- A walk that fails, where no TLB maps the address (R119, R120). -/
theorem State.translate_walk_error {s : State} {t : Thread} {va c : Nat} {kind : XKind} (hm : s.mapped t.core (s.tableOf t) va = false)
    (hw : s.walkOf t.core (s.tableOf t) va = .error c) : s.translate t va kind = .error c := by
  simp only [State.mapped, Bool.or_eq_false_iff, Option.isSome_eq_false_iff, Option.isNone_iff_eq_none] at hm
  obtain ⟨h1, h2⟩ := hm
  simp [State.translate, State.lookup, h1, h2, hw]

/-- An entry that is not valid (R118, R119). The walk is unfolded by `delta`: its equation lemmas are costly to generate. -/
theorem walk_invalid {bs : List Host.Cell} {va l table : Nat} {seen : List Nat} (h : readBytes bs (table + 8 * levelIndex l va) 8 % 2 = 0) :
    walk bs va l table seen = .error cPAGE := by
  cases l <;> delta walk <;> exact if_pos h

end Sys2Proof.Machine
end

section
/-! Loads, stores and atomics as one shape: operands, an access, and what is done at its place. -/

namespace Sys2Proof.Machine

/-! ## Operands by number -/

section
variable (s : State) (a b c : Src) (d : Dst)

theorem State.gather1_eq (k : State → Word → State) :
    s.gather1 a d k = s.gatherOf true [a] d fun t vs => k t (vs.getD 0 0) := by
  simp [State.gather1, State.gather, List.head?_eq_getElem?]

theorem State.gather2_eq (k : State → Word → Word → State) :
    s.gather2 a b d k = s.gatherOf true [a, b] d fun t vs => k t (vs.getD 0 0) (vs.getD 1 0) := by
  simp [State.gather2, State.gather, List.head?_eq_getElem?]

theorem State.long1_eq (k : State → Word → State) :
    s.long1 a d k = s.gatherOf false [a] d fun t vs => k t (vs.getD 0 0) := by
  simp [State.long1, State.gatherLong, List.head?_eq_getElem?]

theorem State.long2_eq (k : State → Word → Word → State) :
    s.long2 a b d k = s.gatherOf false [a, b] d fun t vs => k t (vs.getD 0 0) (vs.getD 1 0) := by
  simp [State.long2, State.gatherLong, List.head?_eq_getElem?]

theorem State.long3_eq (k : State → Word → Word → Word → State) :
    s.long3 a b c d k = s.gatherOf false [a, b, c] d fun t vs => k t (vs.getD 0 0) (vs.getD 1 0) (vs.getD 2 0) := by
  simp [State.long3, State.gatherLong, List.head?_eq_getElem?]
end

/-- The address of an access without a displacement. -/
theorem add_signExtend_zero (a : Word) : a + (0 : BitVec 13).signExtend 64 = a := by simp

/-! ## The three forms -/

/-- What a load form does (R313, R316). -/
theorem exec_loadForm {i : Instr} {g : LoadForm} (h : loadForm i = some g) (s : State) :
    exec i s = withThread s (s.gatherOf false [g.b] g.d fun t vs =>
      s.withAccess t (vs.getD 0 0 + g.disp.signExtend 64) g.acc true false fun u l => s.loadAt u g.sw g.d l g.width g.sx g.acq) := by
  unfold loadForm at h
  split at h
  case h_9 => cases h
  case h_8 o =>
    cases h
    simp only [add_signExtend_zero]
    exact congrArg (withThread s) (s.long1_eq o.b o.d _)
  all_goals
    cases h
    exact congrArg (withThread s) (State.long1_eq ..)

/-- What a store form does at its place with its value (R314, R316, R319). -/
def StoreForm.body (g : StoreForm) (s0 : State) (v : Word) (t : State) (l : Loc) : State :=
  if g.roams then s0.storeAt t g.sw g.kind l g.width v g.rel g.scope
  else if t.sbFull then s0.parkOn 12 0 0
  else s0.unlessDropped t (g.kind == .stf) g.scope fun u => (u.enter g.kind l g.width v g.rel g.scope 0).retire g.sw

/-- The value that a store form stores; SETE has none. -/
def StoreForm.value (g : StoreForm) (vs : List Word) : Word := if g.val < g.srcs.length then vs.getD g.val 0 else 0

/-- What a store form does (R314, R316, R319). -/
theorem exec_storeForm {i : Instr} {g : StoreForm} (h : storeForm i = some g) (s : State) :
    exec i s = withThread s (s.gatherOf true g.srcs .gz fun t vs =>
      s.withAccess t (vs.getD g.addr 0 + g.disp.signExtend 64) g.acc false true (g.body s (g.value vs))) := by
  unfold storeForm at h
  split at h
  case h_8 => cases h
  case h_5 o =>
    cases h
    simp only [add_signExtend_zero]
    exact congrArg (withThread s) (State.gather2_eq ..)
  case h_6 o =>
    cases h
    simp only [add_signExtend_zero]
    exact congrArg (withThread s) (State.gather2_eq ..)
  case h_7 o =>
    cases h
    simp only [add_signExtend_zero]
    exact congrArg (withThread s) (State.gather1_eq ..)
  all_goals
    cases h
    exact congrArg (withThread s) (State.gather2_eq ..)

/-- The compare value of an atomic form; only the compare and swaps have one. -/
def AtomForm.cmp (g : AtomForm) (vs : List Word) : Word := if 2 < g.srcs.length then vs.getD 2 0 else 0

/-- What an atomic form does (R323). -/
theorem exec_atomForm {i : Instr} {g : AtomForm} (h : atomForm i = some g) (s : State) :
    exec i s = withThread s (s.gatherOf false g.srcs g.d fun t vs =>
      s.withAccess t (vs.getD 1 0 + (0 : BitVec 13).signExtend 64) (accAtomic g.width .store) true true fun u l =>
        s.atomicOp u g.sw g.d l g.code g.width (vs.getD 0 0) (g.cmp vs) g.ord.toNat g.scope.toNat) := by
  simp only [add_signExtend_zero]
  unfold atomForm at h
  split at h
  case h_21 => cases h
  case h_10 o =>
    cases h
    exact congrArg (withThread s) (State.long3_eq ..)
  case h_20 o =>
    cases h
    exact congrArg (withThread s) (State.long3_eq ..)
  all_goals
    cases h
    exact congrArg (withThread s) (State.long2_eq ..)

/-! ## The form of an access -/

/-- The three ways to be an access form. -/
theorem accForm_cases {i : Instr} {f : AccForm} (h : accForm i = some f) :
    (∃ g, loadForm i = some g ∧ f = ⟨false, [g.b], g.d, 0, g.disp, g.acc, true, false⟩) ∨
      (∃ g, loadForm i = none ∧ storeForm i = some g ∧ f = ⟨true, g.srcs, .gz, g.addr, g.disp, g.acc, false, true⟩) ∨
      ∃ g, loadForm i = none ∧ storeForm i = none ∧ atomForm i = some g ∧
        f = ⟨false, g.srcs, g.d, 1, 0, accAtomic g.width .store, true, true⟩ := by
  unfold accForm at h
  cases hl : loadForm i with
  | some g => exact .inl ⟨g, rfl, by simpa [hl] using h.symm⟩
  | none =>
    cases hs : storeForm i with
    | some g => exact .inr (.inl ⟨g, rfl, rfl, by simpa [hl, hs] using h.symm⟩)
    | none =>
      cases ha : atomForm i with
      | some g => exact .inr (.inr ⟨g, rfl, rfl, rfl, by simpa [hl, hs, ha] using h.symm⟩)
      | none => simp [hl, hs, ha] at h

/-- W stands for the accesses that store (R309). -/
theorem accForm_w {i : Instr} {f : AccForm} (h : accForm i = some f) : f.acc.w = f.wr := by
  obtain ⟨g, hg, rfl⟩ | ⟨g, -, hg, rfl⟩ | ⟨g, -, -, -, rfl⟩ := accForm_cases h
  · unfold loadForm at hg
    split at hg <;> cases hg <;> rfl
  · unfold storeForm at hg
    split at hg <;> cases hg <;> rfl
  · rfl

/-- The address of an access form, from the values of its operands (R308). -/
def AccForm.address (f : AccForm) (vs : List Word) : Word := vs.getD f.addr 0 + f.disp.signExtend 64

/-- What an access form does at its place, once its access has passed its checks. -/
def accBody (i : Instr) (s0 : State) (vs : List Word) (t : State) (l : Loc) : State :=
  match loadForm i, storeForm i, atomForm i with
  | some g, _, _ => s0.loadAt t g.sw g.d l g.width g.sx g.acq
  | none, some g, _ => g.body s0 (g.value vs) t l
  | none, none, some g => s0.atomicOp t g.sw g.d l g.code g.width (vs.getD 0 0) (g.cmp vs) g.ord.toNat g.scope.toNat
  | none, none, none => t

theorem accBody_load {i : Instr} {g : LoadForm} (h : loadForm i = some g) (s0 : State) (vs : List Word) :
    accBody i s0 vs = fun t l => s0.loadAt t g.sw g.d l g.width g.sx g.acq := by
  funext t l; simp only [accBody, h]

theorem accBody_store {i : Instr} {g : StoreForm} (hl : loadForm i = none) (h : storeForm i = some g) (s0 : State) (vs : List Word) :
    accBody i s0 vs = g.body s0 (g.value vs) := by
  funext t l; simp only [accBody, hl, h]

theorem accBody_atom {i : Instr} {g : AtomForm} (hl : loadForm i = none) (hs : storeForm i = none) (h : atomForm i = some g) (s0 : State)
    (vs : List Word) : accBody i s0 vs = fun t l =>
      s0.atomicOp t g.sw g.d l g.code g.width (vs.getD 0 0) (g.cmp vs) g.ord.toNat g.scope.toNat := by
  funext t l; simp only [accBody, hl, hs, h]

/-- What an access form does (R308, R309). -/
theorem exec_accForm {i : Instr} {f : AccForm} (h : accForm i = some f) (s : State) :
    exec i s = withThread s (s.gatherOf f.short f.srcs f.d fun t vs =>
      s.withAccess t (f.address vs) f.acc f.rd f.wr (accBody i s vs)) := by
  obtain ⟨g, hg, rfl⟩ | ⟨g, hl, hg, rfl⟩ | ⟨g, hl, hs, hg, rfl⟩ := accForm_cases h
  · simp only [exec_loadForm hg, accBody_load hg, AccForm.address]
  · simp only [exec_storeForm hg, accBody_store hl hg, AccForm.address]
  · simp only [exec_atomForm hg, accBody_atom hl hs hg, AccForm.address]

section
variable {i : Instr} {f : AccForm} {s s1 : State} {vs : List Word}

/-- An access form whose operands can be read goes on to its access. -/
theorem exec_accForm_reads (h : accForm i = some f) (hl : s.thr.live = true) (hr : s.readsOf f.short f.srcs f.d = some (s1, vs)) :
    exec i s = .next (s.withAccess s1 (f.address vs) f.acc f.rd f.wr (accBody i s vs)) := by
  rw [exec_accForm h, withThread_live _ _ hl, State.gatherOf_reads _ hr]

/-- An access form whose operands trap or wait leaves memory as it is. -/
theorem exec_accForm_stops {t : State} (h : accForm i = some f) (hr : s.readsOf f.short f.srcs f.d = none) (hx : exec i s = .next t) :
    t.mem = s.mem := by
  rw [exec_accForm h] at hx
  obtain ⟨-, rfl⟩ := withThread_next hx
  exact State.gatherOf_stops _ hr

/-- A check of R309 that fails is the trap of the instruction, from the state before it. -/
theorem exec_accForm_error {c : Nat} (h : accForm i = some f) (hl : s.thr.live = true) (hr : s.readsOf f.short f.srcs f.d = some (s1, vs))
    (hm : ((f.acc.memory || f.acc.peers) && s1.mustWalk s1.thr (f.address vs) f.acc.width) = false)
    (ha : s1.access s1.thr (f.address vs) f.acc = .error ⟨c, f.acc.w, false, f.address vs⟩) :
    exec i s = .next (s.trap ⟨c, f.wr, false, f.address vs⟩) := by
  rw [exec_accForm_reads h hl hr, State.withAccess_error _ hm ha, accForm_w h]
end

/-! ## At the place -/

/-- An access to memory of another quad that migrates does nothing else (R43). -/
theorem accBody_migrates {i : Instr} {f : AccForm} {s0 t : State} {vs : List Word} {l : Loc} {n : Nat} (h : accForm i = some f)
    (hload : ∀ g, loadForm i = some g → t.look t.core (l.ranges g.width) = .memory ∧ t.serve l false false = .migrate n)
    (hstore : ∀ g, storeForm i = some g → g.roams = true ∧ t.serve l true false = .migrate n)
    (hatom : ∀ g, atomForm i = some g → t.ownBuffered l.key g.width = false ∧ t.serve l true true = .migrate n) :
    accBody i s0 vs t l = s0.migrate n := by
  obtain ⟨g, hg, -⟩ | ⟨g, hl, hg, -⟩ | ⟨g, hl, hs, hg, -⟩ := accForm_cases h
  · obtain ⟨hm, hv⟩ := hload g hg
    simp [accBody_load hg, State.loadAt, hm, hv]
  · obtain ⟨hr, hv⟩ := hstore g hg
    simp [accBody_store hl hg, StoreForm.body, hr, State.storeAt, hv]
  · obtain ⟨hb, hv⟩ := hatom g hg
    simp [accBody_atom hl hs hg, State.atomicOp, hb, hv]

/-! ## Bytes of memory -/

@[simp] theorem State.inject_bytes (s : State) (a : Nat) (write : Bool) : (s.inject a write).mem.bytes = s.mem.bytes := by
  simp only [State.inject]
  split
  · split
    · split
      · split <;> simp
      · simp
    · rfl
  · rfl

@[simp] theorem State.injectIn_bytes (s : State) (r : Nat × Nat) (write : Bool) : (s.injectIn r write).mem.bytes = s.mem.bytes := by
  simp only [State.injectIn]
  split <;> simp

@[simp] theorem State.injectAll_bytes (s : State) (rs : List (Nat × Nat)) (write : Bool) : (s.injectAll rs write).mem.bytes = s.mem.bytes :=
  foldl_keeps (fun t : State => t.mem.bytes) _ (fun t r => t.injectIn_bytes r write) rs s

/-- A load may poison what it reads, and writes no byte (R349). -/
@[simp] theorem State.loadNow_bytes (s : State) (l : Loc) (width : Nat) (sx : Bool) : (s.loadNow l width sx).1.mem.bytes = s.mem.bytes := by
  simp only [State.loadNow]
  split <;> simp

theorem ite_bytes {P : List Host.Cell → Prop} (c : Prop) [Decidable c] {a b : State} (ha : P a.mem.bytes) (hb : P b.mem.bytes) :
    P (if c then a else b).mem.bytes := by
  split
  · exact ha
  · exact hb

theorem State.unlessDropped_bytes {P : List Host.Cell → Prop} {s0 s : State} {rel : Bool} {scope : Nat} {k : State → State} (h0 : P s0.mem.bytes)
    (hk : P (k s).mem.bytes) :
    P (s0.unlessDropped s rel scope k).mem.bytes := by
  unfold State.unlessDropped
  split
  · simpa using h0
  · exact hk

section
variable {P : List Host.Cell → Prop} {s0 s : State} (h0 : P s0.mem.bytes) (h : P s.mem.bytes)
include h0 h

/-- A load as it issues writes no byte. -/
theorem State.loadAt_bytes {sw : Bool} {d : Dst} {l : Loc} {width : Nat} {sx : Bool} {acq : Nat} :
    P (s0.loadAt s sw d l width sx acq).mem.bytes := by
  unfold State.loadAt
  split
  · simpa using h0
  · exact ite_bytes _ (by simpa using h0) (by simpa using h)
  · split
    · refine ite_bytes _ (by simpa using h0) (ite_bytes _ (by simpa using h0) ?_)
      split
      · simpa using h
      · exact ite_bytes _ (by simpa using h0) (by simpa using h)
    · simpa using h0
    · exact ite_bytes _ (by simpa using h0) (by simpa using h)

/-- A store as it issues writes no byte: it enters the store buffer. -/
theorem State.storeAt_bytes {sw : Bool} {kind : SbKind} {l : Loc} {width : Nat} {v : Word} {rel : Bool} {scope : Nat} :
    P (s0.storeAt s sw kind l width v rel scope).mem.bytes := by
  unfold State.storeAt
  split
  · simpa using h0
  · exact ite_bytes _ (by simpa using h0) (State.unlessDropped_bytes h0 (by simpa using h))

theorem StoreForm.body_bytes (g : StoreForm) (v : Word) (l : Loc) : P (g.body s0 v s l).mem.bytes := by
  unfold StoreForm.body
  exact ite_bytes _ (State.storeAt_bytes h0 h) (ite_bytes _ (by simpa using h0) (State.unlessDropped_bytes h0 (by simpa using h)))

/-- Loads and stores as they issue write no byte at their place. -/
theorem accBody_bytes {i : Instr} (ha : atomForm i = none) (vs : List Word) (l : Loc) : P (accBody i s0 vs s l).mem.bytes := by
  unfold accBody
  split
  · exact State.loadAt_bytes h0 h
  · exact StoreForm.body_bytes h0 h _ _ _
  · rename_i hg
    simp [ha] at hg
  · exact h
end

theorem State.byteAt_congr {s t : State} (h : s.mem = t.mem) (b : Nat) : s.byteAt b = t.byteAt b := by
  unfold State.byteAt; rw [h]

/-- A load or a store as it issues writes no byte of memory but in the entries that translate its address. -/
theorem exec_accForm_byteAt {i : Instr} {f : AccForm} {s s1 t : State} {vs : List Word} (h : accForm i = some f) (hl : s.thr.live = true)
    (hr : s.readsOf f.short f.srcs f.d = some (s1, vs)) (ha : atomForm i = none) (w : s.Inv) (hx : exec i s = .next t) (b : Nat)
    (hb : ∀ x ∈ s1.entriesOf (f.address vs), b < x ∨ x + 8 ≤ b) : t.byteAt b = s.byteAt b := by
  have hm := State.readsOf_mem hr
  rw [exec_accForm_reads h hl hr] at hx
  cases hx
  cases hacc : s1.accessed (f.address vs) f.acc f.rd f.wr with
  | none => exact State.byteAt_congr (State.withAccess_stops _ hacc) b
  | some p =>
    obtain ⟨u, l⟩ := p
    have hu : u.byteAt b = s.byteAt b :=
      (State.accessed_byteAt (show s1.mem.wf = true from hm ▸ w) hacc b hb).trans (State.byteAt_congr hm b)
    rw [State.withAccess_accessed _ hacc]
    exact accBody_bytes (P := fun m => getByte m b = s.byteAt b) rfl hu ha vs l

end Sys2Proof.Machine
end

section
/-! Where loads, stores and atomics trap or migrate as they issue (O16). -/

namespace Sys2Proof.Machine

/-! ## The traps of an access form (R309) -/

section
variable {i : Instr} {f : AccForm} {s s1 : State} {vs : List Word}
variable (h : accForm i = some f) (hl : s.thr.live = true) (hr : s.readsOf f.short f.srcs f.d = some (s1, vs))
include h hl hr

/-- Step 1 of R309: PROT for an address outside the mode's. -/
theorem exec_accForm_badAddress (hb : ¬addressOk s1.thr.sup (f.address vs).toNat) :
    exec i s = .next (s.trap ⟨cPROT, f.wr, false, f.address vs⟩) := by
  refine exec_accForm_error h hl hr (State.and_mustWalk_eq_false _ fun hm => ?_) (State.access_badAddress hb)
  obtain ⟨hc, hs, -, -⟩ := State.mustWalk_passes hm
  exact hb ⟨hc, hs.imp_right .inl⟩

/-- Step 2 of R309: ALIGN for an address that is no multiple of the width. -/
theorem exec_accForm_misaligned (hb : addressOk s1.thr.sup (f.address vs).toNat) (hw : (f.address vs).toNat % f.acc.width ≠ 0) :
    exec i s = .next (s.trap ⟨cALIGN, f.wr, false, f.address vs⟩) := by
  refine exec_accForm_error h hl hr (State.and_mustWalk_eq_false _ fun hm => ?_) (State.access_misaligned hb hw)
  obtain ⟨-, -, -, ha⟩ := State.mustWalk_passes hm
  exact hw ha

/-- Step 4 of R309 in a scratchpad slot: PLACE for a core not enabled, PROT past its 512 KiB (R26). -/
theorem exec_accForm_slot (hb : addressOk s1.thr.sup (f.address vs).toNat) (hw : (f.address vs).toNat % f.acc.width = 0) {c off : Nat}
    (hc : c < 2048) (ho : off < 0x100000) (ha : (f.address vs).toNat = scratchBase + c * 0x100000 + off) :
    (s1.enabled c = false → exec i s = .next (s.trap ⟨cPLACE, f.wr, false, f.address vs⟩)) ∧
      (s1.enabled c = true → 0x80000 ≤ off → exec i s = .next (s.trap ⟨cPROT, f.wr, false, f.address vs⟩)) := by
  obtain ⟨hplace, hprot⟩ := State.access_slot (s := s1) (t := s1.thr) (acc := f.acc) hb hw hc ho ha
  have hm : ((f.acc.memory || f.acc.peers) && s1.mustWalk s1.thr (f.address vs) f.acc.width) = false := by
    refine State.and_mustWalk_eq_false _ fun hm => ?_
    obtain ⟨-, -, hi, -⟩ := State.mustWalk_passes hm
    obtain ⟨-, hs, -⟩ := inWindow_eq_false hi
    simp only [Bool.and_eq_true, decide_eq_true_eq] at hs
    omega
  exact ⟨fun he => exec_accForm_error h hl hr hm (hplace he), fun he hp => exec_accForm_error h hl hr hm (hprot he hp)⟩

/-- The last step of R309: a page takes what its translation gives, and PROT where the access reaches no memory. -/
theorem exec_accForm_page (hb : addressOk s1.thr.sup (f.address vs).toNat) (hw : (f.address vs).toNat % f.acc.width = 0)
    (hi : inWindow (f.address vs).toNat = false) :
    (f.acc.memory = true → s1.mustWalk s1.thr (f.address vs) f.acc.width = false → ∀ c,
      s1.translate s1.thr (f.address vs).toNat f.acc.kind = .error c → exec i s = .next (s.trap ⟨c, f.wr, false, f.address vs⟩)) ∧
    (f.acc.memory = false → f.acc.peers = false → exec i s = .next (s.trap ⟨cPROT, f.wr, false, f.address vs⟩)) := by
  obtain ⟨hpage, hnone⟩ := State.access_page (s := s1) (t := s1.thr) (acc := f.acc) hb hw hi
  exact ⟨fun hm hk c hc => exec_accForm_error h hl hr (by rw [hk, Bool.and_false]) (hpage hm c hc),
    fun hm hp => exec_accForm_error h hl hr (by rw [hm, hp]; rfl) (hnone hm hp)⟩

/-- Step 6 of R309: a watched address in launch mode (R337). -/
theorem exec_accForm_watched {p : Loc × Option Xlate}
    (hm : ((f.acc.memory || f.acc.peers) && s1.mustWalk s1.thr (f.address vs) f.acc.width) = false)
    (ha : s1.access s1.thr (f.address vs) f.acc = .ok p) (hsup : s1.thr.sup = false) (hskip : s1.thr.skipWatch ≠ some s1.thr.pc)
    (hline : (f.address vs).toNat / 64 = s1.core.watch.toNat / 64)
    (hbit : (f.rd = true ∧ s1.core.watch.getLsbD 0 = true) ∨ (f.wr = true ∧ s1.core.watch.getLsbD 1 = true)) :
    exec i s = .next (s.trap ⟨cWATCH, f.wr, false, f.address vs⟩) := by
  have hw : s1.watched (f.address vs) f.rd f.wr = true := by
    simp only [State.watched, Bool.and_eq_true, Bool.or_eq_true, Bool.not_eq_true', bne_iff_ne, beq_iff_eq]
    exact ⟨⟨⟨hsup, hskip⟩, hline⟩, hbit⟩
  rw [exec_accForm_reads h hl hr, State.withAccess_watched _ hm ha hw]

/-- An access that passes its checks and migrates ends the run, its instruction without effect (R43). -/
theorem exec_accForm_migrates {s2 : State} {l : Loc} {n : Nat} (ha : s1.accessed (f.address vs) f.acc f.rd f.wr = some (s2, l))
    (hload : ∀ g, loadForm i = some g → s2.look s2.core (l.ranges g.width) = .memory ∧ s2.serve l false false = .migrate n)
    (hstore : ∀ g, storeForm i = some g → g.roams = true ∧ s2.serve l true false = .migrate n)
    (hatom : ∀ g, atomForm i = some g → s2.ownBuffered l.key g.width = false ∧ s2.serve l true true = .migrate n) :
    exec i s = .next (s.migrate n) := by
  rw [exec_accForm_reads h hl hr, State.withAccess_accessed _ ha, accBody_migrates h hload hstore hatom]

end

/-- Settles O16: the checks of R309 one by one over the one form of loads, stores and atomics. -/
theorem accessTraps : Obligations.AccessTraps := by
  refine ⟨?_, fun s n => ⟨rfl, rfl, rfl, rfl, rfl, rfl, rfl⟩,
    fun s t va kind => ⟨fun x hx hp => State.translate_notPermitted hx hp, fun c => State.translate_walk_error⟩,
    fun bs va l table seen => walk_invalid,
    fun i f s t h _ hr hx => congrArg Memory.bytes (exec_accForm_stops h hr hx)⟩
  intro i f s s1 vs a h hl hr ha
  obtain rfl : a = f.address vs := ha
  refine ⟨fun hb => exec_accForm_badAddress h hl hr (not_addressOk hb), fun hc hm => ⟨?_, fun hw => ⟨?_, ?_, ?_⟩⟩, ?_, ?_, ?_⟩
  · exact exec_accForm_misaligned h hl hr ⟨hc, hm⟩
  · exact fun c off hc' ho he => exec_accForm_slot h hl hr ⟨hc, hm⟩ hw hc' ho he
  · exact fun hi hmem hk => (exec_accForm_page h hl hr ⟨hc, hm⟩ hw hi).1 hmem hk
  · exact fun hi => (exec_accForm_page h hl hr ⟨hc, hm⟩ hw hi).2
  · exact fun p hk hok => exec_accForm_watched h hl hr hk hok
  · exact fun s2 l n => exec_accForm_migrates h hl hr
  · exact fun hn w t b hx => exec_accForm_byteAt h hl hr (Option.isNone_iff_eq_none.1 hn) w hx b

end Sys2Proof.Machine
end

section
/-! Layer removal, the window of corrected errors, weight refresh and clock gating (O58). -/

namespace Sys2Proof.Machine

/-! ## Capacity (R110) -/

/-- The most layers lost by any stack, over stacks none of which has lost more than b. -/
theorem foldl_max_le {f : Nat → Nat} {b : Nat} (l : List Nat) (m : Nat) (hm : m ≤ b) (h : ∀ k ∈ l, f k ≤ b) :
    l.foldl (fun m k => max m (f k)) m ≤ b := by
  induction l generalizing m with
  | nil => exact hm
  | cons k r ih =>
    exact ih _ (max_le hm (h k (List.mem_cons_self ..))) fun x hx => h x (List.mem_cons_of_mem _ hx)

/-- The most layers lost by any stack is at least what each stack has lost. -/
theorem le_foldl_max {f : Nat → Nat} {k : Nat} (l : List Nat) (m : Nat) (h : k ∈ l ∨ f k ≤ m) :
    f k ≤ l.foldl (fun m k => max m (f k)) m := by
  induction l generalizing m with
  | nil => simpa using h
  | cons x r ih =>
    refine ih _ ?_
    rcases h with h | h
    · obtain rfl | h := List.mem_cons.1 h
      · exact .inr (le_max_right ..)
      · exact .inl h
    · exact .inr (h.trans (le_max_left ..))

/-- With one layer mapped out of one stack, 15/16 of the capacity is left (R110). -/
theorem capFor_one {p : Package} {stack layer : Nat} (h : stack < p.stacks) : capFor p [(stack, layer)] = p.hbm * 15 / 16 := by
  have hle := foldl_max_le (f := fun k => ([(stack, layer)].filter fun x => x.1 == k).length) (b := 1) (List.range p.stacks) 0
    (Nat.zero_le _) fun k _ => List.length_filter_le _ _
  have hge := le_foldl_max (f := fun k => ([(stack, layer)].filter fun x => x.1 == k).length) (k := stack) (List.range p.stacks) 0
    (.inl (List.mem_range.2 h))
  have hone : ([(stack, layer)].filter fun x => x.1 == stack).length = 1 := by simp
  rw [hone] at hge
  rw [capFor, le_antisymm hle hge]

/-! ## Events and the health record (R214, R215, R233) -/

@[simp] theorem State.post_removals (s : State) (e : Event) : (s.post e).mgmt.removals = s.mgmt.removals := rfl
@[simp] theorem State.post_why (s : State) (e : Event) : (s.post e).health.why = s.health.why := rfl

/-- The reasons stand, and with them the one given and REPLREQ (R215). -/
@[simp] theorem State.replace_why (s : State) (bit : Nat) :
    (s.replace bit).health.why = s.health.why ||| 1 ||| BitVec.ofNat 6 (2 ^ bit) := by
  unfold State.replace
  extract_lets why
  split
  · assumption
  · rfl

/-- A reason given changes no count of the health record, no capacity and no removal. -/
theorem State.replace_keeps {γ : Type} (g : State → γ) (h : ∀ (s : State) w l c e, g (({ s with
    health := { s.health with why := w, lastset := l }, caps := { s.caps with genHealth := c } } : State).post e) = g s) (s : State) (bit : Nat) :
    g (s.replace bit) = g s := by
  unfold State.replace
  extract_lets why
  split
  · rfl
  · exact h ..

@[simp] theorem State.replace_removals (s : State) (bit : Nat) : (s.replace bit).mgmt.removals = s.mgmt.removals :=
  State.replace_keeps (fun s => s.mgmt.removals) (fun _ _ _ _ _ => rfl) s bit
@[simp] theorem State.replace_cap (s : State) (bit : Nat) : (s.replace bit).caps.cap = s.caps.cap :=
  State.replace_keeps (fun s => s.caps.cap) (fun _ _ _ _ _ => rfl) s bit
@[simp] theorem State.replace_rmv (s : State) (bit : Nat) : (s.replace bit).caps.rmv = s.caps.rmv :=
  State.replace_keeps (fun s => s.caps.rmv) (fun _ _ _ _ _ => rfl) s bit
@[simp] theorem State.replace_rmvbase (s : State) (bit : Nat) : (s.replace bit).caps.rmvbase = s.caps.rmvbase :=
  State.replace_keeps (fun s => s.caps.rmvbase) (fun _ _ _ _ _ => rfl) s bit
@[simp] theorem State.replace_cewin (s : State) (bit : Nat) : (s.replace bit).health.cewin = s.health.cewin :=
  State.replace_keeps (fun s => s.health.cewin) (fun _ _ _ _ _ => rfl) s bit
@[simp] theorem State.replace_winCount (s : State) (bit : Nat) : (s.replace bit).health.winCount = s.health.winCount :=
  State.replace_keeps (fun s => s.health.winCount) (fun _ _ _ _ _ => rfl) s bit
@[simp] theorem State.replace_winStart (s : State) (bit : Nat) : (s.replace bit).health.winStart = s.health.winStart :=
  State.replace_keeps (fun s => s.health.winStart) (fun _ _ _ _ _ => rfl) s bit

/-! ## Layer removal (R111) -/

/-- The removal that starts has the capacity left as its base, and REPLREQ its reason (R111 step 1, R214). -/
theorem State.startRemoval_head {s : State} {r : Removal} {rest : List Removal} (h : s.mgmt.removals = r :: rest) :
    s.startRemoval.caps.rmv = true ∧ s.startRemoval.caps.rmvbase = capFor s.pkg ((r.stack, r.layer) :: s.caps.layers) ∧
      s.startRemoval.caps.cap = s.caps.cap ∧ s.startRemoval.mgmt.removals = s.mgmt.removals ∧
      s.startRemoval.health.why.getLsbD 3 = true := by
  simp [State.startRemoval, h]

theorem State.startRemoval_none {s : State} (h : s.mgmt.removals = []) : s.startRemoval = s := by
  simp [State.startRemoval, h]

/-- A failed layer whose removal is the only one starts it at once (R111). -/
theorem execLayerFailure_starts {s : State} {stack layer : Nat} (hs : stack < s.pkg.stacks) (hl : layer < 16) (h0 : s.caps.layers = [])
    (hr : s.mgmt.removals = []) : exec (.layerFailure stack layer) s =
      .next ({ s with mgmt := { s.mgmt with removals := [⟨stack, layer, false⟩] } } : State).startRemoval := by
  change execLayerFailure stack layer s = _
  simp only [execLayerFailure, h0, hr, hs, hl]
  rfl

@[simp] theorem State.settleEcc_bytes (s : State) : s.settleEcc.mem.bytes = s.mem.bytes :=
  foldl_keeps Memory.bytes (fun m l => m.setPoison (l * 64) true) (fun _ _ => rfl) _ s.mem

/-- Blocks that are lost are poisoned and counted: no byte, no capacity and no removal changes (R111 step 3). -/
theorem State.loseBlocks_keeps {γ : Type} (g : State → γ) (hp : ∀ (s : State) (b : Nat), g (s.poisonBlock b) = g s)
    (hf : ∀ (s : State) (n : Nat), g { s with free := n } = g s) (s : State) (stack : Nat) : g (s.loseBlocks stack) = g s :=
  (foldl_keeps g State.poisonBlock hp _ _).trans (hf s _)

@[simp] theorem State.loseBlocks_bytes (s : State) (stack : Nat) : (s.loseBlocks stack).mem.bytes = s.mem.bytes :=
  State.loseBlocks_keeps (fun s => s.mem.bytes) (fun _ _ => State.settleEcc_bytes _) (fun _ _ => rfl) s stack
@[simp] theorem State.loseBlocks_rmv (s : State) (stack : Nat) : (s.loseBlocks stack).caps.rmv = s.caps.rmv :=
  State.loseBlocks_keeps (fun s => s.caps.rmv) (fun _ _ => rfl) (fun _ _ => rfl) s stack
@[simp] theorem State.loseBlocks_rmvbase (s : State) (stack : Nat) : (s.loseBlocks stack).caps.rmvbase = s.caps.rmvbase :=
  State.loseBlocks_keeps (fun s => s.caps.rmvbase) (fun _ _ => rfl) (fun _ _ => rfl) s stack
@[simp] theorem State.loseBlocks_cap (s : State) (stack : Nat) : (s.loseBlocks stack).caps.cap = s.caps.cap :=
  State.loseBlocks_keeps (fun s => s.caps.cap) (fun _ _ => rfl) (fun _ _ => rfl) s stack
@[simp] theorem State.loseBlocks_layers (s : State) (stack : Nat) : (s.loseBlocks stack).caps.layers = s.caps.layers :=
  State.loseBlocks_keeps (fun s => s.caps.layers) (fun _ _ => rfl) (fun _ _ => rfl) s stack

/-- What the only removal leaves as its copy is complete, the capacity falling (R111 step 4). -/
def State.layerMapped (s : State) (r : Removal) : State :=
  ({ s.loseBlocks r.stack with
    caps := { (s.loseBlocks r.stack).caps with
      cap := s.caps.rmvbase, rmv := false, rmvbase := 0, layers := s.caps.layers ++ [(r.stack, r.layer)]
      genMem := bumpGen (s.loseBlocks r.stack).caps.genMem }
    mgmt := { (s.loseBlocks r.stack).mgmt with removals := [] } } : State).post ⟨0x0002, BitVec.ofNat 64 s.caps.rmvbase, 0⟩

/-- The copy of the only removal completes where the capacity falls exactly once the supervisor has acknowledged (R111 step 3). -/
theorem execLayerCopyComplete_one {s : State} {r : Removal} (hr : s.mgmt.removals = [r]) (hv : s.caps.rmv = true)
    (hb : s.caps.rmvbase ≠ s.caps.cap) : exec .layerCopyComplete s = whenEnabled r.acked (s.layerMapped r) := by
  change execLayerCopyComplete s = _
  have hf : (s.caps.rmvbase != s.caps.cap) = true := bne_iff_ne.2 hb
  simp only [execLayerCopyComplete, hr, State.loseBlocks_rmv, State.loseBlocks_rmvbase, State.loseBlocks_cap, State.loseBlocks_layers, hv, hf,
    if_true, Bool.not_true, Bool.false_or, Bool.true_and]
  rw [State.startRemoval_none rfl]
  rfl

/-! ## The window of corrected errors (R214) -/

/-- The window before its end has been looked at. -/
def State.ceWindow (s : State) : State :=
  { s with
    cc := max s.cc (s.health.winStart + 72000000000)
    health := { s.health with cewin := s.health.winCount, winStart := s.health.winStart + 72000000000, winCount := 0 }
    caps := { s.caps with genHealth := bumpGen s.caps.genHealth } }

theorem execHealthCeWindowEnd_eq (s : State) :
    exec .healthCeWindowEnd s = .next (if 10000 < s.health.winCount then s.ceWindow.replace 4 else s.ceWindow) := rfl

/-! ## Weight refresh (R101) -/

theorem refreshing_iff (cc g : Nat) : refreshing cc g = true ↔ 2400 * g ≤ cc ∧ (cc - 2400 * g) % 76800 < 1920 := by
  simp [refreshing]

theorem refreshing_eq_false_iff (cc g : Nat) : refreshing cc g = false ↔ cc < 2400 * g ∨ 1920 ≤ (cc - 2400 * g) % 76800 := by
  rw [← Bool.not_eq_true, refreshing_iff]
  omega

/-- Outside the window of its bank group a refresh starts at the next one. -/
theorem execWeightRefreshStart_next {s : State} {die g : Nat} (hd : die < s.pkg.dies) (hg : g < 32) (h : refreshing s.cc g = false) :
    ∃ t, exec (.weightRefreshStart die g) s = .next t ∧ refreshing t.cc g = true ∧ s.cc < t.cc ∧ t = { s with cc := t.cc } := by
  refine ⟨_, (congrArg (whenEnabled · _) (by simp [hd, hg, h])).trans (whenEnabled_true _), ?_, ?_, rfl⟩
  · rw [refreshing_iff]
    rw [refreshing_eq_false_iff] at h
    dsimp only
    split <;> omega
  · rw [refreshing_eq_false_iff] at h
    dsimp only
    split <;> omega

/-- Inside it a refresh ends with it. -/
theorem execWeightRefreshEnd_next {s : State} {die g : Nat} (hd : die < s.pkg.dies) (hg : g < 32) (h : refreshing s.cc g = true) :
    ∃ t, exec (.weightRefreshEnd die g) s = .next t ∧ refreshing t.cc g = false ∧ s.cc < t.cc ∧ t = { s with cc := t.cc } := by
  refine ⟨_, (congrArg (whenEnabled · _) (by simp [hd, hg, h])).trans (whenEnabled_true _), ?_, ?_, rfl⟩
  · rw [refreshing_eq_false_iff]
    rw [refreshing_iff] at h
    dsimp only
    omega
  · rw [refreshing_iff] at h
    dsimp only
    omega

/-- Settles O58: the removal from its start to its end, the window's count against 10,000, and the two sides of a refresh window. -/
theorem layersAndHealth : Obligations.LayersAndHealth := by
  refine ⟨fun s stack layer hs hl h0 hr _ => ?_, fun s r hr hv hb => ?_, fun s => ?_,
    fun s die g hd hg => ⟨execWeightRefreshStart_next hd hg, execWeightRefreshEnd_next hd hg⟩, fun s g hg => ?_⟩
  · obtain ⟨h1, h2, h3, h4, h5⟩ := State.startRemoval_head (s := { s with mgmt := { s.mgmt with removals := [⟨stack, layer, false⟩] } }) rfl
    exact ⟨_, execLayerFailure_starts hs hl h0 hr, h1, by rw [h2, h0, capFor_one hs], h3, h4, h5, by simp⟩
  · rw [execLayerCopyComplete_one hr hv hb]
    refine ⟨fun ha => ⟨s.layerMapped r, by rw [ha]; rfl, rfl, rfl, by simp [State.layerMapped], rfl, by simp [State.layerMapped]⟩,
      fun ha => by rw [ha]; rfl⟩
  · refine ⟨_, execHealthCeWindowEnd_eq s, ?_⟩
    split
    · exact ⟨by simp; rfl, by simp; rfl, by simp; rfl, fun _ => by simp, fun _ => by omega, by simp; rfl⟩
    · exact ⟨rfl, rfl, rfl, fun _ => by omega, fun _ => rfl, rfl⟩
  · exact (congrArg (whenEnabled · _) (bne_iff_ne.2 hg)).trans (whenEnabled_true _)

end Sys2Proof.Machine
end

section
/-! Bytes stored and read as numbers, injections, and what a store of bytes leaves alone. -/

namespace Sys2Proof.Machine

/-! ## Numbers in memory (R6) -/

/-- A number read byte by byte. -/
theorem State.numAt_eq_read (s : State) (a n : Nat) : s.numAt a n = s.mem.read a n := by
  unfold Memory.read
  induction n generalizing a with
  | zero => rfl
  | succ n ih =>
    have hr : s.numAt a (n + 1) = (s.byteAt a).toNat + 256 * s.numAt (a + 1) n := by
      simp only [State.numAt, List.range_succ_eq_map, List.map_cons, List.foldr_cons, List.map_map, Nat.add_zero, Nat.pow_zero, Nat.mul_one]
      congr 1
      induction List.range n with
      | nil => rfl
      | cons i r h => simp only [List.map_cons, List.foldr_cons, Function.comp_apply, h, Nat.succ_eq_add_one,
          Nat.add_comm i 1, ← Nat.add_assoc]; ring
    rw [hr, ih]
    rfl

/-- What a store leaves, from the bytes of memory after it. -/
theorem State.storedAt_of_bytes {s t : State} {a n v : Nat} (w : s.Inv) (h : t.mem.bytes = writeBytes s.mem.bytes a n v) :
    s.storedAt t a n v := by
  intro k
  unfold State.byteAt
  rw [h, getByte_writeBytes n _ _ _ _ ((Memory.wf_iff _).1 w).1]

/-! ## Injections (R349) -/

/-- What an injection that is met leaves alone: it changes a core's injection registers, poison and counts of errors. -/
theorem State.inject_keeps {γ : Type} (g : State → γ)
    (hcore : ∀ (s : State) n (f : Core → Core), (∀ c, f c = { c with errinj := (f c).errinj, injSkip := (f c).injSkip }) → g (s.modCore n f) = g s)
    (hmem : ∀ (s : State) (a : Nat), g { s with mem := s.mem.setPoison a true } = g s) (hue : ∀ s : State, g s.countUe = g s)
    (hce : ∀ s : State, g s.countCe = g s) (s : State) (a : Nat) (write : Bool) : g (s.inject a write) = g s := by
  unfold State.inject
  extract_lets n c k s1
  have h1 : g s1 = g s := hcore s n _ fun _ => rfl
  split
  · split
    · split
      · split
        · rw [hue, hmem, h1]
        · rw [hce, h1]
      · exact hcore s n _ fun _ => rfl
    · rfl
  · rfl

@[simp] theorem State.inject_thr (s : State) (a : Nat) (write : Bool) : (s.inject a write).thr = s.thr :=
  State.inject_keeps State.thr (by simp) (fun _ _ => rfl) (by simp) (by simp) s a write
@[simp] theorem State.inject_net (s : State) (a : Nat) (write : Bool) : (s.inject a write).net = s.net :=
  State.inject_keeps State.net (by simp) (fun _ _ => rfl) (by simp) (by simp) s a write
@[simp] theorem State.inject_launcher (s : State) (a : Nat) (write : Bool) : (s.inject a write).launcher = s.launcher :=
  State.inject_keeps State.launcher (by simp) (fun _ _ => rfl) (by simp) (by simp) s a write
@[simp] theorem State.inject_empty (s : State) (a : Nat) (write : Bool) : (s.inject a write).mem.empty = s.mem.empty :=
  State.inject_keeps (fun s => s.mem.empty) (by simp) (fun _ _ => rfl) (by simp) (by simp) s a write

/-- A core changed, as it then stands. -/
theorem State.coreOf_modCore_same (s : State) (n : Nat) {f : Core → Core} (h : ∀ c, (f c).id = c.id) :
    (s.modCore n f).coreOf n = f (s.coreOf n) := by
  rw [State.coreOf_modCore _ _ _ _ h, if_pos rfl]

/-- A field of a core that a change of the core keeps. -/
theorem State.modCore_coreOf_keeps {γ : Type} (g : Core → γ) {f : Core → Core} (hid : ∀ c, (f c).id = c.id) (hg : ∀ c, g (f c) = g c)
    (s : State) (n k : Nat) : g ((s.modCore n f).coreOf k) = g (s.coreOf k) := by
  rw [State.coreOf_modCore _ _ _ _ hid]
  split
  · rename_i h
    rw [h, hg]
  · rfl

@[simp] theorem State.inject_waits (s : State) (a : Nat) (write : Bool) (k : Nat) : ((s.inject a write).coreOf k).waits = (s.coreOf k).waits :=
  State.inject_keeps (fun s => (s.coreOf k).waits)
    (fun s n f h => State.modCore_coreOf_keeps Core.waits (fun c => by rw [h c]) (fun c => by rw [h c]) s n k)
    (fun _ _ => rfl) (fun _ => rfl) (fun _ => rfl) s a write

/-! ## Storing -/

/-- The fields of a thread other than its reservation. -/
theorem State.putBytes_thr (s : State) (a n v : Nat) : ∃ r, (s.putBytes a n v).thr = { s.thr with resv := r } := by
  unfold State.putBytes
  rw [State.depScan_thr]
  simp only [State.loseResv, State.modThreads_thr]
  split
  · exact ⟨_, rfl⟩
  · exact ⟨s.thr.resv, rfl⟩

@[simp] theorem State.tenantMark_net (s : State) (c n : Nat) (va : Word) (st : Bool) : (s.tenantMark c n va st).net = s.net := by
  unfold State.tenantMark; split <;> rfl
@[simp] theorem State.depScan_net (s : State) : s.depScan.net = s.net := State.depScan_keeps State.net (by simp) (fun _ _ => rfl) s
@[simp] theorem State.putBytes_net (s : State) (a n v : Nat) : (s.putBytes a n v).net = s.net := by
  simp [State.putBytes, State.loseResv]

theorem State.coreOf_congr {s t : State} (h : t.core = s.core) (hs : t.cores = s.cores) (n : Nat) : t.coreOf n = s.coreOf n := by
  unfold State.coreOf; rw [h, hs]

@[simp] theorem State.depScan_coreOf (s : State) (n : Nat) : s.depScan.coreOf n = s.coreOf n :=
  State.coreOf_congr s.depScan_core s.depScan_cores n
@[simp] theorem State.putBytes_coreOf (s : State) (a n v k : Nat) : (s.putBytes a n v).coreOf k = s.coreOf k :=
  State.coreOf_congr (by simp) (by simp) k

/-- A launch that waits for no word of memory goes on waiting for none as dependences are met (R75). -/
theorem State.noDeps_of_infos {s t : State} (h : s.noDeps)
    (hl : ∀ l ∈ t.launcher.list, ∃ m ∈ s.launcher.list, l.info = m.info ∧ (l.status = .held → m.status = .held)) : t.noDeps := by
  intro l hm hs
  obtain ⟨m, hmem, hi, hst⟩ := hl l hm
  rw [hi]
  exact h m hmem (hst hs)

theorem State.noDeps_modLaunch {s : State} (h : s.noDeps) (id : Nat) {f : Launch → Launch} (hf : ∀ l, (f l).info = l.info ∧ (f l).status = l.status) :
    (s.modLaunch id f).noDeps := by
  refine State.noDeps_of_infos h fun l hl => ?_
  obtain ⟨m, hm, rfl⟩ := List.mem_map.1 hl
  refine ⟨m, hm, ?_⟩
  split
  · exact ⟨(hf m).1, fun hs => (hf m).2 ▸ hs⟩
  · exact ⟨rfl, fun hs => hs⟩

theorem State.noDeps_depScan {s : State} (h : s.noDeps) : s.depScan.noDeps := by
  unfold State.depScan
  extract_lets met ids s1
  split
  · exact h
  · have h1 : s1.launcher = s.launcher := foldl_keeps State.launcher _ (fun t l => by
      split
      · unfold State.tenantMark; split <;> rfl
      · rfl) _ s
    refine State.noDeps_of_infos h fun l hl => ?_
    rw [h1] at hl
    obtain ⟨m, hm, rfl⟩ := List.mem_map.1 hl
    refine ⟨m, hm, ?_⟩
    split
    · exact ⟨rfl, fun hs => by simp at hs⟩
    · exact ⟨rfl, fun hs => hs⟩

theorem State.noDeps_putBytes {s : State} (h : s.noDeps) (a n v : Nat) : (s.putBytes a n v).noDeps := State.noDeps_depScan h

end Sys2Proof.Machine
end

section
/-! Full/empty operations at their words, in the wait table and turned away (O19). -/

namespace Sys2Proof.Machine

/-! ## An operation performed at its word (R318, R320) -/

theorem Thread.feDone_pc (t : Thread) : t.feDone.pc = t.pc + 4 := rfl
theorem Thread.feDone_g (t : Thread) : t.feDone.g = t.g := rfl
theorem Thread.feDone_pend (t : Thread) : t.feDone.pend = t.pend := rfl

/-- A result that is delivered stands with its value, ready to land. -/
theorem Thread.mem_deliver {t : Thread} {tok : Nat} {v : Word} {fl : BitVec 5} {bad : Option Word} {p : Pending} (hp : p ∈ t.pend)
    (h : p.tok = tok) : ∃ q ∈ (t.deliver tok v fl bad).pend, q.tok = p.tok ∧ q.dst = p.dst ∧ q.ready = true ∧ q.val = v :=
  ⟨_, List.mem_map_of_mem hp, by rw [if_pos h]; exact ⟨rfl, rfl, rfl, rfl⟩⟩

/-- The issuing thread among the threads that an update picks. -/
theorem State.modThread_thr_is {s : State} {n k : Nat} (f : Thread → Thread) (hl : s.thr.live = true) (hc : s.thr.core = n) (hf : s.thr.frame = k) :
    (s.modThread n k f).thr = f s.thr := by
  rw [State.modThread_thr, if_pos (by simp [hl, Thread.is, hc, hf])]

/-- The state in which an operation meets its word: its message received, and an injection met (R79, R349). -/
def State.feMeet (s : State) (e : WaitEntry) : State :=
  (if e.remote then s.recvd e.launch (homeOf e.key e.core) else s).inject e.key (e.kind == .stef)

section
variable (s : State) (e : WaitEntry)

@[simp] theorem State.feMeet_thr : (s.feMeet e).thr = s.thr := by unfold State.feMeet; rw [State.inject_thr]; split <;> rfl
@[simp] theorem State.feMeet_net : (s.feMeet e).net = s.net := by unfold State.feMeet; rw [State.inject_net]; split <;> rfl
@[simp] theorem State.feMeet_bytes : (s.feMeet e).mem.bytes = s.mem.bytes := by unfold State.feMeet; rw [State.inject_bytes]; split <;> rfl
@[simp] theorem State.feMeet_empty : (s.feMeet e).mem.empty = s.mem.empty := by unfold State.feMeet; rw [State.inject_empty]; split <;> rfl
@[simp] theorem State.feMeet_waits (n : Nat) : ((s.feMeet e).coreOf n).waits = (s.coreOf n).waits := by
  unfold State.feMeet; rw [State.inject_waits]; split <;> rfl
end

theorem State.feMeet_noDeps {s : State} (h : s.noDeps) (e : WaitEntry) : (s.feMeet e).noDeps := by
  have h1 : (if e.remote then s.recvd e.launch (homeOf e.key e.core) else s).noDeps := by
    split
    · exact State.noDeps_modLaunch h _ fun _ => ⟨rfl, rfl⟩
    · exact h
  unfold State.noDeps State.feMeet
  rwa [State.inject_launcher]

theorem State.feMeet_wf {s : State} (w : s.Inv) (e : WaitEntry) : (s.feMeet e).mem.wf = true := by
  refine State.inject_wf ?_ _ _
  split <;> exact w

/-- What LDF and LDFE do at their word. -/
theorem State.feDo_load {s : State} {e : WaitEntry} (h : e.kind ≠ .stef) :
    ∃ bad : Thread → Option Word, s.feDo e = ({ s.feMeet e with
      mem := if e.kind = .ldfe then (s.feMeet e).mem.setFull e.key false else (s.feMeet e).mem } : State).modThread e.core e.frame fun t =>
        (t.deliver e.tok (BitVec.ofNat 64 (s.numAt e.key 8)) 0 (bad t)).feDone := by
  have hv : (s.feMeet e).mem.read e.key 8 = s.numAt e.key 8 := by
    rw [State.numAt_eq_read, Memory.read, State.feMeet_bytes]; rfl
  refine ⟨fun t => if (s.feMeet e).mem.isPoisoned e.key then some ((t.park.map fun p => p.arg).getD 0) else none, ?_⟩
  rw [← hv]
  cases hk : e.kind with
  | stef => exact absurd hk h
  | ldf => simp only [State.feDo, State.feMeet, hk]; rfl
  | ldfe => simp only [State.feDo, State.feMeet, hk]; rfl

/-- A word as an STEF fills it, poisoned where its store-buffer entry was in error (R213, R319). -/
def State.feFill (s : State) (e : WaitEntry) : State :=
  { s.putBytes e.key 8 e.data.toNat with
    mem := (if e.bad then (s.putBytes e.key 8 e.data.toNat).mem.setPoison e.key true else (s.putBytes e.key 8 e.data.toNat).mem).setFull e.key true }

/-- What STEF does at its word. -/
theorem State.feDo_store {s : State} {e : WaitEntry} (h : e.kind = .stef) :
    s.feDo e = ((s.feMeet e).feFill e).depScan.modThread e.core e.frame Thread.feDone := by
  simp only [State.feDo, State.feMeet, State.feFill, h]

theorem State.noDeps_feFill {s : State} (h : s.noDeps) (e : WaitEntry) : (s.feFill e).noDeps := State.noDeps_putBytes h e.key 8 e.data.toNat

/-- The word holds the value, full. -/
theorem State.feFill_mem {s : State} (w : s.Inv) (hd : s.noDeps) (e : WaitEntry) :
    (s.feFill e).mem.bytes = writeBytes s.mem.bytes e.key 8 e.data.toNat ∧ (s.feFill e).mem.isFull e.key = true := by
  have hw : (s.putBytes e.key 8 e.data.toNat).mem.wf = true := State.putBytes_wf w _ _ _
  have hb : (s.putBytes e.key 8 e.data.toNat).mem.bytes = writeBytes s.mem.bytes e.key 8 e.data.toNat := by
    rw [State.putBytes_mem hd, Memory.write_bytes]
  unfold State.feFill
  dsimp only
  rw [Memory.setFull_bytes]
  split
  · exact ⟨hb, by rw [Memory.isFull_setFull (Memory.wf_setPoison hw _ _), if_pos rfl]⟩
  · exact ⟨hb, by rw [Memory.isFull_setFull hw, if_pos rfl]⟩

theorem State.feDo_net (s : State) (e : WaitEntry) : (s.feDo e).net = s.net := by
  by_cases h : e.kind = .stef
  · rw [State.feDo_store h, State.modThread_net, State.depScan_net]
    exact (State.putBytes_net ..).trans (State.feMeet_net ..)
  · obtain ⟨bad, hx⟩ := State.feDo_load (s := s) h
    rw [hx]; simp

theorem State.feDo_waits (s : State) (e : WaitEntry) (n : Nat) : ((s.feDo e).coreOf n).waits = (s.coreOf n).waits := by
  by_cases h : e.kind = .stef
  · rw [State.feDo_store h, State.coreOf_modThread, State.depScan_coreOf]
    exact (congrArg Core.waits (State.putBytes_coreOf (s.feMeet e) e.key 8 e.data.toNat n)).trans (State.feMeet_waits ..)
  · obtain ⟨bad, hx⟩ := State.feDo_load (s := s) h
    rw [hx, State.coreOf_modThread]
    exact State.feMeet_waits ..

/-- What a load leaves of its word: LDF all of it, LDFE its bytes. -/
theorem State.feDo_load_mem {s : State} (w : s.Inv) {e : WaitEntry} (h : e.kind ≠ .stef) :
    (s.feDo e).mem.bytes = s.mem.bytes ∧ (s.feDo e).mem.isFull e.key = (if e.kind = .ldfe then false else s.mem.isFull e.key) := by
  obtain ⟨bad, hx⟩ := State.feDo_load (s := s) h
  rw [hx, State.modThread_mem]
  split
  · exact ⟨by simp, by rw [Memory.isFull_setFull (State.feMeet_wf w e), if_pos rfl]⟩
  · exact ⟨by simp, by simp [Memory.isFull]⟩

/-- What an STEF leaves of its word: its value, full. -/
theorem State.feDo_store_mem {s : State} (w : s.Inv) (hd : s.noDeps) {e : WaitEntry} (h : e.kind = .stef) :
    (s.feDo e).mem.bytes = writeBytes s.mem.bytes e.key 8 e.data.toNat ∧ (s.feDo e).mem.isFull e.key = true := by
  have hn := State.feMeet_noDeps hd e
  have hm : (s.feDo e).mem = ((s.feMeet e).feFill e).mem := by
    rw [State.feDo_store h, State.modThread_mem, State.depScan_mem (State.noDeps_feFill hn e)]
  rw [hm, ← State.feMeet_bytes s e]
  exact State.feFill_mem (State.feMeet_wf w e) hn e

/-- The issuer of the operation, where it is the issuing thread: it goes on, and a load's result can land with the word's value. -/
theorem State.feDo_thr {s : State} {e : WaitEntry} (hl : s.thr.live = true) (hc : s.thr.core = e.core) (hf : s.thr.frame = e.frame) :
    (s.feDo e).thr.pc = s.thr.pc + 4 ∧ (s.feDo e).thr.g = s.thr.g ∧
      (e.kind ≠ .stef → ∀ p ∈ s.thr.pend, p.tok = e.tok → ∃ q ∈ (s.feDo e).thr.pend, q.tok = p.tok ∧ q.dst = p.dst ∧ q.ready = true ∧
        q.val = BitVec.ofNat 64 (s.numAt e.key 8)) := by
  by_cases h : e.kind = .stef
  · obtain ⟨r, hr⟩ := State.putBytes_thr (s.feMeet e) e.key 8 e.data.toNat
    rw [State.feMeet_thr] at hr
    have ht : (s.feDo e).thr = ({ s.thr with resv := r } : Thread).feDone := by
      rw [State.feDo_store h, State.modThread_thr_is] <;> rw [State.depScan_thr]
      · exact congrArg Thread.feDone hr
      · exact (congrArg Thread.live hr).trans hl
      · exact (congrArg Thread.core hr).trans hc
      · exact (congrArg Thread.frame hr).trans hf
    rw [ht]
    exact ⟨rfl, rfl, fun hn => absurd h hn⟩
  · obtain ⟨bad, hx⟩ := State.feDo_load (s := s) h
    have ht := congrArg State.thr hx
    rw [State.modThread_thr_is _ (by simpa using hl) (by simpa using hc) (by simpa using hf)] at ht
    rw [ht]
    simp only [State.feMeet_thr]
    exact ⟨rfl, rfl, fun _ p hp hk => Thread.mem_deliver hp hk⟩

/-! ## An operation that arrives (R320) -/

theorem homeOf_scratch {key : Nat} (h : isScratchKey key = true) (core : Nat) : homeOf key core = (key - scratchBase) / 0x100000 := if_pos h

/-- No entry of a word's table is looked at where there is none. -/
theorem State.wakeWord_noWaits {s : State} {key : Nat} (h : isScratchKey key = true) (hw : (s.coreOf ((key - scratchBase) / 0x100000)).waits = []) :
    s.wakeWord key = s := by
  unfold State.wakeWord
  rw [if_pos h]
  dsimp only
  rw [hw]
  rfl

/-- An operation that can proceed, with no other waiting, is performed (R320). -/
theorem State.feArrive_ready {s : State} {e : WaitEntry} (hr : s.feReady e = true) (h : isScratchKey e.key = true)
    (hw : (s.coreOf (homeOf e.key e.core)).waits = []) : s.feArrive e = s.feDo e := by
  rw [State.feArrive, if_pos hr, State.wakeWord_noWaits h]
  rw [State.feDo_waits, ← homeOf_scratch h e.core, hw]

/-- One that cannot enters the table of its word's core while there is room. -/
theorem State.feArrive_enters {s : State} {e : WaitEntry} (hr : s.feReady e = false) (hw : (s.coreOf (homeOf e.key e.core)).waits.length < 128) :
    (s.feArrive e).net = s.net ∧ (s.feArrive e).mem = s.mem ∧
      ((s.feArrive e).coreOf (homeOf e.key e.core)).waits = (s.coreOf (homeOf e.key e.core)).waits ++ [e] := by
  have hx : s.feArrive e = s.modCore (homeOf e.key e.core) fun c => { c with waits := c.waits ++ [e] } := by
    simp [State.feArrive, hr, hw]
  rw [hx, State.coreOf_modCore_same]
  · exact ⟨by simp, by simp, rfl⟩
  · exact fun _ => rfl

/-- Past that it is turned away for 256 cc. -/
theorem State.feArrive_turnedAway {s : State} {e : WaitEntry} (hr : s.feReady e = false) (hw : ¬(s.coreOf (homeOf e.key e.core)).waits.length < 128) :
    (s.feArrive e).net = s.net ∧ (s.feArrive e).mem = s.mem ∧ (s.cc + 256, e) ∈ ((s.feArrive e).coreOf e.core).retries := by
  have hx : s.feArrive e = s.modCore e.core fun c => { c with retries := c.retries ++ [(s.cc + 256, e)] } := by
    simp [State.feArrive, hr, hw]
  rw [hx, State.coreOf_modCore_same]
  · exact ⟨by simp, by simp, by simp⟩
  · exact fun _ => rfl

/-- The only operation under way arrives at its word. -/
theorem execFullEmptyApply_one {s : State} {r : FeReq} (h : s.net.fe = [r]) (hreset : (s.coreOf r.core).reset = none)
    (ht : s.tenantHolds r.e = true) :
    exec (.fullEmptyApply r.e.core r.e.key) s = .next (({ s with net := { s.net with fe := [] } } : State).feArrive r.e) := by
  change execFullEmptyApply r.e.core r.e.key s = _
  simp [execFullEmptyApply, h, hreset, ht]

/-- An operation turned away is tried again once it is due (R320). -/
theorem execWaitTableRetry_found {s : State} {core frame due : Nat} {e : WaitEntry}
    (h : ((s.coreOf core).retries.find? fun r => r.2.frame == frame) = some (due, e))
    (hreset : (s.coreOf (homeOf e.key e.core)).reset = none) (ht : s.tenantHolds e = true) :
    exec (.waitTableRetry core frame) s = whenEnabled (decide (due ≤ s.cc))
      ((s.modCore core fun c => { c with retries := c.retries.erase (due, e) }).feArrive e) := by
  change execWaitTableRetry core frame s = _
  simp [execWaitTableRetry, h, hreset, ht]

/-- Settles O19: the three ends of an operation that arrives, and the retry by its time. -/
theorem fullEmptyTable : Obligations.FullEmptyTable := by
  refine ⟨fun s r w hd hfe hreset ht hkey _ _ => ?_, fun s core frame due e h hreset ht => ?_⟩
  · rw [execFullEmptyApply_one hfe hreset ht]
    let u : State := { s with net := { s.net with fe := [] } }
    refine ⟨fun hr hw => ⟨u.feDo r.e, congrArg _ (State.feArrive_ready (s := u) hr hkey hw), by rw [State.feDo_net], fun hk => ?_, fun hk => ?_,
      fun hk => ?_, State.feDo_thr (s := u)⟩, fun hr hw => ?_, fun hr hw => ?_⟩
    · obtain ⟨hb, hf⟩ := State.feDo_load_mem (s := u) w (e := r.e) (by simp [hk])
      have hfull : s.mem.isFull r.e.key = true := by simpa [State.feReady, hk] using hr
      exact ⟨by simpa [hk, u, hfull] using hf, hb⟩
    · obtain ⟨hb, hf⟩ := State.feDo_load_mem (s := u) w (e := r.e) (by simp [hk])
      exact ⟨by simpa [hk] using hf, hb⟩
    · obtain ⟨hb, hf⟩ := State.feDo_store_mem (s := u) w hd hk
      exact ⟨hf, State.storedAt_of_bytes w hb⟩
    · obtain ⟨hn, hm, hc⟩ := State.feArrive_enters (s := u) hr hw
      exact ⟨_, rfl, by rw [hn], hm, hc⟩
    · obtain ⟨hn, hm, hc⟩ := State.feArrive_turnedAway (s := u) hr hw.not_lt
      exact ⟨_, rfl, by rw [hn], hm, hc⟩
  · rw [execWaitTableRetry_found h hreset ht]
    exact ⟨fun hd => by rw [decide_eq_false (by omega)]; rfl, fun hd => ⟨_, by rw [decide_eq_true hd]; rfl, rfl⟩⟩

end Sys2Proof.Machine
end

section
/-! What reading operands may change. -/

namespace Sys2Proof.Machine

/-! ## One bit of a word -/

theorem getLsbD_setBit (w : Word) (i : Nat) (b : Bool) {j : Nat} (hj : j < 64) :
    (setBit w i b).getLsbD j = if j = i then b else w.getLsbD j := by
  have hp : (BitVec.ofNat 64 (2 ^ i)).getLsbD j = decide (j = i) := by
    rw [BitVec.getLsbD_ofNat, Nat.testBit_two_pow, decide_eq_true hj, Bool.true_and]
    exact decide_eq_decide.2 eq_comm
  have hm : (2 ^ 1 - 1) * 2 ^ i = 2 ^ i := by simp
  have hv : (if b then 1 else 0) % 2 ^ 1 * 2 ^ i = if b then 2 ^ i else 0 := by cases b <;> simp
  unfold setBit setField
  rw [hm, hv, BitVec.getLsbD_or, BitVec.getLsbD_and, BitVec.getLsbD_not, hp, decide_eq_true hj]
  cases b
  · by_cases h : j = i <;> simp [h]
  · rw [if_pos rfl, hp]
    by_cases h : j = i <;> simp [h]

/-! ## Operands -/

/-- t is s with operands read: words popped off the queues, the values and tags of resolved futures, and an injection counted down. -/
def State.ReadsAs (s t : State) : Prop :=
  ∃ (g : Vector Word 16) (st : Word) (popped : List (Bool × Word)) (qup qrx : List Word) (skip : Nat),
    t = { s with
      thr := { s.thr with g := g, st := st, popped := popped }
      core := { s.core with qup := qup, qrx := qrx, injSkip := skip } } ∧
    ∀ i, i < 19 → st.getLsbD i = s.thr.st.getLsbD i

theorem State.ReadsAs.refl (s : State) : s.ReadsAs s := ⟨_, _, _, _, _, _, rfl, fun _ _ => rfl⟩

theorem State.ReadsAs.trans {s t u : State} (h1 : s.ReadsAs t) (h2 : t.ReadsAs u) : s.ReadsAs u := by
  obtain ⟨_, _, _, _, _, _, rfl, hb1⟩ := h1
  obtain ⟨g, st, p, qup, qrx, k, rfl, hb2⟩ := h2
  exact ⟨g, st, p, qup, qrx, k, rfl, fun i hi => (hb2 i hi).trans (hb1 i hi)⟩

section
variable {s t : State} (h : s.ReadsAs t)
include h

theorem State.ReadsAs.sup_eq : t.thr.sup = s.thr.sup := by
  obtain ⟨_, _, _, _, _, _, rfl, hb⟩ := h
  simp only [Thread.sup, hb 0 (by omega), hb 1 (by omega)]

theorem State.ReadsAs.anchored_eq : t.thr.anchored = s.thr.anchored := by
  obtain ⟨_, _, _, _, _, _, rfl, hb⟩ := h
  exact hb 17 (by omega)

/-- What looks at no g register, no st, no queue and no injection is as it was. -/
theorem State.ReadsAs.keeps {γ : Type} (f : State → γ)
    (hf : ∀ g st popped qup qrx skip, f { s with
      thr := { s.thr with g := g, st := st, popped := popped }
      core := { s.core with qup := qup, qrx := qrx, injSkip := skip } } = f s) : f t = f s := by
  obtain ⟨g, st, p, qup, qrx, k, rfl, -⟩ := h
  exact hf g st p qup qrx k

end

theorem State.readsAs_settleFut (s : State) (n : Fin 16) (f : Option Future) : s.ReadsAs (s.settleFut n f) := by
  cases f with
  | none => exact .refl s
  | some f =>
    refine ⟨_, _, _, _, _, _, rfl, fun i hi => ?_⟩
    rw [getLsbD_setBit _ _ _ (by omega), if_neg (by omega)]

theorem State.readsAs_check (s0 : State) {t : State} (srcs : List Src) : ∀ s : State, s0.check s srcs = .ok t → s.ReadsAs t := by
  induction srcs with
  | nil => exact fun s h => Except.ok.inj h ▸ .refl s
  | cons x r ih =>
    intro s h
    cases x with
    | gz => exact ih s h
    | qup => exact ih s h
    | qrx => exact ih s h
    | g n =>
      simp only [State.check] at h
      generalize (if s.thr.tagged n.1 then s.futureOf s.thr.g[n] else none) = fut at h
      have hf := State.readsAs_settleFut s n fut
      split at h
      · cases h
      · split at h
        · cases h
        · split at h
          · cases h
          · split at h
            · cases h
            · split at h
              · cases h
              · exact hf.trans (.trans ⟨_, _, _, _, _, _, rfl, fun _ _ => rfl⟩ (ih _ h))
              · exact hf.trans (ih _ h)

theorem State.readsAs_take (srcs : List Src) : ∀ s : State, s.ReadsAs (s.take srcs).1 := by
  induction srcs with
  | nil => exact fun s => .refl s
  | cons x r ih =>
    intro s
    cases x with
    | g n => exact ih s
    | gz => exact ih s
    | qup => exact .trans ⟨_, _, _, _, _, _, rfl, fun _ _ => rfl⟩ (ih { s with core := { s.core with qup := s.core.qup.tail } })
    | qrx => exact .trans ⟨_, _, _, _, _, _, rfl, fun _ _ => rfl⟩ (ih { s with core := { s.core with qrx := s.core.qrx.tail } })

theorem State.readsAs_takeAll (s : State) (srcs : List Src) : s.ReadsAs (s.takeAll srcs).1 := by
  have ht := State.readsAs_take srcs s
  simp only [State.takeAll]
  split
  · exact ht
  · exact ht.trans ⟨_, _, _, _, _, _, rfl, fun _ _ => rfl⟩

/-- Operands that can be read change nothing else. -/
theorem State.readsOf_readsAs {s s1 : State} {short : Bool} {srcs : List Src} {d : Dst} {vs : List Word}
    (h : s.readsOf short srcs d = some (s1, vs)) : s.ReadsAs s1 := by
  unfold State.readsOf at h
  split at h
  · cases h
  · split at h
    · cases h
    · rename_i u hu
      split at h
      · cases h
      · have ht := (State.readsAs_check s srcs s hu).trans (State.readsAs_takeAll u srcs)
        rwa [Option.some.inj h] at ht

/-- An instruction without sources reads nothing. -/
theorem State.readsOf_nil {s s1 : State} {short : Bool} {d : Dst} {vs : List Word} (h : s.readsOf short [] d = some (s1, vs)) :
    s1 = s ∧ vs = [] := by
  unfold State.readsOf at h
  split at h
  · cases h
  · simp only [State.check] at h
    split at h
    · cases h
    · cases h; exact ⟨rfl, rfl⟩

end Sys2Proof.Machine
end

section
/-! Numbers within numbers, and words set full where none waits. -/

namespace Sys2Proof.Machine

/-! ## Bytes of numbers (R6) -/

/-- The first n bytes of a number of more bytes. -/
theorem readBytes_mod (l : List Host.Cell) (n k : Nat) : ∀ a, readBytes l a (n + k) % 256 ^ n = readBytes l a n := by
  induction n with
  | zero => intro a; simp [readBytes, Nat.mod_one]
  | succ n ih =>
    intro a
    have hb := (getByte l a).isLt
    rw [Nat.succ_add, readBytes, readBytes, Nat.pow_succ', Nat.mod_mul, Nat.add_mul_mod_self_left, Nat.mod_eq_of_lt hb,
      Nat.add_mul_div_left _ _ (by decide), Nat.div_eq_of_lt hb, Nat.zero_add, ih]

/-- What stands k bytes on in a number. -/
theorem readBytes_div (l : List Host.Cell) (n k : Nat) : ∀ a, readBytes l a (k + n) / 256 ^ k = readBytes l (a + k) n := by
  induction k with
  | zero => intro a; simp
  | succ k ih =>
    intro a
    have hb := (getByte l a).isLt
    rw [Nat.succ_add, readBytes, Nat.pow_succ', ← Nat.div_div_eq_div_mul, Nat.add_mul_div_left _ _ (by decide), Nat.div_eq_of_lt hb,
      Nat.zero_add, ih, Nat.add_right_comm, Nat.add_assoc]

/-- n bytes at offset k of a number of N bytes. -/
theorem readBytes_sub (l : List Host.Cell) {n k N : Nat} (h : k + n ≤ N) (a : Nat) :
    readBytes l a N / 256 ^ k % 256 ^ n = readBytes l (a + k) n := by
  obtain ⟨j, rfl⟩ := Nat.exists_eq_add_of_le h
  rw [Nat.add_assoc, readBytes_div, readBytes_mod]

/-- A number put together from its bytes. -/
theorem foldr_bytes (x n : Nat) : (List.range n).foldr (fun i v => x / 256 ^ i % 256 + 256 * v) 0 = x % 256 ^ n := by
  induction n generalizing x with
  | zero => simp [Nat.mod_one]
  | succ n ih =>
    rw [List.range_succ_eq_map, List.foldr_cons, List.foldr_map, Nat.pow_succ', Nat.mod_mul, ← ih (x / 256)]
    simp only [Nat.pow_zero, Nat.div_one, Nat.succ_eq_add_one, Nat.pow_succ', ← Nat.div_div_eq_div_mul]

/-- Stored bytes are those of the number's low end. -/
theorem State.storedAt_mod {s t : State} {a n v : Nat} (h : s.storedAt t a n (v % 256 ^ n)) : s.storedAt t a n v := by
  intro k
  rw [h k]
  split
  · rename_i hk
    have hd : 256 ^ n = 256 ^ (k - a) * (256 * 256 ^ (n - (k - a) - 1)) := by
      rw [← Nat.pow_succ', ← Nat.pow_add]
      congr 1
      omega
    rw [hd, Nat.mod_mul_right_div_self]
    exact BitVec.eq_of_toNat_eq (by simp)
  · rfl

/-! ## Words set full (R92, R320) -/

/-- A field of the state that no thread, no memory, no launch and no wait table is part of is as it was. -/
structure State.FeKeeps {γ : Type} (g : State → γ) : Prop where
  mem : ∀ (s : State) (m : Memory), g { s with mem := m } = g s
  thread : ∀ (s : State) n k f, g (s.modThread n k f) = g s
  resv : ∀ (s : State) line, g (s.loseResv line fun _ => true) = g s
  launcher : ∀ (s : State) (l : Launcher), g { s with launcher := l } = g s
  inject : ∀ (s : State) a w, g (s.inject a w) = g s
  waits : ∀ (s : State) n (f : Core → List WaitEntry), g (s.modCore n fun c => { c with waits := f c }) = g s

section
variable {γ : Type} {g : State → γ} (h : State.FeKeeps g)
include h

theorem State.depScan_feKeeps (s : State) : g s.depScan = g s := by
  refine State.depScan_keeps g (fun s c n va st => ?_) h.launcher s
  unfold State.tenantMark
  split
  · exact h.mem _ _
  · rfl

theorem State.putBytes_feKeeps (s : State) (a n v : Nat) : g (s.putBytes a n v) = g s := by
  unfold State.putBytes
  rw [State.depScan_feKeeps h, h.resv, h.mem]

theorem State.feDo_feKeeps (s : State) (e : WaitEntry) : g (s.feDo e) = g s := by
  have h1 : ∀ w, g ((if e.remote then s.recvd e.launch (homeOf e.key e.core) else s).inject e.key w) = g s := by
    intro w
    rw [h.inject]
    split
    · exact h.launcher _ _
    · rfl
  unfold State.feDo
  dsimp only
  split
  · rw [h.thread, State.depScan_feKeeps h, h.mem, State.putBytes_feKeeps h, h1]
  · rw [h.thread]
    split
    · rw [h.mem, h1]
    · exact h1 _

theorem State.fePass_feKeeps (home key n : Nat) : ∀ s : State, g (s.fePass home key n) = g s := by
  induction n with
  | zero => exact fun _ => rfl
  | succ n ih =>
    intro s
    unfold State.fePass
    split
    · rfl
    · rw [ih, State.feDo_feKeeps h, h.waits]

theorem State.setWord_feKeeps (s : State) (key : Nat) (full : Bool) : g (s.setWord key full) = g s := by
  unfold State.setWord State.wakeWord
  split
  · rw [State.fePass_feKeeps h, State.depScan_feKeeps h, h.mem]
  · rw [foldl_keeps g _ (fun t (c : Core) => State.fePass_feKeeps h c.id key c.waits.length t), State.depScan_feKeeps h, h.mem]

theorem State.fillWords_feKeeps (s : State) (ks : List Nat) : g (s.fillWords ks) = g s :=
  foldl_keeps g _ (fun t k => by split; exacts [rfl, State.setWord_feKeeps h _ _ _]) _ s

end

/-- The engines of a core take no part in full/empty operations. -/
theorem State.feKeeps_eng (n : Nat) : State.FeKeeps fun s => (s.coreOf n).eng where
  mem _ _ := rfl
  thread _ _ _ _ := rfl
  resv _ _ := rfl
  launcher _ _ := rfl
  inject := State.inject_keeps (fun s => (s.coreOf n).eng)
    (fun s k f h => State.modCore_coreOf_keeps Core.eng (fun c => by rw [h c]) (fun c => by rw [h c]) s k n)
    (fun _ _ => rfl) (fun _ => rfl) (fun _ => rfl)
  waits s k f := by refine State.modCore_coreOf_keeps Core.eng ?_ ?_ s k n <;> exact fun _ => rfl

@[simp] theorem State.fillWords_eng (s : State) (ks : List Nat) (n : Nat) : ((s.fillWords ks).coreOf n).eng = (s.coreOf n).eng :=
  State.fillWords_feKeeps (State.feKeeps_eng n) s ks

/-- A word set full where none waits for it changes no byte. -/
theorem State.fillWords_noWaits {s : State} (hd : s.noDeps) {key : Nat} (hs : isScratchKey key = true)
    (hw : (s.coreOf ((key - scratchBase) / 0x100000)).waits = []) : (s.fillWords [key]).mem.bytes = s.mem.bytes := by
  have hset : (s.setWord key true).mem.bytes = s.mem.bytes := by
    have hdeps : ({ s with mem := s.mem.setFull key true } : State).noDeps := hd
    unfold State.setWord
    rw [State.wakeWord_noWaits hs, State.depScan_mem hdeps, Memory.setFull_bytes]
    rw [State.depScan_coreOf]
    exact hw
  have he : [key].eraseDups = [key] := by simp [List.eraseDups_cons]
  unfold State.fillWords
  rw [he, List.foldl_cons, List.foldl_nil]
  split
  · rfl
  · exact hset

end Sys2Proof.Machine
end

section
/-! CPY, CPYX and CPTR, and the copies of a channel from their begin to their end (O40). -/

namespace Sys2Proof.Machine

/-! ## Channels -/

theorem chan_val (ch : Fin 4) : chan ch.1 = some ch := dif_pos ch.2

/-- A channel changed, as it then stands. -/
theorem State.chOf_modCh (s : State) (core : Nat) (ch : Fin 4) (f : Channel → Channel) : (s.modCh core ch f).chOf core ch = f (s.chOf core ch) := by
  unfold State.modCh State.modEng State.chOf
  rw [State.coreOf_modCore_same]
  · simp
  · exact fun _ => rfl

/-- Records take no part in a change of a channel. -/
theorem State.futs_modCh (s : State) (core : Nat) (ch : Fin 4) (f : Channel → Channel) :
    ((s.modCh core ch f).coreOf core).eng.futs = (s.coreOf core).eng.futs := by
  unfold State.modCh State.modEng
  rw [State.coreOf_modCore_same]
  exact fun _ => rfl

theorem State.chOf_congr {s t : State} {core : Nat} (h : (t.coreOf core).eng.ch = (s.coreOf core).eng.ch) (ch : Fin 4) :
    t.chOf core ch = s.chOf core ch := by
  unfold State.chOf; rw [h]

/-- A record resolved changes no channel. -/
theorem State.chOf_resolve (s : State) (core id : Nat) (st : FutStatus) (v a : Word) (ch : Fin 4) :
    (s.resolve core id st v a).chOf core ch = s.chOf core ch := by
  refine State.chOf_congr ?_ ch
  unfold State.resolve State.modFuture
  rw [State.coreOf_modCore_same]
  exact fun _ => rfl

/-- A pending record resolved, as it then stands (R402). -/
theorem State.find_resolve {s : State} {core id : Nat} {fu : Future} (st : FutStatus) (v a : Word)
    (h : ((s.coreOf core).eng.futs.find? fun f => f.id == id) = some fu) (hp : fu.status = .pending) :
    (((s.resolve core id st v a).coreOf core).eng.futs.find? fun f => f.id == id) = some { fu with status := st, value := v, addr := a } := by
  have hid : fu.id = id := by simpa using List.find?_some h
  unfold State.resolve State.modFuture
  rw [State.coreOf_modCore_same]
  · rw [List.find?_map]
    have hc : ((fun f : Future => f.id == id) ∘ fun x : Future =>
        if x.id = id then (if x.status == .pending then { x with status := st, value := v, addr := a } else x) else x) = fun f => f.id == id := by
      funext x
      simp only [Function.comp_apply]
      split
      · split <;> rfl
      · rfl
    rw [hc, h, Option.map_some, if_pos hid]
    exact congrArg some (if_pos (by simp [hp]))
  · exact fun _ => rfl

/-! ## CPY, CPYX and CPTR (R399, R400) -/

/-- The copy that CPY and CPYX queue. -/
def State.newCopy (s : State) (ch : Fin 4) (cx8 : Bool) (id : Nat) (a b : Word) : CopyOp where
  fut := id
  frame := s.thr.frame
  launch := s.thr.launch
  num := s.core.sbNum
  sup := s.thr.sup
  cx8 := cx8
  src := a
  dst := b
  resume := s.core.eng.ch[ch].ctl.getLsbD 7
  geo := 0
  str0 := 0
  str1 := 0
  str2 := 0
  ctl := 0
  pos := 0
  next := 0
  codes := []
  buf := []
  walk := none
  walked := none
  line := 0
  covered := 0
  cancel := false

/-- What CPY and CPYX do once their operands are read. -/
theorem exec_copy_reads {i : Instr} {o : CpyOp} {cx8 : Bool} {s s1 : State} {a b : Word}
    (hi : (i = .cpy o ∧ cx8 = false) ∨ (i = .cpyx o ∧ cx8 = true)) (hl : s.thr.live = true) (ha : s.thr.anchored = true)
    (hr : s.reads [o.a, o.b] .gz = some (s1, [a, b])) :
    exec i s = .next (if 4 ≤ s1.core.eng.ch[o.ch].run.toList.length + s1.core.eng.ch[o.ch].queue.length then s.parkOn 0 0 (2 + o.ch.1)
      else match s1.freeRecord with
        | none => s.parkOn 0 0 9
        | some id => ((s1.modCh s1.core.id o.ch fun c => { c with queue := c.queue ++ [s1.newCopy o.ch cx8 id a b] }).newFuture o.d id none).retire
            o.sw) := by
  have hx : exec i s = copyOp i o cx8 s := by obtain ⟨rfl, rfl⟩ | ⟨rfl, rfl⟩ := hi <;> rfl
  rw [hx, copyOp, withThread_live _ _ hl, if_neg (by simp [ha]), State.gather2_reads _ hr]
  rfl

theorem Thread.tagged_setTag (t : Thread) (n : Fin 16) (b : Bool) : (t.setTag n.1 b).tagged n.1 = b := by
  simp only [Thread.tagged, Thread.setTag]
  rw [getLsbD_setBit _ _ _ (by omega), if_pos rfl]

theorem Thread.tagged_congr {t u : Thread} (h : t.st = u.st) (n : Nat) : t.tagged n = u.tagged n := by
  unfold Thread.tagged; rw [h]

/-- A channel of the core on hand changed. -/
theorem State.modCh_here (s : State) (ch : Fin 4) (f : Channel → Channel) :
    (s.modCh s.core.id ch f).thr = s.thr ∧ (s.modCh s.core.id ch f).core.id = s.core.id ∧
      (s.modCh s.core.id ch f).core.eng.ch[ch] = f s.core.eng.ch[ch] := by
  have h : s.modCh s.core.id ch f = { s with core := { s.core with eng := { s.core.eng with ch := s.core.eng.ch.set ch (f s.core.eng.ch[ch]) } } } := by
    unfold State.modCh State.modEng
    rw [State.modCore_here]
    rfl
  rw [h]
  exact ⟨rfl, rfl, by simp⟩

/-- A record taken: its handle in the register, and the channels as they were. -/
theorem State.newFuture_g (s : State) (n : Fin 16) (id : Nat) (stream : Option Nat) :
    (s.newFuture (.g n) id stream).thr = (s.thr.writeG n (handleOf s.core.id id)).setTag n.1 true ∧
      (s.newFuture (.g n) id stream).core.eng.ch = s.core.eng.ch := ⟨rfl, rfl⟩

/-- A copy queued on a channel, with a record for its future, and the next instruction. -/
def State.queueCopy (s : State) (ch : Fin 4) (d : Both) (id : Nat) (op : CopyOp) (sw : Bool) : State :=
  ((s.modCh s.core.id ch fun c => { c with queue := c.queue ++ [op] }).newFuture d id none).retire sw

/-- It stands last on its channel, and its handle in the register. -/
theorem State.queueCopy_g (s : State) (ch : Fin 4) (n : Fin 16) (id : Nat) (op : CopyOp) (sw : Bool) :
    (s.queueCopy ch (.g n) id op sw).core.eng.ch[ch].queue = s.core.eng.ch[ch].queue ++ [op] ∧
      (s.queueCopy ch (.g n) id op sw).thr.g = s.thr.g.set n (handleOf s.core.id id) ∧
      (s.queueCopy ch (.g n) id op sw).thr.tagged n.1 = true ∧ (s.queueCopy ch (.g n) id op sw).thr.pc = s.thr.pc + 4 ∧
      (s.queueCopy ch (.g n) id op sw).mem = s.mem := by
  obtain ⟨ht, hid, hc⟩ := s.modCh_here ch fun c => { c with queue := c.queue ++ [op] }
  obtain ⟨hthr, hch⟩ := (s.modCh s.core.id ch fun c => { c with queue := c.queue ++ [op] }).newFuture_g n id none
  rw [ht, hid] at hthr
  unfold State.queueCopy
  refine ⟨?_, ?_, ?_, ?_, by simp⟩
  · rw [State.retire_core, hch, hc]
  · rw [State.retire_thr_g, hthr]
    rfl
  · rw [Thread.tagged_congr (State.retire_thr_st ..), hthr, Thread.tagged_setTag]
  · rw [State.retire_thr_pc, hthr]
    rfl

/-! ## Scratchpad places of a copy (R309, R399) -/

/-- No physical address is a scratchpad's (R28). -/
theorem State.placePa_ne_scratch {s : State} {pa c w : Nat} : s.placePa pa ≠ .ok (.scratch c w) := by
  unfold State.placePa
  dsimp only
  repeat' split
  all_goals simp

theorem State.translate_placePa {s : State} {t : Thread} {va pa : Nat} {kind : XKind} {x : Xlate} {p : Place}
    (h : s.translate t va kind = .ok (x, pa, p)) : s.placePa pa = .ok p := by
  unfold State.translate at h
  split at h
  · cases h
  · replace h := ok_of_ite_error h
    dsimp only at h
    split at h
    · cases h
    · rename_i hp
      cases h
      exact hp

/-- A place of window 0 of a scratchpad is a multiple of the access's width there, and lies in the core's 512 KiB (R26, R309). -/
theorem State.access_scratch {s : State} {t : Thread} {a : Word} {acc : Acc} {l : Loc} {x : Option Xlate} {c : Nat}
    (h : s.access t a acc = .ok (l, x)) (hp : l.place = .scratch c 0) (hw : acc.width ∣ 8) :
    ∃ off, off < 0x80000 ∧ off % acc.width = 0 ∧ l.key = scratchKey c off := by
  unfold State.access at h
  dsimp only at h
  replace h := ok_of_ite_error h
  obtain ⟨-, h⟩ | ⟨ha, h⟩ := ite_eq_iff.1 h
  · cases h
  have ha : acc.width ∣ a.toNat := Nat.dvd_of_mod_eq_zero (not_not.1 ha)
  have hbig : ∀ k, acc.width ∣ 8 * k := fun k => hw.mul_right k
  obtain ⟨hl, h⟩ | ⟨-, h⟩ := ite_eq_iff.1 h
  · simp only [Bool.and_eq_true, decide_eq_true_eq] at hl
    replace h := ok_of_ite_error h
    cases h
    obtain ⟨rfl, hz⟩ := Place.scratch.inj hp
    simp only [hz, if_true]
    refine ⟨_, Nat.mod_lt _ (by decide), ?_, rfl⟩
    have hm : (a.toNat - localBase) % 0x80000 = a.toNat - 8 * (localBase / 8) := by
      simp only [localBase] at hl hz ⊢
      omega
    rw [hm]
    exact Nat.mod_eq_zero_of_dvd (Nat.dvd_sub ha (hbig _))
  obtain ⟨hs, h⟩ | ⟨-, h⟩ := ite_eq_iff.1 h
  · simp only [Bool.and_eq_true, decide_eq_true_eq] at hs
    replace h := ok_of_ite_error h
    obtain ⟨-, h⟩ | ⟨ho, h⟩ := ite_eq_iff.1 h
    · cases h
    cases h
    obtain ⟨rfl, -⟩ := Place.scratch.inj hp
    simp only [Bool.or_eq_true, decide_eq_true_eq, not_or] at ho
    obtain ⟨⟨⟨ho, -⟩, -⟩, -⟩ := ho
    refine ⟨(a.toNat - scratchBase) % 0x100000, by omega, ?_, ?_⟩
    rotate_left
    · simp only [scratchKey, scratchBase] at hs ⊢; omega
    have hm : (a.toNat - scratchBase) % 0x100000 = a.toNat - 8 * (scratchBase / 8 + (a.toNat - scratchBase) / 0x100000 * 0x20000) := by
      simp only [scratchBase] at hs ⊢
      omega
    rw [hm]
    exact Nat.mod_eq_zero_of_dvd (Nat.dvd_sub ha (hbig _))
  obtain ⟨-, h⟩ | ⟨-, h⟩ := ite_eq_iff.1 h
  · cases ok_of_ite_error (ok_of_ite_error (ok_of_ite_error (ok_of_ite_error h)))
    cases hp
  obtain ⟨-, h⟩ | ⟨-, h⟩ := ite_eq_iff.1 h
  · split at h
    · obtain ⟨-, h⟩ | ⟨-, h⟩ := ite_eq_iff.1 h
      · cases h; cases hp
      · cases h
    · cases h
  · split at h
    · cases h
    · rename_i ht
      cases h
      exact absurd ((State.translate_placePa ht).trans (congrArg Except.ok hp)) State.placePa_ne_scratch

/-- What a copy reaches in a scratchpad is what its access does (R399). -/
theorem State.copyAccess_scratch {s : State} {core c w : Nat} {o : CopyOp} {a : Word} {acc : Acc} {l : Loc} {x : Option Xlate}
    (h : s.copyAccess core o a acc = .ok (l, x)) (hp : l.place = .scratch c w) : s.access (s.copyThread core o) a acc = .ok (l, x) := by
  unfold State.copyAccess at h
  split at h
  · cases h
  · rename_i m y hx
    split at h
    · cases h
    · cases h; exact hx
    · cases h; exact hx
    · rename_i hn _ _
      cases h
      exact (hn c w hp).elim

/-- An access outside memory brings no line in. -/
theorem State.reach_scratch (s : State) (core : Nat) {l : Loc} {c w : Nat} (hp : l.place = .scratch c w) (excl : Bool) (launch : Nat) :
    s.reach core l excl launch = s := by
  unfold State.reach
  split
  · simp only [State.fillLoc, hp]
  · simp only [State.agentTake, hp]

theorem CopyOp.hint_scratch (o : CopyOp) {l : Loc} {c w : Nat} (hp : l.place = .scratch c w) : o.hint l = 0 := by
  simp [CopyOp.hint, Loc.cached, hp]

theorem State.copyReach_scratch (s : State) (core : Nat) (o : CopyOp) {l : Loc} {c w : Nat} (hp : l.place = .scratch c w) (excl : Bool) :
    s.copyReach core o l excl = s := by
  unfold State.copyReach
  rw [CopyOp.hint_scratch o hp, if_neg (by decide), State.reach_scratch s core hp]

theorem State.copyKeep_scratch (s : State) (core : Nat) (o : CopyOp) {l : Loc} {c w : Nat} (hp : l.place = .scratch c w) :
    s.copyKeep core o l = s := by
  unfold State.copyKeep
  rw [CopyOp.hint_scratch o hp]
  rfl

/-! ## One reading of a word (R116) -/

/-- The reading of the word at a place that a copy uses: the one it has made, or the word as memory holds it. -/
def CopyOp.word (o : CopyOp) (m : Memory) (a : Nat) : Nat × Nat × Bool :=
  (o.held a).getD (a / 8 * 8, m.read (a / 8 * 8) 8, m.isPoisoned (a / 8 * 8))

theorem CopyOp.held_congr (o : CopyOp) {a b : Nat} (h : a / 8 * 8 = b / 8 * 8) : o.held a = o.held b := by
  unfold CopyOp.held; rw [h]

section
variable (o : CopyOp) (m : Memory) {a n : Nat} (hn : 0 < n) (h : a % 8 + n ≤ 8)
include hn h

/-- A range within one word takes the reading of that word. -/
theorem CopyOp.take_word : o.take m (a, n) =
    if (o.held a).isSome then o else { o with buf := (a / 8 * 8, m.read (a / 8 * 8) 8, m.isPoisoned (a / 8 * 8)) :: o.buf } := by
  have hlen : ((a + n + 7) / 8 - a / 8) * 8 / 8 = 1 := by omega
  have hheld : o.held (a / 8 * 8) = o.held a := o.held_congr (by omega)
  simp only [CopyOp.take, wordsOf, hlen, List.range_one, List.foldl_cons, List.foldl_nil, Nat.mul_zero, Nat.add_zero, hheld]

theorem CopyOp.held_take {b : Nat} (hb : b / 8 * 8 = a / 8 * 8) : (o.take m (a, n)).held b = some (o.word m a) := by
  rw [CopyOp.take_word o m hn h, CopyOp.held_congr _ hb]
  unfold CopyOp.word
  cases ho : o.held a with
  | some x => simp [ho]
  | none => simp [CopyOp.held]

/-- The reading changes nothing of the copy but its readings. -/
theorem CopyOp.take_eq : ∃ buf, o.take m (a, n) = { o with buf := buf } := by
  rw [CopyOp.take_word o m hn h]
  split
  · exact ⟨o.buf, rfl⟩
  · exact ⟨_, rfl⟩

/-- The bytes of the range are those of the reading. -/
theorem CopyOp.bytes_take : (o.take m (a, n)).bytes m a n = (o.word m a).2.1 / 256 ^ (a % 8) % 256 ^ n := by
  rw [← foldr_bytes]
  unfold CopyOp.bytes
  have hc : ∀ l : List Nat, (∀ i ∈ l, i < n) → l.foldr (fun i v => (match (o.take m (a, n)).held (a + i) with
      | some b => b.2.1 / 256 ^ ((a + i) % 8) % 256
      | none => (getByte m.bytes (a + i)).toNat) + 256 * v) 0 =
      l.foldr (fun i v => (o.word m a).2.1 / 256 ^ (a % 8) / 256 ^ i % 256 + 256 * v) 0 := by
    intro l
    induction l with
    | nil => exact fun _ => rfl
    | cons i r ih =>
      intro hl
      have hi := hl i (List.mem_cons_self ..)
      have hm : (a + i) % 8 = a % 8 + i := by omega
      rw [List.foldr_cons, List.foldr_cons, ih fun j hj => hl j (List.mem_cons_of_mem _ hj), CopyOp.held_take o m hn h (by omega), hm,
        Nat.pow_add, Nat.div_div_eq_div_mul]
  exact hc _ fun i hi => List.mem_range.1 hi

omit hn in
/-- That is the value of the reading it has made, or of memory. -/
theorem CopyOp.word_value : (o.word m a).2.1 / 256 ^ (a % 8) % 256 ^ n = (match o.held a with
    | some (_, v, _) => v / 256 ^ (a % 8)
    | none => m.read a n) % 256 ^ n := by
  unfold CopyOp.word
  cases o.held a with
  | some x => rfl
  | none =>
    have hk : a / 8 * 8 + a % 8 = a := by omega
    simp only [Option.getD_none, Memory.read]
    rw [readBytes_sub _ h, hk, Nat.mod_eq_of_lt (readBytes_lt ..)]

end

/-- A reading of unpoisoned words is unpoisoned. -/
theorem CopyOp.word_unpoisoned (o : CopyOp) {m : Memory} (hm : m.poison = []) (hb : ∀ x ∈ o.buf, x.2.2 = false) (a : Nat) :
    (o.word m a).2.2 = false := by
  unfold CopyOp.word
  cases ho : o.held a with
  | some x => exact hb x (List.mem_of_find?_eq_some ho)
  | none => simp [Memory.isPoisoned, hm]

/-! ## One element (R113, R114) -/

/-- What a copy reads of raw bytes of a scratchpad, with no injection armed. -/
theorem State.copyRead_scratch {s : State} (hc : s.calm) (core : Nat) (o : CopyOp) {l : Loc} {c : Nat} (hp : l.place = .scratch c 0) (n : Nat) :
    s.copyRead core o l n = (s, o.take s.mem (l.key, n), (o.take s.mem (l.key, n)).bytes s.mem l.key n,
      ((o.take s.mem (l.key, n)).held l.key).any (fun b => b.2.2) || ((o.take s.mem (l.key, n)).held (l.key + n - 1)).any fun b => b.2.2) := by
  have hrs : l.ranges n = [(l.key, n)] := by simp [Loc.ranges, hp]
  have hcode : s.mem.reservedCode l = false := by simp [Memory.reservedCode, hp]
  simp only [State.copyRead, hrs, State.copyReach_scratch s core o hp, State.injectAll_calm hc, State.copyKeep_scratch s core o hp, hcode,
    Bool.false_eq_true, if_false, List.foldl_cons, List.foldl_nil, CopyOp.value, hp, List.any_cons, List.any_nil, Bool.or_false]
  rfl

/-- What a copy writes of raw bytes of its core's scratchpad, with no injection armed and nothing waiting for the word. -/
theorem State.copyWrite_scratch {s : State} (hc : s.calm) (hd : s.noDeps) {core off : Nat} (hcore : core < 2048)
    (hw : (s.coreOf core).waits = []) (o : CopyOp) {l : Loc} (hp : l.place = .scratch core 0) (ho : off < 0x80000)
    (hk : l.key = scratchKey core off) (v : Nat) :
    (s.copyWrite core o l v false).2 = o ∧
      (s.copyWrite core o l v false).1.mem.bytes = writeBytes s.mem.bytes l.key o.size (v % 256 ^ o.size) := by
  have hb : (s.putBytes l.key o.size (v % 256 ^ o.size)).mem.bytes = writeBytes s.mem.bytes l.key o.size (v % 256 ^ o.size) := by
    rw [State.putBytes_mem hd, Memory.write_bytes]
  have hs : isScratchKey (l.key / 8 * 8) = true := by
    simp only [isScratchKey, hk, scratchKey, scratchBase, Bool.and_eq_true, decide_eq_true_eq]
    omega
  have hhome : (l.key / 8 * 8 - scratchBase) / 0x100000 = core := by
    simp only [hk, scratchKey, scratchBase]
    omega
  unfold State.copyWrite
  rw [State.copyReach_scratch s core o hp, State.inject_calm hc]
  simp only [hp, Bool.false_eq_true, if_false, true_and]
  split
  · rw [State.fillWords_noWaits (State.noDeps_putBytes hd _ _ _) hs (by rw [hhome, State.putBytes_coreOf, hw]), hb]
  · exact hb

/-- The access of a copy depends on its readings in nothing. -/
theorem State.copyAccess_buf (s : State) (core : Nat) (o : CopyOp) (buf : List (Nat × Nat × Bool)) (a : Word) (acc : Acc) :
    s.copyAccess core { o with buf := buf } a acc = s.copyAccess core o a acc := rfl

/-- A copy as it goes on after an element. -/
def CopyOp.step (o : CopyOp) : CopyOp := { o with pos := o.pos + 1, walk := none, walked := none }

/-- An element of a copy: its bytes, and the copy as it goes on. -/
theorem State.copyStep_scratch {s : State} (w : s.Inv) (hc : s.calm) (hd : s.noDeps) {core : Nat} (hcore : core < 2048)
    (hw : (s.coreOf core).waits = []) (ch : Fin 4) (o0 o : CopyOp) {m : Loc} (ha : s.copyAccess core o (o.dstOf o.pos) o.put = .ok (m, none))
    (hp : m.place = .scratch core 0) (hsz : o.size ∣ 8) (v : Nat) :
    ∃ t, s.copyStep core ch o0 o v false = .next t ∧ s.storedAt t m.key o.size v ∧ (t.chOf core ch).run = some o.step ∧
      (t.chOf core ch).cwp = o.dstOf (o.pos + 1) ∧ (t.chOf core ch).cpos = o.pos + 1 := by
  obtain ⟨off, ho, -, hk⟩ := State.access_scratch (State.copyAccess_scratch ha hp) hp hsz
  obtain ⟨h2, hb⟩ := State.copyWrite_scratch hc hd hcore hw o hp ho hk v
  have hx : s.copyStep core ch o0 o v false = .next ((s.copyWrite core o m v false).1.modCh core ch fun c =>
      { c with run := some o.step, cwp := o.dstOf (o.pos + 1), cpos := o.pos + 1 }) := by
    simp only [State.copyStep, ha, State.copyTouch, h2]
    rfl
  refine ⟨_, hx, State.storedAt_mod (State.storedAt_of_bytes w ?_), ?_, ?_, ?_⟩
  · rw [State.modCh_mem, hb]
  all_goals rw [State.chOf_modCh]

/-- The sizes of elements divide a word of 8 bytes (R399). -/
theorem CopyOp.size_dvd (o : CopyOp) : o.size ∣ 8 := by
  unfold CopyOp.size
  split
  · exact ⟨8, rfl⟩
  · have h : fieldOf o.ctl 0 2 < 4 := Nat.mod_lt _ (by decide)
    exact pow_dvd_pow 2 (show fieldOf o.ctl 0 2 ≤ 3 by omega)

/-- A multiple of a divisor of 8, with as many bytes, lies in one word. -/
theorem mod_eight_add_le {a n : Nat} (hn : n ∣ 8) (ha : a % n = 0) : a % 8 + n ≤ 8 := by
  obtain ⟨i, hi⟩ := (Nat.dvd_mod_iff hn).2 (Nat.dvd_of_mod_eq_zero ha)
  obtain ⟨j, hj⟩ := hn
  have hlt : a % 8 < 8 := Nat.mod_lt _ (by decide)
  have hij : i < j := Nat.lt_of_mul_lt_mul_left (show n * i < n * j by omega)
  calc a % 8 + n = n * (i + 1) := by rw [hi, Nat.mul_succ]
    _ ≤ n * j := Nat.mul_le_mul_left _ hij
    _ = 8 := hj.symm

/-- The bytes of an element of raw scratchpad lie in one word. -/
theorem State.copyAccess_fits {s : State} {core c : Nat} {o : CopyOp} {a : Word} {acc : Acc} {l : Loc}
    (h : s.copyAccess core o a acc = .ok (l, none)) (hp : l.place = .scratch c 0) (hw : acc.width ∣ 8) : l.key % 8 + acc.width ≤ 8 := by
  obtain ⟨off, -, hmod, hk⟩ := State.access_scratch (State.copyAccess_scratch h hp) hp hw
  have hk8 : l.key % 8 = off % 8 := by rw [hk]; simp only [scratchKey, scratchBase]; omega
  rw [hk8]
  exact mod_eight_add_le hw hmod

/-- The next element of a copy that reads raw bytes of its core's scratchpad. -/
theorem execCopyElementWrite_scratch {s : State} {core : Nat} {ch : Fin 4} {o : CopyOp} {l : Loc} (hc : s.calm) (hm : s.mem.poison = [])
    (hb : ∀ x ∈ o.buf, x.2.2 = false) (hrun : (s.chOf core ch).run = some o) (hcancel : o.cancel = false) (hcx : o.cx8 = false)
    (hpos : o.pos < o.total) (hh : s.copyHeld core ch o [o.srcOf o.pos] = none)
    (ha : s.copyAccess core o (o.srcOf o.pos) (accPlain o.size .load (o.size == 4)) = .ok (l, none)) (hp : l.place = .scratch core 0) :
    exec (.copyElementWrite core ch.1) s = s.copyStep core ch o (o.take s.mem (l.key, o.size))
      ((o.word s.mem l.key).2.1 / 256 ^ (l.key % 8) % 256 ^ o.size) false := by
  have hsz := o.size_dvd
  have hfit : l.key % 8 + o.size ≤ 8 := State.copyAccess_fits ha hp hsz
  have hn : 0 < o.size := Nat.pos_of_dvd_of_pos hsz (by decide)
  have hheld := o.held_take s.mem hn hfit (b := l.key) rfl
  have hlast := o.held_take s.mem hn hfit (b := l.key + o.size - 1) (by omega)
  change execCopyElementWrite core ch.1 s = _
  simp only [execCopyElementWrite, chan_val, hrun, hcancel, hcx, Bool.false_eq_true, if_false, if_neg (Nat.not_le.2 hpos), Bool.not_false,
    if_true, hh, ha, State.copyTouch, State.copyRead_scratch hc core o hp, hheld, hlast, Option.any_some, Bool.or_self,
    CopyOp.word_unpoisoned o hm hb, CopyOp.bytes_take o s.mem hn hfit]

/-! ## The end of a copy (R399, R401) -/

/-- A word set full as a copy ends leaves the engines alone. -/
theorem State.copyEnd_eng (s : State) (core : Nat) (o : CopyOp) (n : Nat) : ((s.copyEnd core o).coreOf n).eng = (s.coreOf n).eng := by
  unfold State.copyEnd
  dsimp only
  split
  · split
    · simp
    · rfl
  · rfl

/-- The copy of a channel taken off it. -/
def State.offChannel (s : State) (core : Nat) (ch : Fin 4) : State := s.modCh core ch fun c => { c with run := none }

@[simp] theorem State.offChannel_mem (s : State) (core : Nat) (ch : Fin 4) : (s.offChannel core ch).mem = s.mem := State.modCh_mem ..

/-- A copy that has stopped: its channel is free and its future has resolved CANCELLED. -/
theorem State.copyStop_ends {s : State} {core : Nat} {ch : Fin 4} {o : CopyOp} {fu : Future}
    (h : ((s.coreOf core).eng.futs.find? fun f => f.id == o.fut) = some fu) (hp : fu.status = .pending) :
    ((s.copyStop core ch o).chOf core ch).run = none ∧ (((s.copyStop core ch o).coreOf core).eng.futs.find? fun f => f.id == o.fut) =
      some { fu with status := .cancelled, value := 0, addr := 0 } := by
  have he := State.copyEnd_eng (s.offChannel core ch) core o core
  have hf : (((s.offChannel core ch).copyEnd core o).coreOf core).eng.futs = (s.coreOf core).eng.futs := by
    rw [he]; exact State.futs_modCh ..
  refine ⟨?_, State.find_resolve (s := (s.offChannel core ch).copyEnd core o) _ _ _ (by rw [hf]; exact h) hp⟩
  change ((((s.offChannel core ch).copyEnd core o).resolve core o.fut .cancelled 0 0).chOf core ch).run = none
  rw [State.chOf_resolve, State.chOf_congr (congrArg Engines.ch he), State.offChannel, State.chOf_modCh]

/-- A copy as it begins on a channel, with the channel's geometry (R399, R400). -/
def CopyOp.begun (o : CopyOp) (c : Channel) : CopyOp :=
  { o with geo := c.geo, str0 := c.str0, str1 := c.str1, str2 := c.str2, ctl := c.ctl, pos := 0, next := o.src }

/-- A queued copy begins at its first element. -/
theorem execCopyBegin_begins {s : State} {core : Nat} {ch : Fin 4} {o : CopyOp} {r : List CopyOp} (hq : (s.chOf core ch).queue = o :: r)
    (hrun : (s.chOf core ch).run = none) (hstop : (s.chOf core ch).stopped = none) (hres : o.resume = false)
    (hst : s.storesBefore core o.frame o.num = true) (hgeo : fieldOf (s.chOf core ch).geo 0 32 ≠ 0) :
    exec (.copyBegin core ch.1) s = .next (((s.modCh core ch fun c => { c with queue := c.queue.tail }).modCh core ch fun c =>
      { c with stopped := none, cwp := o.dst, cpos := 0 }).modCh core ch fun c => { c with run := some (o.begun (s.chOf core ch)) }) := by
  have htotal : ∀ c : CopyOp, c.geo = (s.chOf core ch).geo → c.total ≠ 0 := by
    intro c hg
    have h0 : fieldOf c.geo 0 32 ≠ 0 := hg ▸ hgeo
    unfold CopyOp.total
    dsimp only
    split
    · omega
    · exact Nat.mul_ne_zero (Nat.mul_ne_zero h0 (Nat.succ_ne_zero _)) (Nat.succ_ne_zero _)
  change execCopyBegin core ch.1 s = _
  simp only [execCopyBegin, chan_val, hq, hrun, hst, Option.isNone_none, Bool.and_self, whenEnabled_true, State.copyBegin, hres, hstop,
    Bool.false_eq_true, if_false]
  rw [if_neg (htotal _ rfl)]
  simp only [CopyOp.begun, hres]

section
variable {s : State} {core : Nat} {ch : Fin 4} {o : CopyOp} (hrun : (s.chOf core ch).run = some o)
include hrun

/-- A copy that has written its last element completes (R399). -/
theorem execCopyComplete_done (hcancel : o.cancel = false) (hpos : o.total ≤ o.pos) : exec (.copyComplete core ch.1) s =
    .next (((s.offChannel core ch).resolve core o.fut .done (o.dstOf o.total) 0).countOp o.launch) := by
  change execCopyComplete core ch.1 s = _
  simp only [execCopyComplete, chan_val, hrun, hcancel, Bool.false_eq_true, if_false, decide_eq_true hpos, whenEnabled_true]
  rfl

/-- A cancelled copy stops (R401). -/
theorem execCopyComplete_cancelled (hcancel : o.cancel = true) : exec (.copyComplete core ch.1) s = .next (s.copyStop core ch o) := by
  change execCopyComplete core ch.1 s = _
  simp only [execCopyComplete, chan_val, hrun, hcancel, if_true]

theorem execCopyElementWrite_cancelled (hcancel : o.cancel = true) :
    exec (.copyElementWrite core ch.1) s = .next (s.copyStop core ch o) := by
  change execCopyElementWrite core ch.1 s = _
  simp only [execCopyElementWrite, chan_val, hrun, hcancel, if_true]

end

/-- Settles O40: the issue, the begin, one element and the two ends of a copy. -/
theorem copies : Obligations.Copies := by
  refine ⟨⟨fun i o cx8 n s s1 a b id hi hl ha hd hr => ?_, fun o s s1 vs hl ha hr => ?_⟩, fun s core ch o r hq hrun hstop hres hst hgeo => ?_,
    fun s core ch o l m w hrun hcancel hcx hpos hsrc hdst hcore hlp hmp hh hc hdeps hpois hw hbuf => ?_,
    fun s core ch o fu hrun hf hpend => ⟨fun hcancel hpos => ?_, fun hcancel i hi => ?_⟩⟩
  · have hreads := State.readsOf_readsAs hr
    have hch : s1.core.eng = s.core.eng := hreads.keeps (fun s => s.core.eng) fun _ _ _ _ _ _ => rfl
    rw [exec_copy_reads hi hl ha hr, hch]
    refine ⟨fun hroom hfree => ?_, fun hfull => by rw [if_pos hfull]⟩
    rw [if_neg (by omega), hfree, hd]
    obtain ⟨hqueue, hg, htag, hpc, hmem⟩ := s1.queueCopy_g o.ch n id (s1.newCopy o.ch cx8 id a b) o.sw
    refine ⟨_, s1.newCopy o.ch cx8 id a b, rfl, hqueue.trans (by rw [hch]), rfl, ?_, rfl, rfl, rfl, hg.trans ?_, htag, hpc.trans ?_, hmem.trans ?_⟩
    · exact hreads.keeps (fun s => s.thr.frame) fun _ _ _ _ _ _ => rfl
    · rw [hreads.keeps (fun s => s.core.id) fun _ _ _ _ _ _ => rfl]
    · rw [hreads.keeps (fun s => s.thr.pc) fun _ _ _ _ _ _ => rfl]
    · exact hreads.keeps (fun s => s.mem) fun _ _ _ _ _ _ => rfl
  · obtain ⟨rfl, -⟩ := State.readsOf_nil hr
    change execCptr o s1 = _
    rw [execCptr, withThread_live _ _ hl, if_neg (by simp [ha]), State.gatherLong_reads _ hr]
  · refine ⟨_, o.begun (s.chOf core ch), execCopyBegin_begins hq hrun hstop hres hst hgeo, ?_, ?_, rfl, rfl, rfl, rfl, rfl, rfl, rfl, rfl, ?_, ?_,
      by simp⟩
    all_goals simp only [State.chOf_modCh, hq, List.tail_cons]
  · have hn : 0 < o.size := Nat.pos_of_dvd_of_pos o.size_dvd (by decide)
    have hfit : l.key % 8 + o.size ≤ 8 := State.copyAccess_fits hsrc hlp o.size_dvd
    have hheld := o.held_take s.mem hn hfit (b := l.key) rfl
    obtain ⟨buf, ho1⟩ := o.take_eq s.mem hn hfit
    rw [execCopyElementWrite_scratch hc hpois hbuf hrun hcancel hcx hpos hh hsrc hlp, o.word_value s.mem hfit]
    rw [ho1] at hheld ⊢
    obtain ⟨t, hx, hstore, hr, hcwp, hcpos⟩ := State.copyStep_scratch w hc hdeps hcore hw ch o { o with buf := buf } hdst hmp o.size_dvd _
    refine ⟨t, hx, State.storedAt_mod hstore, hcpos, hcwp, fun c hrc => ?_⟩
    obtain rfl : ({ o with buf := buf } : CopyOp).step = c := Option.some.inj (hr.symm.trans hrc)
    change (({ o with buf := buf } : CopyOp).held l.key).map _ = _
    rw [hheld]
    unfold CopyOp.word
    cases o.held l.key <;> rfl
  · refine ⟨_, execCopyComplete_done hrun hcancel hpos, ?_, by simp, ?_⟩
    · change (((s.offChannel core ch).resolve core o.fut .done (o.dstOf o.total) 0).chOf core ch).run = none
      rw [State.chOf_resolve, State.offChannel, State.chOf_modCh]
    · exact State.find_resolve _ _ _ ((congrArg _ (State.futs_modCh ..)).trans hf) hpend
  · have hx : exec i s = .next (s.copyStop core ch o) := by
      obtain rfl | rfl := hi
      · exact execCopyElementWrite_cancelled hrun hcancel
      · exact execCopyComplete_cancelled hrun hcancel
    obtain ⟨h1, h2⟩ := State.copyStop_ends (ch := ch) hf hpend
    exact ⟨_, hx, h1, h2⟩

end Sys2Proof.Machine
end

section
/-! ## What a load returns, and LDK's line of the constant cache (O14) -/

namespace Sys2Proof.Machine

/-- A cluster put in its place is the one found there. -/
theorem find_insertCluster (c : Cluster) : ∀ l, ((insertCluster l c).find? fun x => x.id == c.id) = some c
  | [] => by simp [insertCluster]
  | k :: r => by
    unfold insertCluster
    split
    · simp
    · split
      · simp
      · rename_i hne
        rw [List.find?_cons_of_neg (by simpa using fun h : k.id = c.id => hne h.symm)]
        exact find_insertCluster c r

theorem State.clusterAt_id (s : State) (n : Nat) : (s.clusterAt n).id = n := by
  unfold State.clusterAt
  cases h : s.clusters.find? fun c => c.id == n with
  | none => rfl
  | some c => simpa using List.find?_some h

theorem State.clusterAt_modCluster_same (s : State) (n : Nat) {f : Cluster → Cluster} (hf : ∀ c, (f c).id = c.id) :
    (s.modCluster n f).clusterAt n = f (s.clusterAt n) := by
  have hid : (f (s.clusterAt n)).id = n := by rw [hf, s.clusterAt_id]
  have hfind := find_insertCluster (f (s.clusterAt n)) s.clusters
  rw [hid] at hfind
  change (Option.getD (List.find? _ (insertCluster s.clusters (f (s.clusterAt n)))) _) = _
  rw [hfind, Option.getD_some]

@[simp] theorem State.fillConst_thr (s : State) (cl line : Nat) : (s.fillConst cl line).thr = s.thr := by
  unfold State.fillConst; split <;> rfl

theorem Memory.read_lt (m : Memory) (a n : Nat) : m.read a n < 2 ^ (8 * n) :=
  Nat.lt_of_lt_of_eq (readBytes_lt n m.bytes a) (Nat.pow_mul 2 8 n).symm

/-- A line the constant cache holds is read there. -/
theorem State.constRead_hit {s : State} {cl pa : Nat} {x : Nat × BitVec 512}
    (h : ((s.clusterAt cl).kc.find? fun x => x.1 == pa / 64) = some x) :
    ((s.fillConst cl (pa / 64)).constRead cl pa).toNat = x.2.toNat / 256 ^ (pa % 64) % 2 ^ 64 := by
  have hany : ((s.clusterAt cl).kc.any fun x => x.1 == pa / 64) = true :=
    by
    rw [List.any_eq_true]
    exact ⟨x, List.mem_of_find?_eq_some h, List.find?_some (p := fun x : Nat × BitVec 512 => x.1 == pa / 64) h⟩
  simp only [State.fillConst, hany, if_true, State.constRead, h, BitVec.toNat_ofNat]

/-- A line that is not there is filled from memory, and an aligned word of it is memory's. -/
theorem State.constRead_miss {s : State} {cl pa : Nat} (ha : pa % 8 = 0)
    (h : ((s.clusterAt cl).kc.any fun x => x.1 == pa / 64) = false) :
    ((s.fillConst cl (pa / 64)).constRead cl pa).toNat = s.numAt pa 8 := by
  have hlt := s.mem.read_lt (pa / 64 * 64) 64
  have hword : s.mem.read (pa / 64 * 64) 64 / 256 ^ (pa % 64) % 256 ^ 8 = s.mem.read pa 8 := by
    rw [Memory.read, readBytes_sub s.mem.bytes (by omega) (pa / 64 * 64), show pa / 64 * 64 + pa % 64 = pa by omega]
    rfl
  simp only [State.fillConst, h, Bool.false_eq_true, if_false, State.constRead]
  rw [State.clusterAt_modCluster_same (f := fun c => { c with
    kc := ((pa / 64, BitVec.ofNat 512 (s.mem.read (pa / 64 * 64) 64)) :: c.kc).take 1024 }) _ _ fun _ => rfl]
  simp only [List.take_succ_cons, List.find?_cons, beq_self_eq_true, BitVec.toNat_ofNat, Nat.mod_eq_of_lt hlt]
  rw [State.numAt_eq_read, ← hword, show (256 : Nat) ^ 8 = 2 ^ 64 from rfl]

theorem Loc.forward_raw {l : Loc} (h : l.raw) (v : Nat) : l.forward v = (v, 0) := by
  unfold Loc.raw at h
  unfold Loc.forward
  split
  · next hp => rw [hp] at h; exact if_pos h
  · rfl

theorem Loc.ranges_raw {l : Loc} (h : l.raw) (w : Nat) : l.ranges w = [(l.key, w)] := by
  unfold Loc.raw at h
  unfold Loc.ranges
  split
  · next hp => rw [hp] at h; exact if_pos h
  · rfl

theorem Memory.value_raw {l : Loc} (h : l.raw) (m : Memory) (w : Nat) : m.value l w = (m.read l.key w, 0) := by
  unfold Loc.raw at h
  unfold Memory.value
  split
  · next hp => rw [hp] at h; exact if_pos h
  · rfl

theorem Memory.reservedCode_raw {l : Loc} (h : l.raw) (m : Memory) : m.reservedCode l = false := by
  unfold Loc.raw at h
  unfold Memory.reservedCode
  split
  · next hp => rw [hp] at h; exact absurd (show 24 < 2 from h) (by decide)
  · rfl

/-- With no injected error a load of plain bytes only reads. -/
theorem State.loadNow_raw {s : State} {l : Loc} (hr : l.raw) (hc : s.calm) (w : Nat) (sx : Bool) :
    s.loadNow l w sx = (s, Pending.ofLoad (extendTo w sx (s.numAt l.key w)) 0
      (if s.mem.isPoisoned l.key || s.mem.isPoisoned (l.key + w - 1) then some l.va else none)) := by
  simp [State.loadNow, State.injectAll_calm hc, Memory.reservedCode_raw hr, Memory.value_raw hr, Loc.ranges_raw hr,
    Memory.poisoned, State.numAt_eq_read]

/-- Zero extension keeps the value of `w` bytes. -/
theorem extendTo_zero {w v : Nat} (hw : 8 * w ≤ 64) (hv : v < 2 ^ (8 * w)) : (extendTo w false v).toNat = v := by
  have : 2 ^ (8 * w) ≤ 2 ^ 64 := Nat.pow_le_pow_right (by decide) hw
  simp only [extendTo, Bool.false_and, Bool.false_eq_true, if_false, BitVec.toNat_ofNat, Nat.mod_eq_of_lt hv]
  exact Nat.mod_eq_of_lt (by omega)

/-- Sign extension keeps the number that `w` bytes stand for. -/
theorem extendTo_sign {w v : Nat} (h1 : 0 < w) (hw : 8 * w ≤ 64) (hv : v < 2 ^ (8 * w)) : (extendTo w true v).toInt = intOf (8 * w) v := by
  have hle : 2 ^ (8 * w) ≤ 2 ^ 64 := Nat.pow_le_pow_right (by decide) hw
  have hhalf : 2 ^ (8 * w) = 2 * 2 ^ (8 * w - 1) := by rw [← Nat.pow_succ', show (8 * w - 1).succ = 8 * w by omega]
  simp only [extendTo, intOf, Bool.true_and, decide_eq_true_eq, Nat.mod_eq_of_lt hv, BitVec.toInt_eq_toNat_cond]
  generalize 2 ^ (8 * w) = N at *
  generalize 2 ^ (8 * w - 1) = H at *
  split
  · rw [if_neg (by omega : ¬ v < H), BitVec.toNat_ofNat, Nat.mod_eq_of_lt (by omega : v + 2 ^ 64 - N < 2 ^ 64)]
    split <;> omega
  · rw [if_pos (by omega : v < H), BitVec.toNat_ofNat, Nat.mod_eq_of_lt (by omega : v < 2 ^ 64)]
    split <;> omega

section
variable {s0 s : State} {sw sx : Bool} {d : Dst} {l : Loc} {w acq : Nat}

/-- A load served in its core that hits is performed as it issues. -/
theorem State.loadAt_hit (hm : s.look s.core (l.ranges w) = .memory) (hs : s.serve l false false = .here)
    (hp : s.ownPending l (l.ranges w) = false) (hb : s.refreshes l = false) (hl : s.missLine s.core.id l false = none) :
    s0.loadAt s sw d l w sx acq = ((s.fillLoc s.core.id l false s.thr.launch).loadNow l w sx).1.finishLong sw d
      ((s.fillLoc s.core.id l false s.thr.launch).loadNow l w sx).2 := by
  simp [State.loadAt, hm, hs, hp, hb, hl]

/-- One that misses waits for its place on the lane. -/
theorem State.loadAt_miss (hm : s.look s.core (l.ranges w) = .memory) (hs : s.serve l false false = .here)
    (hp : s.ownPending l (l.ranges w) = false) (hb : s.refreshes l = false) {line : Nat}
    (hl : s.missLine s.core.id l false = some line) (hf : s.slotFor s.core.id l false = true) :
    s0.loadAt s sw d l w sx acq = (s.request (.load w sx) l false 0 none).finishLong sw d
      { Pending.awaited true with line := some line, acq := acq } := by
  simp [State.loadAt, hm, hs, hp, hb, hl, hf]

theorem State.loadAt_forward {v : Nat} (hv : s.look s.core (l.ranges w) = .value v) (hp : s.ownPending l (l.ranges w) = false) :
    s0.loadAt s sw d l w sx acq = (s.noteRead (l.ranges w)).finishLong sw d
      (Pending.ofLoad (extendTo w sx (l.forward v).1) (l.forward v).2 none) := by
  simp [State.loadAt, hv, hp]

theorem State.loadAt_remote (hm : s.look s.core (l.ranges w) = .memory) (hs : s.serve l false false = .remote)
    (hf : s.slotFree = true) :
    s0.loadAt s sw d l w sx acq = (s.request (.load w sx) l false 0 none).finishLong sw d { Pending.awaited true with acq := acq } := by
  simp [State.loadAt, hm, hs, hf]

end

/-- A load whose access passes its checks goes on as `State.loadAt` at its place. -/
theorem exec_load_accessed {i : Instr} {f : LoadForm} {s s1 s2 : State} {b : Word} {l : Loc} (hi : loadForm i = some f)
    (hl : s.thr.live = true) (hr : s.readsLong [f.b] f.d = some (s1, [b]))
    (ha : s1.accessed (b + f.disp.signExtend 64) f.acc true false = some (s2, l)) :
    exec i s = .next (s.loadAt s2 f.sw f.d l f.width f.sx f.acq) := by
  rw [exec_loadForm hi, withThread_live _ _ hl, State.gatherOf_reads _ hr]
  exact congrArg _ (State.withAccess_accessed _ ha)

section
variable {o : LdOp} {s s1 s2 : State} {b : Word} {l : Loc} (hl : s.thr.live = true)
  (hr : s.readsLong [o.b] o.d = some (s1, [b])) (ha : s1.accessed (b + o.disp.signExtend 64) accConst true false = some (s2, l))
include hl hr ha

/-- LDK of a place that is not a peer's reads the constant cache of its cluster. -/
theorem exec_ldk_const (hp : ∀ n, l.place ≠ .peer n) :
    exec (.ldk o) s = .next ((s2.fillConst (clusterOf s2.core.id) (l.key / 64)).finishLong o.sw o.d
      (Pending.ofLoad ((s2.fillConst (clusterOf s2.core.id) (l.key / 64)).constRead (clusterOf s2.core.id) l.key) 0
        (if (s2.fillConst (clusterOf s2.core.id) (l.key / 64)).mem.isPoisoned l.key then some l.va else none))) := by
  change withThread s _ = _
  rw [withThread_live _ _ hl, State.long1_reads _ hr, State.withAccess_accessed _ ha]
  split
  · next n hn => exact absurd hn (hp n)
  · rfl

theorem exec_ldk_peer {n : Nat} (hp : l.place = .peer n) : exec (.ldk o) s = .next (s.loadAt s2 o.sw o.d l 8 true 0) := by
  change withThread s _ = _
  rw [withThread_live _ _ hl, State.long1_reads _ hr, State.withAccess_accessed _ ha]
  simp [hp]

end

/-- Settles O14: each way a load goes on is a branch of `State.loadAt`; a performed load of plain bytes is `State.loadNow_raw`, and
LDK's word is the aligned word of the line in its cluster's constant cache. -/
theorem loads : Obligations.Loads := by
  refine ⟨fun i f s s1 s2 b l hi hl hr ha => ?_, fun l v h => Loc.forward_raw h v, fun s l w sx hr hc => ?_,
    fun v w hw hv => ?_, fun o s s1 s2 b l hl hr ha => ⟨fun hp => ?_, fun n hp hm hf => ?_⟩⟩
  · rw [exec_load_accessed hi hl hr ha]
    exact ⟨fun hm hs hp hb => ⟨fun hmiss => congrArg _ (State.loadAt_hit hm hs hp hb hmiss),
        fun line hmiss hf => congrArg _ (State.loadAt_miss hm hs hp hb hmiss hf)⟩,
      fun v hv hp => congrArg _ (State.loadAt_forward hv hp), fun hm hs hf => congrArg _ (State.loadAt_remote hm hs hf)⟩
  · rw [State.loadNow_raw hr hc]
    exact ⟨rfl, rfl, rfl, rfl⟩
  · have hb : 0 < w ∧ 8 * w ≤ 64 := by
      simp only [List.mem_cons, List.not_mem_nil, or_false] at hw
      omega
    exact ⟨extendTo_zero hb.2 hv, extendTo_sign hb.1 hb.2 hv⟩
  · rw [exec_ldk_const hl hr ha hp]
    refine ⟨_, _, rfl, by simp, by simp, by simp, by rw [State.finishLong_last]; rfl, State.constRead_miss, fun x hx => State.constRead_hit hx⟩
  · have hrg : l.ranges 8 = [(l.key, 8)] := by simp [Loc.ranges, hp]
    rw [exec_ldk_peer hl hr ha hp]
    exact congrArg _ (State.loadAt_remote (hrg ▸ hm) (by simp [State.serve, hp]) hf)

end Sys2Proof.Machine
end

section
/-! Cache operations, PREF and WSWAIT (O24): what the arrays of the dies hold once a line has been given up or cleaned. -/

namespace Sys2Proof.Machine

/-! ## What the channels and the seam leave alone -/

/-- A field of the state that neither the channels, the seam nor a launch is part of. -/
structure State.BelowKeeps {γ : Type} (g : State → γ) : Prop where
  seam : ∀ (s : State) (m : Seam), g { s with seam := m } = g s
  msc : ∀ (s : State) (m : List MscBlock) (l : List Nat), g { s with msc := m, ecc := l } = g s
  launcher : ∀ (s : State) (l : Launcher), g { s with launcher := l } = g s

section
variable {γ : Type} {g : State → γ} (h : State.BelowKeeps g)
include h

theorem State.countDram_belowKeeps (s : State) (n k : Nat) : g (s.countDram n k) = g s := h.launcher _ _

theorem State.mscPut_belowKeeps (s : State) (b : MscBlock) (n : Nat) : g (s.mscPut b n) = g s :=
  (State.countDram_belowKeeps h _ _ _).trans (h.msc s _ _)

theorem State.mscRead_belowKeeps (s : State) (line hint n : Nat) : g (s.mscRead line hint n) = g s := by
  unfold State.mscRead
  dsimp only
  cases s.msc.find? fun x => x.block == line * 64 / 512 with
  | none => dsimp only; rw [apply_ite g, State.mscPut_belowKeeps h, State.countDram_belowKeeps h, ite_self]
  | some b => dsimp only; rw [apply_ite g, State.countDram_belowKeeps h, State.mscPut_belowKeeps h, ite_self]

theorem State.writeBack_belowKeeps (s : State) (line : Nat) : g (s.writeBack line) = g s := by
  unfold State.writeBack State.writeBelow
  rw [if_neg (by decide)]
  split
  · unfold State.mscWrite
    dsimp only
    split
    · exact (State.countDram_belowKeeps h _ _ _).trans (h.msc s _ _)
    · rw [State.mscPut_belowKeeps h]
      exact h.msc s _ _
  · unfold State.combine
    dsimp only
    split
    · exact h.seam _ _
    · rfl

theorem State.settleDir_belowKeeps (s : State) (line a : Nat) (r : CReq) : g (s.settleDir line a r) = g s := by
  unfold State.settleDir
  split
  · exact h.seam _ _
  · unfold State.pruneDir
    split
    · exact (h.seam _ _).trans (h.seam _ _)
    · exact h.seam _ _

/-- A request that asks for no copy makes no snoop (R154). -/
theorem State.giveRequest_belowKeeps (s : State) (die line : Nat) {r : CReq} (hr : r.asks = false) :
    g (s.giveRequest die line r) = g s := by
  have hsn : ∀ o : Option DirEntry, ((o.map fun e => e.snoopsFor die r).getD []) = [] := by
    intro o
    cases r with
    | wb d => cases o <;> rfl
    | evc => cases o <;> rfl
    | rds => cases hr
    | rdx => cases hr
    | upg => cases hr
  have hd : ∀ t : State, t.dlessRequest line r = t := by
    intro t
    unfold State.dlessRequest
    cases r with
    | wb d => cases t.dirOf line <;> rfl
    | evc => cases t.dirOf line <;> rfl
    | rds => cases hr
    | rdx => cases hr
    | upg => cases hr
  have hq : ∀ t : State, g (t.dirRequest die line r) = g t := by
    intro t
    unfold State.dirRequest
    split
    · exact (h.seam _ _).trans (congrArg g (hd t))
    · rw [hsn]
      exact (h.seam _ _).trans (State.settleDir_belowKeeps h _ _ _ _)
  unfold State.giveRequest
  dsimp only
  split
  · split <;> exact h.seam _ _
  · rw [hq]
    split
    · exact State.writeBack_belowKeeps h _ _
    · rfl

end

/-- What the outstanding results of the issuing thread rest on. -/
def State.progress (s : State) : Word × List Pending × Nat := (s.thr.pc, s.thr.pend, s.thr.seq)

theorem State.progress_belowKeeps : State.BelowKeeps State.progress := ⟨fun _ _ => rfl, fun _ _ _ => rfl, fun _ _ => rfl⟩

/-! ## The arrays of a die -/

/-- Does `p` hold of the permission with which some array of a die holds a line? -/
def State.dieAny (p : Option Perm → Bool) (s : State) (die line : Nat) : Bool :=
  (s.dieCores die).any (fun c => p (c.l1Find line)) || p (s.l2Find die line)

theorem State.dieHolds_eq (s : State) (die line : Nat) : s.dieHolds die line = State.dieAny Option.isSome s die line := rfl
theorem State.dieDirty_eq (s : State) (die line : Nat) : s.dieDirty die line = State.dieAny (Option.any Perm.dirty) s die line := rfl

theorem State.dieAny_belowKeeps (p : Option Perm → Bool) (die line : Nat) : State.BelowKeeps fun s => State.dieAny p s die line :=
  ⟨fun _ _ => rfl, fun _ _ _ => rfl, fun _ _ => rfl⟩

/-- The lines of every array of a die changed. -/
def State.onDie (s : State) (die : Nat) (f : List L1Line → List L1Line) : State :=
  { s.modCores (fun c => if dieOf c.id = die then { c with l1 := f c.l1 } else c) with
    clusters := s.clusters.map fun k => if k.id / 16 = die then { k with l2 := f k.l2 } else k }

theorem State.invalDie_onDie (s : State) (die line : Nat) : s.invalDie die line =
    (s.loseResv line fun t => dieOf t.core == die && ((s.coreOf t.core).l1Find line).isSome).onDie die
      (List.filter fun x => x.line != line) := rfl

theorem State.downDie_onDie (s : State) (die line : Nat) (k : Bool) :
    s.downDie die line k = s.onDie die (List.map fun x => if x.line = line then x.down k else x) := rfl

theorem l2Cluster_die (die line : Nat) : l2Cluster die line / 16 = die := by
  have h : bits line 0 4 ^^^ bits line 4 4 ^^^ bits line 8 4 ^^^ bits line 12 4 < 2 ^ 4 :=
    Nat.xor_lt_two_pow (Nat.xor_lt_two_pow (Nat.xor_lt_two_pow (Nat.mod_lt _ (by decide)) (Nat.mod_lt _ (by decide)))
      (Nat.mod_lt _ (by decide))) (Nat.mod_lt _ (by decide))
  unfold l2Cluster
  omega

theorem State.onDie_allCores (s : State) (die : Nat) (f : List L1Line → List L1Line) :
    (s.onDie die f).allCores = s.allCores.map fun c => if dieOf c.id = die then { c with l1 := f c.l1 } else c := rfl

/-- The L2 of a cluster that has not been touched is empty. -/
theorem State.l2Find_bind (s : State) (die line : Nat) :
    s.l2Find die line = (s.clusters.find? fun c => c.id == l2Cluster die line).bind fun c => findLine c.l2 line := by
  unfold State.l2Find State.clusterAt
  cases s.clusters.find? fun c => c.id == l2Cluster die line <;> rfl

theorem State.l2Find_onDie (s : State) (die die' line : Nat) (f : List L1Line → List L1Line) :
    (s.onDie die f).l2Find die' line = (s.clusters.find? fun c => c.id == l2Cluster die' line).bind fun c =>
      findLine (if die' = die then f c.l2 else c.l2) line := by
  have hid : ((fun c : Cluster => c.id == l2Cluster die' line) ∘ fun k => if k.id / 16 = die then { k with l2 := f k.l2 } else k) =
      fun c => c.id == l2Cluster die' line := by
    funext c
    simp only [Function.comp_apply]
    split <;> rfl
  rw [State.l2Find_bind]
  change ((s.clusters.map _).find? _).bind _ = _
  rw [List.find?_map, hid]
  cases hc : s.clusters.find? fun c => c.id == l2Cluster die' line with
  | none => rfl
  | some c =>
    have he : c.id = l2Cluster die' line := by simpa using List.find?_some hc
    simp only [Option.map_some, Option.bind_some, he, l2Cluster_die]
    split <;> rfl

section
variable {p : Option Perm → Bool} {f : List L1Line → List L1Line} {line : Nat} (hp : p none = false)
  (hf : ∀ l, p (findLine (f l) line) = false)
include hp hf

/-- No array of a changed die holds the line so that `p`, where the change leaves it so in none. -/
theorem State.dieAny_onDie_same (s : State) (die : Nat) : State.dieAny p (s.onDie die f) die line = false := by
  unfold State.dieAny
  rw [Bool.or_eq_false_iff, List.any_eq_false, State.l2Find_onDie]
  constructor
  · intro c hc
    obtain ⟨hc, hd⟩ := List.mem_filter.1 hc
    rw [State.onDie_allCores] at hc
    obtain ⟨x, -, rfl⟩ := List.mem_map.1 hc
    by_cases hx : dieOf x.id = die
    · simp only [hx, if_true, Core.l1Find, hf, Bool.false_eq_true, not_false_eq_true]
    · simp [hx] at hd
  · cases s.clusters.find? fun c => c.id == l2Cluster die line with
    | none => exact hp
    | some c => simpa using hf c.l2

theorem State.dieAny_onDie_keeps {s : State} {die : Nat} (h : State.dieAny p s die line = false) (die' : Nat) :
    State.dieAny p (s.onDie die' f) die line = false := by
  by_cases hd : die = die'
  · subst hd
    exact State.dieAny_onDie_same hp hf s die
  · unfold State.dieAny at h ⊢
    rw [Bool.or_eq_false_iff, List.any_eq_false] at h ⊢
    simp only [State.l2Find_onDie, if_neg hd, ← State.l2Find_bind]
    refine ⟨fun c hc => ?_, h.2⟩
    obtain ⟨hc, hcd⟩ := List.mem_filter.1 hc
    rw [State.onDie_allCores] at hc
    obtain ⟨x, hx, rfl⟩ := List.mem_map.1 hc
    by_cases hxd : dieOf x.id = die'
    · simp only [hxd, if_true, Core.l1Find, hf, Bool.false_eq_true, not_false_eq_true]
    · simp only [hxd, if_false] at hcd ⊢
      exact h.1 x (List.mem_filter.2 ⟨hx, hcd⟩)

/-- Every die of a list, each changed in turn. -/
theorem State.dieAny_foldl {g : State → Nat → State} (hg : ∀ s d, ∃ t : State, g s d = t.onDie d f ∧ t.allCores = s.allCores ∧ t.clusters = s.clusters)
    {ds : List Nat} {d : Nat} (hd : d ∈ ds) (s : State) : State.dieAny p (ds.foldl g s) d line = false := by
  have hsame : ∀ s, State.dieAny p (g s d) d line = false := by
    intro s
    obtain ⟨t, ht, -⟩ := hg s d
    rw [ht]
    exact State.dieAny_onDie_same hp hf t d
  have hkeep : ∀ (s : State) e, State.dieAny p s d line = false → State.dieAny p (g s e) d line = false := by
    intro s e hs
    obtain ⟨t, ht, hc, hk⟩ := hg s e
    have : State.dieAny p t d line = State.dieAny p s d line := by
      simp only [State.dieAny, State.dieCores, State.l2Find, State.clusterAt, hc, hk]
    rw [ht]
    exact State.dieAny_onDie_keeps hp hf (this.trans hs) e
  induction ds generalizing s with
  | nil => cases hd
  | cons e r ih =>
    rcases List.mem_cons.1 hd with rfl | hr
    · exact foldl_inv (fun t => State.dieAny p t d line = false) g hkeep r _ (hsame s)
    · exact ih hr _

end

/-- A line filtered out is found no more. -/
theorem findLine_filter (l : List L1Line) (line : Nat) : findLine (l.filter fun x => x.line != line) line = none := by
  unfold findLine
  rw [Option.map_eq_none_iff, List.find?_eq_none]
  intro x hx
  simpa using (List.mem_filter.1 hx).2

/-- A line brought down to a shared one is not dirty. -/
theorem findLine_down (l : List L1Line) (line : Nat) :
    (findLine (l.map fun x => if x.line = line then x.down false else x) line).any Perm.dirty = false := by
  have hl : ((fun x : L1Line => x.line == line) ∘ fun x => if x.line = line then x.down false else x) = fun x => x.line == line := by
    funext x
    simp only [Function.comp_apply]
    split <;> rfl
  unfold findLine
  rw [List.find?_map, hl]
  cases hx : l.find? fun x => x.line == line with
  | none => rfl
  | some x =>
    have : x.line = line := by simpa using List.find?_some hx
    simp [this, L1Line.down, Perm.dirty]

theorem State.invalDie_dieHolds (s : State) (die line : Nat) : (s.invalDie die line).dieHolds die line = false := by
  rw [State.invalDie_onDie]
  exact State.dieAny_onDie_same rfl (fun l => by rw [findLine_filter]; rfl) _ _

theorem State.invalDie_progress (s : State) (die line : Nat) : (s.invalDie die line).progress = s.progress := by
  unfold State.invalDie State.loseResv State.modThreads State.progress
  dsimp only [State.modCores]
  split <;> rfl

/-! ## A line recalled, cleaned, or dropped on one die (R330) -/

/-- The dirty data of a line written home where some die holds it dirty. -/
theorem State.writeBackIf_belowKeeps {γ : Type} {g : State → γ} (h : State.BelowKeeps g) (s : State) (c : Bool) (line : Nat) :
    g (if c then s.writeBack line else s) = g s := by
  split
  · exact State.writeBack_belowKeeps h _ _
  · rfl

theorem State.recallLine_dirOf (s : State) (line : Nat) : (s.recallLine line).dirOf line = none := by
  simp only [State.recallLine, State.delDir, State.modSeam, State.dirOf, List.find?_eq_none]
  intro e he
  simpa using (List.mem_filter.1 he).2

theorem State.recallLine_dieHolds (s : State) {d : Nat} (hd : d < 8) (line : Nat) : (s.recallLine line).dieHolds d line = false := by
  rw [State.dieHolds_eq]
  unfold State.recallLine
  refine ((State.dieAny_belowKeeps Option.isSome d line).seam _ _).trans ?_
  exact State.dieAny_foldl rfl (fun l => by rw [findLine_filter]; rfl) (fun s e => ⟨_, State.invalDie_onDie s e line, rfl, rfl⟩)
    (List.mem_range.2 hd) _

theorem State.recallLine_progress (s : State) (line : Nat) : (s.recallLine line).progress = s.progress := by
  unfold State.recallLine
  exact (foldl_keeps State.progress _ (fun s d => s.invalDie_progress d line) _ _).trans
    (State.writeBackIf_belowKeeps State.progress_belowKeeps _ _ _)

theorem State.cleanLine_dieDirty (s : State) {d : Nat} (hd : d < 8) (line : Nat) : (s.cleanLine line).dieDirty d line = false := by
  rw [State.dieDirty_eq]
  unfold State.cleanLine
  refine ((State.dieAny_belowKeeps (Option.any Perm.dirty) d line).seam _ _).trans ?_
  exact State.dieAny_foldl (g := fun s d => s.downDie d line false) rfl (fun l => findLine_down l line)
    (fun s e => ⟨s, s.downDie_onDie e line false, rfl, rfl⟩) (List.mem_range.2 hd) _

theorem State.cleanLine_progress (s : State) (line : Nat) : (s.cleanLine line).progress = s.progress := by
  unfold State.cleanLine
  exact (foldl_keeps State.progress (fun s d => s.downDie d line false) (fun _ _ => rfl) _ _).trans
    (State.writeBackIf_belowKeeps State.progress_belowKeeps _ _ _)

/-- What a line dropped on one die leaves: what the invalidation did there, and nothing that the channels and the seam take no part in. -/
theorem State.dropLine_belowKeeps {γ : Type} {g : State → γ} (h : State.BelowKeeps g) (s : State) (die line : Nat) :
    g (s.dropLine die line) = g (s.invalDie die line) := by
  unfold State.dropLine
  dsimp only
  split
  · exact State.writeBackIf_belowKeeps h _ _ _
  · split
    · exact State.giveRequest_belowKeeps h _ _ _ rfl
    · split
      · exact State.giveRequest_belowKeeps h _ _ _ rfl
      · rfl

/-! ## Cache operations -/

theorem Loc.cached_place {l : Loc} (h : l.cached = true) : l.place = .hbm ∨ l.place = .host ∨ ∃ n, l.place = .cxl n := by
  unfold Loc.cached at h
  split at h
  · next hp => exact .inl hp
  · next hp => exact .inr (.inl hp)
  · next n hp => exact .inr (.inr ⟨n, hp⟩)
  · cases h

/-- What CINV does with a line: the copies of its die go, and the constant cache's of its cluster. -/
def State.cinvLine (s : State) (line : Nat) (wb : Bool) : State :=
  let s1 := if wb then s.dropLine (dieOf s.core.id) line else s
  if (s1.clusterAt (clusterOf s1.core.id)).kc.any fun x => x.1 == line then
    s1.modCluster (clusterOf s1.core.id) fun c => { c with kc := c.kc.filter fun x => x.1 != line }
  else s1

/-- A cluster put in its place leaves the others where they are. -/
theorem find_insertCluster_ne {n : Nat} {c : Cluster} (hne : c.id ≠ n) : ∀ l,
    ((insertCluster l c).find? fun x => x.id == n) = l.find? fun x => x.id == n
  | [] => by simp [insertCluster, hne]
  | k :: r => by
    unfold insertCluster
    split
    · simp [hne]
    · split
      · next he => simp [hne, ← he]
      · simp only [List.find?_cons, find_insertCluster_ne hne r]

/-- A change of a cluster that keeps its L2 leaves every line where it is. -/
theorem State.l2Find_modCluster (s : State) (n : Nat) {f : Cluster → Cluster} (hid : ∀ c, (f c).id = c.id) (hl : ∀ c, (f c).l2 = c.l2)
    (die line : Nat) : (s.modCluster n f).l2Find die line = s.l2Find die line := by
  by_cases hn : n = l2Cluster die line
  · unfold State.l2Find
    rw [← hn, State.clusterAt_modCluster_same _ _ hid, hl]
  · have hne : (f (s.clusterAt n)).id ≠ l2Cluster die line := by
      rw [hid, State.clusterAt_id]
      exact hn
    rw [State.l2Find_bind, State.l2Find_bind]
    exact congrArg (Option.bind · _) (find_insertCluster_ne hne s.clusters)

theorem State.dieAny_modCluster (p : Option Perm → Bool) (s : State) (n : Nat) (die line : Nat) {f : Cluster → Cluster}
    (hid : ∀ c, (f c).id = c.id) (hl : ∀ c, (f c).l2 = c.l2) : State.dieAny p (s.modCluster n f) die line = State.dieAny p s die line :=
  congrArg (((s.dieCores die).any fun c => p (c.l1Find line)) || p ·) (s.l2Find_modCluster n hid hl die line)

theorem State.cinvLine_dieHolds (s : State) (line : Nat) : (s.cinvLine line true).dieHolds (dieOf s.core.id) line = false := by
  have h : (s.dropLine (dieOf s.core.id) line).dieHolds (dieOf s.core.id) line = false :=
    (State.dropLine_belowKeeps (State.dieAny_belowKeeps Option.isSome _ line) s _ line).trans (s.invalDie_dieHolds _ line)
  unfold State.cinvLine
  rw [if_pos rfl]
  dsimp only
  split
  · rw [State.dieHolds_eq, State.dieAny_modCluster _ _ _ _ _ ?_ ?_]
    exacts [h, fun _ => rfl, fun _ => rfl]
  · exact h

theorem State.cinvLine_keeps {γ : Type} {g : State → γ} (hc : ∀ (s : State) n f, g (s.modCluster n f) = g s)
    (hd : ∀ (s : State) d line, g (s.dropLine d line) = g s) (s : State) (line : Nat) (wb : Bool) : g (s.cinvLine line wb) = g s := by
  have h : ∀ t, g t = g s → g (if (t.clusterAt (clusterOf t.core.id)).kc.any (fun x => x.1 == line) then
      t.modCluster (clusterOf t.core.id) fun c => { c with kc := c.kc.filter fun x => x.1 != line } else t) = g s := by
    intro t ht
    rw [apply_ite g, hc, ite_self, ht]
  exact h _ (by rw [apply_ite g, hd, ite_self])

/-- The outstanding result that a cache operation leaves. -/
theorem State.finishLong_cache {s t : State} (h : t.progress = s.progress) (sw : Bool) :
    (t.finishLong sw .gz { Pending.ofVal 0 0 with cache := true }).thr.pc = s.thr.pc + 4 ∧
    (t.finishLong sw .gz { Pending.ofVal 0 0 with cache := true }).thr.pend.length = s.thr.pend.length + 1 ∧
    ((t.finishLong sw .gz { Pending.ofVal 0 0 with cache := true }).thr.pend.getLast?.map fun p => (p.tok, p.cache)) =
      some (s.thr.seq, true) := by
  simp only [State.progress, Prod.mk.injEq] at h
  obtain ⟨hpc, hpend, hseq⟩ := h
  refine ⟨by rw [State.finishLong_thr_pc, hpc], by simp [State.finishLong, State.long, hpend], ?_⟩
  rw [State.finishLong_last, hseq]
  rfl

/-- A finished instruction changes no array. -/
theorem State.finishLong_dieAny (s : State) (sw : Bool) (d : Dst) (q : Pending) (p : Option Perm → Bool) (die line : Nat) :
    State.dieAny p (s.finishLong sw d q) die line = State.dieAny p s die line := by
  simp only [State.dieAny, State.dieCores, State.allCores, State.l2Find, State.clusterAt, State.finishLong_core, State.finishLong_cores,
    State.finishLong_clusters]

theorem State.cinvLine_progress (s : State) (line : Nat) (wb : Bool) : (s.cinvLine line wb).progress = s.progress :=
  State.cinvLine_keeps (fun _ _ _ => rfl)
    (fun s d n => (State.dropLine_belowKeeps State.progress_belowKeeps s d n).trans (s.invalDie_progress d n)) _ _ _

theorem State.cinvLine_mem (s : State) (line : Nat) (wb : Bool) : (s.cinvLine line wb).mem = s.mem :=
  State.cinvLine_keeps (fun _ _ _ => rfl) State.dropLine_mem _ _ _

section
variable {o : CacheOp} {s s1 s2 : State} {b : Word} {l : Loc} (hl : s.thr.live = true) (hr : s.reads [o.b] .gz = some (s1, [b]))
  (ha : s1.accessed (b + o.disp.signExtend 64) accLine false false = some (s2, l)) (hc : l.cached = true)
  (hb : s2.ownBuffered (l.key / 64 * 64) 64 = false) (hp : s2.ownPending l [(l.key / 64 * 64, 64)] = false)
include hl hr ha hc hb hp

/-- A cache operation of a cached line acts, its accesses before it performed and no transaction on the line. -/
theorem cacheOp_acts {ask : Option Bool} (hi : ask.isSome = true → s2.seamIdle (l.key / 64) = true) (act : State → Nat → Bool → State) :
    cacheOp o s ask act = .next ((act s2 (l.key / 64) true).finishLong o.sw .gz { Pending.ofVal 0 0 with cache := true }) := by
  have hi' : (true && ask.isSome && !s2.seamIdle (l.key / 64)) = false := by
    cases ask with
    | none => simp
    | some x => simp [hi rfl]
  unfold cacheOp
  rw [withThread_live _ _ hl, State.gather1_reads _ hr, State.withAccess_accessed _ ha]
  rcases Loc.cached_place hc with h | h | ⟨n, h⟩ <;> 
    simp only [h, hb, hp, hc, hi', Bool.or_self, Bool.and_false, Bool.false_eq_true, if_false, if_true]

/-- What the cache operations of a cached line leave behind. -/
theorem cacheOp_leaves {ask : Option Bool} (hi : ask.isSome = true → s2.seamIdle (l.key / 64) = true) (act : State → Nat → Bool → State)
    {t : State} (ht : act s2 (l.key / 64) true = t) (hprog : t.progress = s2.progress) (hmem : t.mem = s2.mem) :
    cacheOp o s ask act = .next (t.finishLong o.sw .gz { Pending.ofVal 0 0 with cache := true }) ∧
    (t.finishLong o.sw .gz { Pending.ofVal 0 0 with cache := true }).mem = s2.mem ∧
    (t.finishLong o.sw .gz { Pending.ofVal 0 0 with cache := true }).thr.pc = s2.thr.pc + 4 ∧
    (t.finishLong o.sw .gz { Pending.ofVal 0 0 with cache := true }).thr.pend.length = s2.thr.pend.length + 1 ∧
    ((t.finishLong o.sw .gz { Pending.ofVal 0 0 with cache := true }).thr.pend.getLast?.map fun p => (p.tok, p.cache)) =
      some (s2.thr.seq, true) := by
  subst ht
  exact ⟨cacheOp_acts hl hr ha hc hb hp hi act, by rw [State.finishLong_mem, hmem], State.finishLong_cache hprog o.sw⟩

end

/-! ## PREF -/

/-- A translation that fails for a thread at its own addresses, below 2^56, reaches no window. -/
theorem canonical_outside_windows {a : Nat} (h : a < 2 ^ 56) (sup : Bool) : (canonical a && !inWindow a && (sup || decide (a < 2 ^ 56))) = true := by
  have hc : canonical a = true := by
    rw [canonical, Bool.or_eq_true, decide_eq_true_iff]
    exact .inl h
  have hw : inWindow a = false := by
    simp only [inWindow, localBase, scratchBase, weightBase, Bool.or_eq_false_iff, Bool.and_eq_false_iff, decide_eq_false_iff_not]
    refine ⟨⟨.inl ?_, .inl ?_⟩, .inl ?_⟩ <;> omega
  rw [hc, hw, decide_eq_true h, Bool.or_true]
  rfl

/-- A block read with the hint to keep it stands in its slice. -/
theorem State.mscRead_kept (s : State) (line launch : Nat) : ((s.mscRead line 1 launch).msc.any fun m => m.block == line * 64 / 512) = true := by
  have hput : ∀ (t : State) (b : MscBlock), b.block = line * 64 / 512 →
      ((t.mscPut b launch).msc.any fun m => m.block == line * 64 / 512) = true := by
    intro t b hb
    simp [State.mscPut, State.countDram, hb]
  unfold State.mscRead
  dsimp only
  cases hf : s.msc.find? fun x => x.block == line * 64 / 512 with
  | none => exact hput _ _ rfl
  | some b =>
    have hb : b.block = line * 64 / 512 := by simpa using List.find?_some hf
    dsimp only
    split
    · exact hput _ _ hb
    · exact hput _ _ hb

section
variable {o : PrefOp} {s s1 : State} {b : Word} (hl : s.thr.live = true) (hr : s.reads [o.b] .gz = some (s1, [b]))
  (hw : s1.mustWalk s1.thr (b + o.disp.signExtend 64) 1 = false)
include hl hr hw

theorem exec_pref_error {e : TrapInfo} (ha : s1.access s1.thr (b + o.disp.signExtend 64) accLine = .error e)
    (hv : (b + o.disp.signExtend 64).toNat < 2 ^ 56) : exec (.pref o) s = .next (s1.finishLong o.sw .gz (Pending.ofVal 0 0)) := by
  change withThread s _ = _
  rw [withThread_live _ _ hl, State.gather1_reads _ hr]
  simp only [sx13, hw, ha, canonical_outside_windows hv, Bool.false_eq_true, if_false, if_true]

end

/-- The translation that PREF found put first in the TLBs. -/
def State.prefTouch (s : State) : Option Xlate → State
  | some x => s.touch s.core.id (s.tableOf s.thr) x false s.thr.launch
  | none => s

/-- What PREF does at its place. -/
def State.prefAt (s0 s : State) (o : PrefOp) (va : Nat) (l : Loc) : State :=
  if !l.cached || s.constPage va || s.releasing l.key || (s.caps.dless && (beyond (l.key / 64) || homeQuad s.pkg l.key / 64 != dieOf s.core.id)) then
    s.finishLong o.sw .gz (Pending.ofVal 0 0)
  else if o.hint = 2 then
    if !s.slotFree then s0.parkOn 21 0 0 else
    (if l.place == .hbm then s.mscRead (l.key / 64) 1 s.thr.launch else s).finishLong o.sw .gz { Pending.ofVal 0 0 with slot := true }
  else if (s.coreOf s.core.id).l1Find (l.key / 64) != none then s.finishLong o.sw .gz (Pending.ofVal 0 0)
  else if !s.missOut s.core.id (l.key / 64) && !s.slotFree then s0.parkOn 21 0 0
  else (s.request (.pref (o.hint = 1)) l false 0 none).finishLong o.sw .gz { Pending.awaited true with load := false, line := some (l.key / 64) }

section
variable {o : PrefOp} {s s1 : State} {b : Word} {l : Loc} {x : Option Xlate} (hl : s.thr.live = true)
  (hr : s.reads [o.b] .gz = some (s1, [b])) (hw : s1.mustWalk s1.thr (b + o.disp.signExtend 64) 1 = false)
  (ha : s1.access s1.thr (b + o.disp.signExtend 64) accLine = .ok (l, x))
include hl hr hw ha

theorem exec_pref_access : exec (.pref o) s = .next (s.prefAt (s1.prefTouch x) o (b + o.disp.signExtend 64).toNat l) := by
  change withThread s _ = _
  rw [withThread_live _ _ hl, State.gather1_reads _ hr]
  simp only [sx13, hw, ha, Bool.false_eq_true, if_false]
  cases x <;> rfl

end

section
variable {s0 s : State} {o : PrefOp} {va : Nat} {l : Loc}

/-- A line that PREF may not bring in is left where it is. -/
theorem State.prefAt_drops (h : l.cached = false ∨ s.constPage va = true ∨ s.releasing l.key = true ∨
    s.caps.dless = true ∧ (beyond (l.key / 64) || homeQuad s.pkg l.key / 64 != dieOf s.core.id) = true) :
    s0.prefAt s o va l = s.finishLong o.sw .gz (Pending.ofVal 0 0) := by
  unfold State.prefAt
  rw [if_pos]
  rcases h with h | h | h | ⟨h, h'⟩ <;> simp [*]

section
variable (hc : l.cached = true) (hk : s.constPage va = false) (hx : s.releasing l.key = false) (hd : s.caps.dless = false)
include hc hk hx hd

/-- A line that PREF may bring in. -/
theorem State.prefAt_guard : (!l.cached || s.constPage va || s.releasing l.key ||
    (s.caps.dless && (beyond (l.key / 64) || homeQuad s.pkg l.key / 64 != dieOf s.core.id))) = false := by
  rw [hc, hk, hx, hd]
  rfl

theorem State.prefAt_msc (hh : o.hint = 2) (hp : l.place = .hbm) (hf : s.slotFree = true) :
    s0.prefAt s o va l = (s.mscRead (l.key / 64) 1 s.thr.launch).finishLong o.sw .gz { Pending.ofVal 0 0 with slot := true } := by
  simp only [State.prefAt, State.prefAt_guard hc hk hx hd, hh, hf, Bool.false_eq_true, if_false, if_true, Bool.not_true]
  rw [if_pos (by rw [hp]; rfl)]

theorem State.prefAt_held (hh : o.hint ≠ 2) (hf : (s.coreOf s.core.id).l1Find (l.key / 64) ≠ none) :
    s0.prefAt s o va l = s.finishLong o.sw .gz (Pending.ofVal 0 0) := by
  simp only [State.prefAt, State.prefAt_guard hc hk hx hd, if_neg hh, Bool.false_eq_true, if_false, bne_iff_ne.2 hf, if_true]

theorem State.prefAt_fetch (hh : o.hint ≠ 2) (hn : (s.coreOf s.core.id).l1Find (l.key / 64) = none) (hf : s.slotFree = true) :
    s0.prefAt s o va l = (s.request (.pref (o.hint = 1)) l false 0 none).finishLong o.sw .gz
      { Pending.awaited true with load := false, line := some (l.key / 64) } := by
  simp only [State.prefAt, State.prefAt_guard hc hk hx hd, if_neg hh, Bool.false_eq_true, if_false, hn, bne_self_eq_false, hf, Bool.not_true,
    Bool.and_false]

end
end

/-! ## WSWAIT -/

section
variable {o : CacheOp} {s s1 s2 : State} {b : Word} {l : Loc} (hl : s.thr.live = true) (hr : s.reads [o.b] .gz = some (s1, [b]))
  (ha : s1.accessed (b + o.disp.signExtend 64) ⟨1, .load, fun _ => false, true, false, false, false⟩ false false = some (s2, l))
  (hp : l.place = .weight (dieOf s2.core.id))
include hl hr ha hp

/-- WSWAIT of its die's weight store looks at the window of its bank group alone. -/
theorem exec_wswait : exec (.wswait o) s = .next
    (if refreshing s2.cc ((l.key - weightBase) % 0x40000000 / 0x1800000) then
      s.parkOn 17 (b + o.disp.signExtend 64) ((l.key - weightBase) % 0x40000000 / 0x1800000)
    else s2.retire o.sw) := by
  change withThread s _ = _
  rw [withThread_live _ _ hl, State.gather1_reads _ hr, State.withAccess_accessed _ ha]
  exact congrArg _ (if_neg (not_not.2 hp))

end

/-- Settles O24: a cache operation acts once (`cacheOp_acts`), on every die for CFLUSH and CCLEAN and on its own for CINV; PREF and WSWAIT
by the branches of `State.prefAt` and of the window. -/
theorem lineOperations : Obligations.LineOperations := by
  refine ⟨fun o s s1 s2 b l hl hr ha hc hb hp => ⟨fun hi => ?_, fun hi => ?_, ?_⟩,
    fun o s s1 b hl hr hsup hw => ⟨fun e hv ha => exec_pref_error hl hr hw ha hv, fun l ha hc => ?_, fun l x s2 ha hs2 => ?_⟩,
    fun o s s1 s2 b l hl hr ha hp => ?_⟩
  · obtain ⟨hx, hmem, hpc, hpend⟩ := cacheOp_leaves hl hr ha hc hb hp (fun _ => hi)
      (fun s line wb => if wb then s.recallLine line else s) rfl (s2.recallLine_progress _) (s2.recallLine_mem _)
    refine ⟨_, hx, hmem, hpc, ?_, fun d hd => ?_, hpend⟩
    · simpa [State.dirOf] using s2.recallLine_dirOf (l.key / 64)
    · exact (State.finishLong_dieAny ..).trans (s2.recallLine_dieHolds hd _)
  · obtain ⟨hx, hmem, hpc, hpend⟩ := cacheOp_leaves hl hr ha hc hb hp (fun _ => hi)
      (fun s line wb => if wb then s.cleanLine line else s) rfl (s2.cleanLine_progress _) (s2.cleanLine_mem _)
    exact ⟨_, hx, hmem, hpc, fun d hd => (State.finishLong_dieAny ..).trans (s2.cleanLine_dieDirty hd _), hpend⟩
  · obtain ⟨hx, hmem, hpc, hpend⟩ := cacheOp_leaves hl hr ha hc hb hp (ask := none) nofun State.cinvLine rfl (s2.cinvLine_progress _ _)
      (s2.cinvLine_mem _ _)
    exact ⟨_, hx, hmem, hpc, (State.finishLong_dieAny ..).trans (s2.cinvLine_dieHolds _), hpend⟩
  · rw [exec_pref_access hl hr hw ha]
    exact congrArg _ (State.prefAt_drops (.inl hc))
  · rw [exec_pref_access hl hr hw ha, show s1.prefTouch (some x) = s2 from hs2.symm]
    refine ⟨fun h => congrArg _ (State.prefAt_drops h), fun hc hk hx hd => ⟨fun hh hpl hf => ⟨_, congrArg _ (State.prefAt_msc hc hk hx hd hh hpl hf), ?_⟩,
      fun hh hf => congrArg _ (State.prefAt_held hc hk hx hd hh hf), fun hh hn hf => congrArg _ (State.prefAt_fetch hc hk hx hd hh hn hf)⟩⟩
    have hprog := State.mscRead_belowKeeps State.progress_belowKeeps s2 (l.key / 64) 1 s2.thr.launch
    refine ⟨?_, by simp, ?_, by rw [State.finishLong_last]; rfl⟩
    · rw [State.finishLong_msc]
      exact State.mscRead_kept _ _ _
    · rw [State.finishLong_thr_pc]
      exact congrArg (·.1 + 4) hprog
  · rw [exec_wswait hl hr ha hp]
    refine ⟨fun h => by rw [h]; rfl, fun h => ⟨_, congrArg _ (if_pos h), ?_, fun hwake => ?_⟩⟩
    · simp only [State.parkOn]
      split <;> rfl
    · simp [State.parkOn, hwake, State.modThr]

end Sys2Proof.Machine
end

section
/-! Where threads stand, and the frame that a thread which ends leaves (O51). -/

namespace Sys2Proof.Machine

/-! ## Where the threads stand -/

/-- Is a thread there, and in which frame of which core? -/
def Thread.seat (t : Thread) : Bool × Nat × Nat := (t.live, t.core, t.frame)

/-- The seats of all threads. -/
def State.seats (s : State) : (Bool × Nat × Nat) × List (Bool × Nat × Nat) := (s.thr.seat, s.threads.map Thread.seat)

theorem State.seats_thr {s t : State} (h : t.seats = s.seats) : t.thr.live = s.thr.live ∧ t.thr.core = s.thr.core ∧ t.thr.frame = s.thr.frame := by
  simpa [State.seats, Thread.seat, and_assoc] using congrArg Prod.fst h

theorem State.modThreads_seats (s : State) (p : Thread → Bool) {f : Thread → Thread} (hf : ∀ t, (f t).seat = t.seat) :
    (s.modThreads p f).seats = s.seats := by
  have hthr : (if s.thr.live && p s.thr then f s.thr else s.thr).seat = s.thr.seat := by
    rw [apply_ite Thread.seat, hf, ite_self]
  have hall : (s.threads.map fun t => if p t then f t else t).map Thread.seat = s.threads.map Thread.seat := by
    rw [List.map_map]
    refine List.map_congr_left fun t _ => ?_
    rw [Function.comp_apply, apply_ite Thread.seat, hf, ite_self]
  exact Prod.ext hthr hall

theorem State.modThread_seats (s : State) (n k : Nat) {f : Thread → Thread} (hf : ∀ t, (f t).seat = t.seat) :
    (s.modThread n k f).seats = s.seats := s.modThreads_seats _ hf

@[simp] theorem State.modCore_seats (s : State) (n : Nat) (f : Core → Core) : (s.modCore n f).seats = s.seats := by
  simp [State.seats]

@[simp] theorem State.setStack_seats (s : State) (i : Tid) (r : List (Option TKey)) : (s.setStack i r).seats = s.seats := rfl

@[simp] theorem State.dropGroup_seats (s : State) (g : Nat) : (s.dropGroup g).seats = s.seats := rfl
@[simp] theorem State.untaint_seats (s : State) (is : List Tid) : (s.untaint is).seats = s.seats := s.modThreads_seats _ fun _ => rfl

/-! ## What the answer table does to threads leaves them where they stand -/

theorem Thread.produces_seat (t : Thread) (k : TKey) : (t.produces k).seat = t.seat := by
  have hlink : t.link.seat = t.seat := by
    unfold Thread.link
    split <;> rfl
  refine (foldl_keeps Thread.seat _ (fun t x => ?_) _ t.link).trans hlink
  split <;> rfl

@[simp] theorem State.replies_seats (s : State) (cs : List Tid) : (s.replies cs).seats = s.seats :=
  foldl_keeps State.seats _ (fun s i => by split <;> rfl) cs s

@[simp] theorem State.recall_seats (s : State) (i : Tid) : (s.recall i).seats = s.seats := by
  unfold State.recall
  split
  · rfl
  · rw [State.modThread_seats]
    · split
      · rfl
      · exact State.modCore_seats ..
    · exact fun _ => rfl

@[simp] theorem State.recallAll_seats (s : State) (cs : List Tid) : (s.recallAll cs).seats = s.seats :=
  (foldl_keeps State.seats _ (fun s i => State.recall_seats s i) cs _).trans (s.replies_seats cs)

@[simp] theorem State.freeLeader_seats (s : State) (e : TEntry) : (s.freeLeader e).seats = s.seats := by
  unfold State.freeLeader
  split
  · rfl
  · rw [State.modThread_seats]
    · exact State.replies_seats ..
    · exact fun _ => rfl

@[simp] theorem State.dissolve_seats (s : State) (g : Nat) : (s.dissolve g).seats = s.seats := by
  unfold State.dissolve
  dsimp only
  rw [State.dropGroup_seats, State.untaint_seats, State.recallAll_seats]
  exact foldl_keeps State.seats _ (fun s e => State.freeLeader_seats s e) _ _

@[simp] theorem State.abandonEntry_seats (s : State) (k : TKey) (c : Bool) : (s.abandonEntry k c).seats = s.seats := by
  unfold State.abandonEntry
  split
  · rfl
  · dsimp only
    split
    · exact State.dissolve_seats ..
    · split
      · exact State.recallAll_seats ..
      · split
        · rfl
        · rw [State.modThreads_seats _ _ fun t => t.produces_seat k]
          exact State.replies_seats ..

theorem State.abandonStack_seats (s : State) (i : Tid) (c : Bool) : (s.abandonStack i c).seats = s.seats := by
  unfold State.abandonStack
  dsimp only
  rw [State.modThreads_seats _ _ ?_, State.setStack_seats]
  · exact foldl_keeps State.seats _ (fun s k => State.abandonEntry_seats s k c) _ _
  · exact fun _ => rfl

theorem State.dropConsumer_seats (s : State) (i : Tid) : (s.dropConsumer i).seats = s.seats := by
  change State.seats (if _ then _ else _) = _
  split
  · exact State.replies_seats ..
  · rfl

/-! ## The end of a thread -/

/-- The issuing thread is gone, no thread stands in its frame, and none has come. -/
def State.Gone (s : State) (n core frame : Nat) : Prop :=
  s.thr.live = false ∧ s.threads.length ≤ n ∧ ∀ u ∈ s.threads, u.is core frame = false

theorem State.Gone.of_seats {s t : State} {n core frame : Nat} (h : t.seats = s.seats) (hs : s.Gone n core frame) : t.Gone n core frame := by
  obtain ⟨hl, hn, hu⟩ := hs
  have hthreads : t.threads.map Thread.seat = s.threads.map Thread.seat := congrArg Prod.snd h
  have hlen : t.threads.length = s.threads.length := by simpa using congrArg List.length hthreads
  refine ⟨(State.seats_thr h).1.trans hl, hlen ▸ hn, fun u ht => ?_⟩
  obtain ⟨v, hv, hvu⟩ := List.mem_map.1 (hthreads ▸ List.mem_map_of_mem (f := Thread.seat) ht)
  obtain ⟨-, hc, hf⟩ : v.live = u.live ∧ v.core = u.core ∧ v.frame = u.frame := by simpa [Thread.seat] using hvu
  have := hu v hv
  rwa [Thread.is, hc, hf] at this

theorem State.Gone.all {s : State} {n core frame : Nat} (h : s.Gone n core frame) : ∀ u ∈ s.all, u.is core frame = false := by
  obtain ⟨hl, -, hu⟩ := h
  simpa [State.all, hl] using hu

theorem State.dropThread_gone {s : State} {core frame : Nat} (hl : s.thr.live = true) (hi : s.thr.is core frame = true) :
    (s.dropThread core frame).Gone s.threads.length core frame := by
  refine ⟨?_, List.length_filter_le _ _, fun u hu => ?_⟩
  · simp [State.dropThread, hl, hi, Thread.absent]
  · simpa using (List.mem_filter.1 hu).2

theorem State.releaseEngines_seats (s : State) (core : Nat) : (s.releaseEngines core).seats = s.seats := by
  unfold State.releaseEngines
  dsimp only
  split
  · unfold State.anchor
    rw [State.modThread_seats, State.modCore_seats, State.modCore_seats]
    exact fun _ => rfl
  · exact State.modCore_seats ..

theorem State.leave_gone {s : State} {core frame : Nat} (hl : s.thr.live = true) (hi : s.thr.is core frame = true) :
    (s.leave core frame).Gone s.threads.length core frame := by
  have hdrop : ∀ u : State, u.seats = s.seats → (u.dropThread core frame).Gone s.threads.length core frame := by
    intro u hu
    obtain ⟨hul, huc, huf⟩ := State.seats_thr hu
    have hlen : u.threads.length = s.threads.length := by simpa [State.seats] using congrArg (fun x => x.2.length) hu
    rw [← hlen]
    exact State.dropThread_gone (hul.trans hl) (by rw [Thread.is, huc, huf]; exact hi)
  have hrecv : ∀ k l, ((List.range k).foldl (fun t _ => t.recvd l core) s).seats = s.seats := fun k l =>
    foldl_keeps State.seats (fun (t : State) _ => t.recvd l core) (fun _ _ => rfl) _ s
  unfold State.leave
  dsimp only
  generalize ((s.threadAt core frame).map fun t => (t.launch, (t.pend.filter fun p => p.recv).length)).getD (0, 0) = owed
  replace hrecv := hrecv owed.2 owed.1
  revert hrecv
  generalize (List.range owed.2).foldl (fun t _ => t.recvd owed.1 core) s = u
  intro hu
  have hq : (if (u.coreOf core).qOwner = some frame then u.modCore core fun c => { c with qOwner := none, qdn := none } else u).seats = s.seats := by
    rw [apply_ite State.seats, State.modCore_seats, ite_self, hu]
  revert hq
  generalize (if (u.coreOf core).qOwner = some frame then u.modCore core fun c => { c with qOwner := none, qdn := none } else u) = v
  intro hv
  have hv' : ∀ f g, ((v.modCores f).modCore core g).seats = s.seats := fun f g => (State.modCore_seats ..).trans hv
  split
  · split
    · exact State.Gone.of_seats (State.modCore_seats ..) (hdrop _ (hv' _ _))
    · exact State.Gone.of_seats (State.releaseEngines_seats ..) (hdrop _ (hv' _ _))
  · exact hdrop _ (hv' _ _)

end Sys2Proof.Machine
end

section
/-! HALT, YIELD, TLBI, IDLE and SPILL, instruction by instruction (O51). -/

namespace Sys2Proof.Machine

/-! ## HALT (R304) -/

/-- HALT's first act: its core's open vector body goes, and the busy bits follow. -/
def State.haltOpen (s : State) : State :=
  ({ s with core := { s.core with eng := s.core.eng.dropOpen s.thr.frame } } : State).setBusy s.core.id

theorem State.haltOpen_seats (s : State) : s.haltOpen.seats = s.seats := State.modThreads_seats _ _ fun _ => rfl

/-- A property of the issuing thread on which the busy bits do not bear. -/
theorem State.haltOpen_thr {γ : Type} (f : Thread → γ) (hf : ∀ t st, f { t with st := st } = f t) (s : State) : f s.haltOpen.thr = f s.thr := by
  change f (if _ then _ else _) = _
  split
  · exact hf _ _
  · rfl

section
variable {s : State} (hd : s.thr.dropped = none)
include hd

theorem State.halt_waits (hp : s.thr.pend ≠ []) :
    s.halt = s.haltOpen.modThr fun t => { t with park := some ⟨1, 0, 0, s.cc, none⟩ } := by
  have hpend : s.haltOpen.thr.pend = s.thr.pend := State.haltOpen_thr Thread.pend (fun _ _ => rfl) s
  unfold State.halt
  rw [hd]
  change (if !s.haltOpen.thr.pend.isEmpty then _ else _) = _
  rw [hpend, if_pos (by simpa using hp)]
  rfl

theorem State.halt_leaves (hp : s.thr.pend = []) (ho : s.core.eng.owner ≠ some s.thr.frame) :
    s.halt = ((s.haltOpen.abandonStack s.haltOpen.thr.tid true).dropConsumer s.haltOpen.thr.tid).leave s.thr.core s.thr.frame := by
  have hpend : s.haltOpen.thr.pend = s.thr.pend := State.haltOpen_thr Thread.pend (fun _ _ => rfl) s
  have hcore : s.haltOpen.thr.core = s.thr.core := (State.seats_thr s.haltOpen_seats).2.1
  have hframe : s.haltOpen.thr.frame = s.thr.frame := (State.seats_thr s.haltOpen_seats).2.2
  unfold State.halt
  rw [hd]
  change (if !s.haltOpen.thr.pend.isEmpty then _ else if s.haltOpen.core.eng.owner = some s.haltOpen.thr.frame && _ then _ else
    ((s.haltOpen.abandonStack s.haltOpen.thr.tid true).dropConsumer s.haltOpen.thr.tid).leave s.haltOpen.thr.core s.haltOpen.thr.frame) = _
  have howner : s.haltOpen.core.eng.owner = s.core.eng.owner := rfl
  rw [hpend, hp, hcore, hframe, howner, if_neg (by simp), if_neg (by simp [ho])]

end

/-- A thread that halts with nothing outstanding leaves its frame to nobody. -/
theorem State.halt_gone {s : State} (hl : s.thr.live = true) (hd : s.thr.dropped = none) (hp : s.thr.pend = [])
    (ho : s.core.eng.owner ≠ some s.thr.frame) : s.halt.Gone s.threads.length s.thr.core s.thr.frame := by
  have hseats : ((s.haltOpen.abandonStack s.haltOpen.thr.tid true).dropConsumer s.haltOpen.thr.tid).seats = s.seats :=
    (State.dropConsumer_seats ..).trans ((State.abandonStack_seats ..).trans s.haltOpen_seats)
  obtain ⟨hul, huc, huf⟩ := State.seats_thr hseats
  have hlen := congrArg (fun x => x.2.length) hseats
  simp only [State.seats, List.length_map] at hlen
  rw [State.halt_leaves hd hp ho, ← hlen]
  exact State.leave_gone (hul.trans hl) (by simp [Thread.is, huc, huf])

theorem exec_halt {o : S0} {s s1 : State} {vs : List Word} (hl : s.thr.live = true) (hr : s.reads [] .gz = some (s1, vs)) :
    exec (.halt o) s = .next s.halt := by
  change withThread s _ = _
  rw [withThread_live _ _ hl, State.gather_reads _ hr]

/-! ## YIELD (R305) -/

/-- The threads of its core, other than the issuing one, that YIELD makes way for. -/
def State.yieldsTo (s : State) : List Thread :=
  (s.onCore s.core.id).filter fun t => t.frame != s.thr.frame && t.stands && t.fbuf.any fun f => f.1 == t.pc.toNat / 32

/-- The state that YIELD leaves. -/
def State.yielded (s : State) : State :=
  if s.core.rot.getLsbD 0 || s.yieldsTo.isEmpty then s.retire true
  else (s.retire true).modThr fun t => { t with yield := some (s.cc + 32, s.yieldsTo.map fun u => u.frame) }

theorem exec_yield {o : S0} {s s1 : State} {vs : List Word} (hl : s.thr.live = true) (hr : s.reads [] .gz = some (s1, vs)) :
    exec (.yield o) s = .next s.yielded := by
  change withThread s _ = _
  rw [withThread_live _ _ hl, State.gather_reads _ hr]
  obtain ⟨rfl, -⟩ := State.readsOf_nil hr
  rfl

/-- A field of the state that no part of an ended instruction but its thread's way forward bears on. -/
theorem State.retire_keeps {γ : Type} (f : State → γ)
    (h1 : ∀ (s : State) pc, f (s.modThr fun t => { t with pc := pc, phase := 0, skipWatch := none, walked := none, popped := [] }) = f s)
    (h2 : ∀ (s : State) p, f (s.modThr fun t => { t with park := p }) = f s) (s : State) (sw : Bool) : f (s.retire sw) = f s := by
  have he : ∀ t : State, f t.endRun = f t := by
    intro t
    unfold State.endRun
    split
    · rfl
    · exact h2 _ _
  unfold State.retire State.jump
  dsimp only
  rw [apply_ite f, he, ite_self]
  exact h1 _ _

theorem State.yielded_thr {γ : Type} (f : Thread → γ) (hf : ∀ t y, f { t with yield := y } = f t) (s : State) :
    f s.yielded.thr = f (s.retire true).thr := by
  unfold State.yielded
  split
  · rfl
  · exact hf _ _

theorem State.yielded_until {s : State} {y : Nat × List Nat} (h : s.yielded.thr.yield = some y) (hn : s.thr.yield = none) : y.1 = s.cc + 32 := by
  unfold State.yielded at h
  split at h
  · rw [State.retire_keeps (fun s => s.thr.yield) (fun _ _ => rfl) (fun _ _ => rfl), hn] at h
    cases h
  · obtain rfl := Option.some.inj h
    rfl

theorem State.threadAt_issuing {s : State} (hl : s.thr.live = true) : s.threadAt s.thr.core s.thr.frame = some s.thr := by
  simp [State.threadAt, State.all, hl, Thread.is]

section
variable {s : State} {y : Nat × List Nat} (hl : s.thr.live = true) (hy : s.thr.yield = some y)
include hl hy

theorem exec_yieldExpiry : exec (.yieldExpiry s.thr.core s.thr.frame) s =
    whenEnabled (decide (y.1 ≤ s.cc)) (s.modThread s.thr.core s.thr.frame fun t => { t with yield := none }) := by
  change whenEnabled _ _ = _
  rw [State.threadAt_issuing hl, Option.any_some, hy, Option.any_some]

end

/-! ## TLBI (R121, R346) -/

/-- The TLBIs of the other threads. -/
def State.otherTlbis (s : State) : List TlbiWait := s.mgmt.tlbis.filter fun w => !(w.core == s.core.id && w.frame == s.thr.frame)

/-- A thread that was woken by nothing parks. -/
theorem State.parkOn_parks {s : State} (hw : s.thr.wake = false) (n : Nat) (a : Word) (k : Nat) :
    s.parkOn n a k = { s with thr := { s.thr with park := some ⟨n, a, k, s.cc, none⟩ } } := by
  unfold State.parkOn
  rw [hw]
  rfl

/-- A TLBI announced: it stands with the others, and its thread waits for it. -/
def State.announced (s : State) (a b : Word) : State :=
  { s with
    thr := { s.thr with phase := tlbiKey, park := some ⟨16, 0, tlbiKey, s.cc, none⟩ }
    mgmt := { s.mgmt with tlbis := s.otherTlbis ++ [⟨s.core.id, s.thr.frame, a, b, some (s.tlbiWindow s.core.id), [], [], []⟩] } }

theorem State.tlbiWindow_later (s : State) (core : Nat) : s.cc / 8 < s.tlbiWindow core := by
  unfold State.tlbiWindow
  dsimp only
  omega

section
variable {o : S2} {s s1 : State} {a b : Word} (hl : s.thr.live = true) (hs : s.thr.sup = true)
  (hr : s.reads [o.a, o.b] .gz = some (s1, [a, b]))
include hl hs hr

/-- A TLBI whose older stores and cache operations are performed is announced in the next free window. -/
theorem exec_tlbi_announces (hw : s.thr.wake = false) (hp : s.thr.phase = 0) (hd : s1.olderDone s1.thr 3 s.core.sbNum 6 = true) :
    exec (.tlbi o) s = .next (s.announced a b) := by
  change withThread s _ = _
  rw [withThread_live _ _ hl, State.privileged, if_pos hs, State.gather2_reads _ hr]
  dsimp only
  rw [if_neg (by rw [hp]; decide), if_pos hp, if_pos hd]
  exact congrArg _ (State.parkOn_parks (by exact hw) _ _ _)

theorem exec_tlbi_ends (hp : s.thr.phase = tlbiKey) (hd : (s.tlbiOf s.core.id s.thr.frame).all s.tlbiDone = true) :
    exec (.tlbi o) s = .next (({ s1 with mgmt := { s1.mgmt with tlbis := s.otherTlbis } } : State).retire o.sw) := by
  change withThread s _ = _
  rw [withThread_live _ _ hl, State.privileged, if_pos hs, State.gather2_reads _ hr]
  dsimp only
  rw [if_pos hp, if_pos hd]
  rfl

theorem exec_tlbi_waits (hp : s.thr.phase = tlbiKey) (hd : (s.tlbiOf s.core.id s.thr.frame).all s.tlbiDone = false) :
    exec (.tlbi o) s = .next (s.parkOn 16 0 tlbiKey) := by
  change withThread s _ = _
  rw [withThread_live _ _ hl, State.privileged, if_pos hs, State.gather2_reads _ hr]
  dsimp only
  rw [if_pos hp, if_neg (by simp [hd])]

end

/-- The older accesses of a thread for a TLBI: its stores performed at its core's watermark, no write and no cache operation of its own
outstanding. -/
theorem State.olderDone_watermark {s : State} {num : Nat} (hw : s.watermark s.core.id = s.core.sbNum) (hn : num = s.core.sbNum)
    (ho : s.writesOut s.core.id s.thr.frame s.core.sbNum = false) (hc : s.thr.core = s.core.id) (hp : ∀ p ∈ s.thr.pend, p.cache = false) :
    s.olderDone s.thr 3 num 6 = true := by
  have hperf : s.performed s.core.id 6 = s.core.sbNum := hw
  have hpend : (s.thr.pend.all fun p => !p.cache) = true := List.all_eq_true.2 fun p h => by rw [hp p h]; rfl
  simp [State.olderDone, hperf, hn, hc, ho, hpend]

/-! ## The window of a TLBI delivered -/

section
variable {s : State} {w : TlbiWait}

theorem exec_hemWindowDelivery_one {v : Nat} (h1 : s.mgmt.tlbis = [w]) (hv : w.win = some v) : exec (.hemWindowDelivery v) s =
    .next (State.tlbiLands { s with cc := max s.cc (8 * v + 72), hem := s.hem.filter fun x => v < x.2 } w) := by
  change whenEnabled _ _ = _
  rw [h1]
  simp [hv]

/-- The entries that a TLBI names leave every TLB, and no others. -/
theorem State.tlbiLands_clean : (∀ c ∈ (s.tlbiLands w).allCores, ∀ e ∈ c.tlb, tlbiNames w.what w.ctl e = false) ∧
    (∀ c ∈ (s.tlbiLands w).clusters, ∀ e ∈ c.tlb, tlbiNames w.what w.ctl e = false) ∧
    ∀ c ∈ s.allCores, ∃ d ∈ (s.tlbiLands w).allCores, d.id = c.id ∧ ∀ e ∈ c.tlb, tlbiNames w.what w.ctl e = false → e ∈ d.tlb := by
  have hcores : (s.tlbiLands w).allCores = s.allCores.map fun c => { c with tlb := c.tlb.filter fun e => !tlbiNames w.what w.ctl e } := rfl
  have hclusters : (s.tlbiLands w).clusters = s.clusters.map fun c => { c with tlb := c.tlb.filter fun e => !tlbiNames w.what w.ctl e } := rfl
  rw [hcores, hclusters]
  refine ⟨fun c hc e he => ?_, fun c hc e he => ?_, fun c hc => ⟨_, List.mem_map_of_mem hc, rfl, fun e he hn => ?_⟩⟩
  · obtain ⟨x, -, rfl⟩ := List.mem_map.1 hc
    simpa using (List.mem_filter.1 he).2
  · obtain ⟨x, -, rfl⟩ := List.mem_map.1 hc
    simpa using (List.mem_filter.1 he).2
  · exact List.mem_filter.2 ⟨he, by rw [hn]; rfl⟩

theorem State.tlbiLands_one (h1 : s.mgmt.tlbis = [w]) :
    ∃ x, (s.tlbiLands w).mgmt.tlbis = [x] ∧ x.core = w.core ∧ x.frame = w.frame ∧ x.win = none := by
  have hmap : ∃ x : TlbiWait, (s.tlbiLands w).mgmt.tlbis = s.mgmt.tlbis.map (fun y => if y.core = w.core && y.frame = w.frame then x else y) ∧
      x.core = w.core ∧ x.frame = w.frame ∧ x.win = none := ⟨_, rfl, rfl, rfl, rfl⟩
  obtain ⟨x, hx, hrest⟩ := hmap
  exact ⟨x, by simp [hx, h1], hrest⟩

end

/-! ## IDLE (R347) -/

section
variable {o : S0} {s s1 : State} {vs : List Word} (hl : s.thr.live = true) (hs : s.thr.sup = true) (hr : s.reads [] .gz = some (s1, vs))
  (hp : s.thr.pend = [])
include hl hs hr hp

theorem exec_idle_wakes (hw : s.thr.wake = true) : exec (.idle o) s = .next ((s.modThr fun t => { t with wake := false }).retire o.sw) := by
  change withThread s _ = _
  rw [withThread_live _ _ hl, State.privileged, if_pos hs, State.gather_reads _ hr]
  obtain ⟨rfl, -⟩ := State.readsOf_nil hr
  rw [hp, if_neg (by simp), if_pos hw]

theorem exec_idle_parks (hw : s.thr.wake = false) : exec (.idle o) s =
    .next (((s.retire false).parkFor 14 0 0 none).modThr fun t => if t.isSup then { t with pos := none } else t) := by
  change withThread s _ = _
  rw [withThread_live _ _ hl, State.privileged, if_pos hs, State.gather_reads _ hr]
  obtain ⟨rfl, -⟩ := State.readsOf_nil hr
  rw [hp, if_neg (by simp), if_neg (by simp [hw])]

end

/-! ## SPILL (R342) -/

section
variable {o : S1} {s s1 : State} {a : Word} (hl : s.thr.live = true) (hs : s.thr.sup = true) (hr : s.reads [o.a] .gz = some (s1, [a]))
  (hp : s.thr.phase = 0)
include hl hs hr hp

theorem exec_spill_traps (hf : s.thr.frame = a.toNat % 64 ∨ 62 ≤ a.toNat % 64) : exec (.spill o) s = .next (s.trap (cause cPROT a)) := by
  have hframe : s1.thr.frame = s.thr.frame := (State.readsOf_readsAs hr).keeps (fun s => s.thr.frame) fun _ _ _ _ _ _ => rfl
  change withThread s _ = _
  rw [withThread_live _ _ hl, State.privileged, if_pos hs, State.gather1_reads _ hr]
  dsimp only
  rw [if_neg (by simp [hp]), hframe, if_pos (by simp only [Bool.or_eq_true, decide_eq_true_eq]; omega)]

/-- SPILL of another frame acts on the thread that stands there, if any. -/
theorem exec_spill (hf : s.thr.frame ≠ a.toNat % 64) (hlt : a.toNat % 64 < 62) : exec (.spill o) s =
    .next ((s1.threadAt s1.core.id (a.toNat % 64)).elim (s1.retire o.sw) fun t =>
      ((if t.pos.isSome then s.removeAll [t] else s).phase 1).parkFor 16 0 (a.toNat % 64) none) := by
  have hframe : s1.thr.frame = s.thr.frame := (State.readsOf_readsAs hr).keeps (fun s => s.thr.frame) fun _ _ _ _ _ _ => rfl
  change withThread s _ = _
  rw [withThread_live _ _ hl, State.privileged, if_pos hs, State.gather1_reads _ hr]
  dsimp only
  rw [if_neg (by simp [hp]), hframe, if_neg (by simp only [Bool.or_eq_true, decide_eq_true_eq]; omega)]
  cases s1.threadAt s1.core.id (a.toNat % 64) with
  | none => exact Eq.refl _
  | some t => exact Eq.refl _

end


theorem Thread.remove_pos (t : Thread) : t.remove.pos = none := by
  unfold Thread.remove
  dsimp only
  split <;> rfl

/-- A thread found at another frame than the issuing one's. -/
theorem State.threadAt_other {s : State} {core frame : Nat} (h : s.thr.is core frame = false) :
    s.threadAt core frame = s.threads.find? (·.is core frame) := by
  unfold State.threadAt State.all
  split <;> simp [h]

/-- The thread of another frame taken from its position, whether it has one or not. -/
theorem State.spill_removes {s : State} {u : Thread} {core frame : Nat} (hn : s.thr.is core frame = false)
    (hu : s.threadAt core frame = some u) : (if u.pos.isSome then s.removeAll [u] else s).thr = s.thr ∧
    (if u.pos.isSome then s.removeAll [u] else s).mem = s.mem ∧
    ∀ x, (if u.pos.isSome then s.removeAll [u] else s).threads.find? (·.is core frame) = some x → x.pos = none := by
  have hat : s.threads.find? (·.is core frame) = some u := State.threadAt_other hn ▸ hu
  have hseat : u.core = core ∧ u.frame = frame := by simpa [Thread.is] using List.find?_some hat
  split
  · refine ⟨?_, rfl, fun x hx => ?_⟩
    · change (if s.thr.live && s.thr.is u.core u.frame then _ else _) = _
      rw [hseat.1, hseat.2, hn, if_neg (by simp)]
    · have hx' : (s.threads.map fun t => if t.is core frame then t.remove else t).find? (·.is core frame) = some x := by
        rw [← hx, ← hseat.1, ← hseat.2]
        rfl
      obtain ⟨y, -, hy⟩ := List.mem_map.1 (List.mem_of_find?_eq_some hx')
      have hxi : x.is core frame = true := List.find?_some (p := fun t : Thread => t.is core frame) hx'
      by_cases hyi : y.is core frame = true
      · rw [if_pos hyi] at hy
        exact hy ▸ y.remove_pos
      · rw [if_neg hyi] at hy
        exact absurd (hy ▸ hxi) hyi
  · next hpos =>
    refine ⟨rfl, rfl, fun x hx => ?_⟩
    obtain rfl := Option.some.inj (hat.symm.trans hx)
    simpa using hpos

/-! ## The statement, part by part -/

theorem supervisorStops_yield (o : S0) (s s1 : State) (vs : List Word) (hl : s.thr.live = true) (hr : s.reads [] .gz = some (s1, vs)) :
    ∃ t, exec (.yield o) s = .next t ∧ t.thr.pc = s.thr.pc + 4 ∧ t.thr.g = s.thr.g ∧ t.mem = s.mem ∧
      (s.core.rot.getLsbD 0 = true → t = s.retire true) ∧
      ∀ y, s.core.rot.getLsbD 0 = false → t.thr.yield = some y → s.thr.yield = none → y.1 = s.cc + 32 := by
  refine ⟨_, exec_yield hl hr, ?_, ?_, ?_, fun h => if_pos (by rw [h]; rfl), fun y _ hy hn => State.yielded_until hy hn⟩
  · exact (State.yielded_thr Thread.pc (fun _ _ => rfl) s).trans (by simp)
  · exact (State.yielded_thr Thread.g (fun _ _ => rfl) s).trans (by simp)
  · unfold State.yielded
    split <;> simp

theorem supervisorStops_yieldExpiry (s : State) (y : Nat × List Nat) (hl : s.thr.live = true) (hy : s.thr.yield = some y) :
    (s.cc < y.1 → exec (.yieldExpiry s.thr.core s.thr.frame) s = .fault .notEnabled) ∧
    (y.1 ≤ s.cc → ∃ t, exec (.yieldExpiry s.thr.core s.thr.frame) s = .next t ∧ t.thr = { s.thr with yield := none } ∧ t.mem = s.mem) := by
  rw [exec_yieldExpiry hl hy]
  refine ⟨fun h => ?_, fun h => ?_⟩
  · rw [decide_eq_false (by omega), whenEnabled_false]
  · rw [decide_eq_true h, whenEnabled_true]
    refine ⟨_, rfl, ?_, rfl⟩
    change (if s.thr.live && s.thr.is s.thr.core s.thr.frame then _ else _) = _
    rw [if_pos (by simp [hl, Thread.is])]

section
variable (o : S2) (s s1 : State) (a b : Word) (hl : s.thr.live = true) (hs : s.thr.sup = true)
  (hr : s.reads [o.a, o.b] .gz = some (s1, [a, b])) (hw : s.thr.wake = false)
include hl hs hr hw

theorem supervisorStops_tlbi :
    (s.thr.phase = 0 → s1.watermark s1.core.id = s1.core.sbNum → s1.writesOut s1.core.id s1.thr.frame s1.core.sbNum = false →
      s1.thr.core = s1.core.id → (∀ p ∈ s1.thr.pend, p.cache = false) →
      ∃ (t : State) (v : Nat), exec (.tlbi o) s = .next t ∧ s.cc / 8 < v ∧
        t.mgmt.tlbis = (s.mgmt.tlbis.filter fun x => !(x.core == s.core.id && x.frame == s.thr.frame)) ++
          [⟨s.core.id, s.thr.frame, a, b, some v, [], [], []⟩] ∧
        t.thr = { s.thr with phase := tlbiKey, park := some ⟨16, 0, tlbiKey, s.cc, none⟩ } ∧ t.core = s.core ∧ t.clusters = s.clusters ∧ t.mem = s.mem) ∧
    (s.thr.phase = tlbiKey → (s.tlbiOf s.core.id s.thr.frame).all s.tlbiDone = true →
      ∃ t, exec (.tlbi o) s = .next t ∧ t.thr.phase = 0 ∧ t.tlbiOf s.core.id s.thr.frame = none ∧ t.thr.pc = s1.thr.pc + 4 ∧
        t.thr.g = s1.thr.g ∧ t.mem = s1.mem) ∧
    (s.thr.phase = tlbiKey → (s.tlbiOf s.core.id s.thr.frame).all s.tlbiDone = false →
      exec (.tlbi o) s = .next { s with thr := { s.thr with park := some ⟨16, 0, tlbiKey, s.cc, none⟩ } }) := by
  refine ⟨fun hp hmark hout hc hcache => ?_, fun hp hd => ⟨_, exec_tlbi_ends hl hs hr hp hd, ?_, ?_, by simp, by simp, by simp⟩, fun hp hd => ?_⟩
  · have hnum : s.core.sbNum = s1.core.sbNum := ((State.readsOf_readsAs hr).keeps (fun s => s.core.sbNum) fun _ _ _ _ _ _ => rfl).symm
    have hdone := State.olderDone_watermark hmark hnum (hc ▸ hout) hc hcache
    exact ⟨_, _, exec_tlbi_announces hl hs hr hw hp hdone, s.tlbiWindow_later s.core.id, rfl, rfl, rfl, rfl, rfl⟩
  · unfold State.retire State.jump State.endRun
    dsimp only
    split
    · split <;> rfl
    · rfl
  · unfold State.tlbiOf
    rw [State.retire_mgmt, List.find?_eq_none]
    intro w hm
    simpa only [Bool.not_eq_true, Bool.not_eq_true'] using (List.mem_filter.1 hm).2
  · rw [exec_tlbi_waits hl hs hr hp hd, State.parkOn_parks hw]

end

theorem supervisorStops_window (s : State) (w : TlbiWait) (v : Nat) (h1 : s.mgmt.tlbis = [w]) (hv : w.win = some v) :
    ∃ (t : State) (x : TlbiWait), exec (.hemWindowDelivery v) s = .next t ∧ 8 * v + 72 ≤ t.cc ∧ t.mgmt.tlbis = [x] ∧ x.core = w.core ∧ x.frame = w.frame ∧
      x.win = none ∧ t.mem = s.mem ∧ (∀ c ∈ t.allCores, ∀ e ∈ c.tlb, tlbiNames w.what w.ctl e = false) ∧
      (∀ c ∈ t.clusters, ∀ e ∈ c.tlb, tlbiNames w.what w.ctl e = false) ∧
      ∀ c ∈ s.allCores, ∃ d ∈ t.allCores, d.id = c.id ∧ ∀ e ∈ c.tlb, tlbiNames w.what w.ctl e = false → e ∈ d.tlb := by
  obtain ⟨x, hx, hcore, hframe, hwin⟩ :=
    State.tlbiLands_one (s := { s with cc := max s.cc (8 * v + 72), hem := s.hem.filter fun x => v < x.2 }) h1
  exact ⟨_, x, exec_hemWindowDelivery_one h1 hv, le_max_right _ _, hx, hcore, hframe, hwin, State.tlbiLands_mem _ _,
    State.tlbiLands_clean (s := { s with cc := max s.cc (8 * v + 72), hem := s.hem.filter fun x => v < x.2 })⟩

theorem supervisorStops_idle (o : S0) (s s1 : State) (vs : List Word) (hl : s.thr.live = true) (hs : s.thr.sup = true)
    (hr : s.reads [] .gz = some (s1, vs)) (hp : s.thr.pend = []) :
    (s.thr.wake = true → ∃ t, exec (.idle o) s = .next t ∧ t.thr.wake = false ∧ t.thr.park = s.thr.park ∧ t.thr.pc = s.thr.pc + 4 ∧ t.mem = s.mem) ∧
    (s.thr.wake = false → ∃ t, exec (.idle o) s = .next t ∧ (t.thr.park.map fun p => p.code) = some 14 ∧ t.thr.pc = s.thr.pc + 4 ∧
      t.thr.pos = (if s.thr.isSup then none else s.thr.pos) ∧ t.thr.g = s.thr.g ∧ t.mem = s.mem) := by
  refine ⟨fun hw => ⟨_, exec_idle_wakes hl hs hr hp hw, ?_, ?_, by simp [State.modThr], by simp⟩,
    fun hw => ⟨_, exec_idle_parks hl hs hr hp hw, ?_⟩⟩
  · exact State.retire_keeps (fun s => s.thr.wake) (fun _ _ => rfl) (fun _ _ => rfl) _ _
  · cases hsw : o.sw <;> simp [State.retire, State.jump, State.endRun, State.modThr, hp]
  · cases hsup : s.thr.isSup <;>
      simp [State.retire, State.jump, State.parkFor, State.modThr, Thread.isSup] at hsup ⊢ <;> simp [hsup]

section
variable (o : S1) (s s1 : State) (a : Word) (hl : s.thr.live = true) (hs : s.thr.sup = true) (hr : s.reads [o.a] .gz = some (s1, [a]))
  (hp : s.thr.phase = 0)
include hl hs hr hp

theorem supervisorStops_spill :
    (s.thr.frame = a.toNat % 64 ∨ 62 ≤ a.toNat % 64 → exec (.spill o) s = .next (s.trap (cause 0x05 a))) ∧
    (s.thr.frame ≠ a.toNat % 64 → a.toNat % 64 < 62 → s1.threadAt s1.core.id (a.toNat % 64) = none → exec (.spill o) s = .next (s1.retire o.sw)) ∧
    (∀ u, s.thr.frame ≠ a.toNat % 64 → a.toNat % 64 < 62 → s1.threadAt s1.core.id (a.toNat % 64) = some u →
      s.thr.core = s.core.id →
      ∃ (t : State) (p : Park), exec (.spill o) s = .next t ∧ t.thr.park = some p ∧ p.code = 16 ∧ p.key = a.toNat % 64 ∧ t.thr.pc = s.thr.pc ∧
        t.mem = s.mem ∧ ∀ x, t.threadAt s.core.id (a.toNat % 64) = some x → x.pos = none) := by
  refine ⟨exec_spill_traps hl hs hr hp, fun hf hlt hn => ?_, fun u hf hlt hu hc => ?_⟩
  · rw [exec_spill hl hs hr hp hf hlt, hn, Option.elim_none]
  · have hno : s.thr.is s.core.id (a.toNat % 64) = false := by simp [Thread.is, hf]
    have hat : s.threadAt s.core.id (a.toNat % 64) = some u := by
      have hreads := State.readsOf_readsAs hr
      have hcore : s1.core.id = s.core.id := hreads.keeps (fun s => s.core.id) fun _ _ _ _ _ _ => rfl
      have hthreads : s1.threads = s.threads := hreads.keeps State.threads fun _ _ _ _ _ _ => rfl
      have hno1 : s1.thr.is s.core.id (a.toNat % 64) = false :=
        (hreads.keeps (fun t => t.thr.is s.core.id (a.toNat % 64)) fun _ _ _ _ _ _ => rfl).trans hno
      rw [← hu, hcore, State.threadAt_other hno, State.threadAt_other hno1, hthreads]
    obtain ⟨hthr, hmem, hpos⟩ := State.spill_removes hno hat
    rw [exec_spill hl hs hr hp hf hlt, hu, Option.elim_some]
    have hpc := congrArg Thread.pc hthr
    refine ⟨_, _, rfl, rfl, rfl, rfl, hpc, hmem, fun x hx => ?_⟩
    rw [State.threadAt_other] at hx
    · exact hpos x hx
    · exact (congrArg (fun t => Thread.is t s.core.id (a.toNat % 64)) hthr).trans hno

end

/-- Settles O51: HALT by `State.halt_gone`, the others by the one state that each of their branches leaves. -/
theorem supervisorStops : Obligations.SupervisorStops := by
  refine ⟨⟨fun o s s1 vs hl hr hd => ⟨fun hp ho => ?_, fun hp => ?_⟩, supervisorStops_yield, supervisorStops_yieldExpiry⟩,
    supervisorStops_tlbi, supervisorStops_window, supervisorStops_idle, supervisorStops_spill⟩
  · have hg := State.halt_gone hl hd hp ho
    exact ⟨_, exec_halt hl hr, hg.1, s.halt_mem, hg.2.1, hg.all⟩
  · refine ⟨_, exec_halt hl hr, ?_, ?_⟩
    · rw [State.halt_waits hd hp]
      rfl
    · rw [State.halt_waits hd hp]
      exact State.haltOpen_thr Thread.pc (fun _ _ => rfl) s

end Sys2Proof.Machine
end

section
/-! What the ordered accesses share: the next free window, a long instruction's way forward, a parked thread, a dropped store (O17, O22,
O23). -/

namespace Sys2Proof.Machine

/-! ## The next free window (R135) -/

/-- Of one number more than a list has entries, one is not in the list. -/
theorem exists_not_mem_of_length_lt (l : List Nat) (a : Nat) : ∃ i, i < l.length + 1 ∧ a + i ∉ l := by
  by_contra hall
  push Not at hall
  have hnodup : ((List.range (l.length + 1)).map (a + ·)).Nodup := List.nodup_range.map fun _ _ h => Nat.add_left_cancel h
  have hsub : (List.range (l.length + 1)).map (a + ·) ⊆ l := by
    intro x hx
    obtain ⟨i, hi, rfl⟩ := List.mem_map.1 hx
    exact hall i (List.mem_range.1 hi)
  have hlen := (hnodup.subperm hsub).length_le
  simp at hlen

theorem State.nextWindow_freeWindow (s : State) (core : Nat) : s.nextWindow core (s.freeWindow core) := by
  unfold State.freeWindow
  extract_lets taken w0
  have htaken : ∀ w, w ∈ taken ↔ (core, w) ∈ s.hem := by simp [taken]
  cases hf : (List.range (taken.length + 1)).find? fun i => !taken.contains (w0 + i) with
  | none =>
    obtain ⟨i, hi, hn⟩ := exists_not_mem_of_length_lt taken w0
    have hx := List.find?_eq_none.1 hf i (List.mem_range.2 hi)
    exact absurd (by simpa using hx) hn
  | some i =>
    obtain ⟨hfree, -, hfirst⟩ := List.find?_range_eq_some.1 hf
    rw [Option.getD_some, Nat.add_comm i w0]
    refine ⟨by omega, fun h => by simp [(htaken _).2 h] at hfree, fun v hlo hhi => ?_⟩
    have hv := hfirst (v - w0) (by omega)
    rw [show w0 + (v - w0) = v by omega] at hv
    exact (htaken v).1 (by simpa using hv)

/-! ## The issuing thread goes on, or parks -/

/-- A long instruction changes of its thread only its outstanding results and its way forward. -/
theorem State.finishLong_slot (s : State) (sw : Bool) (d : Dst) (p : Pending) : (s.finishLong sw d p).thr.slot = s.thr.slot :=
  State.retire_keeps (fun s => s.thr.slot) (fun _ _ => rfl) (fun _ _ => rfl) _ _

theorem State.finishLong_pend_length (s : State) (sw : Bool) (d : Dst) (p : Pending) :
    (s.finishLong sw d p).thr.pend.length = s.thr.pend.length + 1 := by
  simp [State.finishLong, State.long_pend_length]

/-- A release or fence of a thread with no dropped store at its scope goes on (R224). -/
theorem State.unlessDropped_none {s0 s : State} {rel : Bool} {scope : Nat} (k : State → State)
    (h : rel = true → 7 ≤ scope → s.thr.dropped = none) : s0.unlessDropped s rel scope k = k s := by
  unfold State.unlessDropped
  split
  · next va hva =>
    rw [Option.ite_none_right_eq_some] at hva
    obtain ⟨hc, hd⟩ := hva
    simp only [Bool.and_eq_true, decide_eq_true_eq] at hc
    rw [h hc.1 hc.2] at hd
    cases hd
  · rfl

/-- A wait that the pending-wake bit does not touch parks (R58). -/
theorem State.parkOn_plain {code : Nat} (h : plainWait code = true) (s : State) (a : Word) (k : Nat) :
    s.parkOn code a k = s.modThr fun t => { t with park := some ⟨code, a, k, s.cc, none⟩ } := by
  simp [State.parkOn, h]

end Sys2Proof.Machine
end

section
/-! LDSC and STSC in their Hem windows (O17). -/

namespace Sys2Proof.Machine

/-! ## A request behind a slot -/

section
variable (s : State) (kind : ReqKind) (l : Loc) (num : Nat) (rel : Bool) (scope : Nat) (win : Option Nat)

/-- A request counted where it leaves the core changes no thread and no window. -/
theorem State.requestAt_keeps {γ : Type} (g : State → γ) (hcount : ∀ (s : State) n k m, g (s.countCore n k m) = g s)
    (hsent : ∀ (s : State) n k, g (s.sent n k) = g s) (hnet : ∀ (s : State) r, g { s with net := { s.net with reqs := r } } = g s) :
    g (s.requestAt kind l num rel scope win) = g s := by
  unfold State.requestAt
  dsimp only
  rw [hnet, apply_ite g, hsent, hcount, ite_self]

@[simp] theorem State.requestAt_thr : (s.requestAt kind l num rel scope win).thr = s.thr :=
  s.requestAt_keeps kind l num rel scope win State.thr (by simp) (fun _ _ _ => rfl) fun _ _ => rfl
@[simp] theorem State.requestAt_hem : (s.requestAt kind l num rel scope win).hem = s.hem :=
  s.requestAt_keeps kind l num rel scope win State.hem (by simp) (fun _ _ _ => rfl) fun _ _ => rfl

/-- The request stands last. -/
theorem State.requestAt_reqs : ∃ r, (s.requestAt kind l num rel scope win).net.reqs = s.net.reqs ++ [r] ∧ r.kind = kind ∧ r.loc = l ∧
    r.tok = s.thr.seq ∧ r.rel = rel ∧ r.win = win := by
  unfold State.requestAt
  dsimp only
  refine ⟨_, congrArg (· ++ _) ?_, rfl, rfl, rfl, rfl, rfl⟩
  split <;> simp

end

/-- An SC access in its slot (R135, R137): the request, the window it has taken, and the thread that waits for both. -/
theorem State.scRequest_leaves (s : State) (sw : Bool) (d : Dst) (kind : ReqKind) (l : Loc) (scope : Nat) :
    ∃ (r : Req) (w : Nat), (s.scRequest sw d kind l scope).net.reqs = s.net.reqs ++ [r] ∧ r.kind = kind ∧ r.loc = l ∧ r.tok = s.thr.seq ∧
      r.rel = true ∧ r.win = some w ∧ (s.scRequest sw d kind l scope).hem = s.hem ++ [(s.core.id, w)] ∧ s.nextWindow s.core.id w ∧
      (s.scRequest sw d kind l scope).thr.slot = none ∧ ((s.scRequest sw d kind l scope).thr.park.map fun p => p.code) = some 25 ∧
      (s.scRequest sw d kind l scope).thr.pc = s.thr.pc + 4 ∧ (s.scRequest sw d kind l scope).thr.pend.length = s.thr.pend.length + 1 ∧
      (s.scRequest sw d kind l scope).thr.g = s.thr.g ∧ (s.scRequest sw d kind l scope).mem = s.mem := by
  let u : State := s.announce.modThr fun t => { t with slot := none }
  let w := s.freeWindow s.core.id
  obtain ⟨r, hreqs, hkind, hloc, htok, hrel, hwin⟩ := u.requestAt_reqs kind l s.announce.olderNum true scope (some w)
  let v := u.requestAt kind l s.announce.olderNum true scope (some w)
  have hv : v.thr = { s.thr with slot := none } := State.requestAt_thr ..
  let p : Pending := { Pending.awaited (s.reqAway kind l) with acq := scope }
  have hx : s.scRequest sw d kind l scope = (v.finishLong sw d p).parkSlot (sw || d == .qdn) w := rfl
  rw [hx]
  refine ⟨r, w, ?_, hkind, hloc, htok, hrel, hwin, ?_, s.nextWindow_freeWindow _, ?_, rfl, ?_, ?_, ?_, ?_⟩
  · rw [State.parkSlot_net, State.finishLong_net]; exact hreqs
  · rw [State.parkSlot_hem, State.finishLong_hem]; exact State.requestAt_hem ..
  · exact (State.finishLong_slot v sw d p).trans (congrArg Thread.slot hv)
  · exact (State.finishLong_thr_pc v sw d p).trans (congrArg (fun t => t.pc + 4) hv)
  · exact (State.finishLong_pend_length v sw d p).trans (congrArg (fun t => t.pend.length + 1) hv)
  · exact (State.finishLong_thr_g v sw d p).trans (congrArg Thread.g hv :)
  · rw [State.parkSlot_mem, State.finishLong_mem]; exact State.requestAt_mem ..

/-! ## LDSC (R317) -/

section
variable {o : SLd} {s s1 s2 : State} {a : Word} {l : Loc} (hl : s.thr.live = true) (hr : s.readsLong [o.b] o.d = some (s1, [a]))
  (ha : s1.accessed a (accOrdered .load) true false = some (s2, l)) (hm : ∀ n, s2.serve l false false ≠ .migrate n)
include hl hr ha hm

/-- An LDSC that does not migrate. -/
theorem exec_ldsc : exec (.ldsc o) s = .next
    (if !s2.ownBefore s2.thr o.scope.toNat then s.parkOn 25 0 (8 * o.scope.toNat + 2)
    else if s2.look s2.core [(l.key, 8)] = .wait then s.parkOn 20 a 0
    else if s2.reqAway (.load 8 true) l && !s2.slotFree then s.parkOn 21 0 0
    else s.unlessDropped s2 true o.scope.toNat fun s2 => s2.scRequest o.sw o.d (.load 8 true) l o.scope.toNat) := by
  change withThread s _ = _
  rw [withThread_live _ _ hl, State.long1_reads _ hr, State.withAccess_accessed _ ha]
  split
  · next n hn => exact absurd hn (hm n)
  · rfl

theorem exec_ldsc_waits (ho : s2.ownBefore s2.thr o.scope.toNat = false) :
    exec (.ldsc o) s = .next (s.parkOn 25 0 (8 * o.scope.toNat + 2)) := by
  rw [exec_ldsc hl hr ha hm, ho]
  rfl

theorem exec_ldsc_requests (ho : s2.ownBefore s2.thr o.scope.toNat = true) (hw : s2.look s2.core [(l.key, 8)] ≠ .wait)
    (hf : s2.slotFree = true) (hd : 7 ≤ o.scope.toNat → s2.thr.dropped = none) :
    exec (.ldsc o) s = .next (s2.scRequest o.sw o.d (.load 8 true) l o.scope.toNat) := by
  rw [exec_ldsc hl hr ha hm, ho, if_neg (by decide), if_neg hw, hf, Bool.not_true, Bool.and_false, if_neg (by decide),
    State.unlessDropped_none _ fun _ => hd]

end

/-- An SC load is not performed before its window, nor before an SC store to its bytes that comes before it (R136, R137). -/
theorem exec_remoteWordRequest_early {s : State} {r : Req} {w n : Nat} {sx : Bool} (hreqs : s.net.reqs = [r]) (hk : r.kind = .load n sx)
    (hw : r.win = some w) (h : s.cc < 8 * w + 72 ∨ s.scStoreBefore (w, r.core) (some [(r.loc.key, 8)]) = true) :
    exec (.remoteWordRequest 0) s = .fault .notEnabled := by
  have horder : s.inOrder [] r = false := by
    simp only [State.inOrder, hk, hw, Option.all_some]
    rcases h with h | h
    · rw [decide_eq_false (by omega), Bool.false_and]
    · rw [h, Bool.not_true, Bool.and_false]
  have hserve : s.canServe (s.net.reqs.take 0) r = false := by
    rw [List.take_zero, State.canServe, horder, Bool.and_false]
  change execRemoteWordRequest 0 s = _
  unfold execRemoteWordRequest
  rw [show s.net.reqs[0]? = some r by rw [hreqs]; rfl]
  dsimp only
  rw [hserve]
  rfl

/-! ## STSC (R317) -/

/-- The entries of a buffer once the one of a number has its slot. -/
def slotted (num w : Nat) (x : SbEntry) : SbEntry := if x.num = num then { x with rel := false, notBefore := 8 * w + 72 } else x

/-- An STSC in the buffer whose wait is over takes the next window (R135). -/
def State.stscAnnounced (s : State) (num : Nat) : State :=
  { s with
    core := { s.core with sb := s.core.sb.map (slotted num (s.freeWindow s.core.id)) }
    hem := s.hem ++ [(s.core.id, s.freeWindow s.core.id)] }

section
variable {s : State} (sw : Bool)

theorem State.stscSlot_applied (h : ∀ e ∈ s.core.sb, e.num ≠ s.thr.phase - 1) : s.stscSlot sw = s.retire sw := by
  have hf : (s.core.sb.find? fun e => e.num == s.thr.phase - 1) = none := by simpa using h
  simp only [State.stscSlot, hf]

theorem State.stscSlot_waits {e : SbEntry} (hf : (s.core.sb.find? fun e => e.num == s.thr.phase - 1) = some e)
    (ho : s.ordered s.core.id s.thr.frame e.num e.tok e.scope = false) : s.stscSlot sw = s.parkOn 25 0 (8 * e.num + 1) := by
  have hnum : e.num = s.thr.phase - 1 := by simpa using List.find?_some hf
  rw [hnum] at ho ⊢
  simp [State.stscSlot, hf, ho]

theorem State.stscSlot_takes {e : SbEntry} (hf : (s.core.sb.find? fun e => e.num == s.thr.phase - 1) = some e) (hn : e.notBefore = never)
    (ho : s.ordered s.core.id s.thr.frame e.num e.tok e.scope = true) :
    s.stscSlot sw = (s.stscAnnounced e.num).parkOn 25 0 (8 * e.num + 1) := by
  have hnum : e.num = s.thr.phase - 1 := by simpa using List.find?_some hf
  rw [hnum] at ho ⊢
  simp only [State.stscSlot, hf, hn, ho, decide_true, Bool.true_and, if_true]
  rfl

end

theorem exec_stsc_again {o : SSt} {s : State} (hl : s.thr.live = true) (hp : s.thr.phase ≠ 0) :
    exec (.stsc o) s = .next (s.stscSlot o.sw) := by
  change withThread s _ = _
  rw [withThread_live _ _ hl, if_pos hp]

/-- An STSC that issues first and does not migrate enters the buffer. -/
theorem exec_stsc_first {o : SSt} {s s1 s2 : State} {v a : Word} {l : Loc} (hl : s.thr.live = true) (hp : s.thr.phase = 0)
    (hr : s.reads [o.a, o.b] .gz = some (s1, [v, a])) (ha : s1.accessed a (accOrdered .store) false true = some (s2, l))
    (hm : ∀ n, s2.serve l true false ≠ .migrate n) (hb : s2.sbFull = false) (hd : 7 ≤ o.scope.toNat → s2.thr.dropped = none) :
    exec (.stsc o) s = .next (((s2.phase (s2.core.sbNum + 1)).enter .stsc l 8 v true o.scope.toNat never).stscSlot o.sw) := by
  change withThread s _ = _
  rw [withThread_live _ _ hl, if_neg (by simpa using hp), State.gather2_reads _ hr, State.withAccess_accessed _ ha]
  split
  · next n hn => exact absurd hn (hm n)
  · rw [hb, if_neg (by decide), State.unlessDropped_none _ fun _ => hd]

section
variable {s : State} {core k : Nat} {e : SbEntry} (he : (s.coreOf core).sb[k]? = some e)
include he

/-- An entry that gathers with no other, and that may not be applied, stays in the buffer. -/
theorem exec_storeBufferApply_early (hg : e.gathers = false) (ha : s.canApply core ((s.coreOf core).sb.take k) e = false) :
    exec (.storeBufferApply core k) s = .fault .notEnabled := by
  change execStoreBufferApply core k s = _
  unfold execStoreBufferApply
  dsimp only
  rw [he]
  dsimp only
  rw [hg, ha]
  rfl

end

/-- An STSC is not applied before its window, nor before what comes before it in S (R136, R137). -/
theorem State.canApply_stsc_early {s : State} {core : Nat} {e : SbEntry} (older : List SbEntry) (hk : e.kind = .stsc)
    (h : s.cc < e.notBefore ∨ (∃ w, e.notBefore = 8 * w + 72 ∧ w < 2 ^ 76 ∧
      (s.scStoreBefore (w, core) (some [e.cover]) = true ∨ s.scLoadBefore (w, core) (some [e.cover]) = true))) :
    s.canApply core older e = false := by
  rcases h with h | ⟨w, hw, hlt, hb⟩
  · simp [State.canApply, h]
  · have hwin : e.window = some w := by
      simp only [SbEntry.window, hk, hw]
      rw [if_pos (by omega), show (8 * w + 72 - 72) / 8 = w by omega]
    rcases hb with hb | hb <;> simp [State.canApply, hwin, hb]

/-- Settles O17: an LDSC by its wait and its slot, its request and an STSC's application by their windows, an STSC as it enters and as it
issues again. -/
theorem sequentialAccesses : Obligations.SequentialAccesses := by
  refine ⟨fun o s s1 s2 a l hl hr ha hm => ⟨exec_ldsc_waits hl hr ha hm, fun ho hw hf hd => ?_⟩,
    fun s r w hreqs hk hw h => exec_remoteWordRequest_early hreqs hk hw h, fun o s s1 s2 v a l hl hp hr ha hm hb hd hnum => ?_,
    fun o s e hl hp hf hn => ⟨fun ho => ?_, fun ho => ?_⟩, fun s core k e he hk h => ?_, fun o s hl hp hn => ?_⟩
  · obtain ⟨r, w, h⟩ := s2.scRequest_leaves o.sw o.d (.load 8 true) l o.scope.toNat
    exact ⟨_, r, w, exec_ldsc_requests hl hr ha hm ho hw hf hd, h⟩
  · let e : SbEntry := ⟨s2.core.sbNum, s2.thr.frame, s2.thr.tid, .stsc, l, 8, v, true, o.scope.toNat, s2.thr.seq, never, false, false, none⟩
    let u : State := (s2.phase (s2.core.sbNum + 1)).enter .stsc l 8 v true o.scope.toNat never
    have hsb : u.core.sb = s2.core.sb ++ [e] := rfl
    have hfind : (u.core.sb.find? fun x => x.num == u.thr.phase - 1) = some e := by
      rw [show u.thr.phase - 1 = s2.core.sbNum from rfl, hsb, List.find?_append,
        List.find?_eq_none.2 fun x hx => by simpa using List.all_eq_true.1 hnum x hx]
      simp [e]
    rw [exec_stsc_first hl hp hr ha hm hb hd]
    cases ho : u.ordered u.core.id u.thr.frame e.num e.tok e.scope with
    | false =>
      refine ⟨_, e, congrArg _ (State.stscSlot_waits o.sw hfind ho), ?_⟩
      rw [State.parkOn_plain rfl]
      exact ⟨hsb, rfl, rfl, rfl, rfl, rfl, rfl, rfl, rfl, .inl ⟨rfl, rfl, rfl⟩⟩
    | true =>
      have hold : ∀ x ∈ s2.core.sb, slotted e.num (u.freeWindow u.core.id) x = x := fun x hx =>
        if_neg (by simpa using List.all_eq_true.1 hnum x hx)
      refine ⟨_, slotted e.num (u.freeWindow u.core.id) e, congrArg _ (State.stscSlot_takes o.sw hfind rfl ho), ?_⟩
      rw [State.parkOn_plain rfl]
      have hmap : (u.stscAnnounced e.num).core.sb = s2.core.sb ++ [slotted e.num (u.freeWindow u.core.id) e] := by
        change (u.core.sb.map _) = _
        rw [hsb, List.map_append, List.map_congr_left hold, List.map_id', List.map_singleton]
      have he : slotted e.num (u.freeWindow u.core.id) e = { e with rel := false, notBefore := 8 * u.freeWindow u.core.id + 72 } := if_pos rfl
      rw [he] at hmap ⊢
      exact ⟨hmap, rfl, rfl, rfl, rfl, rfl, rfl, rfl, rfl, .inr ⟨rfl, _, rfl, rfl, u.nextWindow_freeWindow _⟩⟩
  · rw [exec_stsc_again hl hp, State.stscSlot_takes _ hf hn ho, State.parkOn_plain rfl]
    exact ⟨_, _, rfl, rfl, s.nextWindow_freeWindow _, rfl, rfl, rfl, rfl, rfl⟩
  · rw [exec_stsc_again hl hp, State.stscSlot_waits _ hf ho]
  · refine exec_storeBufferApply_early he ?_ (State.canApply_stsc_early _ hk h)
    simp [SbEntry.gathers, hk]
  · rw [exec_stsc_again hl hp, State.stscSlot_applied _ hn]

end Sys2Proof.Machine
end

section
/-! FENCE (O23). -/

namespace Sys2Proof.Machine

/-! ## Which stores of a core are performed (R133) -/

theorem le_foldl_min {α : Type} (f : α → Nat) (k : Nat) (l : List α) : ∀ a,
    k ≤ l.foldl (fun m x => min m (f x)) a ↔ k ≤ a ∧ ∀ x ∈ l, k ≤ f x := by
  induction l with
  | nil => simp
  | cons x r ih =>
    intro a
    rw [List.foldl_cons, ih, Nat.le_min, and_assoc, List.forall_mem_cons]

theorem State.le_watermark (s : State) (core k : Nat) : k ≤ s.watermark core ↔
    (k ≤ (s.coreOf core).sbNum ∧ ∀ e ∈ (s.coreOf core).sb, k ≤ e.num) ∧ ∀ e ∈ s.sentStef core, k ≤ e.tok := by
  unfold State.watermark
  dsimp only
  rw [le_foldl_min WaitEntry.tok, le_foldl_min SbEntry.num]

/-- For a narrower scope no fewer stores are performed. -/
theorem State.watermark_le_performed (s : State) (core scope : Nat) : s.watermark core ≤ s.performed core scope := by
  obtain ⟨⟨hnum, hsb⟩, hstef⟩ := (s.le_watermark core _).1 le_rfl
  unfold State.performed
  dsimp only
  split
  · exact hnum
  · split
    · exact (le_foldl_min WaitEntry.tok _ _ _).2
        ⟨(le_foldl_min SbEntry.num _ _ _).2 ⟨hnum, fun e he => hsb e (List.mem_of_mem_filter he)⟩, hstef⟩
    · exact le_rfl

/-- An entry of the buffer bounds what is performed: any at a scope wider than the core, one that is never forwarded at the core's. -/
theorem State.performed_le {s : State} {core scope : Nat} {e : SbEntry} (he : e ∈ (s.coreOf core).sb)
    (h : 2 ≤ scope ∨ scope = 1 ∧ e.forwards = false) : s.performed core scope ≤ e.num := by
  unfold State.performed
  dsimp only
  rw [if_neg (by omega)]
  rcases h with h | ⟨rfl, hf⟩
  · rw [if_neg (by omega)]
    exact ((s.le_watermark core _).1 le_rfl).1.2 e he
  · rw [if_pos rfl]
    have hin := ((le_foldl_min WaitEntry.tok _ _ _).1 (le_refl ((s.sentStef core).foldl (fun m e => min m e.tok)
      (((s.coreOf core).sb.filter fun e => !e.forwards).foldl (fun m e => min m e.num) (s.coreOf core).sbNum)))).1
    exact ((le_foldl_min SbEntry.num _ _ _).1 hin).2 e (List.mem_filter.2 ⟨he, by rw [hf]; rfl⟩)

/-! ## What a fence waits for (R328) -/

/-- A thread with nothing older under way waits for nothing. -/
theorem State.olderDone_settled {s : State} {mask scope : Nat} (h : s.settled) (hc : s.thr.core = s.core.id)
    (hp : 7 ≤ scope → s.peersDone s.thr = true) : s.olderDone s.thr mask s.olderNum scope = true := by
  obtain ⟨hphase, hpend, hmark, hout⟩ := h
  have hnum : s.olderNum = s.core.sbNum := if_pos hphase
  have hperf : s.core.sbNum ≤ s.performed s.core.id scope := hmark ▸ s.watermark_le_performed s.core.id scope
  have hpeers : scope < 7 ∨ s.peersDone s.thr = true := (Nat.lt_or_ge scope 7).imp_right hp
  simp [State.olderDone, hnum, hpend, hc, hperf, hout, hpeers]

/-- At thread scope no store is waited for (R129 (a)). -/
theorem State.olderDone_thread {s : State} {mask : Nat} (hc : s.thr.core = s.core.id) (hphase : s.thr.phase = 0)
    (hp : (s.thr.pend.all fun p => !p.load && !p.cache) = true) : s.olderDone s.thr mask s.olderNum 0 = true := by
  have hnum : s.olderNum = s.core.sbNum := if_pos hphase
  have hperf : s.performed s.core.id 0 = s.core.sbNum := by simp [State.performed]
  have hload : (s.thr.pend.all fun p => !p.load) = true ∧ (s.thr.pend.all fun p => !p.cache) = true := by
    simp only [List.all_eq_true, Bool.and_eq_true] at hp ⊢
    exact ⟨fun p h => (hp p h).1, fun p h => (hp p h).2⟩
  simp [State.olderDone, hnum, hc, hperf, hload.1, hload.2]

/-- A load, a store, a cache operation or an access to another package that a fence waits for. -/
theorem State.olderDone_waits {s : State} {mask scope : Nat} (hc : s.thr.core = s.core.id)
    (h : (4 ≤ mask ∧ (s.thr.pend.any fun p => p.load) = true) ∨
      (mask % 4 ≠ 0 ∧ s.thr.phase = 0 ∧ ∃ e ∈ s.core.sb, e.num < s.core.sbNum ∧ (2 ≤ scope ∨ scope = 1 ∧ e.forwards = false)) ∨
      (mask % 4 ≠ 0 ∧ (s.thr.pend.any fun p => p.cache) = true) ∨ (7 ≤ scope ∧ s.peersDone s.thr = false)) :
    s.olderDone s.thr mask s.olderNum scope = false := by
  rcases h with ⟨hm, hp⟩ | ⟨hm, hphase, e, he, hlt, hsc⟩ | ⟨hm, hp⟩ | ⟨hs, hp⟩
  · have hall : (s.thr.pend.all fun p => !p.load) = false := by rw [List.all_eq_not_any_not]; simpa using hp
    have hdiv : mask / 4 ≠ 0 := by omega
    simp only [State.olderDone, hall, decide_eq_false hdiv, Bool.or_self, Bool.false_and]
  · have hnum : s.olderNum = s.core.sbNum := if_pos hphase
    have hperf : s.performed s.core.id scope ≤ e.num := State.performed_le (by rwa [State.coreOf_self]) hsc
    have hnot : ¬ s.core.sbNum ≤ s.performed s.core.id scope := by omega
    simp only [State.olderDone, hnum, hc, decide_eq_false hnot, decide_eq_false hm, Bool.false_and, Bool.or_self, Bool.and_false]
  · have hall : (s.thr.pend.all fun p => !p.cache) = false := by rw [List.all_eq_not_any_not]; simpa using hp
    simp only [State.olderDone, hall, decide_eq_false hm, Bool.and_false, Bool.or_self, Bool.false_and]
  · have hs' : ¬ scope < 7 := by omega
    simp only [State.olderDone, hp, decide_eq_false hs', Bool.or_self, Bool.and_false]

/-! ## The window of an SC fence (R135) -/

theorem State.scGate_none {s0 s : State} (k : State → State) (h : s.thr.slot = none) :
    s0.scGate s k = s0.announce.parkOn 25 0 (8 * s0.announce.thr.slot.getD 0) := by
  simp only [State.scGate, h]

theorem State.scGate_over {s0 s : State} {w : Nat} (k : State → State) (h : s.thr.slot = some w) (ho : s.slotOver s.core.id w = true) :
    s0.scGate s k = k (s.modThr fun t => { t with slot := none }) := by
  simp only [State.scGate, h, ho, if_true]

/-! ## FENCE -/

section
variable {o : FenceOp} {s : State} {vs : List Word} (hl : s.thr.live = true) (hr : s.reads [] .gz = some (s, vs))
include hl hr

theorem exec_fence : exec (.fence o) s = .next
    (if s.thr.slot.isNone && !s.olderDone s.thr o.mask.toNat s.olderNum o.scope.toNat then
      (s.phase (s.olderNum + 1)).parkOn 26 (BitVec.ofNat 64 o.mask.toNat) (s.olderNum * 16 + o.scope.toNat)
    else s.unlessDropped s true o.scope.toNat fun s =>
      if o.ord = 3 then (s.phase (s.olderNum + 1)).scGate (s.phase (s.olderNum + 1)) fun s => s.retire o.sw else s.retire o.sw) := by
  change withThread s _ = _
  rw [withThread_live _ _ hl, State.gather_reads _ hr]
  rfl

theorem exec_fence_waits (hs : s.thr.slot = none) (ho : s.olderDone s.thr o.mask.toNat s.olderNum o.scope.toNat = false) :
    exec (.fence o) s = .next
      ((s.phase (s.olderNum + 1)).parkOn 26 (BitVec.ofNat 64 o.mask.toNat) (s.olderNum * 16 + o.scope.toNat)) := by
  rw [exec_fence hl hr, hs, ho]
  rfl

/-- A fence that has its slot, or that nothing older holds back, waits for nothing older. -/
theorem exec_fence_passes (ho : s.thr.slot.isNone = false ∨ s.olderDone s.thr o.mask.toNat s.olderNum o.scope.toNat = true) :
    exec (.fence o) s = .next (s.unlessDropped s true o.scope.toNat fun s =>
      if o.ord = 3 then (s.phase (s.olderNum + 1)).scGate (s.phase (s.olderNum + 1)) fun s => s.retire o.sw else s.retire o.sw) := by
  rw [exec_fence hl hr, if_neg]
  rcases ho with h | h <;> simp [h]

end

/-- Settles O23: a fence with nothing older under way, with a dropped store, at thread scope, in its window, and with something older. -/
theorem fenceCompletes : Obligations.FenceCompletes := by
  refine fun o s vs hl hc hr => ⟨fun hset hpeers => ?_, fun hscope hord hphase hp => ?_,
    fun w hord hslot hdrop hcc hst hld => ?_, fun hslot hw => ?_⟩
  · have hdone := Or.inr (a := s.thr.slot.isNone = false) (State.olderDone_settled (mask := o.mask.toNat) hset hc hpeers)
    refine ⟨fun hdrop => ⟨fun hord => ?_, fun hord hslot => ?_⟩, fun va hscope hdrop => ?_⟩
    · rw [exec_fence_passes hl hr hdone, State.unlessDropped_none _ fun _ => hdrop, if_neg hord]
    · let u := s.phase (s.olderNum + 1)
      refine ⟨u.announce.parkOn 25 0 (8 * s.freeWindow s.core.id), s.freeWindow s.core.id, ?_, ?_⟩
      · rw [exec_fence_passes hl hr hdone, State.unlessDropped_none _ fun _ => hdrop, if_pos hord,
          State.scGate_none (s := s.phase (s.olderNum + 1)) _ hslot]
        rfl
      · rw [State.parkOn_plain rfl]
        exact ⟨rfl, rfl, s.nextWindow_freeWindow _, rfl, rfl, rfl, rfl⟩
    · rw [exec_fence_passes hl hr hdone]
      simp [State.unlessDropped, hscope, hdrop]
  · have h0 : o.scope.toNat = 0 := by rw [hscope]; rfl
    rw [exec_fence_passes hl hr (.inr (by rw [h0]; exact State.olderDone_thread hc hphase hp)),
      State.unlessDropped_none _ fun _ h7 => by omega, if_neg hord]
  · let u := s.phase (s.olderNum + 1)
    have hover : u.slotOver u.core.id w = true := by
      simp [State.slotOver, show u.cc = s.cc from rfl, hcc, show u.scStoreBefore (w, u.core.id) none = false from hst,
        show u.scLoadBefore (w, u.core.id) none = false from hld]
    refine ⟨(u.modThr fun t => { t with slot := none }).retire o.sw, ?_, ?_, ?_, ?_, ?_, ?_⟩
    · rw [exec_fence_passes hl hr (.inl (by rw [hslot]; rfl)), State.unlessDropped_none _ fun _ => hdrop, if_pos hord,
        State.scGate_over (s := s.phase (s.olderNum + 1)) _ hslot hover]
    · exact State.retire_keeps (fun s => s.thr.slot) (fun _ _ => rfl) (fun _ _ => rfl) _ _
    · exact State.retire_thr_pc _ _
    · exact State.retire_thr_g _ _
    · exact State.retire_mem _ _
    · exact State.retire_core _ _
  · rw [exec_fence_waits hl hr hslot (State.olderDone_waits hc hw), State.parkOn_plain rfl]
    exact ⟨_, rfl, rfl, rfl, rfl⟩

end Sys2Proof.Machine
end

section
/-! LRES, SCON, WRS and the lapse of a reservation (O22). -/

namespace Sys2Proof.Machine

/-! ## A hit in an L1 changes of the issuing thread only its reservation (R95, R140) -/

/-- The issuing thread without its reservation, and the clock. -/
def State.unreserved (s : State) : Thread × Nat := ({ s.thr with resv := none }, s.cc)

theorem State.unreserved_belowKeeps : State.BelowKeeps State.unreserved := ⟨fun _ _ => rfl, fun _ _ _ => rfl, fun _ _ => rfl⟩

theorem State.setCore_unreserved (s : State) (c : Core) : (s.setCore c).unreserved = s.unreserved := by
  unfold State.setCore
  split <;> rfl

theorem State.loseResv_unreserved (s : State) (line : Nat) (p : Thread → Bool) : (s.loseResv line p).unreserved = s.unreserved := by
  simp only [State.unreserved, State.loseResv, State.modThreads_thr]
  split <;> rfl

theorem State.passOwner_unreserved (s : State) (die line : Nat) : (s.passOwner die line).unreserved = s.unreserved := by
  unfold State.passOwner
  dsimp only
  split
  · rfl
  · exact State.setCore_unreserved _ _

theorem State.leaveL2_unreserved (s : State) (die : Nat) (x : L1Line) : (s.leaveL2 die x).unreserved = s.unreserved := by
  have hgive (r : CReq) (hr : r.asks = false) : (s.giveRequest die x.line r).unreserved = s.unreserved :=
    State.giveRequest_belowKeeps State.unreserved_belowKeeps s die x.line hr
  unfold State.leaveL2
  split
  · rw [apply_ite State.unreserved, State.passOwner_unreserved, ite_self]
  · split
    · rw [apply_ite State.unreserved, State.writeBack_belowKeeps State.unreserved_belowKeeps, ite_self]
    · rw [apply_ite State.unreserved, apply_ite State.unreserved, hgive _ rfl, hgive _ rfl, hgive _ rfl, ite_self, ite_self]

theorem State.putL2_unreserved (s : State) (die line : Nat) (p : Perm) : (s.putL2 die line p).unreserved = s.unreserved := by
  unfold State.putL2
  dsimp only
  split
  · rfl
  · exact State.leaveL2_unreserved _ _ _

theorem State.putL1_unreserved (s : State) (core line : Nat) (p : Perm) : (s.putL1 core line p).unreserved = s.unreserved := by
  unfold State.putL1
  dsimp only
  split
  · exact State.setCore_unreserved _ _
  · rw [State.loseResv_unreserved, State.putL2_unreserved, State.setCore_unreserved]

theorem State.fillLoc_unreserved {s : State} {core : Nat} {l : Loc} {x : Bool} (h : s.missLine core l x = none) (n : Nat) :
    (s.fillLoc core l x n).unreserved = s.unreserved := by
  have hfill (hm : (if (decide (l.pol = 0) && !s.l1Has core (l.key / 64) x) = true then some (l.key / 64) else none) = none) :
      (if l.pol = 0 then s.fill core l x n else s).unreserved = s.unreserved := by
    split
    · next hp =>
      have hhas : s.l1Has core (l.key / 64) x = true := by simpa [hp] using hm
      unfold State.fill
      dsimp only
      rw [if_pos hhas]
      exact State.putL1_unreserved _ _ _ _
    · rfl
  unfold State.missLine at h
  unfold State.fillLoc
  cases hp : l.place with
  | scratch | weight | peer => rfl
  | hbm | host | cxl => rw [hp] at h; exact hfill h

theorem State.noteRead_seen (s : State) (rs : List (Nat × Nat)) : ∃ k, s.noteRead rs = s.modThr fun t => { t with seen := k } := by
  unfold State.noteRead
  split
  · split
    · exact ⟨s.thr.seen, rfl⟩
    · exact ⟨_, rfl⟩
  · exact ⟨s.thr.seen, rfl⟩

theorem State.injectIn_unreserved (s : State) (r : Nat × Nat) (write : Bool) : (s.injectIn r write).unreserved = s.unreserved := by
  unfold State.injectIn
  dsimp only
  split
  · exact State.inject_keeps State.unreserved (fun _ _ _ _ => State.setCore_unreserved _ _) (fun _ _ => rfl) (fun _ => rfl) (fun _ => rfl) _ _ _
  · rfl

theorem State.loadNow_unreserved {s : State} {l : Loc} (hr : l.raw) (w : Nat) (sx : Bool) : (s.loadNow l w sx).1.unreserved = s.unreserved := by
  simp only [State.loadNow, Memory.reservedCode_raw hr, Bool.false_eq_true, if_false]
  exact foldl_keeps State.unreserved _ (fun s r => s.injectIn_unreserved r false) _ _

theorem State.loadNow_val {s : State} {l : Loc} (hr : l.raw) (w : Nat) (sx : Bool) :
    (s.loadNow l w sx).2.val = extendTo w sx (s.numAt l.key w) := by
  simp only [State.loadNow, Memory.reservedCode_raw hr, Bool.false_eq_true, if_false, Memory.value_raw hr, State.numAt_eq_read, Memory.read,
    State.injectAll_bytes]
  rfl

theorem extendTo_word (v : Nat) : extendTo 8 false v = BitVec.ofNat 64 v := by
  rw [extendTo, Bool.false_and, if_neg (by decide)]
  exact BitVec.eq_of_toNat_eq (by simp)

/-! ## LRES (R326) -/

section
variable {o : OLd} {s s1 s2 : State} {a : Word} {l : Loc} (hl : s.thr.live = true) (hr : s.readsLong [o.b] o.d = some (s1, [a]))
  (ha : s1.accessed a (accAtomic 8 .load) true false = some (s2, l))
include hl hr ha

theorem exec_lres_peer (hp : l.isPeer = true) : exec (.lres o) s = .next (s.trap (cause cPROT a)) := by
  change withThread s _ = _
  rw [withThread_live _ _ hl, State.long1_reads _ hr, State.withAccess_accessed _ ha, if_pos hp]

section
variable (hp : l.isPeer = false) (hw : s2.look s2.core [(l.key, 8)] ≠ .wait)
include hp hw

/-- The pending result of an LRES performed as it issues (R326). -/
def State.lresResult (s2 : State) (l : Loc) (p : Pending) : Pending :=
  match s2.look s2.core [(l.key, 8)] with
  | .value x => Pending.ofLoad (extendTo 8 false x) 0 none
  | _ => p

/-- The line in the L1 and the bytes read, as an LRES finds them. -/
def State.lresLoad (s2 : State) (l : Loc) : State × Pending :=
  ((s2.noteRead [(l.key, 8)]).fillLoc s2.core.id l false s2.thr.launch).loadNow l 8 false

theorem exec_lres_hit (hs : s2.serve l false false = .here) (ho : s2.ownPending l [(l.key, 8)] = false)
    (hm : s2.missLine s2.core.id l false = none) : exec (.lres o) s = .next
      (((s2.lresLoad l).1.modThr fun t => { t with resv := some ⟨l.key / 64, (s2.lresLoad l).1.cc⟩ }).finishLong o.sw o.d
        (s2.lresResult l (s2.lresLoad l).2)) := by
  change withThread s _ = _
  rw [withThread_live _ _ hl, State.long1_reads _ hr, State.withAccess_accessed _ ha, if_neg (by rw [hp]; decide)]
  split
  · next hv => exact absurd hv hw
  · simp only [hs, ho, hm, Bool.false_eq_true, if_false]
    rfl

theorem exec_lres_miss {line : Nat} (hs : s2.serve l false false = .here) (ho : s2.ownPending l [(l.key, 8)] = false)
    (hm : s2.missLine s2.core.id l false = some line) (hf : s2.slotFor s2.core.id l false = true) : exec (.lres o) s = .next
      ((s2.request .lres l false 0 none).finishLong o.sw o.d
        { Pending.awaited true with line := some line, acq := if o.ord = 1 then o.scope.toNat else 0 }) := by
  change withThread s _ = _
  rw [withThread_live _ _ hl, State.long1_reads _ hr, State.withAccess_accessed _ ha, if_neg (by rw [hp]; decide)]
  split
  · next hv => exact absurd hv hw
  · simp only [hs, ho, hm, hf, Bool.not_true, Bool.false_eq_true, if_false]

end

theorem exec_lres_remote (hp : l.isPeer = false) (hv : s2.look s2.core [(l.key, 8)] = .memory) (hs : s2.serve l false false = .remote)
    (hf : s2.slotFree = true) : exec (.lres o) s = .next
      ((s2.request .lres l false 0 none).finishLong o.sw o.d
        { Pending.awaited true with acq := if o.ord = 1 then o.scope.toNat else 0 }) := by
  change withThread s _ = _
  rw [withThread_live _ _ hl, State.long1_reads _ hr, State.withAccess_accessed _ ha, if_neg (by rw [hp]; decide)]
  simp [hv, hs, hf]

end

/-- What an LRES leaves that hits in an L1 or the own scratchpad. -/
theorem State.lresLoad_unreserved {s2 : State} {l : Loc} (hm : s2.missLine s2.core.id l false = none) (hraw : l.raw) :
    (s2.lresLoad l).1.unreserved = (s2.noteRead [(l.key, 8)]).unreserved := by
  obtain ⟨k, hk⟩ := s2.noteRead_seen [(l.key, 8)]
  have hm' : (s2.noteRead [(l.key, 8)]).missLine s2.core.id l false = none := by rw [hk]; exact hm
  rw [State.lresLoad, State.loadNow_unreserved hraw, State.fillLoc_unreserved hm']

theorem State.lresResult_val (s2 : State) {l : Loc} (hraw : l.raw) : (s2.lresResult l (s2.lresLoad l).2).val =
    match s2.look s2.core [(l.key, 8)] with
    | .value v => BitVec.ofNat 64 v
    | _ => BitVec.ofNat 64 (s2.numAt l.key 8) := by
  cases hv : s2.look s2.core [(l.key, 8)] with
  | value v => simp only [State.lresResult, hv, Pending.ofLoad, Pending.ofVal, extendTo_word]
  | memory | wait =>
    simp only [State.lresResult, hv]
    rw [State.lresLoad, State.loadNow_val hraw, extendTo_word, State.numAt_eq_read, State.fillLoc_mem, State.noteRead_mem,
      State.numAt_eq_read]

/-! ## SCON enters the buffer, WRS, and the lapse (R140, R326, R327) -/

section
variable {o : AtOp} {s s1 s2 : State} {v a : Word} {l : Loc} (hl : s.thr.live = true) (hr : s.readsLong [o.a, o.b] o.d = some (s1, [v, a]))
  (ha : s1.accessed a (accAtomic 8 .store) false true = some (s2, l))
include hl hr ha

theorem exec_scon_peer (hp : l.isPeer = true) : exec (.scon o) s = .next (s.trap ⟨cPROT, true, false, a⟩) := by
  change withThread s _ = _
  rw [withThread_live _ _ hl, State.long2_reads _ hr, State.withAccess_accessed _ ha, if_pos hp]

theorem exec_scon_enters (hp : l.isPeer = false) (hm : ∀ n, s2.serve l true false ≠ .migrate n) (hb : s2.sbFull = false)
    (hd : o.ord = 2 → 7 ≤ o.scope.toNat → s2.thr.dropped = none) : exec (.scon o) s = .next
      ((s2.enter (.scon s2.thr.seq) l 8 v (o.ord == 2 && o.scope != 0) o.scope.toNat 0).finishLong o.sw o.d (Pending.awaited false)) := by
  change withThread s _ = _
  rw [withThread_live _ _ hl, State.long2_reads _ hr, State.withAccess_accessed _ ha, if_neg (by rw [hp]; decide)]
  split
  · next n hn => exact absurd hn (hm n)
  · rw [hb, if_neg (by decide), State.unlessDropped_none _ fun h => hd (by simpa using h)]

end

section
variable {o : WrsOp} {s s1 s2 : State} {a : Word} {l : Loc} (hl : s.thr.live = true) (hr : s.reads [o.b] o.d = some (s1, [a]))
  (ha : s1.accessed a (accOrdered .load) false false = some (s2, l))
include hl hr ha

theorem exec_wrs_free (hh : s2.thr.holdsLine (l.key / 64) s2.cc = false) : exec (.wrs o) s = .next (s2.finish o.sw o.d 1) := by
  change withThread s _ = _
  rw [withThread_live _ _ hl, State.gather1_reads _ hr, State.withAccess_accessed _ ha, if_neg (by rw [hh]; decide)]

theorem exec_wrs_parks (hh : s2.thr.holdsLine (l.key / 64) s2.cc = true) : exec (.wrs o) s = .next
    ((s2.finish false o.d 0).parkFor 10 (BitVec.ofNat 64 (l.key / 64 * 64)) (l.key / 64 * 2 + (if o.sw then 1 else 0)) none) := by
  change withThread s _ = _
  rw [withThread_live _ _ hl, State.gather1_reads _ hr, State.withAccess_accessed _ ha, if_pos hh]

end

section
variable {s : State} {r : Reservation} (hl : s.thr.live = true) (hv : s.thr.resv = some r)
include hl hv

theorem exec_reservationLapse_early (h : s.cc < r.cc + 4096) : exec (.reservationLapse s.thr.core s.thr.frame) s = .fault .notEnabled := by
  change execReservationLapse _ _ _ = _
  unfold execReservationLapse
  rw [State.threadAt_issuing hl, Option.any_some, hv, Option.any_some, decide_eq_false (by omega)]
  rfl

theorem exec_reservationLapse_due (h : r.cc + 4096 ≤ s.cc) : exec (.reservationLapse s.thr.core s.thr.frame) s = .next
    (s.modThread s.thr.core s.thr.frame fun t => { t with resv := none }) := by
  change execReservationLapse _ _ _ = _
  unfold execReservationLapse
  rw [State.threadAt_issuing hl, Option.any_some, hv, Option.any_some, decide_eq_true h]
  rfl

end

/-! ## An SCON applied in the own scratchpad (R326, R332) -/

/-- The state with the store buffer of the core at hand empty. -/
def State.emptied (s : State) : State := { s with core := { s.core with sb := [] } }

theorem State.emptied_calm {s : State} (h : s.calm) : s.emptied.calm := by
  intro n
  have hn := h n
  unfold State.coreOf at hn ⊢
  by_cases hc : s.core.id = n
  · rw [if_pos hc] at hn
    rwa [if_pos (show s.emptied.core.id = n from hc)]
  · rw [if_neg hc] at hn
    rwa [if_neg (show ¬ s.emptied.core.id = n from hc)]

section
variable {s : State} {l : Loc} {k w : Nat} (hp : l.place = .scratch k w)
include hp

theorem State.servedHere_scratch (core : Nat) (x : Bool) : s.servedHere core l x = (k == core) := by
  simp only [State.servedHere, hp]

theorem State.missLine_scratch (core : Nat) (x : Bool) : s.missLine core l x = none := by
  simp only [State.missLine, hp]

theorem State.fillLoc_scratch (core : Nat) (x : Bool) (n : Nat) : s.fillLoc core l x n = s := by
  simp only [State.fillLoc, hp]

end

/-- A store to the own scratchpad takes no outstanding-request slot (R97). -/
theorem State.mayLeave_scratch {s : State} {core w : Nat} {e : SbEntry} (hp : e.loc.place = .scratch core w) : s.mayLeave core [] e = true := by
  have hserved : s.servedHere core e.loc true = true := by rw [State.servedHere_scratch hp]; exact beq_self_eq_true core
  have hslots : s.slotsWith core (([] ++ [e]).filter fun x => !x.left) = s.slotsAt core := by
    cases he : e.left <;>
      simp [State.slotsAt, State.slotsWith, he, List.filter_append, List.filterMap_append, hserved, State.missLine_scratch hp]
  unfold State.mayLeave
  dsimp only
  rw [hslots, beq_self_eq_true, Bool.true_or, List.all_nil, Bool.and_self]

section
variable {s : State} {e : SbEntry} {tok : Nat} (hsb : s.core.sb = [e]) (hk : e.kind = .scon tok) (hb : e.bad = false)
  (hp : e.loc.place = .scratch s.core.id 0)
include hsb hk hp

theorem exec_storeBufferApply_scon (ha : s.canApply s.core.id [] e = true) :
    exec (.storeBufferApply s.core.id 0) s = .next (s.applyEntry s.core.id e) := by
  have hserved : s.servedHere s.core.id e.loc true = true := by rw [State.servedHere_scratch hp]; exact beq_self_eq_true _
  have hmiss : s.missesLine s.core.id e = false := by
    rw [State.missesLine, State.missLine_scratch hp, Option.isSome_none, Bool.and_false, Bool.false_and]
  have hreach : s.reachable s.core.id e.loc true = true := by simp [State.reachable, State.reachableAs, hp]
  have hgather : e.gathers = false := by simp [SbEntry.gathers, hk]
  change execStoreBufferApply _ _ _ = _
  unfold execStoreBufferApply
  dsimp only
  rw [State.coreOf_self, hsb]
  simp only [List.getElem?_cons_zero, hgather, List.take_zero, ha, State.mayLeave_scratch hp, hmiss, hserved, hreach, Bool.not_true, Bool.or_self,
    Bool.false_and, Bool.false_eq_true, if_false, ite_self]

include hb

theorem State.applyEntry_scon : s.applyEntry s.core.id e = s.emptied.writeEntry s.core.id e := by
  have hdrop : s.modCore s.core.id (fun c => { c with sb := (c.sb.filter fun x => x.num != e.num).map fun x =>
      if x.num < e.num then { x with left := true } else x }) = s.emptied := by
    rw [State.modCore_here _ _ rfl, hsb]
    simp [State.emptied]
  have hserved : s.emptied.servedHere s.core.id e.loc true = true := by rw [State.servedHere_scratch hp]; exact beq_self_eq_true _
  have hkind : (e.kind == .stef) = false := by rw [hk]; rfl
  unfold State.applyEntry
  dsimp only
  rw [hdrop, hkind]
  simp only [hserved, Bool.not_true, Bool.false_and, Bool.false_eq_true, if_false, State.reach, State.fillLoc_scratch hp, if_true, ite_self,
    State.spoil, hb]

end

section
variable {s : State} {e : SbEntry} {tok : Nat} (hk : e.kind = .scon tok) (hl : s.thr.live = true) (hc : s.thr.core = s.core.id)
  (hf : s.thr.frame = e.frame)
include hk hl hc hf

theorem State.writeEntry_scon_fails (h : s.thr.holdsLine (e.loc.key / 64) s.cc = false ∨ s.mem.isPoisoned e.loc.key = true) :
    ∃ bad, s.writeEntry s.core.id e = s.modThread s.thr.core s.thr.frame fun t => { t.deliver tok 1 0 bad with resv := none } := by
  simp only [State.writeEntry, hk, ← hc, ← hf, State.threadAt_issuing hl, Option.any_some]
  cases hh : s.thr.holdsLine (e.loc.key / 64) s.cc with
  | false => exact ⟨none, rfl⟩
  | true =>
    have hpoison : s.mem.isPoisoned e.loc.key = true := h.resolve_left (by rw [hh]; decide)
    rw [hpoison]
    exact ⟨_, rfl⟩

theorem State.writeEntry_scon_stores (hh : s.thr.holdsLine (e.loc.key / 64) s.cc = true) (hn : s.mem.isPoisoned e.loc.key = false) :
    s.writeEntry s.core.id e = (s.writeLoc e.loc 8 e.data.toNat).1.modThread s.thr.core s.thr.frame fun t =>
      { t.deliver tok 0 0 none with resv := none } := by
  simp only [State.writeEntry, hk, ← hc, ← hf, State.threadAt_issuing hl, Option.any_some, hh, hn]
  rfl

end

theorem State.writeLoc_scratch {s : State} {l : Loc} {k : Nat} (hp : l.place = .scratch k 0) (hc : s.calm) (w v : Nat) :
    (s.writeLoc l w v).1 = s.putBytes l.key w v := by
  simp only [State.writeLoc, hp]
  rw [if_pos (by decide), State.inject_calm hc]

/-- A long instruction keeps the reservation. -/
theorem State.finishLong_resv (s : State) (sw : Bool) (d : Dst) (p : Pending) : (s.finishLong sw d p).thr.resv = s.thr.resv :=
  State.retire_keeps (fun s => s.thr.resv) (fun _ _ => rfl) (fun _ _ => rfl) _ _

theorem State.finish_thr_pc (s : State) (sw : Bool) (d : Dst) (v : Word) : (s.finish sw d v).thr.pc = s.thr.pc + 4 := by
  rw [State.finish, State.retire_thr_pc]
  cases d with
  | g | gz => rfl
  | qdn => rw [State.setG, State.push_thr]

/-- What the thread of an SCON has once its outcome is delivered. -/
theorem State.sconDelivered_thr {s u : State} {r : Option Reservation} (hu : u.thr = { s.thr with resv := r }) (hl : s.thr.live = true)
    (tok : Nat) (v : Word) (bad : Option Word) :
    let t := u.modThread s.thr.core s.thr.frame fun t => { t.deliver tok v 0 bad with resv := none }
    t.thr.resv = none ∧ ∀ p ∈ s.thr.pend, p.tok = tok → ∃ q ∈ t.thr.pend, q.tok = tok ∧ q.val = v ∧ q.ready = true := by
  intro t
  have ht : t.thr = { u.thr.deliver tok v 0 bad with resv := none } :=
    State.modThread_thr_is _ (by rw [hu]; exact hl) (by rw [hu]) (by rw [hu])
  rw [ht]
  refine ⟨rfl, fun p hp htok => ?_⟩
  obtain ⟨q, hq, hqt, -, hready, hval⟩ := Thread.mem_deliver (t := u.thr) (v := v) (fl := 0) (bad := bad) (by rw [hu]; exact hp) htok
  exact ⟨q, hq, hqt.trans htok, hval, hready⟩

/-- Settles O22: an LRES that hits, misses or is remote, an SCON and a WRS as they issue, the lapse by its clock, and an SCON applied. -/
theorem reserved : Obligations.Reserved := by
  refine ⟨⟨fun o s s1 s2 a l hl hr ha => ⟨exec_lres_peer hl hr ha, fun hw hs ho => ?_, exec_lres_remote hl hr ha⟩,
    fun o s s1 s2 v a l hl hr ha => ⟨exec_scon_peer hl hr ha, fun hp hm hb hd => ?_⟩,
    fun o s s1 s2 a l hl hr ha => ⟨exec_wrs_free hl hr ha, fun hh => ?_⟩, fun s t r ht hl hv => ?_⟩,
    fun s e tok hinv hnd hsb hk hb hp hcan hl hc hf hcalm => ?_⟩
  · have hpeer : l.isPeer = false := by
      unfold Loc.isPeer
      split
      · next n hn => simp [State.serve, hn] at hs
      · rfl
    refine ⟨fun hm hraw => ?_, fun line hm hf => exec_lres_miss hl hr ha hpeer hw hs ho hm hf⟩
    obtain ⟨k, hk⟩ := s2.noteRead_seen [(l.key, 8)]
    have hkept : (s2.lresLoad l).1.unreserved = ({ s2.thr with seen := k, resv := none }, s2.cc) := by
      rw [State.lresLoad_unreserved hm hraw, hk]
      rfl
    obtain ⟨hthr, hcc⟩ := Prod.mk.inj hkept
    refine ⟨_, exec_lres_hit hl hr ha hpeer hw hs ho hm, ?_, ?_, ?_, ?_, ?_⟩
    · rw [State.finishLong_resv]
      exact congrArg (fun c => some (l.key / 64, c)) hcc
    · rw [State.finishLong_thr_pc]
      exact congrArg (fun t => t.pc + 4) hthr
    · rw [State.finishLong_thr_g]
      exact (congrArg Thread.g hthr :)
    · rw [State.finishLong_pend_length]
      exact congrArg (fun t => t.pend.length + 1) hthr
    · rw [State.finishLong_last]
      exact congrArg some (s2.lresResult_val hraw)
  · exact ⟨_, _, exec_scon_enters hl hr ha hp hm hb hd, by rw [State.finishLong_core]; rfl, rfl, rfl, rfl, State.finishLong_thr_pc ..,
      State.finishLong_mem .., State.finishLong_thr_g .., by rw [State.finishLong_last]; rfl⟩
  · exact ⟨_, exec_wrs_parks hl hr ha hh, rfl, State.finish_thr_pc .., State.finish_mem ..⟩
  · subst ht
    refine ⟨exec_reservationLapse_early hl hv, fun h => ⟨_, exec_reservationLapse_due hl hv h, ?_, rfl⟩⟩
    exact State.modThread_thr_is _ hl rfl rfl
  · rw [exec_storeBufferApply_scon hsb hk hp hcan, State.applyEntry_scon hsb hk hb hp]
    by_cases hdone : s.thr.holdsLine (e.loc.key / 64) s.cc = true ∧ s.mem.isPoisoned e.loc.key = false
    · obtain ⟨hh, hn⟩ := hdone
      obtain ⟨r, hthr⟩ := s.emptied.putBytes_thr e.loc.key 8 e.data.toNat
      obtain ⟨hresv, hpend⟩ := State.sconDelivered_thr (s := s) hthr hl tok 0 none
      refine ⟨_, congrArg _ ((State.writeEntry_scon_stores (s := s.emptied) hk hl hc hf hh hn).trans
        (by rw [State.writeLoc_scratch hp (State.emptied_calm hcalm)]; rfl)), ?_, hresv, fun _ _ => ⟨?_, hpend⟩, fun h => ?_⟩
      · rw [State.modThread_core, State.putBytes_core]
        rfl
      · exact State.storedAt_of_bytes hinv (by rw [State.modThread_mem, State.putBytes_mem (s := s.emptied) hnd, Memory.write_bytes]; rfl)
      · rw [hh, hn] at h
        simp at h
    · have hfail : s.thr.holdsLine (e.loc.key / 64) s.cc = false ∨ s.mem.isPoisoned e.loc.key = true := by
        rw [not_and_or, Bool.not_eq_true, Bool.not_eq_false] at hdone
        exact hdone
      obtain ⟨bad, ht⟩ := State.writeEntry_scon_fails (s := s.emptied) hk hl hc hf hfail
      obtain ⟨hresv, hpend⟩ := State.sconDelivered_thr (s := s) (u := s.emptied) (r := s.thr.resv) rfl hl tok 1 bad
      exact ⟨_, congrArg _ ht, rfl, hresv, fun hh hn => absurd ⟨hh, hn⟩ hdone, fun _ => ⟨rfl, hpend⟩⟩

end Sys2Proof.Machine
end

section
/-! The lanes of VADD: results of rounding as encodings of their format, and lanes packed into a register (O39). -/

namespace Sys2Proof.Machine

/-! ## Rounding gives an encoding of the format (R170, R182, R183) -/

theorem lt_two_pow_bitLen (m : Nat) : m < 2 ^ bitLen m := by
  unfold bitLen
  split
  · omega
  · exact Nat.lt_log2_self

/-- A number rounded to a unit that leaves it at most `k` bits. -/
theorem roundAt_le {mode : Nat} {neg st : Bool} {m k : Nat} {e q : Int} (h : e + bitLen m ≤ q + k) :
    (roundAt mode neg m e q st).1 ≤ 2 ^ k := by
  have hm := lt_two_pow_bitLen m
  unfold roundAt
  split
  · calc m * 2 ^ (e - q).toNat ≤ 2 ^ bitLen m * 2 ^ (e - q).toNat := Nat.mul_le_mul_right _ hm.le
      _ = 2 ^ (bitLen m + (e - q).toNat) := (Nat.pow_add ..).symm
      _ ≤ 2 ^ k := Nat.pow_le_pow_right (by decide) (by omega)
  · have hlt : m / 2 ^ (q - e).toNat < 2 ^ k := by
      rw [Nat.div_lt_iff_lt_mul (Nat.two_pow_pos _), ← Nat.pow_add]
      exact hm.trans_le (Nat.pow_le_pow_right (by decide) (by omega))
    dsimp only
    split
    · exact hlt
    · exact hlt.le

/-- What the scalar formats share (R170). -/
theorem scalarFormat {f : Nat} (h1 : 1 ≤ f) (h4 : f ≤ 4) :
    elemBits f = expBits f + manBits f + 1 ∧ hasInf f = true ∧ isE4M3 f = false ∧ 1 ≤ manBits f ∧ 1 ≤ expBits f := by
  interval_cases f <;> decide

section
variable {f : Nat} (h1 : 1 ≤ f) (h4 : f ≤ 4)
include h1 h4

theorem two_pow_elemBits : 2 ^ elemBits f = 2 ^ (expBits f + manBits f) + 2 ^ expBits f * 2 ^ manBits f := by
  rw [(scalarFormat h1 h4).1, Nat.pow_succ, ← Nat.pow_add]
  omega

omit h1 h4 in
theorem signWeight_le (f : Nat) (neg : Bool) : (if neg then 2 ^ (expBits f + manBits f) else 0) ≤ 2 ^ (expBits f + manBits f) := by
  split
  · exact le_rfl
  · exact Nat.zero_le _

theorem encodeFin_lt {neg : Bool} {m : Nat} {q : Int} (hm : m < 2 ^ (manBits f + 1))
    (hq : m < 2 ^ manBits f ∨ (q + manBits f + biasOf f).toNat < 2 ^ expBits f) : encodeFin f neg m q < 2 ^ elemBits f := by
  have hs := signWeight_le f neg
  rw [two_pow_elemBits h1 h4]
  unfold encodeFin
  dsimp only
  split
  · next hlt =>
    have hone : 2 ^ manBits f ≤ 2 ^ expBits f * 2 ^ manBits f := Nat.le_mul_of_pos_left _ (Nat.two_pow_pos _)
    omega
  · next hge =>
    have hx : ((q + manBits f + biasOf f).toNat + 1) * 2 ^ manBits f ≤ 2 ^ expBits f * 2 ^ manBits f :=
      Nat.mul_le_mul_right _ (hq.resolve_left hge)
    rw [Nat.add_mul, Nat.one_mul] at hx
    rw [Nat.pow_succ] at hm
    omega

theorem maxFin_scalar : maxFin f = (2 ^ (manBits f + 1) - 1, ((2 ^ expBits f : Nat) : Int) - 1 - biasOf f - manBits f - 1) := by
  obtain ⟨-, hinf, hnot, -, -⟩ := scalarFormat h1 h4
  simp [maxFin, hinf, hnot]

theorem encodeMax_lt (neg : Bool) : encodeMax f neg < 2 ^ elemBits f := by
  have hpos := Nat.two_pow_pos (manBits f + 1)
  have hexp := Nat.two_pow_pos (expBits f)
  rw [encodeMax, maxFin_scalar h1 h4]
  exact encodeFin_lt h1 h4 (by dsimp only; omega) (.inr (by dsimp only; omega))

theorem encodeInf_lt (neg : Bool) : encodeInf f neg < 2 ^ elemBits f := by
  have hs := signWeight_le f neg
  have hx : (2 ^ expBits f - 1) * 2 ^ manBits f < 2 ^ expBits f * 2 ^ manBits f :=
    Nat.mul_lt_mul_of_pos_right (by have := Nat.two_pow_pos (expBits f); omega) (Nat.two_pow_pos _)
  rw [two_pow_elemBits h1 h4, encodeInf]
  omega

theorem encodeNan_lt : encodeNan f false < 2 ^ elemBits f := by
  interval_cases f <;> decide

theorem overflowTo_lt (mode : Nat) (neg : Bool) : overflowTo f mode false neg < 2 ^ elemBits f := by
  obtain ⟨-, hinf, hnot, -, -⟩ := scalarFormat h1 h4
  have hmax := encodeMax_lt h1 h4 neg
  have hinf' := encodeInf_lt h1 h4 neg
  simp only [overflowTo, hinf, hnot, Bool.false_eq_true, if_false, Bool.not_true, Bool.or_self]
  split
  · exact hmax
  · split <;> assumption
  · split <;> assumption
  · exact hinf'

/-- A rounded value that fits is encoded, and any other overflows (R182). -/
theorem encodeOrOverflow_lt (mode : Nat) (neg : Bool) {M : Nat} (q : Int) (fl1 fl2 : BitVec 5) (hM : M < 2 ^ (manBits f + 1)) :
    (if (decide ((maxFin f).2 < q) || q == (maxFin f).2 && decide ((maxFin f).1 < M)) then (overflowTo f mode false neg, fl1)
      else (encodeFin f neg M q, fl2)).1 < 2 ^ elemBits f := by
  rw [maxFin_scalar h1 h4]
  split
  · exact overflowTo_lt h1 h4 mode neg
  · next hfits =>
    simp only [Bool.or_eq_true, decide_eq_true_eq, not_or] at hfits
    have hexp := Nat.two_pow_pos (expBits f)
    exact encodeFin_lt h1 h4 hM (.inr (by omega))

theorem roundFin_lt (mode : Nat) (neg : Bool) (m : Nat) (e : Int) : (roundFin f mode false neg m e false).1 < 2 ^ elemBits f := by
  unfold roundFin
  extract_lets mb emin q0 q
  split
  · exact encodeFin_lt h1 h4 (Nat.two_pow_pos _) (.inl (Nat.two_pow_pos _))
  · have hle : (roundAt mode neg m e q false).1 ≤ 2 ^ (mb + 1) := roundAt_le (by omega)
    generalize roundAt mode neg m e q false = R at hle ⊢
    obtain ⟨M, ex⟩ := R
    obtain ⟨M0, x0⟩ := roundAt mode neg m e q0 false
    dsimp only
    split
    · exact encodeOrOverflow_lt h1 h4 mode neg _ _ _ (Nat.pow_lt_pow_right (by decide) (Nat.lt_succ_self mb))
    · next hne => exact encodeOrOverflow_lt h1 h4 mode neg _ _ _ (lt_of_le_of_ne hle hne)

theorem roundTo_lt (mode : Nat) (v : FVal) : (roundTo f mode v).1 < 2 ^ elemBits f := by
  cases v with
  | nan s n => exact encodeNan_lt h1 h4
  | inf n =>
    simp only [roundTo, convertFloat, (scalarFormat h1 h4).2.1, if_true]
    exact encodeInf_lt h1 h4 n
  | fin n m e => exact roundFin_lt h1 h4 mode n m e

end

/-! ## Lanes packed into a register (R387) -/

/-- Lane values of `b` bits, the first `n`, in a register. -/
def packLanes (b : Nat) (g : Nat → Nat) (n : Nat) : Nat :=
  ((List.range n).map fun l => (l, g l)).foldl (fun v x => v + x.2 % 2 ^ b * 2 ^ (b * x.1)) 0

theorem packLanes_succ (b : Nat) (g : Nat → Nat) (n : Nat) : packLanes b g (n + 1) = packLanes b g n + g n % 2 ^ b * 2 ^ (b * n) := by
  simp [packLanes, List.range_succ]

theorem packLanes_lt (b : Nat) (g : Nat → Nat) (n : Nat) : packLanes b g n < 2 ^ (b * n) := by
  induction n with
  | zero => simp [packLanes]
  | succ n ih =>
    have hlane : (g n % 2 ^ b + 1) * 2 ^ (b * n) ≤ 2 ^ b * 2 ^ (b * n) := Nat.mul_le_mul_right _ (Nat.mod_lt _ (Nat.two_pow_pos b))
    rw [packLanes_succ, Nat.mul_succ, Nat.pow_add, Nat.mul_comm (2 ^ (b * n))]
    rw [Nat.add_mul, Nat.one_mul] at hlane
    omega

theorem toNat_packLanes {b n w : Nat} (g : Nat → Nat) (hw : b * n = w) : (BitVec.ofNat w (packLanes b g n)).toNat = packLanes b g n := by
  subst hw
  rw [BitVec.toNat_ofNat, Nat.mod_eq_of_lt (packLanes_lt b g n)]

theorem packLanes_lane {b l n : Nat} (g : Nat → Nat) (h : l < n) : packLanes b g n / 2 ^ (b * l) % 2 ^ b = g l % 2 ^ b := by
  induction n with
  | zero => omega
  | succ n ih =>
    rw [packLanes_succ]
    rcases Nat.lt_succ_iff_lt_or_eq.1 h with hl | rfl
    · obtain ⟨k, rfl⟩ := Nat.exists_eq_add_of_lt hl
      have hsplit : g (l + k + 1) % 2 ^ b * 2 ^ (b * (l + k + 1)) = 2 ^ (b * l) * (2 ^ b * (g (l + k + 1) % 2 ^ b * 2 ^ (b * k))) := by
        rw [show b * (l + k + 1) = b * l + (b + b * k) by ring, Nat.pow_add, Nat.pow_add]
        ring
      rw [hsplit, Nat.add_mul_div_left _ _ (Nat.two_pow_pos _), Nat.add_mul_mod_self_left]
      exact ih hl
    · rw [Nat.add_mul_div_right _ _ (Nat.two_pow_pos _), Nat.div_eq_of_lt (packLanes_lt b g l), Nat.zero_add, Nat.mod_mod]

end Sys2Proof.Machine
end

section
/-! The vector unit runs: bodies, SFU members, held faults and their choices, the lanes of VADD (O39). -/

namespace Sys2Proof.Machine

/-! ## The engines of a core -/

section
variable (s : State) (core : Nat)

@[simp] theorem State.modEng_eng (f : Engines → Engines) : ((s.modEng core f).coreOf core).eng = f (s.coreOf core).eng := by
  rw [State.modEng, State.coreOf_modCore_same s core (f := fun c => { c with eng := f c.eng }) fun _ => rfl]

theorem State.modEng_here (f : Engines → Engines) : s.modEng s.core.id f = { s with core := { s.core with eng := f s.core.eng } } :=
  State.modCore_here _ _ rfl

theorem State.setBusy_coreOf (n k : Nat) : (s.setBusy n).coreOf k = s.coreOf k := rfl

@[simp] theorem State.setHead_eng (b : Option Body) : ((s.setHead core b).coreOf core).eng =
    { (s.coreOf core).eng with vq := b.toList ++ (s.coreOf core).eng.vq.tail } := by
  rw [State.setHead, State.setBusy_coreOf, State.modEng_eng]

/-- SPOS alone changes. -/
theorem State.setSpos_eng (j : Nat) (b : Body) : ∃ p, ((s.setSpos core j b).coreOf core).eng = { (s.coreOf core).eng with spos := p } :=
  ⟨_, State.modEng_eng _ _ _⟩

theorem State.idleSpos_eng (b : Body) : ∃ p, ((s.idleSpos core b).coreOf core).eng = { (s.coreOf core).eng with spos := p } :=
  State.setSpos_eng s.fresh.2 core _ b

theorem State.countOp_coreOf (launch : Nat) : (s.countOp launch).coreOf core = s.coreOf core := rfl

theorem State.fillWords_nil : s.fillWords [] = s := rfl

/-- A member without a record resolves nothing. -/
theorem State.resolveReds_none {m : VecIns} (h : m.fut = none) : s.resolveReds core [m] = s := by
  simp [State.resolveReds, h]

end

/-! ## A body begins (R389) -/

theorem exec_vectorBodyStart {s : State} {core : Nat} {b : Body} {r : List Body} (hq : (s.coreOf core).eng.vq = b :: r)
    (hs : b.started = false) (hb : s.storesBefore core b.frame b.num = true) :
    exec (.vectorBodyStart core) s = .next ((s.setHead core (some { b with started := true })).setSpos core b.chunk b) := by
  change execVectorBodyStart core s = _
  simp only [execVectorBodyStart, hq, hs, hb]
  rfl

/-! ## Bodies of one member over value registers (R391) -/

theorem State.readLanes_value (s : State) (core lanes j : Nat) (n : Option Nat) (f : Lane) (c : ChunkCache) (x : Fin 8) :
    s.readLanes core lanes j n f c (8 + x.1) = .ok (s, c, (List.range lanes).map (vlane f (s.coreOf core).eng.f[x])) := by
  unfold State.readLanes
  dsimp only
  rw [if_pos (Nat.le_add_right 8 x.1), Nat.add_sub_cancel_left]
  have hx : (s.coreOf core).eng.f.toList.getD x.1 0 = (s.coreOf core).eng.f[x] := by
    rw [List.getD_eq_getElem?_getD, List.getElem?_eq_getElem (by simp), Option.getD_some, Vector.getElem_toList]
    rfl
  rw [hx]
  rfl

theorem getD_map_range {α : Type} (f : Nat → α) (d : α) {l n : Nat} (h : l < n) : ((List.range n).map f).getD l d = f l := by
  rw [List.getD_eq_getElem?_getD, List.getElem?_map, List.getElem?_range h]
  rfl

theorem any_range_getD {α : Type} (p : α → Bool) (f : Nat → α) (d : α) (n : Nat) :
    ((List.range n).any fun l => p (((List.range n).map f).getD l d)) = (List.range n).any fun l => p (f l) := by
  rw [Bool.eq_iff_iff, List.any_eq_true, List.any_eq_true]
  exact exists_congr fun l => and_congr_right fun hl => by rw [getD_map_range f d (List.mem_range.1 hl)]

theorem any_or {α : Type} (p q : α → Bool) (l : List α) : (l.any fun x => p x || q x) = (l.any p || l.any q) := by
  rw [Bool.eq_iff_iff]
  simp only [List.any_eq_true, Bool.or_eq_true, and_or_left, exists_or]

section
variable {m : VecIns} {v : VForm} (hv : vform m.instr = some v)
include hv

theorem bodyCheck_single {b : Body} (e : Engines) (hi : b.ins = [m]) (hs : v.streams = []) : bodyCheck e b = .ok (v.lanes, none) := by
  simp [bodyCheck, hi, hv, hs, pure, Except.pure, Except.map]

/-- A member whose destination is a value register writes no word. -/
theorem wordsWritten_value (e : Engines) (core lanes j : Nat) (n : Option Nat) {r : Nat} (hd : v.dst = some r) (hr : 8 ≤ r) :
    wordsWritten e core lanes j n [m] = [] := by
  simp [wordsWritten, hv, hd, hr]

end

/-- The end of a body that has run its chunks (R391, R394, R78). -/
def State.bodyEnds (s : State) (core : Nat) (b : Body) : State :=
  ((((s.setSpos core (b.chunk + 1) b).setHead core none).resolveReds core b.ins).countOp b.launch).idleSpos core b

theorem State.bodyEnds_eng (s : State) (core : Nat) {b : Body} {m : VecIns} (hi : b.ins = [m]) (hf : m.fut = none) :
    ∃ p, ((s.bodyEnds core b).coreOf core).eng = { (s.coreOf core).eng with spos := p, vq := (s.coreOf core).eng.vq.tail } := by
  obtain ⟨p, hp⟩ := s.setSpos_eng core (b.chunk + 1) b
  obtain ⟨q, hq⟩ := State.idleSpos_eng ((((s.setSpos core (b.chunk + 1) b).setHead core none).resolveReds core b.ins).countOp b.launch) core b
  refine ⟨q, hq.trans ?_⟩
  rw [State.countOp_coreOf, hi, State.resolveReds_none _ _ hf, State.setHead_eng, hp]
  rfl

theorem State.bodyEnds_mem (s : State) (core : Nat) (b : Body) : (s.bodyEnds core b).mem = s.mem := by
  simp [State.bodyEnds]

section
variable {s : State} {core : Nat} {b : Body} {r : List Body} {m : VecIns} {v : VForm} (hq : (s.coreOf core).eng.vq = b :: r)
  (hh : (s.coreOf core).eng.held = none) (hst : b.started = true) (hdy : b.dying = false) (hw : b.wait = false) (hch : b.chunk = 0)
  (hi : b.ins = [m]) (hv : vform m.instr = some v) (hs : v.streams = [])
include hq hh

theorem exec_vectorChunk_waits (h : b.wait = true) : exec (.vectorChunk core) s = .fault .notEnabled := by
  change execVectorChunk core s = _
  simp only [execVectorChunk, hq, hh, h, Bool.or_true, if_true]

include hst hdy hw hch hi hv hs

/-- The one member, done, ends its body. -/
theorem exec_vectorChunk_ends {k d : Nat} {u : State} {c : ChunkCache} {ms : List VecIns} (hdst : v.dst = some d) (hd : 8 ≤ d)
    (hloop : State.vecLoop core 0 none ([m].drop b.done) s (b.cur.getD []) [] = (u, ms, k, c, none))
    (hms : [m].take b.done ++ ms = [m]) (hk : b.done + k = 1) :
    exec (.vectorChunk core) s = .next (u.bodyEnds core { b with done := 1, cur := some c }) := by
  change execVectorChunk core s = _
  simp only [execVectorChunk, hq, hh, hst, hw, hdy, hch, bodyCheck_single hv _ hi hs, hi, hloop, hms, hk, chunksOf,
    wordsWritten_value hv _ _ _ _ _ hdst hd]
  simp [State.fillWords_nil, State.bodyEnds]

end

/-! ## An SFU member (R397) -/

/-- The form of an SFU word. -/
def sfuVForm (fn : SfuFn) (o : VsfuOp) : VForm := ⟨.sfu fn, some o.d.1, [o.a.1], if o.b16 then .bf16 else .f32, if o.b16 then .bf16 else .f32⟩

theorem vform_sfu {i : Instr} {o : VsfuOp} (h : i = .vex2 o ∨ i = .vlg2 o ∨ i = .vrcp o ∨ i = .vrsq o) :
    ∃ fn, vform i = some (sfuVForm fn o) := by
  rcases h with rfl | rfl | rfl | rfl
  · exact ⟨.ex2, rfl⟩
  · exact ⟨.lg2, rfl⟩
  · exact ⟨.rcp, rfl⟩
  · exact ⟨.rsq, rfl⟩

theorem VecIns.sfuForm_sfu {m : VecIns} {fn : SfuFn} {o : VsfuOp} (h : vform m.instr = some (sfuVForm fn o)) :
    m.sfuForm = some (sfuVForm fn o) := by
  rw [VecIns.sfuForm, h]
  rfl

theorem sfuVForm_streams {fn : SfuFn} {o : VsfuOp} (hd : 8 ≤ o.d.1) (ha : 8 ≤ o.a.1) : (sfuVForm fn o).streams = [] := by
  simp [VForm.streams, sfuVForm, hd, ha]

theorem sfuVForm_dst (fn : SfuFn) (o : VsfuOp) : (sfuVForm fn o).dst = some o.d.1 := rfl

theorem sfuVForm_lanes (fn : SfuFn) (o : VsfuOp) : (sfuVForm fn o).lanes = 512 / laneBits (sfuVForm fn o).f := by
  simp only [VForm.lanes, sfuVForm, Nat.max_self]

section
variable {s : State} {core : Nat} {b : Body} {r : List Body} {m : VecIns} {v : VForm} (hq : (s.coreOf core).eng.vq = b :: r)
  (hh : (s.coreOf core).eng.held = none) (hst : b.started = true) (hdy : b.dying = false) (hw : b.wait = false)
  (hi : b.ins = [m]) (hv : vform m.instr = some v) (hs : v.streams = []) (hsfu : m.sfuForm = some v) (hd : b.done = 0)
include hsfu

/-- The SFU's member is not computed in the loop. -/
theorem State.vecLoop_sfu (c : ChunkCache) : State.vecLoop core b.chunk none [m] s c [] = (s, [m], 0, c, none) := by
  rw [State.vecLoop, hsfu]
  rfl

include hq hh hst hdy hw hi hv hs hd

theorem exec_vectorChunk_sfu : exec (.vectorChunk core) s = s.sfuEnter core v.lanes none b v := by
  change execVectorChunk core s = _
  simp only [execVectorChunk, hq, hh, hst, hw, hdy, bodyCheck_single hv _ hi hs, hi, hd, List.drop_zero, State.vecLoop_sfu hsfu]
  simp [hsfu]

theorem exec_vectorChunk_sfuEnters {y : Fin 8} (hsrc : v.srcs = [8 + y.1]) (hc : b.cur = none) (h16 : (s.coreOf core).eng.sfu.length < 16)
    (h4 : ((s.coreOf core).eng.sfu.filter fun x => x.vec).length < 4) :
    exec (.vectorChunk core) s = .next ((s.setHead core (some { b with cur := some [], wait := true })).modEng core fun e =>
      { e with sfu := e.sfu ++ [⟨b.frame, 0, 0, 0, true, (List.range v.lanes).map (vlane v.f (s.coreOf core).eng.f[y]), none⟩] }) := by
  rw [exec_vectorChunk_sfu hq hh hst hdy hw hi hv hs hsfu hd]
  unfold State.sfuEnter
  simp only [h16, h4, hsrc, hc, State.readAll, State.readLanes_value]
  rfl

theorem exec_vectorChunk_sfuFull
    (h : 16 ≤ (s.coreOf core).eng.sfu.length ∨ 4 ≤ ((s.coreOf core).eng.sfu.filter fun x => x.vec).length) :
    exec (.vectorChunk core) s = .fault .notEnabled := by
  rw [exec_vectorChunk_sfu hq hh hst hdy hw hi hv hs hsfu hd]
  unfold State.sfuEnter
  dsimp only
  have hfull : (decide (((s.coreOf core).eng.sfu.filter fun x => x.vec).length < 4) && decide ((s.coreOf core).eng.sfu.length < 16)) = false := by
    rw [Bool.and_eq_false_iff, decide_eq_false_iff_not, decide_eq_false_iff_not]
    omega
  rw [hfull]
  rfl

end

/-! ## A held fault delivered (R395) -/

/-- A trap changes no engine of its core, and names its cause, where it goes to EVEC (R200). -/
theorem State.trap_evec_cause (s : State) {code : Nat} {a : Word} (h1 : s.thr.sup = false) (h2 : causeSv code (s.thr.st.getLsbD 16) = false)
    (h3 : s.thr.tr.inE = false) (h4 : s.thr.tr.evec ≠ 0) :
    (s.trap (cause code a)).thr.tr.ecause = BitVec.ofNat 64 code ∧ (s.trap (cause code a)).core.eng = s.core.eng := by
  have hu := s.unpop_thr
  have heng : s.unpop.core.eng = s.core.eng := by
    unfold State.unpop
    split <;> rfl
  have h5 : (s.unpop.thr.tr.evec == 0) = false := by rw [hu]; simpa using h4
  have h6 : s.unpop.thr.sup = false := by rw [hu]; exact h1
  have h7 : causeSv (cause code a).code (s.unpop.thr.st.getLsbD 16) = false := by rw [hu]; exact h2
  have h8 : s.unpop.thr.tr.inE = false := by rw [hu]; exact h3
  simp only [State.trap, h5, h6, h7, h8, Bool.or_false, Bool.not_false, Bool.and_false, Bool.false_and, Bool.false_eq_true, if_false]
  exact ⟨rfl, heng⟩

/-- The state in which a held fault traps. -/
def State.faultMarked (s : State) (h : VHeld) : State :=
  let s1 := s.modEng s.core.id fun e => { e with held := some { h with delivered := true } }
  if h.cause = cSUBN then s1.countCore s.core.id 0x013 s.thr.launch else s1

theorem exec_vectorFaultDelivery {s : State} {h : VHeld} (hl : s.thr.live = true) (hc : s.thr.core = s.core.id)
    (hh : s.core.eng.held = some h) (hn : h.delivered = false) (hf : h.frame = s.thr.frame) (hpos : s.thr.pos.isSome = true)
    (hm : s.thr.migr = none) (hp : s.thr.park = none) :
    exec (.vectorFaultDelivery s.core.id s.thr.frame) s = .next
      (((s.modThr Thread.unpark).faultMarked h).trap (cause h.cause (if h.cause = cSUBN then BitVec.ofNat 64 h.chunk else h.addr))) := by
  have hat : s.threadAt s.core.id s.thr.frame = some s.thr := by rw [← hc]; exact State.threadAt_issuing hl
  have hfault : s.faultOf s.thr = some h := by
    rw [State.faultOf, hc, State.coreOf_self, hh]
    simp [hn, hf]
  change execVectorFaultDelivery s.core.id s.thr.frame s = _
  simp only [execVectorFaultDelivery, hat, hfault, hpos, hm, hp, Option.isNone_none, Bool.true_or, Bool.and_self, whenEnabled_true]
  have his : (s.thr.live && s.thr.is s.core.id s.thr.frame) = true := by simp [hl, Thread.is, hc]
  rw [State.asThread, if_pos his]
  rfl

theorem State.faultMarked_thr (s : State) (h : VHeld) : (s.faultMarked h).thr = s.thr := by
  simp [State.faultMarked, apply_ite State.thr]

theorem State.faultMarked_mem (s : State) (h : VHeld) : (s.faultMarked h).mem = s.mem := by
  simp [State.faultMarked, apply_ite State.mem]

theorem State.countCore_here_eng (s : State) (k l : Nat) : (s.countCore s.core.id k l).core.eng = s.core.eng := by
  rw [State.countCore, State.modCore_here _ _ rfl]

theorem State.faultMarked_eng (s : State) (h : VHeld) :
    (s.faultMarked h).core.eng = { s.core.eng with held := some { h with delivered := true } } := by
  unfold State.faultMarked
  rw [State.modEng_here]
  dsimp only
  split
  · exact State.countCore_here_eng { s with core := _ } _ _
  · rfl

theorem State.faultMarked_trap {s : State} {h : VHeld} {a : Word} (hsup : s.thr.sup = false) (hinE : s.thr.tr.inE = false)
    (hvec : s.thr.tr.evec ≠ 0) (hcause : h.cause = cENGF ∨ h.cause = cSUBN ∧ s.thr.st.getLsbD 16 = false) :
    let t := (s.faultMarked h).trap (cause h.cause a)
    t.core.eng.held = some { h with delivered := true } ∧ t.thr.pc = aligned s.thr.tr.evec ∧ t.thr.tr.epc = s.thr.pc ∧
      t.thr.tr.ecause = BitVec.ofNat 64 h.cause ∧ t.thr.tr.eval = a ∧ t.thr.g = s.thr.g ∧ t.mem = s.mem := by
  intro t
  have hsv : causeSv h.cause (s.thr.st.getLsbD 16) = false := by
    rcases hcause with h | ⟨h, hst⟩
    · rw [h]
      cases s.thr.st.getLsbD 16 <;> rfl
    · rw [h, hst]
      rfl
  have hthr := s.faultMarked_thr h
  rw [← hthr] at hsup hinE hvec hsv ⊢
  obtain ⟨hpc, hepc, heval, -, hg, -⟩ := State.trap_evec (s.faultMarked h) (cause h.cause a) hsup hsv hinE hvec
  obtain ⟨hec, heng⟩ := State.trap_evec_cause (s.faultMarked h) (a := a) hsup hsv hinE hvec
  refine ⟨?_, hpc, hepc, hec, heval, hg, (State.trap_mem _ _).trans (s.faultMarked_mem h)⟩
  rw [heng, State.faultMarked_eng]

/-! ## The choices at VRSM (R395) -/

section
variable {s : State} (hl : s.thr.live = true) (ha : s.thr.anchored = true)
include hl ha

theorem vrsmStep_anchored (choice : Nat) : vrsmStep choice s = .next ((s.vrsm s.core.id choice).retire false) := by
  rw [vrsmStep, withThread_live _ _ hl, ha]
  rfl

end

/-- A held body once its instruction goes on. -/
def Body.answered (b : Body) (h : VHeld) (choice : Nat) : Body :=
  { b with ins := b.ins.modify h.idx fun m => { m with assist := if h.cause = cSUBN then choice else m.assist } }

theorem State.resumeHeld_here {s : State} {h : VHeld} (hh : s.core.eng.held = some h) (choice : Nat) :
    s.resumeHeld s.core.id choice = s.modEng s.core.id fun e => { e with
      held := none
      vq := e.vq.modifyHead fun b => b.answered h choice } := by
  rw [State.resumeHeld, State.coreOf_self, hh]
  rfl

/-- The engines of a core once a held body and those behind it are dropped. -/
def Engines.vecDropped (e : Engines) : Engines :=
  { e with
    held := none, vq := []
    futs := e.futs.map fun f => if (e.vq.flatMap fun b => b.ins.filterMap fun m => m.fut).contains f.id && f.status == .pending
      then { f with status := .cancelled } else f }

theorem State.discardHeld_here {s : State} {h : VHeld} {b : Body} {r : List Body} (hh : s.core.eng.held = some h)
    (hq : s.core.eng.vq = b :: r) (hs : stoppedWords s.core.eng s.core.id b = []) :
    s.discardHeld s.core.id = ((s.modEng s.core.id fun _ => s.core.eng.vecDropped).setBusy s.core.id).idleSpos s.core.id b := by
  rw [State.discardHeld, State.coreOf_self]
  simp only [hh, hq, hs, State.fillWords_nil, Engines.vecDropped]
  rw [State.modEng_here, State.modEng_here]

/-! ## VADD over value registers (R387, R392) -/

/-- The form of VADD. -/
def vaddForm (o : V3) : VForm := ⟨.add, some o.d.1, [o.a.1, o.b.1], o.f, o.f⟩

/-- Has a lane of two registers a subnormal operand of a float VADD? -/
def vaddSub (f : Lane) (u w : BitVec 512) : Bool :=
  laneFloat f && (List.range (512 / laneBits f)).any fun l => isSubnormal (laneFmt f) (vlane f u l) || isSubnormal (laneFmt f) (vlane f w l)

/-- A lane of the sum of two registers. -/
def vaddLane (f : Lane) (u w : BitVec 512) (l : Nat) : Nat :=
  if laneFloat f then
    (roundTo (laneFmt f) 0 (addVal 0 (decodeFloat (laneFmt f) (vlane f u l)) (decodeFloat (laneFmt f) (vlane f w l))).1).1
  else (vlane f u l + vlane f w l) % 2 ^ laneBits f

theorem vaddLane_lt (f : Lane) (u w : BitVec 512) (l : Nat) : vaddLane f u w l < 2 ^ laneBits f := by
  unfold vaddLane
  split
  · next hf =>
    have hpos : 1 ≤ laneFmt f := by cases f <;> decide
    exact roundTo_lt hpos (by simpa [laneFloat] using hf) _ _
  · exact Nat.mod_lt _ (Nat.two_pow_pos _)

theorem laneBits_mul_lanes (f : Lane) : laneBits f * (512 / laneBits f) = 512 := by cases f <;> rfl

/-- A lane of a register that lanes have been packed into. -/
theorem vlane_packLanes (f : Lane) (g : Nat → Nat) {l : Nat} (h : l < 512 / laneBits f) :
    vlane f (BitVec.ofNat 512 (packLanes (laneBits f) g (512 / laneBits f))) l = g l % 2 ^ laneBits f := by
  rw [vlane, toNat_packLanes g (laneBits_mul_lanes f), packLanes_lane g h]

theorem activeLanes_none (lanes j : Nat) : activeLanes lanes j none = List.range lanes := by
  simp [activeLanes]

/-- The engines of a core with the lanes of a sum in a value register and flags. -/
def Engines.summed (e : Engines) (f : Lane) (d x y : Fin 8) (fl : BitVec 5) : Engines :=
  { e with
    f := e.f.set d.1 (BitVec.ofNat 512 (packLanes (laneBits f) (vaddLane f e.f[x] e.f[y]) (512 / laneBits f)))
    vflags := e.vflags ||| fl }

/-- Lanes written to a value register. -/
theorem State.writeLanes_value (s : State) (core lanes j : Nat) (f : Lane) (g : Nat → Nat) (n : Nat) (d : Fin 8) :
    s.writeLanes core lanes j (8 + d.1) f ((List.range n).map fun l => (l, g l)) =
      .ok (s.modEng core fun e => { e with f := e.f.set d.1 (BitVec.ofNat 512 (packLanes (laneBits f) g n)) }) := by
  unfold State.writeLanes
  rw [if_pos (Nat.le_add_right 8 d.1)]
  simp only [Nat.add_sub_cancel_left, d.2, dif_pos]
  rfl

theorem vaddForm_lanes (o : V3) : (vaddForm o).lanes = 512 / laneBits o.f := by
  simp only [VForm.lanes, vaddForm, Nat.max_self]

/-- The test of a VADD's operands for subnormals (R392). -/
theorem vaddForm_subn (o : V3) (u w : BitVec 512) : ((vaddForm o).subn && [(List.range (512 / laneBits o.f)).map (vlane o.f u),
    (List.range (512 / laneBits o.f)).map (vlane o.f w)].any fun ls => (List.range (512 / laneBits o.f)).any fun l =>
      isSubnormal (laneFmt o.f) (ls.getD l 0)) = vaddSub o.f u w := by
  simp only [List.any_cons, List.any_nil, any_range_getD, Bool.or_false, vaddSub, any_or]
  simp [VForm.subn, vaddForm]

theorem laneOp_vadd (o : V3) (u w : BitVec 512) (l c : Nat) (ga : Word) (rm : Nat) :
    (laneOp (vaddForm o) (vlane o.f u l) (vlane o.f w l) c ga rm).1 = vaddLane o.f u w l := by
  change (if laneFloat o.f then laneFp .add (laneFmt o.f) (vlane o.f u l) (vlane o.f w l) c ga
    else (laneInt .add o.f (vlane o.f u l) (vlane o.f w l) c, 0)).1 = _
  rw [apply_ite Prod.fst]
  rfl

/-- The lanes of two value registers summed and written. -/
theorem State.vecWrite_vadd {o : V3} {d x y : Fin 8} (s : State) (core : Nat) (m : VecIns) (hd : o.d.1 = 8 + d.1) :
    ∃ fl t, s.vecWrite core 0 none (vaddForm o) m [(List.range (512 / laneBits o.f)).map (vlane o.f (s.coreOf core).eng.f[x]),
      (List.range (512 / laneBits o.f)).map (vlane o.f (s.coreOf core).eng.f[y])] = .ok t ∧ t.mem = s.mem ∧
      (t.coreOf core).eng = (s.coreOf core).eng.summed o.f d x y fl := by
  unfold State.vecWrite
  rw [activeLanes_none, vaddForm_lanes]
  extract_lets opnds dIdx rs fl
  have hout : rs.map (fun r => (r.1, r.2.1)) =
      (List.range (512 / laneBits o.f)).map fun l => (l, vaddLane o.f (s.coreOf core).eng.f[x] (s.coreOf core).eng.f[y] l) := by
    rw [List.map_map]
    refine List.map_congr_left fun l hl => congrArg (Prod.mk l) ?_
    have hfst : opnds l 0 = vlane o.f (s.coreOf core).eng.f[x] l := getD_map_range _ 0 (List.mem_range.1 hl)
    have hsnd : opnds l 1 = vlane o.f (s.coreOf core).eng.f[y] l := getD_map_range _ 0 (List.mem_range.1 hl)
    simp only [hfst, hsnd]
    exact laneOp_vadd o _ _ l _ _ _
  have hdst : (vaddForm o).dst.getD 0 = 8 + d.1 := hd
  refine ⟨fl, _, by rw [hout, hdst, State.writeLanes_value]; rfl, by simp, ?_⟩
  rw [State.modEng_eng, State.modEng_eng]
  rfl

section
variable {o : V3} {d x y : Fin 8} (hx : o.a.1 = 8 + x.1) (hy : o.b.1 = 8 + y.1)
include hx hy

theorem vaddForm_streams (hd : o.d.1 = 8 + d.1) : (vaddForm o).streams = [] := by
  simp [VForm.streams, vaddForm, hd, hx, hy]

omit hx hy in
/-- A member without ASSIST goes on without. -/
theorem VecIns.assist_none {m : VecIns} (h : m.assist = 0) : { m with assist := if m.assist = 1 then 0 else m.assist } = m := by
  cases m
  subst h
  rfl

section
variable {s : State} {core : Nat} {m : VecIns} (hm : m.instr = .vadd o) (hassist : m.assist = 0)
include hm hassist

theorem State.vecMember_vaddSub (c : ChunkCache) (h : vaddSub o.f (s.coreOf core).eng.f[x] (s.coreOf core).eng.f[y] = true) :
    s.vecMember core 0 none c m = .error (s.modEng core fun e => { e with vflags := (s.coreOf core).eng.vflags }, cSUBN, 0) := by
  have hv : vform m.instr = some (vaddForm o) := by rw [hm]; rfl
  have hsub := vaddForm_subn o (s.coreOf core).eng.f[x] (s.coreOf core).eng.f[y]
  rw [h] at hsub
  simp only [State.vecMember, hv, activeLanes_none, vaddForm_lanes]
  simp only [vaddForm, hx, hy, State.readAll, State.readLanes_value, Except.map] at hsub ⊢
  rw [hsub, hassist]
  rfl

/-- The sum of the lanes stands in the destination register. -/
theorem State.vecMember_vadd (hd : o.d.1 = 8 + d.1) (c : ChunkCache) (h : vaddSub o.f (s.coreOf core).eng.f[x] (s.coreOf core).eng.f[y] = false) :
    ∃ fl t, s.vecMember core 0 none c m = .ok (t, c, m) ∧ t.mem = s.mem ∧ (t.coreOf core).eng = (s.coreOf core).eng.summed o.f d x y fl := by
  have hv : vform m.instr = some (vaddForm o) := by rw [hm]; rfl
  have hsub := vaddForm_subn o (s.coreOf core).eng.f[x] (s.coreOf core).eng.f[y]
  rw [h] at hsub
  simp only [State.vecMember, hv, activeLanes_none, vaddForm_lanes]
  simp only [vaddForm, hx, hy, State.readAll, State.readLanes_value, Except.map] at hsub ⊢
  obtain ⟨fl, t, ht, hmem, heng⟩ := s.vecWrite_vadd (x := x) (y := y) core m hd
  refine ⟨fl, t, ?_, hmem, heng⟩
  simp only [vaddForm, hx, hy] at ht
  rw [hsub, ht, Bool.false_and, if_neg (by decide)]
  exact congrArg (fun m => Except.ok (t, c, m)) (VecIns.assist_none hassist)

end

end

/-! ## The fault of a member (R395) -/

/-- A fault in the chunk of a body that runs in the name of a thread is held for it. -/
theorem State.bodyFault_eng {s : State} {core : Nat} {b : Body} {m : VecIns} {idx : Nat} (hdy : b.dying = false) (hfr : b.frame ≠ 64)
    (hm : b.ins[idx]? = some m) (cause : Nat) (a : Word) : ((s.bodyFault core b idx cause a).coreOf core).eng =
      { (s.coreOf core).eng with
        vq := { b with cur := none, wait := false } :: (s.coreOf core).eng.vq.tail
        held := some ⟨m.pc, b.chunk, cause, a, false, b.frame, idx⟩ } := by
  simp only [State.bodyFault, hdy, hfr, State.holdFault, hm, Bool.false_eq_true, if_false]
  rw [State.modEng_eng, State.setHead_eng]
  rfl

theorem State.bodyFault_mem {s : State} {core : Nat} {b : Body} {idx : Nat} (hdy : b.dying = false) (cause : Nat) (a : Word) :
    (s.bodyFault core b idx cause a).mem = s.mem := by
  simp [State.bodyFault, hdy, apply_ite State.mem]

/-- A body whose one member faults keeps it, and the fault is held for its thread. -/
theorem exec_vectorChunk_holds {s u : State} {core : Nat} {b : Body} {r : List Body} {m : VecIns} {v : VForm} {c : ChunkCache}
    {flt : Nat × Word} (hq : (s.coreOf core).eng.vq = b :: r) (hh : (s.coreOf core).eng.held = none)
    (hst : b.started = true) (hdy : b.dying = false) (hw : b.wait = false) (hi : b.ins = [m]) (hv : vform m.instr = some v)
    (hs : v.streams = []) (hdone : b.done = 0) (hfr : b.frame ≠ 64)
    (hloop : State.vecLoop core b.chunk none [m] s (b.cur.getD []) [] = (u, [m], 0, c, some flt)) :
    ∃ t b1, exec (.vectorChunk core) s = .next t ∧ t.mem = u.mem ∧ (t.coreOf core).eng =
      { (u.coreOf core).eng with
        vq := b1 :: (u.coreOf core).eng.vq.tail
        held := some ⟨m.pc, b.chunk, flt.1, flt.2, false, b.frame, 0⟩ } := by
  let b1 : Body := { b with ins := [m], done := 0, cur := some c }
  have hdy1 : b1.dying = false := hdy
  have hfr1 : b1.frame ≠ 64 := hfr
  have hm1 : b1.ins[0]? = some m := rfl
  refine ⟨u.bodyFault core b1 0 flt.1 flt.2, { b1 with cur := none, wait := false }, ?_, State.bodyFault_mem hdy1 _ _,
    State.bodyFault_eng hdy1 hfr1 hm1 _ _⟩
  change execVectorChunk core s = _
  simp only [execVectorChunk, hq, hh, hst, hw, hdy, bodyCheck_single hv _ hi hs, hi, hdone, List.drop_zero, hloop, b1]
  rfl

/-! ## The lone VADD (R387, R391, R392) -/

theorem Engines.summed_lane (e : Engines) (f : Lane) (d x y : Fin 8) (fl : BitVec 5) {l : Nat} (h : l < 512 / laneBits f) :
    vlane f (e.summed f d x y fl).f[d] l = vaddLane f e.f[x] e.f[y] l := by
  refine (congrArg (fun v => vlane f v l) (Vector.getElem_set_self d.2)).trans ?_
  rw [vlane_packLanes f _ h, Nat.mod_eq_of_lt (vaddLane_lt _ _ _ _)]

theorem Engines.summed_ne (e : Engines) (f : Lane) {d n : Fin 8} (x y : Fin 8) (fl : BitVec 5) (h : n ≠ d) :
    (e.summed f d x y fl).f[n] = e.f[n] :=
  Vector.getElem_set_ne d.2 n.2 fun hdn => h (Fin.ext hdn.symm)

section
variable {s : State} {core : Nat} {b : Body} {r : List Body} {m : VecIns} {o : V3} {d x y : Fin 8}
  (hq : (s.coreOf core).eng.vq = b :: r) (hh : (s.coreOf core).eng.held = none) (hlone : loneBody b m) (hm : m.instr = .vadd o)
  (hassist : m.assist = 0) (hd : o.d.1 = 8 + d.1) (hx : o.a.1 = 8 + x.1) (hy : o.b.1 = 8 + y.1)
include hq hh hlone hm hassist hd hx hy

theorem exec_vectorChunk_vadd (hfut : m.fut = none) (hsub : vaddSub o.f (s.coreOf core).eng.f[x] (s.coreOf core).eng.f[y] = false) :
    ∃ t p fl, exec (.vectorChunk core) s = .next t ∧ t.mem = s.mem ∧
      (t.coreOf core).eng = { (s.coreOf core).eng.summed o.f d x y fl with spos := p, vq := r } := by
  obtain ⟨hi, hst, hdy, hch, hdone, hcur, hw⟩ := hlone
  have hv : vform m.instr = some (vaddForm o) := by rw [hm]; rfl
  have hnot : m.sfuForm.isSome = false := by rw [VecIns.sfuForm, hv]; rfl
  have hdst : (vaddForm o).dst = some o.d.1 := rfl
  obtain ⟨fl, u, hu, hmem, heng⟩ := State.vecMember_vadd hx hy hm hassist hd [] hsub
  have hloop : State.vecLoop core 0 none ([m].drop b.done) s (b.cur.getD []) [] = (u, [m], 1, [], none) := by
    rw [hdone, hcur]
    simp only [List.drop_zero, State.vecLoop, hnot, Bool.false_eq_true, if_false, Option.getD_none, hu]
    rfl
  obtain ⟨p, hp⟩ := u.bodyEnds_eng core (b := { b with done := 1, cur := some [] }) hi hfut
  refine ⟨_, p, fl, exec_vectorChunk_ends hq hh hst hdy hw hch hi hv (vaddForm_streams hx hy hd) hdst (by omega) hloop (by rw [hdone]; rfl)
    (by rw [hdone]), (State.bodyEnds_mem _ _ _).trans hmem, ?_⟩
  rw [hp, heng, show ((s.coreOf core).eng.summed o.f d x y fl).vq = b :: r from hq]
  rfl

theorem exec_vectorChunk_vaddSub (hfr : b.frame ≠ 64) (hsub : vaddSub o.f (s.coreOf core).eng.f[x] (s.coreOf core).eng.f[y] = true) :
    ∃ t b1, exec (.vectorChunk core) s = .next t ∧ t.mem = s.mem ∧ (t.coreOf core).eng =
      { (s.coreOf core).eng with vq := b1 :: r, held := some ⟨m.pc, 0, cSUBN, 0, false, b.frame, 0⟩ } := by
  obtain ⟨hi, hst, hdy, hch, hdone, hcur, hw⟩ := hlone
  have hv : vform m.instr = some (vaddForm o) := by rw [hm]; rfl
  have hnot : m.sfuForm.isSome = false := by rw [VecIns.sfuForm, hv]; rfl
  have hloop : State.vecLoop core b.chunk none [m] s (b.cur.getD []) [] =
      (s.modEng core fun e => { e with vflags := (s.coreOf core).eng.vflags }, [m], 0, [], some (cSUBN, 0)) := by
    rw [hcur, hch]
    simp only [State.vecLoop, hnot, Bool.false_eq_true, if_false, Option.getD_none, State.vecMember_vaddSub hx hy hm hassist [] hsub]
    rfl
  obtain ⟨t, b1, ht, hmem, heng⟩ :=
    exec_vectorChunk_holds hq hh hst hdy hw hi hv (vaddForm_streams hx hy hd) hdone hfr hloop
  refine ⟨t, b1, ht, hmem.trans (State.modEng_mem ..), ?_⟩
  rw [heng, State.modEng_eng, hch, hq]
  rfl

end

/-! ## Bodies dropped (R395) -/

theorem State.setBusy_pc (s : State) (n : Nat) : (s.setBusy n).thr.pc = s.thr.pc := by
  simp only [State.setBusy, State.modThreads_thr]
  split <;> rfl

theorem State.idleSpos_thr (s : State) (core : Nat) (b : Body) : (s.idleSpos core b).thr = s.thr := by
  simp [State.idleSpos, State.setSpos, State.fresh]

theorem State.idleSpos_here (s : State) (b : Body) : ∃ p, (s.idleSpos s.core.id b).core.eng = { s.core.eng with spos := p } :=
  ⟨_, congrArg (fun t => t.core.eng) (State.modEng_here s.fresh.2 _)⟩

/-- A pending record of a VRED in a dropped body is cancelled. -/
theorem Engines.vecDropped_cancels {e : Engines} {b : Body} {r : List Body} {f : Future} (hq : e.vq = b :: r) (hf : f ∈ e.futs)
    (hp : f.status = .pending) (hm : (b.ins.any fun m => m.fut == some f.id) = true) : { f with status := .cancelled } ∈ e.vecDropped.futs := by
  obtain ⟨m, hm, hid⟩ := List.any_eq_true.1 hm
  have hids : f.id ∈ e.vq.flatMap fun b => b.ins.filterMap fun m => m.fut :=
    List.mem_flatMap.2 ⟨b, by rw [hq]; exact List.mem_cons_self, List.mem_filterMap.2 ⟨m, hm, by simpa using hid⟩⟩
  exact List.mem_map.2 ⟨f, hf, if_pos (by rw [List.contains_iff_mem.2 hids, hp]; rfl)⟩

/-- Settles O39: a body as it begins, a VADD with its lanes or its held fault, an SFU member, and a held fault delivered and answered. -/
theorem vectorRuns : Obligations.VectorRuns := by
  refine ⟨⟨fun s core b r hq hs hb => ?_,
    fun s core b r m o d x y hq hh hlone hm hassist hfut hd hx hy => ⟨fun hsub => ?_, fun hsub hfr => ?_⟩,
    fun s core b r m o hq hh hi hst hdy hch hinstr hd => ?_⟩,
    fun s h hl hc hh hn hf hpos hmigr hpark hpend hinE hinS hsup hvec hcause hnarrow => ?_,
    fun s h b r hl ha hc hh hq => ⟨fun i choice hi => ?_, fun hwords => ?_⟩⟩
  · obtain ⟨p, hp⟩ := (s.setHead core (some { b with started := true })).setSpos_eng core b.chunk b
    refine ⟨_, exec_vectorBodyStart hq hs hb, ?_, by simp, ?_⟩
    · rw [hp, State.setHead_eng, hq]
      rfl
    · rw [hp, State.setHead_eng]
  · obtain ⟨t, p, fl, ht, hmem, heng⟩ := exec_vectorChunk_vadd hq hh hlone hm hassist hd hx hy hfut hsub
    refine ⟨t, ht, hmem, congrArg Engines.vq heng, (congrArg Engines.held heng).trans hh, fun n hn => ?_, fun l hl => ?_⟩
    · rw [heng]
      exact Engines.summed_ne _ _ _ _ fl hn
    · rw [heng]
      exact Engines.summed_lane _ _ d _ _ fl hl
  · obtain ⟨t, b1, ht, hmem, heng⟩ := exec_vectorChunk_vaddSub hq hh hlone hm hassist hd hx hy hfr hsub
    exact ⟨t, _, ht, hmem, (congrArg Engines.f heng :), congrArg Engines.held heng, rfl, rfl, rfl, rfl, rfl⟩
  · obtain ⟨fn, hv⟩ := vform_sfu hinstr
    have hsfu := VecIns.sfuForm_sfu hv
    refine ⟨fun y f hy hf hdone hw hcur => ?_, fun hw => exec_vectorChunk_waits hq hh hw, fun ha hdone hw hfut => ?_⟩
    · have hs := sfuVForm_streams (fn := fn) hd (by omega)
      subst hf
      refine ⟨fun h16 h4 => ?_, exec_vectorChunk_sfuFull hq hh hst hdy hw hi hv hs hsfu hdone⟩
      refine ⟨_, ⟨b.frame, 0, 0, 0, true, (List.range (sfuVForm fn o).lanes).map (vlane (sfuVForm fn o).f (s.coreOf core).eng.f[y]), none⟩,
        exec_vectorChunk_sfuEnters hq hh hst hdy hw hi hv hs hsfu hdone (congrArg (fun n => [n]) hy) hcur h16 h4,
        ?_, rfl, rfl, rfl, fun l hl => ?_, ?_, ?_, by simp⟩
      · rw [State.modEng_eng, State.setHead_eng]
      · exact getD_map_range _ 0 ((sfuVForm_lanes fn o).symm ▸ hl)
      · rw [State.modEng_eng, State.setHead_eng, hq]
        rfl
      · rw [State.modEng_eng, State.setHead_eng]
    · have hs := sfuVForm_streams (fn := fn) hd ha
      have hloop : State.vecLoop core 0 none ([m].drop b.done) s (b.cur.getD []) [] = (s, [], 0, b.cur.getD [], none) := by
        rw [hdone]
        rfl
      obtain ⟨p, hp⟩ := s.bodyEnds_eng core (b := { b with done := 1, cur := some (b.cur.getD []) }) hi hfut
      refine ⟨_, exec_vectorChunk_ends hq hh hst hdy hw hch hi hv hs (sfuVForm_dst fn o) hd hloop (by rw [hdone]; rfl) (by rw [hdone]), ?_, ?_,
        State.bodyEnds_mem _ _ _⟩
      · rw [hp, hq]
        rfl
      · rw [hp]
  · exact ⟨_, exec_vectorFaultDelivery hl hc hh hn hf hpos hmigr hpark,
      State.faultMarked_trap (s := s.modThr Thread.unpark) hsup hinE hvec hcause⟩
  · have hexec : exec i s = vrsmStep choice s ∧ choice ≠ 3 := by
      rcases hi with ⟨rfl, rfl⟩ | ⟨rfl, rfl⟩ | ⟨rfl, rfl⟩
      · exact ⟨rfl, by decide⟩
      · exact ⟨rfl, by decide⟩
      · exact ⟨rfl, by decide⟩
    obtain ⟨hexec, hne⟩ := hexec
    have hthen : s.vrsm s.core.id choice = _ := (if_neg hne).trans (State.resumeHeld_here hh choice)
    refine ⟨_, b.answered h choice, hexec.trans (vrsmStep_anchored hl ha choice), ?_, ?_, rfl, rfl, ?_, ?_⟩
    · rw [State.retire_core, hthen, State.modEng_here]
    · rw [State.retire_core, hthen, State.modEng_here, hq]
      rfl
    · rw [State.retire_thr_pc, hthen, State.modEng_thr]
    · rw [State.retire_mem, hthen, State.modEng_mem]
  · have hthen : s.vrsm s.core.id 3 = _ := (if_pos rfl).trans (State.discardHeld_here hh hq hwords)
    have heng : ∃ p, (s.vrsm s.core.id 3).core.eng = { s.core.eng.vecDropped with spos := p } := by
      rw [hthen, State.modEng_here]
      exact State.idleSpos_here (({ s with core := { s.core with eng := s.core.eng.vecDropped } } : State).setBusy s.core.id) b
    obtain ⟨p, hp⟩ := heng
    refine ⟨_, vrsmStep_anchored hl ha 3, ?_, ?_, ?_, ?_, fun f hf hpend hm => ?_⟩
    · rw [State.retire_core, hp]
      rfl
    · rw [State.retire_core, hp]
      rfl
    · rw [State.retire_mem, hthen, State.idleSpos_mem, State.setBusy_mem, State.modEng_mem]
    · rw [State.retire_thr_pc, hthen, State.idleSpos_thr, State.setBusy_pc, State.modEng_thr]
    · rw [State.retire_core, hp]
      exact Engines.vecDropped_cancels hq hf hpend hm

end Sys2Proof.Machine
end
